-- ==== Sys2Proof/Word.lean ====
section
/-! DEFINITION. The plain types of the model: machine words, bytes, heats and the two sparse containers (a keyed list
and a memory). Their operations stand in Sys2Proof/Machine/SMap.lean and Bits.lean. -/
namespace Sys2Proof

/-- A 64-bit register or address (00 R2). -/
abbrev Word := BitVec 64
/-- A byte. -/
abbrev Byte := BitVec 8
/-- A 32-bit parcel of program text (R37), also the width of a vector lane (R116). -/
abbrev Parcel := BitVec 32
/-- One lane of a vector register (R79). -/
abbrev Lane := BitVec 32
/-- A heat tag (R80). -/
abbrev Heat := BitVec 12
/-- A capability (R106). -/
abbrev Cap := BitVec 128
/-- A keyed list in strictly rising key order: a sparse array whose absent keys read as a default. -/
abbrev SMap (α : Type) := List (Nat × α)
/-- Sparse memory: (address, byte) pairs, addresses strictly rising, no entry equal to the unlisted byte. -/
abbrev Memory := List Host.Cell

end Sys2Proof
end

