-- ==== Sys2Proof/Syntax.lean ====
section
/-! DEFINITION. The instructions of the machine as syntax: one constructor of Instr per row of spec/opcode_table.json,
and the small types their operands use. -/
namespace Sys2Proof

/-- The three engines of a cell (R12). -/
inductive Engine where
  | A | V | M
deriving DecidableEq, Repr

/-- A package of the domain (R1, R10). -/
abbrev PkgId := Fin 32

/-- A pool node (R281). -/
abbrev NodeId := Fin 16

/-- A compute die (R10). -/
structure DieId where
  pkg : PkgId
  die : Fin 8
deriving DecidableEq, Repr

/-- A cell: its number within the die is 24 x cluster + cell (R10). -/
structure CellId where
  pkg  : PkgId
  die  : Fin 8
  cell : Fin 144
deriving DecidableEq, Repr

/-- The die a cell stands on. -/
def CellId.home (c : CellId) : DieId := ⟨c.pkg, c.die⟩

/-- The fault codes of R196 Table 3. -/
inductive FaultCode where
  | none | illegal | priv | stallShort | qsize | slipdead | xlate | rxlate | perm | capfail | heattrap | align | ecc
  | severed | staleTopo | watchdog | leaselost | tagfail | fmt | brk | trapi
deriving DecidableEq, Repr

/-- Why a strand is stowed (R204 Table 7). -/
inductive StowCause where
  | classPreemption | systemRequest | yield | fault
deriving DecidableEq, Repr

/-- A splice hold point of the fabric (R331). -/
inductive HoldPoint where
  | ringStation   (d : DieId)
  | bridgeStation (d : DieId)
  | frontEnd      (n : NodeId)
deriving DecidableEq, Repr

/-- A unit that adopts topology versions: a port of a package or the front end of a pool node (R335). -/
inductive Fabric where
  | port (p : PkgId) (i : Fin 8)
  | node (n : NodeId)
deriving DecidableEq, Repr

/-- What reconfiguration can declare severed (R339). -/
inductive Peer where
  | pkg  (p : PkgId)
  | node (n : NodeId)
deriving DecidableEq, Repr

/-- A link of a package or a pool node (R338, R381). Links 0 to 7 of a package are its optical ports, 8 to 15 the uplinks of bridges
0 to 7, 16 to 23 the direct links of dies 0 to 7 to their HBM stacks, and 24 + k the ring segment from station k to station k + 1. A
pool node has the optical ports 0 to 7, one on each plane, and no other link. -/
structure LinkRef where
  owner : Peer
  link  : Fin 41
deriving DecidableEq, Repr

/-- A word that the host writes to a die, with the IDE stream it comes on, if it comes on one (R390). -/
structure HostWord where
  stream : Option (Fin 9)
  word   : BitVec 64
deriving DecidableEq, Repr

/-- What the host writes to recover a package's firmware: bytes into the load window from an offset on, then a word into reload control
(R395, R399). -/
structure Reload where
  off     : BitVec 24
  bytes   : List Byte
  control : BitVec 64
deriving DecidableEq, Repr

/-- A LOCK request for the TDI of a die, with the IDE stream it binds it to (R384, R390). -/
structure LockRequest where
  die    : DieId
  stream : Fin 9
deriving DecidableEq, Repr

/-- A frame on a sealed link (R381): its direction, its counter, and whether its tag verifies under the link key. The direction of an
optical link is its transmitter's colour, and that of any other link is 0 or 1. -/
structure SealedFrame where
  dir     : Fin 48
  counter : BitVec 64
  tagOk   : Bool
deriving DecidableEq, Repr

/-- What an object holds at its creation: its bytes from offset 0 on with zeros after them, its elements (of a bag or a stack, the top last;
of a fifo, the oldest first), or its token count (R412, R418). -/
inductive NodeContents where
  | bytes (b : List Byte)
  | elems (xs : List (BitVec 64))
  | count (n : BitVec 64)
deriving DecidableEq, Repr

/-- A request to a pool node's management interface (R281, R365): an object with its descriptor, the end of one, its splice
window, or the end of a world's quarantine. -/
inductive NodeRequest where
  | create (oid : BitVec 32) (kind : Fin 5) (pages : Nat) (world : BitVec 16) (guarded : Bool) (duration : BitVec 32)
      (window : Option Nat) (esize : Nat) (contents : NodeContents)
  | free (oid : BitVec 32)
  | setWindow (oid : BitVec 32) (window : Option Nat)
  | clearFailures (world : BitVec 16)
deriving DecidableEq, Repr

/-- The fields of a V word (R45 Table 3), but for the tag and op8, which the constructor fixes. -/
structure VFields where
  pg    : BitVec 4
  aux   : BitVec 4
  stall : BitVec 4
  rnd   : BitVec 3
  ty    : BitVec 3
  minv  : BitVec 1
  mask  : BitVec 3
  D     : BitVec 20
  S1    : BitVec 20
  S2    : BitVec 20
deriving DecidableEq, Repr

/-- The fields of an M word (R52 Tables 5 and 6, R53), but for the tag and op6, which the constructor fixes. -/
structure MFields where
  pg    : BitVec 4
  fmtl  : BitVec 3
  stall : BitVec 4
  bq    : BitVec 4
  aq    : BitVec 4
  acc   : BitVec 2
  cols  : BitVec 8
  fmtb  : BitVec 4
  amode : BitVec 2
  plane : BitVec 3
  rowsm1 : BitVec 5
  sa    : BitVec 20
  sb    : BitVec 20
  dq    : BitVec 4
  dtype : BitVec 3
  curve : BitVec 3
  drnd  : BitVec 3
  zero  : BitVec 1
deriving DecidableEq, Repr

/-- The rows of spec/opcode_table.json: 224 words of text and 110 steps of the device, the host and the environment.
The fields of an A or common word are those of the table (p guard, d destination, s and t sources, i immediate, z size,
c condition or scope, q queue, k capability register, n level, code or stream as the row says). -/
inductive Instr where
  /-- ADD R93 Writes rs1 + rs2, modulo 2^64, to rd. -/
  | add (p : BitVec 4) (t : BitVec 5) (s : BitVec 5) (d : BitVec 5)
  /-- SUB R93 Writes rs1 - rs2 to rd. -/
  | sub (p : BitVec 4) (t : BitVec 5) (s : BitVec 5) (d : BitVec 5)
  /-- AND R93 Writes the bitwise AND of rs1 and rs2 to rd. -/
  | and (p : BitVec 4) (t : BitVec 5) (s : BitVec 5) (d : BitVec 5)
  /-- OR R93 Writes the bitwise OR of rs1 and rs2 to rd. -/
  | or (p : BitVec 4) (t : BitVec 5) (s : BitVec 5) (d : BitVec 5)
  /-- XOR R93 Writes the bitwise XOR of rs1 and rs2 to rd. -/
  | xor (p : BitVec 4) (t : BitVec 5) (s : BitVec 5) (d : BitVec 5)
  /-- SLL R93 Shifts rs1 left by the low six bits of rs2, filling with zeros. -/
  | sll (p : BitVec 4) (t : BitVec 5) (s : BitVec 5) (d : BitVec 5)
  /-- SRL R93 Shifts rs1 right by the low six bits of rs2, filling with zeros. -/
  | srl (p : BitVec 4) (t : BitVec 5) (s : BitVec 5) (d : BitVec 5)
  /-- SRA R93 Shifts rs1 right by the low six bits of rs2, filling with copies of bit 63. -/
  | sra (p : BitVec 4) (t : BitVec 5) (s : BitVec 5) (d : BitVec 5)
  /-- MUL R93 Writes the low 64 bits of rs1 × rs2 to rd. -/
  | mul (p : BitVec 4) (t : BitVec 5) (s : BitVec 5) (d : BitVec 5)
  /-- MULH R93 Writes the high 64 bits of the signed product to rd. -/
  | mulh (p : BitVec 4) (t : BitVec 5) (s : BitVec 5) (d : BitVec 5)
  /-- MULHN R93 Writes the high 64 bits of the unsigned product to rd. -/
  | mulhn (p : BitVec 4) (t : BitVec 5) (s : BitVec 5) (d : BitVec 5)
  /-- DIV R94 Writes the signed quotient to rd; a divisor of zero gives all ones and sets AST.adz. -/
  | div (p : BitVec 4) (t : BitVec 5) (s : BitVec 5) (d : BitVec 5)
  /-- DIVN R94 Writes the unsigned quotient to rd; a divisor of zero gives all ones and sets AST.adz. -/
  | divn (p : BitVec 4) (t : BitVec 5) (s : BitVec 5) (d : BitVec 5)
  /-- REM R94 Writes the signed remainder to rd; a divisor of zero returns the dividend and sets AST.adz. -/
  | rem (p : BitVec 4) (t : BitVec 5) (s : BitVec 5) (d : BitVec 5)
  /-- REMN R94 Writes the unsigned remainder to rd; a divisor of zero returns the dividend and sets AST.adz. -/
  | remn (p : BitVec 4) (t : BitVec 5) (s : BitVec 5) (d : BitVec 5)
  /-- MIN R93 Writes the signed smaller of rs1 and rs2 to rd. -/
  | min (p : BitVec 4) (t : BitVec 5) (s : BitVec 5) (d : BitVec 5)
  /-- MAX R93 Writes the signed larger of rs1 and rs2 to rd. -/
  | max (p : BitVec 4) (t : BitVec 5) (s : BitVec 5) (d : BitVec 5)
  /-- MINN R93 Writes the unsigned smaller of rs1 and rs2 to rd. -/
  | minn (p : BitVec 4) (t : BitVec 5) (s : BitVec 5) (d : BitVec 5)
  /-- MAXN R93 Writes the unsigned larger of rs1 and rs2 to rd. -/
  | maxn (p : BitVec 4) (t : BitVec 5) (s : BitVec 5) (d : BitVec 5)
  /-- ADDW R93 Writes the 32-bit sum of rs1 and rs2, sign-extended to 64 bits, to rd. -/
  | addw (p : BitVec 4) (t : BitVec 5) (s : BitVec 5) (d : BitVec 5)
  /-- SUBW R93 Writes the 32-bit difference of rs1 and rs2, sign-extended to 64 bits, to rd. -/
  | subw (p : BitVec 4) (t : BitVec 5) (s : BitVec 5) (d : BitVec 5)
  /-- CLZ R93 Writes the number of leading zero bits of rs1 to rd. -/
  | clz (p : BitVec 4) (s : BitVec 5) (d : BitVec 5)
  /-- CTZ R93 Writes the number of trailing zero bits of rs1 to rd. -/
  | ctz (p : BitVec 4) (s : BitVec 5) (d : BitVec 5)
  /-- POPC R93 Writes the number of one bits of rs1 to rd. -/
  | popc (p : BitVec 4) (s : BitVec 5) (d : BitVec 5)
  /-- ANDN R93 Writes rs1 AND NOT rs2 to rd. -/
  | andn (p : BitVec 4) (t : BitVec 5) (s : BitVec 5) (d : BitVec 5)
  /-- ROL R93 Rotates rs1 left by the low six bits of rs2. -/
  | rol (p : BitVec 4) (t : BitVec 5) (s : BitVec 5) (d : BitVec 5)
  /-- ROR R93 Rotates rs1 right by the low six bits of rs2. -/
  | ror (p : BitVec 4) (t : BitVec 5) (s : BitVec 5) (d : BitVec 5)
  /-- ADDI R95 Writes rs1 plus the sign-extended imm10 to rd. -/
  | addi (p : BitVec 4) (i : BitVec 10) (s : BitVec 5) (d : BitVec 5)
  /-- ANDI R95 Writes rs1 AND the sign-extended imm10 to rd. -/
  | andi (p : BitVec 4) (i : BitVec 10) (s : BitVec 5) (d : BitVec 5)
  /-- ORI R95 Writes rs1 OR the sign-extended imm10 to rd. -/
  | ori (p : BitVec 4) (i : BitVec 10) (s : BitVec 5) (d : BitVec 5)
  /-- XORI R95 Writes rs1 XOR the sign-extended imm10 to rd. -/
  | xori (p : BitVec 4) (i : BitVec 10) (s : BitVec 5) (d : BitVec 5)
  /-- SLLI R96 Shifts rs1 left by an immediate amount. -/
  | slli (p : BitVec 4) (h : BitVec 6) (s : BitVec 5) (d : BitVec 5)
  /-- SRLI R96 Shifts rs1 right logically by an immediate amount. -/
  | srli (p : BitVec 4) (h : BitVec 6) (s : BitVec 5) (d : BitVec 5)
  /-- SRAI R96 Shifts rs1 right arithmetically by an immediate amount. -/
  | srai (p : BitVec 4) (h : BitVec 6) (s : BitVec 5) (d : BitVec 5)
  /-- LUI R97 Writes the sign-extended imm19 × 2^10 to rd, without a guard. -/
  | lui (i : BitVec 19) (d : BitVec 5)
  /-- ADDPC R97 Writes the word's own address plus imm19 × 4 to rd. -/
  | addpc (i : BitVec 19) (d : BitVec 5)
  /-- CMP R98 Evaluates a condition between two registers and writes the result to pd. -/
  | cmp (p : BitVec 4) (t : BitVec 5) (s : BitVec 5) (c : BitVec 3) (e : BitVec 4)
  /-- CMP_AND R98 ANDs a register compare result into pd. -/
  | cmpAnd (p : BitVec 4) (t : BitVec 5) (s : BitVec 5) (c : BitVec 3) (e : BitVec 4)
  /-- CMP_OR R98 ORs a register compare result into pd. -/
  | cmpOr (p : BitVec 4) (t : BitVec 5) (s : BitVec 5) (c : BitVec 3) (e : BitVec 4)
  /-- CMPI R98 Evaluates a condition between a register and the sign-extended imm8, and sets pd. -/
  | cmpi (p : BitVec 4) (i : BitVec 8) (s : BitVec 5) (c : BitVec 3) (e : BitVec 4)
  /-- PAND R100 Writes pa AND pb to pd. -/
  | pand (p : BitVec 4) (b : BitVec 4) (a : BitVec 4) (e : BitVec 4)
  /-- POR R100 Writes pa OR pb to pd. -/
  | por (p : BitVec 4) (b : BitVec 4) (a : BitVec 4) (e : BitVec 4)
  /-- PXOR R100 Writes pa XOR pb to pd. -/
  | pxor (p : BitVec 4) (b : BitVec 4) (a : BitVec 4) (e : BitVec 4)
  /-- PANDN R100 Writes pa AND NOT pb to pd. -/
  | pandn (p : BitVec 4) (b : BitVec 4) (a : BitVec 4) (e : BitVec 4)
  /-- PSET R100 Writes the constant 0 or 1 to pd. -/
  | pset (p : BitVec 4) (v : BitVec 1) (e : BitVec 4)
  /-- MFSR R102 Reads a control register into rd. -/
  | mfsr (p : BitVec 4) (r : BitVec 8) (d : BitVec 5)
  /-- MTSR R102 Writes rs1 into a control register, subject to the checks of R84. -/
  | mtsr (p : BitVec 4) (r : BitVec 8) (s : BitVec 5)
  /-- MTB R105 Writes a checked branch target into every engine's copy of bN. -/
  | mtb (p : BitVec 4) (s : BitVec 5) (b : BitVec 3)
  /-- LD R285 Loads 1 to 8 bytes from memory into rd, with sign or zero extension. -/
  | ld (p : BitVec 4) (i : BitVec 7) (z : BitVec 3) (s : BitVec 5) (d : BitVec 5)
  /-- ST R285 Stores the low 1 to 8 bytes of a register to memory. -/
  | st (p : BitVec 4) (i : BitVec 7) (z : BitVec 3) (s : BitVec 5) (d : BitVec 5)
  /-- LDQ R216 Reserves a queue entry and fills it from memory granule by granule. -/
  | ldq (p : BitVec 4) (i : BitVec 7) (z : BitVec 3) (s : BitVec 5) (q : BitVec 4)
  /-- STQ R217 Pops an entry of exactly S bytes and stores it to memory. -/
  | stq (p : BitVec 4) (i : BitVec 7) (z : BitVec 3) (s : BitVec 5) (q : BitVec 4)
  /-- SBASE R219 Resets a stream and sets its base address. -/
  | sbase (p : BitVec 4) (s : BitVec 5) (n : BitVec 3)
  /-- SDIM R219 Sets the stride and count of one stream dimension and rewinds the stream. -/
  | sdim (p : BitVec 4) (t : BitVec 5) (s : BitVec 5) (k : BitVec 2) (n : BitVec 3)
  /-- SUNF R219 Sets a stream's mode word and unfold geometry and rewinds the stream. -/
  | sunf (p : BitVec 4) (t : BitVec 5) (s : BitVec 5) (n : BitVec 3)
  /-- SPAGE R219 Sets a stream's page-ahead distance. -/
  | spage (p : BitVec 4) (s : BitVec 5) (n : BitVec 3)
  /-- SGO R222 Reserves and fills the next entry of a stream in a queue, and advances the stream's position. -/
  | sgo (p : BitVec 4) (z : BitVec 3) (n : BitVec 3) (q : BitVec 4)
  /-- GATH_W R228 Gathers 128 four-byte elements at indexed addresses into a 512-byte entry. -/
  | gathW (p : BitVec 4) (j : BitVec 4) (s : BitVec 5) (q : BitVec 4)
  /-- GATH_D R228 Gathers 64 eight-byte elements at indexed addresses. -/
  | gathD (p : BitVec 4) (j : BitVec 4) (s : BitVec 5) (q : BitVec 4)
  /-- GATH_G R228 Gathers 16 granules at indexed addresses. -/
  | gathG (p : BitVec 4) (j : BitVec 4) (s : BitVec 5) (q : BitVec 4)
  /-- SCAT_W R229 Scatters 128 four-byte elements to indexed addresses. -/
  | scatW (p : BitVec 4) (j : BitVec 4) (s : BitVec 5) (q : BitVec 4)
  /-- SCAT_D R229 Scatters 64 eight-byte elements to indexed addresses. -/
  | scatD (p : BitVec 4) (j : BitVec 4) (s : BitVec 5) (q : BitVec 4)
  /-- SCAT_G R229 Scatters 16 granules to indexed addresses. -/
  | scatG (p : BitVec 4) (j : BitVec 4) (s : BitVec 5) (q : BitVec 4)
  /-- SCAT_ADD_W R229 Adds 128 four-byte integer elements atomically at indexed addresses, wrapping. -/
  | scatAddW (p : BitVec 4) (j : BitVec 4) (s : BitVec 5) (q : BitVec 4)
  /-- SCAT_ADD_D R229 Adds 64 eight-byte integer elements atomically at indexed addresses, wrapping. -/
  | scatAddD (p : BitVec 4) (j : BitVec 4) (s : BitVec 5) (q : BitVec 4)
  /-- SCAT_ADD_F R229 Adds 128 f32 elements atomically at indexed addresses, rounding under rne. -/
  | scatAddF (p : BitVec 4) (j : BitVec 4) (s : BitVec 5) (q : BitVec 4)
  /-- ATOM_ADD R286 Local atomic add; returns the old value. -/
  | atomAdd (p : BitVec 4) (z : BitVec 1) (t : BitVec 5) (s : BitVec 5) (d : BitVec 5)
  /-- ATOM_AND R286 Local atomic AND; returns the old value. -/
  | atomAnd (p : BitVec 4) (z : BitVec 1) (t : BitVec 5) (s : BitVec 5) (d : BitVec 5)
  /-- ATOM_OR R286 Local atomic OR; returns the old value. -/
  | atomOr (p : BitVec 4) (z : BitVec 1) (t : BitVec 5) (s : BitVec 5) (d : BitVec 5)
  /-- ATOM_XOR R286 Local atomic XOR; returns the old value. -/
  | atomXor (p : BitVec 4) (z : BitVec 1) (t : BitVec 5) (s : BitVec 5) (d : BitVec 5)
  /-- ATOM_MIN R286 Local atomic signed minimum; returns the old value. -/
  | atomMin (p : BitVec 4) (z : BitVec 1) (t : BitVec 5) (s : BitVec 5) (d : BitVec 5)
  /-- ATOM_MAX R286 Local atomic signed maximum; returns the old value. -/
  | atomMax (p : BitVec 4) (z : BitVec 1) (t : BitVec 5) (s : BitVec 5) (d : BitVec 5)
  /-- ATOM_MINN R286 Local atomic unsigned minimum; returns the old value. -/
  | atomMinn (p : BitVec 4) (z : BitVec 1) (t : BitVec 5) (s : BitVec 5) (d : BitVec 5)
  /-- ATOM_MAXN R286 Local atomic unsigned maximum; returns the old value. -/
  | atomMaxn (p : BitVec 4) (z : BitVec 1) (t : BitVec 5) (s : BitVec 5) (d : BitVec 5)
  /-- ATOM_SWAP R286 Local atomic swap; returns the old value. -/
  | atomSwap (p : BitVec 4) (z : BitVec 1) (t : BitVec 5) (s : BitVec 5) (d : BitVec 5)
  /-- ATOM_CAS R286 Local atomic compare-and-swap: compares with rd, stores rs2 and returns the old value. -/
  | atomCas (p : BitVec 4) (z : BitVec 1) (t : BitVec 5) (s : BitVec 5) (d : BitVec 5)
  /-- ATOM_FADD R286 Local atomic f32 add, rounded under rne; returns the old value. -/
  | atomFadd (p : BitVec 4) (t : BitVec 5) (s : BitVec 5) (d : BitVec 5)
  /-- KLD R108 Loads a 16-byte capability from memory into a k-register. -/
  | kld (p : BitVec 4) (s : BitVec 5) (k : BitVec 4)
  /-- KST R108 Stores a k-register to memory; requires the xp right. -/
  | kst (p : BitVec 4) (s : BitVec 5) (k : BitVec 4)
  /-- KBND R109 Narrows a capability's window and reseals it. -/
  | kbnd (p : BitVec 4) (d : BitVec 5) (s : BitVec 5) (k : BitVec 4)
  /-- KRGT R110 Clears rights of a capability and reseals it. -/
  | krgt (p : BitVec 4) (s : BitVec 5) (k : BitVec 4)
  /-- KINF R111 Returns a capability field, or a descriptor field read from the object's home. -/
  | kinf (p : BitVec 4) (d : BitVec 5) (s : BitVec 5) (k : BitVec 4)
  /-- KMOV R108 Copies one k-register to another. -/
  | kmov (p : BitVec 4) (j : BitVec 4) (k : BitVec 4)
  /-- PLD R288 Reads pool bytes through a capability into a queue entry, via the pool cache. -/
  | pld (p : BitVec 4) (z : BitVec 3) (q : BitVec 4) (s : BitVec 5) (k : BitVec 4)
  /-- PST R288 Pops an entry and writes it through to a pool object. -/
  | pst (p : BitVec 4) (z : BitVec 3) (q : BitVec 4) (s : BitVec 5) (k : BitVec 4)
  /-- PAT_ADD R290 Pool atomic add at the home; rd receives the old value. -/
  | patAdd (p : BitVec 4) (c : BitVec 1) (z : BitVec 1) (d : BitVec 5) (s : BitVec 5) (k : BitVec 4)
  /-- PAT_AND R290 Pool atomic AND. -/
  | patAnd (p : BitVec 4) (c : BitVec 1) (z : BitVec 1) (d : BitVec 5) (s : BitVec 5) (k : BitVec 4)
  /-- PAT_OR R290 Pool atomic OR. -/
  | patOr (p : BitVec 4) (c : BitVec 1) (z : BitVec 1) (d : BitVec 5) (s : BitVec 5) (k : BitVec 4)
  /-- PAT_XOR R290 Pool atomic XOR. -/
  | patXor (p : BitVec 4) (c : BitVec 1) (z : BitVec 1) (d : BitVec 5) (s : BitVec 5) (k : BitVec 4)
  /-- PAT_MIN R290 Pool atomic signed minimum. -/
  | patMin (p : BitVec 4) (c : BitVec 1) (z : BitVec 1) (d : BitVec 5) (s : BitVec 5) (k : BitVec 4)
  /-- PAT_MAX R290 Pool atomic signed maximum. -/
  | patMax (p : BitVec 4) (c : BitVec 1) (z : BitVec 1) (d : BitVec 5) (s : BitVec 5) (k : BitVec 4)
  /-- PAT_MINN R290 Pool atomic unsigned minimum. -/
  | patMinn (p : BitVec 4) (c : BitVec 1) (z : BitVec 1) (d : BitVec 5) (s : BitVec 5) (k : BitVec 4)
  /-- PAT_MAXN R290 Pool atomic unsigned maximum. -/
  | patMaxn (p : BitVec 4) (c : BitVec 1) (z : BitVec 1) (d : BitVec 5) (s : BitVec 5) (k : BitVec 4)
  /-- PAT_SWAP R290 Pool atomic swap. -/
  | patSwap (p : BitVec 4) (c : BitVec 1) (z : BitVec 1) (d : BitVec 5) (s : BitVec 5) (k : BitVec 4)
  /-- PAT_CAS R290 Pool atomic compare-and-swap using the even register pair rd, rd+1. -/
  | patCas (p : BitVec 4) (c : BitVec 1) (z : BitVec 1) (d : BitVec 5) (s : BitVec 5) (k : BitVec 4)
  /-- PAT_FADD R290 Pool atomic f32 add. -/
  | patFadd (p : BitVec 4) (c : BitVec 1) (d : BitVec 5) (s : BitVec 5) (k : BitVec 4)
  /-- PPUSH R291 Pushes one element to a bag, stack or fifo object. -/
  | ppush (p : BitVec 4) (d : BitVec 5) (k : BitVec 4)
  /-- PPOP R291 Pops one element into rd and sets p15 when the object is empty. -/
  | ppop (p : BitVec 4) (d : BitVec 5) (k : BitVec 4)
  /-- PGIVE R291 Adds a count to a token object. -/
  | pgive (p : BitVec 4) (d : BitVec 5) (k : BitVec 4)
  /-- PTAKE R291 Takes up to the requested count from a token object. -/
  | ptake (p : BitVec 4) (d : BitVec 5) (k : BitVec 4)
  /-- POUR R298 Reads a copy descriptor, releases earlier stores and queues a Ladle copy on a tag. -/
  | pour (p : BitVec 4) (t : BitVec 6) (s : BitVec 5)
  /-- HPOUR R304 Queues an authenticated copy between host memory and the die (command mode only). -/
  | hpour (p : BitVec 4) (t : BitVec 6) (s : BitVec 5)
  /-- CTWANY R369 Waits for any tag in the mask to be ready and returns the lowest such tag. -/
  | ctwany (p : BitVec 4) (s : BitVec 5) (d : BitVec 5)
  /-- CTWALL R369 Waits until no tag in the mask is pending. -/
  | ctwall (p : BitVec 4) (s : BitVec 5)
  /-- CTFFR R369 Returns the lowest ready tag in the mask without waiting. -/
  | ctffr (p : BitVec 4) (s : BitVec 5) (d : BitVec 5)
  /-- CTSTAT R369 Returns a tag's copy status. -/
  | ctstat (p : BitVec 4) (s : BitVec 5) (d : BitVec 5)
  /-- CTCLR R369 Returns the ready tags in the mask to idle. -/
  | ctclr (p : BitVec 4) (s : BitVec 5)
  /-- RCLAIM R378 Claims ring slots for a producer without waiting. -/
  | rclaim (p : BitVec 4) (t : BitVec 5) (s : BitVec 5) (d : BitVec 5)
  /-- RPUBL R378 Releases and publishes claimed ring slots. -/
  | rpubl (p : BitVec 4) (t : BitVec 5) (s : BitVec 5) (d : BitVec 5)
  /-- RWAITF R378 Waits in the consumer FIFO for published ring slots. -/
  | rwaitf (p : BitVec 4) (t : BitVec 5) (s : BitVec 5) (d : BitVec 5)
  /-- RWAITE R378 Waits in the producer FIFO for free ring slots. -/
  | rwaite (p : BitVec 4) (t : BitVec 5) (s : BitVec 5) (d : BitVec 5)
  /-- RFREE R378 Releases and frees consumed ring slots. -/
  | rfree (p : BitVec 4) (t : BitVec 5) (s : BitVec 5) (d : BitVec 5)
  /-- RPEEK R378 Returns a ring's published and free counts. -/
  | rpeek (p : BitVec 4) (s : BitVec 5) (d : BitVec 5)
  /-- FENCE_REL R311 Waits until every earlier access is performed at the scope. -/
  | fenceRel (p : BitVec 4) (c : BitVec 3)
  /-- FENCE_ACQ R311 Waits for earlier reads and RMWs, and lifts pts at domain or system scope. -/
  | fenceAcq (p : BitVec 4) (c : BitVec 3)
  /-- FENCE_SC R311 Acts as release and acquire and takes a place in the SC order. -/
  | fenceSc (p : BitVec 4) (c : BitVec 3)
  /-- WLACQ R296 Acquires an object's write lease and returns its fencing token, or 0. -/
  | wlacq (p : BitVec 4) (d : BitVec 5) (k : BitVec 4)
  /-- WLRENEW R296 Renews the write lease held under a token. -/
  | wlrenew (p : BitVec 4) (s : BitVec 5) (k : BitVec 4)
  /-- WLREL R296 Releases the write lease held under a token. -/
  | wlrel (p : BitVec 4) (s : BitVec 5) (k : BitVec 4)
  /-- WLCHK R296 Returns the status of a token's lease. -/
  | wlchk (p : BitVec 4) (d : BitVec 5) (s : BitVec 5) (k : BitVec 4)
  /-- TRAP R190 Raises TRAPI with the given code. -/
  | trap (p : BitVec 4) (n : BitVec 5)
  /-- ERET R191 Returns a command cell from its fault handler. -/
  | eret (p : BitVec 4)
  /-- HEATQ R192 Returns the die's heat state. -/
  | heatq (p : BitVec 4) (d : BitVec 5)
  /-- BRK R190 Raises BRK at the word. -/
  | brk (p : BitVec 4)
  /-- WFE R193 Waits until the cell's event latch is set, then clears it. -/
  | wfe (p : BitVec 4)
  /-- TLAUNCH R240 Reads a launch descriptor and creates a task, or returns a refusal status. -/
  | tlaunch (p : BitVec 4) (s : BitVec 5) (d : BitVec 5)
  /-- TDEP R241 Records that one task must complete before another becomes ready. -/
  | tdep (p : BitVec 4) (t : BitVec 5) (s : BitVec 5)
  /-- TQRY R243 Returns a task's state. -/
  | tqry (p : BitVec 4) (s : BitVec 5) (d : BitVec 5)
  /-- TKILL R244 Ends a task as killed. -/
  | tkill (p : BitVec 4) (s : BitVec 5)
  /-- VALLOC R265 Creates a vault region with a new heat, or returns a refusal status. -/
  | valloc (p : BitVec 4) (t : BitVec 5) (s : BitVec 5) (d : BitVec 5)
  /-- VFREE R266 Removes a region and retires its heat. -/
  | vfree (p : BitVec 4) (s : BitVec 5)
  /-- TLBINV R276 Invalidates translations on the die, in every TLB and stream page register. -/
  | tlbinv (p : BitVec 4) (s : BitVec 5)
  /-- PGPROBE R276 Walks the page tables and returns the leaf entry without filling any TLB. -/
  | pgprobe (p : BitVec 4) (s : BitVec 5) (d : BitVec 5)
  /-- SCHPUB R363 Publishes or withdraws the die's prefetch schedule. -/
  | schpub (p : BitVec 4) (s : BitVec 5)
  /-- SCHADV R363 Sets the schedule's current step counter. -/
  | schadv (p : BitVec 4) (s : BitVec 5)
  /-- QPOP R114 Pops an 8-byte scalar entry into rd. -/
  | qpop (p : BitVec 4) (q : BitVec 4) (d : BitVec 5)
  /-- QPUSH R114 Pushes rs1 as an 8-byte scalar entry. -/
  | qpush (p : BitVec 4) (s : BitVec 5) (q : BitVec 4)
  /-- SEL R101 Selects rs1 or rs2 by a predicate, optionally negated. -/
  | sel (p : BitVec 4) (n : BitVec 1) (e : BitVec 4) (t : BitVec 5) (s : BitVec 5) (d : BitVec 5)
  /-- LTRIP R182 Sets the trip count that the next entry of a temporal level's loop reads. -/
  | ltrip (p : BitVec 4) (s : BitVec 5) (l : BitVec 3)
  /-- NOP R175 Counts once towards each engine's CSN and has no other effect. -/
  | nop 
  /-- PTB R175 Writes a PC-relative branch target into the executing engine's copy of bN. -/
  | ptb (i : BitVec 21) (b : BitVec 3)
  /-- BR R176 Branches through bN when the predicate XOR negate is 1. -/
  | br (h : BitVec 1) (n : BitVec 1) (e : BitVec 4) (b : BitVec 3)
  /-- CALL R177 Pushes the return address and branches through bN. -/
  | call (b : BitVec 3)
  /-- RET R177 Pops the return stack and branches to the popped address. -/
  | ret 
  /-- LOOP R178 Latches a level's trip count and enters an active loop. -/
  | loop (l : BitVec 20) (v : BitVec 3)
  /-- LBRK R181 Leaves the innermost active loop at its body end. -/
  | lbrk 
  /-- END R33 Stops the engine at end; the strand completes once every engine is there and its work is performed. -/
  | endWord 
  /-- BAR_ARRIVE R372 Sends the cell's barrier arrival as a release and returns a token. -/
  | barArrive (a : BitVec 5) (n : BitVec 7)
  /-- BAR_WAIT R372 Waits for the phase named by a token and returns its distance. -/
  | barWait (a : BitVec 5) (n : BitVec 7)
  /-- BAR_SYNC R372 Arrives at a barrier, then waits for the phase of that arrival. -/
  | barSync (a : BitVec 5) (n : BitVec 7)
  /-- BEAT R185 Resets the watchdog count. -/
  | beat 
  /-- YIELD R186 Offers the strand for pre-emption when a higher class waits and a stow slot is free. -/
  | yield 
  /-- HALT R187 Raises BRK once all three engines have reached it. -/
  | halt 
  /-- VADD R142 Lane-wise addition. -/
  | vadd (f : VFields)
  /-- VSUB R142 Lane-wise subtraction. -/
  | vsub (f : VFields)
  /-- VMUL R142 Lane-wise multiplication. -/
  | vmul (f : VFields)
  /-- VMULH R142 Lane-wise high half of the integer product. -/
  | vmulh (f : VFields)
  /-- VFMA R142 Fused multiply-add into D, rounded once. -/
  | vfma (f : VFields)
  /-- VFMS R142 Fused multiply-subtract into D, rounded once. -/
  | vfms (f : VFields)
  /-- VFNM R142 Negated fused multiply-add into D. -/
  | vfnm (f : VFields)
  /-- VMIN R143 Lane-wise minimum. -/
  | vmin (f : VFields)
  /-- VMAX R143 Lane-wise maximum. -/
  | vmax (f : VFields)
  /-- VABS R142 Lane-wise absolute value. -/
  | vabs (f : VFields)
  /-- VNEG R142 Lane-wise negation. -/
  | vneg (f : VFields)
  /-- VABSD R142 Lane-wise absolute difference. -/
  | vabsd (f : VFields)
  /-- VRCPE R144 Reciprocal estimate rounded to E12. -/
  | vrcpe (f : VFields)
  /-- VRSQE R144 Reciprocal square-root estimate rounded to E12. -/
  | vrsqe (f : VFields)
  /-- VEXPE R144 Base-2 exponential estimate rounded to E12. -/
  | vexpe (f : VFields)
  /-- VFRX R144 Fractional part, rounded under the word's mode. -/
  | vfrx (f : VFields)
  /-- VAND R145 Lane-wise bitwise AND. -/
  | vand (f : VFields)
  /-- VOR R145 Lane-wise bitwise OR. -/
  | vor (f : VFields)
  /-- VXOR R145 Lane-wise bitwise XOR. -/
  | vxor (f : VFields)
  /-- VANDN R145 Lane-wise S1 AND NOT S2. -/
  | vandn (f : VFields)
  /-- VSHL R145 Lane-wise shift left. -/
  | vshl (f : VFields)
  /-- VSHR R145 Lane-wise logical shift right. -/
  | vshr (f : VFields)
  /-- VSRA R145 Lane-wise arithmetic shift right. -/
  | vsra (f : VFields)
  /-- VPOPC R145 Lane-wise population count. -/
  | vpopc (f : VFields)
  /-- VCLZ R145 Lane-wise leading-zero count. -/
  | vclz (f : VFields)
  /-- VSEL R146 Selects S1 or S2 per lane by a mask and writes every lane. -/
  | vsel (f : VFields)
  /-- VMOV R146 Copies the active lanes bit for bit. -/
  | vmov (f : VFields)
  /-- VIDX R146 Writes the lane index into each active lane. -/
  | vidx (f : VFields)
  /-- VCLASS R146 Writes a one-hot class code per lane. -/
  | vclass (f : VFields)
  /-- VCEQ R147 Compares lanes for equality into a mask. -/
  | vceq (f : VFields)
  /-- VCNE R147 Compares lanes for inequality into a mask. -/
  | vcne (f : VFields)
  /-- VCLT R147 Compares lanes for less-than into a mask. -/
  | vclt (f : VFields)
  /-- VCLE R147 Compares lanes for less-or-equal into a mask. -/
  | vcle (f : VFields)
  /-- VCGT R147 Compares lanes for greater-than into a mask. -/
  | vcgt (f : VFields)
  /-- VCUN R147 Sets a mask bit for each unordered lane. -/
  | vcun (f : VFields)
  /-- MAND R148 Mask AND. -/
  | mand (f : VFields)
  /-- MOR R148 Mask OR. -/
  | mor (f : VFields)
  /-- MXOR R148 Mask XOR. -/
  | mxor (f : VFields)
  /-- MNOT R148 Mask NOT. -/
  | mnot (f : VFields)
  /-- MCNT R148 Counts the active set mask bits into every active lane. -/
  | mcnt (f : VFields)
  /-- MFFS R148 Finds the first active set mask bit. -/
  | mffs (f : VFields)
  /-- MPANY R148 Sets a predicate if any active lane of a mask is set. -/
  | mpany (f : VFields)
  /-- MPALL R148 Sets a predicate if every active lane of a mask is set. -/
  | mpall (f : VFields)
  /-- VCVT R149 Converts lanes between types, saturating or rounding. -/
  | vcvt (f : VFields)
  /-- VQNT R150 Companding-quantises f32 lanes to c8 codes under a curve. -/
  | vqnt (f : VFields)
  /-- VDQT R150 Expands c8 codes under a curve and scales them to f32. -/
  | vdqt (f : VFields)
  /-- VTPL R151 Extracts one balanced-trit plane of i8 lanes. -/
  | vtpl (f : VFields)
  /-- VPACK R152 Packs lane elements into storage form. -/
  | vpack (f : VFields)
  /-- VUNPK R152 Unpacks storage-form elements into lanes. -/
  | vunpk (f : VFields)
  /-- VBF_NARROW R153 Rounds f32 lanes to bf16. -/
  | vbfNarrow (f : VFields)
  /-- VBF_WIDEN R153 Widens bf16 lanes to f32 exactly. -/
  | vbfWiden (f : VFields)
  /-- VRSUM R154 Sums the active lanes in a fixed tree order. -/
  | vrsum (f : VFields)
  /-- VRMAX R154 Maximum reduction over the active lanes. -/
  | vrmax (f : VFields)
  /-- VRMIN R154 Minimum reduction over the active lanes. -/
  | vrmin (f : VFields)
  /-- VSCAN R155 Inclusive prefix sum over the lanes. -/
  | vscan (f : VFields)
  /-- VRSUMI R154 Widening integer sum of i16 or i8 lanes to i32. -/
  | vrsumi (f : VFields)
  /-- VSEGSUM R155 Segmented prefix sum with segment heads from a mask. -/
  | vsegsum (f : VFields)
  /-- VPERM R156 Permutes lanes by per-lane indices. -/
  | vperm (f : VFields)
  /-- VROT R156 Rotates lanes. -/
  | vrot (f : VFields)
  /-- VBCST R156 Broadcasts one lane to every lane. -/
  | vbcst (f : VFields)
  /-- VZIP R156 Interleaves the low halves of two sources. -/
  | vzip (f : VFields)
  /-- VUZP R156 De-interleaves the even lanes of two sources. -/
  | vuzp (f : VFields)
  /-- VSLIDE R156 Slides lanes by a signed distance, filling with zero. -/
  | vslide (f : VFields)
  /-- VCOMP R156 Compresses the lanes selected by a mask to the front. -/
  | vcomp (f : VFields)
  /-- VEXPD R156 Expands consecutive lanes into the positions that a mask selects. -/
  | vexpd (f : VFields)
  /-- MLDB R166 Loads the stationary B buffer with one trit plane from a 2 KiB entry. -/
  | mldb (f : MFields)
  /-- MSTEP R167 Runs one sign-select tile step into an accumulator's integer part. -/
  | mstep (f : MFields)
  /-- MFOLD R169 Folds the integer sums into the f32 part with scales and clears them. -/
  | mfold (f : MFields)
  /-- MDRAIN R170 Pushes f32 rows of a tile to a queue, converted to dtype. -/
  | mdrain (f : MFields)
  /-- MDRAINI R170 Pushes integer rows of a tile to a queue, converted to dtype. -/
  | mdraini (f : MFields)
  /-- MZERO R171 Clears the enabled column groups of a tile. -/
  | mzero (f : MFields)
  /-- LOOP_BACK_EDGE R179 At a loop's body end the engine takes the back-edge or exits the loop. -/
  | loopBackEdge (c : CellId) (e : Engine)
  /-- RESULT_LANDING R161 A V or M result, predicate or pushed entry lands at issue plus its latency. -/
  | resultLanding (c : CellId)
  /-- SLIPDEAD R28 After 64 cycles in which every engine is in an internal wait, the strand takes SLIPDEAD. -/
  | slipdead (c : CellId)
  /-- WRITE_SLIP R25 An mtsr to SLIP changes the slip bound from the next cycle. -/
  | writeSlip (c : CellId) (v : BitVec 64)
  /-- WRITE_AST R85 An mtsr to AST clears the bits written as 1. -/
  | writeAst (c : CellId) (v : BitVec 64)
  /-- WRITE_VCTL R128 An mtsr to VCTL sets the rounding mode and reseeds every stochastic generator. -/
  | writeVctl (c : CellId) (v : BitVec 64)
  /-- WRITE_QCAP R213 A command-mode write of QCAPn or QMINn changes a queue's cap or guarantee. -/
  | writeQcap (c : CellId) (r : BitVec 8) (v : BitVec 64)
  /-- WRITE_CONTROL_REGISTER R84 An mtsr to another writable control register. -/
  | writeControlRegister (c : CellId) (r : BitVec 8) (v : BitVec 64)
  /-- TEXT_FETCH R441 Text is fetched as granules and checked at home; a refusal is a stopping fault. -/
  | textFetch (c : CellId) (e : Engine) (g : BitVec 64)
  /-- LOAD_DATA_RETURN R285 The data of an ld or kld return and the destination register is written. -/
  | loadDataReturn (c : CellId) (op : Nat)
  /-- BLOCK_FILL R214 A load's block fills, and the entry is published when its last block is present. -/
  | blockFill (c : CellId) (op : Nat)
  /-- STORE_PERFORMED R307 A store is performed at its home, and remote homes acknowledge it. -/
  | storePerformed (c : CellId) (op : Nat)
  /-- RMW_RESPONSE R290 An atomic or object-operation response returns and writes its result. -/
  | rmwResponse (c : CellId) (op : Nat)
  /-- PAGE_AHEAD_FILL R223 A stream fills its next-page register from a translation ahead of access. -/
  | pageAheadFill (c : CellId) (n : BitVec 3)
  /-- STOPPING_FAULT R199 A stopping fault halts the strand, writes a record and stows or discards it. -/
  | stoppingFault (c : CellId) (eng : BitVec 2) (code : FaultCode) (v : BitVec 64)
  /-- DEFERRED_FAULT_TAKEN R197 A fault reported by a home is taken at the A engine's next boundary. -/
  | deferredFaultTaken (c : CellId)
  /-- FAULT_QUEUE_HEAD_WRITE R255 The command cell advances the fault-queue head and waiting records are appended. -/
  | faultQueueHeadWrite (d : DieId) (head : BitVec 64)
  /-- DISPOSITION_RESUME R256 Disposition 1 resumes a held XLATE. -/
  | dispositionResume (d : DieId) (ix : Nat)
  /-- DISPOSITION_CONVERT R256 Disposition 2 turns a held XLATE into a stopping fault. -/
  | dispositionConvert (d : DieId) (ix : Nat)
  /-- DISPOSITION_RESTORE R256 Disposition 3 creates a restore entry for a fault stow. -/
  | dispositionRestore (d : DieId) (ix : Nat)
  /-- DISPOSITION_FAIL R256 Disposition 4 fails the task of a held or stowed strand. -/
  | dispositionFail (d : DieId) (ix : Nat)
  /-- DISPATCH_DECISION R247 Every 4 cc the dispatcher takes the head of the ready pool and dispatches or waits. -/
  | dispatchDecision (d : DieId)
  /-- STRAND_START R249 A dispatched strand starts in its initial state 12 cc after the decision. -/
  | strandStart (c : CellId)
  /-- AGEING_PROMOTION R246 A ready-pool entry that has waited its ageing period is promoted one class. -/
  | ageingPromotion (d : DieId) (ix : Nat)
  /-- SHARE_TRANSFER R245 A die share is sent over the ring once the target die grants a ready-pool entry. -/
  | shareTransfer (d : DieId) (task : BitVec 64) (dpoint : Fin 8)
  /-- SUCCESSOR_DECREMENT R242 A predecessor's completion decrements a successor's count, which becomes ready at 0. -/
  | successorDecrement (d : DieId) (task : BitVec 64)
  /-- PREEMPTION R201 A pre-emption request halts the engines and forms reissue records. -/
  | preemption (c : CellId) (cause : StowCause)
  /-- STOW_COMPLETE R204 The stow is written into the reserved slot and the cell becomes free. -/
  | stowComplete (c : CellId)
  /-- RESTORE R206 A restore entry is placed, reloaded from its slot and restarted. -/
  | restore (d : DieId) (ix : Nat)
  /-- REISSUE_REFUSED R439 A reissued load refused at its home becomes a holding or deferred fault. -/
  | reissueRefused (c : CellId) (op : Nat)
  /-- RESULT_DELIVERY R207 A result of work that continued through pre-emption goes to the slot or the new cell. -/
  | resultDelivery (d : DieId) (op : Nat)
  /-- STRAND_COMPLETE R33 A strand completes once all engines are at end and its work is performed. -/
  | strandComplete (c : CellId)
  /-- WATCHDOG_FIRE R380 The watchdog count reaches its limit and the strand is halted and fails. -/
  | watchdogFire (c : CellId)
  /-- DIE_QUIESCENT R254 A die quiescent for the command cell's limit gets one record of kind 5. -/
  | dieQuiescent (d : DieId)
  /-- TASK_RECORD_FREE R238 A task record becomes free 2^20 cc after its final state. -/
  | taskRecordFree (d : DieId) (rec : Fin 4096)
  /-- LAUNCH_DOORBELL R257 A host doorbell write offers a new launch-ring tail, accepted or refused. -/
  | launchDoorbell (d : DieId) (tail : HostWord)
  /-- HOST_RING_WRITE R390 A host memory write into the ring window reaches an entry or is dropped. -/
  | hostRingWrite (d : DieId) (off : BitVec 64) (data : HostWord)
  /-- COPY_START R300 The Ladle starts a queued copy and checks its descriptor. -/
  | copyStart (d : DieId) (cluster : Fin 6)
  /-- COPY_GRANULE_WRITE R301 The Ladle reads source granules and writes destination granules at their homes. -/
  | copyGranuleWrite (d : DieId) (id : Nat)
  /-- COPY_COMPLETE R303 A copy's status becomes final and its tag becomes ready. -/
  | copyComplete (d : DieId) (id : Nat)
  /-- HPOUR_START R392 The port die checks an hpour request block and its IV counter, and starts the host read. -/
  | hpourStart (d : DieId) (id : Nat)
  /-- HPOUR_STAGED R392 Staged ciphertext is authenticated and the plaintext written, or the copy ends with TAGFAIL. -/
  | hpourStaged (d : DieId) (id : Nat)
  /-- QUENCH_SWEEP R272 Each cycle the sweep quenches the next granule of each vault that bears a retired heat. -/
  | quenchSweep (d : DieId)
  /-- QUENCH_PASS_END R272 A sweep pass ends and eligible retired heats become reissuable. -/
  | quenchPassEnd (d : DieId)
  /-- UNIT_WAKE R273 A power-gated unit wakes and is read as it stands. -/
  | unitWake (d : DieId) (unit : Nat)
  /-- PTS_TICK R277 The package logical clock advances by one every 1024 cc. -/
  | ptsTick (p : PkgId)
  /-- RENEWAL_RESPONSE R278 A pool-cache renewal returns data and a lease, fills the sector and answers waiting reads. -/
  | renewalResponse (p : PkgId) (req : Nat)
  /-- POOL_WRITE_ACK R279 A pool write is acknowledged with its write time, or refused, and the cached sector is updated. -/
  | poolWriteAck (p : PkgId) (req : Nat)
  /-- POOL_REQUEST R281 A pool node checks and performs a request. -/
  | poolRequest (n : NodeId) (req : Nat)
  /-- LEASE_EXPIRY R283 An object's write lease expires at its home. -/
  | leaseExpiry (n : NodeId) (oid : BitVec 32)
  /-- HOLD_ARRIVAL R332 An eligible request reaches a hold point and is spliced, held or forwarded. -/
  | holdArrival (at_ : HoldPoint) (req : Nat)
  /-- HOLD_WINDOW_EXPIRY R331 A held request's window elapses and it is forwarded. -/
  | holdWindowExpiry (at_ : HoldPoint) (req : Nat)
  /-- RING_SLOT_ARRIVAL R325 A ring slot arrives at its destination and is accepted or refused for another lap. -/
  | ringSlotArrival (d : DieId) (slot : Nat)
  /-- TOPOLOGY_ANNOUNCE R335 A new topology version announcement reaches a port or node, which stops issuing. -/
  | topologyAnnounce (at_ : Fabric)
  /-- TOPOLOGY_ADOPT R335 A port or front end adopts the new version once its requests and vetoes are settled. -/
  | topologyAdopt (at_ : Fabric)
  /-- STALE_REFUSAL R337 A request with an old version is refused, reissued, or abandoned with STALE_TOPO. -/
  | staleRefusal (at_ : Fabric) (req : Nat)
  /-- VETO_RELEASE R336 A home's reconfiguration veto is released when the RMW response is received. -/
  | vetoRelease (n : NodeId) (req : Nat)
  /-- LANE_FAILURE R338 A link lane fails and the link retrains to a narrower width. -/
  | laneFailure (owner : Peer) (link : Fin 41) (lane : Nat)
  /-- RETRAIN_DONE R338 A retraining pause ends and traffic resumes with replay. -/
  | retrainDone (owner : Peer) (link : Fin 41)
  /-- PACKAGE_SEVERED R339 A port down for 50 µs causes the package or node to be declared severed. -/
  | packageSevered (peer : Peer)
  /-- SEALED_FRAME_RECEIVE R381 A sealed frame is checked against its counter and tag, and accepted or dropped. -/
  | sealedFrameReceive (owner : Peer) (link : Fin 41) (frame : SealedFrame)
  /-- DOMAIN_REDUCTION R341 Multicast contributions are combined in package order. -/
  | domainReduction (p : PkgId) (id : Nat)
  /-- SCHEDULE_FILL R364 A bridge station renews pool-cache sectors named by published schedules. -/
  | scheduleFill (d : DieId)
  /-- BARRIER_ARRIVAL R371 An arrival is counted at the barrier record and may complete the phase. -/
  | barrierArrival (c : CellId) (bar : BitVec 7)
  /-- RING_RECORD_EVICT R376 The Cleat evicts a ring record and writes its counters back. -/
  | ringRecordEvict (d : DieId) (ix : Nat)
  /-- WRITE_LOCAL R352 A window store sets the die's local-part size when the die is quiet. -/
  | writeLocal (d : DieId) (v : BitVec 64)
  /-- WRITE_PTROOT R352 A window store sets the page-table root when the die is quiet. -/
  | writePtroot (d : DieId) (v : BitVec 64)
  /-- WRITE_RWIN R352 A window store sets the ring station's splice window. -/
  | writeRwin (d : DieId) (v : BitVec 64)
  /-- WRITE_BWIN R352 A window store sets the bridge station's splice window. -/
  | writeBwin (d : DieId) (v : BitVec 64)
  /-- WRITE_PFDIST R352 A window store sets the default prefetch distance. -/
  | writePfdist (d : DieId) (v : BitVec 64)
  /-- WRITE_FQBASE R352 A window store registers the fault queue. -/
  | writeFqbase (d : DieId) (v : BitVec 64)
  /-- WRITE_LRBASE R352 A window store registers the launch ring header. -/
  | writeLrbase (d : DieId) (v : BitVec 64)
  /-- WRITE_LRM R352 A window store sets the launch ring size. -/
  | writeLrm (d : DieId) (v : BitVec 64)
  /-- WRITE_STOW_SLOT_LIST R353 A window store changes a stow slot list entry. -/
  | writeStowSlotList (d : DieId) (ix : Fin 512) (v : BitVec 64)
  /-- WRITE_LISTEN_PENDING R354 A window store of the pending listen word starts a topology change. -/
  | writeListenPending (d : DieId) (v : BitVec 64)
  /-- WRITE_KEY R355 A window store writes key bytes of a disarmed key-handle entry. -/
  | writeKey (d : DieId) (ix : Fin 64) (word : Fin 4) (v : BitVec 64)
  /-- KEY_ARM R355 A control-word store with a non-zero kind arms a key-handle entry and zeroes its counter. -/
  | keyArm (d : DieId) (ix : Fin 64) (v : BitVec 64)
  /-- KEY_DISARM R355 A control-word store of kind 0 disarms an entry and zeroes its key. -/
  | keyDisarm (d : DieId) (ix : Fin 64) (v : BitVec 64)
  /-- WRITE_PREEMPT_REQUEST R360 Writing 1 to a task record's request bit asks for the share's pre-emption. -/
  | writePreemptRequest (d : DieId) (rec : Fin 4096) (bit : Fin 8)
  /-- WINDOW_WRITE R343 Any other store to the die window, performed with RO fields left unchanged. -/
  | windowWrite (d : DieId) (off : BitVec 48) (v : BitVec 64)
  /-- LOCK_INTERFACE R384 TDISP LOCK_INTERFACE allocates a protected world and reassigns the die. -/
  | lockInterface (r : LockRequest)
  /-- START_INTERFACE R384 TDISP START_INTERFACE moves a TDI from CONFIG_LOCKED to RUN. -/
  | startInterface (d : DieId)
  /-- STOP_INTERFACE R384 TDISP STOP_INTERFACE returns a die to world 0 by reassignment. -/
  | stopInterface (d : DieId)
  /-- GET_DEVICE_INTERFACE_REPORT R389 TDISP request returning the device interface report. -/
  | getDeviceInterfaceReport (d : DieId)
  /-- GET_DEVICE_INTERFACE_STATE R389 TDISP request returning the TDI state. -/
  | getDeviceInterfaceState (d : DieId)
  /-- REASSIGNMENT_COMPLETE R387 Once step 7 completes the TDISP response is sent. -/
  | reassignmentComplete (d : DieId)
  /-- LOCKED_CONFIG_WRITE R390 A configuration write while locked moves the TDI to ERROR. -/
  | lockedConfigWrite (d : DieId) (off : BitVec 48) (v : BitVec 64)
  /-- GET_VERSION R389 SPDM version request. -/
  | getVersion (p : PkgId)
  /-- GET_CAPABILITIES R389 SPDM capabilities request. -/
  | getCapabilities (p : PkgId)
  /-- NEGOTIATE_ALGORITHMS R389 SPDM algorithm negotiation. -/
  | negotiateAlgorithms (p : PkgId)
  /-- GET_DIGESTS R389 SPDM certificate digest request. -/
  | getDigests (p : PkgId)
  /-- GET_CERTIFICATE R389 SPDM certificate request. -/
  | getCertificate (p : PkgId)
  /-- CHALLENGE R389 SPDM challenge authentication. -/
  | challenge (p : PkgId)
  /-- GET_MEASUREMENTS R397 SPDM request returning MEAS0–MEAS7 as indices 1–8. -/
  | getMeasurements (p : PkgId) (ix : Nat)
  /-- KEY_EXCHANGE R389 SPDM key exchange for a secure session. -/
  | keyExchange (p : PkgId)
  /-- FINISH R389 SPDM session finish. -/
  | finish (p : PkgId)
  /-- KEY_UPDATE R389 SPDM session key update. -/
  | keyUpdate (p : PkgId)
  /-- END_SESSION R389 SPDM session end. -/
  | endSession (p : PkgId)
  /-- DEBUGGER_READ R269 A debugger mailbox request returns a vault granule only for the matching world and heat. -/
  | debuggerRead (d : DieId) (g : BitVec 64) (world : BitVec 16) (heat : BitVec 12)
  /-- COUNTER_READ R382 A counter mailbox request returns a die performance counter. -/
  | counterRead (d : DieId) (ix : Nat)
  /-- HOST_LOG_HEAD_WRITE R394 The host advances the head of the host fault log. -/
  | hostLogHeadWrite (p : PkgId) (head : BitVec 64)
  /-- RELOAD_START R399 Setting reload control bit 0 resets and boots from the loaded image, or is refused. -/
  | reloadStart (p : PkgId) (v : Reload)
  /-- PACKAGE_RESET R397 After reset the port die self-tests, measures, verifies the image and releases the dies. -/
  | packageReset (p : PkgId)
  /-- FIRMWARE_READY R397 Firmware extends MEAS4–MEAS7 and declares ready, which locks the measurements. -/
  | firmwareReady (p : PkgId)
  /-- IDE_KM_REQUEST R389 An IDE_KM request over a secured SPDM session sets or changes the keys of a selective IDE stream. -/
  | ideKmRequest (p : PkgId) (v : BitVec 64)
  /-- NODE_MANAGEMENT_REQUEST R365 The pool node's management interface creates, frees or configures an object, changes its splice-window override, or clears a world's failure count. -/
  | nodeManagementRequest (n : NodeId) (r : NodeRequest)
  /-- SERIAL_CONFIRMATION R383 System software confirms through the management interface that the pool nodes have removed a world's objects, which frees its serial for reissue. -/
  | serialConfirmation (p : PkgId) (serial : BitVec 15)
  /-- POOL_NODE_RESTART R283 A pool node restarts and keeps each object's fencing token. -/
  | poolNodeRestart (n : NodeId)
  /-- LINK_REPLAY_TIMEOUT R338 A link's replay timeout expires and the unacknowledged or dropped flits are replayed by sequence number. -/
  | linkReplayTimeout (owner : Peer) (link : Fin 41)
  /-- RETUNE_COMPLETE R328 A port filter's retune finishes 360 cc after it was applied, and the filter then hears its new colour. -/
  | retuneComplete (at_ : Fabric) (filter : Fin 8)
deriving DecidableEq, Repr

end Sys2Proof
end

