-- ==== Sys2Proof/Config.lean ====
section
/-! DEFINITION. What an implementation fixes and the spec leaves open: the free values (opaque, no value can be proved of
them) and the constants that a log entry names. -/
namespace Sys2Proof.Config

/-- A byte whose contents the spec leaves to an agent outside: the n-th free byte drawn. Free value,
notes/assumptions/7.md. -/
opaque freeByte : Nat → BitVec 8

/-- The n-th message whose contents the spec takes from a standard it only names (SPDM, TDISP report, R389). Free value,
notes/assumptions/7.md. -/
opaque reply : Nat → List (BitVec 8)

/-- The digest of the boot ROM of a package (R397 step 2), which the spec does not give. Free value. -/
opaque bootRomDigest : Nat → BitVec 512

/-- The digest of the fuse configuration of a package (R397 step 2), which the spec does not give. Free value. -/
opaque fuseDigest : Nat → BitVec 512

/-- The hash fused in the port die (R396), which the spec does not give. Free value. -/
opaque fusedHash : Nat → BitVec 512

/-- What a domain reduction makes of the packages' contributions in ascending order: R341 names no operation. Free value,
notes/assumptions/7.md. -/
opaque reduceBytes : List (List (BitVec 8)) → List (BitVec 8)

/-- Whether the input buffer of a ring station is full when a slot arrives (R325): the spec gives no size. Free value. -/
opaque bufferFull : Nat → Bool

/-- What FAULTV names a severed pool node by: R312 speaks of package numbers only. Free value, notes/assumptions/7.md. -/
opaque severedNode : Nat → BitVec 64

/-- How many cycles a home gives its command cell to resolve a translation miss of a remote access or of a copy, before the
refusal is final (R275, R301): the spec gives no time. Free value, notes/assumptions/63.md. -/
opaque missWait : Nat → Nat

/-- The byte that memory reads where nothing has been written (R268 gives stale granules zeros; for paged and host memory
DESIGN CHOICE, notes/assumptions/3.md). -/
def unlistedByte : BitVec 8 := 0

end Sys2Proof.Config
end

