-- ==== Sys2Proof/Machine/SMap.lean ====
section
/-! DEFINITION. The sparse containers: keyed lists and the canonical memory. A store of the unlisted byte removes the entry,
so equal memories are equal data. -/
namespace Sys2Proof.Machine
open Sys2Proof

/-- The value at key k, if there is one. -/
def find? {α : Type} (m : SMap α) (k : Nat) : Option α :=
  match m with
  | [] => none
  | (j, x) :: r => if j = k then some x else find? r k

/-- The value at key k, or the default d. -/
def lookup {α : Type} (d : α) (m : SMap α) (k : Nat) : α :=
  match find? m k with
  | some x => x
  | none => d

/-- The map with the value x at key k, keys kept rising. -/
def insertAt {α : Type} (m : SMap α) (k : Nat) (x : α) : SMap α :=
  match m with
  | [] => [(k, x)]
  | (j, y) :: r => if k < j then (k, x) :: (j, y) :: r else if k = j then (k, x) :: r else (j, y) :: insertAt r k x

/-- The map without key k. -/
def dropKey {α : Type} (m : SMap α) (k : Nat) : SMap α :=
  match m with
  | [] => []
  | (j, y) :: r => if j = k then dropKey r k else (j, y) :: dropKey r k

/-- The values of a map with f applied. -/
def mapVals {α β : Type} (f : α → β) (m : SMap α) : SMap β :=
  match m with
  | [] => []
  | (k, x) :: r => (k, f x) :: mapVals f r

/-! Memory. -/

/-- One byte of memory: the entry at the address, or what an unlisted address reads as. -/
def Memory.byte (m : Memory) (a : Nat) : Byte := lookup Config.unlistedByte m a

/-- Memory with byte b at address a, in canonical form. -/
def Memory.setByte (m : Memory) (a : Nat) (b : Byte) : Memory :=
  if b = Config.unlistedByte then dropKey m a else insertAt m a b

/-- The n bytes from address a, lowest first. -/
def Memory.read (m : Memory) (a : Nat) : Nat → List Byte
  | 0 => []
  | n + 1 => Memory.byte m a :: Memory.read m (a + 1) n

/-- Memory with the bytes of a list stored from address a. -/
def Memory.write (m : Memory) (a : Nat) : List Byte → Memory
  | [] => m
  | b :: bs => Memory.write (Memory.setByte m a b) (a + 1) bs

/-- Every key of the list is above k, and the list rises. -/
def risingFrom {α : Type} (k : Nat) : SMap α → Bool
  | [] => true
  | (j, _) :: r => decide (k ≤ j) && risingFrom (j + 1) r

/-- The canonical form of memory: addresses strictly rising, no entry equal to what an unlisted address reads as. -/
def Memory.wf (m : Memory) : Bool := risingFrom 0 m && m.all (fun c => c.2 != Config.unlistedByte)

end Sys2Proof.Machine
end

