-- ==== Sys2Proof/Machine/Bits.lean ====
section
/-! DEFINITION. Bytes, bit fields and extensions: every helper on bit patterns that the meanings share. -/
namespace Sys2Proof.Machine
open Sys2Proof

/-- Little-endian bytes of the low n bytes of a number (R3). -/
def leBytes (v : Nat) : Nat → List Byte
  | 0 => []
  | n + 1 => BitVec.ofNat 8 v :: leBytes (v / 256) n

/-- The number whose little-endian bytes are given (R3). -/
def ofLe : List Byte → Nat
  | [] => 0
  | b :: bs => b.toNat + 256 * ofLe bs

/-- The number whose big-endian bytes are given. -/
def ofBe (bs : List Byte) : Nat := ofLe bs.reverse

/-- Big-endian bytes. -/
def beBytes (v n : Nat) : List Byte := (leBytes v n).reverse

/-- Field [hi:lo] of a number. -/
def fieldOf (v hi lo : Nat) : Nat := v / 2 ^ lo % 2 ^ (hi + 1 - lo)

/-- Field [hi:lo] of a 64-bit word. -/
def wf64 (w : Word) (hi lo : Nat) : Nat := fieldOf w.toNat hi lo

/-- Sign extension of a field to 64 bits (R92). -/
def sx {n : Nat} (x : BitVec n) : Word := x.signExtend 64

/-- Zero extension of a field to 64 bits. -/
def zx {n : Nat} (x : BitVec n) : Word := x.setWidth 64

/-- A truth value as a word. -/
def ofBool (b : Bool) : Word := if b then 1 else 0

/-- Byte i of a list, 0 beyond its end. -/
def byteAt (bs : List Byte) (i : Nat) : Byte := bs.getD i 0

/-- The list padded with zero bytes, or cut, to n bytes. -/
def fitBytes (n : Nat) (bs : List Byte) : List Byte := bs.take n ++ List.replicate (n - bs.length) 0

/-- A list with the bytes of ys written from position i on. -/
def overlay (xs : List Byte) (i : Nat) (ys : List Byte) : List Byte :=
  xs.take i ++ ys ++ xs.drop (i + ys.length)

/-- The 64-bit word at byte offset i of a list. -/
def wordAt (bs : List Byte) (i : Nat) : Word := BitVec.ofNat 64 (ofLe (fitBytes 8 (bs.drop i)))

/-- The 128-bit value at byte offset i of a list. -/
def capAt (bs : List Byte) (i : Nat) : Cap := BitVec.ofNat 128 (ofLe (fitBytes 16 (bs.drop i)))

/-- All bytes of a list are zero. -/
def allZero (bs : List Byte) : Bool := bs.all (· == 0)

/-- Number of one bits among the low n bits of v. -/
def popCount (v : Nat) : Nat → Nat
  | 0 => 0
  | n + 1 => v % 2 + popCount (v / 2) n

/-- Number of trailing zero bits of v among n bits. -/
def ctzN (v : Nat) : Nat → Nat
  | 0 => 0
  | n + 1 => if v % 2 = 1 then 0 else 1 + ctzN (v / 2) n

/-- Number of leading zero bits of an n-bit v. -/
def clzN (v n : Nat) : Nat := if v = 0 then n else n - (Nat.log2 v + 1)

/-- The lanes of a mask that are set, in ascending order. -/
def setLanes (m : BitVec 128) : List Nat := (List.range 128).filter (fun i => m.getLsbD i)

/-- A 128-bit mask from a predicate on lanes. -/
def maskOf (f : Nat → Bool) : BitVec 128 :=
  BitVec.ofNat 128 ((List.range 128).foldl (fun a i => if f i then a + 2 ^ i else a) 0)

/-- Replace element i of a list, extended with a default where it is shorter. -/
def setAt {α : Type} (d : α) (xs : List α) (i : Nat) (x : α) : List α :=
  (if i < xs.length then xs else xs ++ List.replicate (i + 1 - xs.length) d).set i x

/-- Lowest number below n that satisfies a test. -/
def lowest (n : Nat) (f : Nat → Bool) : Option Nat := (List.range n).find? f

end Sys2Proof.Machine
end

