-- ==== Sys2Proof/Machine/Crypto.lean ====
section
/-! DEFINITION. The ciphers and sums the spec names: AES-256, AES-CMAC (R280), AES-256-GCM (R381, R392), SHA-512 and
RSASSA-PSS verification (R396, R397), CRC32C (R299). The constants of the standards are computed where they have a rule. -/
namespace Sys2Proof.Machine
open Sys2Proof

/-- Bytes combined by exclusive or, as long as the shorter list. -/
def xorBytes (a b : List Byte) : List Byte := List.zipWith (· ^^^ ·) a b

/-! AES-256 (FIPS 197). The state is 16 bytes, column by column. -/

/-- Multiplication by x in GF(2^8). -/
def xtime (a : Byte) : Byte := (a <<< 1) ^^^ (if a.getLsbD 7 then 0x1B else 0)

/-- Product in GF(2^8), over the low n bits of b. -/
def gmul (a b : Byte) : Nat → Byte
  | 0 => 0
  | n + 1 => (if b.getLsbD 0 then a else 0) ^^^ gmul (xtime a) (b >>> 1) n

/-- a^254, the inverse in GF(2^8). -/
def ginv (a : Byte) : Byte :=
  let m (x y : Byte) := gmul x y 8
  let a2 := m a a
  let a3 := m a2 a
  let a6 := m a3 a3
  let a7 := m a6 a
  let a14 := m a7 a7
  let a15 := m a14 a
  let a30 := m a15 a15
  let a31 := m a30 a
  let a62 := m a31 a31
  let a63 := m a62 a
  let a126 := m a63 a63
  let a127 := m a126 a
  m a127 a127

def sbox (a : Byte) : Byte :=
  let b := ginv a
  b ^^^ b.rotateLeft 1 ^^^ b.rotateLeft 2 ^^^ b.rotateLeft 3 ^^^ b.rotateLeft 4 ^^^ 0x63

def subBytes (s : List Byte) : List Byte := s.map sbox

/-- Row r of column c comes from column c + r. -/
def shiftRows (s : List Byte) : List Byte :=
  (List.range 16).map (fun i => byteAt s ((i / 4 + i % 4) % 4 * 4 + i % 4))

def mixColumn (s : List Byte) (c : Nat) : List Byte :=
  let x (i : Nat) := byteAt s (4 * c + i % 4)
  (List.range 4).map (fun i => xtime (x i) ^^^ (xtime (x (i + 1)) ^^^ x (i + 1)) ^^^ x (i + 2) ^^^ x (i + 3))

def mixColumns (s : List Byte) : List Byte := (List.range 4).flatMap (mixColumn s)

/-- The next eight words of the key schedule, as 32 bytes, from the last 32. -/
def nextKeys (w : List Byte) (rcon : Byte) : List Byte :=
  let word (i : Nat) := (w.drop (4 * i)).take 4
  let last := subBytes ((word 7).drop 1 ++ (word 7).take 1)
  let n0 := xorBytes (word 0) (xorBytes last [rcon, 0, 0, 0])
  let n1 := xorBytes (word 1) n0
  let n2 := xorBytes (word 2) n1
  let n3 := xorBytes (word 3) n2
  let n4 := xorBytes (word 4) (subBytes n3)
  let n5 := xorBytes (word 5) n4
  let n6 := xorBytes (word 6) n5
  let n7 := xorBytes (word 7) n6
  n0 ++ n1 ++ n2 ++ n3 ++ n4 ++ n5 ++ n6 ++ n7

def keySchedule (w : List Byte) (rcon : Byte) : Nat → List Byte
  | 0 => w
  | n + 1 => w ++ keySchedule (nextKeys w rcon) (xtime rcon) n

/-- The fourteen rounds after the first key addition. -/
def aesRounds (s : List Byte) (ks : List Byte) : Nat → List Byte
  | 0 => s
  | n + 1 =>
    let t := shiftRows (subBytes s)
    aesRounds (xorBytes (if n = 0 then t else mixColumns t) (ks.take 16)) (ks.drop 16) n

/-- AES-256 of one block under a 32-byte key. -/
def aes256 (key block : List Byte) : List Byte :=
  let ks := keySchedule key 1 7
  aesRounds (xorBytes block (ks.take 16)) (ks.drop 16) 14

/-- Key bytes of a 256-bit key as stored, byte 0 lowest (R3, R355). -/
def keyBytes (k : BitVec 256) : List Byte := leBytes k.toNat 32

/-! AES-CMAC (RFC 4493). -/

/-- The 128-bit string shifted left by one, reduced. -/
def cmacDouble (b : List Byte) : List Byte :=
  let v := ofBe b * 2
  beBytes (if 2 ^ 128 ≤ v then (v - 2 ^ 128) ^^^ 0x87 else v) 16

/-- CMAC of a message shorter than one block: padded, under the second subkey. -/
def cmacShort (key msg : List Byte) : List Byte :=
  let k2 := cmacDouble (cmacDouble (aes256 key (List.replicate 16 0)))
  aes256 key (xorBytes (fitBytes 16 (msg ++ [0x80])) k2)

/-- The MAC of a capability over its low 96 bits (R280). -/
def capMac (key : BitVec 256) (c : Cap) : BitVec 32 :=
  BitVec.ofNat 32 (ofLe ((cmacShort (keyBytes key) (leBytes c.toNat 12)).take 4))

/-! AES-256-GCM (NIST SP 800-38D) with a 96-bit IV. -/

/-- Product in GF(2^128), bit 0 of the string being the most significant bit. -/
def ghashMul (x : Nat) (v : Nat) : Nat → Nat
  | 0 => 0
  | n + 1 =>
    (if x.testBit n then v else 0) ^^^ ghashMul x (if v % 2 = 1 then v / 2 ^^^ (0xE1 * 2 ^ 120) else v / 2) n

/-- GHASH over blocks of 16 bytes, `n` bounding their number. -/
def ghash (h y : Nat) (data : List Byte) : Nat → Nat
  | 0 => y
  | n + 1 => if data.isEmpty then y else ghash h (ghashMul (y ^^^ ofBe (fitBytes 16 (data.take 16))) h 128) (data.drop 16) n

/-- Counter mode from a 32-bit counter after the 12-byte IV. -/
def ctrMode (key iv : List Byte) (ctr : Nat) (data : List Byte) : Nat → List Byte
  | 0 => []
  | n + 1 => if data.isEmpty then [] else
      xorBytes (data.take 16) (aes256 key (iv ++ beBytes ctr 4)) ++ ctrMode key iv (ctr + 1) (data.drop 16) n

/-- The data padded to whole blocks. -/
def padBlocks (d : List Byte) : List Byte := fitBytes ((d.length + 15) / 16 * 16) d

/-- GCM tag of a ciphertext. -/
def gcmTag (key iv aad ct : List Byte) : List Byte :=
  let h := ofBe (aes256 key (List.replicate 16 0))
  let data := padBlocks aad ++ padBlocks ct ++ beBytes (8 * aad.length) 8 ++ beBytes (8 * ct.length) 8
  xorBytes (beBytes (ghash h 0 data (data.length / 16)) 16) (aes256 key (iv ++ beBytes 1 4))

/-- Encrypt or decrypt under GCM's counter mode. -/
def gcmCrypt (key iv data : List Byte) : List Byte := ctrMode key iv 2 data ((data.length + 15) / 16)

/-! SHA-512 (FIPS 180-4). The round constants are fractional parts of cube roots, the initial values of square roots, of
the first primes. -/

def shaPrimes : List Nat :=
  [2, 3, 5, 7, 11, 13, 17, 19, 23, 29, 31, 37, 41, 43, 47, 53, 59, 61, 67, 71, 73, 79, 83, 89, 97, 101, 103, 107, 109, 113]
  ++ [127, 131, 137, 139, 149, 151, 157, 163, 167, 173, 179, 181, 191, 193, 197, 199, 211, 223, 227, 229, 233, 239, 241]
  ++ [251, 257, 263, 269, 271, 277, 281, 283, 293, 307, 311, 313, 317, 331, 337, 347, 349, 353, 359, 367, 373, 379, 383]
  ++ [389, 397, 401, 409]

/-- The largest r with r^k ≤ n, by its bits. -/
def rootBits (n k : Nat) : Nat → Nat → Nat
  | 0, acc => acc
  | b + 1, acc => rootBits n k b (if (acc + 2 ^ b) ^ k ≤ n then acc + 2 ^ b else acc)

/-- 64 fractional bits of the k-th root of p. -/
def rootFraction (p k : Nat) : Word := BitVec.ofNat 64 (rootBits (p * 2 ^ (64 * k)) k 70 0)

def shaK : List Word := shaPrimes.map (fun p => rootFraction p 3)
def shaInit : List Word := (shaPrimes.take 8).map (fun p => rootFraction p 2)

def rotr (x : Word) (n : Nat) : Word := x.rotateRight n

/-- The message schedule: the last 16 words with the newest first, and `n` more. -/
def shaExpand : Nat → List Word → List Word
  | 0, w => w
  | n + 1, w =>
    let g (i : Nat) := w.getD i 0
    let s0 := rotr (g 14) 1 ^^^ rotr (g 14) 8 ^^^ (g 14 >>> (7 : Nat))
    let s1 := rotr (g 1) 19 ^^^ rotr (g 1) 61 ^^^ (g 1 >>> (6 : Nat))
    shaExpand n ((g 15 + s0 + g 6 + s1) :: w)

/-- One round on the eight working variables. -/
def shaRound (v : List Word) (kw : Word × Word) : List Word :=
  let g (i : Nat) := v.getD i 0
  let e := g 4
  let a := g 0
  let t1 := g 7 + (rotr e 14 ^^^ rotr e 18 ^^^ rotr e 41) + ((e &&& g 5) ^^^ (~~~e &&& g 6)) + kw.1 + kw.2
  let t2 := (rotr a 28 ^^^ rotr a 34 ^^^ rotr a 39) + ((a &&& g 1) ^^^ (a &&& g 2) ^^^ (g 1 &&& g 2))
  [t1 + t2, a, g 1, g 2, g 3 + t1, e, g 5, g 6]

/-- Big-endian 64-bit words of a block. -/
def beWords (d : List Byte) : List Word := (List.range 16).map (fun i => BitVec.ofNat 64 (ofBe ((d.drop (8 * i)).take 8)))

def shaBlock (h : List Word) (d : List Byte) : List Word :=
  let w := (shaExpand 64 (beWords d).reverse).reverse
  List.zipWith (· + ·) h ((List.zip shaK w).foldl shaRound h)

def shaBlocks (h : List Word) (d : List Byte) : Nat → List Word
  | 0 => h
  | n + 1 => shaBlocks (shaBlock h (d.take 128)) (d.drop 128) n

/-- SHA-512 of a byte string. -/
def sha512 (m : List Byte) : List Byte :=
  let blocks := (m.length + 17 + 127) / 128
  let d := fitBytes (blocks * 128 - 16) (m ++ [0x80]) ++ beBytes (8 * m.length) 16
  (shaBlocks shaInit d blocks).flatMap (fun w => beBytes w.toNat 8)

/-- A digest as a 512-bit value, its first byte lowest. -/
def digestOf (m : List Byte) : BitVec 512 := BitVec.ofNat 512 (ofLe (sha512 m))

/-- Extend a measurement register with a digest (R397). -/
def extendMeas (old d : BitVec 512) : BitVec 512 := digestOf (leBytes old.toNat 64 ++ leBytes d.toNat 64)

/-! RSASSA-PSS with SHA-512, MGF1 and a 64-byte salt (R396). -/

/-- base^e mod n over the low k bits of e, most significant first. -/
def powMod (n base e : Nat) : Nat → Nat
  | 0 => 1 % n
  | k + 1 => let r := powMod n base (e / 2) k; if e % 2 = 1 then r * r % n * base % n else r * r % n

def mgf1 (seed : List Byte) (n : Nat) : List Byte :=
  ((List.range ((n + 63) / 64)).flatMap (fun i => sha512 (seed ++ beBytes i 4))).take n

/-- Verify a 512-byte signature of a message under a 4096-bit modulus. -/
def pssVerify (modulus exponent : Nat) (msg sig : List Byte) : Bool :=
  if modulus = 0 then false
  else
    let s := ofBe sig
    let bits := Nat.log2 modulus
    let em := beBytes (powMod modulus s exponent 64) ((bits + 7) / 8)
    let dbLen := em.length - 65
    let masked := em.take dbLen
    let h := (em.drop dbLen).take 64
    let clear := 8 * em.length - bits
    let top (x : List Byte) : List Byte :=
      match x with
      | b :: r => BitVec.ofNat 8 (b.toNat % 2 ^ (8 - clear)) :: r
      | [] => []
    let db := top (xorBytes masked (mgf1 h dbLen))
    let pad := dbLen - 65
    decide (s < modulus) && byteAt em (em.length - 1) == 0xBC && masked == top masked
      && allZero (db.take pad) && byteAt db pad == 1
      && h == sha512 (List.replicate 8 0 ++ sha512 msg ++ db.drop (pad + 1))

/-! CRC32C (R299). -/

def crcBits (c : BitVec 32) : Nat → BitVec 32
  | 0 => c
  | n + 1 => crcBits (if c.getLsbD 0 then (c >>> 1) ^^^ 0x82F63B78 else c >>> 1) n

/-- The running CRC over more bytes. -/
def crcFeed (c : BitVec 32) (bs : List Byte) : BitVec 32 := bs.foldl (fun c b => crcBits (c ^^^ b.setWidth 32) 8) c

/-- CRC32C of a byte string: initial value and final exclusive or all ones. -/
def crc32c (bs : List Byte) : BitVec 32 := ~~~(crcFeed 0xFFFFFFFF bs)

end Sys2Proof.Machine
end

