-- ==== Sys2Proof/WellFormed.lean ====
section
/-! DEFINITION. Which instructions are well formed: the field values that the spec does not mark reserved (R49, R55, R66
step 2, R69, R72-R75, R134, R135, R138, R152, R165). An ill-formed word raises ILLEGAL in the engine that reaches it. -/
namespace Sys2Proof

/-! Operand descriptors of V words (R46 Table 4). -/

/-- Kind of a descriptor: 0 vreg, 1 queue, 2 immediate, 3 lane-broadcast. -/
def dKind (d : BitVec 20) : Nat := (d.extractLsb' 18 2).toNat
def dIndex (d : BitVec 20) : Nat := (d.extractLsb' 12 6).toNat
def dStride (d : BitVec 20) : Int := (d.extractLsb' 8 4).toInt
def dLevel (d : BitVec 20) : Nat := (d.extractLsb' 5 3).toNat
def dExt (d : BitVec 20) : Nat := (d.extractLsb' 0 5).toNat
def dImm (d : BitVec 20) : BitVec 18 := d.extractLsb' 0 18
def dLane (d : BitVec 20) : Nat := (d.extractLsb' 5 7).toNat

/-- What a descriptor names in an operation (R72): a vector operand or result, a result that is also accumulated into,
a mask, a predicate, the immediate selector of `vunpk`, or nothing. -/
inductive VRole where
  | vec | acc | msk | pred | imm | none
deriving DecidableEq, Repr

/-- How an operation uses its rnd field (R138). -/
inductive RndUse where
  | never | whenFloat | reduction | estimate | always | vcvt | vbf
deriving DecidableEq, Repr

/-- How an operation uses aux (R72 Table 5, R73). -/
inductive AuxUse where
  | zero | source | curve | plane | half | narrow | widen
deriving DecidableEq, Repr

/-- The encoding rules of one V operation (R72 Table 5). `types` lists the type codes it accepts. -/
structure VShape where
  op8   : Nat
  D     : VRole
  S1    : VRole
  S2    : VRole
  types : List Nat
  rnd   : RndUse
  aux   : AuxUse
deriving DecidableEq, Repr

def tyArith : List Nat := [0, 1, 2, 3, 4, 5]
def tyInt : List Nat := [2, 3, 4, 5]
def tyFloat : List Nat := [0, 1]
def tyAll : List Nat := [0, 1, 2, 3, 4, 5, 6, 7]

/-- The shape of each V operation, with its op8 code (R72 Table 5); none for every other instruction. -/
def Instr.vShape : Instr → Option (VShape × VFields)
  | .vadd f => some (⟨0x0, .vec, .vec, .vec, tyArith, .whenFloat, .zero⟩, f)
  | .vsub f => some (⟨0x1, .vec, .vec, .vec, tyArith, .whenFloat, .zero⟩, f)
  | .vmul f => some (⟨0x2, .vec, .vec, .vec, tyArith, .whenFloat, .zero⟩, f)
  | .vmulh f => some (⟨0x3, .vec, .vec, .vec, tyInt, .never, .zero⟩, f)
  | .vfma f => some (⟨0x4, .acc, .vec, .vec, tyFloat, .whenFloat, .zero⟩, f)
  | .vfms f => some (⟨0x5, .acc, .vec, .vec, tyFloat, .whenFloat, .zero⟩, f)
  | .vfnm f => some (⟨0x6, .acc, .vec, .vec, tyFloat, .whenFloat, .zero⟩, f)
  | .vmin f => some (⟨0x7, .vec, .vec, .vec, tyArith, .whenFloat, .zero⟩, f)
  | .vmax f => some (⟨0x8, .vec, .vec, .vec, tyArith, .whenFloat, .zero⟩, f)
  | .vabs f => some (⟨0x9, .vec, .vec, .none, [0, 1, 2, 4, 5], .whenFloat, .zero⟩, f)
  | .vneg f => some (⟨0xa, .vec, .vec, .none, [0, 1, 2, 4, 5], .whenFloat, .zero⟩, f)
  | .vabsd f => some (⟨0xb, .vec, .vec, .vec, tyArith, .whenFloat, .zero⟩, f)
  | .vrcpe f => some (⟨0xc, .vec, .vec, .none, [0], .estimate, .zero⟩, f)
  | .vrsqe f => some (⟨0xd, .vec, .vec, .none, [0], .estimate, .zero⟩, f)
  | .vexpe f => some (⟨0xe, .vec, .vec, .none, [0], .estimate, .zero⟩, f)
  | .vfrx f => some (⟨0xf, .vec, .vec, .none, [0], .always, .zero⟩, f)
  | .vand f => some (⟨0x10, .vec, .vec, .vec, tyInt, .never, .zero⟩, f)
  | .vor f => some (⟨0x11, .vec, .vec, .vec, tyInt, .never, .zero⟩, f)
  | .vxor f => some (⟨0x12, .vec, .vec, .vec, tyInt, .never, .zero⟩, f)
  | .vandn f => some (⟨0x13, .vec, .vec, .vec, tyInt, .never, .zero⟩, f)
  | .vshl f => some (⟨0x14, .vec, .vec, .vec, tyInt, .never, .zero⟩, f)
  | .vshr f => some (⟨0x15, .vec, .vec, .vec, tyInt, .never, .zero⟩, f)
  | .vsra f => some (⟨0x16, .vec, .vec, .vec, tyInt, .never, .zero⟩, f)
  | .vpopc f => some (⟨0x17, .vec, .vec, .none, tyInt, .never, .zero⟩, f)
  | .vclz f => some (⟨0x18, .vec, .vec, .none, tyInt, .never, .zero⟩, f)
  | .vsel f => some (⟨0x19, .vec, .vec, .vec, tyAll, .never, .zero⟩, f)
  | .vmov f => some (⟨0x1a, .vec, .vec, .none, tyAll, .never, .zero⟩, f)
  | .vidx f => some (⟨0x1b, .vec, .none, .none, [2], .never, .zero⟩, f)
  | .vclass f => some (⟨0x1c, .vec, .vec, .none, tyFloat, .never, .zero⟩, f)
  | .vceq f => some (⟨0x20, .msk, .vec, .vec, tyArith, .never, .zero⟩, f)
  | .vcne f => some (⟨0x21, .msk, .vec, .vec, tyArith, .never, .zero⟩, f)
  | .vclt f => some (⟨0x22, .msk, .vec, .vec, tyArith, .never, .zero⟩, f)
  | .vcle f => some (⟨0x23, .msk, .vec, .vec, tyArith, .never, .zero⟩, f)
  | .vcgt f => some (⟨0x24, .msk, .vec, .vec, tyArith, .never, .zero⟩, f)
  | .vcun f => some (⟨0x25, .msk, .vec, .vec, tyFloat, .never, .zero⟩, f)
  | .mand f => some (⟨0x28, .msk, .msk, .msk, [0], .never, .zero⟩, f)
  | .mor f => some (⟨0x29, .msk, .msk, .msk, [0], .never, .zero⟩, f)
  | .mxor f => some (⟨0x2a, .msk, .msk, .msk, [0], .never, .zero⟩, f)
  | .mnot f => some (⟨0x2b, .msk, .msk, .none, [0], .never, .zero⟩, f)
  | .mcnt f => some (⟨0x2c, .vec, .msk, .none, [0], .never, .zero⟩, f)
  | .mffs f => some (⟨0x2f, .vec, .msk, .none, [0], .never, .zero⟩, f)
  | .mpany f => some (⟨0x2d, .pred, .msk, .none, [0], .never, .zero⟩, f)
  | .mpall f => some (⟨0x2e, .pred, .msk, .none, [0], .never, .zero⟩, f)
  | .vcvt f => some (⟨0x30, .vec, .vec, .none, [0, 1, 2, 3, 4, 5, 6], .vcvt, .source⟩, f)
  | .vqnt f => some (⟨0x31, .vec, .vec, .vec, [6], .always, .curve⟩, f)
  | .vdqt f => some (⟨0x32, .vec, .vec, .vec, [0], .always, .curve⟩, f)
  | .vtpl f => some (⟨0x33, .vec, .vec, .none, [7], .never, .plane⟩, f)
  | .vpack f => some (⟨0x34, .vec, .vec, .vec, [1, 4, 5], .never, .half⟩, f)
  | .vunpk f => some (⟨0x35, .vec, .vec, .imm, [1, 4, 5], .never, .half⟩, f)
  | .vbfNarrow f => some (⟨0x36, .vec, .vec, .none, [1], .always, .narrow⟩, f)
  | .vbfWiden f => some (⟨0x36, .vec, .vec, .none, [1], .never, .widen⟩, f)
  | .vrsum f => some (⟨0x40, .vec, .vec, .none, [0, 2, 3], .reduction, .zero⟩, f)
  | .vrmax f => some (⟨0x41, .vec, .vec, .none, [0, 2, 3], .reduction, .zero⟩, f)
  | .vrmin f => some (⟨0x42, .vec, .vec, .none, [0, 2, 3], .reduction, .zero⟩, f)
  | .vscan f => some (⟨0x43, .vec, .vec, .none, [0, 2], .reduction, .zero⟩, f)
  | .vrsumi f => some (⟨0x44, .vec, .vec, .none, [4, 5], .never, .zero⟩, f)
  | .vsegsum f => some (⟨0x45, .vec, .vec, .msk, [0, 2], .reduction, .zero⟩, f)
  | .vperm f => some (⟨0x50, .vec, .vec, .vec, tyAll, .never, .zero⟩, f)
  | .vrot f => some (⟨0x51, .vec, .vec, .vec, tyAll, .never, .zero⟩, f)
  | .vbcst f => some (⟨0x52, .vec, .vec, .vec, tyAll, .never, .zero⟩, f)
  | .vzip f => some (⟨0x53, .vec, .vec, .vec, tyAll, .never, .zero⟩, f)
  | .vuzp f => some (⟨0x54, .vec, .vec, .vec, tyAll, .never, .zero⟩, f)
  | .vslide f => some (⟨0x55, .vec, .vec, .vec, tyAll, .never, .zero⟩, f)
  | .vcomp f => some (⟨0x56, .vec, .vec, .msk, tyAll, .never, .zero⟩, f)
  | .vexpd f => some (⟨0x57, .vec, .vec, .msk, tyAll, .never, .zero⟩, f)
  | _ => none

/-- The op6 code of each M operation and its fields (R74). -/
def Instr.mShape : Instr → Option (Nat × MFields)
  | .mldb f => some (0, f)
  | .mstep f => some (1, f)
  | .mfold f => some (2, f)
  | .mdrain f => some (3, f)
  | .mzero f => some (4, f)
  | .mdraini f => some (5, f)
  | _ => none

/-- Level, stride and extension of a strided descriptor (R47, R49): level 7 is reserved, and a stride needs a level. -/
def stridedOk (d : BitVec 20) : Bool :=
  dLevel d != 7 && (dLevel d != 6 || dStride d == 0)

/-- The encoding checks on one descriptor in the role it has (R46, R49, R134, R135, R148, R152). -/
def descOk (r : VRole) (i8 : Bool) (d : BitVec 20) : Bool :=
  match r with
  | .none => d == 0
  | .imm  => dKind d == 2 && dImm d ≤ (if i8 then 1 else 0)
  | .msk  => dKind d == 0 && stridedOk d && dExt d == 0 && dIndex d < 8
  | .pred => dKind d == 0 && dExt d == 0 && dIndex d < 16 && dStride d == 0 && dLevel d == 6
  | .acc  => dKind d == 0 && stridedOk d && dExt d == 0
  | .vec  =>
    match dKind d with
    | 0 => stridedOk d && dExt d == 0
    | 1 => stridedOk d && dExt d ≤ 1 && dIndex d < 16
    | 2 => true
    | _ => dExt d == 0

/-- A destination is never an immediate or a lane-broadcast (R49). -/
def destOk (r : VRole) (d : BitVec 20) : Bool :=
  descOk r false d && dKind d ≤ 1

/-- The rnd rules of R49 and R138; `ty` is the type code and `aux` the source type of a `vcvt`. -/
def rndOk (u : RndUse) (ty aux rnd : Nat) : Bool :=
  match u with
  | .never     => rnd == 0
  | .whenFloat => if ty ≤ 1 then rnd ≤ 5 else rnd == 0
  | .reduction => if ty == 0 then rnd ≤ 1 else rnd == 0
  | .estimate  => rnd ≤ 1
  | .always    => rnd ≤ 5
  | .vcvt      => if ty ≤ 1 || aux ≤ 1 then rnd ≤ 5 else rnd == 0
  | .vbf       => rnd ≤ 5

/-- The aux rules of R72 and R73. -/
def auxOk (u : AuxUse) (ty aux : Nat) : Bool :=
  match u with
  | .zero   => aux == 0
  | .source => aux < 7 && aux != ty
  | .curve  => aux < 8
  | .plane  => aux ≤ 5
  | .half   => aux ≤ 1
  | .narrow => aux == 0
  | .widen  => aux == 1

/-- A V word is well formed (R49, R72, R73, R134, R135, R138). -/
def VShape.ok (h : VShape) (f : VFields) : Bool :=
  h.types.contains f.ty.toNat && rndOk h.rnd f.ty.toNat f.aux.toNat f.rnd.toNat && auxOk h.aux f.ty.toNat f.aux.toNat
    && destOk h.D f.D && descOk h.S1 false f.S1 && descOk h.S2 (f.ty == 5#3) f.S2

/-- Which M fields an operation reads (R74 Table 6). -/
structure MReads where
  acc : Bool
  aq : Bool
  bq : Bool
  rows : Bool
  plane : Bool
  amode : Bool
  fmt : Bool
  scales : Bool
  drain : Bool
deriving DecidableEq, Repr

/-- R74 Table 6, by op6. -/
def mReads : Nat → MReads
  | 0 => ⟨false, false, true, false, true, false, true, false, false⟩
  | 1 => ⟨true, true, false, true, true, true, true, false, false⟩
  | 2 => ⟨true, true, true, true, false, false, true, true, false⟩
  | 4 => ⟨true, false, false, false, false, false, false, false, false⟩
  | _ => ⟨true, false, false, true, false, false, false, false, true⟩

/-- An M word is well formed: fields it does not read are zero (R74), and the limits of R165. -/
def mOk (op6 : Nat) (f : MFields) : Bool :=
  let r := mReads op6
  (r.acc || f.acc == 0) && (r.aq || f.aq == 0) && (r.bq || f.bq == 0) && (r.rows || f.rowsm1 == 0)
    && (r.plane || f.plane == 0) && (r.amode || f.amode == 0) && (r.fmt || (f.fmtl == 0 && f.fmtb == 0))
    && (r.scales || (f.sa == 0 && f.sb == 0))
    && (r.drain || (f.dq == 0 && f.dtype == 0 && f.curve == 0 && f.drnd == 0 && f.zero == 0))
    && f.rowsm1.toNat ≤ 15 && f.fmtl.toNat ≤ 6 && f.plane.toNat ≤ 5
    && f.dtype != 3 && f.dtype != 7 && f.drnd.toNat ≤ 5 && (f.curve == 0 || f.dtype == 6)

/-- Control registers that exist (R83 Table 3). -/
def srAssigned (r : BitVec 8) : Bool :=
  r ≤ 0x0E || (0x10 ≤ r && r ≤ 0x15) || (0x20 ≤ r && r ≤ 0x3F) || (0x40 ≤ r && r ≤ 0x43)

/-- Control registers that are read-only throughout (R69, R83). -/
def srReadOnly (r : BitVec 8) : Bool :=
  r == 0x02 || r == 0x03 || r == 0x04 || r == 0x09 || r == 0x0D || r == 0x0E || (0x10 ≤ r && r ≤ 0x15)

/-- The access sizes `st` accepts: b, h, w and d (R42). -/
def storeSizeOk (z : BitVec 3) : Bool := z == 0 || z == 2 || z == 4 || z == 6

/-- No field of the instruction holds a reserved value. Steps of the device have no encoding and are always well formed. -/
def Instr.wf (i : Instr) : Bool :=
  match i with
  | .cmp _ _ _ c _ | .cmpAnd _ _ _ c _ | .cmpOr _ _ _ c _ | .cmpi _ _ _ c _ => c ≤ 5
  | .mfsr _ r _ => srAssigned r
  | .mtsr _ r _ => srAssigned r && !srReadOnly r
  | .ld _ _ z _ _ => z ≤ 6
  | .st _ _ z _ _ => storeSizeOk z
  | .ldq _ _ z _ _ | .stq _ _ z _ _ | .sgo _ z _ _ => z ≤ 4
  | .pld _ z _ _ _ | .pst _ z _ _ _ => z ≤ 4
  | .fenceRel _ c | .fenceAcq _ c | .fenceSc _ c => c ≤ 5
  | .patCas _ _ _ d _ _ => d.getLsbD 0 == false
  | .ltrip _ _ l => l ≤ 5
  | .loop b v => b != 0 && v ≤ 5
  | i =>
    match i.vShape, i.mShape with
    | some (h, f), _ => h.ok f
    | none, some (o, f) => mOk o f
    | none, none => true

end Sys2Proof
end

