-- ==== Sys2Proof/Decode.lean ====
section
/-! DEFINITION. The decoder, total on any bytes (R37 to R55, R66 to R76), and the encoder written from the same tables.
A reserved opcode, function or sub-code, a non-zero reserved bit and a reserved field value are each rejected by name. -/
namespace Sys2Proof

/-- Why the bytes at a program counter are no instruction. -/
inductive DecodeError where
  /-- Fewer bytes than the word's tag asks for: the word does not fit (R38). -/
  | truncated
  /-- A reserved opcode, function code or a reserved bit that is set (R55, R76); the tag names the owning engine. -/
  | reserved (tag : BitVec 2)
  /-- A field value the spec marks reserved for the instruction named (R55, R66 step 2). -/
  | illFormed (i : Instr)
deriving DecidableEq, Repr

/-- Length of a word in parcels, by its tag (R37 Table 1). -/
def wordParcels (tag : BitVec 2) : Nat :=
  match tag.toNat with
  | 1 => 3
  | 2 => 6
  | _ => 1

/-- Major 0x00: ADD, SUB, AND, OR, XOR, SLL, SRL, SRA, MUL, MULH, MULHN, DIV, DIVN, REM, REMN, MIN, MAX, MINN, MAXN, ADDW, SUBW, CLZ, CTZ, POPC, ANDN, ROL, ROR (R68 Table 2). -/
def decodeMajor00 (w : Parcel) : Option Instr :=
  if w.extractLsb' 23 5 = 0#5 then some (.add (w.extractLsb' 28 4) (w.extractLsb' 18 5) (w.extractLsb' 13 5) (w.extractLsb' 8 5))
  else if w.extractLsb' 23 5 = 1#5 then some (.sub (w.extractLsb' 28 4) (w.extractLsb' 18 5) (w.extractLsb' 13 5) (w.extractLsb' 8 5))
  else if w.extractLsb' 23 5 = 2#5 then some (.and (w.extractLsb' 28 4) (w.extractLsb' 18 5) (w.extractLsb' 13 5) (w.extractLsb' 8 5))
  else if w.extractLsb' 23 5 = 3#5 then some (.or (w.extractLsb' 28 4) (w.extractLsb' 18 5) (w.extractLsb' 13 5) (w.extractLsb' 8 5))
  else if w.extractLsb' 23 5 = 4#5 then some (.xor (w.extractLsb' 28 4) (w.extractLsb' 18 5) (w.extractLsb' 13 5) (w.extractLsb' 8 5))
  else if w.extractLsb' 23 5 = 5#5 then some (.sll (w.extractLsb' 28 4) (w.extractLsb' 18 5) (w.extractLsb' 13 5) (w.extractLsb' 8 5))
  else if w.extractLsb' 23 5 = 6#5 then some (.srl (w.extractLsb' 28 4) (w.extractLsb' 18 5) (w.extractLsb' 13 5) (w.extractLsb' 8 5))
  else if w.extractLsb' 23 5 = 7#5 then some (.sra (w.extractLsb' 28 4) (w.extractLsb' 18 5) (w.extractLsb' 13 5) (w.extractLsb' 8 5))
  else if w.extractLsb' 23 5 = 8#5 then some (.mul (w.extractLsb' 28 4) (w.extractLsb' 18 5) (w.extractLsb' 13 5) (w.extractLsb' 8 5))
  else if w.extractLsb' 23 5 = 9#5 then some (.mulh (w.extractLsb' 28 4) (w.extractLsb' 18 5) (w.extractLsb' 13 5) (w.extractLsb' 8 5))
  else if w.extractLsb' 23 5 = 10#5 then some (.mulhn (w.extractLsb' 28 4) (w.extractLsb' 18 5) (w.extractLsb' 13 5) (w.extractLsb' 8 5))
  else if w.extractLsb' 23 5 = 11#5 then some (.div (w.extractLsb' 28 4) (w.extractLsb' 18 5) (w.extractLsb' 13 5) (w.extractLsb' 8 5))
  else if w.extractLsb' 23 5 = 12#5 then some (.divn (w.extractLsb' 28 4) (w.extractLsb' 18 5) (w.extractLsb' 13 5) (w.extractLsb' 8 5))
  else if w.extractLsb' 23 5 = 13#5 then some (.rem (w.extractLsb' 28 4) (w.extractLsb' 18 5) (w.extractLsb' 13 5) (w.extractLsb' 8 5))
  else if w.extractLsb' 23 5 = 14#5 then some (.remn (w.extractLsb' 28 4) (w.extractLsb' 18 5) (w.extractLsb' 13 5) (w.extractLsb' 8 5))
  else if w.extractLsb' 23 5 = 15#5 then some (.min (w.extractLsb' 28 4) (w.extractLsb' 18 5) (w.extractLsb' 13 5) (w.extractLsb' 8 5))
  else if w.extractLsb' 23 5 = 16#5 then some (.max (w.extractLsb' 28 4) (w.extractLsb' 18 5) (w.extractLsb' 13 5) (w.extractLsb' 8 5))
  else if w.extractLsb' 23 5 = 17#5 then some (.minn (w.extractLsb' 28 4) (w.extractLsb' 18 5) (w.extractLsb' 13 5) (w.extractLsb' 8 5))
  else if w.extractLsb' 23 5 = 18#5 then some (.maxn (w.extractLsb' 28 4) (w.extractLsb' 18 5) (w.extractLsb' 13 5) (w.extractLsb' 8 5))
  else if w.extractLsb' 23 5 = 19#5 then some (.addw (w.extractLsb' 28 4) (w.extractLsb' 18 5) (w.extractLsb' 13 5) (w.extractLsb' 8 5))
  else if w.extractLsb' 23 5 = 20#5 then some (.subw (w.extractLsb' 28 4) (w.extractLsb' 18 5) (w.extractLsb' 13 5) (w.extractLsb' 8 5))
  else if w.extractLsb' 23 5 = 21#5 then (if w &&& 0x007C0000#32 = 0#32 then some (.clz (w.extractLsb' 28 4) (w.extractLsb' 13 5) (w.extractLsb' 8 5)) else none)
  else if w.extractLsb' 23 5 = 22#5 then (if w &&& 0x007C0000#32 = 0#32 then some (.ctz (w.extractLsb' 28 4) (w.extractLsb' 13 5) (w.extractLsb' 8 5)) else none)
  else if w.extractLsb' 23 5 = 23#5 then (if w &&& 0x007C0000#32 = 0#32 then some (.popc (w.extractLsb' 28 4) (w.extractLsb' 13 5) (w.extractLsb' 8 5)) else none)
  else if w.extractLsb' 23 5 = 24#5 then some (.andn (w.extractLsb' 28 4) (w.extractLsb' 18 5) (w.extractLsb' 13 5) (w.extractLsb' 8 5))
  else if w.extractLsb' 23 5 = 25#5 then some (.rol (w.extractLsb' 28 4) (w.extractLsb' 18 5) (w.extractLsb' 13 5) (w.extractLsb' 8 5))
  else if w.extractLsb' 23 5 = 26#5 then some (.ror (w.extractLsb' 28 4) (w.extractLsb' 18 5) (w.extractLsb' 13 5) (w.extractLsb' 8 5))
  else none

/-- Major 0x01: ADDI (R68 Table 2). -/
def decodeMajor01 (w : Parcel) : Option Instr :=
  some (.addi (w.extractLsb' 28 4) (w.extractLsb' 18 10) (w.extractLsb' 13 5) (w.extractLsb' 8 5))

/-- Major 0x02: ANDI (R68 Table 2). -/
def decodeMajor02 (w : Parcel) : Option Instr :=
  some (.andi (w.extractLsb' 28 4) (w.extractLsb' 18 10) (w.extractLsb' 13 5) (w.extractLsb' 8 5))

/-- Major 0x03: ORI (R68 Table 2). -/
def decodeMajor03 (w : Parcel) : Option Instr :=
  some (.ori (w.extractLsb' 28 4) (w.extractLsb' 18 10) (w.extractLsb' 13 5) (w.extractLsb' 8 5))

/-- Major 0x04: XORI (R68 Table 2). -/
def decodeMajor04 (w : Parcel) : Option Instr :=
  some (.xori (w.extractLsb' 28 4) (w.extractLsb' 18 10) (w.extractLsb' 13 5) (w.extractLsb' 8 5))

/-- Major 0x05: SLLI, SRLI, SRAI (R68 Table 2). -/
def decodeMajor05 (w : Parcel) : Option Instr :=
  if w.extractLsb' 24 4 = 0#4 then some (.slli (w.extractLsb' 28 4) (w.extractLsb' 18 6) (w.extractLsb' 13 5) (w.extractLsb' 8 5))
  else if w.extractLsb' 24 4 = 1#4 then some (.srli (w.extractLsb' 28 4) (w.extractLsb' 18 6) (w.extractLsb' 13 5) (w.extractLsb' 8 5))
  else if w.extractLsb' 24 4 = 2#4 then some (.srai (w.extractLsb' 28 4) (w.extractLsb' 18 6) (w.extractLsb' 13 5) (w.extractLsb' 8 5))
  else none

/-- Major 0x06: LUI (R68 Table 2). -/
def decodeMajor06 (w : Parcel) : Option Instr :=
  some (.lui (w.extractLsb' 13 19) (w.extractLsb' 8 5))

/-- Major 0x07: ADDPC (R68 Table 2). -/
def decodeMajor07 (w : Parcel) : Option Instr :=
  some (.addpc (w.extractLsb' 13 19) (w.extractLsb' 8 5))

/-- Major 0x08: CMP, CMP_AND, CMP_OR (R68 Table 2). -/
def decodeMajor08 (w : Parcel) : Option Instr :=
  if w.extractLsb' 25 3 = 0#3 then some (.cmp (w.extractLsb' 28 4) (w.extractLsb' 20 5) (w.extractLsb' 15 5) (w.extractLsb' 12 3) (w.extractLsb' 8 4))
  else if w.extractLsb' 25 3 = 1#3 then some (.cmpAnd (w.extractLsb' 28 4) (w.extractLsb' 20 5) (w.extractLsb' 15 5) (w.extractLsb' 12 3) (w.extractLsb' 8 4))
  else if w.extractLsb' 25 3 = 2#3 then some (.cmpOr (w.extractLsb' 28 4) (w.extractLsb' 20 5) (w.extractLsb' 15 5) (w.extractLsb' 12 3) (w.extractLsb' 8 4))
  else none

/-- Major 0x09: CMPI (R68 Table 2). -/
def decodeMajor09 (w : Parcel) : Option Instr :=
  some (.cmpi (w.extractLsb' 28 4) (w.extractLsb' 20 8) (w.extractLsb' 15 5) (w.extractLsb' 12 3) (w.extractLsb' 8 4))

/-- Major 0x0A: PAND, POR, PXOR, PANDN, PSET (R68 Table 2). -/
def decodeMajor0A (w : Parcel) : Option Instr :=
  if w.extractLsb' 21 3 = 0#3 then (if w &&& 0x0F100000#32 = 0#32 then some (.pand (w.extractLsb' 28 4) (w.extractLsb' 16 4) (w.extractLsb' 12 4) (w.extractLsb' 8 4)) else none)
  else if w.extractLsb' 21 3 = 1#3 then (if w &&& 0x0F100000#32 = 0#32 then some (.por (w.extractLsb' 28 4) (w.extractLsb' 16 4) (w.extractLsb' 12 4) (w.extractLsb' 8 4)) else none)
  else if w.extractLsb' 21 3 = 2#3 then (if w &&& 0x0F100000#32 = 0#32 then some (.pxor (w.extractLsb' 28 4) (w.extractLsb' 16 4) (w.extractLsb' 12 4) (w.extractLsb' 8 4)) else none)
  else if w.extractLsb' 21 3 = 3#3 then (if w &&& 0x0F100000#32 = 0#32 then some (.pandn (w.extractLsb' 28 4) (w.extractLsb' 16 4) (w.extractLsb' 12 4) (w.extractLsb' 8 4)) else none)
  else if w.extractLsb' 21 3 = 4#3 then (if w &&& 0x0F1FE000#32 = 0#32 then some (.pset (w.extractLsb' 28 4) (w.extractLsb' 12 1) (w.extractLsb' 8 4)) else none)
  else none

/-- Major 0x0B: MFSR, MTSR, MTB (R68 Table 2). -/
def decodeMajor0B (w : Parcel) : Option Instr :=
  if w.extractLsb' 26 2 = 0#2 then (if w &&& 0x0003E000#32 = 0#32 then some (.mfsr (w.extractLsb' 28 4) (w.extractLsb' 18 8) (w.extractLsb' 8 5)) else none)
  else if w.extractLsb' 26 2 = 1#2 then (if w &&& 0x00001F00#32 = 0#32 then some (.mtsr (w.extractLsb' 28 4) (w.extractLsb' 18 8) (w.extractLsb' 13 5)) else none)
  else if w.extractLsb' 26 2 = 2#2 then (if w &&& 0x03FC1800#32 = 0#32 then some (.mtb (w.extractLsb' 28 4) (w.extractLsb' 13 5) (w.extractLsb' 8 3)) else none)
  else none

/-- Major 0x0C: LD (R68 Table 2). -/
def decodeMajor0C (w : Parcel) : Option Instr :=
  some (.ld (w.extractLsb' 28 4) (w.extractLsb' 21 7) (w.extractLsb' 18 3) (w.extractLsb' 13 5) (w.extractLsb' 8 5))

/-- Major 0x0D: ST (R68 Table 2). -/
def decodeMajor0D (w : Parcel) : Option Instr :=
  some (.st (w.extractLsb' 28 4) (w.extractLsb' 21 7) (w.extractLsb' 18 3) (w.extractLsb' 13 5) (w.extractLsb' 8 5))

/-- Major 0x0E: LDQ (R68 Table 2). -/
def decodeMajor0E (w : Parcel) : Option Instr :=
  if w &&& 0x00001000#32 = 0#32 then some (.ldq (w.extractLsb' 28 4) (w.extractLsb' 21 7) (w.extractLsb' 18 3) (w.extractLsb' 13 5) (w.extractLsb' 8 4)) else none

/-- Major 0x0F: STQ (R68 Table 2). -/
def decodeMajor0F (w : Parcel) : Option Instr :=
  if w &&& 0x00001000#32 = 0#32 then some (.stq (w.extractLsb' 28 4) (w.extractLsb' 21 7) (w.extractLsb' 18 3) (w.extractLsb' 13 5) (w.extractLsb' 8 4)) else none

/-- Major 0x10: SBASE, SDIM, SUNF, SPAGE (R68 Table 2). -/
def decodeMajor10 (w : Parcel) : Option Instr :=
  if w.extractLsb' 23 5 = 0#5 then (if w &&& 0x007C1800#32 = 0#32 then some (.sbase (w.extractLsb' 28 4) (w.extractLsb' 13 5) (w.extractLsb' 8 3)) else none)
  else if w.extractLsb' 23 5 = 1#5 then some (.sdim (w.extractLsb' 28 4) (w.extractLsb' 18 5) (w.extractLsb' 13 5) (w.extractLsb' 11 2) (w.extractLsb' 8 3))
  else if w.extractLsb' 23 5 = 2#5 then (if w &&& 0x00001800#32 = 0#32 then some (.sunf (w.extractLsb' 28 4) (w.extractLsb' 18 5) (w.extractLsb' 13 5) (w.extractLsb' 8 3)) else none)
  else if w.extractLsb' 23 5 = 3#5 then (if w &&& 0x007C1800#32 = 0#32 then some (.spage (w.extractLsb' 28 4) (w.extractLsb' 13 5) (w.extractLsb' 8 3)) else none)
  else none

/-- Major 0x11: SGO (R68 Table 2). -/
def decodeMajor11 (w : Parcel) : Option Instr :=
  if w &&& 0x0FE31000#32 = 0#32 then some (.sgo (w.extractLsb' 28 4) (w.extractLsb' 18 3) (w.extractLsb' 13 3) (w.extractLsb' 8 4)) else none

/-- Major 0x12: GATH_W, GATH_D, GATH_G (R68 Table 2). -/
def decodeMajor12 (w : Parcel) : Option Instr :=
  if w.extractLsb' 23 5 = 0#5 then (if w &&& 0x00401000#32 = 0#32 then some (.gathW (w.extractLsb' 28 4) (w.extractLsb' 18 4) (w.extractLsb' 13 5) (w.extractLsb' 8 4)) else none)
  else if w.extractLsb' 23 5 = 1#5 then (if w &&& 0x00401000#32 = 0#32 then some (.gathD (w.extractLsb' 28 4) (w.extractLsb' 18 4) (w.extractLsb' 13 5) (w.extractLsb' 8 4)) else none)
  else if w.extractLsb' 23 5 = 2#5 then (if w &&& 0x00401000#32 = 0#32 then some (.gathG (w.extractLsb' 28 4) (w.extractLsb' 18 4) (w.extractLsb' 13 5) (w.extractLsb' 8 4)) else none)
  else none

/-- Major 0x13: SCAT_W, SCAT_D, SCAT_G, SCAT_ADD_W, SCAT_ADD_D, SCAT_ADD_F (R68 Table 2). -/
def decodeMajor13 (w : Parcel) : Option Instr :=
  if w.extractLsb' 23 5 = 0#5 then (if w &&& 0x00401000#32 = 0#32 then some (.scatW (w.extractLsb' 28 4) (w.extractLsb' 18 4) (w.extractLsb' 13 5) (w.extractLsb' 8 4)) else none)
  else if w.extractLsb' 23 5 = 1#5 then (if w &&& 0x00401000#32 = 0#32 then some (.scatD (w.extractLsb' 28 4) (w.extractLsb' 18 4) (w.extractLsb' 13 5) (w.extractLsb' 8 4)) else none)
  else if w.extractLsb' 23 5 = 2#5 then (if w &&& 0x00401000#32 = 0#32 then some (.scatG (w.extractLsb' 28 4) (w.extractLsb' 18 4) (w.extractLsb' 13 5) (w.extractLsb' 8 4)) else none)
  else if w.extractLsb' 23 5 = 8#5 then (if w &&& 0x00401000#32 = 0#32 then some (.scatAddW (w.extractLsb' 28 4) (w.extractLsb' 18 4) (w.extractLsb' 13 5) (w.extractLsb' 8 4)) else none)
  else if w.extractLsb' 23 5 = 9#5 then (if w &&& 0x00401000#32 = 0#32 then some (.scatAddD (w.extractLsb' 28 4) (w.extractLsb' 18 4) (w.extractLsb' 13 5) (w.extractLsb' 8 4)) else none)
  else if w.extractLsb' 23 5 = 10#5 then (if w &&& 0x00401000#32 = 0#32 then some (.scatAddF (w.extractLsb' 28 4) (w.extractLsb' 18 4) (w.extractLsb' 13 5) (w.extractLsb' 8 4)) else none)
  else none

/-- Major 0x14: ATOM_ADD, ATOM_AND, ATOM_OR, ATOM_XOR, ATOM_MIN, ATOM_MAX, ATOM_MINN, ATOM_MAXN, ATOM_SWAP, ATOM_CAS, ATOM_FADD (R68 Table 2). -/
def decodeMajor14 (w : Parcel) : Option Instr :=
  if w.extractLsb' 23 4 = 0#4 then some (.atomAdd (w.extractLsb' 28 4) (w.extractLsb' 27 1) (w.extractLsb' 18 5) (w.extractLsb' 13 5) (w.extractLsb' 8 5))
  else if w.extractLsb' 23 4 = 1#4 then some (.atomAnd (w.extractLsb' 28 4) (w.extractLsb' 27 1) (w.extractLsb' 18 5) (w.extractLsb' 13 5) (w.extractLsb' 8 5))
  else if w.extractLsb' 23 4 = 2#4 then some (.atomOr (w.extractLsb' 28 4) (w.extractLsb' 27 1) (w.extractLsb' 18 5) (w.extractLsb' 13 5) (w.extractLsb' 8 5))
  else if w.extractLsb' 23 4 = 3#4 then some (.atomXor (w.extractLsb' 28 4) (w.extractLsb' 27 1) (w.extractLsb' 18 5) (w.extractLsb' 13 5) (w.extractLsb' 8 5))
  else if w.extractLsb' 23 4 = 4#4 then some (.atomMin (w.extractLsb' 28 4) (w.extractLsb' 27 1) (w.extractLsb' 18 5) (w.extractLsb' 13 5) (w.extractLsb' 8 5))
  else if w.extractLsb' 23 4 = 5#4 then some (.atomMax (w.extractLsb' 28 4) (w.extractLsb' 27 1) (w.extractLsb' 18 5) (w.extractLsb' 13 5) (w.extractLsb' 8 5))
  else if w.extractLsb' 23 4 = 6#4 then some (.atomMinn (w.extractLsb' 28 4) (w.extractLsb' 27 1) (w.extractLsb' 18 5) (w.extractLsb' 13 5) (w.extractLsb' 8 5))
  else if w.extractLsb' 23 4 = 7#4 then some (.atomMaxn (w.extractLsb' 28 4) (w.extractLsb' 27 1) (w.extractLsb' 18 5) (w.extractLsb' 13 5) (w.extractLsb' 8 5))
  else if w.extractLsb' 23 4 = 8#4 then some (.atomSwap (w.extractLsb' 28 4) (w.extractLsb' 27 1) (w.extractLsb' 18 5) (w.extractLsb' 13 5) (w.extractLsb' 8 5))
  else if w.extractLsb' 23 4 = 9#4 then some (.atomCas (w.extractLsb' 28 4) (w.extractLsb' 27 1) (w.extractLsb' 18 5) (w.extractLsb' 13 5) (w.extractLsb' 8 5))
  else if w.extractLsb' 23 4 = 10#4 then (if w &&& 0x08000000#32 = 0#32 then some (.atomFadd (w.extractLsb' 28 4) (w.extractLsb' 18 5) (w.extractLsb' 13 5) (w.extractLsb' 8 5)) else none)
  else none

/-- Major 0x15: KLD, KST, KBND, KRGT, KINF, KMOV (R68 Table 2). -/
def decodeMajor15 (w : Parcel) : Option Instr :=
  if w.extractLsb' 22 6 = 0#6 then (if w &&& 0x003E0000#32 = 0#32 then some (.kld (w.extractLsb' 28 4) (w.extractLsb' 12 5) (w.extractLsb' 8 4)) else none)
  else if w.extractLsb' 22 6 = 1#6 then (if w &&& 0x003E0000#32 = 0#32 then some (.kst (w.extractLsb' 28 4) (w.extractLsb' 12 5) (w.extractLsb' 8 4)) else none)
  else if w.extractLsb' 22 6 = 2#6 then some (.kbnd (w.extractLsb' 28 4) (w.extractLsb' 17 5) (w.extractLsb' 12 5) (w.extractLsb' 8 4))
  else if w.extractLsb' 22 6 = 3#6 then (if w &&& 0x003E0000#32 = 0#32 then some (.krgt (w.extractLsb' 28 4) (w.extractLsb' 12 5) (w.extractLsb' 8 4)) else none)
  else if w.extractLsb' 22 6 = 4#6 then some (.kinf (w.extractLsb' 28 4) (w.extractLsb' 17 5) (w.extractLsb' 12 5) (w.extractLsb' 8 4))
  else if w.extractLsb' 22 6 = 5#6 then (if w &&& 0x0021F000#32 = 0#32 then some (.kmov (w.extractLsb' 28 4) (w.extractLsb' 17 4) (w.extractLsb' 8 4)) else none)
  else none

/-- Major 0x16: PLD (R68 Table 2). -/
def decodeMajor16 (w : Parcel) : Option Instr :=
  if w &&& 0x0E200000#32 = 0#32 then some (.pld (w.extractLsb' 28 4) (w.extractLsb' 22 3) (w.extractLsb' 17 4) (w.extractLsb' 12 5) (w.extractLsb' 8 4)) else none

/-- Major 0x17: PST (R68 Table 2). -/
def decodeMajor17 (w : Parcel) : Option Instr :=
  if w &&& 0x0E200000#32 = 0#32 then some (.pst (w.extractLsb' 28 4) (w.extractLsb' 22 3) (w.extractLsb' 17 4) (w.extractLsb' 12 5) (w.extractLsb' 8 4)) else none

/-- Major 0x18: PAT_ADD, PAT_AND, PAT_OR, PAT_XOR, PAT_MIN, PAT_MAX, PAT_MINN, PAT_MAXN, PAT_SWAP, PAT_CAS, PAT_FADD (R68 Table 2). -/
def decodeMajor18 (w : Parcel) : Option Instr :=
  if w.extractLsb' 22 4 = 0#4 then some (.patAdd (w.extractLsb' 28 4) (w.extractLsb' 27 1) (w.extractLsb' 26 1) (w.extractLsb' 17 5) (w.extractLsb' 12 5) (w.extractLsb' 8 4))
  else if w.extractLsb' 22 4 = 1#4 then some (.patAnd (w.extractLsb' 28 4) (w.extractLsb' 27 1) (w.extractLsb' 26 1) (w.extractLsb' 17 5) (w.extractLsb' 12 5) (w.extractLsb' 8 4))
  else if w.extractLsb' 22 4 = 2#4 then some (.patOr (w.extractLsb' 28 4) (w.extractLsb' 27 1) (w.extractLsb' 26 1) (w.extractLsb' 17 5) (w.extractLsb' 12 5) (w.extractLsb' 8 4))
  else if w.extractLsb' 22 4 = 3#4 then some (.patXor (w.extractLsb' 28 4) (w.extractLsb' 27 1) (w.extractLsb' 26 1) (w.extractLsb' 17 5) (w.extractLsb' 12 5) (w.extractLsb' 8 4))
  else if w.extractLsb' 22 4 = 4#4 then some (.patMin (w.extractLsb' 28 4) (w.extractLsb' 27 1) (w.extractLsb' 26 1) (w.extractLsb' 17 5) (w.extractLsb' 12 5) (w.extractLsb' 8 4))
  else if w.extractLsb' 22 4 = 5#4 then some (.patMax (w.extractLsb' 28 4) (w.extractLsb' 27 1) (w.extractLsb' 26 1) (w.extractLsb' 17 5) (w.extractLsb' 12 5) (w.extractLsb' 8 4))
  else if w.extractLsb' 22 4 = 6#4 then some (.patMinn (w.extractLsb' 28 4) (w.extractLsb' 27 1) (w.extractLsb' 26 1) (w.extractLsb' 17 5) (w.extractLsb' 12 5) (w.extractLsb' 8 4))
  else if w.extractLsb' 22 4 = 7#4 then some (.patMaxn (w.extractLsb' 28 4) (w.extractLsb' 27 1) (w.extractLsb' 26 1) (w.extractLsb' 17 5) (w.extractLsb' 12 5) (w.extractLsb' 8 4))
  else if w.extractLsb' 22 4 = 8#4 then some (.patSwap (w.extractLsb' 28 4) (w.extractLsb' 27 1) (w.extractLsb' 26 1) (w.extractLsb' 17 5) (w.extractLsb' 12 5) (w.extractLsb' 8 4))
  else if w.extractLsb' 22 4 = 9#4 then some (.patCas (w.extractLsb' 28 4) (w.extractLsb' 27 1) (w.extractLsb' 26 1) (w.extractLsb' 17 5) (w.extractLsb' 12 5) (w.extractLsb' 8 4))
  else if w.extractLsb' 22 4 = 10#4 then (if w &&& 0x04000000#32 = 0#32 then some (.patFadd (w.extractLsb' 28 4) (w.extractLsb' 27 1) (w.extractLsb' 17 5) (w.extractLsb' 12 5) (w.extractLsb' 8 4)) else none)
  else none

/-- Major 0x19: PPUSH, PPOP, PGIVE, PTAKE (R68 Table 2). -/
def decodeMajor19 (w : Parcel) : Option Instr :=
  if w.extractLsb' 22 6 = 0#6 then (if w &&& 0x0001F000#32 = 0#32 then some (.ppush (w.extractLsb' 28 4) (w.extractLsb' 17 5) (w.extractLsb' 8 4)) else none)
  else if w.extractLsb' 22 6 = 1#6 then (if w &&& 0x0001F000#32 = 0#32 then some (.ppop (w.extractLsb' 28 4) (w.extractLsb' 17 5) (w.extractLsb' 8 4)) else none)
  else if w.extractLsb' 22 6 = 2#6 then (if w &&& 0x0001F000#32 = 0#32 then some (.pgive (w.extractLsb' 28 4) (w.extractLsb' 17 5) (w.extractLsb' 8 4)) else none)
  else if w.extractLsb' 22 6 = 3#6 then (if w &&& 0x0001F000#32 = 0#32 then some (.ptake (w.extractLsb' 28 4) (w.extractLsb' 17 5) (w.extractLsb' 8 4)) else none)
  else none

/-- Major 0x1A: POUR, HPOUR (R68 Table 2). -/
def decodeMajor1A (w : Parcel) : Option Instr :=
  if w.extractLsb' 24 4 = 0#4 then (if w &&& 0x00001F00#32 = 0#32 then some (.pour (w.extractLsb' 28 4) (w.extractLsb' 18 6) (w.extractLsb' 13 5)) else none)
  else if w.extractLsb' 24 4 = 1#4 then (if w &&& 0x00001F00#32 = 0#32 then some (.hpour (w.extractLsb' 28 4) (w.extractLsb' 18 6) (w.extractLsb' 13 5)) else none)
  else none

/-- Major 0x1B: CTWANY, CTWALL, CTFFR, CTSTAT, CTCLR (R68 Table 2). -/
def decodeMajor1B (w : Parcel) : Option Instr :=
  if w.extractLsb' 23 5 = 0#5 then (if w &&& 0x007C0000#32 = 0#32 then some (.ctwany (w.extractLsb' 28 4) (w.extractLsb' 13 5) (w.extractLsb' 8 5)) else none)
  else if w.extractLsb' 23 5 = 1#5 then (if w &&& 0x007C1F00#32 = 0#32 then some (.ctwall (w.extractLsb' 28 4) (w.extractLsb' 13 5)) else none)
  else if w.extractLsb' 23 5 = 2#5 then (if w &&& 0x007C0000#32 = 0#32 then some (.ctffr (w.extractLsb' 28 4) (w.extractLsb' 13 5) (w.extractLsb' 8 5)) else none)
  else if w.extractLsb' 23 5 = 3#5 then (if w &&& 0x007C0000#32 = 0#32 then some (.ctstat (w.extractLsb' 28 4) (w.extractLsb' 13 5) (w.extractLsb' 8 5)) else none)
  else if w.extractLsb' 23 5 = 4#5 then (if w &&& 0x007C1F00#32 = 0#32 then some (.ctclr (w.extractLsb' 28 4) (w.extractLsb' 13 5)) else none)
  else none

/-- Major 0x1C: RCLAIM, RPUBL, RWAITF, RWAITE, RFREE, RPEEK (R68 Table 2). -/
def decodeMajor1C (w : Parcel) : Option Instr :=
  if w.extractLsb' 23 5 = 0#5 then some (.rclaim (w.extractLsb' 28 4) (w.extractLsb' 18 5) (w.extractLsb' 13 5) (w.extractLsb' 8 5))
  else if w.extractLsb' 23 5 = 1#5 then some (.rpubl (w.extractLsb' 28 4) (w.extractLsb' 18 5) (w.extractLsb' 13 5) (w.extractLsb' 8 5))
  else if w.extractLsb' 23 5 = 2#5 then some (.rwaitf (w.extractLsb' 28 4) (w.extractLsb' 18 5) (w.extractLsb' 13 5) (w.extractLsb' 8 5))
  else if w.extractLsb' 23 5 = 3#5 then some (.rwaite (w.extractLsb' 28 4) (w.extractLsb' 18 5) (w.extractLsb' 13 5) (w.extractLsb' 8 5))
  else if w.extractLsb' 23 5 = 4#5 then some (.rfree (w.extractLsb' 28 4) (w.extractLsb' 18 5) (w.extractLsb' 13 5) (w.extractLsb' 8 5))
  else if w.extractLsb' 23 5 = 5#5 then (if w &&& 0x007C0000#32 = 0#32 then some (.rpeek (w.extractLsb' 28 4) (w.extractLsb' 13 5) (w.extractLsb' 8 5)) else none)
  else none

/-- Major 0x1D: FENCE_REL, FENCE_ACQ, FENCE_SC (R68 Table 2). -/
def decodeMajor1D (w : Parcel) : Option Instr :=
  if w.extractLsb' 23 2 = 0#2 then (if w &&& 0x007FFF00#32 = 0#32 then some (.fenceRel (w.extractLsb' 28 4) (w.extractLsb' 25 3)) else none)
  else if w.extractLsb' 23 2 = 1#2 then (if w &&& 0x007FFF00#32 = 0#32 then some (.fenceAcq (w.extractLsb' 28 4) (w.extractLsb' 25 3)) else none)
  else if w.extractLsb' 23 2 = 2#2 then (if w &&& 0x007FFF00#32 = 0#32 then some (.fenceSc (w.extractLsb' 28 4) (w.extractLsb' 25 3)) else none)
  else none

/-- Major 0x1E: WLACQ, WLRENEW, WLREL, WLCHK (R68 Table 2). -/
def decodeMajor1E (w : Parcel) : Option Instr :=
  if w.extractLsb' 22 6 = 0#6 then (if w &&& 0x0001F000#32 = 0#32 then some (.wlacq (w.extractLsb' 28 4) (w.extractLsb' 17 5) (w.extractLsb' 8 4)) else none)
  else if w.extractLsb' 22 6 = 1#6 then (if w &&& 0x003E0000#32 = 0#32 then some (.wlrenew (w.extractLsb' 28 4) (w.extractLsb' 12 5) (w.extractLsb' 8 4)) else none)
  else if w.extractLsb' 22 6 = 2#6 then (if w &&& 0x003E0000#32 = 0#32 then some (.wlrel (w.extractLsb' 28 4) (w.extractLsb' 12 5) (w.extractLsb' 8 4)) else none)
  else if w.extractLsb' 22 6 = 3#6 then some (.wlchk (w.extractLsb' 28 4) (w.extractLsb' 17 5) (w.extractLsb' 12 5) (w.extractLsb' 8 4))
  else none

/-- Major 0x1F: TRAP, ERET, HEATQ, BRK, WFE (R68 Table 2). -/
def decodeMajor1F (w : Parcel) : Option Instr :=
  if w.extractLsb' 23 5 = 0#5 then (if w &&& 0x0003FF00#32 = 0#32 then some (.trap (w.extractLsb' 28 4) (w.extractLsb' 18 5)) else none)
  else if w.extractLsb' 23 5 = 1#5 then (if w &&& 0x007FFF00#32 = 0#32 then some (.eret (w.extractLsb' 28 4)) else none)
  else if w.extractLsb' 23 5 = 2#5 then (if w &&& 0x007FE000#32 = 0#32 then some (.heatq (w.extractLsb' 28 4) (w.extractLsb' 8 5)) else none)
  else if w.extractLsb' 23 5 = 3#5 then (if w &&& 0x007FFF00#32 = 0#32 then some (.brk (w.extractLsb' 28 4)) else none)
  else if w.extractLsb' 23 5 = 4#5 then (if w &&& 0x007FFF00#32 = 0#32 then some (.wfe (w.extractLsb' 28 4)) else none)
  else none

/-- Major 0x20: TLAUNCH, TDEP, TQRY, TKILL (R68 Table 2). -/
def decodeMajor20 (w : Parcel) : Option Instr :=
  if w.extractLsb' 23 5 = 0#5 then (if w &&& 0x007C0000#32 = 0#32 then some (.tlaunch (w.extractLsb' 28 4) (w.extractLsb' 13 5) (w.extractLsb' 8 5)) else none)
  else if w.extractLsb' 23 5 = 1#5 then (if w &&& 0x00001F00#32 = 0#32 then some (.tdep (w.extractLsb' 28 4) (w.extractLsb' 18 5) (w.extractLsb' 13 5)) else none)
  else if w.extractLsb' 23 5 = 2#5 then (if w &&& 0x007C0000#32 = 0#32 then some (.tqry (w.extractLsb' 28 4) (w.extractLsb' 13 5) (w.extractLsb' 8 5)) else none)
  else if w.extractLsb' 23 5 = 3#5 then (if w &&& 0x007C1F00#32 = 0#32 then some (.tkill (w.extractLsb' 28 4) (w.extractLsb' 13 5)) else none)
  else none

/-- Major 0x21: VALLOC, VFREE (R68 Table 2). -/
def decodeMajor21 (w : Parcel) : Option Instr :=
  if w.extractLsb' 23 5 = 0#5 then some (.valloc (w.extractLsb' 28 4) (w.extractLsb' 18 5) (w.extractLsb' 13 5) (w.extractLsb' 8 5))
  else if w.extractLsb' 23 5 = 1#5 then (if w &&& 0x007C1F00#32 = 0#32 then some (.vfree (w.extractLsb' 28 4) (w.extractLsb' 13 5)) else none)
  else none

/-- Major 0x22: TLBINV, PGPROBE (R68 Table 2). -/
def decodeMajor22 (w : Parcel) : Option Instr :=
  if w.extractLsb' 23 5 = 0#5 then (if w &&& 0x007C1F00#32 = 0#32 then some (.tlbinv (w.extractLsb' 28 4) (w.extractLsb' 13 5)) else none)
  else if w.extractLsb' 23 5 = 1#5 then (if w &&& 0x007C0000#32 = 0#32 then some (.pgprobe (w.extractLsb' 28 4) (w.extractLsb' 13 5) (w.extractLsb' 8 5)) else none)
  else none

/-- Major 0x23: SCHPUB, SCHADV (R68 Table 2). -/
def decodeMajor23 (w : Parcel) : Option Instr :=
  if w.extractLsb' 23 5 = 0#5 then (if w &&& 0x007C1F00#32 = 0#32 then some (.schpub (w.extractLsb' 28 4) (w.extractLsb' 13 5)) else none)
  else if w.extractLsb' 23 5 = 1#5 then (if w &&& 0x007C1F00#32 = 0#32 then some (.schadv (w.extractLsb' 28 4) (w.extractLsb' 13 5)) else none)
  else none

/-- Major 0x24: QPOP, QPUSH (R68 Table 2). -/
def decodeMajor24 (w : Parcel) : Option Instr :=
  if w.extractLsb' 23 5 = 0#5 then (if w &&& 0x007E0000#32 = 0#32 then some (.qpop (w.extractLsb' 28 4) (w.extractLsb' 13 4) (w.extractLsb' 8 5)) else none)
  else if w.extractLsb' 23 5 = 1#5 then (if w &&& 0x007C1000#32 = 0#32 then some (.qpush (w.extractLsb' 28 4) (w.extractLsb' 13 5) (w.extractLsb' 8 4)) else none)
  else none

/-- Major 0x25: SEL (R68 Table 2). -/
def decodeMajor25 (w : Parcel) : Option Instr :=
  some (.sel (w.extractLsb' 28 4) (w.extractLsb' 27 1) (w.extractLsb' 23 4) (w.extractLsb' 18 5) (w.extractLsb' 13 5) (w.extractLsb' 8 5))

/-- Major 0x26: LTRIP (R68 Table 2). -/
def decodeMajor26 (w : Parcel) : Option Instr :=
  if w &&& 0x0FFC1800#32 = 0#32 then some (.ltrip (w.extractLsb' 28 4) (w.extractLsb' 13 5) (w.extractLsb' 8 3)) else none

/-- A words, by major opcode (R42, R68); majors 0x27 to 0x3F are reserved. -/
def decodeA (w : Parcel) : Option Instr :=
  if w.extractLsb' 2 6 = 0x00#6 then decodeMajor00 w
  else if w.extractLsb' 2 6 = 0x01#6 then decodeMajor01 w
  else if w.extractLsb' 2 6 = 0x02#6 then decodeMajor02 w
  else if w.extractLsb' 2 6 = 0x03#6 then decodeMajor03 w
  else if w.extractLsb' 2 6 = 0x04#6 then decodeMajor04 w
  else if w.extractLsb' 2 6 = 0x05#6 then decodeMajor05 w
  else if w.extractLsb' 2 6 = 0x06#6 then decodeMajor06 w
  else if w.extractLsb' 2 6 = 0x07#6 then decodeMajor07 w
  else if w.extractLsb' 2 6 = 0x08#6 then decodeMajor08 w
  else if w.extractLsb' 2 6 = 0x09#6 then decodeMajor09 w
  else if w.extractLsb' 2 6 = 0x0A#6 then decodeMajor0A w
  else if w.extractLsb' 2 6 = 0x0B#6 then decodeMajor0B w
  else if w.extractLsb' 2 6 = 0x0C#6 then decodeMajor0C w
  else if w.extractLsb' 2 6 = 0x0D#6 then decodeMajor0D w
  else if w.extractLsb' 2 6 = 0x0E#6 then decodeMajor0E w
  else if w.extractLsb' 2 6 = 0x0F#6 then decodeMajor0F w
  else if w.extractLsb' 2 6 = 0x10#6 then decodeMajor10 w
  else if w.extractLsb' 2 6 = 0x11#6 then decodeMajor11 w
  else if w.extractLsb' 2 6 = 0x12#6 then decodeMajor12 w
  else if w.extractLsb' 2 6 = 0x13#6 then decodeMajor13 w
  else if w.extractLsb' 2 6 = 0x14#6 then decodeMajor14 w
  else if w.extractLsb' 2 6 = 0x15#6 then decodeMajor15 w
  else if w.extractLsb' 2 6 = 0x16#6 then decodeMajor16 w
  else if w.extractLsb' 2 6 = 0x17#6 then decodeMajor17 w
  else if w.extractLsb' 2 6 = 0x18#6 then decodeMajor18 w
  else if w.extractLsb' 2 6 = 0x19#6 then decodeMajor19 w
  else if w.extractLsb' 2 6 = 0x1A#6 then decodeMajor1A w
  else if w.extractLsb' 2 6 = 0x1B#6 then decodeMajor1B w
  else if w.extractLsb' 2 6 = 0x1C#6 then decodeMajor1C w
  else if w.extractLsb' 2 6 = 0x1D#6 then decodeMajor1D w
  else if w.extractLsb' 2 6 = 0x1E#6 then decodeMajor1E w
  else if w.extractLsb' 2 6 = 0x1F#6 then decodeMajor1F w
  else if w.extractLsb' 2 6 = 0x20#6 then decodeMajor20 w
  else if w.extractLsb' 2 6 = 0x21#6 then decodeMajor21 w
  else if w.extractLsb' 2 6 = 0x22#6 then decodeMajor22 w
  else if w.extractLsb' 2 6 = 0x23#6 then decodeMajor23 w
  else if w.extractLsb' 2 6 = 0x24#6 then decodeMajor24 w
  else if w.extractLsb' 2 6 = 0x25#6 then decodeMajor25 w
  else if w.extractLsb' 2 6 = 0x26#6 then decodeMajor26 w
  else none

/-- Common words, by op6 (R54 Table 7); 0x0C to 0x3F are reserved. -/
def decodeCommon (w : Parcel) : Option Instr :=
  if w.extractLsb' 2 6 = 0x00#6 then (if w &&& 0xFFFFFF00#32 = 0#32 then some (.nop) else none)
  else if w.extractLsb' 2 6 = 0x01#6 then some (.ptb (w.extractLsb' 11 21) (w.extractLsb' 8 3))
  else if w.extractLsb' 2 6 = 0x02#6 then (if w &&& 0xFFFE0000#32 = 0#32 then some (.br (w.extractLsb' 16 1) (w.extractLsb' 15 1) (w.extractLsb' 11 4) (w.extractLsb' 8 3)) else none)
  else if w.extractLsb' 2 6 = 0x03#6 then (if w &&& 0xFFFFF800#32 = 0#32 then some (.call (w.extractLsb' 8 3)) else none)
  else if w.extractLsb' 2 6 = 0x04#6 then (if w &&& 0xFFFFFF00#32 = 0#32 then some (.ret) else none)
  else if w.extractLsb' 2 6 = 0x05#6 then (if w &&& 0x80000000#32 = 0#32 then some (.loop (w.extractLsb' 11 20) (w.extractLsb' 8 3)) else none)
  else if w.extractLsb' 2 6 = 0x06#6 then (if w &&& 0xFFFFFF00#32 = 0#32 then some (.lbrk) else none)
  else if w.extractLsb' 2 6 = 0x07#6 then (if w &&& 0xFFFFFF00#32 = 0#32 then some (.endWord) else none)
  else if w.extractLsb' 2 6 = 0x08#6 then (
    if w &&& 0xFF800000#32 = 0#32 then
      if w.extractLsb' 15 3 = 0#3 then some (.barArrive (w.extractLsb' 18 5) (w.extractLsb' 8 7))
      else if w.extractLsb' 15 3 = 1#3 then some (.barWait (w.extractLsb' 18 5) (w.extractLsb' 8 7))
      else if w.extractLsb' 15 3 = 2#3 then some (.barSync (w.extractLsb' 18 5) (w.extractLsb' 8 7))
      else none
    else none)
  else if w.extractLsb' 2 6 = 0x09#6 then (if w &&& 0xFFFFFF00#32 = 0#32 then some (.beat) else none)
  else if w.extractLsb' 2 6 = 0x0A#6 then (if w &&& 0xFFFFFF00#32 = 0#32 then some (.yield) else none)
  else if w.extractLsb' 2 6 = 0x0B#6 then (if w &&& 0xFFFFFF00#32 = 0#32 then some (.halt) else none)
  else none

/-- V operations, by op8 (R72 Table 5); `vbf` is one op8 whose aux tells its direction (R153). -/
def decodeV (op : BitVec 8) (f : VFields) : Option Instr :=
  if op = 0x00#8 then some (.vadd f)
  else if op = 0x01#8 then some (.vsub f)
  else if op = 0x02#8 then some (.vmul f)
  else if op = 0x03#8 then some (.vmulh f)
  else if op = 0x04#8 then some (.vfma f)
  else if op = 0x05#8 then some (.vfms f)
  else if op = 0x06#8 then some (.vfnm f)
  else if op = 0x07#8 then some (.vmin f)
  else if op = 0x08#8 then some (.vmax f)
  else if op = 0x09#8 then some (.vabs f)
  else if op = 0x0A#8 then some (.vneg f)
  else if op = 0x0B#8 then some (.vabsd f)
  else if op = 0x0C#8 then some (.vrcpe f)
  else if op = 0x0D#8 then some (.vrsqe f)
  else if op = 0x0E#8 then some (.vexpe f)
  else if op = 0x0F#8 then some (.vfrx f)
  else if op = 0x10#8 then some (.vand f)
  else if op = 0x11#8 then some (.vor f)
  else if op = 0x12#8 then some (.vxor f)
  else if op = 0x13#8 then some (.vandn f)
  else if op = 0x14#8 then some (.vshl f)
  else if op = 0x15#8 then some (.vshr f)
  else if op = 0x16#8 then some (.vsra f)
  else if op = 0x17#8 then some (.vpopc f)
  else if op = 0x18#8 then some (.vclz f)
  else if op = 0x19#8 then some (.vsel f)
  else if op = 0x1A#8 then some (.vmov f)
  else if op = 0x1B#8 then some (.vidx f)
  else if op = 0x1C#8 then some (.vclass f)
  else if op = 0x20#8 then some (.vceq f)
  else if op = 0x21#8 then some (.vcne f)
  else if op = 0x22#8 then some (.vclt f)
  else if op = 0x23#8 then some (.vcle f)
  else if op = 0x24#8 then some (.vcgt f)
  else if op = 0x25#8 then some (.vcun f)
  else if op = 0x28#8 then some (.mand f)
  else if op = 0x29#8 then some (.mor f)
  else if op = 0x2A#8 then some (.mxor f)
  else if op = 0x2B#8 then some (.mnot f)
  else if op = 0x2C#8 then some (.mcnt f)
  else if op = 0x2F#8 then some (.mffs f)
  else if op = 0x2D#8 then some (.mpany f)
  else if op = 0x2E#8 then some (.mpall f)
  else if op = 0x30#8 then some (.vcvt f)
  else if op = 0x31#8 then some (.vqnt f)
  else if op = 0x32#8 then some (.vdqt f)
  else if op = 0x33#8 then some (.vtpl f)
  else if op = 0x34#8 then some (.vpack f)
  else if op = 0x35#8 then some (.vunpk f)
  else if op = 0x36#8 then (if f.aux = 1#4 then some (.vbfWiden f) else some (.vbfNarrow f))
  else if op = 0x40#8 then some (.vrsum f)
  else if op = 0x41#8 then some (.vrmax f)
  else if op = 0x42#8 then some (.vrmin f)
  else if op = 0x43#8 then some (.vscan f)
  else if op = 0x44#8 then some (.vrsumi f)
  else if op = 0x45#8 then some (.vsegsum f)
  else if op = 0x50#8 then some (.vperm f)
  else if op = 0x51#8 then some (.vrot f)
  else if op = 0x52#8 then some (.vbcst f)
  else if op = 0x53#8 then some (.vzip f)
  else if op = 0x54#8 then some (.vuzp f)
  else if op = 0x55#8 then some (.vslide f)
  else if op = 0x56#8 then some (.vcomp f)
  else if op = 0x57#8 then some (.vexpd f)
  else none

/-- M operations, by op6 (R74). -/
def decodeM (op : BitVec 6) (f : MFields) : Option Instr :=
  if op = 0#6 then some (.mldb f)
  else if op = 1#6 then some (.mstep f)
  else if op = 2#6 then some (.mfold f)
  else if op = 3#6 then some (.mdrain f)
  else if op = 4#6 then some (.mzero f)
  else if op = 5#6 then some (.mdraini f)
  else none

/-- The V fields of three parcels (R45 Table 3). -/
def vFieldsOf (p0 p1 p2 : Parcel) : VFields where
  pg := p0.extractLsb' 28 4
  aux := p0.extractLsb' 24 4
  stall := p0.extractLsb' 20 4
  rnd := p0.extractLsb' 17 3
  ty := p0.extractLsb' 14 3
  minv := p0.extractLsb' 13 1
  mask := p0.extractLsb' 10 3
  D := p1.extractLsb' 0 20
  S1 := p2.extractLsb' 0 8 ++ p1.extractLsb' 20 12
  S2 := p2.extractLsb' 8 20

/-- The M fields of six parcels (R52, R53). -/
def mFieldsOf (p0 p1 p2 p3 p4 : Parcel) : MFields where
  pg := p0.extractLsb' 28 4
  fmtl := p0.extractLsb' 22 3
  stall := p0.extractLsb' 18 4
  bq := p0.extractLsb' 14 4
  aq := p0.extractLsb' 10 4
  acc := p0.extractLsb' 8 2
  cols := p1.extractLsb' 14 8
  fmtb := p1.extractLsb' 10 4
  amode := p1.extractLsb' 8 2
  plane := p1.extractLsb' 5 3
  rowsm1 := p1.extractLsb' 0 5
  sa := p2.extractLsb' 0 20
  sb := p3.extractLsb' 0 20
  dq := p4.extractLsb' 0 4
  dtype := p4.extractLsb' 4 3
  curve := p4.extractLsb' 7 3
  drnd := p4.extractLsb' 10 3
  zero := p4.extractLsb' 13 1

/-- The reserved bits of an M word are zero: parcel 0 [27:25], parcel 1 [31:22], parcels 2 and 3 [31:20], parcel 4 [31:14],
parcel 5 in full (R52, R53). -/
def mReservedClear (p0 p1 p2 p3 p4 p5 : Parcel) : Bool :=
  p0.extractLsb' 25 3 == 0#3 && p1.extractLsb' 22 10 == 0#10 && p2.extractLsb' 20 12 == 0#12
    && p3.extractLsb' 20 12 == 0#12 && p4.extractLsb' 14 18 == 0#18 && p5 == 0#32

/-- The word whose first parcels are given, before the checks on field values. -/
def decodeParcels : List Parcel → Option Instr
  | p0 :: rest =>
    match (p0.extractLsb' 0 2).toNat, rest with
    | 0, _ => decodeA p0
    | 3, _ => decodeCommon p0
    | 1, p1 :: p2 :: _ =>
      if p2.extractLsb' 28 4 = 0#4 then decodeV (p0.extractLsb' 2 8) (vFieldsOf p0 p1 p2) else none
    | 2, p1 :: p2 :: p3 :: p4 :: p5 :: _ =>
      if mReservedClear p0 p1 p2 p3 p4 p5 then decodeM (p0.extractLsb' 2 6) (mFieldsOf p0 p1 p2 p3 p4) else none
    | _, _ => none
  | [] => none

/-- Decode the word whose parcels start the list (R66 steps 1 and 2). -/
def decodeWord (ps : List Parcel) : Except DecodeError Instr :=
  match ps with
  | [] => .error .truncated
  | p0 :: _ =>
    let tag := p0.extractLsb' 0 2
    if ps.length < wordParcels tag then .error .truncated
    else
      match decodeParcels ps with
      | none => .error (.reserved tag)
      | some i => if i.wf then .ok i else .error (.illFormed i)

/-- A 32-bit little-endian parcel from its bytes (R37). -/
def parcelOfBytes (b0 b1 b2 b3 : Byte) : Parcel := b3 ++ b2 ++ b1 ++ b0

/-- The whole parcels of a byte list, in address order; bytes after the last whole parcel are left. -/
def parcelsOfBytes : List Byte → List Parcel
  | b0 :: b1 :: b2 :: b3 :: rest => parcelOfBytes b0 b1 b2 b3 :: parcelsOfBytes rest
  | _ => []

/-- The four bytes of a parcel, lowest address first (R37). -/
def bytesOfParcel (p : Parcel) : List Byte :=
  [p.extractLsb' 0 8, p.extractLsb' 8 8, p.extractLsb' 16 8, p.extractLsb' 24 8]

/-- Decode the instruction at the start of a byte list; the bytes after it are returned. -/
def decode (bs : List Byte) : Except DecodeError (Instr × List Byte) :=
  match decodeWord (parcelsOfBytes bs) with
  | .error e => .error e
  | .ok i =>
    match parcelsOfBytes bs with
    | [] => .error .truncated
    | p0 :: _ => .ok (i, bs.drop (4 * wordParcels (p0.extractLsb' 0 2)))

/-! The encoder. -/

/-- A field at bit `lo` of a parcel that is otherwise zero. -/
def place {n : Nat} (lo : Nat) (x : BitVec n) : Parcel := x.setWidth 32 <<< lo

/-- The one parcel of an A or common word, from the field positions of R42, R54, R67 and R68; none for other words. -/
def encodeParcel : Instr → Option Parcel
  | .add p_ t_ s_ d_ => some (place 28 p_ ||| place 18 t_ ||| place 13 s_ ||| place 8 d_ ||| 0x00000000#32)
  | .sub p_ t_ s_ d_ => some (place 28 p_ ||| place 18 t_ ||| place 13 s_ ||| place 8 d_ ||| 0x00800000#32)
  | .and p_ t_ s_ d_ => some (place 28 p_ ||| place 18 t_ ||| place 13 s_ ||| place 8 d_ ||| 0x01000000#32)
  | .or p_ t_ s_ d_ => some (place 28 p_ ||| place 18 t_ ||| place 13 s_ ||| place 8 d_ ||| 0x01800000#32)
  | .xor p_ t_ s_ d_ => some (place 28 p_ ||| place 18 t_ ||| place 13 s_ ||| place 8 d_ ||| 0x02000000#32)
  | .sll p_ t_ s_ d_ => some (place 28 p_ ||| place 18 t_ ||| place 13 s_ ||| place 8 d_ ||| 0x02800000#32)
  | .srl p_ t_ s_ d_ => some (place 28 p_ ||| place 18 t_ ||| place 13 s_ ||| place 8 d_ ||| 0x03000000#32)
  | .sra p_ t_ s_ d_ => some (place 28 p_ ||| place 18 t_ ||| place 13 s_ ||| place 8 d_ ||| 0x03800000#32)
  | .mul p_ t_ s_ d_ => some (place 28 p_ ||| place 18 t_ ||| place 13 s_ ||| place 8 d_ ||| 0x04000000#32)
  | .mulh p_ t_ s_ d_ => some (place 28 p_ ||| place 18 t_ ||| place 13 s_ ||| place 8 d_ ||| 0x04800000#32)
  | .mulhn p_ t_ s_ d_ => some (place 28 p_ ||| place 18 t_ ||| place 13 s_ ||| place 8 d_ ||| 0x05000000#32)
  | .div p_ t_ s_ d_ => some (place 28 p_ ||| place 18 t_ ||| place 13 s_ ||| place 8 d_ ||| 0x05800000#32)
  | .divn p_ t_ s_ d_ => some (place 28 p_ ||| place 18 t_ ||| place 13 s_ ||| place 8 d_ ||| 0x06000000#32)
  | .rem p_ t_ s_ d_ => some (place 28 p_ ||| place 18 t_ ||| place 13 s_ ||| place 8 d_ ||| 0x06800000#32)
  | .remn p_ t_ s_ d_ => some (place 28 p_ ||| place 18 t_ ||| place 13 s_ ||| place 8 d_ ||| 0x07000000#32)
  | .min p_ t_ s_ d_ => some (place 28 p_ ||| place 18 t_ ||| place 13 s_ ||| place 8 d_ ||| 0x07800000#32)
  | .max p_ t_ s_ d_ => some (place 28 p_ ||| place 18 t_ ||| place 13 s_ ||| place 8 d_ ||| 0x08000000#32)
  | .minn p_ t_ s_ d_ => some (place 28 p_ ||| place 18 t_ ||| place 13 s_ ||| place 8 d_ ||| 0x08800000#32)
  | .maxn p_ t_ s_ d_ => some (place 28 p_ ||| place 18 t_ ||| place 13 s_ ||| place 8 d_ ||| 0x09000000#32)
  | .addw p_ t_ s_ d_ => some (place 28 p_ ||| place 18 t_ ||| place 13 s_ ||| place 8 d_ ||| 0x09800000#32)
  | .subw p_ t_ s_ d_ => some (place 28 p_ ||| place 18 t_ ||| place 13 s_ ||| place 8 d_ ||| 0x0A000000#32)
  | .clz p_ s_ d_ => some (place 28 p_ ||| place 13 s_ ||| place 8 d_ ||| 0x0A800000#32)
  | .ctz p_ s_ d_ => some (place 28 p_ ||| place 13 s_ ||| place 8 d_ ||| 0x0B000000#32)
  | .popc p_ s_ d_ => some (place 28 p_ ||| place 13 s_ ||| place 8 d_ ||| 0x0B800000#32)
  | .andn p_ t_ s_ d_ => some (place 28 p_ ||| place 18 t_ ||| place 13 s_ ||| place 8 d_ ||| 0x0C000000#32)
  | .rol p_ t_ s_ d_ => some (place 28 p_ ||| place 18 t_ ||| place 13 s_ ||| place 8 d_ ||| 0x0C800000#32)
  | .ror p_ t_ s_ d_ => some (place 28 p_ ||| place 18 t_ ||| place 13 s_ ||| place 8 d_ ||| 0x0D000000#32)
  | .addi p_ i_ s_ d_ => some (place 28 p_ ||| place 18 i_ ||| place 13 s_ ||| place 8 d_ ||| 0x00000004#32)
  | .andi p_ i_ s_ d_ => some (place 28 p_ ||| place 18 i_ ||| place 13 s_ ||| place 8 d_ ||| 0x00000008#32)
  | .ori p_ i_ s_ d_ => some (place 28 p_ ||| place 18 i_ ||| place 13 s_ ||| place 8 d_ ||| 0x0000000C#32)
  | .xori p_ i_ s_ d_ => some (place 28 p_ ||| place 18 i_ ||| place 13 s_ ||| place 8 d_ ||| 0x00000010#32)
  | .slli p_ h_ s_ d_ => some (place 28 p_ ||| place 18 h_ ||| place 13 s_ ||| place 8 d_ ||| 0x00000014#32)
  | .srli p_ h_ s_ d_ => some (place 28 p_ ||| place 18 h_ ||| place 13 s_ ||| place 8 d_ ||| 0x01000014#32)
  | .srai p_ h_ s_ d_ => some (place 28 p_ ||| place 18 h_ ||| place 13 s_ ||| place 8 d_ ||| 0x02000014#32)
  | .lui i_ d_ => some (place 13 i_ ||| place 8 d_ ||| 0x00000018#32)
  | .addpc i_ d_ => some (place 13 i_ ||| place 8 d_ ||| 0x0000001C#32)
  | .cmp p_ t_ s_ c_ e_ => some (place 28 p_ ||| place 20 t_ ||| place 15 s_ ||| place 12 c_ ||| place 8 e_ ||| 0x00000020#32)
  | .cmpAnd p_ t_ s_ c_ e_ => some (place 28 p_ ||| place 20 t_ ||| place 15 s_ ||| place 12 c_ ||| place 8 e_ ||| 0x02000020#32)
  | .cmpOr p_ t_ s_ c_ e_ => some (place 28 p_ ||| place 20 t_ ||| place 15 s_ ||| place 12 c_ ||| place 8 e_ ||| 0x04000020#32)
  | .cmpi p_ i_ s_ c_ e_ => some (place 28 p_ ||| place 20 i_ ||| place 15 s_ ||| place 12 c_ ||| place 8 e_ ||| 0x00000024#32)
  | .pand p_ b_ a_ e_ => some (place 28 p_ ||| place 16 b_ ||| place 12 a_ ||| place 8 e_ ||| 0x00000028#32)
  | .por p_ b_ a_ e_ => some (place 28 p_ ||| place 16 b_ ||| place 12 a_ ||| place 8 e_ ||| 0x00200028#32)
  | .pxor p_ b_ a_ e_ => some (place 28 p_ ||| place 16 b_ ||| place 12 a_ ||| place 8 e_ ||| 0x00400028#32)
  | .pandn p_ b_ a_ e_ => some (place 28 p_ ||| place 16 b_ ||| place 12 a_ ||| place 8 e_ ||| 0x00600028#32)
  | .pset p_ v_ e_ => some (place 28 p_ ||| place 12 v_ ||| place 8 e_ ||| 0x00800028#32)
  | .mfsr p_ r_ d_ => some (place 28 p_ ||| place 18 r_ ||| place 8 d_ ||| 0x0000002C#32)
  | .mtsr p_ r_ s_ => some (place 28 p_ ||| place 18 r_ ||| place 13 s_ ||| 0x0400002C#32)
  | .mtb p_ s_ b_ => some (place 28 p_ ||| place 13 s_ ||| place 8 b_ ||| 0x0800002C#32)
  | .ld p_ i_ z_ s_ d_ => some (place 28 p_ ||| place 21 i_ ||| place 18 z_ ||| place 13 s_ ||| place 8 d_ ||| 0x00000030#32)
  | .st p_ i_ z_ s_ d_ => some (place 28 p_ ||| place 21 i_ ||| place 18 z_ ||| place 13 s_ ||| place 8 d_ ||| 0x00000034#32)
  | .ldq p_ i_ z_ s_ q_ => some (place 28 p_ ||| place 21 i_ ||| place 18 z_ ||| place 13 s_ ||| place 8 q_ ||| 0x00000038#32)
  | .stq p_ i_ z_ s_ q_ => some (place 28 p_ ||| place 21 i_ ||| place 18 z_ ||| place 13 s_ ||| place 8 q_ ||| 0x0000003C#32)
  | .sbase p_ s_ n_ => some (place 28 p_ ||| place 13 s_ ||| place 8 n_ ||| 0x00000040#32)
  | .sdim p_ t_ s_ k_ n_ => some (place 28 p_ ||| place 18 t_ ||| place 13 s_ ||| place 11 k_ ||| place 8 n_ ||| 0x00800040#32)
  | .sunf p_ t_ s_ n_ => some (place 28 p_ ||| place 18 t_ ||| place 13 s_ ||| place 8 n_ ||| 0x01000040#32)
  | .spage p_ s_ n_ => some (place 28 p_ ||| place 13 s_ ||| place 8 n_ ||| 0x01800040#32)
  | .sgo p_ z_ n_ q_ => some (place 28 p_ ||| place 18 z_ ||| place 13 n_ ||| place 8 q_ ||| 0x00000044#32)
  | .gathW p_ j_ s_ q_ => some (place 28 p_ ||| place 18 j_ ||| place 13 s_ ||| place 8 q_ ||| 0x00000048#32)
  | .gathD p_ j_ s_ q_ => some (place 28 p_ ||| place 18 j_ ||| place 13 s_ ||| place 8 q_ ||| 0x00800048#32)
  | .gathG p_ j_ s_ q_ => some (place 28 p_ ||| place 18 j_ ||| place 13 s_ ||| place 8 q_ ||| 0x01000048#32)
  | .scatW p_ j_ s_ q_ => some (place 28 p_ ||| place 18 j_ ||| place 13 s_ ||| place 8 q_ ||| 0x0000004C#32)
  | .scatD p_ j_ s_ q_ => some (place 28 p_ ||| place 18 j_ ||| place 13 s_ ||| place 8 q_ ||| 0x0080004C#32)
  | .scatG p_ j_ s_ q_ => some (place 28 p_ ||| place 18 j_ ||| place 13 s_ ||| place 8 q_ ||| 0x0100004C#32)
  | .scatAddW p_ j_ s_ q_ => some (place 28 p_ ||| place 18 j_ ||| place 13 s_ ||| place 8 q_ ||| 0x0400004C#32)
  | .scatAddD p_ j_ s_ q_ => some (place 28 p_ ||| place 18 j_ ||| place 13 s_ ||| place 8 q_ ||| 0x0480004C#32)
  | .scatAddF p_ j_ s_ q_ => some (place 28 p_ ||| place 18 j_ ||| place 13 s_ ||| place 8 q_ ||| 0x0500004C#32)
  | .atomAdd p_ z_ t_ s_ d_ => some (place 28 p_ ||| place 27 z_ ||| place 18 t_ ||| place 13 s_ ||| place 8 d_ ||| 0x00000050#32)
  | .atomAnd p_ z_ t_ s_ d_ => some (place 28 p_ ||| place 27 z_ ||| place 18 t_ ||| place 13 s_ ||| place 8 d_ ||| 0x00800050#32)
  | .atomOr p_ z_ t_ s_ d_ => some (place 28 p_ ||| place 27 z_ ||| place 18 t_ ||| place 13 s_ ||| place 8 d_ ||| 0x01000050#32)
  | .atomXor p_ z_ t_ s_ d_ => some (place 28 p_ ||| place 27 z_ ||| place 18 t_ ||| place 13 s_ ||| place 8 d_ ||| 0x01800050#32)
  | .atomMin p_ z_ t_ s_ d_ => some (place 28 p_ ||| place 27 z_ ||| place 18 t_ ||| place 13 s_ ||| place 8 d_ ||| 0x02000050#32)
  | .atomMax p_ z_ t_ s_ d_ => some (place 28 p_ ||| place 27 z_ ||| place 18 t_ ||| place 13 s_ ||| place 8 d_ ||| 0x02800050#32)
  | .atomMinn p_ z_ t_ s_ d_ => some (place 28 p_ ||| place 27 z_ ||| place 18 t_ ||| place 13 s_ ||| place 8 d_ ||| 0x03000050#32)
  | .atomMaxn p_ z_ t_ s_ d_ => some (place 28 p_ ||| place 27 z_ ||| place 18 t_ ||| place 13 s_ ||| place 8 d_ ||| 0x03800050#32)
  | .atomSwap p_ z_ t_ s_ d_ => some (place 28 p_ ||| place 27 z_ ||| place 18 t_ ||| place 13 s_ ||| place 8 d_ ||| 0x04000050#32)
  | .atomCas p_ z_ t_ s_ d_ => some (place 28 p_ ||| place 27 z_ ||| place 18 t_ ||| place 13 s_ ||| place 8 d_ ||| 0x04800050#32)
  | .atomFadd p_ t_ s_ d_ => some (place 28 p_ ||| place 18 t_ ||| place 13 s_ ||| place 8 d_ ||| 0x05000050#32)
  | .kld p_ s_ k_ => some (place 28 p_ ||| place 12 s_ ||| place 8 k_ ||| 0x00000054#32)
  | .kst p_ s_ k_ => some (place 28 p_ ||| place 12 s_ ||| place 8 k_ ||| 0x00400054#32)
  | .kbnd p_ d_ s_ k_ => some (place 28 p_ ||| place 17 d_ ||| place 12 s_ ||| place 8 k_ ||| 0x00800054#32)
  | .krgt p_ s_ k_ => some (place 28 p_ ||| place 12 s_ ||| place 8 k_ ||| 0x00C00054#32)
  | .kinf p_ d_ s_ k_ => some (place 28 p_ ||| place 17 d_ ||| place 12 s_ ||| place 8 k_ ||| 0x01000054#32)
  | .kmov p_ j_ k_ => some (place 28 p_ ||| place 17 j_ ||| place 8 k_ ||| 0x01400054#32)
  | .pld p_ z_ q_ s_ k_ => some (place 28 p_ ||| place 22 z_ ||| place 17 q_ ||| place 12 s_ ||| place 8 k_ ||| 0x00000058#32)
  | .pst p_ z_ q_ s_ k_ => some (place 28 p_ ||| place 22 z_ ||| place 17 q_ ||| place 12 s_ ||| place 8 k_ ||| 0x0000005C#32)
  | .patAdd p_ c_ z_ d_ s_ k_ => some (place 28 p_ ||| place 27 c_ ||| place 26 z_ ||| place 17 d_ ||| place 12 s_ ||| place 8 k_ ||| 0x00000060#32)
  | .patAnd p_ c_ z_ d_ s_ k_ => some (place 28 p_ ||| place 27 c_ ||| place 26 z_ ||| place 17 d_ ||| place 12 s_ ||| place 8 k_ ||| 0x00400060#32)
  | .patOr p_ c_ z_ d_ s_ k_ => some (place 28 p_ ||| place 27 c_ ||| place 26 z_ ||| place 17 d_ ||| place 12 s_ ||| place 8 k_ ||| 0x00800060#32)
  | .patXor p_ c_ z_ d_ s_ k_ => some (place 28 p_ ||| place 27 c_ ||| place 26 z_ ||| place 17 d_ ||| place 12 s_ ||| place 8 k_ ||| 0x00C00060#32)
  | .patMin p_ c_ z_ d_ s_ k_ => some (place 28 p_ ||| place 27 c_ ||| place 26 z_ ||| place 17 d_ ||| place 12 s_ ||| place 8 k_ ||| 0x01000060#32)
  | .patMax p_ c_ z_ d_ s_ k_ => some (place 28 p_ ||| place 27 c_ ||| place 26 z_ ||| place 17 d_ ||| place 12 s_ ||| place 8 k_ ||| 0x01400060#32)
  | .patMinn p_ c_ z_ d_ s_ k_ => some (place 28 p_ ||| place 27 c_ ||| place 26 z_ ||| place 17 d_ ||| place 12 s_ ||| place 8 k_ ||| 0x01800060#32)
  | .patMaxn p_ c_ z_ d_ s_ k_ => some (place 28 p_ ||| place 27 c_ ||| place 26 z_ ||| place 17 d_ ||| place 12 s_ ||| place 8 k_ ||| 0x01C00060#32)
  | .patSwap p_ c_ z_ d_ s_ k_ => some (place 28 p_ ||| place 27 c_ ||| place 26 z_ ||| place 17 d_ ||| place 12 s_ ||| place 8 k_ ||| 0x02000060#32)
  | .patCas p_ c_ z_ d_ s_ k_ => some (place 28 p_ ||| place 27 c_ ||| place 26 z_ ||| place 17 d_ ||| place 12 s_ ||| place 8 k_ ||| 0x02400060#32)
  | .patFadd p_ c_ d_ s_ k_ => some (place 28 p_ ||| place 27 c_ ||| place 17 d_ ||| place 12 s_ ||| place 8 k_ ||| 0x02800060#32)
  | .ppush p_ d_ k_ => some (place 28 p_ ||| place 17 d_ ||| place 8 k_ ||| 0x00000064#32)
  | .ppop p_ d_ k_ => some (place 28 p_ ||| place 17 d_ ||| place 8 k_ ||| 0x00400064#32)
  | .pgive p_ d_ k_ => some (place 28 p_ ||| place 17 d_ ||| place 8 k_ ||| 0x00800064#32)
  | .ptake p_ d_ k_ => some (place 28 p_ ||| place 17 d_ ||| place 8 k_ ||| 0x00C00064#32)
  | .pour p_ t_ s_ => some (place 28 p_ ||| place 18 t_ ||| place 13 s_ ||| 0x00000068#32)
  | .hpour p_ t_ s_ => some (place 28 p_ ||| place 18 t_ ||| place 13 s_ ||| 0x01000068#32)
  | .ctwany p_ s_ d_ => some (place 28 p_ ||| place 13 s_ ||| place 8 d_ ||| 0x0000006C#32)
  | .ctwall p_ s_ => some (place 28 p_ ||| place 13 s_ ||| 0x0080006C#32)
  | .ctffr p_ s_ d_ => some (place 28 p_ ||| place 13 s_ ||| place 8 d_ ||| 0x0100006C#32)
  | .ctstat p_ s_ d_ => some (place 28 p_ ||| place 13 s_ ||| place 8 d_ ||| 0x0180006C#32)
  | .ctclr p_ s_ => some (place 28 p_ ||| place 13 s_ ||| 0x0200006C#32)
  | .rclaim p_ t_ s_ d_ => some (place 28 p_ ||| place 18 t_ ||| place 13 s_ ||| place 8 d_ ||| 0x00000070#32)
  | .rpubl p_ t_ s_ d_ => some (place 28 p_ ||| place 18 t_ ||| place 13 s_ ||| place 8 d_ ||| 0x00800070#32)
  | .rwaitf p_ t_ s_ d_ => some (place 28 p_ ||| place 18 t_ ||| place 13 s_ ||| place 8 d_ ||| 0x01000070#32)
  | .rwaite p_ t_ s_ d_ => some (place 28 p_ ||| place 18 t_ ||| place 13 s_ ||| place 8 d_ ||| 0x01800070#32)
  | .rfree p_ t_ s_ d_ => some (place 28 p_ ||| place 18 t_ ||| place 13 s_ ||| place 8 d_ ||| 0x02000070#32)
  | .rpeek p_ s_ d_ => some (place 28 p_ ||| place 13 s_ ||| place 8 d_ ||| 0x02800070#32)
  | .fenceRel p_ c_ => some (place 28 p_ ||| place 25 c_ ||| 0x00000074#32)
  | .fenceAcq p_ c_ => some (place 28 p_ ||| place 25 c_ ||| 0x00800074#32)
  | .fenceSc p_ c_ => some (place 28 p_ ||| place 25 c_ ||| 0x01000074#32)
  | .wlacq p_ d_ k_ => some (place 28 p_ ||| place 17 d_ ||| place 8 k_ ||| 0x00000078#32)
  | .wlrenew p_ s_ k_ => some (place 28 p_ ||| place 12 s_ ||| place 8 k_ ||| 0x00400078#32)
  | .wlrel p_ s_ k_ => some (place 28 p_ ||| place 12 s_ ||| place 8 k_ ||| 0x00800078#32)
  | .wlchk p_ d_ s_ k_ => some (place 28 p_ ||| place 17 d_ ||| place 12 s_ ||| place 8 k_ ||| 0x00C00078#32)
  | .trap p_ n_ => some (place 28 p_ ||| place 18 n_ ||| 0x0000007C#32)
  | .eret p_ => some (place 28 p_ ||| 0x0080007C#32)
  | .heatq p_ d_ => some (place 28 p_ ||| place 8 d_ ||| 0x0100007C#32)
  | .brk p_ => some (place 28 p_ ||| 0x0180007C#32)
  | .wfe p_ => some (place 28 p_ ||| 0x0200007C#32)
  | .tlaunch p_ s_ d_ => some (place 28 p_ ||| place 13 s_ ||| place 8 d_ ||| 0x00000080#32)
  | .tdep p_ t_ s_ => some (place 28 p_ ||| place 18 t_ ||| place 13 s_ ||| 0x00800080#32)
  | .tqry p_ s_ d_ => some (place 28 p_ ||| place 13 s_ ||| place 8 d_ ||| 0x01000080#32)
  | .tkill p_ s_ => some (place 28 p_ ||| place 13 s_ ||| 0x01800080#32)
  | .valloc p_ t_ s_ d_ => some (place 28 p_ ||| place 18 t_ ||| place 13 s_ ||| place 8 d_ ||| 0x00000084#32)
  | .vfree p_ s_ => some (place 28 p_ ||| place 13 s_ ||| 0x00800084#32)
  | .tlbinv p_ s_ => some (place 28 p_ ||| place 13 s_ ||| 0x00000088#32)
  | .pgprobe p_ s_ d_ => some (place 28 p_ ||| place 13 s_ ||| place 8 d_ ||| 0x00800088#32)
  | .schpub p_ s_ => some (place 28 p_ ||| place 13 s_ ||| 0x0000008C#32)
  | .schadv p_ s_ => some (place 28 p_ ||| place 13 s_ ||| 0x0080008C#32)
  | .qpop p_ q_ d_ => some (place 28 p_ ||| place 13 q_ ||| place 8 d_ ||| 0x00000090#32)
  | .qpush p_ s_ q_ => some (place 28 p_ ||| place 13 s_ ||| place 8 q_ ||| 0x00800090#32)
  | .sel p_ n_ e_ t_ s_ d_ => some (place 28 p_ ||| place 27 n_ ||| place 23 e_ ||| place 18 t_ ||| place 13 s_ ||| place 8 d_ ||| 0x00000094#32)
  | .ltrip p_ s_ l_ => some (place 28 p_ ||| place 13 s_ ||| place 8 l_ ||| 0x00000098#32)
  | .nop => some (0x00000003#32)
  | .ptb i_ b_ => some (place 11 i_ ||| place 8 b_ ||| 0x00000007#32)
  | .br h_ n_ e_ b_ => some (place 16 h_ ||| place 15 n_ ||| place 11 e_ ||| place 8 b_ ||| 0x0000000B#32)
  | .call b_ => some (place 8 b_ ||| 0x0000000F#32)
  | .ret => some (0x00000013#32)
  | .loop l_ v_ => some (place 11 l_ ||| place 8 v_ ||| 0x00000017#32)
  | .lbrk => some (0x0000001B#32)
  | .endWord => some (0x0000001F#32)
  | .barArrive a_ n_ => some (place 18 a_ ||| place 8 n_ ||| 0x00000023#32)
  | .barWait a_ n_ => some (place 18 a_ ||| place 8 n_ ||| 0x00008023#32)
  | .barSync a_ n_ => some (place 18 a_ ||| place 8 n_ ||| 0x00010023#32)
  | .beat => some (0x00000027#32)
  | .yield => some (0x0000002B#32)
  | .halt => some (0x0000002F#32)
  | _ => none

/-- The three parcels of a V word (R45). -/
def encodeV (op8 : Nat) (f : VFields) : List Parcel :=
  [ place 28 f.pg ||| place 24 f.aux ||| place 20 f.stall ||| place 17 f.rnd ||| place 14 f.ty ||| place 13 f.minv
      ||| place 10 f.mask ||| place 2 (BitVec.ofNat 8 op8) ||| 1#32,
    place 20 (f.S1.extractLsb' 0 12) ||| place 0 f.D,
    place 8 f.S2 ||| place 0 (f.S1.extractLsb' 12 8) ]

/-- The six parcels of an M word (R52, R53). -/
def encodeM (op6 : Nat) (f : MFields) : List Parcel :=
  [ place 28 f.pg ||| place 22 f.fmtl ||| place 18 f.stall ||| place 14 f.bq ||| place 10 f.aq ||| place 8 f.acc
      ||| place 2 (BitVec.ofNat 6 op6) ||| 2#32,
    place 14 f.cols ||| place 10 f.fmtb ||| place 8 f.amode ||| place 5 f.plane ||| place 0 f.rowsm1,
    place 0 f.sa, place 0 f.sb,
    place 0 f.dq ||| place 4 f.dtype ||| place 7 f.curve ||| place 10 f.drnd ||| place 13 f.zero, 0#32 ]

/-- The words of an instruction, as parcels; none for a step of the device, which has no encoding. -/
def encode (i : Instr) : Option (List Parcel) :=
  match encodeParcel i, i.vShape, i.mShape with
  | some p, _, _ => some [p]
  | none, some (h, f), _ => some (encodeV h.op8 f)
  | none, none, some (o, f) => some (encodeM o f)
  | none, none, none => none

/-- The parcel of bits [32k + 31 : 32k] of a table word. -/
def tableParcel (w k : Nat) : Parcel := BitVec.ofNat 32 (w >>> (32 * k))

/-- The instruction the decoder reads from a word numbered as the opcode table numbers bits (bit 0 the least significant of
the first parcel); bits from `nbits` up are zero. The six parcels are laid out as bytes, little-endian, lowest first (R37). -/
def tableBytes (nbits w : Nat) : List Byte :=
  let v := w % 2 ^ nbits
  (List.range 6).flatMap (fun k => bytesOfParcel (tableParcel v k))

/-- What the decoder gives for a table word. -/
def decodeTableWord (nbits w : Nat) : Option Instr :=
  match decode (tableBytes nbits w) with
  | .ok (i, _) => some i
  | .error _ => none

end Sys2Proof
end

