-- ==== Sys2Proof/Machine/State.lean ====
section
/-! DEFINITION. The state of the whole domain as plain data, and the state right after reset. Sparse maps are keyed by
numbers: cell c of die d of package p is 144 (8 p + d) + c, die d of package p is 8 p + d; a key that is absent stands for
the unit's reset value. -/
namespace Sys2Proof.Machine
open Sys2Proof

/-! Registers of a cell. -/

/-- A heat-tagged register: its value is seen only under its own heat (R80). Cold is heat 0. -/
structure Tagged (α : Type) where
  heat : Heat
  val  : α
deriving DecidableEq, Repr

/-- A loop under way in one engine (R178). -/
structure ActiveLoop where
  start : Word
  stop  : Word
  level : Nat
  depth : Nat
  trip  : Nat
deriving DecidableEq, Repr

/-- Where an engine stands beside its pc: running, parked at `yield` or `halt`, or at `end` (R24, R186, R187). -/
inductive Park where
  | none | yield | halt | atEnd
deriving DecidableEq, Repr

/-- What an engine waits for: nothing; an internal wait of R28; an external one; one that is idle in a persistent strand
(R253); blocks of the buffer pool (R211, internal); or an entry of a queue that is empty (R28, R234: external while a load
fills the queue's head). -/
inductive WaitKind where
  | none | internal | external | idle | draw | empty (filling : Bool)
deriving DecidableEq, Repr

/-- One engine (R22 to R27, R177 to R180): program counter, control sequence number, the cycle before which it issues
nothing (R51), return stack, level counters, active loops, expectation counts of the shared registers (R27), its copies of
b0-b7 (R79), and how often it has passed each barrier's arrive word (R184). -/
structure EngineState where
  pc      : Word
  csn     : BitVec 32
  nextIssue : Nat
  rets    : List Word
  lcnt    : SMap (BitVec 16)
  loops   : List ActiveLoop
  park    : Park
  wait    : WaitKind
  expect  : SMap Nat
  bregs   : SMap (Tagged Word)
  arrives : SMap Nat
  inBar   : Option Nat
  commons : Nat
deriving DecidableEq, Repr

/-- Stream state (R218 Table 4); the page registers are the raw 32-bit fields, bit 31 valid. -/
structure Stream where
  base  : Word
  str   : List (BitVec 32)
  cnt   : List (BitVec 16)
  pos   : List (BitVec 16)
  done  : Bool
  mode  : BitVec 32
  geom  : BitVec 64
  dist  : BitVec 16
  curpg : BitVec 32
  curva : Word
  nextpg : BitVec 32
  nextva : Word
deriving DecidableEq, Repr

/-- An accumulator tile (R157): I and F by row, absent rows zero; the counters. -/
structure Tile where
  irows   : SMap (List (BitVec 48))
  frows   : SMap (List (BitVec 32))
  steps   : Nat
  horners : Nat
deriving DecidableEq, Repr

/-- The stationary B buffer (R157): 64 rows of 128 two-bit trits, absent rows zero, and the plane tag. -/
structure BBuf where
  rows  : SMap (BitVec 256)
  plane : Nat
deriving DecidableEq, Repr

/-- A valid curve (R130): sixteen segments of breakpoint, slope and offset. -/
structure Curve where
  bp : List (BitVec 32)
  k  : List (BitVec 32)
  o  : List (BitVec 32)
deriving DecidableEq, Repr

/-- An entry of a data queue (R209): its number, size in bytes, the heat of its blocks (R210), its bytes, the blocks still
to fill, whether it is complete, and whether a memory access fills it. -/
structure QEntry where
  id      : Nat
  size    : Nat
  heat    : Heat
  bytes   : List Byte
  missing : List Nat
  fills   : Bool
deriving DecidableEq, Repr

/-- What lands at the end of a V or M word (R139, R161) or of a division (R85), what an `mtsr` makes of a control register
in the next cycle (R102) with its number among the words that write ENGCTL (R86), or what is read by an M word after its
issue. -/
inductive LandKind where
  | vreg (r : Nat) (lanes : BitVec 128) (vals : List Lane)
  | mreg (r : Nat) (lanes vals : BitVec 128)
  | pred (r : Nat) (val : Option Bool)
  | push (q id : Nat) (bytes : List Byte)
  | ast  (bits : BitVec 12)
  | areg (r : Nat) (val : Word) (bits : BitVec 12)
  | ctrl (sr : Nat) (val : Word) (n : Nat)
  | bbuf (cols : BitVec 128) (rows : List (BitVec 256)) (plane : Nat)
  | counters (acc : Nat) (steps horners : Nat)
  | irow (acc row : Nat) (cols : BitVec 128) (vals : List (BitVec 48))
  | frow (acc row : Nat) (cols : BitVec 128) (vals : List (BitVec 32))
  | stepRead (acc row : Nat) (mode : BitVec 2) (cols : BitVec 128) (sums : List Int)
  | drainRead (acc row : Nat) (fromI : Bool) (cols : BitVec 128) (q id : Nat) (dtype curve rnd : Nat) (zero : Bool)
      (epoch : Nat) (seed : BitVec 32) (flagsAt : Nat)
  | zeroTile (acc : Nat) (cols : BitVec 128) (reset : Bool)
deriving DecidableEq, Repr

/-- A pending landing: its cycle, its place in issue order, and what it does. -/
structure Landing where
  due  : Nat
  seq  : Nat
  what : LandKind
deriving DecidableEq, Repr

/-! Memory operations in flight. -/

/-- An atomic function of R286 Table 3. -/
inductive RmwOp where
  | add | and | or | xor | min | max | minn | maxn | swap | cas | fadd
deriving DecidableEq, Repr

/-- What an operation in flight does when it is performed at its home, and where its result goes. -/
inductive OpKind where
  | load  (reg : BitVec 5) (z : BitVec 3)
  | kload (k : BitVec 4)
  | fill  (entry blk off len : Nat)
  | store (data : List Byte) (elem : Nat)
  | rmw   (op : RmwOp) (reg : BitVec 5) (data expected : Word)
  | scatAdd (op : RmwOp) (data : Word) (elem : Nat)
  | pool
  | copyRead
deriving DecidableEq, Repr

/-- Where an access that its own die has accepted at issue is performed: the physical address, and for a vault granule the
region's heat (R261, R262, R268). -/
structure Site where
  phys : Nat
  heat : Option Heat
deriving DecidableEq, Repr

/-- How an element of a gather or scatter stands to the bounds of R227: no bound of its own; the home judges the element's
address by the region that holds the base, with PERM or AST.oob as ENGCTL.oobtrap said at issue; or judged out of bounds at
issue. -/
inductive Bound where
  | none
  | region (base elem : Word) (trap : Bool)
  | out
deriving DecidableEq, Repr

/-- Where an access to another die is (R327): on its way out, up to its package's bridge; on its plane; past the port of its home's
package; with its response on the home's way back to a bridge; and past its own package's port with it. -/
inductive Leg where
  | out | plane | crossed | back | returned
deriving DecidableEq, Repr

/-- The response of a home on another die, with the time it carries (R319): data, the old value of an atomic, the acknowledgement of
a write, a refusal, or the word that an element lay out of bounds (R227). -/
inductive Reply where
  | data (bytes : List Byte) (time : Nat)
  | old (val time : Nat)
  | done (time : Nat)
  | refused (code : FaultCode) (val : Word)
  | outside
deriving DecidableEq, Repr

/-- An operation of a cell's A engine that has left the cell: its number (in program order), kind, virtual address, length,
the word that issued it, the pts it carries (R319), its site once its home has accepted it, whether its home has performed it,
whether it is a reissue (R206), the bound it has to meet, the topology version it carries and how often it has been refused for it
(R337), the cycle in which its home referred a miss to its command cell (R275), where it is on its way, its response, and whether it
is a write that was outstanding when its home was severed (R339). -/
structure MemOp where
  id     : Nat
  word   : Nat
  kind   : OpKind
  addr   : Word
  len    : Nat
  wtime  : Nat
  site   : Option Site
  performed : Bool
  reissue : Bool
  bound : Bound
  version : BitVec 4
  tries  : Nat
  missed : Option Nat
  leg    : Leg
  reply  : Option Reply
  dead   : Bool
deriving DecidableEq, Repr

/-- A deferred fault that a home has reported (R197). -/
structure Report where
  code : FaultCode
  val  : Word
deriving DecidableEq, Repr

/-- A fault record (R255 Table 8), with the number of the fault it records (0 where it is no strand's). -/
structure FaultRecord where
  cause  : BitVec 15
  value  : Word
  task   : Word
  strand : Word
  heat   : Heat
  world  : BitVec 16
  time   : Nat
  offset : Word
  fault  : Nat
deriving DecidableEq, Repr

/-- A held XLATE (R198): the address, the address of its word, the number of the word whose operations resume, the number of the
fault, and what the word took at its issue: the entries it popped and the stream it moved. -/
structure Held where
  addr : Word
  pc   : Word
  word : Nat
  fault : Nat
  popped : List (Nat × QEntry)
  stream : Option (Nat × Stream)
deriving DecidableEq, Repr

/-- A fault that waits for room for its record (R255): the record as the fault made it, the held XLATE it leaves, if it is one, and
whether the task fails with it (R312). -/
structure Stuck where
  record : FaultRecord
  held   : Option Held
  fails  : Bool
deriving DecidableEq, Repr

/-- A TLB entry (R358): virtual page offset, page size code, frame in 64 KiB units, permissions rd, wr, at. -/
structure TlbEntry where
  page  : Nat
  size  : Nat
  frame : Nat
  perm  : BitVec 3
deriving DecidableEq, Repr

/-- A copy tag (R367): pending with its status so far, or ready since a cycle; absent tags are idle. -/
structure CopyTag where
  ready  : Bool
  status : BitVec 64
  scope  : Nat
  time   : Nat
  since  : Nat
deriving DecidableEq, Repr

/-- The state of a cell (R198 to R201, R247). -/
inductive CellStatus where
  | idle | starting | running | halting | held | stopped | stowing
deriving DecidableEq, Repr

/-- A barrier wait in progress (R184): the barrier, the token, whether the word is `bar.sync`, its register. -/
structure BarWait where
  name  : Nat
  token : Option Nat
  sync  : Bool
  done  : Option Nat
deriving DecidableEq, Repr

/-- A grant of a ring that the waiting word has not taken yet (R378): register and sequence number. -/
structure Grant where
  reg : Nat
  val : Word
deriving DecidableEq, Repr

/-- The saved engines of a command cell (R191), with what their words had under way: the number below which the cell's
operations and landings are theirs, a barrier wait, the arrivals counted, a ring grant, the values of ENGCTL that V and M have
still to see, and a held XLATE with the elements that have not been performed. -/
structure Saved where
  A : EngineState
  V : EngineState
  M : EngineState
  versions : SMap Nat
  before  : Nat
  barWait : Option BarWait
  arrived : SMap Nat
  granted : Option Grant
  engPast : List (Nat × BitVec 3)
  fault   : Option Held
  ops     : List MemOp
deriving DecidableEq, Repr

/-- An arrival that the A engine has made and no record has counted yet (R372): barrier, register for its token, the number
below which the cell's operations are earlier, whether the word is `bar.sync`, and ENGCTL.sevtrap as the word saw it (R86). -/
structure TokenReg where
  name : Nat
  reg  : Nat
  mark : Nat
  sync : Bool
  sev  : Bool
deriving DecidableEq, Repr

/-- One cell (R10 to R12): everything a strand sees, and what the device keeps about it. -/
structure Cell where
  status  : CellStatus
  heat    : Heat
  A : EngineState
  V : EngineState
  M : EngineState
  aregs   : SMap (Tagged Word)
  pregs   : SMap (Tagged Bool)
  kregs   : SMap (Tagged Cap)
  sregs   : SMap (Tagged Stream)
  vregs   : SMap (Tagged (List Lane))
  mregs   : SMap (Tagged (BitVec 128))
  accs    : SMap (Tagged Tile)
  bbuf    : Tagged BBuf
  formats : SMap (BitVec 128)
  curves  : SMap Curve
  gens    : SMap (BitVec 32)
  epoch   : Nat
  versions : SMap Nat
  levelKinds : SMap (BitVec 2)
  trips   : SMap Nat
  kernel  : Word
  entry   : Word
  parcels : Nat
  persistent : Bool
  engctl  : BitVec 3
  engPast : List (Nat × BitVec 3)
  slip    : Nat
  dpoint  : Nat
  cpoint  : Nat
  faultc  : BitVec 11
  faultv  : Word
  vctl    : Word
  ast     : BitVec 12
  astSet  : BitVec 12
  astAt   : Nat
  pgahead : BitVec 16
  fmtbase : BitVec 4
  wdogLimit : Nat
  wdogCount : Nat
  beat    : Bool
  iret    : Nat
  qmin    : SMap Nat
  qcap    : SMap Nat
  queues  : SMap (List QEntry)
  tlb     : List TlbEntry
  tags    : SMap CopyTag
  latch   : Bool
  ops     : List MemOp
  pendA   : List Nat
  pendK   : List Nat
  pendP15 : Bool
  landings : List Landing
  lastLand : SMap Nat
  reports : List Report
  fault   : Option Held
  barWait : Option BarWait
  arrived : SMap Nat
  tokenRegs : List TokenReg
  internalFor : Nat
  arrayFree : Nat
  drainFree : Nat
  divFree : Nat
  icache  : SMap (List Byte)
  saved   : Option Saved
  inHandler : Bool
  dieStopped : Bool
  residue : List Heat
  handle  : Word
  cls     : Nat
  startAt : Nat
  dispatched : Nat
  resetAt : Nat
  acquire : List Nat
  joined  : Option Nat
  refer   : Option (Word × Nat)
  ringAt  : Option Nat
  granted : Option Grant
  preempt : Option StowCause
  stuck   : Option Stuck
  stopped : Nat
  lost    : List (Nat × Nat × Nat)
  seen    : Nat
  masks   : SMap Word
deriving DecidableEq, Repr

/-! A die. -/

/-- A region of a vault (R351 Table 7). -/
structure Region where
  base  : Nat
  size  : Nat
  heat  : Heat
  mode  : Bool
  span  : Nat
  rd    : Bool
  wr    : Bool
  atom  : Bool
  stow  : Bool
  sheld : Bool
  sindex : Nat
deriving DecidableEq, Repr

/-- A key-handle entry (R355 Table 10). -/
structure KeyEntry where
  fixed   : BitVec 32
  world   : BitVec 16
  armed   : Bool
  kind    : BitVec 2
  counter : BitVec 64
  key     : BitVec 256
deriving DecidableEq, Repr

/-- The states of a task (R19 Table 3), and a free record (R359). -/
inductive TaskState where
  | waiting | ready | running | complete | failed | killed | free
deriving DecidableEq, Repr

/-- A task record (R359 Table 12), with what the device keeps of the kernel it launches. -/
structure Task where
  state   : TaskState
  gen     : BitVec 24
  persist : Bool
  stowed  : Bool
  dcomp   : BitVec 8
  ddisp   : BitVec 8
  kernel  : Word
  control : Word
  qlim    : Word
  operands : List (BitVec 128)
  named   : Nat
  count   : Nat
  succs   : List Word
  request : BitVec 8
  final   : Nat
  heats   : SMap Heat
  levels  : List (BitVec 2 × Nat)
  kinds   : List (BitVec 64)
  header  : Word
  entry   : Word
  limits  : List (BitVec 32)
  world   : BitVec 16
  left    : SMap Nat
deriving DecidableEq, Repr

/-- A ready-pool entry (R246): a share of a task, or the restore of stowed strands. -/
structure ReadyEntry where
  handle  : Word
  cls     : Nat
  since   : Nat
  time    : Nat
  dpoint  : Nat
  strands : Nat
  restore : List Nat
deriving DecidableEq, Repr

/-- A stowed strand (R204): its slot, cause and state, its cell at the stow, CYCLE at the halt and its context. -/
structure Stowed where
  slot   : Nat
  cause  : StowCause
  held   : Bool
  done   : Bool
  strand : Word
  handle : Word
  cell   : Nat
  at_    : Nat
  ctx    : Cell
deriving DecidableEq, Repr

/-- A copy on a Ladle (R298 to R304, R391, R392): who its status goes to (a cell, or a stow slot's key), the cell that issued
it, its tag, its 64-byte block, capabilities, input bytes read towards the next output, output bytes ready to be written, the
input read and the output performed so far, its code, the largest time its pool responses carried, the CRC so far, whether the port
die has passed an `hpour`'s checks and whether its data are staged, the cycle in which a translation miss of its next granule was
referred to a command cell (R301), and the ring packets that carry the data of an `hpour` (R325, R327). -/
structure Copy where
  id      : Nat
  cell    : Nat
  home    : Nat
  tag     : Nat
  host    : Bool
  running : Bool
  words   : List Word
  src     : Cap
  dst     : Cap
  bytesIn : List Byte
  output  : List Byte
  readAt  : Nat
  doneBytes : Nat
  code    : Option FaultCode
  wtime   : Nat
  orphan  : Bool
  crc     : BitVec 32
  begun   : Bool
  staged  : Bool
  missed  : Option Nat
  packets : List Nat
deriving DecidableEq, Repr

/-- A barrier record at a Cleat (R370): completed phases, expected count, the participants counted in the phase. -/
structure Barrier where
  phase   : Nat
  expected : Nat
  counted : List Nat
  withdrawn : List Nat
deriving DecidableEq, Repr

/-- A waiter in a ring's FIFO (R378): its cell, the register its word writes and the slots it asks for. -/
structure RingWaiter where
  cell : Nat
  reg  : Nat
  n    : Nat
deriving DecidableEq, Repr

/-- Slots [first, first + n) that a strand, by its cell or stow slot's key, has claimed as producer or consumer (R193). -/
structure RingClaim where
  cell  : Nat
  prod  : Bool
  first : BitVec 32
  n     : Nat
deriving DecidableEq, Repr

/-- A ring record in a Cleat's sync store (R376). -/
structure Ring where
  base   : Word
  scope  : Nat
  lc     : Nat
  szm1   : Nat
  pclaim : BitVec 32
  ppub   : BitVec 32
  cclaim : BitVec 32
  cfree  : BitVec 32
  pubMarks  : List Nat
  freeMarks : List Nat
  producers : List RingWaiter
  consumers : List RingWaiter
  used   : Nat
  claims : List RingClaim
deriving DecidableEq, Repr

/-- A range of pool sectors that a bridge station still has to look at for a step of a schedule (R364): the capability and
the window offsets from the next sector to the end. -/
structure FillJob where
  bridge : Nat
  step   : Nat
  cap    : Cap
  next   : Nat
  stop   : Nat
deriving DecidableEq, Repr

/-- The published schedule (R362), with the steps that each bridge station (bridge, step) has entered, and queued fills. -/
structure Schedule where
  list : Word
  n    : Nat
  dist : Nat
  s    : Nat
  entered : List (Nat × Nat)
  queued : List FillJob
deriving DecidableEq, Repr

/-- TDISP state of a die's interface (R384, R390). -/
inductive TdiState where
  | configUnlocked | configLocked | run | error
deriving DecidableEq, Repr

/-- A TDISP transition that waits or is under way (R386, R387). -/
inductive TdiReq where
  | lock (stream : Nat) | start | stop | toError
deriving DecidableEq, Repr

/-- A reassignment under way (R386): the step reached, the new world and state, the IDE stream the TDI is bound to (R390), and whether
a response waits for its end (R387). -/
structure Reassign where
  step  : Nat
  world : BitVec 16
  tdi   : TdiState
  stream : Option Nat
  answer : Bool
deriving DecidableEq, Repr

/-- One compute die. `slotsWas` is the stow slot list before the stores of a cycle (R353). -/
structure Die where
  world   : BitVec 16
  tdi     : TdiState
  stream  : Option Nat
  reassign : Option Reassign
  waiting : List TdiReq
  heatCtr : Nat
  live    : List Heat
  retired : List (Nat × Nat)
  sweepPass : Nat
  sweepPos  : Nat
  regions : SMap Region
  local_  : Nat
  ptroot  : Nat
  rwin    : Nat
  bwin    : Nat
  pfdist  : Nat
  fqbase  : Word
  lrbase  : Word
  lrm     : Nat
  slots   : SMap Word
  slotsWas : Option (Nat × SMap Word)
  reserved : SMap Nat
  listen  : Word
  listenPending : Option Word
  keys    : SMap KeyEntry
  tasks   : SMap Task
  ready   : List ReadyEntry
  grants  : List ReadyEntry
  restoring : List ReadyEntry
  ages    : SMap Nat
  faultWait : List FaultRecord
  fqRecords : SMap FaultRecord
  quiet   : Nat
  quietReported : Bool
  copies  : List Copy
  turn    : SMap Nat
  schedule : Option Schedule
  barriers : SMap Barrier
  rings   : SMap Ring
  ringClaims : SMap (List RingClaim)
  routes  : SMap Word
  counters : SMap (BitVec 48)
  hmax    : SMap Nat
  stowed  : List Stowed
  handler : Word
  firmware : Word
  lastDoorbell : BitVec 3
deriving DecidableEq, Repr

/-! The pool and the fabric. -/

/-- A pool object at its node (R282, R283, R365). -/
structure PoolObj where
  kind    : Nat
  size    : Nat
  heat    : BitVec 24
  world   : BitVec 16
  guarded : Bool
  duration : Nat
  token   : BitVec 64
  holder  : Option Nat
  expiry  : Nat
  override : Option Nat
  esize   : Nat
  count   : Nat
  bytes   : Memory
  elems   : List (BitVec 64)
  wts     : SMap Nat
  rts     : SMap Nat
deriving DecidableEq, Repr

/-- What a pool request asks (R287 to R297, R278); a read names its entry, the first of its n blocks and the sectors that the pool
cache has supplied: the number from the first on, the data and their write time. -/
inductive PoolOp where
  | read   (entry blk n : Nat) (got : List (Nat × List Byte × Nat))
  | write  (data : List Byte)
  | copyRead (copy : Nat)
  | copyWrite (copy : Nat) (data : List Byte) (token : Option (BitVec 64))
  | fill
  | rmw    (op : RmwOp) (size : Nat) (data expected : Word) (reg : BitVec 5)
  | push   (data : Word)
  | pop    (reg : BitVec 5)
  | give   (n : BitVec 64)
  | take   (n got : BitVec 64) (reg : BitVec 5)
  | acquire (reg : BitVec 5)
  | renew  (t : BitVec 64)
  | release (t : BitVec 64)
  | check  (t : BitVec 64) (reg : BitVec 5)
  | field  (sel : Nat) (reg : BitVec 5)
deriving DecidableEq, Repr

/-- Where a request stands on its way (R327, R331): answered by its home, its answer past the package's port on the ring, or a stowed
strand's read that is parked until its reissue (R202). -/
inductive ReqStage where
  | atRing | heldRing | atBridge | heldBridge | atFront | heldFront | atNode | refusedStale | answered | returning | parked
deriving DecidableEq, Repr

/-- What a request's answer carries; of each sector read, its data and its lease (R278). -/
inductive ReqAnswer where
  | none
  | ok (val : Word) (empty : Bool) (time wts : Nat)
  | data (sectors : List (List Byte × Nat × Nat)) (time : Nat)
  | refused (code : FaultCode)
deriving DecidableEq, Repr

/-- A pool request under way: requesting cell, operation number at that cell, capability, object byte offset, version it
carries (R335), pts it carries, hold arrival and the end of its window (R331), reissues (R337), veto (R336). -/
structure PoolReq where
  id      : Nat
  cell    : Nat
  op      : PoolOp
  cap     : Cap
  off     : Nat
  inOff   : Nat
  world   : BitVec 16
  node    : Nat
  version : BitVec 4
  pts     : Nat
  stage   : ReqStage
  since   : Nat
  expiry  : Nat
  order   : Nat
  tries   : Nat
  answer  : ReqAnswer
  veto    : Bool
  discarded : Bool
deriving DecidableEq, Repr

/-- A sector of the pool cache (R277, R278), with the plane whose stack holds it. -/
structure Sector where
  data  : List Byte
  wts   : Nat
  rts   : Nat
  pending : Bool
  valid : Bool
  oid   : BitVec 32
  heat  : BitVec 24
  world : BitVec 16
  size  : Nat
  plane : Nat
deriving DecidableEq, Repr

/-- A link (R328, R335, R338, R381): the version in force and whether an announced one has reached it, its width code, the lanes
lost, the cycle its retraining pause ends, since when it is down, whether it replays, its filters in retune with the cycle they hear
again, and the frame counter expected in each direction. Only optical ports have a version, an announcement and filters. -/
structure Port where
  version : BitVec 4
  announced : Bool
  width   : Nat
  lanesLost : Nat
  pausedTill : Nat
  downSince : Option Nat
  replay  : Bool
  retune  : List (Nat × Nat)
  expects : SMap (BitVec 64)
deriving DecidableEq, Repr

/-- The topology of the domain as the topology table tells it (R356): the packages and nodes present and severed, and the port widths
of package p at p and of node n at 32 + n, two bits for each plane. -/
structure Topology where
  present : List Nat
  severed : List Nat
  nodesPresent : List Nat
  nodesSevered : List Nat
  widths  : SMap Nat
deriving DecidableEq, Repr

/-- A slot of the package ring (R325): its source and destination stations, its laps, whether a buffer is reserved for it, and
whether it has entered the ring. -/
structure RingSlot where
  id   : Nat
  src  : Nat
  dst  : Nat
  lap  : Nat
  reserved : Bool
  entered : Bool
deriving DecidableEq, Repr

/-- Bring-up of a package (R397, R398). -/
inductive Phase where
  | inReset | safeTalkative | released | ready
deriving DecidableEq, Repr

/-- What a mailbox of the management window or the DOE mailbox answered last (R389, R395). -/
inductive Answer where
  | none
  | bytes (b : List Byte)
  | value (v : BitVec 64)
  | measurements (m : List (BitVec 512))
  | tdispOk
  | invalidInterfaceState
  | unspecified
  | unsupported
deriving DecidableEq, Repr

/-- The SPDM session of a package's DOE mailbox: none, keys exchanged, or secured (R389). -/
inductive Session where
  | none | handshake | secure
deriving DecidableEq, Repr

/-- One package. -/
structure Package where
  phase   : Phase
  pts     : Nat
  sectors : SMap Sector
  version : BitVec 4
  announced : BitVec 4
  topo    : Topology
  ports   : SMap Port
  ringSlots : List RingSlot
  resv    : List (Nat × Nat)
  hostMem : Memory
  hostErr : List Nat
  logHead : BitVec 8
  logTail : BitVec 8
  logDropped : Nat
  log     : SMap FaultRecord
  serials : List Nat
  lastSerial : Nat
  meas    : List (BitVec 512)
  measLocked : Bool
  selfTest : List (BitVec 64)
  faulty  : Option Nat
  image   : Memory
  loadWin : Memory
  useLoad : Bool
  reloadRefused : Bool
  doe     : Answer
  debugger : Answer
  counterBox : Answer
  tdisp   : SMap Answer
  session : Session
  ideKeys : SMap (BitVec 256)
  lit     : Bool
  rekey   : List Nat
  reductions : SMap (SMap (List Byte))
  severSelf : Bool
  hostTime : Nat
deriving DecidableEq, Repr

/-- One pool node (R281): its objects, its failure counts, hmax, the version of its front end and its optical ports. -/
structure Node where
  objects : SMap PoolObj
  failures : SMap Nat
  hmax    : Nat
  version : BitVec 4
  announced : Bool
  heats   : SMap (BitVec 24)
  ports   : SMap Port
deriving DecidableEq, Repr

/-- A step of the device that the clock has found due: the row it stands for, by the unit it happens at. Cells, dies and
packages are named by their numbers. -/
inductive Due where
  | landing (c : Nat) | slipdead (c : Nat) | strandStart (c : Nat) | strandComplete (c : Nat) | halt (c : Nat)
  | stow (c : Nat) | watchdog (c : Nat) | retry (c : Nat) | report (c : Nat) | op (c id : Nat) | pageAhead (c n : Nat)
  | arrival (c bar : Nat)
  | dispatch (d : Nat) | ageing (d ix : Nat) | share (d : Nat) (task : Word) (dpoint : Nat) | successor (d : Nat) (task : Word)
  | restore (d ix : Nat) | deliver (d id : Nat) | quench (d : Nat) | passEnd (d : Nat) | quiescent (d : Nat) | recordFree (d rec : Nat)
  | copyStart (d cluster : Nat) | copyWrite (d id : Nat) | copyDone (d id : Nat) | hpourStart (d id : Nat)
  | hpourStaged (d id : Nat) | fill (d : Nat) | reassign (d : Nat)
  | pts (p : Nat) | request (id : Nat) | lease (n oid : Nat) | ringSlot (d slot : Nat) | adoptPort (p i : Nat) | adoptNode (n : Nat)
  | retune (p i f : Nat) | retrain (l : LinkRef)
  | pkgReset (p : Nat)
deriving DecidableEq, Repr

/-- Whose turn it is next: an engine of a cell, a step of the device, the host or the environment given as its row, or one
that the clock has found due. -/
inductive Turn where
  | engine (c : CellId) (e : Engine)
  | event (i : Instr)
  | due (u : Due)
deriving DecidableEq, Repr

/-- The whole machine. Of the topology `topo` is the domain as reconfiguration knows it, `told` that of the announced version, and
`again` says that a further change waits to be announced (R335). -/
structure State where
  cells   : SMap Cell
  dies    : SMap Die
  pkgs    : SMap Package
  nodes   : SMap Node
  mem     : Memory
  heats   : SMap Heat
  eccBad  : List Nat
  eccOne  : List Nat
  reqs    : List PoolReq
  domKey  : Option (BitVec 256)
  version : BitVec 4
  changing : Bool
  again   : Bool
  topo    : Topology
  told    : Topology
  scTime  : Nat
  cycle   : Nat
  turns   : List Turn
  focus   : CellId
  eng     : Engine
  nextId  : Nat
  free    : Nat
deriving DecidableEq, Repr

/-! Why a step can stop. Every exception and refusal the spec describes is a next state; these two types name what is left. -/

/-- Faults that stop the model. -/
inductive Fault where
  /-- Raised by nothing at present: the spec gives every fault of the machine an effect (R196 to R199), and the model takes
  it as a next state. Kept so that the type has a member; safe, since no run meets it. -/
  | unreachable
deriving DecidableEq, Repr

/-- Refusals of the model. -/
inductive Refusal where
  /-- The instruction named has no meaning yet. Raised by an arm of `exec`; safe. -/
  | notModelled (mnemonic : String)
deriving DecidableEq, Repr

/-! Reset values (INVENTORY.md, State). -/

/-- An engine at dispatch or cell reset (R22). -/
def EngineState.reset : EngineState where
  pc := 0
  csn := 0
  nextIssue := 0
  rets := []
  lcnt := []
  loops := []
  park := .none
  wait := .none
  expect := []
  bregs := []
  arrives := []
  inBar := none
  commons := 0

/-- A cold stream (R81). -/
def Stream.zero : Stream where
  base := 0
  str := []
  cnt := []
  pos := []
  done := false
  mode := 0
  geom := 0
  dist := 0
  curpg := 0
  curva := 0
  nextpg := 0
  nextva := 0

/-- A cold tile (R157). -/
def Tile.zero : Tile where
  irows := []
  frows := []
  steps := 0
  horners := 0

/-- A cold B buffer (R157). -/
def BBuf.zero : BBuf where
  rows := []
  plane := 0

/-- A cell at cell reset (R83, R397): every register cold, control registers at their reset values. -/
def Cell.reset : Cell where
  status := .idle
  heat := 0
  A := .reset
  V := .reset
  M := .reset
  aregs := []
  pregs := []
  kregs := []
  sregs := []
  vregs := []
  mregs := []
  accs := []
  bbuf := ⟨0, .zero⟩
  formats := []
  curves := []
  gens := []
  epoch := 0
  versions := []
  levelKinds := []
  trips := []
  kernel := 0
  entry := 0
  parcels := 0
  persistent := false
  engctl := 0
  engPast := []
  slip := 16
  dpoint := 0
  cpoint := 0
  faultc := 0
  faultv := 0
  vctl := 0x0000000100000001
  ast := 0
  astSet := 0
  astAt := 0
  pgahead := 64
  fmtbase := 0
  wdogLimit := 268435456
  wdogCount := 0
  beat := false
  iret := 0
  qmin := []
  qcap := []
  queues := []
  tlb := []
  tags := []
  latch := false
  ops := []
  pendA := []
  pendK := []
  pendP15 := false
  landings := []
  lastLand := []
  reports := []
  fault := none
  barWait := none
  arrived := []
  tokenRegs := []
  internalFor := 0
  arrayFree := 0
  drainFree := 0
  divFree := 0
  icache := []
  saved := none
  inHandler := false
  dieStopped := false
  residue := []
  handle := 0
  cls := 0
  startAt := 0
  dispatched := 0
  resetAt := 0
  acquire := []
  joined := none
  refer := none
  ringAt := none
  granted := none
  preempt := none
  stuck := none
  stopped := 0
  lost := []
  seen := 0
  masks := []

/-- An empty key-handle entry (R355). -/
def KeyEntry.reset : KeyEntry where
  fixed := 0
  world := 0
  armed := false
  kind := 0
  counter := 0
  key := 0

/-- A task record at reset: every field 0 (R359). -/
def Task.reset : Task where
  state := .waiting
  gen := 0
  persist := false
  stowed := false
  dcomp := 0
  ddisp := 0
  kernel := 0
  control := 0
  qlim := 0
  operands := []
  named := 0
  count := 0
  succs := []
  request := 0
  final := 0
  heats := []
  levels := []
  kinds := []
  header := 0
  entry := 0
  limits := []
  world := 0
  left := []

/-- The standard listen set of port i (R328, R354): filters 0 and 1 hear the plane's nodes, filters 2 to 5 the packages. -/
def standardListen (i : Nat) : Word :=
  BitVec.ofNat 64 ((0x80 + 32 + i) + (0x80 + 40 + i) * 256 + (0x80 + i) * 65536 + (0x80 + i + 8) * 16777216
    + (0x80 + i + 16) * 4294967296 + (0x80 + i + 24) * 1099511627776)

/-- Die number d at reset: world 0, every heat cold (R352, R384, R397). -/
def Die.reset (d : Nat) : Die where
  world := 0
  tdi := .configUnlocked
  stream := none
  reassign := none
  waiting := []
  heatCtr := 0
  live := []
  retired := []
  sweepPass := 0
  sweepPos := 1
  regions := []
  local_ := 48
  ptroot := 0
  rwin := 64
  bwin := 64
  pfdist := 2
  fqbase := 0
  lrbase := 0
  lrm := 4
  slots := []
  slotsWas := none
  reserved := []
  listen := standardListen (d % 8)
  listenPending := none
  keys := []
  tasks := []
  ready := []
  grants := []
  restoring := []
  ages := []
  faultWait := []
  fqRecords := []
  quiet := 0
  quietReported := false
  copies := []
  turn := []
  schedule := none
  barriers := []
  rings := []
  ringClaims := []
  routes := []
  counters := []
  hmax := []
  stowed := []
  handler := 0
  firmware := 0
  lastDoorbell := 0

/-- A port at reset: version 0, full width (R335, R338). -/
def Port.reset : Port where
  version := 0
  announced := false
  width := 0
  lanesLost := 0
  pausedTill := 0
  downSince := none
  replay := false
  retune := []
  expects := []

/-- The topology at reset: package 0 alone is present (DESIGN CHOICE, notes/assumptions/6.md). -/
def Topology.reset : Topology where
  present := [0]
  severed := []
  nodesPresent := []
  nodesSevered := []
  widths := []

/-- A package in reset (R397). -/
def Package.reset : Package where
  phase := .inReset
  pts := 0
  sectors := []
  version := 0
  announced := 0
  topo := .reset
  ports := []
  ringSlots := []
  resv := []
  hostMem := []
  hostErr := []
  logHead := 0
  logTail := 0
  logDropped := 0
  log := []
  serials := []
  lastSerial := 0
  meas := []
  measLocked := false
  selfTest := []
  faulty := none
  image := []
  loadWin := []
  useLoad := false
  reloadRefused := false
  doe := .none
  debugger := .none
  counterBox := .none
  tdisp := []
  session := .none
  ideKeys := []
  lit := false
  rekey := []
  reductions := []
  severSelf := false
  hostTime := 0

/-- A pool node with no object. -/
def Node.reset : Node where
  objects := []
  failures := []
  hmax := 0
  version := 0
  announced := false
  heats := []
  ports := []

/-- The machine right after reset: every package in reset (R397), nothing written anywhere. -/
def State.reset : State where
  cells := []
  dies := []
  pkgs := []
  nodes := []
  mem := []
  heats := []
  eccBad := []
  eccOne := []
  reqs := []
  domKey := none
  version := 0
  changing := false
  again := false
  topo := .reset
  told := .reset
  scTime := 0
  cycle := 0
  turns := []
  focus := ⟨0, 0, 0⟩
  eng := .A
  nextId := 1
  free := 0

end Sys2Proof.Machine
end

