-- ==== Sys2Proof/Machine/Float.lean ====
section
/-! DEFINITION. Number formats and rounding (R116 to R132): exact values as dyadic or rational numbers, Round, Saturate,
the floating-point operations, the estimates and the companding curves. -/
namespace Sys2Proof.Machine
open Sys2Proof

/-- An exact dyadic value m x 2^e. -/
structure Dyadic where
  m : Int
  e : Int
deriving DecidableEq, Repr

/-- Condition flags of one result, in the order of AST [7:3] (R85 Table 4): nv 1, dz 2, of 4, uf 8, nx 16. -/
abbrev Flags := BitVec 5

def fNV : Flags := 1
def fDZ : Flags := 2
def fOF : Flags := 4
def fUF : Flags := 8
def fNX : Flags := 16

/-- A rounded result: f32 pattern, flags, and whether it was inexact before rounding, so that a stochastic generator
steps (R127). -/
structure FRes where
  bits  : BitVec 32
  flags : Flags
  drew  : Bool
deriving DecidableEq, Repr

/-- The rounding modes (R126): 1 rne, 2 rtz, 3 rdn, 4 rup, 5 stochastic. -/
abbrev RMode := Nat

def canonicalNaN : BitVec 32 := 0x7FC00000

/-- What a binary32 pattern denotes (R117). -/
inductive FVal where
  | nan (signalling : Bool)
  | inf (neg : Bool)
  | fin (neg : Bool) (m : Nat) (e : Int)
deriving DecidableEq, Repr

/-- Read a binary32 pattern; subnormals are kept (R117). -/
def fval (x : BitVec 32) : FVal :=
  let ex := (x.extractLsb' 23 8).toNat
  let fr := (x.extractLsb' 0 23).toNat
  let s := x.getLsbD 31
  if ex = 255 then (if fr = 0 then .inf s else .nan (!x.getLsbD 22))
  else if ex = 0 then .fin s fr (-149)
  else .fin s (fr + 8388608) (ex - 150)

/-- The exact value of a finite pattern. -/
def FVal.dyadic : FVal → Dyadic
  | .fin s m e => ⟨if s then -(m : Int) else m, e⟩
  | _ => ⟨0, 0⟩

def FVal.isNaN : FVal → Bool
  | .nan _ => true
  | _ => false

def FVal.isSNaN : FVal → Bool
  | .nan s => s
  | _ => false

def FVal.isInf : FVal → Bool
  | .inf _ => true
  | _ => false

def FVal.isZero : FVal → Bool
  | .fin _ m _ => m == 0
  | _ => false

/-- Sign bit of a value that is not a NaN. -/
def FVal.neg : FVal → Bool
  | .inf s => s
  | .fin s _ _ => s
  | .nan _ => false

def Dyadic.add (a b : Dyadic) : Dyadic :=
  let e := min a.e b.e
  ⟨a.m * 2 ^ (a.e - e).toNat + b.m * 2 ^ (b.e - e).toNat, e⟩

def Dyadic.mul (a b : Dyadic) : Dyadic := ⟨a.m * b.m, a.e + b.e⟩

def Dyadic.negate (a : Dyadic) : Dyadic := ⟨-a.m, a.e⟩

def Dyadic.ofInt (i : Int) : Dyadic := ⟨i, 0⟩

/-- Numerator of |a| over the denominator `Dyadic.den`. -/
def Dyadic.num (a : Dyadic) : Nat := a.m.natAbs * 2 ^ a.e.toNat
def Dyadic.den (a : Dyadic) : Nat := 2 ^ (-a.e).toNat

/-- a < b as exact values. -/
def Dyadic.lt (a b : Dyadic) : Bool := decide ((Dyadic.add a b.negate).m < 0)
def Dyadic.le (a b : Dyadic) : Bool := decide ((Dyadic.add a b.negate).m ≤ 0)

/-- Floor of the binary logarithm of num / den, both positive. -/
def floorLog2 (num den : Nat) : Int :=
  let e : Int := (Nat.log2 num : Int) - (Nat.log2 den : Int)
  if num * 2 ^ (-e).toNat < den * 2 ^ e.toNat then e - 1 else e

/-- Whether Round picks the neighbour away from zero: `rem / q` of the way from the lower neighbour, `odd` tells the last
bit of that neighbour, `rnd` the stochastic word (R126, R127). -/
def pickAway (mode : RMode) (neg odd : Bool) (rem q : Nat) (rnd : Nat) : Bool :=
  match mode with
  | 1 => decide (q < 2 * rem) || (decide (2 * rem = q) && odd)
  | 2 => false
  | 3 => neg
  | 4 => !neg
  | _ => decide (2 ^ 32 ≤ rem * 2 ^ 32 / q + rnd)

/-- Round the exact value with magnitude num / den to precision p on the exponent range of f32 (p = 24 f32, 8 bf16, 12
E12), returned as an f32 pattern. A zero magnitude gives the zero of sign `neg`. -/
def roundFrac (p : Nat) (mode : RMode) (neg : Bool) (num den : Nat) (rnd : Nat) : FRes :=
  let sgn : Nat := if neg then 2147483648 else 0
  if num = 0 then ⟨BitVec.ofNat 32 sgn, 0, false⟩
  else
    let e := max (floorLog2 num den) (-126)
    let sc : Int := e - (p : Int) + 1
    let n := num * 2 ^ (-sc).toNat
    let d := den * 2 ^ sc.toNat
    let top := 255 * 2 ^ (p - 1)
    let (m, rem, q, lo) : Nat × Nat × Nat × Nat :=
      if 127 < e then
        -- beyond the largest finite value: the neighbours are that value and 2^128
        let u := 2 ^ (128 - p)
        (top - 1, num - (2 ^ p - 1) * u * den, u * den, top - 1)
      else (n / d, n % d, d, (e + 126).toNat * 2 ^ (p - 1) + n / d)
    if rem = 0 then ⟨BitVec.ofNat 32 (sgn + lo * 2 ^ (24 - p)), 0, false⟩
    else
      let ix := if pickAway mode neg (m % 2 = 1) rem q rnd then lo + 1 else lo
      let fl := fNX ||| (if ix = top then fOF else 0) ||| (if ix < 2 ^ (p - 1) then fUF else 0)
      ⟨BitVec.ofNat 32 (sgn + ix * 2 ^ (24 - p)), fl, true⟩

/-- Round a dyadic value; an exact zero takes the sign `zneg`. -/
def roundDy (p : Nat) (mode : RMode) (x : Dyadic) (zneg : Bool) (rnd : Nat) : FRes :=
  roundFrac p mode (if x.m = 0 then zneg else decide (x.m < 0)) x.num x.den rnd

/-- Round the exact value with sign and magnitude num / den to an integer (R126), and whether it was inexact. -/
def roundInt (mode : RMode) (neg : Bool) (num den : Nat) (rnd : Nat) : Int × Bool :=
  let m := num / den
  let rem := num % den
  if rem = 0 then (if neg then -(m : Int) else m, false)
  else
    let r := if pickAway mode neg (m % 2 = 1) rem den rnd then m + 1 else m
    (if neg then -(r : Int) else r, true)

/-- Saturate an exact integer to a range, and whether it clamped (R125). -/
def saturate (lo hi v : Int) : Int × Bool :=
  if v < lo then (lo, true) else if hi < v then (hi, true) else (v, false)

/-- The range of an integer or c8 type by its code (R116, R125): i32, n32, i16, i8, c8. -/
def typeRange : Nat → Int × Int
  | 2 => (-2147483648, 2147483647)
  | 3 => (0, 4294967295)
  | 4 => (-32768, 32767)
  | 5 => (-128, 127)
  | _ => (-127, 127)

/-! Arithmetic on patterns. Operands of a bf16 operation have already had their low half cleared. -/

def nanRes (invalid : Bool) : FRes := ⟨canonicalNaN, if invalid then fNV else 0, false⟩
def infRes (neg : Bool) : FRes := ⟨if neg then 0xFF800000 else 0x7F800000, 0, false⟩

/-- Precision of a floating type code: 0 f32, 1 bf16. -/
def precOf (ty : Nat) : Nat := if ty = 0 then 24 else 8

/-- d + a x b, or its negation, rounded once (R119, R142). `negProd` negates the product, `negAll` the whole. -/
def fma (p : Nat) (mode : RMode) (negProd negAll : Bool) (d a b : BitVec 32) (rnd : Nat) : FRes :=
  let vd := fval d
  let va := fval a
  let vb := fval b
  if vd.isNaN || va.isNaN || vb.isNaN then nanRes (vd.isSNaN || va.isSNaN || vb.isSNaN)
  else
    let ps := (va.neg != vb.neg) != negProd
    if (va.isInf && vb.isZero) || (va.isZero && vb.isInf) then nanRes true
    else if va.isInf || vb.isInf then
      if vd.isInf && vd.neg != ps then nanRes true else infRes (ps != negAll)
    else if vd.isInf then infRes (vd.neg != negAll)
    else
      let pr := Dyadic.mul va.dyadic vb.dyadic
      let x := Dyadic.add vd.dyadic (if negProd then pr.negate else pr)
      -- the zero IEEE 754 gives for an exact zero sum; a sum of two zeros of one sign keeps it
      let bothNeg := (if pr.m = 0 && vd.isZero then vd.neg && ps else false)
      let zneg := if pr.m = 0 && vd.isZero && (vd.neg == ps) then bothNeg else decide (mode = 3)
      if x.m = 0 then ⟨if zneg != negAll then 0x80000000 else 0, 0, false⟩
      else roundDy p mode (if negAll then x.negate else x) false rnd

/-- a + b (R142), as 1 x b added to a. -/
def fadd (p : Nat) (mode : RMode) (a b : BitVec 32) (rnd : Nat) : FRes := fma p mode false false a b 0x3F800000 rnd

def flipSign (x : BitVec 32) : BitVec 32 := x ^^^ 0x80000000

/-- a - b. A NaN operand keeps its kind. -/
def fsub (p : Nat) (mode : RMode) (a b : BitVec 32) (rnd : Nat) : FRes := fma p mode true false a b 0x3F800000 rnd

/-- a x b (R142). -/
def fmul (p : Nat) (mode : RMode) (a b : BitVec 32) (rnd : Nat) : FRes :=
  let va := fval a
  let vb := fval b
  if va.isNaN || vb.isNaN then nanRes (va.isSNaN || vb.isSNaN)
  else
    let s := va.neg != vb.neg
    if (va.isInf && vb.isZero) || (va.isZero && vb.isInf) then nanRes true
    else if va.isInf || vb.isInf then infRes s
    else roundDy p mode (Dyadic.mul va.dyadic vb.dyadic) s rnd

/-- |a - b| rounded once (R142). -/
def fabsd (p : Nat) (mode : RMode) (a b : BitVec 32) (rnd : Nat) : FRes :=
  let va := fval a
  let vb := fval b
  if va.isNaN || vb.isNaN then nanRes (va.isSNaN || vb.isSNaN)
  else if va.isInf || vb.isInf then
    if va.isInf && vb.isInf && va.neg == vb.neg then nanRes true else infRes false
  else
    let x := Dyadic.add va.dyadic vb.dyadic.negate
    roundDy p mode ⟨x.m.natAbs, x.e⟩ false rnd

/-- Order of two values that are not NaNs, with -0 below +0 (R143). -/
def fltTotal (a b : FVal) : Bool :=
  match a, b with
  | .inf s, .inf t => s && !t
  | .inf s, _ => s
  | _, .inf t => !t
  | x, y => if x.isZero && y.isZero then x.neg && !y.neg else x.dyadic.lt y.dyadic

/-- Numeric order of two values that are not NaNs: the zeros are equal (R147). -/
def flt (a b : FVal) : Bool := if a.isZero && b.isZero then false else fltTotal a b

/-- Minimum or maximum (R143). -/
def fminmax (isMax : Bool) (a b : BitVec 32) : FRes :=
  let va := fval a
  let vb := fval b
  let fl := if va.isSNaN || vb.isSNaN then fNV else 0
  if va.isNaN && vb.isNaN then ⟨canonicalNaN, fl, false⟩
  else if va.isNaN then ⟨b, fl, false⟩
  else if vb.isNaN then ⟨a, fl, false⟩
  else
    let aLess := fltTotal va vb
    ⟨if aLess != isMax then a else b, fl, false⟩

/-- Sign operations vabs and vneg of a floating value (R142). -/
def fsign (isNeg : Bool) (a : BitVec 32) : FRes :=
  let va := fval a
  if va.isNaN then nanRes va.isSNaN
  else ⟨if isNeg then flipSign a else a &&& 0x7FFFFFFF, 0, false⟩

/-- The class bit of R146. -/
def fclass (a : BitVec 32) : Nat :=
  match fval a with
  | .nan s => if s then 8 else 9
  | .inf s => if s then 0 else 7
  | .fin s m _ =>
    let sub := decide (m < 8388608)
    if m = 0 then (if s then 3 else 4)
    else if s then (if sub then 2 else 1) else (if sub then 5 else 6)

/-- A compare condition 0x20 to 0x25 and its invalid flag (R147): eq ne lt le gt un. -/
def fcompare (c : Nat) (a b : BitVec 32) : Bool × Flags :=
  let va := fval a
  let vb := fval b
  let fl := if va.isSNaN || vb.isSNaN then fNV else 0
  let un := va.isNaN || vb.isNaN
  let lt := flt va vb
  let gt := flt vb va
  (match c with
   | 0 => !un && !lt && !gt
   | 1 => un || lt || gt
   | 2 => !un && lt
   | 3 => !un && !gt
   | 4 => !un && gt
   | _ => un, fl)

/-! Estimates (R144). -/

/-- Integer square root by bisection on the bits of the result. -/
def isqrtAux (n : Nat) : Nat → Nat → Nat
  | 0, acc => acc
  | k + 1, acc => isqrtAux n k (if (acc + 2 ^ k) * (acc + 2 ^ k) ≤ n then acc + 2 ^ k else acc)

def isqrt (n : Nat) : Nat := isqrtAux n (Nat.log2 n / 2 + 1) 0

def vrcpe (a : BitVec 32) : FRes :=
  let v := fval a
  if v.isNaN then nanRes v.isSNaN
  else if v.isInf then ⟨if v.neg then 0x80000000 else 0, 0, false⟩
  else if v.isZero then { infRes v.neg with flags := fDZ }
  else roundFrac 12 1 v.neg v.dyadic.den v.dyadic.num 0

/-- 1 / sqrt a: the square root of den / num is taken to 2^-160 with a sticky bit, which decides every rounding to E12. -/
def vrsqe (a : BitVec 32) : FRes :=
  let v := fval a
  if v.isNaN then nanRes v.isSNaN
  else if v.isZero then { infRes v.neg with flags := fDZ }
  else if v.neg then nanRes true
  else if v.isInf then ⟨0, 0, false⟩
  else
    let n := v.dyadic.num
    let t := v.dyadic.den * 2 ^ 320
    let r := isqrt (t / n)
    let sticky := if r * r * n = t then 0 else 1
    roundFrac 12 1 false (2 * r + sticky) (2 ^ 161) 0

/-- Floor of ln 2 x 2^192. -/
def ln2Fixed : Nat := 4350955369971217654477563090224794165364344896676135745069

/-- Terms k.. of the exponential series in units of 2^-192: the running term and the sum. -/
def expSeries (t : Nat) : Nat → Nat → Nat → Nat → Nat
  | 0, _, _, sum => sum
  | fuel + 1, k, term, sum =>
    let term' := term * t / 2 ^ 192 / k
    expSeries t fuel (k + 1) term' (sum + term')

/-- 2^a to E12: for a that is not an integer the value is irrational, so a sticky bit decides every rounding. -/
def vexpe (a : BitVec 32) : FRes :=
  let v := fval a
  match v with
  | .nan s => nanRes s
  | .inf s => if s then ⟨0, 0, false⟩ else infRes false
  | .fin _ _ _ =>
    let d := v.dyadic
    if (Dyadic.ofInt 200).le d then roundFrac 12 1 false (2 ^ 200) 1 0
    else if d.le (Dyadic.ofInt (-300)) then roundFrac 12 1 false 1 (2 ^ 300) 0
    else
      let den : Int := d.den
      let n : Int := if d.m < 0 then -(d.num : Int) else d.num
      let i := n / den
      let f := (n % den).toNat
      if f = 0 then roundFrac 12 1 false (2 ^ i.toNat) (2 ^ (-i).toNat) 0
      else
        let t := f * ln2Fixed / den.toNat
        let s := expSeries t 48 1 (2 ^ 192) (2 ^ 192)
        roundFrac 12 1 false ((2 * s + 1) * 2 ^ i.toNat) (2 ^ 193 * 2 ^ (-i).toNat) 0

/-- a - floor a, rounded to f32 under the word's mode (R144). -/
def vfrx (mode : RMode) (a : BitVec 32) (rnd : Nat) : FRes :=
  let v := fval a
  if v.isNaN then nanRes v.isSNaN
  else if v.isInf then nanRes true
  else
    let d := v.dyadic
    let den : Int := d.den
    let n : Int := if d.m < 0 then -(d.num : Int) else d.num
    roundFrac 24 mode false (n % den).toNat den.toNat rnd

/-! Companding (R130, R131). -/

/-- Segment value as an exact number. -/
def curveD (xs : List (BitVec 32)) (j : Nat) : Dyadic := (fval (xs.getD j 0)).dyadic

/-- The largest j in 1..15 that satisfies a test, or 0. -/
def lastSegment (f : Nat → Bool) : Nat :=
  (List.range 15).foldl (fun r i => if f (i + 1) then i + 1 else r) 0

/-- k_j u + o_j for the segment of u (R130). -/
def curveEval (c : Curve) (u : Dyadic) : Dyadic :=
  let j := lastSegment (fun j => (curveD c.bp j).le u)
  Dyadic.add (Dyadic.mul (curveD c.k j) u) (curveD c.o j)

/-- The start Y_j of a segment (R130). -/
def curveStart (c : Curve) (j : Nat) : Dyadic :=
  Dyadic.add (Dyadic.mul (curveD c.k j) (curveD c.bp j)) (curveD c.o j)

def finitePattern (x : BitVec 32) : Bool :=
  match fval x with
  | .fin _ _ _ => true
  | _ => false

/-- A curve is valid (R130). -/
def curveValid (c : Curve) : Bool :=
  (List.range 16).all (fun j => finitePattern (c.k.getD j 0) && finitePattern (c.o.getD j 0)
      && (j == 0 || finitePattern (c.bp.getD j 0)) && decide (0 < (curveD c.k j).m))
    && (List.range 14).all (fun j => (curveD c.bp (j + 1)).lt (curveD c.bp (j + 2))
      && (curveStart c (j + 1)).le (curveStart c (j + 2)))

/-- The inverse entry of a code (R131). -/
def expandCode (c : Curve) (code : Int) : Int :=
  let j := lastSegment (fun j => (curveStart c j).le (Dyadic.ofInt code))
  let x := Dyadic.add (Dyadic.ofInt code) (curveD c.o j).negate
  let k := curveD c.k j
  -- x / k as a fraction of naturals
  let r := roundInt 1 (decide (x.m < 0)) (x.num * k.den) (x.den * k.num) 0
  (saturate (-2048) 2047 r.1).1

/-- Quantise (R130): the code, the flags, and whether a generator stepped. -/
def quantise (c : Curve) (x s : BitVec 32) (mode : RMode) (rnd : Nat) : Int × Flags × Bool :=
  let vx := fval x
  let vs := fval s
  if vs.isZero || vs.isInf || vs.isNaN || vx.isNaN then (0, fNV, false)
  else
    let r := (roundFrac 24 1 vs.neg vs.dyadic.den vs.dyadic.num 0).bits
    let u := if vx.isZero then x else (fmul 24 1 x r 0).bits
    match fval u with
    | .inf s => (if s then -127 else 127, fOF ||| fNX, false)
    | vu =>
      let y := curveEval c vu.dyadic
      let (i, nx) := roundInt mode (decide (y.m < 0)) y.num y.den rnd
      let (k, cl) := saturate (-127) 127 i
      (k, (if nx then fNX else 0) ||| (if cl then fOF ||| fNX else 0), nx)

/-- Value of an s20 scale, or none for exponent 255 (R124). -/
def scaleValue (s : BitVec 20) : Option Dyadic :=
  let e := (s.extractLsb' 12 8).toNat
  let f := (s.extractLsb' 0 12).toNat
  if e = 255 then none else if e = 0 then some ⟨0, 0⟩ else some ⟨4096 + f, (e : Int) - 139⟩

/-- One step of a stochastic generator (R127). -/
def genStep (s : BitVec 32) : BitVec 32 :=
  if s.getLsbD 0 then (s >>> 1) ^^^ 0x80200003 else s >>> 1

/-- The seed of generator i (R128). -/
def genSeed (seed : BitVec 32) (i : Nat) : BitVec 32 :=
  let s := seed ^^^ BitVec.ofNat 32 (i * 0x9E3779B9)
  if s = 0 then 1 else s

/-- Trit j of the balanced ternary expansion of v (R125), as -1, 0 or 1. -/
def balancedTrit (v : Int) : Nat → Int
  | 0 => (v + 1) % 3 - 1
  | j + 1 => balancedTrit ((v - ((v + 1) % 3 - 1)) / 3) j

/-- The t2 code of a trit (R122). -/
def tritCode (t : Int) : BitVec 2 := if t = 0 then 0 else if t = 1 then 1 else 3

/-- The trit of a t2 code; the reserved code 2 has none (R122). -/
def codeTrit (c : BitVec 2) : Option Int :=
  if c = 0 then some 0 else if c = 1 then some 1 else if c = 3 then some (-1) else none

end Sys2Proof.Machine
end

