-- ==== Sys2Proof/Machine/Vault.lean ====
section
/-! DEFINITION. Units by number, addresses (R260), regions and granules (R262, R267, R268), page tables (R357) and the checks
a home makes on an access (R261, R275). -/
namespace Sys2Proof.Machine
open Sys2Proof

/-! Units by number. -/

def dieIx (d : DieId) : Nat := d.pkg.val * 8 + d.die.val
def cellIx (c : CellId) : Nat := dieIx c.home * 144 + c.cell.val
def dieOfCell (ix : Nat) : Nat := ix / 144
def pkgOfDie (ix : Nat) : Nat := ix / 8
def pkgOfCell (ix : Nat) : Nat := ix / 1152

/-- The identity of cell number ix. -/
def cellIdOf (ix : Nat) : CellId :=
  ⟨⟨ix / 1152 % 32, Nat.mod_lt _ (by decide)⟩, ⟨ix / 144 % 8, Nat.mod_lt _ (by decide)⟩, ⟨ix % 144, Nat.mod_lt _ (by decide)⟩⟩

/-- The identity of die number ix. -/
def dieIdOf (ix : Nat) : DieId := ⟨⟨ix / 8 % 32, Nat.mod_lt _ (by decide)⟩, ⟨ix % 8, Nat.mod_lt _ (by decide)⟩⟩

/-- The command cell of a die is its cell 0 (R11). -/
def isCmd (cellNo : Nat) : Bool := cellNo % 144 == 0

def State.cell (s : State) (ix : Nat) : Cell := lookup Cell.reset s.cells ix
def State.setCell (s : State) (ix : Nat) (c : Cell) : State := { s with cells := insertAt s.cells ix c }
def State.modCell (s : State) (ix : Nat) (f : Cell → Cell) : State := s.setCell ix (f (s.cell ix))
def State.die (s : State) (ix : Nat) : Die := lookup (Die.reset ix) s.dies ix
def State.setDie (s : State) (ix : Nat) (d : Die) : State := { s with dies := insertAt s.dies ix d }
def State.modDie (s : State) (ix : Nat) (f : Die → Die) : State := s.setDie ix (f (s.die ix))
def State.pkg (s : State) (ix : Nat) : Package := lookup Package.reset s.pkgs ix
def State.setPkg (s : State) (ix : Nat) (p : Package) : State := { s with pkgs := insertAt s.pkgs ix p }
def State.modPkg (s : State) (ix : Nat) (f : Package → Package) : State := s.setPkg ix (f (s.pkg ix))
def State.node (s : State) (ix : Nat) : Node := lookup Node.reset s.nodes ix
def State.setNode (s : State) (ix : Nat) (n : Node) : State := { s with nodes := insertAt s.nodes ix n }
def State.modNode (s : State) (ix : Nat) (f : Node → Node) : State := s.setNode ix (f (s.node ix))

/-- Count one event on a die's performance counter (R382); the counters wrap at 2^48. -/
def State.count (s : State) (die k : Nat) : State :=
  s.modDie die (fun d => { d with counters := insertAt d.counters k (lookup 0 d.counters k + 1) })

/-- A number for a new request or entry. -/
def State.fresh (s : State) : Nat × State := (s.nextId, { s with nextId := s.nextId + 1 })

/-! Addresses (R260 Table 2). -/

def aPkg (w : Word) : Nat := wf64 w 62 57
def aDie (w : Word) : Nat := wf64 w 56 54
def aVault (w : Word) : Bool := w.getLsbD 53
def aOff (w : Word) : Nat := wf64 w 52 0
def vaultOf (w : Word) : Nat := wf64 w 29 22
def vaultByte (w : Word) : Nat := wf64 w 21 0
def homeDie (w : Word) : Nat := aPkg w * 8 + aDie w

/-- An address is homed on the die of a cell. -/
def isLocal (ix : Nat) (w : Word) : Bool := homeDie w == dieOfCell ix

/-- The checks of R260 made at issue: bit 63 zero, package 0-31, vault space with [52:30] zero. -/
def addrOk (w : Word) : Bool := !w.getLsbD 63 && decide (aPkg w < 32) && (!aVault w || wf64 w 52 30 == 0)

/-- The table window of a die (R343). -/
def inWindow (w : Word) : Bool := !aVault w && wf64 w 52 48 == 0x1F

/-- Base address of a die's address space. -/
def dieBase (die : Nat) : Nat := die / 8 * 2 ^ 57 + die % 8 * 2 ^ 54

/-- The address of a byte of a vault (R260). -/
def vaultAddr (die vault byte : Nat) : Word := BitVec.ofNat 64 (dieBase die + 2 ^ 53 + vault * 2 ^ 22 + byte)

/-! Regions and granules. -/

/-- The region of a vault that holds a byte, with its table key 64 x vault + slot (R262, R351). -/
def regionAt (d : Die) (vault byte : Nat) : Option (Nat × Region) :=
  d.regions.find? (fun e => e.1 / 64 == vault && decide (e.2.base * 1024 ≤ byte) && decide (byte < (e.2.base + e.2.size) * 1024))

/-- The region whose base an address names, if it is the base of one. -/
def regionBased (s : State) (w : Word) : Option (Nat × Region) :=
  if aVault w && addrOk w then
    match regionAt (s.die (homeDie w)) (vaultOf w) (vaultByte w) with
    | some (k, r) => if r.base * 1024 = vaultByte w then some (k, r) else none
    | none => none
  else none

/-- What an access needs: read, write or both with the atomic right (R262). -/
inductive Need where
  | rd | wr | atom
deriving DecidableEq, Repr

def Region.grants (r : Region) : Need → Bool
  | .rd => r.rd
  | .wr => r.wr
  | .atom => r.rd && r.wr && r.atom

/-- Data of a granule by its number (R268), with no checks. -/
def granuleBytes (s : State) (g : Nat) : List Byte := Memory.read s.mem (g * 32) 32

/-- ReadGranule of a vault granule under heat h (R268): the n bytes at physical address a of one granule. -/
def readVault (s : State) (h : Heat) (modeT : Bool) (a n : Nat) : Except FaultCode (List Byte) :=
  let g := a / 32
  if lookup 0 s.heats g ≠ h then (if modeT then .error .heattrap else .ok (List.replicate n 0))
  else if s.eccBad.contains g then .error .ecc
  else .ok (Memory.read s.mem a n)

/-- WriteGranule (R268): bytes within one granule at physical address a, under heat h. -/
def writeVault (s : State) (h : Heat) (a : Nat) (bs : List Byte) : Except FaultCode State :=
  let g := a / 32
  if lookup 0 s.heats g ≠ h then
    .ok { s with mem := Memory.write (Memory.write s.mem (g * 32) (List.replicate 32 0)) a bs, heats := insertAt s.heats g h,
                 eccBad := s.eccBad.filter (· != g), eccOne := s.eccOne.filter (· != g) }
  else if bs.length < 32 ∧ s.eccBad.contains g then .error .ecc
  else .ok { s with mem := Memory.write s.mem a bs, eccBad := s.eccBad.filter (· != g), eccOne := s.eccOne.filter (· != g) }

/-! Page tables (R357). -/

/-- A leaf that a walk found: the entry as stored, its page size code and its frame offset. -/
structure Leaf where
  raw   : Word
  size  : Nat
deriving DecidableEq, Repr

def pageBytes : Nat → Nat
  | 0 => 65536
  | 1 => 2097152
  | _ => 1073741824

/-- First byte of the page that holds offset `off`. -/
def pageStart (size off : Nat) : Nat := off / pageBytes size * pageBytes size

/-- Frame offset of a leaf: bits below the page size are ignored. -/
def Leaf.frame (l : Leaf) : Nat := pageStart l.size (wf64 l.raw 35 16 * 65536)

/-- Permissions at, wr, rd of an entry as bits 2, 1, 0. -/
def permBits (w : Word) : BitVec 3 := w.extractLsb' 2 3

def permAllows (p : BitVec 3) : Need → Bool
  | .rd => p.getLsbD 0
  | .wr => p.getLsbD 1
  | .atom => p.getLsbD 0 && p.getLsbD 1 && p.getLsbD 2

/-- A valid entry of a table at a level (2 top, 1 middle, 0 bottom): reserved bits zero and the rules of R357 Table 11. -/
def entryOk (localGiB level : Nat) (w : Word) : Bool :=
  w.getLsbD 0 && wf64 w 63 36 == 0 && !w.getLsbD 5 &&
  (if w.getLsbD 1 then
     wf64 w 7 6 == level && (!w.getLsbD 4 || (w.getLsbD 2 && w.getLsbD 3))
       && decide ((Leaf.frame ⟨w, level⟩) + pageBytes level ≤ localGiB * 2 ^ 30)
   else level != 0 && (level != 2 || wf64 w 35 8 * 256 % 4096 == 0))

/-- The 8-byte table entry at a local-part offset of a die. -/
def tableEntry (s : State) (die off : Nat) : Word := BitVec.ofNat 64 (ofLe (Memory.read s.mem (dieBase die + off) 8))

/-- Walk the page tables of a die for a paged offset (R357): the leaf, or none where an entry on the way is absent. -/
def walk (s : State) (die off : Nat) : Option Leaf :=
  let d := s.die die
  if 2 ^ 36 ≤ off ∨ d.local_ * 2 ^ 30 ≤ off then none
  else
    let t := tableEntry s die (d.ptroot + off / 2 ^ 30 % 64 * 8)
    if !entryOk d.local_ 2 t then none
    else if t.getLsbD 1 then some ⟨t, 2⟩
    else
      let m := tableEntry s die (wf64 t 35 8 * 256 + off / 2 ^ 21 % 512 * 8)
      if !entryOk d.local_ 1 m then none
      else if m.getLsbD 1 then some ⟨m, 1⟩
      else
        let b := tableEntry s die (wf64 m 35 8 * 256 + off / 2 ^ 16 % 32 * 8)
        if entryOk d.local_ 0 b then some ⟨b, 0⟩ else none

/-- Physical address of a paged offset under a leaf. -/
def leafPhys (die off : Nat) (l : Leaf) : Nat := dieBase die + l.frame + off % pageBytes l.size

/-! TLB (R358): the most recently used entry stands first. -/

def TlbEntry.covers (e : TlbEntry) (off : Nat) : Bool := pageStart e.size off == e.page

def tlbOf (off : Nat) (l : Leaf) : TlbEntry := ⟨pageStart l.size off, l.size, l.frame / 65536, permBits l.raw⟩

/-- The TLB with an entry used or installed; 512 entries, the least recently used leaves. -/
def tlbUse (t : List TlbEntry) (e : TlbEntry) : List TlbEntry := (e :: t.filter (· ≠ e)).take 512

/-- Translate an own-die paged offset through a cell's TLB (R275): the physical address and the new TLB, or none for XLATE. -/
def translate (s : State) (die : Nat) (tlb : List TlbEntry) (off : Nat) (need : Need) : Option (Nat × List TlbEntry) :=
  match tlb.find? (·.covers off) with
  | some e =>
    if permAllows e.perm need then some (dieBase die + e.frame * 65536 + off % pageBytes e.size, tlbUse tlb e) else none
  | none =>
    match walk s die off with
    | none => none
    | some l =>
      if permAllows (permBits l.raw) need then some (leafPhys die off l, tlbUse tlb (tlbOf off l)) else none

/-! Checks at the home. -/

/-- The vault checks 1 to 3 of R262 for one granule. -/
def vaultCheck (s : State) (w : Word) (need : Need) : Except FaultCode Region :=
  match regionAt (s.die (homeDie w)) (vaultOf w) (vaultByte w) with
  | none => .error .perm
  | some (_, r) => if 144 ≤ vaultOf w ∨ r.stow ∨ !r.grants need then .error .perm else .ok r

/-- A package is present and not severed in the topology another package sees (R260, R356). -/
def pkgPresent (s : State) (from_ to_ : Nat) : Bool :=
  let p := s.pkg from_
  from_ == to_ || (p.topo.present.contains to_ && !p.topo.severed.contains to_ && !p.severSelf)

/-- Package q has been declared severed from package p; a severed package is severed from every other (R339). -/
def severedFor (s : State) (p q : Nat) : Bool := p != q && (s.topo.severed.contains q || (s.pkg p).severSelf)

/-- A link of a package. -/
def linkOf (s : State) (p n : Nat) : Port := lookup Port.reset (s.pkg p).ports n

/-- No retraining pauses a link (R338). -/
def linkClear (s : State) (p n : Nat) : Bool := decide ((linkOf s p n).pausedTill ≤ s.cycle)

/-- Port i of a package hears a colour under its listen table in force (R328, R329, R354). -/
def hears (s : State) (pkg port colour : Nat) : Bool :=
  let w := (s.die (pkg * 8 + port)).listen
  (List.range 8).any (fun f => let b := wf64 w (8 * f + 7) (8 * f); decide (128 ≤ b) && b % 64 == colour
    && !(linkOf s pkg port).retune.any (fun x => x.1 == f))

/-- A port of a package carries traffic: it is not dark, not down, and no retraining pauses it or its bridge's uplink (R338, R339,
R388). -/
def portUp (s : State) (p plane : Nat) : Bool :=
  (s.pkg p).lit && decide ((linkOf s p plane).width < 3) && linkClear s p plane && linkClear s p (8 + plane)

/-- A port of a package issues requests: no announced version waits to be adopted there (R335). -/
def issuing (s : State) (p plane : Nat) : Bool := !(linkOf s p plane).announced

/-- The topology version in force at a port (R335). -/
def portVersion (s : State) (p plane : Nat) : BitVec 4 := (linkOf s p plane).version

/-- The plane of the requests of package p carries traffic to package q, and that of q's responses back (R327). -/
def requestOpen (s : State) (p q : Nat) : Bool := portUp s p (p % 8) && portUp s q (p % 8)
def responseOpen (s : State) (p q : Nat) : Bool := portUp s q (q % 8) && portUp s p (q % 8)

/-- An access of package p to package q is refused at its source's bridge (R260, R329, R339). -/
def sourceRefuses (s : State) (p q : Nat) : Bool :=
  p != q && (!pkgPresent s p q || !hears s q (p % 8) p || severedFor s p q)

/-- The direct link between a die and its stack carries an access to an address (R327, R338). -/
def directClear (s : State) (w : Word) : Bool := aVault w || inWindow w || linkClear s (homeDie w / 8) (16 + homeDie w % 8)

/-! The package ring (R324, R327): station 0 is the port die, 2i + 1 compute die i, 2i + 2 bridge station i. -/

def dieStation (i : Nat) : Nat := 2 * i + 1
def bridgeStation (i : Nat) : Nat := 2 * i + 2

/-- Direction of travel between two stations: true towards increasing indices (R324). -/
def upwards (a b : Nat) : Bool := decide ((b + 17 - a) % 17 ≤ 8)

/-- The ring segments between two stations in the direction of travel; segment k joins stations k and k + 1 (R324). -/
def segmentsOf (src dst : Nat) : List Nat :=
  if upwards src dst then (List.range ((dst + 17 - src) % 17)).map (fun i => (src + i) % 17)
  else (List.range ((src + 17 - dst) % 17)).map (fun i => (dst + i) % 17)

/-- The links that a packet between two stations crosses: ring segments, and the uplink of a bridge station at either end (R338). -/
def ringLinks (src dst : Nat) : List Nat :=
  (segmentsOf src dst).map (24 + ·) ++ ([src, dst].filter (fun st => st != 0 && st % 2 == 0)).map (fun st => 8 + (st - 2) / 2)

/-- No link between two stations of a package is paused (R338). -/
def ringClear (s : State) (p src dst : Nat) : Bool := (ringLinks src dst).all (linkClear s p)

/-- The ring of both packages carries an access of a die to another die, and its response (R327, R338). -/
def ringOpen (s : State) (d : Nat) (w : Word) : Bool :=
  let h := homeDie w
  let a := dieStation (d % 8)
  let b := dieStation (h % 8)
  if h = d then true
  else if h / 8 = d / 8 then ringClear s (d / 8) a b && ringClear s (d / 8) b a
  else
    let out := bridgeStation (d / 8 % 8)
    let back := bridgeStation (h / 8 % 8)
    ringClear s (d / 8) a out && ringClear s (h / 8) out b && ringClear s (h / 8) b back && ringClear s (d / 8) back a

/-- Hardware's own access of a die that is made in one step need not wait: no link of its way is down or paused, and both ports
have the same version in force; or it is refused at its source (R327, R329, R335, R337 to R339; notes/assumptions/10.md). -/
def mayLeave (s : State) (d : Nat) (w : Word) : Bool :=
  let p := d / 8
  let q := homeDie w / 8
  sourceRefuses s p q ||
    ((q == p || (issuing s p (p % 8) && requestOpen s p q && responseOpen s p q && portVersion s p (p % 8) == portVersion s q (p % 8)))
      && ringOpen s d w && directClear s w)

/-- A version is older than another, modulo 16 (R335). -/
def olderVersion (a b : BitVec 4) : Bool := a != b && decide ((b - a).toNat < 8)

/-- What the ports of a home say of an access before its address is looked at (R261, R343). -/
def homeGate (s : State) (world : BitVec 16) (w : Word) : Option FaultCode :=
  let d := s.die (homeDie w)
  if d.world ≠ world ∨ d.reassign.isSome ∨ inWindow w then some .perm else none

/-- An access to another die is refused before its address is looked at, at its source or by its home's ports (R260, R261, R329). -/
def remoteGate (s : State) (from_ : Nat) (world : BitVec 16) (w : Word) : Option FaultCode :=
  if sourceRefuses s from_ (homeDie w / 8) then some .rxlate else homeGate s world w

/-- Where an address that a home has let in is performed, or the refusal of its region or its translation (R231, R262). -/
def homeSite (s : State) (w : Word) (need : Need) : Except FaultCode Site :=
  if aVault w then
    match vaultCheck s w need with
    | .error e => .error e
    | .ok r => .ok ⟨w.toNat, some r.heat⟩
  else
    match walk s (homeDie w) (aOff w) with
    | none => .error .rxlate
    | some l => if permAllows (permBits l.raw) need then .ok ⟨leafPhys (homeDie w) (aOff w) l, none⟩ else .error .rxlate

/-- What a remote home answers to an access (R231, R261, R329): the physical site, or the refusal. -/
def remoteCheck (s : State) (from_ : Nat) (world : BitVec 16) (w : Word) (need : Need) : Except FaultCode Site :=
  match remoteGate s from_ world w with
  | some e => .error e
  | none => homeSite s w need

/-- A translation miss at a remote home, which refers it to its command cell (R275). -/
def remoteMiss (s : State) (world : BitVec 16) (w : Word) (need : Need) : Bool :=
  (homeGate s world w).isNone && !aVault w && (homeSite s w need).toOption.isNone

/-- A command cell still has time to resolve a miss that was referred to it in a cycle, or is about to be (R275, R301). -/
def referOpen (s : State) (since : Option Nat) (n : Nat) : Bool :=
  match since with
  | some t => decide (s.cycle < t + Config.missWait n)
  | none => true

/-- An element of n bytes lies outside the vault region that holds a base (R227). -/
def outsideRegion (s : State) (base elem : Word) (n : Nat) : Bool :=
  aVault base && (match regionAt (s.die (homeDie base)) (vaultOf base) (vaultByte base) with
    | some (_, r) => !(elem.toNat / 2 ^ 22 == base.toNat / 2 ^ 22 && decide (r.base * 1024 ≤ vaultByte elem)
        && decide (vaultByte elem + n ≤ (r.base + r.size) * 1024))
    | none => false)

/-! The write times that homes keep (R319). -/

/-- The part of a die that holds an address: its vault number, or 144 for HBM-local memory. -/
def homePart (w : Word) : Nat := if aVault w then vaultOf w else 144
def homeTime (s : State) (w : Word) : Nat := lookup 0 (s.die (homeDie w)).hmax (homePart w)
def raiseTime (s : State) (w : Word) (t : Nat) : State :=
  s.modDie (homeDie w) (fun d => { d with hmax := insertAt d.hmax (homePart w) (max t (lookup 0 d.hmax (homePart w))) })

/-- Whether stale granules of the region of a vault address trap (R268). -/
def modeTrap (s : State) (w : Word) : Bool :=
  match regionAt (s.die (homeDie w)) (vaultOf w) (vaultByte w) with
  | some (_, r) => r.mode
  | none => false

/-- Read n bytes at a site. -/
def readSite (s : State) (w : Word) (p : Site) (n : Nat) : Except FaultCode (List Byte) :=
  match p.heat with
  | some h => readVault s h (modeTrap s w) p.phys n
  | none => .ok (Memory.read s.mem p.phys n)

/-- A read of a vault granule that corrects a single-bit error is counted; a stale granule is not checked (R268, R382). -/
def noteEcc (s : State) (w : Word) (p : Site) : State :=
  match p.heat with
  | some h => if lookup 0 s.heats (p.phys / 32) = h ∧ s.eccOne.contains (p.phys / 32) then s.count (homeDie w) 17 else s
  | none => s

/-- Write bytes at a site. -/
def writeSite (s : State) (p : Site) (bs : List Byte) : Except FaultCode State :=
  match p.heat with
  | some h => writeVault s h p.phys bs
  | none => .ok { s with mem := Memory.write s.mem p.phys bs }

/-- What ReadGranule or WriteGranule would refuse of n bytes at a vault address (R268). -/
def granuleFault (s : State) (r : Region) (w : Word) (n : Nat) (need : Need) : Option FaultCode :=
  let g := w.toNat / 32
  let stale := lookup 0 s.heats g != r.heat
  if stale then (if r.mode && need != .wr then some .heattrap else none)
  else if s.eccBad.contains g && (need != .wr || decide (n < 32)) then some .ecc
  else none

/-- The granule checks of R262 for n bytes at an address: none outside vault space or outside every region. -/
def granuleAt (s : State) (w : Word) (n : Nat) (need : Need) : Option FaultCode :=
  match regionAt (s.die (homeDie w)) (vaultOf w) (vaultByte w) with
  | some (_, r) => if aVault w then granuleFault s r w n need else none
  | none => none

/-- The heat under which hardware itself accesses a vault address: that of the region that holds it; vault memory is reached only inside
regions (R262). -/
def regionHeat (s : State) (w : Word) : Option Heat :=
  (regionAt (s.die (homeDie w)) (vaultOf w) (vaultByte w)).map (·.2.heat)

/-- Hardware stores bytes within one granule at a vault address under a heat; an uncorrectable granule is written whole. -/
def putVault (s : State) (h : Heat) (w : Word) (bs : List Byte) : State :=
  match writeVault s h w.toNat bs with
  | .ok t => t
  | .error _ => s

/-- A hardware store of bytes within one granule at a vault address, under its region's heat; one of part of a granule reads it too
(R268, R382). Outside every region nothing is stored. -/
def putRegion (s : State) (w : Word) (bs : List Byte) : State :=
  match regionHeat s w with
  | some h => putVault (if bs.length < 32 then noteEcc s w ⟨w.toNat, some h⟩ else s) h w bs
  | none => s

/-- Hardware stores bytes at a vault address, granule by granule, under a heat. -/
def putVaultMany (s : State) (h : Heat) (w : Word) : List (List Byte) → State
  | [] => s
  | g :: gs => putVaultMany (putVault s h w g) h (w + 32) gs

/-- Bytes cut into granules of 32. -/
def granules : Nat → List Byte → List (List Byte)
  | 0, _ => []
  | n + 1, bs => bs.take 32 :: granules n (bs.drop 32)

end Sys2Proof.Machine
end

