-- ==== Sys2Proof/Machine/Rings.lean ====
section
/-! DEFINITION. Ring records at the Cleats (R375, R376, R378): the descriptor, the counters and the FIFO queues of waiters. -/
namespace Sys2Proof.Machine
open Sys2Proof

/-! The record. -/

/-- Slots of a ring. -/
def Ring.slots (r : Ring) : Nat := 2 ^ r.lc

/-- Distance from one sequence number to another, modulo 2^32. -/
def seqDist (a b : BitVec 32) : Nat := (b - a).toNat

/-- The record of a 64-byte descriptor, or none where it is not valid (R375). -/
def ringOf (bs : List Byte) : Option Ring :=
  let w := fun i => wordAt bs (8 * i)
  let cf := (w 3).extractLsb' 32 32
  let cc := (w 3).extractLsb' 0 32
  let pp := (w 2).extractLsb' 32 32
  let pc := (w 2).extractLsb' 0 32
  let lc := wf64 (w 1) 19 16
  let scope := wf64 (w 1) 26 24
  if wf64 (w 1) 63 27 ≠ 0 ∨ wf64 (w 1) 23 20 ≠ 0 ∨ wf64 (w 1) 15 12 ≠ 0 ∨ !allZero (bs.drop 32) ∨ (w 0).toNat % 32 ≠ 0
      ∨ 5 < scope ∨ seqDist cf pp < seqDist cf cc ∨ seqDist cf pc < seqDist cf pp ∨ 2 ^ lc < seqDist cf pc then none
  else some ⟨w 0, scope, lc, wf64 (w 1) 11 0, pc, pp, cc, cf, [], [], [], [], 0, []⟩

/-- Bytes 0x10 to 0x1F of the descriptor as the record stands. -/
def Ring.counterBytes (r : Ring) : List Byte :=
  leBytes (r.ppub.toNat * 2 ^ 32 + r.pclaim.toNat) 8 ++ leBytes (r.cfree.toNat * 2 ^ 32 + r.cclaim.toNat) 8

/-- Slots free for producers, and published slots that no consumer has been granted. -/
def Ring.free (r : Ring) : Nat := r.slots - seqDist r.cfree r.pclaim
def Ring.ready (r : Ring) : Nat := seqDist r.cclaim r.ppub

/-- n slots are given to a producer. -/
def Ring.claimSlots (r : Ring) (cell n : Nat) : Ring :=
  { r with pclaim := r.pclaim + BitVec.ofNat 32 n, claims := r.claims ++ [⟨cell, true, r.pclaim, n⟩] }

/-- n slots are given to a consumer. -/
def Ring.grantSlots (r : Ring) (cell n : Nat) : Ring :=
  { r with cclaim := r.cclaim + BitVec.ofNat 32 n, claims := r.claims ++ [⟨cell, false, r.cclaim, n⟩] }

/-- Serve the producers' FIFO in order, up to the first that must wait on (R378). -/
def serveProducers (r : Ring) : List RingWaiter → Ring × List (Nat × Grant)
  | [] => ({ r with producers := [] }, [])
  | w :: ws =>
    if w.n ≤ r.free then
      let (q, gs) := serveProducers (r.claimSlots w.cell w.n) ws
      (q, (w.cell, ⟨w.reg, zx r.pclaim⟩) :: gs)
    else ({ r with producers := w :: ws }, [])

/-- Serve the consumers' FIFO in order, up to the first that must wait on (R378). -/
def serveConsumers (r : Ring) : List RingWaiter → Ring × List (Nat × Grant)
  | [] => ({ r with consumers := [] }, [])
  | w :: ws =>
    if w.n ≤ r.ready then
      let (q, gs) := serveConsumers (r.grantSlots w.cell w.n) ws
      (q, (w.cell, ⟨w.reg, zx r.cclaim⟩) :: gs)
    else ({ r with consumers := w :: ws }, [])

/-- Serve both queues. -/
def Ring.serve (r : Ring) : Ring × List (Nat × Grant) :=
  let (a, gs) := serveProducers r r.producers
  let (b, hs) := serveConsumers a a.consumers
  (b, gs ++ hs)

/-- Advance a counter over the marks that follow it; the fuel is the number of marks. -/
def advanceOver (at_ : BitVec 32) (marks : List Nat) : Nat → BitVec 32 × List Nat
  | 0 => (at_, marks)
  | k + 1 => if marks.contains at_.toNat then advanceOver (at_ + 1) (marks.erase at_.toNat) k else (at_, marks)

/-- The sequence numbers of n slots from one on. -/
def seqRange (first : BitVec 32) (n : Nat) : List Nat := (List.range n).map (fun i => (first + BitVec.ofNat 32 i).toNat)

/-- A claimed slot that has not been published, or freed. -/
def Ring.slotOpen (r : Ring) (prod : Bool) (x : BitVec 32) : Bool :=
  if prod then decide (seqDist r.ppub x < seqDist r.ppub r.pclaim) && !r.pubMarks.contains x.toNat
  else decide (seqDist r.cfree x < seqDist r.cfree r.cclaim) && !r.freeMarks.contains x.toNat

/-- Drop the claims of which no slot is open. -/
def Ring.prune (r : Ring) : Ring :=
  { r with claims := r.claims.filter (fun c => (List.range c.n).any (fun i => r.slotOpen c.prod (c.first + BitVec.ofNat 32 i))) }

/-- `rpubl` or `rfree` of [first, first + n) is refused (R378). -/
def Ring.refuses (r : Ring) (prod : Bool) (first : Word) (n : Nat) : Bool :=
  let f := first.extractLsb' 0 32
  let lo := if prod then r.ppub else r.cfree
  let hi := if prod then r.pclaim else r.cclaim
  n != 0 && (decide (2 ^ 32 ≤ first.toNat) || decide (seqDist lo hi < seqDist lo f + n)
    || (seqRange f n).any (fun x => (if prod then r.pubMarks else r.freeMarks).contains x))

/-- Mark published slots and advance ppub over the marked prefix. -/
def Ring.publish (r : Ring) (first : BitVec 32) (n : Nat) : Ring :=
  let (p, m) := advanceOver r.ppub (r.pubMarks ++ seqRange first n) (r.pubMarks.length + n)
  { r with ppub := p, pubMarks := m }

/-- Mark freed slots and advance cfree over the marked prefix. -/
def Ring.release (r : Ring) (first : BitVec 32) (n : Nat) : Ring :=
  let (p, m) := advanceOver r.cfree (r.freeMarks ++ seqRange first n) (r.freeMarks.length + n)
  { r with cfree := p, freeMarks := m }

/-! The sync store. -/

/-- Records that the 8 MiB sync store holds, 64 bytes each (DESIGN CHOICE, notes/assumptions/11.md). -/
def ringCapacity : Nat := 131072

/-- A record that may be evicted: no waiters and no marks out of order (R376). -/
def Ring.evictable (r : Ring) : Bool :=
  r.producers.isEmpty && r.consumers.isEmpty && r.pubMarks.isEmpty && r.freeMarks.isEmpty

/-- The least recently used record that may be evicted. -/
def lruRing (m : SMap Ring) : Option Nat :=
  match m.foldl (fun (best : Option (Nat × Nat)) e =>
    if e.2.evictable then
      (match best with
       | none => some (e.2.used, e.1)
       | some (u, k) => if e.2.used < u then some (e.2.used, e.1) else some (u, k))
    else best) none with
  | some (_, k) => some k
  | none => none

/-- Store a ring's record. -/
def putRing (s : State) (w : Word) (r : Ring) : State :=
  s.modDie (homeDie w) (fun d => { d with rings := insertAt d.rings w.toNat r })

/-- Grants reach the cells that wait for them. -/
def giveGrants (s : State) : List (Nat × Grant) → State
  | [] => s
  | (ix, g) :: gs => giveGrants (s.modCell ix (fun c => { c with granted := some g })) gs

/-- Store a record after serving its queues. -/
def settleRing (s : State) (w : Word) (r : Ring) : State :=
  let (q, gs) := r.serve
  giveGrants (putRing s w q.prune) gs

/-- A cell's waiter leaves the queues of the ring it has joined, and those behind it are served (R379). -/
def leaveRing (s : State) (ix : Nat) : State :=
  match (s.cell ix).ringAt with
  | none => s
  | some key =>
    let w : Word := BitVec.ofNat 64 key
    let s1 := s.modCell ix (fun c => { c with ringAt := none })
    match find? (s1.die (homeDie w)).rings key with
    | none => s1
    | some r => settleRing s1 w { r with producers := r.producers.filter (·.cell != ix), consumers := r.consumers.filter (·.cell != ix) }

/-- The key under which claims of a stowed strand are kept. -/
def claimKey (die slot : Nat) : Nat := 1000000 + die * 16384 + slot

/-- Claims of a strand follow it from one key to another; none drops them. -/
def moveClaims (s : State) (pkg old : Nat) (new : Option Nat) : State :=
  let moved (cs : List RingClaim) : List RingClaim := match new with
    | some n => cs.map (fun c => if c.cell = old then { c with cell := n } else c)
    | none => cs.filter (fun c => c.cell ≠ old)
  { s with dies := s.dies.map (fun (e : Nat × Die) =>
      if e.1 / 8 = pkg ∧ !(e.2.rings.isEmpty && e.2.ringClaims.isEmpty) then
        (e.1, { e.2 with rings := mapVals (fun r => { r with claims := moved r.claims }) e.2.rings, ringClaims := mapVals moved e.2.ringClaims })
      else e) }

end Sys2Proof.Machine
end

