-- ==== Sys2Proof/Machine/Tasks.lean ====
section
/-! DEFINITION. What the device keeps about strands and tasks: heats (R270 to R272), fault records (R255, R394), freeing a
cell, and the ends of tasks (R36, R242, R244). -/
namespace Sys2Proof.Machine
open Sys2Proof

/-! Heats. -/

/-- First qualifying heat after v in the cyclic order 1..4095 (R270). -/
def nextHeat (d : Die) (v : Nat) : Nat → Option Nat
  | 0 => none
  | n + 1 =>
    let w := v % 4095 + 1
    if !d.live.contains (BitVec.ofNat 12 w) && (find? d.retired w).isNone then some w else nextHeat d w n

/-- DrawHeat (R270): the heat and the die that holds it live, or none. -/
def drawHeat (d : Die) : Option (Heat × Die) :=
  match nextHeat d d.heatCtr 4095 with
  | none => none
  | some w => some (BitVec.ofNat 12 w, { d with heatCtr := w, live := BitVec.ofNat 12 w :: d.live })

/-- Retire a heat of a die (R271): it awaits reissue from the pass now running; the oldest retired heat stands first. -/
def retireHeat (d : Die) (h : Heat) : Die :=
  if d.live.contains h then
    { d with live := d.live.filter (· ≠ h), retired := d.retired ++ [(h.toNat, d.sweepPass)] } else d

/-- The tagged registers whose heat is not retired. -/
def dropRetired {α : Type} (d : Die) (m : SMap (Tagged α)) : SMap (Tagged α) :=
  m.filter (fun e => match find? m e.1 with | some t => (find? d.retired t.heat.toNat).isNone | none => true)

def quenchEngine (d : Die) (e : EngineState) : EngineState := { e with bregs := dropRetired d e.bregs }

/-- Quench the register units of a cell: every unit that bears a retired heat turns cold, and the residue set loses those
heats (R82, R272). -/
def quenchCell (d : Die) (c : Cell) : Cell :=
  { c with
    A := quenchEngine d c.A, V := quenchEngine d c.V, M := quenchEngine d c.M
    aregs := dropRetired d c.aregs, pregs := dropRetired d c.pregs, kregs := dropRetired d c.kregs
    sregs := dropRetired d c.sregs, vregs := dropRetired d c.vregs, mregs := dropRetired d c.mregs
    accs := dropRetired d c.accs
    bbuf := if (find? d.retired c.bbuf.heat.toNat).isNone then c.bbuf else ⟨0, .zero⟩
    residue := c.residue.filter (fun h => (find? d.retired h.toNat).isNone) }

/-! Read-modify-write functions (R286 Table 3). -/

/-- The new memory value of n bytes; `fadd` rounds under rne and gives the canonical NaN. -/
def rmwApply (op : RmwOp) (n : Nat) (old b expected : Nat) : Nat :=
  let w := 8 * n
  let sg (x : Nat) : Int := (BitVec.ofNat w x).toInt
  (match op with
   | .add => old + b
   | .and => old &&& b
   | .or => old ||| b
   | .xor => old ^^^ b
   | .min => if sg old < sg b then old else b
   | .max => if sg b < sg old then old else b
   | .minn => if old < b then old else b
   | .maxn => if b < old then old else b
   | .swap => b
   | .cas => if old = expected then b else old
   | .fadd => (fadd 24 1 (BitVec.ofNat 32 old) (BitVec.ofNat 32 b) 0).bits.toNat) % 2 ^ w

/-- The old value as rd receives it: sign-extended from a w form but for minn and maxn (R286). -/
def rmwReturn (op : RmwOp) (n old : Nat) : Word :=
  if n = 4 ∧ op ≠ .minn ∧ op ≠ .maxn then sx (BitVec.ofNat 32 old) else BitVec.ofNat 64 old

/-- Perform a read-modify-write of n bytes at a site: the old value and the state, or the refusal. -/
def rmwSite (s : State) (w : Word) (p : Site) (op : RmwOp) (n b expected : Nat) : Except FaultCode (Nat × State) :=
  match readSite s w p n with
  | .error e => .error e
  | .ok bs =>
    match writeSite (noteEcc s w p) p (leBytes (rmwApply op n (ofLe bs) b expected) n) with
    | .error e => .error e
    | .ok t => .ok (ofLe bs, t)

/-- The operation changes memory at its home. -/
def OpKind.writes : OpKind → Bool
  | .store _ _ | .rmw _ _ _ _ | .scatAdd _ _ _ => true
  | _ => false

/-- Rights that an operation needs. -/
def OpKind.need : OpKind → Need
  | .store _ _ => .wr
  | .rmw _ _ _ _ | .scatAdd _ _ _ => .atom
  | _ => .rd

/-- The site of an operation: accepted at issue on its own die, or checked by a remote home now (R231). -/
def opSite (s : State) (ix : Nat) (o : MemOp) (need : Need) : Except FaultCode Site :=
  match o.site with
  | some p => .ok p
  | none =>
    if homeDie o.addr = dieOfCell ix then .error .xlate
    else remoteCheck s (pkgOfCell ix) (s.die (dieOfCell ix)).world o.addr need

/-- Perform a store-like operation at its home; a refused one changes nothing. -/
def performStore (s : State) (ix : Nat) (o : MemOp) : Except FaultCode (Nat × State) :=
  match o.kind with
  | .store data _ =>
    match opSite s ix o .wr with
    | .error e => .error e
    | .ok p =>
      match writeSite (if data.length < 32 then noteEcc s o.addr p else s) p data with
      | .error e => .error e
      | .ok t => .ok (0, t)
  | .rmw op _ data expected =>
    match opSite s ix o .atom with
    | .error e => .error e
    | .ok p => rmwSite s o.addr p op o.len (data.toNat % 2 ^ (8 * o.len)) (expected.toNat % 2 ^ (8 * o.len))
  | .scatAdd op data _ =>
    match opSite s ix o .atom with
    | .error e => .error e
    | .ok p => rmwSite s o.addr p op o.len (data.toNat % 2 ^ (8 * o.len)) 0
  | _ => .ok (0, s)

/-- An element lies outside its bounds: nothing is accessed (R227). -/
def MemOp.outside (s : State) (o : MemOp) : Bool :=
  match o.bound with
  | .none => false
  | .region base elem _ => outsideRegion s base elem o.len
  | .out => true

/-- Two operations are elements of one part of an access: one word, one home (R232). -/
def MemOp.samePart (o x : MemOp) : Bool := x.word == o.word && homeDie x.addr == homeDie o.addr

/-- An operation's home lets it be performed: it has its site, or gets one and its granule is sound (R231, R262). -/
def opStands (s : State) (ix : Nat) (o : MemOp) : Bool :=
  o.site.isSome || ((opSite s ix o o.kind.need).toOption.isSome && (granuleAt s o.addr o.len o.kind.need).isNone)

/-- Every element of a store's part that is still to be performed stands (R232, R262). -/
def partStands (s : State) (ix : Nat) (ops : List MemOp) (o : MemOp) : Bool :=
  ops.all (fun x => !(o.samePart x && x.kind.writes && !x.performed) || x.outside s || opStands s ix x)

/-- Perform the store-like operations of a list that no home has performed yet, in program order (R31: an issued word completes);
`ops` are all the operations of the strand. -/
def drainStores (s : State) (ix : Nat) (ops : List MemOp) : List MemOp → State
  | [] => s
  | o :: os =>
    let t := if o.performed || o.reply.isSome || o.outside s || !partStands s ix ops o then s else
      match performStore s ix o with
      | .ok (_, t) => if o.kind.writes then raiseTime t o.addr o.wtime else t
      | .error _ => s
    drainStores t ix ops os

/-! Task records. -/

def hPkg (h : Word) : Nat := wf64 h 23 19
def hDie (h : Word) : Nat := wf64 h 18 16
def hIndex (h : Word) : Nat := wf64 h 11 0
def handleDie (h : Word) : Nat := hPkg h * 8 + hDie h

/-- The handle of a record (R238 Table 3). -/
def mkHandle (die index : Nat) (gen : BitVec 24) : Word :=
  BitVec.ofNat 64 (gen.toNat * 2 ^ 24 + die / 8 * 2 ^ 19 + die % 8 * 2 ^ 16 + index)

/-- The record a handle names: none when it is stale (R238). -/
def taskOf (s : State) (h : Word) : Option Task :=
  match find? (s.die (handleDie h)).tasks (hIndex h) with
  | none => none
  | some t =>
    if t.state ≠ .free ∧ h = mkHandle (handleDie h) (hIndex h) t.gen then some t else none

def setTask (s : State) (h : Word) (t : Task) : State :=
  s.modDie (handleDie h) (fun d => { d with tasks := insertAt d.tasks (hIndex h) t })

def TaskState.isFinal : TaskState → Bool
  | .complete | .failed | .killed | .free => true
  | _ => false

/-! Fault records (R255 Table 8). -/

/-- STRAND of a cell (R86 Table 7). -/
def strandReg (ix : Nat) (c : Cell) : Word :=
  BitVec.ofNat 64 ((if isCmd ix then 2 ^ 35 else 0) + c.dpoint * 2 ^ 32 + c.cpoint * 2 ^ 16 + ix / 1152 * 2 ^ 11
    + ix / 144 % 8 * 2 ^ 8 + ix % 144 / 24 * 2 ^ 5 + ix % 24)

/-- FAULTC (R87 Table 8). -/
def faultWord (eng : BitVec 2) (code : Nat) (hold : Bool) : BitVec 11 :=
  BitVec.ofNat 11 ((if hold then 1024 else 0) + eng.toNat * 256 + code)

/-- Codes of R196 Table 3. -/
def codeNum : FaultCode → Nat
  | .none => 0 | .illegal => 1 | .priv => 2 | .stallShort => 3 | .qsize => 4 | .slipdead => 5 | .xlate => 6
  | .rxlate => 7 | .perm => 8 | .capfail => 9 | .heattrap => 10 | .align => 11 | .ecc => 12 | .severed => 13
  | .staleTopo => 14 | .watchdog => 15 | .leaselost => 16 | .tagfail => 17 | .fmt => 18 | .brk => 19 | .trapi => 20

/-- A record of a kind about a cell's strand, as the fault with the state's next number. -/
def recordOf (s : State) (ix kind : Nat) (cause : BitVec 11) (value offset : Word) : FaultRecord :=
  let c := s.cell ix
  { cause := BitVec.ofNat 15 (kind * 4096 + cause.toNat), value := value, task := c.handle, strand := strandReg ix c
    heat := c.heat, world := (s.die (dieOfCell ix)).world, time := s.cycle - c.resetAt, offset := offset, fault := s.nextId }

/-- The die whose fault queue takes the records of a cell's strand: the launching die of its task (R36). -/
def recordDie (s : State) (ix : Nat) : Nat :=
  let h := (s.cell ix).handle
  if (taskOf s h).isSome then handleDie h else dieOfCell ix

/-- A record of a kind about a task (kinds 2 to 4) or a die. -/
def recordTask (s : State) (die kind : Nat) (value task : Word) (world : BitVec 16) : FaultRecord :=
  { cause := BitVec.ofNat 15 (kind * 4096), value := value, task := task, strand := 0, heat := 0, world := world
    time := s.cycle - (s.cell (die * 144)).resetAt, offset := 0, fault := 0 }

/-- The 64 bytes of a record (R255 Table 8), disposition 0. -/
def recordBytes (r : FaultRecord) : List Byte :=
  leBytes r.cause.toNat 8 ++ leBytes r.value.toNat 8 ++ leBytes r.task.toNat 8 ++ leBytes r.strand.toNat 8
    ++ leBytes (r.heat.toNat + r.world.toNat * 4096) 8 ++ leBytes r.time 8 ++ leBytes r.offset.toNat 8 ++ leBytes 0 8

/-- The host's copy of a record of a protected world (R394). -/
def redact (r : FaultRecord) : FaultRecord :=
  if r.world = 0 then r
  else { r with cause := r.cause &&& 0x77FF, value := 0, strand := r.strand &&& 0xFFFF, offset := 0 }

/-- Append to the host fault log; a full log drops the record (R394). -/
def appendLog (s : State) (pkg : Nat) (r : FaultRecord) : State :=
  s.modPkg pkg (fun p =>
    if p.logTail + 1 = p.logHead then { p with logDropped := p.logDropped + 1 }
    else { p with log := insertAt p.log p.logTail.toNat r, logTail := p.logTail + 1 })

/-- Header byte of the fault queue at an offset: tail at 0, head at 8 (R255). -/
def fqByte (s : State) (die off : Nat) : Nat :=
  let b := (s.die die).fqbase
  match (regionHeat s b).map (fun h => readVault s h false (b.toNat + off) 1) with
  | some (.ok (x :: _)) => x.toNat
  | _ => 0

/-- A fault queue is registered (R255), and its header lies in a region. A registered queue whose region has been freed counts as none
(R262 lets nothing reach its memory, and no rule names the case; DESIGN CHOICE, notes/assumptions/68.md). -/
def fqOpen (s : State) (die : Nat) : Bool := (s.die die).fqbase != 0 && (regionHeat s (s.die die).fqbase).isSome

/-- The ring has room for one more record; with no queue registered it counts as full (R255). -/
def fqRoom (s : State) (die : Nat) : Bool := fqOpen s die && (fqByte s die 0 + 1) % 256 != fqByte s die 8

/-- Set a cell's event latch (R193). -/
def setLatch (s : State) (ix : Nat) : State := s.modCell ix (fun c => { c with latch := true })

/-- Write a record into the ring: the record, the tail, the command cell's latch and the host's copy (R255, R394). -/
def fqStore (s : State) (die : Nat) (r : FaultRecord) : State :=
  let b := (s.die die).fqbase
  let i := fqByte s die 0
  let w := b + BitVec.ofNat 64 (32 + 64 * i)
  let s1 := putRegion (putRegion s w ((recordBytes r).take 32)) (w + 32) ((recordBytes r).drop 32)
  let s2 := putRegion s1 b [BitVec.ofNat 8 (i + 1)]
  let s3 := s2.modDie die (fun d => { d with fqRecords := insertAt d.fqRecords i r })
  appendLog (setLatch s3 (die * 144)) (pkgOfDie die) (redact r)

/-- A record goes to the die's fault queue, or waits in the dispatcher. A strand waits before a seventeenth record of a fault of its
own is made (`recordRoom`), and a watchdog or kill record waits beyond the sixteen (R255). Records of kinds 3 to 5 wait beyond them as
well (R255 does not say; DESIGN CHOICE, notes/assumptions/68.md). -/
def appendRecord (s : State) (die : Nat) (r : FaultRecord) : State :=
  if fqRoom s die && (s.die die).faultWait.isEmpty then fqStore s die r
  else s.modDie die (fun d => { d with faultWait := d.faultWait ++ [r] })

/-- A strand's record finds room in the ring or in the dispatcher (R255). -/
def recordRoom (s : State) (die : Nat) : Bool := fqRoom s die || decide ((s.die die).faultWait.length < 16)

/-- Append the waiting records, in order, while there is room (R255). -/
def flushRecords (s : State) (die : Nat) : Nat → State
  | 0 => s
  | n + 1 =>
    match (s.die die).faultWait with
    | [] => s
    | r :: rs =>
      if fqRoom s die then flushRecords (fqStore (s.modDie die (fun d => { d with faultWait := rs })) die r) die n else s

/-! Leaving a cell. -/

/-- The blocks that loads of a strand still in flight will fill: operation, entry and block (R34). -/
def lostLoads (s : State) (c : Cell) : List (Nat × Nat × Nat) :=
  c.lost ++ c.ops.flatMap (fun o =>
    match o.kind with
    | .fill e _ off _ => [(o.id, e, off / 32)]
    | .pool =>
      match s.reqs.find? (·.id == o.id) with
      | some r => (match r.op with | .read e b n _ => (List.range n).map (fun k => (o.id, e, b + k)) | _ => [])
      | none => []
    | _ => [])

/-- The cell after its strand has left: only what is not the strand's stays (R22, R83, R208, R272). -/
def vacant (d : Die) (c : Cell) : Cell :=
  let q := quenchCell d c
  { Cell.reset with
    aregs := q.aregs, pregs := q.pregs, kregs := q.kregs, sregs := q.sregs, vregs := q.vregs, mregs := q.mregs
    accs := q.accs, bbuf := q.bbuf, residue := q.residue, resetAt := c.resetAt, tlb := c.tlb, lost := c.lost
    A := { EngineState.reset with bregs := q.A.bregs }
    V := { EngineState.reset with bregs := q.V.bregs }
    M := { EngineState.reset with bregs := q.M.bregs } }

/-- Free a cell: its issued stores complete, the blocks of its loads in flight stay taken until their data arrive, its copies lose
their tags, its reserved stow slot and route tag return. -/
def freeCell (s : State) (ix : Nat) : State :=
  let die := dieOfCell ix
  let c := s.cell ix
  let s1 := moveClaims (leaveRing (drainStores s ix c.ops c.ops) ix) (pkgOfCell ix) ix none
  let s2 := s1.modDie die (fun d => { d with
    copies := d.copies.map (fun k => if k.cell = ix then { k with orphan := true } else k)
    reserved := dropKey d.reserved ix })
  let s3 := s2.setCell ix (vacant (s2.die die) { c with lost := lostLoads s c })
  if s3.cells.any (fun e => e.1 / 144 == die && !isCmd e.1 && e.2.status != .idle && e.2.handle == c.handle && e.1 != ix) then s3
  else s3.modDie die (fun d => { d with routes := d.routes.filter (fun r => r.2 ≠ c.handle) })

/-- Free every cell of a list. -/
def freeCells (s : State) : List Nat → State
  | [] => s
  | ix :: r => freeCells (freeCell s ix) r

/-- The cells of a package that run strands of a task. -/
def cellsOf (s : State) (h : Word) : List Nat :=
  (s.cells.filter (fun e => e.2.handle == h && e.1 / 1152 == hPkg h && e.2.status ≠ .idle && !isCmd e.1)).map (·.1)

/-- Clear the mark of a stow slot region (R351 sheld, sindex). -/
def markSlot (d : Die) (slot : Nat) (held : Bool) (index : Nat) : Die :=
  { d with regions := d.regions.map (fun e =>
      if e.1 = slot then (e.1, { e.2 with sheld := held, sindex := if held then index else 0 }) else e) }

/-- The key under which copies of a stowed strand are kept. -/
def stowKey (slot : Nat) : Nat := 1000000 + slot

/-- What stowed strands that are discarded leave behind: their issued stores complete, their parked reads are given up (R31, R36). -/
def dropStowed (s : State) : List Stowed → State
  | [] => s
  | x :: xs =>
    let t := drainStores s x.cell x.ctx.ops x.ctx.ops
    dropStowed { t with reqs := t.reqs.filter (fun r => !(r.stage == .parked && x.ctx.ops.any (·.id == r.id))) } xs

/-- Remove a task's strands, entries, heats and barrier records from one die; the heat of a share that has completed there is retired
already (R21, R36, R244, R303). -/
def purgeDie (s : State) (die : Nat) (h : Word) (t : Task) : State :=
  let gone := (s.die die).stowed.filter (fun x => x.handle == h)
  (dropStowed s gone).modDie die (fun d =>
    let d1 := gone.foldl (fun d x => markSlot d x.slot false 0) d
    let d2 := match (if t.dcomp.getLsbD (die % 8) then none else find? t.heats (die % 8)) with
      | some ht => retireHeat d1 ht
      | none => d1
    { d2 with stowed := d2.stowed.filter (fun x => x.handle ≠ h), ready := d2.ready.filter (fun e => e.handle ≠ h)
              grants := d2.grants.filter (fun e => e.handle ≠ h)
              restoring := d2.restoring.filter (fun e => e.handle ≠ h), routes := d2.routes.filter (fun e => e.2 ≠ h)
              copies := d2.copies.map (fun k => if gone.any (fun x => k.cell == stowKey x.slot) then { k with orphan := true } else k)
              barriers := d2.barriers.filter (fun e => e.1 / 128 ≠ h.toNat) })

def purgeDies (s : State) (h : Word) (t : Task) : Nat → State
  | 0 => s
  | n + 1 => purgeDies (purgeDie s (hPkg h * 8 + n) h t) h t n

/-- End a task as failed or killed: its strands are discarded, its heats retired, its record final (R36, R244). -/
def endTask (s : State) (h : Word) (t : Task) (st : TaskState) : State :=
  let s1 := freeCells s (cellsOf s h)
  let s2 := purgeDies s1 h t 8
  setTask s2 h { t with state := st, final := s.cycle, stowed := false, request := 0, succs := [] }

/-- Fail(S, kind 3) for a list of successors, cascading (R242): each waiting task fails with a record naming its cause. -/
def failAll (s : State) : Nat → List (Word × Word) → State
  | _, [] => s
  | 0, _ => s
  | n + 1, (h, cause) :: rest =>
    match taskOf s h with
    | some t =>
      if t.state = .waiting then
        let s1 := endTask s h t .failed
        let s2 := appendRecord s1 (handleDie h) (recordTask s (handleDie h) 3 cause h t.world)
        failAll s2 n (t.succs.map (fun x => (x, h)) ++ rest)
      else failAll s n rest
    | none => failAll s n rest

/-- Bound on the number of failures one failure can cause: every record of every die. -/
def cascadeFuel : Nat := 4000000

/-- A task fails (R36): its strands go, its heats retire, its successors fail. -/
def failTask (s : State) (h : Word) : State :=
  match taskOf s h with
  | some t => if t.state.isFinal then s else failAll (endTask s h t .failed) cascadeFuel (t.succs.map (fun x => (x, h)))
  | none => s

/-- A task is killed (R244): as a failure, with one record of kind 2 at the launching die. -/
def killTask (s : State) (h : Word) (record : Bool) : State :=
  match taskOf s h with
  | some t =>
    if t.state.isFinal then s
    else
      let s1 := endTask s h t .killed
      let s2 := if record then appendRecord s1 (handleDie h) (recordTask s (handleDie h) 2 h h t.world) else s1
      failAll s2 cascadeFuel (t.succs.map (fun x => (x, h)))
  | none => s

/-- The region of a die whose base an entry of its stow slot list names, if it is a stow slot: its key and itself; 0 names none
(R353). -/
def slotRegion (d : Die) (die : Nat) (w : Word) : Option (Nat × Region) :=
  if w = 0 ∨ homeDie w ≠ die ∨ !addrOk w ∨ !aVault w then none
  else
    match regionAt d (vaultOf w) (vaultByte w) with
    | some (k, r) => if r.stow && r.base * 1024 == vaultByte w then some (k, r) else none
    | none => none

/-- The stow slot list that a decision of a cycle reads: a store of the same cycle is not seen (R353). -/
def Die.slotsSeen (d : Die) (cycle : Nat) : SMap Word :=
  match d.slotsWas with
  | some (c, m) => if c = cycle then m else d.slots
  | none => d.slots

/-- The stow slots of a die that are free and unreserved, in entry order (R205, R353), by region key. -/
def freeSlots (d : Die) (die cycle : Nat) : List Nat :=
  ((d.slotsSeen cycle).filterMap (fun e =>
    match slotRegion d die e.2 with
    | some (k, r) => if !r.sheld && !(d.reserved.any (fun x => x.2 == k)) then some k else none
    | none => none)).eraseDups

/-- Reserve the first free slot for a strand cell (R205), if there is one. -/
def reserveSlot (d : Die) (ix cycle : Nat) : Option Die :=
  match freeSlots d (ix / 144) cycle with
  | [] => none
  | k :: _ => some { d with reserved := insertAt d.reserved ix k }

end Sys2Proof.Machine
end

