-- ==== Sys2Proof/Machine/Ops.lean ====
section
/-! DEFINITION. The named operations over a cell's registers and engines, taking an exception and returning from one
(R191, R197 to R199), and the order in which every A, V and M word is issued (R27, R41, R66, R91, R136, R164). -/
namespace Sys2Proof.Machine
open Sys2Proof

/-- What a meaning answers. -/
abbrev Out := Host.Outcome State Fault Refusal

/-! Registers (R79, R80). -/

/-- ReadReg of a heat-tagged register under heat h (R80). -/
def readTag {α : Type} (h : Heat) (stale : α) (m : SMap (Tagged α)) (k : Nat) : α :=
  match find? m k with
  | some t => if t.heat = h then t.val else stale
  | none => stale

/-- WriteReg of a whole register (R80). -/
def writeTag {α : Type} (h : Heat) (m : SMap (Tagged α)) (k : Nat) (x : α) : SMap (Tagged α) := insertAt m k ⟨h, x⟩

def Cell.readA (c : Cell) (r : Nat) : Word := if r = 0 then 0 else readTag c.heat 0 c.aregs r
def Cell.writeA (c : Cell) (r : Nat) (x : Word) : Cell := if r = 0 then c else { c with aregs := writeTag c.heat c.aregs r x }
def Cell.readP (c : Cell) (p : Nat) : Bool := if p = 0 then true else readTag c.heat false c.pregs p
def Cell.writeP (c : Cell) (p : Nat) (x : Bool) : Cell := if p = 0 then c else { c with pregs := writeTag c.heat c.pregs p x }
def Cell.readK (c : Cell) (k : Nat) : Cap := readTag c.heat 0 c.kregs k
def Cell.writeK (c : Cell) (k : Nat) (x : Cap) : Cell := { c with kregs := writeTag c.heat c.kregs k x }
def Cell.readS (c : Cell) (n : Nat) : Stream := readTag c.heat Stream.zero c.sregs n
def Cell.writeS (c : Cell) (n : Nat) (x : Stream) : Cell := { c with sregs := writeTag c.heat c.sregs n x }
def Cell.readM (c : Cell) (k : Nat) : BitVec 128 := if k = 0 then BitVec.allOnes 128 else readTag c.heat 0 c.mregs k
def Cell.readV (c : Cell) (v : Nat) : List Lane := readTag c.heat [] c.vregs v

/-- Lane i of a vector value; lanes that are not listed are 0. -/
def laneOf (v : List Lane) (i : Nat) : Lane := v.getD i 0

/-- WriteReg of the lanes of a mask: a register under another heat reads zero in the lanes not written (R80). -/
def Cell.writeV (c : Cell) (v : Nat) (lanes : BitVec 128) (xs : List Lane) : Cell :=
  let old := c.readV v
  let new := (List.range 128).map (fun i => if lanes.getLsbD i then laneOf xs i else laneOf old i)
  { c with vregs := writeTag c.heat c.vregs v new }

/-- Write the active bits of a mask register; m0 discards (R79, R137). -/
def Cell.writeM (c : Cell) (k : Nat) (lanes bits : BitVec 128) : Cell :=
  if k = 0 then c
  else { c with mregs := writeTag c.heat c.mregs k ((bits &&& lanes) ||| (c.readM k &&& ~~~lanes)) }

/-- HEATR of a command cell, which runs no strand and draws no heat (R270); it is not 0 (R82, notes/assumptions/5.md). -/
def commandHeat : Heat := 0xFFF

/-! Engines. -/

def Cell.engine (c : Cell) : Engine → EngineState
  | .A => c.A
  | .V => c.V
  | .M => c.M

def Cell.setEngine (c : Cell) (e : Engine) (x : EngineState) : Cell :=
  match e with
  | .A => { c with A := x }
  | .V => { c with V := x }
  | .M => { c with M := x }

def Cell.modEngine (c : Cell) (e : Engine) (f : EngineState → EngineState) : Cell := c.setEngine e (f (c.engine e))

def engNo : Engine → BitVec 2
  | .A => 0
  | .V => 1
  | .M => 2

def Cell.readB (c : Cell) (e : Engine) (n : Nat) : Word := readTag c.heat 0 (c.engine e).bregs n
def Cell.writeB (c : Cell) (e : Engine) (n : Nat) (x : Word) : Cell :=
  c.modEngine e (fun g => { g with bregs := writeTag c.heat g.bregs n x })

/-- An engine's counter of a level; level 6 reads 0 (R17, R47). -/
def EngineState.level (g : EngineState) (l : Nat) : Nat := if 6 ≤ l then 0 else (lookup 0 g.lcnt l).toNat

/-- The cell in focus. -/
def State.me (s : State) : Nat := cellIx s.focus
def State.cur (s : State) : Cell := s.cell s.me
def State.upd (s : State) (f : Cell → Cell) : State := s.modCell s.me f
def State.myDie (s : State) : Nat := dieOfCell s.me
def State.myPkg (s : State) : Nat := pkgOfCell s.me

/-- pc of an engine of the cell in focus. -/
def State.pcOf (s : State) (e : Engine) : Word := (s.cur.engine e).pc

/-! Shared registers (R27): p1-p15 are 1-15, b0-b7 16-23, the trip counts 24-29, VCTL 30, FMTBASE 31. The words that write
ENGCTL are counted in the same way under number 32, but nothing waits for them (R86). -/

def shB (n : Nat) : Nat := 16 + n
def shTrip (l : Nat) : Nat := 24 + l
def shVctl : Nat := 30
def shFmt : Nat := 31
def shEng : Nat := 32

def Cell.expects (c : Cell) (e : Engine) (x : Nat) : Nat := lookup 0 (c.engine e).expect x
def Cell.version (c : Cell) (x : Nat) : Nat := lookup 0 c.versions x

/-- Engine e may read shared register x (R27); p0 is no shared register. -/
def Cell.mayRead (c : Cell) (e : Engine) (x : Nat) : Bool := x == 0 || c.version x == c.expects e x

/-- Engine w may write shared register x (R27): its count is the last, and every other engine has walked past the write. -/
def Cell.mayWrite (c : Cell) (w : Engine) (x : Nat) : Bool :=
  x == 0 || x == shEng || (c.version x == c.expects w x &&
    [Engine.A, .V, .M].all (fun e => e == w || decide (c.expects w x + 1 ≤ c.expects e x)))

/-- Engine e passes a word whose destination is x (R27). -/
def Cell.bump (c : Cell) (e : Engine) (x : Nat) : Cell :=
  if x = 0 then c else c.modEngine e (fun g => { g with expect := insertAt g.expect x (lookup 0 g.expect x + 1) })

/-- The write of x by engine e takes place: W[x] becomes the engine's count (R27). -/
def Cell.publish (c : Cell) (e : Engine) (x : Nat) : Cell :=
  if x = 0 then c else { c with versions := insertAt c.versions x (c.expects e x) }

/-- ENGCTL as it governs the words of engine e (R86): the value before the first `mtsr` that the engine has not passed in text. -/
def Cell.engctlOf (c : Cell) (e : Engine) : BitVec 3 :=
  c.engPast.foldl (fun v x => if c.expects e shEng < x.1 then x.2 else v) c.engctl

/-- ENGCTL takes the value of the n-th word that writes it (R86, R102); the values that V and M may still meet are kept. -/
def Cell.setEngctl (c : Cell) (n : Nat) (v : BitVec 3) : Cell :=
  let kept := ((n, c.engctl) :: c.engPast).filter (fun x => decide (c.expects .V shEng < x.1) || decide (c.expects .M shEng < x.1))
  { c with engctl := v, engPast := kept }

/-- A wait on a shared register is internal (R28), but one on p15 while a pop or a barrier will write it is external. -/
def Cell.shWait (c : Cell) (x : Nat) : WaitKind := if x = 15 ∧ c.pendP15 then .external else .internal

/-! What an A word comes to. -/

/-- The outcome of the effect of an A word: done; done but for a shared result that lands later; the pc already moved; a
wait; a stopping fault at the word; a stopping fault with the pc after the word (R190); a local translation miss at an
address, with the state in which the word has been issued up to it (R198); or a stopping fault after an effect (R312). -/
inductive Res where
  | done (s : State)
  | later (s : State)
  | jump (s : State)
  | stay (w : WaitKind) (s : State)
  | trap (code : FaultCode) (val : Word)
  | trapNext (code : FaultCode) (val : Word)
  | hold (addr : Word) (word : Nat) (s : State)
  | trapWith (s : State) (code : FaultCode) (val : Word)

/-! Faults. -/

/-- Save what an engine needs to resume, its stall count as the cycles that remain (R191). -/
def saveEngine (cycle : Nat) (g : EngineState) : EngineState := { g with nextIssue := g.nextIssue - cycle, wait := .none }

/-- Resume an engine that was saved. -/
def resumeEngine (cycle : Nat) (g : EngineState) : EngineState := { g with nextIssue := g.nextIssue + cycle, wait := .none }

/-- An engine starts a handler as at dispatch, with its b registers as they stand (R191). -/
def handlerEngine (h : Word) (g : EngineState) : EngineState := { EngineState.reset with pc := h, bregs := g.bregs }

/-- The elements of a held access that wait with it: its own-die miss and all that follow it (R198, R230). -/
def Cell.heldOps (c : Cell) (ix : Nat) : List MemOp :=
  match c.fault with
  | none => []
  | some h => (c.ops.filter (fun o => o.word == h.word && !o.reissue)).dropWhile (fun o =>
      o.site.isSome || o.bound == .out || !isLocal ix o.addr)

/-- The entries of queues that a word has popped, with their queues, and the stream that it has moved. -/
def undoOf (before after : Cell) : List (Nat × QEntry) × Option (Nat × Stream) :=
  ((List.range 16).flatMap (fun q => ((lookup [] before.queues q).filter (fun e =>
      !(lookup [] after.queues q).any (fun x => x.id == e.id))).map (fun e => (q, e))),
   ((List.range 8).find? (fun n => before.readS n != after.readS n)).map (fun n => (n, before.readS n)))

/-- A word that waits for the response to a read of its own (`kinf`, R111) gives it up: the word is executed again from its start. -/
def giveUpJoined (s : State) (ix : Nat) : State :=
  let mine (id : Nat) : Bool := (s.cell ix).joined == some id
  { s with reqs := s.reqs.filter (fun r => !mine r.id) }.modCell ix (fun c => { c with
    ops := c.ops.filter (fun o => !mine o.id), joined := none })

/-- Enter the fault handler of a command cell, or stop the cell if it is in its handler (R191). -/
def commandTrap (s0 : State) (ix : Nat) (fc : BitVec 11) (val : Word) : State :=
  let s := giveUpJoined (leaveRing s0 ix) ix
  let c := { s.cell ix with faultc := fc, faultv := val }
  if c.inHandler then s.setCell ix { c with status := .stopped, dieStopped := true }
  else
    let h := (s.die (dieOfCell ix)).handler
    let held := c.heldOps ix
    { s with nextId := s.nextId + 1 }.setCell ix { c with
      saved := some ⟨saveEngine s.cycle c.A, saveEngine s.cycle c.V, saveEngine s.cycle c.M, c.versions, s.nextId, c.barWait, c.arrived,
        c.granted, c.engPast, c.fault, held⟩
      A := handlerEngine h c.A, V := handlerEngine h c.V, M := handlerEngine h c.M
      ops := c.ops.filter (fun o => !held.any (·.id == o.id)), fault := none, engPast := [], arrived := []
      versions := [], inHandler := true, barWait := none, joined := none, granted := none, internalFor := 0 }

/-- The record of a strand's stopping fault has room: FAULTC, FAULTV and the record, then the way to its stow: the slot already
reserved for it, or a free and unreserved one (R205); with none its task fails (R199). A held XLATE stays held (R202). -/
def stopWith (s : State) (ix : Nat) (x : FaultRecord) : State :=
  let die := dieOfCell ix
  let s1 := (appendRecord s (recordDie s ix) x).modCell ix (fun c => { c with
    status := .halting, faultc := x.cause.setWidth 11, faultv := x.value, preempt := some .fault, stuck := none, stopped := x.fault })
  if ((s1.die die).reserved.any (fun y => y.1 == ix)) then s1
  else
    match reserveSlot (s1.die die) ix s.cycle with
    | some d => s1.setDie die d
    | none => freeCell (failTask s1 (s1.cell ix).handle) ix

/-- A fault of a strand waits, and the strand with it, until its record finds room (R255). -/
def awaitRoom (s : State) (ix : Nat) (k : Stuck) : State := s.modCell ix (fun c => { c with status := .held, stuck := some k })

/-- Stop a strand (R29, R199, R255). -/
def stopStrand (s : State) (ix : Nat) (eng : BitVec 2) (code : FaultCode) (val offset : Word) : State :=
  let x := recordOf s ix 0 (faultWord eng (codeNum code) false) val offset
  let s1 : State := { s with nextId := s.nextId + 1 }
  if recordRoom s (recordDie s ix) then stopWith s1 ix x else awaitRoom s1 ix ⟨x, none, false⟩

/-- Byte offset of a word from the kernel entry (R255 Table 8). -/
def offsetOf (c : Cell) (eng : BitVec 2) : Word :=
  if eng = 3 then 0 else (match eng.toNat with | 0 => c.A.pc | 1 => c.V.pc | _ => c.M.pc) - c.entry

/-- TAKING AN EXCEPTION: a stopping fault of a cell with its engine number, code, value and the offset of its word (R29, R191, R199). -/
def takeFaultAt (s : State) (ix : Nat) (eng : BitVec 2) (code : FaultCode) (val offset : Word) : State :=
  if isCmd ix then commandTrap s ix (faultWord eng (codeNum code) false) val else stopStrand s ix eng code val offset

/-- A stopping fault at the word at which its engine stands. -/
def takeFault (s : State) (ix : Nat) (eng : BitVec 2) (code : FaultCode) (val : Word) : State :=
  takeFaultAt s ix eng code val (offsetOf (s.cell ix) eng)

/-- The record of a holding XLATE has room: FAULTC, FAULTV and the record, and the A engine halts (R198); a strand that a pre-emption has
asked to halt meanwhile goes on to its stow. -/
def holdWith (s : State) (ix : Nat) (x : FaultRecord) (h : Held) : State :=
  (appendRecord s (recordDie s ix) x).modCell ix (fun c => { c with
    status := if c.preempt.isSome then .halting else .running, faultc := x.cause.setWidth 11, faultv := x.value, fault := some h, stuck := none })

/-- A holding XLATE (R198): on a strand cell the A engine halts and a record is written; on a command cell the handler is
entered, and the elements from the faulting one on wait for its `eret` (R191). -/
def holdFault (s : State) (ix : Nat) (h0 : Held) (offset : Word) : State :=
  let fc := faultWord 0 (codeNum .xlate) true
  let h : Held := { h0 with fault := s.nextId }
  let s1 : State := { s with nextId := s.nextId + 1 }
  if isCmd ix then commandTrap (s1.modCell ix (fun c => { c with fault := some h })) ix fc h.addr
  else
    let x := recordOf s ix 0 fc h.addr offset
    if recordRoom s (recordDie s ix) then holdWith s1 ix x h else awaitRoom s1 ix ⟨x, some h, false⟩

/-- A handler's own results for shared registers that have not landed: `mpany` and `mpall` (R139), and pops (R290). Its `eret` waits for
them, so that the counts it restores are not theirs to advance (R191 does not speak of them; DESIGN CHOICE, notes/assumptions/67.md). -/
def handlerOpen (s : State) (sv : Saved) : Bool :=
  s.cur.landings.any (fun l => decide (sv.before ≤ l.seq) && (match l.what with | .pred _ _ => true | _ => false))
    || s.reqs.any (fun r => decide (sv.before ≤ r.id) && s.cur.ops.any (·.id == r.id) && (match r.op with | .pop _ => true | _ => false))

/-- RETURN FROM AN EXCEPTION (R191): everything saved is restored and each engine returns to its saved pc; a held XLATE is
tried again from its element. -/
def returnFromFault (s : State) (sv : Saved) : State :=
  s.upd (fun c => { c with
    A := { resumeEngine s.cycle sv.A with bregs := c.A.bregs }
    V := { resumeEngine s.cycle sv.V with bregs := c.V.bregs }
    M := { resumeEngine s.cycle sv.M with bregs := c.M.bregs }
    versions := sv.versions, saved := none, inHandler := false, barWait := sv.barWait, granted := sv.granted, joined := none
    arrived := sv.arrived, engPast := sv.engPast, fault := sv.fault, ops := sv.ops ++ c.ops })

/-- A fault of an engine of the cell in focus at the word it stands at. -/
def faultHere (s : State) (e : Engine) (code : FaultCode) (val : Word) : State := takeFault s s.me (engNo e) code val

/-! Issue. -/

/-- An engine of the cell in focus waits at its word. -/
def setWait (s : State) (e : Engine) (w : WaitKind) : State := s.upd (fun c => c.modEngine e (fun g => { g with wait := w }))

/-- A cell whose engine e has issued a word in a cycle: the pc passes it, the stall count runs, IRET counts it (R51, R83). -/
def Cell.retire (c : Cell) (e : Engine) (cycle words stall : Nat) (move : Bool) : Cell :=
  { c.modEngine e (fun g => { g with
      pc := if move then g.pc + BitVec.ofNat 64 (4 * words) else g.pc
      nextIssue := max g.nextIssue (cycle + max 1 stall), wait := .none }) with iret := c.iret + 1 }

/-- A word of engine e of the cell in focus has issued; on a strand cell the die's counter counts it too (R382). -/
def retireWord (s : State) (e : Engine) (words stall : Nat) (move : Bool) : State :=
  let s1 := s.upd (fun c => c.retire e s.cycle words stall move)
  if isCmd s.me then s1 else s1.count s.myDie (1 + (engNo e).toNat)

/-- What an A word names besides its effect: guard, command-mode only, shared registers it reads and the one it writes,
a- and k-registers it reads or writes, and whether it accesses memory (R66, R27, R91, R315). -/
structure AInfo where
  pg     : BitVec 4
  cm     : Bool := false
  reads  : List Nat := []
  dest   : Nat := 0
  aregs  : List Nat := []
  kregs  : List Nat := []
  access : Bool := false

/-- The registers of an A word hold the values of the last earlier words that write them (R91). -/
def aReady (c : Cell) (i : AInfo) : Bool :=
  i.aregs.all (fun r => r == 0 || !c.pendA.contains r) && i.kregs.all (fun k => !c.pendK.contains k)

/-- The word passes its destination, and its write is made or, guard false, leaves the value (R27, R41). -/
def passDest (s : State) (e : Engine) (x : Nat) : State := s.upd (fun c => (c.bump e x).publish e x)

/-- What becomes of an A word whose guard is true. -/
def settle (i : AInfo) (s : State) : Res → State
  | .done t => retireWord (passDest t .A i.dest) .A 1 1 true
  | .later t => retireWord (t.upd (fun c => c.bump .A i.dest)) .A 1 1 true
  | .jump t => retireWord t .A 1 1 false
  | .stay w t => setWait t .A w
  | .trap code v => faultHere s .A code v
  | .trapNext code v =>
    let off := offsetOf s.cur 0
    let t := retireWord s .A 1 1 true
    if isCmd s.me then commandTrap t s.me (faultWord 0 (codeNum code) false) v else stopStrand t s.me 0 code v off
  | .trapWith t code v => faultHere t .A code v
  | .hold a w t =>
    let (popped, stream) := undoOf s.cur t.cur
    holdFault (retireWord (passDest t .A i.dest) .A 1 1 true) s.me ⟨a, s.cur.A.pc, w, 0, popped, stream⟩ (offsetOf s.cur 0)

/-- THE ISSUE OF AN A WORD: mode, guard, shared registers, a- and k-registers, then its effect (R66, R27, R41, R91). -/
def aStep (i : AInfo) (body : State → Res) (s : State) : State :=
  let c := s.cur
  if i.cm && !isCmd s.me then faultHere s .A .priv c.A.pc
  else
    match (i.pg.toNat :: i.reads).find? (fun x => !c.mayRead .A x) with
    | some x => setWait s .A (c.shWait x)
    | none =>
      if !c.mayWrite .A i.dest then setWait s .A (c.shWait i.dest)
      else if !aReady c i then setWait s .A .external
      else if !c.readP i.pg.toNat then retireWord (passDest s .A i.dest) .A 1 1 true
      else if i.access && !c.acquire.isEmpty then setWait s .A .external
      else settle i s (body s)

/-- The outcome of an A word. -/
def aWord (i : AInfo) (body : State → Res) (s : State) : Out := .next (aStep i body s)

/-- A result of number n that lands later than its word issued becomes the value its readers wait for (R27); one of a word that
stood before the trap of a command cell counts among the saved versions (R191). None of a handler's own lands after its `eret`, which waits
for them (`handlerOpen`). -/
def Cell.landShared (c : Cell) (n x : Nat) : Cell :=
  let raise (m : SMap Nat) : SMap Nat := insertAt m x (lookup 0 m x + 1)
  if x = 0 then c
  else
    match c.saved with
    | some sv => if n < sv.before then { c with saved := some { sv with versions := raise sv.versions } } else { c with versions := raise c.versions }
    | none => { c with versions := raise c.versions }

/-- Write an a-register of the cell in focus. -/
def putA (s : State) (r : Nat) (x : Word) : State := s.upd (fun c => c.writeA r x)
/-- Write a predicate of the cell in focus. -/
def putP (s : State) (p : Nat) (x : Bool) : State := s.upd (fun c => c.writeP p x)
/-- Write a k-register of the cell in focus. -/
def putK (s : State) (k : Nat) (x : Cap) : State := s.upd (fun c => c.writeK k x)

/-- Mark an a-register as pending (R91). -/
def Cell.pend (c : Cell) (r : Nat) : Cell := if r = 0 then c else { c with pendA := r :: c.pendA }
def Cell.unpend (c : Cell) (r : Nat) : Cell := { c with pendA := c.pendA.erase r }

/-- Set bits of AST in a cycle, and note them: a clear of the same cycle leaves them set (R85). -/
def Cell.raiseAst (c : Cell) (cycle : Nat) (b : BitVec 12) : Cell :=
  { c with ast := c.ast ||| b, astSet := (if c.astAt = cycle then c.astSet else 0) ||| b, astAt := cycle }

/-- Clear bits of AST in a cycle (R85). -/
def Cell.clearAst (c : Cell) (cycle : Nat) (b : BitVec 12) : Cell :=
  { c with ast := (c.ast &&& ~~~b) ||| (if c.astAt = cycle then c.astSet else 0) }

/-- Set bits of AST of the cell in focus. -/
def setAst (s : State) (b : BitVec 12) : State := s.upd (fun c => c.raiseAst s.cycle b)

/-- An A word that computes a value for rd from a-registers (R93). -/
def aluWord (pg : BitVec 4) (srcs : List Nat) (rd : Nat) (f : Cell → Word) (s : State) : Out :=
  aWord { pg := pg, aregs := rd :: srcs } (fun s => .done (putA s rd (f s.cur))) s

/-! The stochastic generators: V lane i is generator i, M column i is 128 + i (R127, R128). Generator i of the e-th seeding
has key 256 e + i; a generator that has not stepped is absent. -/

/-- State of generator i of a seeding. -/
def Cell.generator (c : Cell) (epoch : Nat) (seed : BitVec 32) (i : Nat) : BitVec 32 :=
  lookup (genSeed seed (i % 128)) c.gens (256 * epoch + i)

/-- A drain still reads rows under an older seeding. -/
def drainLeft (c : Cell) : Bool :=
  c.landings.any (fun l => match l.what with | .drainRead .. => true | _ => false)

/-- A write of VCTL seeds every generator again (R128); a drain under way keeps the sequence it began with. -/
def Cell.reseed (c : Cell) (v : Word) : Cell :=
  { c with vctl := v, epoch := c.epoch + 1, gens := if drainLeft c then c.gens else [] }

/-! V and M words. -/

/-- What a V or M word comes to. -/
inductive VRes where
  | done (s : State)
  | stay (w : WaitKind)
  | trap (code : FaultCode)

/-- THE ISSUE OF A V OR M WORD of `words` parcels: guard, the shared register it writes, those it reads if its guard is true,
then its effect (R27, R41, R51, R136, R164). -/
def vStep (e : Engine) (pg : BitVec 4) (words stall : Nat) (reads : List Nat) (dest : Nat) (body : State → VRes) (s : State) : State :=
  let c := s.cur
  if !c.mayRead e pg.toNat then setWait s e (c.shWait pg.toNat)
  else if !c.mayWrite e dest then setWait s e (c.shWait dest)
  else if !c.readP pg.toNat then retireWord (passDest s e dest) e words stall true
  else
    match reads.find? (fun x => !c.mayRead e x) with
    | some x => setWait s e (c.shWait x)
    | none =>
      match body s with
      | .done t => retireWord (t.upd (fun c => c.bump e dest)) e words stall true
      | .stay w => setWait s e w
      | .trap code => faultHere s e code (c.engine e).pc

/-- A result lands `lat` cycles after the word's issue (R139, R161). -/
def addLanding (s : State) (lat : Nat) (k : LandKind) : State :=
  let (n, s1) := s.fresh
  s1.upd (fun c => { c with landings := c.landings ++ [⟨s.cycle + lat, n, k⟩] })

end Sys2Proof.Machine
end

