-- ==== Sys2Proof/Machine/Operands.lean ====
section
/-! DEFINITION. Operand forms: the shared register a word writes (R27), data-queue entries and the buffer pool
(R209 to R214), and address operands (R42, R44). -/
namespace Sys2Proof.Machine
open Sys2Proof

/-- The shared register a word's destination is, 0 where it has none (R27): a predicate, a b-register of `mtb`, a trip count,
VCTL, FMTBASE, or ENGCTL for its count of R86. -/
def destOf : Instr → Nat
  | .cmp _ _ _ _ e => e.toNat
  | .cmpAnd _ _ _ _ e => e.toNat
  | .cmpOr _ _ _ _ e => e.toNat
  | .cmpi _ _ _ _ e => e.toNat
  | .pand _ _ _ e => e.toNat
  | .por _ _ _ e => e.toNat
  | .pxor _ _ _ e => e.toNat
  | .pandn _ _ _ e => e.toNat
  | .pset _ _ e => e.toNat
  | .mtsr _ r _ => if r = 0x07 then shVctl else if r = 0x0B then shFmt else if r = 0 then shEng else 0
  | .mtb _ _ b => shB b.toNat
  | .ltrip _ _ l => if l.toNat < 6 then shTrip l.toNat else 0
  | .ppop _ _ _ => 15
  | .mpany f => dIndex f.D
  | .mpall f => dIndex f.D
  | .barWait _ _ => 15
  | .barSync _ _ => 15
  | _ => 0

/-! Address operands. -/

/-- Base register plus a scaled signed offset (R44). -/
def amAddr (c : Cell) (rs1 : BitVec 5) (i : BitVec 7) (size : Nat) : Word :=
  c.readA rs1.toNat + sx i * BitVec.ofNat 64 size

/-- The address of the text of the running kernel lies in [entry, entry + 4 x parcels), on a parcel (R105, R175). -/
def inText (c : Cell) (w : Word) : Bool :=
  w % 4 == 0 && decide (c.entry.toNat ≤ w.toNat) && decide (w.toNat < c.entry.toNat + 4 * c.parcels)

/-- The end of the text of the running kernel. -/
def textEnd (c : Cell) : Nat := c.entry.toNat + 4 * c.parcels

/-! Data queues. -/

def Cell.queue (c : Cell) (q : Nat) : List QEntry := lookup [] c.queues q
def Cell.setQueue (c : Cell) (q : Nat) (es : List QEntry) : Cell := { c with queues := insertAt c.queues q es }

/-- Blocks of an entry of a size in bytes (R209). -/
def blocksOf (size : Nat) : Nat := (size + 31) / 32

/-- Blocks held by a queue, filled or reserved (R211). -/
def Cell.usedBlocks (c : Cell) (q : Nat) : Nat := (c.queue q).foldl (fun n e => n + blocksOf e.size) 0

def Cell.qminOf (c : Cell) (q : Nat) : Nat := lookup 0 c.qmin q
def Cell.qcapOf (c : Cell) (q : Nat) : Nat := lookup 8192 c.qcap q

/-- Sum of a function over the sixteen queues. -/
def sumQ (f : Nat → Nat) : Nat := (List.range 16).foldl (fun n q => n + f q) 0

/-- Blocks that a strand left here with loads in flight: they return when the data arrive (R34). -/
def Cell.lostBlocks (c : Cell) : Nat := ((c.lost.map (·.2)).eraseDups).length

/-- Blocks that a held word has popped from a queue: they stay the queue's until the word is resolved, since a conversion gives them back
(R198, R211; DESIGN CHOICE, notes/assumptions/67.md). -/
def Cell.heldBlocks (c : Cell) (q : Nat) : Nat :=
  let of (h : Option Held) : List (Nat × QEntry) := match h with | some h => h.popped | none => []
  (of c.fault ++ of (c.saved.bind (·.fault))).foldl (fun n x => if x.1 = q then n + blocksOf x.2.size else n) 0

/-- Blocks taken by a queue: those it holds and those a held word of it may give back. -/
def Cell.takenBlocks (c : Cell) (q : Nat) : Nat := c.usedBlocks q + c.heldBlocks q

/-- Free blocks of the pool (R211, QSTAT). -/
def Cell.freeBlocks (c : Cell) : Nat := 8192 - sumQ c.takenBlocks - c.lostBlocks

/-- CanDraw (R211). -/
def Cell.canDraw (c : Cell) (q n : Nat) : Bool :=
  if c.qcapOf q < c.takenBlocks q + n then false
  else
    let own := c.qminOf q - c.takenBlocks q
    let others := sumQ (fun r => if r = q then 0 else c.qminOf r - c.takenBlocks r)
    decide (((n - own : Nat) : Int) ≤ (c.freeBlocks : Int) - others)

/-- QSTAT (R83, R212). -/
def Cell.qstat (c : Cell) : Word :=
  BitVec.ofNat 64 (sumQ (fun q => if (c.queue q).isEmpty then 0 else 2 ^ q)
    + sumQ (fun q => if c.takenBlocks q = c.qcapOf q then 2 ^ (16 + q) else 0) + c.freeBlocks * 2 ^ 32)

/-- An entry is poppable once every block has filled (R214). -/
def QEntry.full (e : QEntry) : Bool := e.missing.isEmpty

/-- The bytes of an entry as the strand reads them: blocks of another heat read zero (R210). -/
def Cell.entryBytes (c : Cell) (e : QEntry) : List Byte :=
  fitBytes (max 32 e.size) (if e.heat = c.heat then e.bytes else [])

/-- The i-th poppable entry of a queue counted from the head, or how its word waits (R28, R234). -/
def Cell.headAt (c : Cell) (q i : Nat) : Except WaitKind QEntry :=
  match (c.queue q).take (i + 1) with
  | es =>
    match es.find? (fun e => !e.full) with
    | some e => .error (.empty e.fills)
    | none =>
      match es.drop i with
      | e :: _ => .ok e
      | [] => .error (.empty false)

/-- The queue without its head. -/
def Cell.popHead (c : Cell) (q : Nat) : Cell := c.setQueue q ((c.queue q).drop 1)

/-- An entry reserved at the tail of a queue (R211). -/
def Cell.reserve (c : Cell) (q : Nat) (e : QEntry) : Cell := c.setQueue q (c.queue q ++ [e])

/-- Give an entry its bytes at an offset and mark a block filled. -/
def QEntry.fill (e : QEntry) (blk off : Nat) (bs : List Byte) : QEntry :=
  { e with bytes := overlay (fitBytes (max 32 e.size) e.bytes) off bs, missing := e.missing.erase blk }

/-- Change the entry with a given number in every queue of a cell. -/
def Cell.modEntry (c : Cell) (id : Nat) (f : QEntry → QEntry) : Cell :=
  { c with queues := mapVals (fun es => es.map (fun e => if e.id = id then f e else e)) c.queues }

/-- Find the entry with a given number. -/
def Cell.entry? (c : Cell) (id : Nat) : Option QEntry := (c.queues.flatMap (·.2)).find? (fun e => e.id == id)

end Sys2Proof.Machine
end

