-- ==== Sys2Proof/Machine/Flags.lean ====
section
/-! DEFINITION. The bits of AST (R85 Table 4) that words set. -/
namespace Sys2Proof.Machine
open Sys2Proof

def astOob : BitVec 12 := 0x001
def astSev : BitVec 12 := 0x002
def astAdz : BitVec 12 := 0x004

/-- Flags of a V result at AST [7:3]: nv, dz, of, uf, nx. -/
def astV (f : Flags) : BitVec 12 := f.setWidth 12 <<< 3

/-- Flags of an M result at AST [11:8]: nv, of, uf, nx; M words have no division flag. -/
def astM (f : Flags) : BitVec 12 :=
  (if f.getLsbD 0 then 0x100 else 0) ||| (if f.getLsbD 2 then 0x200 else 0)
    ||| (if f.getLsbD 3 then 0x400 else 0) ||| (if f.getLsbD 4 then 0x800 else 0)

/-- AST.adz of a division (R94). -/
def divFlag (b : Word) : BitVec 12 := if b = 0 then astAdz else 0

/-- Flags of an integer result that saturated: overflow, and with it inexact (R129). -/
def satFlag (clamped : Bool) : Flags := if clamped then fOF ||| fNX else 0

end Sys2Proof.Machine
end

