-- ==== Sys2Proof/Machine/Control.lean ====
section
/-! DEFINITION. The common words (R174 to R188) but for the barriers, and the loop back-edge (R179). Each is executed by the
engine whose turn it is. -/
namespace Sys2Proof.Machine
open Sys2Proof

/-- The spread between an engine's CSN and the smallest of the three, modulo 2^32 (R24). -/
def csnSpread (c : Cell) (e : Engine) : Int :=
  let g := (c.engine e).csn
  max 0 (max (g - c.A.csn).toInt (max (g - c.V.csn).toInt (g - c.M.csn).toInt))

/-- A step that raises the engine's CSN keeps within SLIP (R25). -/
def slipOk (c : Cell) (e : Engine) : Bool := decide (csnSpread c e + 1 ≤ c.slip)

/-- What a common word comes to. -/
inductive CRes where
  | pass (s : State)
  | jump (s : State)
  | stay (w : WaitKind)
  | keep (w : WaitKind) (s : State)
  | illegal

/-- A cell whose engine e has executed a common word in a cycle (R24). -/
def Cell.commonDone (c : Cell) (e : Engine) (cycle : Nat) (move : Bool) : Cell :=
  c.modEngine e (fun g => { g with
    csn := g.csn + 1, pc := if move then g.pc + 4 else g.pc, nextIssue := cycle + 1, wait := .none
    park := .none, commons := g.commons + 1 })

/-- IRET counts a common word once the last of the three engines has executed it (R83). -/
def Cell.tally (c : Cell) (e : Engine) : Cell :=
  let n := (c.engine e).commons
  if decide (n ≤ c.A.commons) && decide (n ≤ c.V.commons) && decide (n ≤ c.M.commons) then { c with iret := c.iret + 1 } else c

/-- An engine has executed a common word: CSN, issue cycle, and IRET when it is the last of the three (R24, R83). -/
def passCommon (e : Engine) (move : Bool) (s : State) : State :=
  s.upd (fun c => (c.commonDone e s.cycle move).tally e)

/-- THE EXECUTION OF A COMMON WORD: shared registers it reads, the slip bound, then its effect (R25, R27, R174). -/
def commonStep (reads : List Nat) (body : Engine → State → CRes) (s : State) : State :=
  let c := s.cur
  match reads.find? (fun x => !c.mayRead s.eng x) with
  | some x => setWait s s.eng (c.shWait x)
  | none =>
    if !slipOk c s.eng then setWait s s.eng .internal
    else
      match body s.eng s with
      | .pass t => passCommon s.eng true t
      | .jump t => passCommon s.eng false t
      | .stay w => setWait s s.eng w
      | .keep w t => setWait t s.eng w
      | .illegal => faultHere s s.eng .illegal (s.pcOf s.eng)

def commonWord (reads : List Nat) (body : Engine → State → CRes) (s : State) : Out := .next (commonStep reads body s)

/-- Set the pc of an engine of the cell in focus. -/
def setPc (s : State) (e : Engine) (pc : Word) : State := s.upd (fun c => c.modEngine e (fun g => { g with pc := pc }))

/-- A taken branch or back-edge resets the watchdog count (R185, R380). -/
def resetWdog (s : State) : State := s.upd (fun c => { c with wdogCount := 0, beat := true })

def execNop (s : State) : Out := commonWord [] (fun _ s => .pass s) s

def execPtb (i : BitVec 21) (b : BitVec 3) (s : State) : Out :=
  commonWord [shB b.toNat] (fun e s =>
    let t := s.pcOf e + sx i * 4
    if inText s.cur t then .pass (s.upd (fun c => c.writeB e b.toNat t)) else .illegal) s

/-- The loops left by a branch to `t`: those entered at the current depth whose body excludes the target are removed, but for
one whose body end is the target once it is innermost (R180). -/
def leaveLoops (t : Word) (depth : Nat) : List ActiveLoop → List ActiveLoop
  | [] => []
  | l :: ls =>
    if l.depth ≠ depth then l :: ls
    else if t = l.stop then l :: ls
    else if l.start.toNat ≤ t.toNat ∧ t.toNat < l.stop.toNat then l :: ls
    else leaveLoops t depth ls

/-- Branch to a target within the current call depth (R176, R180). -/
def branchTo (s : State) (e : Engine) (t : Word) : State :=
  resetWdog (s.upd (fun c => c.modEngine e (fun g => { g with pc := t, loops := leaveLoops t g.rets.length g.loops })))

def execBr (_h n : BitVec 1) (e : BitVec 4) (b : BitVec 3) (s : State) : Out :=
  commonWord [e.toNat, shB b.toNat] (fun g s =>
    if s.cur.readP e.toNat == (n == 1) then .pass s
    else
      let t := s.cur.readB g b.toNat
      if t = 0 then .illegal else .jump (branchTo s g t)) s

def execCall (b : BitVec 3) (s : State) : Out :=
  commonWord [shB b.toNat] (fun e s =>
    let g := s.cur.engine e
    let t := s.cur.readB e b.toNat
    if t = 0 ∨ 8 ≤ g.rets.length then .illegal
    else .jump (resetWdog (s.upd (fun c => c.modEngine e (fun g => { g with pc := t, rets := (g.pc + 4) :: g.rets }))))) s

def execRet (s : State) : Out :=
  commonWord [] (fun e s =>
    match (s.cur.engine e).rets with
    | [] => .illegal
    | t :: rs => .jump (resetWdog (s.upd (fun c => c.modEngine e (fun g => { g with
        pc := t, rets := rs, loops := g.loops.dropWhile (fun l => decide (rs.length < l.depth)) }))))) s

/-- Byte of text at an address, from the cell's instruction cache; none where its granule has not been fetched. -/
def cachedByte (c : Cell) (a : Nat) : Option Byte :=
  match find? c.icache (a / 32) with
  | some g => some (byteAt g (a % 32))
  | none => none

/-- Parcels of the word whose first byte is given (R37). -/
def wordLen (b : Byte) : Nat := wordParcels (b.extractLsb' 0 2)

/-- A byte of text as a fetch would find it now, without the fetch; none where it would be refused. -/
def peekText (s : State) (ix a : Nat) : Option Byte :=
  let w := BitVec.ofNat 64 a
  let g := BitVec.ofNat 64 (a / 32 * 32)
  let site : Except FaultCode Site :=
    if homeDie w ≠ dieOfCell ix then remoteCheck s (pkgOfCell ix) (s.die (dieOfCell ix)).world w .rd
    else if inWindow w then .error .perm
    else if aVault w then
      match vaultCheck s w .rd with
      | .ok r => .ok ⟨g.toNat, some r.heat⟩
      | .error e => .error e
    else
      match translate s (dieOfCell ix) (s.cell ix).tlb (aOff g) .rd with
      | some (p, _) => .ok ⟨p, none⟩
      | none => .error .xlate
  match cachedByte (s.cell ix) a, site with
  | some b, _ => some b
  | none, .ok p => (readSite s g p 32).toOption.map (fun bs => byteAt bs (a % 32))
  | none, .error _ => none

/-- The words from an address on end at `stop` and not beyond it; text that cannot be read is not judged (R54). -/
def bodyEnds (s : State) (ix stop : Nat) : Nat → Nat → Bool
  | 0, _ => true
  | n + 1, a =>
    if stop ≤ a then a == stop
    else
      match peekText s ix a with
      | none => true
      | some b => bodyEnds s ix stop n (a + 4 * wordLen b)

/-- Level kind 1 is temporal (R344 Table 4). -/
def isTemporal (c : Cell) (l : Nat) : Bool := lookup 0 c.levelKinds l == 1

/-- The loop word of a body that ends at `stop` may be entered (R16, R178). -/
def loopOk (c : Cell) (g : EngineState) (l : Nat) (stop : Nat) : Bool :=
  isTemporal c l && !(g.loops.any (fun a => a.level == l)) && decide (stop ≤ textEnd c) &&
  (match g.loops with
   | a :: _ => a.depth != g.rets.length || decide (stop ≤ a.stop.toNat)
   | [] => true)

def execLoop (l : BitVec 20) (v : BitVec 3) (s : State) : Out :=
  commonWord [shTrip v.toNat] (fun e s =>
    let c := s.cur
    let g := c.engine e
    let start := g.pc + 4
    let stop := start + BitVec.ofNat 64 (4 * l.toNat)
    if !loopOk c g v.toNat stop.toNat ∨ !bodyEnds s s.me stop.toNat (l.toNat + 1) start.toNat then .illegal
    else
      let trip := lookup 0 c.trips v.toNat
      let g1 := { g with lcnt := insertAt g.lcnt v.toNat 0 }
      if trip = 0 then .jump (s.upd (fun c => c.setEngine e { g1 with pc := stop }))
      else .jump (s.upd (fun c => c.setEngine e
        { g1 with pc := start, loops := ⟨start, stop, v.toNat, g.rets.length, trip⟩ :: g.loops }))) s

def execLbrk (s : State) : Out :=
  commonWord [] (fun e s =>
    match (s.cur.engine e).loops with
    | [] => .illegal
    | l :: ls => .jump (s.upd (fun c => c.modEngine e (fun g => { g with pc := l.stop, loops := ls })))) s

/-- `end`: the engine stops there and does not count it; IRET counts it when the last engine arrives (R24, R83, R183). -/
def execEndWord (s : State) : Out :=
  .next (s.upd (fun c =>
    let c1 := c.modEngine s.eng (fun g => { g with park := .atEnd, wait := .none })
    if c1.A.park == .atEnd && c1.V.park == .atEnd && c1.M.park == .atEnd then { c1 with iret := c1.iret + 1 } else c1))

/-- `beat`: an engine that executes it clears WDOG[63:32] (R185, R380). -/
def execBeat (s : State) : Out := commonWord [] (fun _ s => .pass (resetWdog s)) s

/-- Park the executing engine at `yield` or `halt`; once all three are there, each passes the word (R186, R187). -/
def meet (p : Park) (done : State → State) (s : State) : State :=
  if !slipOk s.cur s.eng then setWait s s.eng .internal
  else
    let t := s.upd (fun c => c.modEngine s.eng (fun g => { g with park := p, wait := .internal }))
    let c := t.cur
    if c.A.park == p && c.V.park == p && c.M.park == p
    then done (passCommon .M true (passCommon .V true (passCommon .A true t)))
    else t

/-- Strand cells of a die that are idle (R248). -/
def idleCells (s : State) (die : Nat) : List Nat :=
  (List.range 143).filterMap (fun i => if (s.cell (die * 144 + 1 + i)).status == .idle then some (die * 144 + 1 + i) else none)

/-- The ready pool holds a task of a lower class number that has found no idle cell (R186): fewer strand cells are idle than it has
strands (DESIGN CHOICE, notes/assumptions/54.md). -/
def higherWaits (s : State) (die cls : Nat) : Bool :=
  (s.die die).ready.any (fun r => decide (r.cls < cls) && decide ((idleCells s die).length < r.strands))

/-- Halt a strand for a stow into a slot reserved for it (R201, R205); one whose fault waits for room for its record is held until then
(R255). -/
def beginStow (s : State) (ix : Nat) (why : StowCause) : Option State :=
  match reserveSlot (s.die (dieOfCell ix)) ix s.cycle with
  | some d => some ((s.setDie (dieOfCell ix) d).modCell ix (fun c => { c with
      status := if c.status = .held then .held else .halting, preempt := some why }))
  | none => none

def execYield (s : State) : Out :=
  .next (meet .yield (fun t =>
    if isCmd t.me || !higherWaits t t.myDie t.cur.cls then t
    else
      match beginStow t t.me .yield with
      | some u => u
      | none => t) s)

/-- `halt` raises BRK with engine 3 once all three engines are at it; its record names the word (R187, R255). -/
def execHalt (s : State) : Out :=
  .next (meet .halt (fun t => takeFaultAt t t.me 3 .brk (s.pcOf s.eng) (s.pcOf s.eng - s.cur.entry)) s)

/-- LOOP_BACK_EDGE: an engine stands at the body end of its innermost loop at that loop's depth (R179). A taken back-edge
counts in CSN under the slip bound and takes the cycle; an exit removes the loop and costs nothing. -/
def execLoopBackEdge (cid : CellId) (e : Engine) (s : State) : Out :=
  let ix := cellIx cid
  let c := s.cell ix
  let g := c.engine e
  match g.loops with
  | [] => .next s
  | l :: ls =>
    if l.depth ≠ g.rets.length ∨ g.pc ≠ l.stop then .next s
    else
      let n := (lookup 0 g.lcnt l.level).toNat
      if n + 1 < l.trip then
        if !slipOk c e then .next (s.setCell ix (c.setEngine e { g with wait := .internal }))
        else .next (s.setCell ix { c.setEngine e { g with
            lcnt := insertAt g.lcnt l.level (BitVec.ofNat 16 (n + 1)), pc := l.start, csn := g.csn + 1
            nextIssue := s.cycle + 1, wait := .none } with wdogCount := 0, beat := true })
      else .next (s.setCell ix (c.setEngine e { g with loops := ls }))

end Sys2Proof.Machine
end

