-- ==== Sys2Proof/Machine/Scalar.lean ====
section
/-! DEFINITION. The A engine's scalar words (R93 to R105), predicate words, control registers, branch targets, queue access
(R113, R114) and `ltrip` (R182). -/
namespace Sys2Proof.Machine
open Sys2Proof

/-! Shared shapes. -/

/-- rd ← F(A, B) (R93). -/
def binWord (f : Word → Word → Word) (p : BitVec 4) (t s d : BitVec 5) : State → Out :=
  aluWord p [t.toNat, s.toNat] d.toNat (fun c => f (c.readA s.toNat) (c.readA t.toNat))

/-- rd ← F(A) (R93). -/
def unWord (f : Word → Word) (p : BitVec 4) (s d : BitVec 5) : State → Out :=
  aluWord p [s.toNat] d.toNat (fun c => f (c.readA s.toNat))

/-- rd ← F(A, B) 34 cycles later, with AST.adz in that cycle where the divisor is zero; the next divide issues 34 cycles
after this one (R94, R85, R91 Table 1). -/
def divWord (f : Word → Word → Word) (p : BitVec 4) (t s d : BitVec 5) : State → Out :=
  aWord { pg := p, aregs := [d.toNat, t.toNat, s.toNat] } (fun st =>
    let c := st.cur
    if st.cycle < c.divFree then .stay .external st
    else
      let b := c.readA t.toNat
      let st1 := st.upd (fun c => { c.pend d.toNat with divFree := st.cycle + 34 })
      .done (addLanding st1 34 (.areg d.toNat (f (c.readA s.toNat) b) (divFlag b))))

/-! Results. -/

/-- Bits [127:64] of the signed product. -/
def mulHigh (a b : Word) : Word := BitVec.ofInt 64 (a.toInt * b.toInt / 2 ^ 64)
/-- Bits [127:64] of the unsigned product. -/
def mulHighN (a b : Word) : Word := BitVec.ofNat 64 (a.toNat * b.toNat / 2 ^ 64)
def divSigned (a b : Word) : Word := if b = 0 then BitVec.allOnes 64 else BitVec.ofInt 64 (a.toInt.tdiv b.toInt)
def divUnsigned (a b : Word) : Word := if b = 0 then BitVec.allOnes 64 else BitVec.ofNat 64 (a.toNat / b.toNat)
def remSigned (a b : Word) : Word := if b = 0 then a else BitVec.ofInt 64 (a.toInt - b.toInt * a.toInt.tdiv b.toInt)
def remUnsigned (a b : Word) : Word := if b = 0 then a else BitVec.ofNat 64 (a.toNat % b.toNat)
/-- The 32-bit value sign-extended (R93). -/
def low32 (x : Word) : Word := sx (x.extractLsb' 0 32)
/-- The low six bits of a shift amount. -/
def sh6 (b : Word) : Nat := b.toNat % 64

/-- A condition of R98 Table 4; codes 6 and 7 never reach a word. -/
def condHolds (c : BitVec 3) (a v : Word) : Bool :=
  match c.toNat with
  | 0 => a == v
  | 1 => a != v
  | 2 => a.slt v
  | 3 => a.ult v
  | 4 => !a.slt v
  | _ => !a.ult v

def execAdd (p : BitVec 4) (t s d : BitVec 5) (st : State) : Out := binWord (fun a b => a + b) p t s d st
def execSub (p : BitVec 4) (t s d : BitVec 5) (st : State) : Out := binWord (fun a b => a - b) p t s d st
def execAnd (p : BitVec 4) (t s d : BitVec 5) (st : State) : Out := binWord (fun a b => a &&& b) p t s d st
def execOr (p : BitVec 4) (t s d : BitVec 5) (st : State) : Out := binWord (fun a b => a ||| b) p t s d st
def execXor (p : BitVec 4) (t s d : BitVec 5) (st : State) : Out := binWord (fun a b => a ^^^ b) p t s d st
def execSll (p : BitVec 4) (t s d : BitVec 5) (st : State) : Out := binWord (fun a b => a <<< sh6 b) p t s d st
def execSrl (p : BitVec 4) (t s d : BitVec 5) (st : State) : Out := binWord (fun a b => a >>> sh6 b) p t s d st
def execSra (p : BitVec 4) (t s d : BitVec 5) (st : State) : Out := binWord (fun a b => a.sshiftRight (sh6 b)) p t s d st
def execMul (p : BitVec 4) (t s d : BitVec 5) (st : State) : Out := binWord (fun a b => a * b) p t s d st
def execMin (p : BitVec 4) (t s d : BitVec 5) (st : State) : Out := binWord (fun a b => if a.slt b then a else b) p t s d st
def execMax (p : BitVec 4) (t s d : BitVec 5) (st : State) : Out := binWord (fun a b => if b.slt a then a else b) p t s d st
def execMinn (p : BitVec 4) (t s d : BitVec 5) (st : State) : Out := binWord (fun a b => if a.ult b then a else b) p t s d st
def execMaxn (p : BitVec 4) (t s d : BitVec 5) (st : State) : Out := binWord (fun a b => if b.ult a then a else b) p t s d st
def execAddw (p : BitVec 4) (t s d : BitVec 5) (st : State) : Out := binWord (fun a b => low32 (a + b)) p t s d st
def execSubw (p : BitVec 4) (t s d : BitVec 5) (st : State) : Out := binWord (fun a b => low32 (a - b)) p t s d st
def execAndn (p : BitVec 4) (t s d : BitVec 5) (st : State) : Out := binWord (fun a b => a &&& ~~~b) p t s d st
def execRol (p : BitVec 4) (t s d : BitVec 5) (st : State) : Out := binWord (fun a b => a.rotateLeft (sh6 b)) p t s d st
def execRor (p : BitVec 4) (t s d : BitVec 5) (st : State) : Out := binWord (fun a b => a.rotateRight (sh6 b)) p t s d st
def execMulh (p : BitVec 4) (t s d : BitVec 5) (st : State) : Out := binWord mulHigh p t s d st
def execMulhn (p : BitVec 4) (t s d : BitVec 5) (st : State) : Out := binWord mulHighN p t s d st
def execDiv (p : BitVec 4) (t s d : BitVec 5) (st : State) : Out := divWord divSigned p t s d st
def execDivn (p : BitVec 4) (t s d : BitVec 5) (st : State) : Out := divWord divUnsigned p t s d st
def execRem (p : BitVec 4) (t s d : BitVec 5) (st : State) : Out := divWord remSigned p t s d st
def execRemn (p : BitVec 4) (t s d : BitVec 5) (st : State) : Out := divWord remUnsigned p t s d st
def execClz (p : BitVec 4) (s d : BitVec 5) (st : State) : Out := unWord (fun a => BitVec.ofNat 64 (clzN a.toNat 64)) p s d st
def execCtz (p : BitVec 4) (s d : BitVec 5) (st : State) : Out := unWord (fun a => BitVec.ofNat 64 (ctzN a.toNat 64)) p s d st
def execPopc (p : BitVec 4) (s d : BitVec 5) (st : State) : Out := unWord (fun a => BitVec.ofNat 64 (popCount a.toNat 64)) p s d st
def execAddi (p : BitVec 4) (i : BitVec 10) (s d : BitVec 5) (st : State) : Out := unWord (fun a => a + sx i) p s d st
def execAndi (p : BitVec 4) (i : BitVec 10) (s d : BitVec 5) (st : State) : Out := unWord (fun a => a &&& sx i) p s d st
def execOri (p : BitVec 4) (i : BitVec 10) (s d : BitVec 5) (st : State) : Out := unWord (fun a => a ||| sx i) p s d st
def execXori (p : BitVec 4) (i : BitVec 10) (s d : BitVec 5) (st : State) : Out := unWord (fun a => a ^^^ sx i) p s d st
def execSlli (p : BitVec 4) (h : BitVec 6) (s d : BitVec 5) (st : State) : Out := unWord (fun a => a <<< h.toNat) p s d st
def execSrli (p : BitVec 4) (h : BitVec 6) (s d : BitVec 5) (st : State) : Out := unWord (fun a => a >>> h.toNat) p s d st
def execSrai (p : BitVec 4) (h : BitVec 6) (s d : BitVec 5) (st : State) : Out := unWord (fun a => a.sshiftRight h.toNat) p s d st

/-- `lui`: format AU has no guard (R97). -/
def execLui (i : BitVec 19) (d : BitVec 5) (st : State) : Out :=
  aluWord 0 [] d.toNat (fun _ => sx i <<< (10 : Nat)) st
/-- `addpc`: the address of the word itself plus the parcel offset (R97). -/
def execAddpc (i : BitVec 19) (d : BitVec 5) (st : State) : Out :=
  aluWord 0 [] d.toNat (fun c => c.A.pc + sx i * 4) st

/-! Compares and predicates (R98 to R101). -/

/-- A word that writes predicate `e` from the cell, reading the predicates of `reads` (R27, R99, R100). -/
def predWord (p : BitVec 4) (reads : List Nat) (aregs : List Nat) (e : BitVec 4) (f : Cell → Bool) (st : State) : Out :=
  aWord { pg := p, reads := reads, dest := e.toNat, aregs := aregs } (fun s => .done (putP s e.toNat (f s.cur))) st

def execCmp (p : BitVec 4) (t s : BitVec 5) (c : BitVec 3) (e : BitVec 4) (st : State) : Out :=
  predWord p [] [t.toNat, s.toNat] e (fun k => condHolds c (k.readA s.toNat) (k.readA t.toNat)) st
def execCmpAnd (p : BitVec 4) (t s : BitVec 5) (c : BitVec 3) (e : BitVec 4) (st : State) : Out :=
  predWord p [e.toNat] [t.toNat, s.toNat] e
    (fun k => k.readP e.toNat && condHolds c (k.readA s.toNat) (k.readA t.toNat)) st
def execCmpOr (p : BitVec 4) (t s : BitVec 5) (c : BitVec 3) (e : BitVec 4) (st : State) : Out :=
  predWord p [e.toNat] [t.toNat, s.toNat] e
    (fun k => k.readP e.toNat || condHolds c (k.readA s.toNat) (k.readA t.toNat)) st
def execCmpi (p : BitVec 4) (i : BitVec 8) (s : BitVec 5) (c : BitVec 3) (e : BitVec 4) (st : State) : Out :=
  predWord p [] [s.toNat] e (fun k => condHolds c (k.readA s.toNat) (sx i)) st
def execPand (p b a e : BitVec 4) (st : State) : Out :=
  predWord p [a.toNat, b.toNat] [] e (fun k => (fun x y => x && y) (k.readP a.toNat) (k.readP b.toNat)) st
def execPor (p b a e : BitVec 4) (st : State) : Out :=
  predWord p [a.toNat, b.toNat] [] e (fun k => (fun x y => x || y) (k.readP a.toNat) (k.readP b.toNat)) st
def execPxor (p b a e : BitVec 4) (st : State) : Out :=
  predWord p [a.toNat, b.toNat] [] e (fun k => (fun x y => x != y) (k.readP a.toNat) (k.readP b.toNat)) st
def execPandn (p b a e : BitVec 4) (st : State) : Out :=
  predWord p [a.toNat, b.toNat] [] e (fun k => (fun x y => x && !y) (k.readP a.toNat) (k.readP b.toNat)) st
def execPset (p : BitVec 4) (v : BitVec 1) (e : BitVec 4) (st : State) : Out := predWord p [] [] e (fun _ => v == 1) st

def execSel (p : BitVec 4) (n : BitVec 1) (e : BitVec 4) (t s d : BitVec 5) (st : State) : Out :=
  aWord { pg := p, reads := [e.toNat], aregs := [t.toNat, s.toNat, d.toNat] } (fun st =>
    let c := st.cur
    .done (putA st d.toNat (if c.readP e.toNat != (n == 1) then c.readA s.toNat else c.readA t.toNat))) st

/-! Control registers (R83, R84, R102 to R104). -/

/-- Control registers marked CM (R83 Table 3): FAULTC, FAULTV, WDOG, QMIN, QCAP, AGE. -/
def srCommand (r : Nat) : Bool :=
  r == 0x05 || r == 0x06 || r == 0x0C || (decide (0x20 ≤ r) && decide (r ≤ 0x43))

/-- The value of a control register of a cell in this cycle (R83, R103). -/
def srRead (s : State) (ix r : Nat) : Word :=
  let c := s.cell ix
  let d := s.die (dieOfCell ix)
  if r = 0x00 then zx c.engctl
  else if r = 0x01 then BitVec.ofNat 64 c.slip
  else if r = 0x02 then zx c.heat
  else if r = 0x03 then zx d.world
  else if r = 0x04 then strandReg ix c
  else if r = 0x05 then zx c.faultc
  else if r = 0x06 then c.faultv
  else if r = 0x07 then c.vctl
  else if r = 0x08 then zx c.ast
  else if r = 0x09 then c.qstat
  else if r = 0x0A then zx c.pgahead
  else if r = 0x0B then zx c.fmtbase
  else if r = 0x0C then BitVec.ofNat 64 (c.wdogCount * 2 ^ 32 + c.wdogLimit)
  else if r = 0x0D then BitVec.ofNat 64 (s.cycle - c.resetAt)
  else if r = 0x0E then BitVec.ofNat 64 c.iret
  else if r < 0x16 then BitVec.ofNat 64 (c.A.level (r - 0x10))
  else if r < 0x30 then BitVec.ofNat 64 (c.qminOf (r - 0x20))
  else if r < 0x40 then BitVec.ofNat 64 (c.qcapOf (r - 0x30))
  else BitVec.ofNat 64 (lookup 1048576 d.ages (r - 0x40))

/-- Write a control register of a cell in a cycle, or none where R84 refuses the value; AGE lies in the die and only its value
is judged here. ENGCTL is written as the n-th word that writes it. -/
def srCell (c : Cell) (cycle r : Nat) (v : Word) (n : Nat) : Option Cell :=
  let k := v.toNat
  if r = 0x00 then (if k < 8 then some (c.setEngctl n (v.setWidth 3)) else none)
  else if r = 0x01 then (if 1 ≤ k ∧ k ≤ 64 then some { c with slip := k } else none)
  else if r = 0x05 then (if k < 2048 then some { c with faultc := v.setWidth 11 } else none)
  else if r = 0x06 then some { c with faultv := v }
  else if r = 0x07 then
    (if wf64 v 31 3 = 0 ∧ 1 ≤ k % 8 ∧ k % 8 ≤ 5 then some (c.reseed v) else none)
  else if r = 0x08 then (if k < 4096 then some (c.clearAst cycle (v.setWidth 12)) else none)
  else if r = 0x0A then (if k < 65536 then some { c with pgahead := v.setWidth 16 } else none)
  else if r = 0x0B then (if k < 16 then some { c with fmtbase := v.setWidth 4 } else none)
  else if r = 0x0C then some { c with wdogLimit := k % 2 ^ 32 }
  else if r < 0x20 then none
  else if r < 0x30 then
    let q := r - 0x20
    (if k ≤ c.qcapOf q ∧ sumQ (fun j => if j = q then k else c.qminOf j) ≤ 8192
     then some { c with qmin := insertAt c.qmin q k } else none)
  else if r < 0x40 then
    let q := r - 0x30
    (if 1 ≤ k ∧ k ≤ 8192 ∧ c.qminOf q ≤ k then some { c with qcap := insertAt c.qcap q k } else none)
  else if r < 0x44 then (if 1024 ≤ k ∧ k < 2 ^ 32 then some c else none)
  else none

/-- A die's AGE registers after a write of one (R84). -/
def setAge (s : State) (ix r : Nat) (v : Word) : State :=
  if 0x40 ≤ r ∧ r < 0x44 then s.modDie (dieOfCell ix) (fun d => { d with ages := insertAt d.ages (r - 0x40) v.toNat }) else s

/-- Write a control register of a cell now, or none where R84 refuses the value. -/
def srWrite (s : State) (ix r : Nat) (v : Word) : Option State :=
  match srCell (s.cell ix) s.cycle r v 0 with
  | some c => some (setAge (s.setCell ix c) ix r v)
  | none => none

/-- The number under which R27 orders or R86 counts an `mtsr` (R86). -/
def srShared (r : BitVec 8) : Nat := if r = 0x07 then shVctl else if r = 0x0B then shFmt else if r = 0 then shEng else 0

/-- An `mtsr` whose write takes effect as it issues: AST clears bits in its issue cycle (R85), and VCTL and FMTBASE are ordered
by R27. Every other register changes in the next cycle (R102). -/
def srAtOnce (r : Nat) : Bool := r == 0x07 || r == 0x08 || r == 0x0B

def execMfsr (p : BitVec 4) (r : BitVec 8) (d : BitVec 5) (st : State) : Out :=
  aWord { pg := p, cm := srCommand r.toNat, aregs := [d.toNat] } (fun s =>
    .done (putA s d.toNat (srRead s s.me r.toNat))) st

/-- The effect of an `mtsr` on the cell in focus: the write now, or a landing in the next cycle; ENGCTL is written under the
number of the word among those that write it (R86, R102). -/
def srSend (s : State) (r : Nat) (v : Word) : Option State :=
  match srCell s.cur s.cycle r v 0 with
  | some c => some (if srAtOnce r then s.upd (fun _ => c) else addLanding s 1 (.ctrl r v (s.cur.expects .A shEng + 1)))
  | none => none

/-- `mtsr` writes a control register (R84, R102 to R104). -/
def execMtsr (p : BitVec 4) (r : BitVec 8) (s : BitVec 5) (st : State) : Out :=
  aWord { pg := p, cm := srCommand r.toNat, dest := srShared r, aregs := [s.toNat] } (fun st =>
    match srSend st r.toNat (st.cur.readA s.toNat) with
    | some t => .done t
    | none => .trap .illegal st.cur.A.pc) st

/-- The write an `mtsr` makes to a control register of a cell; a refused value changes nothing (R84). -/
def srEvent (cid : CellId) (r : Nat) (v : Word) (s : State) : Out :=
  match srWrite s (cellIx cid) r v with
  | some t => .next t
  | none => .next s

/-- WRITE_SLIP (R25). -/
def execWriteSlip (c : CellId) (v : Word) (s : State) : Out := srEvent c 0x01 v s
/-- WRITE_AST: bits written as 1 are cleared (R85). -/
def execWriteAst (c : CellId) (v : Word) (s : State) : Out := srEvent c 0x08 v s
/-- WRITE_VCTL: the mode is set and every generator reseeded (R128). -/
def execWriteVctl (c : CellId) (v : Word) (s : State) : Out := srEvent c 0x07 v s
/-- WRITE_QCAP: a write of QMINn or QCAPn removes nothing from the queue (R213). -/
def execWriteQcap (c : CellId) (r : BitVec 8) (v : Word) (s : State) : Out :=
  if 0x20 ≤ r.toNat ∧ r.toNat < 0x40 then srEvent c r.toNat v s else .next s
/-- WRITE_CONTROL_REGISTER (R84). -/
def execWriteControlRegister (c : CellId) (r : BitVec 8) (v : Word) (s : State) : Out := srEvent c r.toNat v s

/-- `mtb` writes every engine's copy of bN (R105). -/
def execMtb (p : BitVec 4) (s : BitVec 5) (b : BitVec 3) (st : State) : Out :=
  aWord { pg := p, dest := shB b.toNat, aregs := [s.toNat] } (fun st =>
    let a := st.cur.readA s.toNat
    if inText st.cur a && a != 0 then
      .done (st.upd (fun c => ((c.writeB .A b.toNat a).writeB .V b.toNat a).writeB .M b.toNat a))
    else .trap .illegal st.cur.A.pc) st

/-- `ltrip` sets the trip count the next entry of a temporal level reads (R182). -/
def execLtrip (p : BitVec 4) (s : BitVec 5) (l : BitVec 3) (st : State) : Out :=
  aWord { pg := p, dest := if l.toNat < 6 then shTrip l.toNat else 0, aregs := [s.toNat] } (fun st =>
    let a := (st.cur.readA s.toNat).toNat
    if 65535 < a ∨ 6 ≤ l.toNat ∨ !isTemporal st.cur l.toNat then .trap .illegal st.cur.A.pc
    else .done (st.upd (fun c => { c with trips := insertAt c.trips l.toNat a }))) st

/-! Scalar queue access (R114). -/

def execQpop (p q : BitVec 4) (d : BitVec 5) (st : State) : Out :=
  aWord { pg := p, aregs := [d.toNat] } (fun s =>
    match s.cur.headAt q.toNat 0 with
    | .error w => .stay w s
    | .ok e =>
      if e.size ≠ 8 then .trap .qsize s.cur.A.pc
      else .done (putA (s.upd (fun c => c.popHead q.toNat)) d.toNat (wordAt (s.cur.entryBytes e) 0))) st

def execQpush (p : BitVec 4) (s : BitVec 5) (q : BitVec 4) (st : State) : Out :=
  aWord { pg := p, aregs := [s.toNat] } (fun st =>
    let c := st.cur
    if !c.canDraw q.toNat 1 then .stay .draw st
    else
      let (n, t) := st.fresh
      .done (t.upd (fun c => c.reserve q.toNat
        ⟨n, 8, c.heat, fitBytes 32 (leBytes (c.readA s.toNat).toNat 8), [], false⟩))) st

end Sys2Proof.Machine
end

