-- ==== Sys2Proof/Machine/System.lean ====
section
/-! DEFINITION. System words (R189 to R193) and the capability words that act in the cell (R107 to R110). -/
namespace Sys2Proof.Machine
open Sys2Proof

/-- `trap n` (R190). -/
def execTrap (p : BitVec 4) (n : BitVec 5) (s : State) : Out := aWord { pg := p } (fun _ => .trapNext .trapi (zx n)) s

/-- `brk` (R190): FAULTV is the address of the word. -/
def execBrk (p : BitVec 4) (s : State) : Out := aWord { pg := p } (fun s => .trapNext .brk s.cur.A.pc) s

/-- `eret` (R191). -/
def execEret (p : BitVec 4) (s : State) : Out :=
  aWord { pg := p, cm := true } (fun s =>
    match s.cur.saved with
    | none => .trap .illegal s.cur.A.pc
    | some sv => if handlerOpen s sv then .stay .external s else .jump (returnFromFault s sv)) s

/-- The die's heat state as `heatq` reports it (R192). -/
def heatState (c : Cell) (d : Die) : Word :=
  let oldest := match d.retired with
    | e :: _ => e.1
    | [] => 0
  BitVec.ofNat 64 (c.heat.toNat + oldest * 2 ^ 12 + d.retired.length * 2 ^ 24)

/-- `heatq rd` (R192). -/
def execHeatq (p : BitVec 4) (d : BitVec 5) (s : State) : Out :=
  aWord { pg := p, aregs := [d.toNat] } (fun s => .done (putA s d.toNat (heatState s.cur (s.die s.myDie)))) s

/-- `wfe` (R193): waits for the event latch, then clears it; the wait is idle in a persistent strand. -/
def execWfe (p : BitVec 4) (s : State) : Out :=
  aWord { pg := p } (fun s =>
    if s.cur.latch then .done (s.upd (fun c => { c with latch := false })) else .stay .idle s) s

/-! Capabilities (R106 to R110). -/

def capOid (c : Cap) : BitVec 32 := c.extractLsb' 0 32
def capHeat (c : Cap) : BitVec 24 := c.extractLsb' 32 24
def capRights (c : Cap) : BitVec 8 := c.extractLsb' 56 8
def capKind (c : Cap) : Nat := (c.extractLsb' 64 4).toNat
def capWlen (c : Cap) : Nat := (c.extractLsb' 68 14).toNat
def capWstart (c : Cap) : Nat := (c.extractLsb' 82 14).toNat

/-- The pool domain key a die holds: key-handle entry 0, armed with kind 2 (R107, R355). -/
def dieKey (s : State) (die : Nat) : Option (BitVec 256) :=
  match find? (s.die die).keys 0 with
  | some k => if k.armed && k.kind == 2 then some k.key else none
  | none => none

/-- MacOK under a key; false where none is loaded (R107). -/
def macOk (key : Option (BitVec 256)) (c : Cap) : Bool :=
  match key with
  | some k => capMac k c == c.extractLsb' 96 32
  | none => false

/-- Reseal: the MAC over the low 96 bits (R107). -/
def reseal (key : Option (BitVec 256)) (c : Cap) : Cap :=
  match key with
  | some k => (capMac k c) ++ (c.extractLsb' 0 96)
  | none => c

/-- The capability with a new window, its MAC not yet recomputed (R106). -/
def setWindow (c : Cap) (wstart wlen : Nat) : Cap :=
  c.extractLsb' 96 32 ++ BitVec.ofNat 14 wstart ++ BitVec.ofNat 14 wlen ++ c.extractLsb' 0 68

/-- The capability with rights cleared by a mask (R110). -/
def clearRights (c : Cap) (m : BitVec 8) : Cap :=
  c.extractLsb' 64 64 ++ (capRights c &&& ~~~m) ++ c.extractLsb' 0 56

/-- The window start that `kbnd` makes of a start and a length, or none where it is refused (R109). -/
def kbndStart (c : Cap) (s n : Nat) : Option Nat :=
  if n = 0 ∨ 2 ^ 14 ≤ n ∨ 2 ^ 14 ≤ s then none
  else
    let ns := if capWlen c = 0 then s else capWstart c + s
    if (capWlen c ≠ 0 ∧ capWlen c < s + n) ∨ 2 ^ 14 < ns + n then none else some ns

/-- A capability may be used at the cell: object id not 0 and its MAC right. -/
def capUsable (s : State) (c : Cap) : Bool := capOid c != 0 && macOk (dieKey s s.myDie) c

def execKbnd (p : BitVec 4) (d s : BitVec 5) (k : BitVec 4) (st : State) : Out :=
  aWord { pg := p, aregs := [d.toNat, s.toNat], kregs := [k.toNat] } (fun st =>
    let c := st.cur.readK k.toNat
    let n := (st.cur.readA d.toNat).toNat
    if !capUsable st c then .trap .capfail (zx (capOid c))
    else
      match kbndStart c (st.cur.readA s.toNat).toNat n with
      | none => .trap .capfail (zx (capOid c))
      | some ns => .done (putK st k.toNat (reseal (dieKey st st.myDie) (setWindow c ns n)))) st

def execKrgt (p : BitVec 4) (s : BitVec 5) (k : BitVec 4) (st : State) : Out :=
  aWord { pg := p, aregs := [s.toNat], kregs := [k.toNat] } (fun st =>
    let c := st.cur.readK k.toNat
    if !capUsable st c then .trap .capfail (zx (capOid c))
    else .done (putK st k.toNat
      (reseal (dieKey st st.myDie) (clearRights c ((st.cur.readA s.toNat).extractLsb' 0 8))))) st

def execKmov (p j k : BitVec 4) (st : State) : Out :=
  aWord { pg := p, kregs := [j.toNat, k.toNat] } (fun s => .done (putK s k.toNat (s.cur.readK j.toNat))) st

end Sys2Proof.Machine
end

