-- ==== Sys2Proof/Machine/Window.lean ====
section
/-! DEFINITION. The die window (R343, R351 to R356, R359, R360): what each field reads as and what a store to it does, and the
start of a topology change (R335). -/
namespace Sys2Proof.Machine
open Sys2Proof

/-- The next version is announced with the topology as reconfiguration knows it (R335). -/
def announce (s : State) : State :=
  { s with version := s.version + 1, changing := true, again := false, told := s.topo }

/-- A topology change begins; while one is under way the next waits for it to be adopted everywhere (R335). -/
def startChange (s : State) : State := if s.changing then { s with again := true } else announce s

/-! Quiet (R274). -/

/-- A cell of a die other than its command cell holds a strand. -/
def anyStrand (s : State) (die : Nat) : Bool :=
  s.cells.any (fun e => e.1 / 144 == die && !isCmd e.1 && e.2.status != .idle)

/-- The die whose pool access a request is: a schedule fill is that of its bridge station's stack, any other that of its cell (R274). -/
def reqDie (r : PoolReq) : Nat := if r.op = .fill then r.cell / 1152 * 8 + r.node % 8 else r.cell / 144

/-- A pool access of a die is outstanding (R274). -/
def poolBusy (s : State) (die : Nat) : Bool := s.reqs.any (fun r => reqDie r == die)

/-- The conditions of R274 for a change of a quiet field. -/
def quietDie (s : State) (die : Nat) : Bool := !anyStrand s die && (s.die die).stowed.isEmpty && !poolBusy s die

/-! Rings in memory. -/

/-- Tail and head of the launch ring: bytes 0 and 8 of its header, taken as 16-bit indices (R257, R352). -/
def lrIndex (s : State) (die off : Nat) : Nat :=
  ofLe (Memory.read s.mem ((s.die die).lrbase.toNat + off) 2)

/-- The launch ring is registered and its head and tail differ. -/
def lrBusy (s : State) (die : Nat) : Bool := (s.die die).lrbase != 0 && lrIndex s die 0 != lrIndex s die 8

/-! Stores (R352 to R355, R360). Each leaves the field as it is where its rule refuses the value. -/

/-- The home node of an object; where none holds it, node oid mod 16 (DESIGN CHOICE, notes/assumptions/9.md). -/
def nodeOf (s : State) (oid : Nat) : Nat :=
  match s.nodes.find? (fun e => (find? e.2.objects oid).isSome) with
  | some e => e.1
  | none => oid % 16

/-- The pool-cache part of a plane's stack is emptied: the part changes its size (R274, R278). -/
def dropPlane (s : State) (pkg plane : Nat) : State :=
  s.modPkg pkg (fun p => { p with sectors := p.sectors.filter (fun e => e.2.plane != plane) })

/-- A new size of the local part (R274). The bytes above it keep what they held and read so again once it has grown; no rule says what
becomes of them (DESIGN CHOICE, notes/assumptions/61.md). -/
def setLocal (s : State) (die : Nat) (v : Word) : State :=
  if v.toNat ≤ 48 ∧ quietDie s die then
    dropPlane (s.modDie die (fun d => { d with local_ := v.toNat })) (die / 8) (die % 8)
  else s

def setPtroot (s : State) (die : Nat) (v : Word) : State :=
  if v.toNat < 2 ^ 36 ∧ v.toNat % 512 = 0 ∧ quietDie s die then s.modDie die (fun d => { d with ptroot := v.toNat }) else s

def setRwin (s : State) (die : Nat) (v : Word) : State :=
  if v.toNat ≤ 1024 then s.modDie die (fun d => { d with rwin := v.toNat }) else s

def setBwin (s : State) (die : Nat) (v : Word) : State :=
  if v.toNat ≤ 1024 then s.modDie die (fun d => { d with bwin := v.toNat }) else s

def setPfdist (s : State) (die : Nat) (v : Word) : State :=
  if 1 ≤ v.toNat ∧ v.toNat ≤ 4 then s.modDie die (fun d => { d with pfdist := v.toNat }) else s

/-- A fault-queue base: 0, or a vault address of the command cell's own vault with 16 416 B in one region of rights rd and wr. -/
def fqbaseOk (s : State) (die : Nat) (v : Word) : Bool :=
  v == 0 || (addrOk v && aVault v && homeDie v == die && vaultOf v == 0 &&
    (match regionAt (s.die die) 0 (vaultByte v) with
     | some (_, r) => r.rd && r.wr && decide (vaultByte v + 16416 ≤ (r.base + r.size) * 1024)
     | none => false))

/-- The fault queue holds a record the command cell has not taken. -/
def fqBusy (s : State) (die : Nat) : Bool := (s.die die).fqbase != 0 && fqByte s die 0 != fqByte s die 8

def setFqbase (s : State) (die : Nat) (v : Word) : State :=
  if fqbaseOk s die v && !fqBusy s die then flushRecords (s.modDie die (fun d => { d with fqbase := v })) die 272 else s

def setLrbase (s : State) (die : Nat) (v : Word) : State :=
  if v.toNat % 256 = 0 ∧ !lrBusy s die then s.modDie die (fun d => { d with lrbase := v }) else s

def setLrm (s : State) (die : Nat) (v : Word) : State :=
  if 4 ≤ v.toNat ∧ v.toNat ≤ 12 ∧ !lrBusy s die then s.modDie die (fun d => { d with lrm := v.toNat }) else s

/-- The stow slot that an entry names holds a stowed strand. -/
def slotHeld (d : Die) (die : Nat) (w : Word) : Bool :=
  match slotRegion d die w with
  | some (_, r) => r.sheld
  | none => false

def setSlot (s : State) (die ix : Nat) (v : Word) : State :=
  let d := s.die die
  let old := lookup 0 d.slots ix
  if old != v && slotHeld d die old then s
  else s.modDie die (fun d => { d with
    slots := insertAt d.slots ix v, slotsWas := some (s.cycle, d.slotsSeen s.cycle) })

/-- The bytes of a listen word are filters that R354 accepts in place of the word in force. -/
def listenOk (s : State) (die : Nat) (v : Word) : Bool :=
  let d := s.die die
  let own := die / 8
  (List.range 8).all (fun f =>
    let b := wf64 v (8 * f + 7) (8 * f)
    let old := wf64 d.listen (8 * f + 7) (8 * f)
    decide (b / 64 % 2 = 0) && decide (b % 64 < 48)
      && (b == old || (decide (2 ≤ f) && !(decide (128 ≤ b) && b % 64 == own))
          || (decide (f < 2) && !(s.pkg own).topo.nodesPresent.contains (8 * f + die % 8) && !(decide (128 ≤ b) && b % 64 == own))))

/-- A pending listen word starts a topology change, or joins the one that its port has still to adopt (R354). -/
def setListen (s : State) (die : Nat) (v : Word) : State :=
  if listenOk s die v then
    let t := s.modDie die (fun d => { d with listenPending := some v })
    if s.changing && portVersion s (die / 8) (die % 8) != s.version then t else startChange t
  else s

def keyOf (s : State) (die ix : Nat) : KeyEntry := lookup KeyEntry.reset (s.die die).keys ix
def setKey (s : State) (die ix : Nat) (k : KeyEntry) : State :=
  s.modDie die (fun d => { d with keys := insertAt d.keys ix k })

/-- A store of one of the four key words of an entry: refused while it is armed. -/
def setKeyWord (s : State) (die ix word : Nat) (v : Word) : State :=
  let k := keyOf s die ix
  if k.armed then s
  else
    let bs := overlay (leBytes k.key.toNat 32) (8 * word) (leBytes v.toNat 8)
    setKey s die ix { k with key := BitVec.ofNat 256 (ofLe bs) }

/-- With no die's entry 0 armed with kind 2 the domain has no key (R107). -/
def keyGone (s : State) : State :=
  if s.dies.any (fun e => (dieKey s e.1).isSome) then s else { s with domKey := none }

/-- Arming an entry: its counter is zeroed; kind 2 is for entry 0, kind 1 for the others and the die's world, and the reserved kind 3 arms
without a use (R355; DESIGN CHOICE, notes/assumptions/70.md). Entry 0 gives the domain its key (R107) and lights the package's ports;
arming it again rekeys them at the next adoption (R388). -/
def armKey (s : State) (die ix : Nat) (v : Word) : State :=
  let k := keyOf s die ix
  let kind := wf64 v 1 0
  let world := BitVec.ofNat 16 (wf64 v 31 16)
  if kind = 0 ∨ (kind = 2 ∧ ix ≠ 0) ∨ (kind = 1 ∧ ix = 0) ∨ (kind = 1 ∧ world ≠ (s.die die).world) then s
  else
    let t := setKey s die ix { k with
      fixed := BitVec.ofNat 32 (wf64 v 63 32), world := world, armed := true, kind := BitVec.ofNat 2 kind, counter := 0 }
    if ix = 0 ∧ kind = 2 then
      { t with domKey := some k.key }.modPkg (pkgOfDie die) (fun p => { p with
        lit := true, rekey := if p.lit then List.range 8 else p.rekey })
    else keyGone t

/-- Disarming an entry zeroes its key and takes the other fields of its store (R355). -/
def disarmKey (s : State) (die ix : Nat) (v : Word) : State :=
  keyGone (setKey s die ix { keyOf s die ix with
    fixed := BitVec.ofNat 32 (wf64 v 63 32), world := BitVec.ofNat 16 (wf64 v 31 16), armed := false, kind := 0, key := 0 })

/-- A store to an entry's control word; its reserved bits are not kept (R355). -/
def setKeyControl (s : State) (die ix : Nat) (v : Word) : State :=
  if wf64 v 1 0 = 0 then disarmKey s die ix v else armKey s die ix v

/-- The share of a task on a die runs there. -/
def shareRuns (s : State) (h : Word) (die : Nat) : Bool :=
  s.cells.any (fun e => e.1 / 144 == die && e.2.handle == h && (e.2.status == .running || e.2.status == .starting
    || e.2.status == .held || e.2.status == .halting))

/-- A write to a record's request word: bits for shares that run stay set until their strands are stowed (R252, R360). -/
def setRequest (s : State) (die index : Nat) (v : Word) : State :=
  match find? (s.die die).tasks index with
  | none => s
  | some t =>
    if t.state.isFinal then s
    else
      let h := mkHandle die index t.gen
      let want := (List.range 8).foldl (fun n d =>
        if v.getLsbD d && shareRuns s h (die / 8 * 8 + d) then n + 2 ^ d else n) 0
      s.modDie die (fun d => { d with tasks := insertAt d.tasks index { t with request := t.request ||| BitVec.ofNat 8 want } })

/-! Loads. -/

/-- Code of a task state in a record (R359). -/
def stateCode : TaskState → Nat
  | .waiting => 0
  | .ready => 1
  | .running => 2
  | .complete => 3
  | .failed => 4
  | .killed => 5
  | .free => 7

/-- The 8-byte word at an offset of a task record (R359 Table 12); `resetAt` is when CYCLE began. -/
def recordWord (t : Task) (resetAt off : Nat) : Word :=
  if off = 0x00 then BitVec.ofNat 64 (t.gen.toNat * 2 ^ 32 + (if t.persist then 2 ^ 25 else 0) + (if t.stowed then 2 ^ 24 else 0)
    + t.dcomp.toNat * 2 ^ 16 + t.ddisp.toNat * 2 ^ 8 + stateCode t.state)
  else if off = 0x08 then t.kernel
  else if off = 0x10 then t.control
  else if off = 0x18 then BitVec.ofNat 64 (t.succs.length * 2 ^ 32 + t.named * 2 ^ 16 + t.count)
  else if off = 0x20 then zx t.request
  else if off = 0x28 then BitVec.ofNat 64 (if t.state.isFinal then t.final - resetAt else 0)
  else if off = 0x30 then t.qlim
  else if 0x40 ≤ off ∧ off < 0xC0 then
    let c := t.operands.getD ((off - 0x40) / 16) 0
    if off % 16 = 0 then c.extractLsb' 0 64 else c.extractLsb' 64 64
  else if 0xC0 ≤ off ∧ off < 0xD0 then
    BitVec.ofNat 64 (ofLe ((List.range 4).flatMap (fun i => leBytes (lookup 0 t.heats ((off - 0xC0) / 2 + i)).toNat 2)))
  else if 0x100 ≤ off then t.succs.getD ((off - 0x100) / 8) 0
  else 0

/-- A region table entry (R351 Table 7). -/
def regionWord (r : Region) (high : Bool) : Word :=
  if high then BitVec.ofNat 64 r.sindex
  else BitVec.ofNat 64 (2 ^ 63 + (if r.sheld then 2 ^ 62 else 0) + (if r.stow then 2 ^ 58 else 0)
    + (if r.atom then 2 ^ 57 else 0) + (if r.wr then 2 ^ 56 else 0) + (if r.rd then 2 ^ 55 else 0)
    + (if r.mode then 2 ^ 54 else 0) + r.span * 2 ^ 51 + r.heat.toNat * 2 ^ 39 + r.size * 2 ^ 26 + r.base * 2 ^ 14)

/-- A control word of the key-handle table (R355 Table 10). -/
def keyWord (k : KeyEntry) : Word :=
  BitVec.ofNat 64 (k.fixed.toNat * 2 ^ 32 + k.world.toNat * 2 ^ 16 + (if k.armed then 4 else 0) + k.kind.toNat)

/-- The entry of the topology table for a package or node: present, severed, and the widths of its ports. -/
def topoEntry (present severed : List Nat) (widths : Nat) (n : Nat) : Word :=
  BitVec.ofNat 64 ((if present.contains n then 1 else 0) + (if severed.contains n then 2 else 0) + widths * 65536)

/-- A word of the topology table of a package (R356). -/
def topoWord (s : State) (pkg off : Nat) : Word :=
  let p := s.pkg pkg
  if off = 0 then BitVec.ofNat 64 (p.version.toNat + p.announced.toNat * 16 + pkg * 256)
  else if off < 0x108 then
    let q := (off - 8) / 8
    topoEntry p.topo.present p.topo.severed (lookup 0 p.topo.widths q) q
  else
    let n := (off - 0x108) / 8
    topoEntry p.topo.nodesPresent p.topo.nodesSevered (lookup 0 p.topo.widths (32 + n)) n

/-- What an 8-byte load of the window returns; none at an offset that Table 2 does not assign (R343). -/
def windowLoad (s : State) (die off : Nat) : Option Word :=
  let d := s.die die
  if off % 8 ≠ 0 then none
  else if off < 0x40 then
    some (match off / 8 with
      | 0 => BitVec.ofNat 64 d.local_
      | 1 => BitVec.ofNat 64 d.ptroot
      | 2 => BitVec.ofNat 64 d.rwin
      | 3 => BitVec.ofNat 64 d.bwin
      | 4 => BitVec.ofNat 64 d.pfdist
      | 5 => d.fqbase
      | 6 => d.lrbase
      | _ => BitVec.ofNat 64 d.lrm)
  else if 0x1000 ≤ off ∧ off < 0x2000 then some (lookup 0 d.slots ((off - 0x1000) / 8))
  else if off = 0x2000 then some d.listen
  else if off = 0x2008 then some (match d.listenPending with | some w => w | none => 0)
  else if 0x3000 ≤ off ∧ off < 0x4000 then
    let k := keyOf s die ((off - 0x3000) / 64)
    some (match off % 64 / 8 with | 0 => keyWord k | 1 => k.counter | _ => 0)
  else if 0x4000 ≤ off ∧ off < 0x4200 then some (if off < 0x4188 then topoWord s (die / 8) (off - 0x4000) else 0)
  else if 0x80000 ≤ off ∧ off < 0x80000 + 147456 then
    some (match find? d.regions ((off - 0x80000) / 16) with
      | some r => regionWord r (off % 16 == 8)
      | none => 0)
  else if 0x200000 ≤ off ∧ off < 0x400000 then
    some (recordWord (lookup Task.reset d.tasks ((off - 0x200000) / 512)) (s.cell (die * 144)).resetAt ((off - 0x200000) % 512))
  else none

/-- What an 8-byte store to the window does; a field marked RO keeps its value (R343). -/
def windowStore (s : State) (die off : Nat) (v : Word) : State :=
  if off % 8 ≠ 0 then s
  else if off < 0x40 then
    (match off / 8 with
     | 0 => setLocal s die v
     | 1 => setPtroot s die v
     | 2 => setRwin s die v
     | 3 => setBwin s die v
     | 4 => setPfdist s die v
     | 5 => setFqbase s die v
     | 6 => setLrbase s die v
     | _ => setLrm s die v)
  else if 0x1000 ≤ off ∧ off < 0x2000 then setSlot s die ((off - 0x1000) / 8) v
  else if off = 0x2008 then setListen s die v
  else if 0x3000 ≤ off ∧ off < 0x4000 then
    let ix := (off - 0x3000) / 64
    (match off % 64 / 8 with
     | 0 => setKeyControl s die ix v
     | 2 => setKeyWord s die ix 0 v
     | 3 => setKeyWord s die ix 1 v
     | 4 => setKeyWord s die ix 2 v
     | 5 => setKeyWord s die ix 3 v
     | _ => s)
  else if 0x200000 ≤ off ∧ off < 0x400000 ∧ (off - 0x200000) % 512 = 0x20 then setRequest s die ((off - 0x200000) / 512) v
  else s

/-! The window's rows. -/

def execWriteLocal (d : DieId) (v : Word) (s : State) : Out := .next (setLocal s (dieIx d) v)
def execWritePtroot (d : DieId) (v : Word) (s : State) : Out := .next (setPtroot s (dieIx d) v)
def execWriteRwin (d : DieId) (v : Word) (s : State) : Out := .next (setRwin s (dieIx d) v)
def execWriteBwin (d : DieId) (v : Word) (s : State) : Out := .next (setBwin s (dieIx d) v)
def execWritePfdist (d : DieId) (v : Word) (s : State) : Out := .next (setPfdist s (dieIx d) v)
def execWriteFqbase (d : DieId) (v : Word) (s : State) : Out := .next (setFqbase s (dieIx d) v)
def execWriteLrbase (d : DieId) (v : Word) (s : State) : Out := .next (setLrbase s (dieIx d) v)
def execWriteLrm (d : DieId) (v : Word) (s : State) : Out := .next (setLrm s (dieIx d) v)
def execWriteStowSlotList (d : DieId) (ix : Fin 512) (v : Word) (s : State) : Out := .next (setSlot s (dieIx d) ix.val v)
def execWriteListenPending (d : DieId) (v : Word) (s : State) : Out := .next (setListen s (dieIx d) v)
def execWriteKey (d : DieId) (ix : Fin 64) (word : Fin 4) (v : Word) (s : State) : Out :=
  .next (setKeyWord s (dieIx d) ix.val word.val v)
def execKeyArm (d : DieId) (ix : Fin 64) (v : Word) (s : State) : Out := .next (armKey s (dieIx d) ix.val v)
def execKeyDisarm (d : DieId) (ix : Fin 64) (v : Word) (s : State) : Out :=
  .next (disarmKey s (dieIx d) ix.val v)
def execWritePreemptRequest (d : DieId) (rec : Fin 4096) (bit : Fin 8) (s : State) : Out :=
  .next (setRequest s (dieIx d) rec.val (BitVec.ofNat 64 (2 ^ bit.val)))
def execWindowWrite (d : DieId) (off : BitVec 48) (v : Word) (s : State) : Out :=
  .next (windowStore s (dieIx d) off.toNat v)

end Sys2Proof.Machine
end

