-- ==== Sys2Proof/Machine/Access.lean ====
section
/-! DEFINITION. Accesses of the A engine at issue (R260, R262, R268, R275, R285): the checks a local home makes, and the
operations that leave the cell; with the scalar loads, stores and atomics (R284 to R286, R108). -/
namespace Sys2Proof.Machine
open Sys2Proof

/-- What the checks of one access within a granule say: accepted (on the own die with its site), refused, without a translation,
or out of bounds with nothing to be accessed (R227). -/
inductive Checked where
  | ok (site : Option Site) (tlb : List TlbEntry)
  | fault (code : FaultCode) (val : Word)
  | miss
  | outside

/-- FAULTV of a refused access: the granule for ECC, otherwise the address (R196). -/
def faultAddr (code : FaultCode) (w : Word) : Word :=
  if code = .ecc then BitVec.ofNat 64 (w.toNat / 32 * 32) else w

/-- The checks of one access at issue (R260 to R262, R268, R275, R343). `win` marks an 8-byte load or store. -/
def checkAt (s : State) (ix : Nat) (tlb : List TlbEntry) (w : Word) (n : Nat) (need : Need) (win : Bool) : Checked :=
  if !addrOk w then .fault .align w
  else if !isLocal ix w then .ok none tlb
  else if inWindow w then
    if isCmd ix && win && (windowLoad s (homeDie w) (wf64 w 47 0)).isSome then .ok (some ⟨w.toNat, none⟩) tlb
    else .fault .perm w
  else if aVault w then
    match vaultCheck s w need with
    | .error e => .fault e w
    | .ok r =>
      match granuleFault s r w n need with
      | some e => .fault e (faultAddr e w)
      | none => .ok (some ⟨w.toNat, some r.heat⟩) tlb
  else
    match translate s (dieOfCell ix) tlb (aOff w) need with
    | none => .miss
    | some (a, t) => .ok (some ⟨a, none⟩) t

/-! Operations in flight. -/

def OpKind.isLoad : OpKind → Bool
  | .load _ _ | .kload _ | .rmw _ _ _ _ => true
  | _ => false

def OpKind.isStore : OpKind → Bool
  | .store _ _ => true
  | _ => false

def overlapAt (a la b lb : Nat) : Bool := decide (a < b + lb) && decide (b < a + la)

/-- Where an operation is performed: at its site, or where its home would place it now. -/
def MemOp.place (s : State) (o : MemOp) : Option Nat :=
  match o.site with
  | some p => some p.phys
  | none => (homeSite s o.addr o.kind.need).toOption.map (·.phys)

/-- Two operations meet in a byte (R309): by their addresses or, in paged space, where two pages may share a frame, by their places. -/
def MemOp.meets (s : State) (o x : MemOp) : Bool :=
  overlapAt o.addr.toNat o.len x.addr.toNat x.len ||
  (!aVault o.addr && !aVault x.addr && homeDie o.addr == homeDie x.addr &&
    (match o.place s, x.place s with
     | some p, some q => overlapAt p o.len q x.len
     | _, _ => false))

/-- Loads in flight, at most 16, shared with atomics; stores in flight, at most 64 (R285). -/
def Cell.loads (c : Cell) : Nat := (c.ops.filter (·.kind.isLoad)).length
def Cell.stores (c : Cell) : Nat := (c.ops.filter (·.kind.isStore)).length

/-- An earlier write of the strand to some of the bytes has not been performed (R309). -/
def Cell.writePending (c : Cell) (w : Word) (n : Nat) : Bool :=
  c.ops.any (fun o => o.kind.writes && !o.performed && overlapAt o.addr.toNat o.len w.toNat n)

/-- Mark a k-register as pending (R91). -/
def Cell.pendKreg (c : Cell) (k : Nat) : Cell := { c with pendK := k :: c.pendK }
def Cell.unpendKreg (c : Cell) (k : Nat) : Cell := { c with pendK := c.pendK.erase k }

/-- A slot of a list that a source has refused or held back on its way to a destination (R325). -/
def slotBlocks (src dst : Nat) (x : RingSlot) : Bool := x.src == src && x.dst == dst && (x.lap != 0 || !x.entered)

/-- A packet is given to the ring of a package; it enters at once unless a refused slot of its source circulates towards its
destination (R325). -/
def putSlot (s : State) (pkg id src dst : Nat) : State :=
  s.modPkg pkg (fun p => { p with
    ringSlots := p.ringSlots ++ [⟨id, src, dst, 0, false, !p.ringSlots.any (slotBlocks src dst)⟩] })

/-- A packet has not been accepted at its station of the package's ring. -/
def onRing (s : State) (pkg id : Nat) : Bool := (s.pkg pkg).ringSlots.any (·.id == id)

/-- The station an access to another die goes to: that die of the package, or the bridge of the other package's plane. -/
def routeOf (ix : Nat) (w : Word) : Nat :=
  if homeDie w / 8 = pkgOfCell ix then dieStation (homeDie w % 8) else bridgeStation (pkgOfCell ix % 8)

/-- One element of an access: its operation, address, length and need; the page register that translates it instead of the TLB
(R223); and its bound (R227). -/
structure Part where
  kind : OpKind
  addr : Word
  len  : Nat
  need : Need
  page : Option TlbEntry
  bound : Bound
deriving DecidableEq, Repr

/-- An element that the TLB translates and no bound of its own limits. -/
def Part.plain (kind : OpKind) (addr : Word) (len : Nat) (need : Need) : Part := ⟨kind, addr, len, need, none, .none⟩

/-- An operation of word number `word` for one element, carrying the package's pts (R319); it takes a topology version as it leaves
the package (R335). -/
def newOp (s : State) (id word : Nat) (q : Part) (site : Option Site) : MemOp :=
  ⟨id, word, q.kind, q.addr, q.len, (s.pkg s.myPkg).pts, site, false, false, q.bound, 0, 0, none, .out, none, false⟩

/-- One element becomes an operation of the cell in focus; it enters the ring at once if it is sent to another die. -/
def addOp (s : State) (word : Nat) (q : Part) (site : Option Site) (send : Bool) : State :=
  let (id, s1) := s.fresh
  let s2 := s1.upd (fun c => { c with ops := c.ops ++ [newOp s id word q site] })
  if send && !isLocal s.me q.addr then putSlot s2 s.myPkg id (dieStation (s.myDie % 8)) (routeOf s.me q.addr) else s2

/-- The checks of one element at issue; one that is out of bounds is judged already. -/
def checkPart (s : State) (ix : Nat) (tlb : List TlbEntry) (q : Part) (win : Bool) : Checked :=
  match q.bound, q.page with
  | .out, _ => .ok none tlb
  | _, some e =>
    (match translate s (dieOfCell ix) [e] (aOff q.addr) q.need with
     | some (a, _) => .ok (some ⟨a, none⟩) tlb
     | none => .miss)
  | _, none => checkAt s ix tlb q.addr q.len q.need win

/-- Issue the elements of an access in order, up to the first that does not translate: the state with its operations (those
from the miss on not sent and without a site), and the address that missed (R198, R230). -/
def issueParts (word : Nat) (win : Bool) : State → Option Word → List Part → State × Option Word
  | s, missed, [] => (s, missed)
  | s, some a, q :: qs => issueParts word win (addOp s word q none false) (some a) qs
  | s, none, q :: qs =>
    match checkPart s s.me s.cur.tlb q win with
    | .ok site t => issueParts word win (addOp (s.upd (fun c => { c with tlb := t })) word q site true) none qs
    | _ => issueParts word win (addOp s word q none false) (some q.addr) qs

/-- The first stopping refusal among the elements before any that does not translate (R262, R285). -/
def firstRefusal (s : State) (ix : Nat) (win : Bool) : List TlbEntry → List Part → Option (FaultCode × Word)
  | _, [] => none
  | t, q :: qs =>
    match checkPart s ix t q win with
    | .ok _ t' => firstRefusal s ix win t' qs
    | .fault e v => some (e, v)
    | .miss | .outside => none

/-- Issue an access of several elements after its own checks: the address checks of R260, a wait for earlier writes to bytes
it reads, refusals, then its operations. `done` completes the state once they have left. -/
def issueAccess (s : State) (win : Bool) (parts : List Part) (done : State → State) : Res :=
  match parts.find? (fun q => !addrOk q.addr) with
  | some q => .trap .align q.addr
  | none =>
    if parts.any (fun q => q.need != .wr && s.cur.writePending q.addr q.len) then .stay .external s
    else
      match firstRefusal s s.me win s.cur.tlb parts with
      | some (e, v) => .trap e v
      | none =>
        let (word, s1) := s.fresh
        match issueParts word win s1 none parts with
        | (t, none) => .done (done t)
        | (t, some a) => .hold a word (done t)

/-! Scalar loads and stores (R284, R285). -/

/-- Bytes of a size code (R284 Table 1). -/
def sizeOf (z : BitVec 3) : Nat :=
  match z.toNat with
  | 0 | 1 => 1
  | 2 | 3 => 2
  | 4 | 5 => 4
  | _ => 8

/-- A load of one register: rd is pending until the data return. -/
def loadBody (kind : OpKind) (n : Nat) (w : Word) (mark : Cell → Cell) (s : State) : Res :=
  if w.toNat % n ≠ 0 ∨ !addrOk w then .trap .align w
  else if 16 ≤ s.cur.loads then .stay .external s
  else issueAccess s (n == 8) [.plain kind w n .rd] (fun t => t.upd mark)

/-- A store of n bytes; element 64 marks an access that is not split. -/
def storeBody (data : List Byte) (n : Nat) (w : Word) (s : State) : Res :=
  if w.toNat % n ≠ 0 ∨ !addrOk w then .trap .align w
  else if 64 ≤ s.cur.stores then .stay .external s
  else issueAccess s (n == 8) [.plain (.store data 64) w n .wr] id

def execLd (p : BitVec 4) (i : BitVec 7) (z : BitVec 3) (s d : BitVec 5) (st : State) : Out :=
  aWord { pg := p, aregs := [s.toNat, d.toNat], access := true } (fun st =>
    let n := sizeOf z
    loadBody (.load d z) n (amAddr st.cur s i n) (fun c => c.pend d.toNat) st) st

def execSt (p : BitVec 4) (i : BitVec 7) (z : BitVec 3) (s d : BitVec 5) (st : State) : Out :=
  aWord { pg := p, aregs := [s.toNat, d.toNat], access := true } (fun st =>
    let n := sizeOf z
    storeBody (leBytes (st.cur.readA d.toNat).toNat n) n (amAddr st.cur s i n) st) st

/-! Capability load and store (R108). -/

def execKld (p : BitVec 4) (s : BitVec 5) (k : BitVec 4) (st : State) : Out :=
  aWord { pg := p, aregs := [s.toNat], kregs := [k.toNat], access := true } (fun st =>
    loadBody (.kload k) 16 (st.cur.readA s.toNat) (fun c => c.pendKreg k.toNat) st) st

def execKst (p : BitVec 4) (s : BitVec 5) (k : BitVec 4) (st : State) : Out :=
  aWord { pg := p, aregs := [s.toNat], kregs := [k.toNat], access := true } (fun st =>
    let c := st.cur.readK k.toNat
    if c ≠ 0 ∧ !(capRights c).getLsbD 6 then .trap .capfail (zx (capOid c))
    else storeBody (leBytes c.toNat 16) 16 (st.cur.readA s.toNat) st) st

/-! Local atomics (R286). -/

def atomWord (op : RmwOp) (p : BitVec 4) (n : Nat) (t s d : BitVec 5) (st : State) : Out :=
  aWord { pg := p, aregs := [s.toNat, t.toNat, d.toNat], access := true } (fun st =>
    let c := st.cur
    let w := c.readA s.toNat
    if w.toNat % n ≠ 0 ∨ !addrOk w then .trap .align w
    else if 16 ≤ c.loads then .stay .external st
    else issueAccess st false [.plain (.rmw op d (c.readA t.toNat) (c.readA d.toNat)) w n .atom]
      (fun u => u.upd (fun c => c.pend d.toNat))) st

/-- Bytes of an atomic's size bit. -/
def atomSize (z : BitVec 1) : Nat := if z = 1 then 8 else 4

def execAtomAdd (p : BitVec 4) (z : BitVec 1) (t s d : BitVec 5) (st : State) : Out := atomWord .add p (atomSize z) t s d st
def execAtomAnd (p : BitVec 4) (z : BitVec 1) (t s d : BitVec 5) (st : State) : Out := atomWord .and p (atomSize z) t s d st
def execAtomOr (p : BitVec 4) (z : BitVec 1) (t s d : BitVec 5) (st : State) : Out := atomWord .or p (atomSize z) t s d st
def execAtomXor (p : BitVec 4) (z : BitVec 1) (t s d : BitVec 5) (st : State) : Out := atomWord .xor p (atomSize z) t s d st
def execAtomMin (p : BitVec 4) (z : BitVec 1) (t s d : BitVec 5) (st : State) : Out := atomWord .min p (atomSize z) t s d st
def execAtomMax (p : BitVec 4) (z : BitVec 1) (t s d : BitVec 5) (st : State) : Out := atomWord .max p (atomSize z) t s d st
def execAtomMinn (p : BitVec 4) (z : BitVec 1) (t s d : BitVec 5) (st : State) : Out := atomWord .minn p (atomSize z) t s d st
def execAtomMaxn (p : BitVec 4) (z : BitVec 1) (t s d : BitVec 5) (st : State) : Out := atomWord .maxn p (atomSize z) t s d st
def execAtomSwap (p : BitVec 4) (z : BitVec 1) (t s d : BitVec 5) (st : State) : Out := atomWord .swap p (atomSize z) t s d st
def execAtomCas (p : BitVec 4) (z : BitVec 1) (t s d : BitVec 5) (st : State) : Out := atomWord .cas p (atomSize z) t s d st
def execAtomFadd (p : BitVec 4) (t s d : BitVec 5) (st : State) : Out := atomWord .fadd p 4 t s d st

end Sys2Proof.Machine
end

