-- ==== Sys2Proof/Machine/Image.lean ====
section
/-! DEFINITION. The stow image of a strand (R204 Tables 6 to 8, R205, R207): its parts, the slot it is written to, and how it follows
what happens to a stowed strand. -/
namespace Sys2Proof.Machine
open Sys2Proof

/-! The stow image (R204 Tables 6 to 8, R205). A part is an offset from the slot base with bytes. Where the tables give a
field no position, the image keeps the order in which they name it (notes/assumptions/12.md). -/

abbrev Part8 := Nat × List Byte

/-- Little-endian fields of a width in bytes. -/
def fieldsLe (width : Nat) (xs : List Nat) : List Byte := xs.flatMap (fun x => leBytes x width)

/-- A unit of the strand's own heat. -/
def ownUnit {α : Type} (h : Heat) (m : SMap (Tagged α)) (k : Nat) : Option α :=
  match find? m k with
  | some t => if t.heat = h then some t.val else none
  | none => none

/-- Code of a stow cause in the header. -/
def causeCode : StowCause → Nat
  | .classPreemption => 0
  | .systemRequest => 1
  | .yield => 2
  | .fault => 3

def headerPart (s : State) (x : Stowed) : Part8 :=
  (0, fieldsLe 8 [x.ctx.heat.toNat, (s.die (dieOfCell x.cell)).world.toNat, x.handle.toNat, x.strand.toNat, causeCode x.cause,
    if x.held then 2 else 1, x.at_, if x.ctx.latch then 1 else 0] ++ List.replicate 192 0)

/-- An active loop of an engine record: start and end as parcel offsets, level, depth, latched trip. -/
def loopWord (entry : Word) (l : ActiveLoop) : Nat :=
  ((l.start - entry).toNat / 4) % 2 ^ 20 + ((l.stop - entry).toNat / 4) % 2 ^ 20 * 2 ^ 20 + l.level % 8 * 2 ^ 40
    + l.depth % 16 * 2 ^ 43 + l.trip % 2 ^ 16 * 2 ^ 47

/-- Bits of a list of numbers. -/
def bitsOf (xs : List Nat) : Nat := (xs.eraseDups).foldl (fun n x => n + 2 ^ x) 0

def engineFlags (c : Cell) (e : Engine) : Nat :=
  (match (c.engine e).park with | .atEnd => 1 | .yield | .halt => 2 | .none => 0) + (if e = .A ∧ c.fault.isSome then 4 else 0)

def engineBytes (c : Cell) (e : Engine) : List Byte :=
  let g := c.engine e
  let pend := if e = .A then leBytes (bitsOf (c.pendA.map (· - 1))) 4 ++ leBytes (bitsOf c.pendK) 2 else []
  fitBytes 256 (leBytes g.pc.toNat 8 ++ leBytes g.csn.toNat 4 ++ leBytes (min 255 g.nextIssue) 1 ++ leBytes (engineFlags c e) 1 ++ leBytes 0 2
    ++ fitBytes 64 (fieldsLe 8 (g.rets.reverse.map (·.toNat))) ++ leBytes g.rets.length 8
    ++ fitBytes 16 (fieldsLe 2 ((List.range 6).map (fun l => (lookup 0 g.lcnt l).toNat)))
    ++ fitBytes 48 (fieldsLe 8 (g.loops.reverse.map (loopWord c.entry)))
    ++ fieldsLe 2 ((List.range 31).map (fun i => (lookup 0 g.expect (i + 1) + 2 ^ 16 - c.version (i + 1) % 2 ^ 16) % 2 ^ 16)) ++ pend)

def sharedPart (c : Cell) : Part8 :=
  (0x400, fieldsLe 4 ((List.range 31).map (fun i => c.version (i + 1))) ++ fieldsLe 2 ((List.range 6).map (fun l => lookup 0 c.trips l)))

/-- The stowed control registers in sr order, the tag bitmap and the statuses. -/
def controlPart (c : Cell) : Part8 :=
  let tag (n : Nat) : Option CopyTag := find? c.tags n
  (0x500, fieldsLe 8 ([c.engctl.toNat, c.slip, c.faultc.toNat, c.faultv.toNat, c.vctl.toNat, c.ast.toNat, c.pgahead.toNat, c.fmtbase.toNat,
      c.wdogLimit, c.iret] ++ (List.range 6).map c.A.level ++ (List.range 16).map c.qminOf ++ (List.range 16).map c.qcapOf
      ++ [bitsOf ((List.range 64).filter (fun n => match tag n with | some t => t.ready | none => false))]
      ++ (List.range 64).map (fun n => match tag n with | some t => t.status.toNat | none => 0)))

def gensPart (c : Cell) : Part8 :=
  (0x900, fieldsLe 4 ((List.range 256).map (fun i => (c.generator c.epoch (c.vctl.extractLsb' 32 32) i).toNat)))

/-- Bits, from 0, of a list of presences. -/
def presence (xs : List Bool) : Nat := (List.range xs.length).foldl (fun n i => if xs.getD i false then n + 2 ^ i else n) 0

/-- Register units of the image and their presence bits (R204 Table 7). pN stands at bit N of its two bytes and bit 0 is zero
(DESIGN CHOICE, notes/assumptions/12.md). -/
def unitsPart (c : Cell) : Part8 :=
  let h := c.heat
  let ks := (List.range 16).map (ownUnit h c.kregs)
  let as := (List.range 31).map (fun i => ownUnit h c.aregs (i + 1))
  let ms := (List.range 7).map (fun i => ownUnit h c.mregs (i + 1))
  let bs := [c.A, c.V, c.M].flatMap (fun g => (List.range 8).map (ownUnit h g.bregs))
  let ps := (List.range 15).map (fun i => ownUnit h c.pregs (i + 1))
  let vs := (List.range 64).map (fun i => (ownUnit h c.vregs i).isSome)
  let accs := (List.range 4).map (fun i => (ownUnit h c.accs i).isSome)
  (0xD00, fieldsLe 16 (ks.map (fun o => (o.getD 0).toNat)) ++ fieldsLe 8 (as.map (fun o => (o.getD 0).toNat))
    ++ fieldsLe 16 (ms.map (fun o => (o.getD 0).toNat))
    ++ fieldsLe 4 (bs.map (fun o => match o with | some w => if w = 0 then 0 else (w - c.entry).toNat | none => 0))
    ++ leBytes (2 * presence (ps.map (fun o => o.getD false))) 2
    ++ leBytes (presence (ks.map (·.isSome) ++ as.map (·.isSome) ++ ms.map (·.isSome) ++ bs.map (·.isSome) ++ ps.map (·.isSome))) 12
    ++ leBytes (presence (vs ++ accs ++ [decide (c.bbuf.heat = h)])) 9)

/-- A stream's 512 bits (R218 Table 4). -/
def streamBytes (x : Stream) : List Byte :=
  leBytes x.base.toNat 8 ++ fitBytes 16 (fieldsLe 4 (x.str.map (·.toNat))) ++ fitBytes 8 (fieldsLe 2 (x.cnt.map (·.toNat)))
    ++ leBytes (ofLe (fitBytes 8 (fieldsLe 2 (x.pos.map (·.toNat)))) ||| (if x.done then 2 ^ 63 else 0)) 8
    ++ leBytes x.mode.toNat 4 ++ leBytes x.geom.toNat 8 ++ leBytes x.dist.toNat 2 ++ leBytes 0 2
    ++ leBytes (x.curpg &&& 0x81FFFFFF).toNat 4 ++ leBytes (x.nextpg &&& 0x81FFFFFF).toNat 4

def streamsPart (c : Cell) : Part8 :=
  (0x1000, (List.range 8).flatMap (fun n => match ownUnit c.heat c.sregs n with | some x => streamBytes x | none => List.replicate 64 0))

/-- The blocks of the queues in order: the entry each belongs to and its number within it. The image packs them into the block slots
from 0 on in this order (no rule says which slot a block has; DESIGN CHOICE, notes/assumptions/12.md). -/
def blockList (c : Cell) : List (QEntry × Nat) :=
  (List.range 16).flatMap (fun q => (c.queue q).flatMap (fun e => (List.range (blocksOf e.size)).map (fun b => (e, b))))

/-- Queue pointers: head slot, tail slot (one past the queue's last), entries, reserved entries (notes/assumptions/12.md). -/
def pointersPart (c : Cell) : Part8 :=
  let start (q : Nat) : Nat := (List.range q).foldl (fun n k => n + c.usedBlocks k) 0
  (0x1200, (List.range 16).flatMap (fun q =>
    fieldsLe 4 [start q, start q + c.usedBlocks q, (c.queue q).length, ((c.queue q).filter (fun e => !e.full)).length]))

/-- Four block states in a byte, two bits each. -/
def packStates : List Nat → List Byte
  | a :: b :: c :: d :: r => BitVec.ofNat 8 (a + 4 * b + 16 * c + 64 * d) :: packStates r
  | [] => []
  | r => [BitVec.ofNat 8 (r.foldr (fun x n => x + 4 * n) 0)]

/-- The elements of a load that still have to fill bytes of block b of an entry, as capability, address or offset, kind and the
bytes of the block they fill. -/
def openPieces (s : State) (c : Cell) (e : QEntry) (b : Nat) : List (Nat × Nat × Nat × Nat) :=
  c.ops.filterMap (fun o =>
    match o.kind with
    | .fill en _ off len => if en = e.id ∧ off / 32 = b then some (0, o.addr.toNat, 1, (2 ^ len - 1) * 2 ^ (off % 32)) else none
    | _ => none)
  ++ s.reqs.filterMap (fun r =>
    match r.op with
    | .read en blk n _ =>
      if en = e.id ∧ blk ≤ b ∧ b < blk + n ∧ c.ops.any (·.id == r.id) then some (r.cap.toNat, r.inOff + 32 * (b - blk), 2, 2 ^ 32 - 1) else none
    | _ => none)

/-- The reissue record of a block (R205): capability, address or pool offset of its first open element, the kind, the bytes that
one element fills, and as element positions the bytes of the block that are still to be filled (notes/assumptions/12.md). -/
def reissueRecord (xs : List (Nat × Nat × Nat × Nat)) : List Byte :=
  match xs with
  | [] => List.replicate 32 0
  | (cap, addr, kind, m) :: _ =>
    leBytes cap 16 ++ leBytes addr 8 ++ leBytes (kind + popCount m 32 * 256 + (xs.foldl (fun n x => n ||| x.2.2.2) 0) % 2 ^ 32 * 2 ^ 32) 8

/-- Block states and block slots: 01 and data, 10 and a reissue record, or 00 (R204, R205). -/
def blocksPart (s : State) (c : Cell) : List Part8 :=
  let bl := (blockList c).map (fun x => (x, openPieces s c x.1 x.2))
  [(0x1300, fitBytes 2048 (packStates (bl.map (fun x => if x.2.isEmpty then 1 else 2)))),
   (0x20000, bl.flatMap (fun x => if x.2.isEmpty then fitBytes 32 ((c.entryBytes x.1.1).drop (32 * x.1.2)) else reissueRecord x.2))]

/-- Scalar reissue slots in issue order, the rest empty (R204 Table 6). -/
def scalarPart (c : Cell) : Part8 :=
  (0x1B00, fitBytes 256 (c.ops.flatMap (fun o => match o.kind with
    | .load r z => leBytes o.addr.toNat 8 ++ leBytes (1 + z.toNat * 2 ^ 8 + r.toNat * 2 ^ 11) 8
    | .kload k => leBytes o.addr.toNat 8 ++ leBytes (2 + k.toNat * 2 ^ 11) 8
    | _ => [])))

/-- Present v-registers, tiles and the B buffer. R204 gives a tile's area wholly to its I and F parts and puts its counters into the last
granule of it: there they stand over F row 15, columns 120 to 127, which the restore takes from the strand's own state (DESIGN CHOICE,
notes/assumptions/12.md). -/
def arraysPart (c : Cell) : List Part8 :=
  let h := c.heat
  let vs := (List.range 64).filterMap (fun i => (ownUnit h c.vregs i).map (fun v =>
    (0x2000 + 512 * i, fieldsLe 4 ((List.range 128).map (fun l => (laneOf v l).toNat)))))
  let ts := (List.range 4).filterMap (fun i => (ownUnit h c.accs i).map (fun t =>
    (0xA000 + 20480 * i, overlay ((List.range 16).flatMap (fun r => fitBytes 768 (fieldsLe 6 ((lookup [] t.irows r).map (·.toNat))))
      ++ (List.range 16).flatMap (fun r => fitBytes 512 (fieldsLe 4 ((lookup [] t.frows r).map (·.toNat))))) 20448
      (leBytes t.steps 16 ++ leBytes t.horners 16))))
  let b : List Part8 := if c.bbuf.heat = h then
    [(0x1E000, fieldsLe 32 ((List.range 64).map (fun r => (lookup 0 c.bbuf.val.rows r).toNat)) ++ fitBytes 32 (leBytes c.bbuf.val.plane 8))] else []
  vs ++ ts ++ b

/-- The parts of a slot's image. -/
def stowImage (s : State) (x : Stowed) : List Part8 :=
  let c := x.ctx
  [headerPart s x, (0x100, engineBytes c .A), (0x200, engineBytes c .V), (0x300, engineBytes c .M), sharedPart c, controlPart c, gensPart c,
   unitsPart c, streamsPart c, pointersPart c, scalarPart c] ++ arraysPart c ++ blocksPart s c

/-- Write parts into a slot under the strand's heat (R204). -/
def writeParts (s : State) (h : Heat) (base : Word) : List Part8 → State
  | [] => s
  | (o, bs) :: ps => writeParts (putVaultMany s h (base + BitVec.ofNat 64 o) (granules ((bs.length + 31) / 32) bs)) h base ps

/-- Base address of a slot, by its region's table key. -/
def slotBase (s : State) (die slot : Nat) : Word :=
  match find? (s.die die).regions slot with
  | some r => vaultAddr die (slot / 64) (r.base * 1024)
  | none => 0

/-- Write parts of a stowed strand into its slot; where the region has gone nothing is written (R262). -/
def writeSlot (s : State) (die : Nat) (x : Stowed) (ps : List Part8) : State :=
  if (find? (s.die die).regions x.slot).isSome then writeParts s x.ctx.heat (slotBase s die x.slot) ps else s

/-- The parts of an image that change while the strand is stowed: header, engine records, counts, control registers and tags, units,
streams. -/
def liveParts (s : State) (x : Stowed) : List Part8 :=
  [headerPart s x, (0x100, engineBytes x.ctx .A), (0x200, engineBytes x.ctx .V), (0x300, engineBytes x.ctx .M), sharedPart x.ctx,
   controlPart x.ctx, unitsPart x.ctx, streamsPart x.ctx]

/-- Change the stowed strands of a die that a test picks, and their slots' images with them (R207, R225). -/
def modStowed (s : State) (die : Nat) (pick : Stowed → Bool) (f : Stowed → Stowed) : State :=
  let t := s.modDie die (fun d => { d with stowed := d.stowed.map (fun x => if pick x then f x else x) })
  ((s.die die).stowed.filter pick).foldl (fun u x =>
    writeSlot u die x (liveParts u (f x))) t

end Sys2Proof.Machine
end

