-- ==== Sys2Proof/Machine/Queues.lean ====
section
/-! DEFINITION. Queue loads and stores, streams, gathers and scatters (R215 to R233). -/
namespace Sys2Proof.Machine
open Sys2Proof

/-- Bytes of a block size code 0-4 (R42, R215). -/
def blockSize (z : BitVec 3) : Nat := 32 * 2 ^ z.toNat

/-- An entry reserved for a load: its pieces still to fill (R211, R214). -/
def loadEntry (c : Cell) (id size : Nat) (pieces : List Nat) : QEntry :=
  ⟨id, size, c.heat, List.replicate (max 32 size) 0, pieces, true⟩

/-- The granules of an access of n granules as elements of an operation. -/
def granuleParts (w : Word) (n : Nat) (need : Need) (kind : Nat → OpKind) : List Part :=
  (List.range n).map (fun j => Part.plain (kind j) (w + BitVec.ofNat 64 (32 * j)) 32 need)

/-- Reserve an entry of a queue for a load with its pieces, then issue them (R211, R212, R216). -/
def fillBody (q size : Nat) (mk : Nat → List Part) (pieces : List Nat) (done : State → State) (s : State) : Res :=
  let c := s.cur
  if c.qcapOf q < blocksOf size then .trap .qsize c.A.pc
  else if !c.canDraw q (blocksOf size) then .stay .draw s
  else
    let (id, s1) := s.fresh
    issueAccess s1 false (mk id) (fun t => done (t.upd (fun c => c.reserve q (loadEntry c id size pieces))))

def execLdq (p : BitVec 4) (i : BitVec 7) (z : BitVec 3) (s : BitVec 5) (q : BitVec 4) (st : State) : Out :=
  aWord { pg := p, aregs := [s.toNat], access := true } (fun st =>
    let n := blockSize z
    let w := amAddr st.cur s i n
    if w.toNat % 32 ≠ 0 then .trap .align w
    else fillBody q.toNat n (fun id => granuleParts w (n / 32) .rd (fun j => .fill id j (32 * j) 32))
      (List.range (n / 32)) id st) st

def execStq (p : BitVec 4) (i : BitVec 7) (z : BitVec 3) (s : BitVec 5) (q : BitVec 4) (st : State) : Out :=
  aWord { pg := p, aregs := [s.toNat], access := true } (fun st =>
    let c := st.cur
    let n := blockSize z
    let w := amAddr c s i n
    if w.toNat % 32 ≠ 0 then .trap .align w
    else
      match c.headAt q.toNat 0 with
      | .error k => .stay k st
      | .ok e =>
        if e.size ≠ n then .trap .qsize c.A.pc
        else
          let bs := c.entryBytes e
          issueAccess st false (granuleParts w (n / 32) .wr (fun j => .store (fitBytes 32 (bs.drop (32 * j))) j))
            (fun t => t.upd (fun c => c.popHead q.toNat))) st

/-! Stream set-up (R219). -/

/-- An A word that writes a stream, or raises ILLEGAL. -/
def streamWord (p : BitVec 4) (n : BitVec 3) (aregs : List Nat) (f : Cell → Stream → Option Stream) (st : State) : Out :=
  aWord { pg := p, aregs := aregs } (fun st =>
    match f st.cur (st.cur.readS n.toNat) with
    | some x => .done (st.upd (fun c => c.writeS n.toNat x))
    | none => .trap .illegal st.cur.A.pc) st

/-- A stream at its start: positions 0, not exhausted. -/
def Stream.restart (x : Stream) : Stream := { x with pos := [], done := false }

def execSbase (p : BitVec 4) (s : BitVec 5) (n : BitVec 3) (st : State) : Out :=
  streamWord p n [s.toNat] (fun c _ => some { Stream.zero with base := c.readA s.toNat, cnt := [1, 1, 1, 1] }) st

/-- Count limit of a dimension (R218). -/
def dimLimit (d : Nat) : Nat := if d = 3 then 32768 else 65535

def execSdim (p : BitVec 4) (t s : BitVec 5) (k : BitVec 2) (n : BitVec 3) (st : State) : Out :=
  streamWord p n [t.toNat, s.toNat] (fun c x =>
    let a := c.readA s.toNat
    let b := (c.readA t.toNat).toNat
    if sx (a.extractLsb' 0 32) ≠ a ∨ b = 0 ∨ dimLimit k.toNat < b then none
    else some { x.restart with
      str := setAt 0 x.str k.toNat (a.extractLsb' 0 32), cnt := setAt 0 x.cnt k.toNat (BitVec.ofNat 16 b) }) st

/-! Unfold geometry (R221 Table 6). -/

def gH (g : Word) : Nat := wf64 g 11 0
def gW (g : Word) : Nat := wf64 g 23 12
def gC (g : Word) : Nat := wf64 g 35 24
def gKH (g : Word) : Nat := wf64 g 39 36
def gKW (g : Word) : Nat := wf64 g 43 40
def gStride (g : Word) : Nat := wf64 g 47 44
def gPad (g : Word) : Nat := wf64 g 50 48

/-- Output size along an axis, 0 where the kernel does not fit. -/
def outSize (n pad k stride : Nat) : Nat := if n + 2 * pad < k then 0 else (n + 2 * pad - k) / stride + 1

def gOH (g : Word) : Nat := outSize (gH g) (gPad g) (gKH g) (gStride g)
def gOW (g : Word) : Nat := outSize (gW g) (gPad g) (gKW g) (gStride g)

def geomOk (g : Word) : Bool :=
  wf64 g 63 51 == 0 && gH g != 0 && gW g != 0 && gC g != 0 && gKH g != 0 && gKW g != 0 && gStride g != 0
    && gOH g != 0 && gOW g != 0

/-- Mode word of `sunf`: kind 0 or 1, pack 0-6, the rest zero. -/
def modeOk (m g : Word) : Bool :=
  decide (m.toNat < 32) && decide (m.toNat % 4 < 2) && decide (m.toNat / 4 < 7) &&
    (if m.toNat % 4 = 0 then g == 0 else decide (m.toNat / 4 = 0) && geomOk g)

def execSunf (p : BitVec 4) (t s : BitVec 5) (n : BitVec 3) (st : State) : Out :=
  streamWord p n [t.toNat, s.toNat] (fun c x =>
    let m := c.readA s.toNat
    let g := c.readA t.toNat
    if modeOk m g then some { x.restart with mode := m.setWidth 32, geom := g } else none) st

def execSpage (p : BitVec 4) (s : BitVec 5) (n : BitVec 3) (st : State) : Out :=
  streamWord p n [s.toNat] (fun c x =>
    let a := c.readA s.toNat
    if a.toNat < 65536 then some { x with dist := a.setWidth 16 } else none) st

/-! Stream position (R218, R220). -/

def Stream.dim (x : Stream) (d : Nat) : Nat := (x.cnt.getD d 0).toNat

/-- Accesses of the whole stream. -/
def Stream.total (x : Stream) : Nat := x.dim 0 * x.dim 1 * x.dim 2 * x.dim 3

/-- The position as one number, dimension 0 fastest. -/
def Stream.index (x : Stream) : Nat :=
  let p (d : Nat) := (x.pos.getD d 0).toNat
  p 0 + x.dim 0 * (p 1 + x.dim 1 * (p 2 + x.dim 2 * p 3))

/-- The positions of access number i. -/
def Stream.coords (x : Stream) (i : Nat) : List Nat :=
  [i % x.dim 0, i / x.dim 0 % x.dim 1, i / (x.dim 0 * x.dim 1) % x.dim 2, i / (x.dim 0 * x.dim 1 * x.dim 2)]

/-- The stream after an entry of n accesses. -/
def Stream.advance (x : Stream) (n : Nat) : Stream :=
  let i := x.index + n
  if x.total ≤ i then { x with pos := [], done := true }
  else { x with pos := (x.coords i).map (BitVec.ofNat 16) }

/-- Address of linear access number i (R220). -/
def Stream.address (x : Stream) (i : Nat) : Word :=
  (List.range 4).foldl (fun a d => a + sx (x.str.getD d 0) * BitVec.ofNat 64 ((x.coords i).getD d 0)) x.base

/-! Page registers (R223). -/

/-- A page register: valid bit, permissions, size and frame (R218 Table 4). -/
def pageWord (e : TlbEntry) : BitVec 32 :=
  BitVec.ofNat 32 (2 ^ 31 + e.perm.toNat * 2 ^ 22 + e.size * 2 ^ 20 + e.frame)

/-- The translation a valid page register holds, for the page that starts at an offset. -/
def pageEntry (w : BitVec 32) (va : Word) : Option TlbEntry :=
  if w.getLsbD 31 then
    some ⟨va.toNat, (w.extractLsb' 20 2).toNat, (w.extractLsb' 0 20).toNat, w.extractLsb' 22 3⟩
  else none

/-- Marks a next-page register whose fill is under way. -/
def pagePending : BitVec 32 := 0x40000000

/-- Page-ahead distance in bytes. -/
def aheadBytes (c : Cell) (x : Stream) : Nat := 32 * (if x.dist = 0 then c.pgahead.toNat else x.dist.toNat)

/-- The translation of the page that holds an own-die offset, from the TLB or by a walk (R223). -/
def findPage (s : State) (ix : Nat) (tlb : List TlbEntry) (off : Nat) : Option TlbEntry :=
  match tlb.find? (·.covers off) with
  | some e => some e
  | none => (walk s (dieOfCell ix) off).map (tlbOf off)

/-- The fill of the adjacent page starts once the room left in the page in use is less than the distance (R223); there is no page
below page 0. -/
def pageAhead (c : Cell) (x : Stream) (e : TlbEntry) (off : Nat) : Stream :=
  let up := !(x.str.getD 0 0).msb
  let room := if up then e.page + pageBytes e.size - (off + 32) else off - e.page
  if x.nextpg.getLsbD 31 || x.nextpg == pagePending || decide (aheadBytes c x ≤ room) || (!up && e.page == 0) then x
  else { x with nextpg := pagePending, nextva := BitVec.ofNat 64 (if up then e.page + pageBytes e.size else e.page - 1) }

/-- The stream with a page in use. -/
def Stream.usePage (x : Stream) (e : TlbEntry) : Stream := { x with curpg := pageWord e, curva := BitVec.ofNat 64 e.page }

/-- R223 for one granule at an own-die paged offset: the page register that serves it, or none where the TLB does, and the stream
after it; none where the page does not translate. A fill that the same word began is complete when it is needed. -/
def pageStep (s : State) (ix : Nat) (c : Cell) (x : Stream) (off : Nat) : Option (Option TlbEntry × Stream) :=
  let covers (e : TlbEntry) : Option TlbEntry := if e.covers off then some e else none
  let next := if x.nextpg = pagePending then findPage s ix c.tlb x.nextva.toNat else pageEntry x.nextpg x.nextva
  match (pageEntry x.curpg x.curva).bind covers, next.bind covers, findPage s ix c.tlb off with
  | some e, _, _ => some (some e, pageAhead c x e off)
  | none, some e, _ => some (some e, pageAhead c { x.usePage e with nextpg := 0 } e off)
  | none, none, some e => some (none, pageAhead c (x.usePage e) e off)
  | none, none, none => none

/-- Whether a stream address is paged space of the cell's own die. -/
def ownPaged (ix : Nat) (w : Word) : Bool := isLocal ix w && !aVault w && !inWindow w

/-- An access of the stream needs the page whose fill is under way (R223). -/
def waitsForFill (s : State) (ix : Nat) (c : Cell) (x : Stream) (w : Word) : Bool :=
  ownPaged ix w && x.nextpg == pagePending
    && !(match pageEntry x.curpg x.curva with | some e => e.covers (aOff w) | none => false)
    && (match findPage s ix c.tlb x.nextva.toNat with | some e => e.covers (aOff w) | none => aOff w / 65536 == x.nextva.toNat / 65536)

/-- R223 for the granules of an entry in order: the stream after them, with no page in use where one does not translate, and the
page register that serves each. The rule speaks of an access by its first byte; an access that spans two pages steps the registers at
each of its granules (DESIGN CHOICE, notes/assumptions/67.md). -/
def pageWalk (s : State) (ix : Nat) (c : Cell) : Stream → List Word → Stream × List (Option TlbEntry)
  | x, [] => (x, [])
  | x, w :: ws =>
    if !ownPaged ix w then
      let (y, es) := pageWalk s ix c x ws
      (y, none :: es)
    else
      match pageStep s ix c x (aOff w) with
      | some (e, y) =>
        let (z, es) := pageWalk s ix c y ws
        (z, e :: es)
      | none => ({ x with curpg := 0 }, none :: ws.map (fun _ => none))

/-! `sgo` (R222). -/

/-- Accesses of a linear entry that exist, as addresses in order. -/
def linearAddrs (x : Stream) (n : Nat) : List Word :=
  (List.range (min n (x.total - x.index))).map (fun m => x.address (x.index + m))

/-- Byte (row, col) of an unfold entry: its address, or none for a generated zero (R221). -/
def unfoldByte (g b : Word) (grp kb row col : Nat) : Option Word :=
  let p := 16 * grp + row
  let j := 64 * kb + col
  if gOH g * gOW g ≤ p ∨ gKH g * gKW g * gC g ≤ j then none
  else
    let t := j / gC g
    let iy : Int := ((p / gOW g * gStride g + t / gKW g : Nat) : Int) - gPad g
    let ix : Int := ((p % gOW g * gStride g + t % gKW g : Nat) : Int) - gPad g
    if iy < 0 ∨ (gH g : Int) ≤ iy ∨ ix < 0 ∨ (gW g : Int) ≤ ix then none
    else some (b + BitVec.ofNat 64 ((iy.toNat * gW g + ix.toNat) * gC g + j % gC g))

/-- Runs of consecutive bytes, each within one granule of memory and one block of the entry: (address, offset in the entry, length), in
order. -/
def addRun (runs : List (Word × Nat × Nat)) (off : Nat) (a : Option Word) : List (Word × Nat × Nat) :=
  match a with
  | none => runs
  | some w =>
    match runs with
    | (v, o, n) :: rs =>
      if v + BitVec.ofNat 64 n = w ∧ o + n = off ∧ w.toNat % 32 ≠ 0 ∧ off % 32 ≠ 0 then (v, o, n + 1) :: rs else (w, off, 1) :: runs
    | [] => [(w, off, 1)]

def unfoldRuns (g b : Word) (grp kb : Nat) : List (Word × Nat × Nat) :=
  ((List.range 1024).foldl (fun rs i => addRun rs i (unfoldByte g b grp kb (i / 64) (i % 64))) []).reverse

/-- Tensor base of the entry at a position: base + pos2 x str2 + pos3 x str3. -/
def Stream.tensor (x : Stream) : Word :=
  let p (d : Nat) := BitVec.ofNat 64 (x.pos.getD d 0).toNat
  x.base + p 2 * sx (x.str.getD 2 0) + p 3 * sx (x.str.getD 3 0)

/-- The stream has moved past the entry, and A issue is held for `cycles` (R222). -/
def sgoDone (n : Nat) (x : Stream) (cycles : Nat) (s : State) : State :=
  s.upd (fun c => (c.writeS n x).modEngine .A (fun g => { g with nextIssue := s.cycle + cycles }))

def sgoLinear (n q size : Nat) (x : Stream) (s : State) : Res :=
  let pack := 2 ^ (x.mode.toNat / 4 % 8)
  let addrs := linearAddrs x pack
  if 2048 < size * pack then .trap .illegal s.cur.A.pc
  else
    match addrs.find? (fun w => w.toNat % 32 ≠ 0) with
    | some w => .trap .align w
    | none =>
      let blocks := size / 32
      let grans := addrs.flatMap (fun w => (List.range blocks).map (fun j => w + BitVec.ofNat 64 (32 * j)))
      if grans.any (waitsForFill s s.me s.cur x) then .stay .external s
      else
        let (y, pages) := pageWalk s s.me s.cur x grans
        let mk (id : Nat) := (List.range grans.length).map (fun k =>
          { Part.plain (.fill id k (32 * k) 32) (grans.getD k 0) 32 .rd with page := pages.getD k none })
        match fillBody q (size * pack) mk (List.range grans.length) (sgoDone n (y.advance pack) pack) s with
        | .hold a w t => .hold a w (t.upd (fun c => c.writeS n { c.readS n with curpg := 0 }))
        | r => r

def sgoUnfold (n q size : Nat) (x : Stream) (s : State) : Res :=
  if size ≠ 64 then .trap .illegal s.cur.A.pc
  else
    let b := x.tensor
    if !aVault b then .trap .perm b
    else
      let runs := unfoldRuns x.geom b (x.pos.getD 1 0).toNat (x.pos.getD 0 0).toNat
      let mk (id : Nat) := (List.range runs.length).map (fun k =>
        let r := runs.getD k (0, 0, 0)
        Part.plain (.fill id k r.2.1 r.2.2) r.1 r.2.2 .rd)
      fillBody q 1024 mk (List.range runs.length) (sgoDone n (x.advance 1) 16) s

def execSgo (p : BitVec 4) (z n : BitVec 3) (q : BitVec 4) (st : State) : Out :=
  aWord { pg := p, access := true } (fun s =>
    let x := s.cur.readS n.toNat
    if x.done ∨ x.total = 0 then .done s
    else if x.mode.toNat % 4 = 1 then sgoUnfold n.toNat q.toNat (blockSize z) x s
    else sgoLinear n.toNat q.toNat (blockSize z) x s) st

/-- PAGE_AHEAD_FILL: the adjacent page's translation, or nothing where it does not translate (R223). -/
def execPageAheadFill (cid : CellId) (n : BitVec 3) (s : State) : Out :=
  let ix := cellIx cid
  let c := s.cell ix
  let x := c.readS n.toNat
  if x.nextpg ≠ pagePending then .next s
  else
    let off := x.nextva.toNat
    match findPage s ix c.tlb off with
    | some e => .next (s.setCell ix ({ c with tlb := tlbUse c.tlb e }.writeS n.toNat
        { x with nextpg := pageWord e, nextva := BitVec.ofNat 64 e.page }))
    | none => .next (s.setCell ix (c.writeS n.toNat { x with nextpg := 0 }))

/-! Gathers and scatters (R226 to R229). -/

/-- Index lane j of an index entry, as a signed number. -/
def idxAt (bs : List Byte) (j : Nat) : Int := (BitVec.ofNat 32 (ofLe (fitBytes 4 (bs.drop (4 * j))))).toInt

def elemAddr (base : Word) (i : Int) (size : Nat) : Word := base + BitVec.ofInt 64 (i * size)

/-- The bound of element j (R227): a negative index and the region of an own-die base are judged at issue, the region of another
die's base by its home. -/
def elemBound (s : State) (base : Word) (i : Int) (size : Nat) : Bound :=
  let w := elemAddr base i size
  if i < 0 then .out
  else if !aVault base || !addrOk base then .none
  else if isLocal s.me base then (if outsideRegion s base w size then .out else .none)
  else .region base w (s.cur.engctl.getLsbD 2)

/-- An element of a gather or scatter: one that is out of bounds accesses nothing, and one beyond its base's vault is taken to the
home of the base. -/
def elemPart (s : State) (kind : OpKind) (base : Word) (i : Int) (size : Nat) (need : Need) : Part :=
  let w := elemAddr base i size
  match elemBound s base i size with
  | .out => ⟨kind, BitVec.ofNat 64 (dieBase s.myDie), 0, need, none, .out⟩
  | .none => .plain kind w size need
  | b => ⟨kind, if w.toNat / 2 ^ 22 = base.toNat / 2 ^ 22 then w else base, size, need, none, b⟩

/-- With ENGCTL.oobtrap the first element that is judged out of bounds at issue raises PERM at the word (R227). -/
def oobTrap (s : State) (base : Word) (ibs : List Byte) (n size : Nat) : Option Word :=
  if s.cur.engctl.getLsbD 2 then
    ((List.range n).find? (fun j => elemBound s base (idxAt ibs j) size == .out)).map (fun j => elemAddr base (idxAt ibs j) size)
  else none

/-- Pop the index entry and reserve the data entry (R226 to R228). A PERM that is decided at issue (R227) comes before QSIZE of the data
queue (R212) and before the wait for room; the rules give no order (DESIGN CHOICE, notes/assumptions/67.md). -/
def gathWord (p j : BitVec 4) (s : BitVec 5) (q : BitVec 4) (n size : Nat) (st : State) : Out :=
  aWord { pg := p, aregs := [s.toNat], access := true } (fun st =>
    let c := st.cur
    let base := c.readA s.toNat
    if base.toNat % size ≠ 0 then .trap .align base
    else
      match c.headAt j.toNat 0 with
      | .error k => .stay k st
      | .ok e =>
        if e.size ≠ 512 then .trap .qsize c.A.pc
        else
          let ibs := c.entryBytes e
          match oobTrap st base ibs n size with
          | some w => .trap .perm w
          | none =>
            match fillBody q.toNat 512 (fun id => (List.range n).map (fun k =>
                elemPart st (.fill id k (k * size) size) base (idxAt ibs k) size .rd)) (List.range n) id
                (st.upd (fun c => c.popHead j.toNat)) with
            | .stay k _ => .stay k st
            | r => r) st

def execGathW (p j : BitVec 4) (s : BitVec 5) (q : BitVec 4) (st : State) : Out := gathWord p j s q 128 4 st
def execGathD (p j : BitVec 4) (s : BitVec 5) (q : BitVec 4) (st : State) : Out := gathWord p j s q 64 8 st
def execGathG (p j : BitVec 4) (s : BitVec 5) (q : BitVec 4) (st : State) : Out := gathWord p j s q 16 32 st

/-- Pop the value entry, then the index entry, and store or add element by element in ascending order (R229). QSIZE is judged once both
heads are there; R226 gives no order between it and the wait for the other queue (DESIGN CHOICE, notes/assumptions/67.md). -/
def scatWord (p j : BitVec 4) (s : BitVec 5) (q : BitVec 4) (n size : Nat) (need : Need)
    (kind : List Byte → Nat → OpKind) (st : State) : Out :=
  aWord { pg := p, aregs := [s.toNat], access := true } (fun st =>
    let c := st.cur
    let base := c.readA s.toNat
    if base.toNat % size ≠ 0 then .trap .align base
    else
      match c.headAt q.toNat 0, c.headAt j.toNat (if j = q then 1 else 0) with
      | .error k, _ => .stay k st
      | _, .error k => .stay k st
      | .ok ve, .ok ie =>
        if ve.size ≠ 512 ∨ ie.size ≠ 512 then .trap .qsize c.A.pc
        else
          let vbs := c.entryBytes ve
          let ibs := c.entryBytes ie
          match oobTrap st base ibs n size with
          | some w => .trap .perm w
          | none =>
            issueAccess st false ((List.range n).map (fun k =>
                elemPart st (kind (fitBytes size (vbs.drop (k * size))) (k * size / 32)) base (idxAt ibs k) size need))
              (fun u => u.upd (fun c => (c.popHead q.toNat).popHead j.toNat))) st

def storeKind (bs : List Byte) (e : Nat) : OpKind := .store bs e
def addKind (op : RmwOp) (bs : List Byte) (e : Nat) : OpKind := .scatAdd op (wordAt bs 0) e

def execScatW (p j : BitVec 4) (s : BitVec 5) (q : BitVec 4) (st : State) : Out := scatWord p j s q 128 4 .wr storeKind st
def execScatD (p j : BitVec 4) (s : BitVec 5) (q : BitVec 4) (st : State) : Out := scatWord p j s q 64 8 .wr storeKind st
def execScatG (p j : BitVec 4) (s : BitVec 5) (q : BitVec 4) (st : State) : Out := scatWord p j s q 16 32 .wr storeKind st
/-! An adding scatter needs the rights of an atomic, rd, wr and at (R229 names none; DESIGN CHOICE, notes/assumptions/66.md). -/

def execScatAddW (p j : BitVec 4) (s : BitVec 5) (q : BitVec 4) (st : State) : Out :=
  scatWord p j s q 128 4 .atom (addKind .add) st
def execScatAddD (p j : BitVec 4) (s : BitVec 5) (q : BitVec 4) (st : State) : Out :=
  scatWord p j s q 64 8 .atom (addKind .add) st
def execScatAddF (p j : BitVec 4) (s : BitVec 5) (q : BitVec 4) (st : State) : Out :=
  scatWord p j s q 128 4 .atom (addKind .fadd) st

end Sys2Proof.Machine
end

