-- ==== Sys2Proof/Machine/Perform.lean ====
section
/-! DEFINITION. Accesses performed at their homes and their responses (R197, R216, R229 to R232, R285, R286, R307 to R309,
R319), and text fetches (R40, R441). -/
namespace Sys2Proof.Machine
open Sys2Proof

/-! Operations in flight. -/

def Cell.op? (c : Cell) (id : Nat) : Option MemOp := c.ops.find? (·.id == id)
def Cell.dropOp (c : Cell) (id : Nat) : Cell := { c with ops := c.ops.filter (·.id != id) }
def Cell.modOp (c : Cell) (id : Nat) (f : MemOp → MemOp) : Cell :=
  { c with ops := c.ops.map (fun o => if o.id = id then f o else o) }

/-- The cell that holds an operation issued in cell ix: that one, or another of its die to which the strand has been restored. -/
def cellOfOp (s : State) (ix id : Nat) : Option Nat :=
  if ((s.cell ix).op? id).isSome then some ix
  else (s.cells.find? (fun e => e.1 / 144 == dieOfCell ix && (e.2.op? id).isSome)).map (·.1)

/-- Change the strand that an operation issued in cell ix belongs to, in its cell, or stowed with its slot's image (R207). -/
def onStrand (s : State) (ix id : Nat) (f : Cell → Cell) : State :=
  match cellOfOp s ix id with
  | some j => s.modCell j f
  | none => modStowed s (dieOfCell ix) (fun x => (x.ctx.op? id).isSome) (fun x => { x with ctx := f x.ctx })

/-- The operation's strand as it stands: in a cell, or stowed on its die. -/
def strandOf (s : State) (ix id : Nat) : Option Cell :=
  match cellOfOp s ix id with
  | some j => some (s.cell j)
  | none =>
    match (s.die (dieOfCell ix)).stowed.find? (fun x => (x.ctx.op? id).isSome) with
    | some x => some x.ctx
    | none => none

/-- No earlier access of the strand to a common byte waits to be performed (R309). A write waits until an earlier read has returned, since a
read that a pre-emption abandons before that is performed anew (R317, R322). -/
def clearBefore (s : State) (o : MemOp) : List MemOp → Bool
  | [] => true
  | x :: xs =>
    if x.id = o.id then true
    else ((x.performed && (x.kind.writes || !o.kind.writes)) || !o.meets s x) && clearBefore s o xs

/-- The package of an operation's home. -/
def MemOp.homePkg (o : MemOp) : Nat := homeDie o.addr / 8

/-- An operation has reached its home: it is there, or the ring that leads to it has delivered it (R327). -/
def atHome (s : State) (ix : Nat) (o : MemOp) : Bool :=
  isLocal ix o.addr ||
    (if o.homePkg = pkgOfCell ix then !onRing s o.homePkg o.id else o.leg == .crossed && !onRing s o.homePkg o.id)

/-- An operation is one of the elements that a held XLATE keeps back (R198). -/
def Cell.isHeld (c : Cell) (ix id : Nat) : Bool := (c.heldOps ix).any (·.id == id)

/-- A store of a word whose own-die elements have not all translated (R232). -/
def partUntranslated (ix : Nat) (c : Cell) (o : MemOp) : Bool :=
  o.kind.writes && isLocal ix o.addr && c.ops.any (fun x => x.word == o.word && x.site.isNone && x.bound != .out && isLocal ix x.addr)

/-- A miss at a remote home that its command cell still has time to resolve (R275). R231 lets a home resolve a miss or return a final
RXLATE: the home waits Config.missWait cycles and then returns it (DESIGN CHOICE, notes/assumptions/63.md). -/
def missOpen (s : State) (ix : Nat) (o : MemOp) : Bool :=
  remoteMiss s (s.die (dieOfCell ix)).world o.addr o.kind.need && referOpen s o.missed o.id

/-- What a home on another die says of an operation when it arrives (R227, R231, R261, R275). -/
def arriveRemote (s : State) (ix : Nat) (o : MemOp) : Checked :=
  let world := (s.die (dieOfCell ix)).world
  match homeGate s world o.addr, o.bound with
  | some e, _ => .fault e (faultAddr e o.addr)
  | none, .region base elem trap =>
    if outsideRegion s base elem o.len then (if trap then .fault .perm elem else .outside)
    else
      (match homeSite s o.addr o.kind.need with
       | .ok p => .ok (some p) []
       | .error e => .fault e (faultAddr e o.addr))
  | none, _ =>
    if missOpen s ix o then .miss
    else
      match homeSite s o.addr o.kind.need with
      | .ok p => .ok (some p) []
      | .error e => .fault e (faultAddr e o.addr)

/-- The checks that an operation meets when it arrives; a reissued one is checked anew (R231, R285, R439). A miss waits: for the
strand's own held XLATE, or for the command cell of the home. -/
def arrive (s : State) (ix : Nat) (c : Cell) (o : MemOp) : Checked :=
  match o.bound, o.site, o.reissue with
  | .out, _, _ => .outside
  | _, some p, false => .ok (some p) c.tlb
  | _, none, false => if isLocal ix o.addr then .miss else arriveRemote s ix o
  | _, _, true => if isLocal ix o.addr then checkAt s ix c.tlb o.addr o.len o.kind.need (o.len == 8) else arriveRemote s ix o

/-- The TLB after an operation has arrived: only an own-die translation changes it (R208). -/
def tlbAfter (ix : Nat) (c : Cell) (o : MemOp) (tlb : List TlbEntry) : List TlbEntry := if isLocal ix o.addr then tlb else c.tlb

/-- A read that a pre-emption has abandoned: its strand's stow takes its record, and it is performed at its reissue (R202, R322). -/
def abandoned (c : Cell) (o : MemOp) : Bool := c.status == .stowing && o.reissue

/-- The operation may be performed now. -/
def mayPerform (s : State) (ix : Nat) (c : Cell) (o : MemOp) : Bool :=
  !o.performed && o.reply.isNone && !o.dead && !abandoned c o && atHome s ix o && directClear s o.addr && clearBefore s o c.ops
    && !partUntranslated ix c o && !c.isHeld ix o.id

/-! Homes and times (R319). -/

/-- A strand has received a response that carries a time. -/
def Cell.saw (c : Cell) (t : Nat) : Cell := { c with seen := max c.seen t }

/-- Bytes of a read at its home: a word of the die window, or memory; a corrected single-bit error is counted (R382). -/
def readHome (s : State) (o : MemOp) (p : Site) : Except FaultCode (List Byte × State) :=
  if inWindow o.addr then
    .ok (leBytes (match windowLoad s (homeDie o.addr) (wf64 o.addr 47 0) with | some v => v.toNat | none => 0) o.len, s)
  else
    match readSite s o.addr p o.len with
    | .error e => .error e
    | .ok bs => .ok (bs, noteEcc s o.addr p)

/-! Refusals (R197, R231). -/

/-- The bit of the element mask for an operation of a split access; none for an access of one element. -/
def maskBit : OpKind → Option Nat
  | .fill _ _ off _ => some (off / 32 % 64)
  | .store _ e => if e = 64 then none else some (e % 64)
  | .scatAdd _ _ e => some (e % 64)
  | _ => none

/-- Nothing more of an operation's word is in flight: the mask of its refused elements is reported. -/
def Cell.finishWord (c : Cell) (word : Nat) : Cell :=
  if c.ops.any (fun o => o.word == word) then c
  else
    match find? c.masks word with
    | some m => { c with masks := dropKey c.masks word, reports := c.reports ++ [(⟨.rxlate, m⟩ : Report)] }
    | none => c

/-- Two loads of an entry fill one of its blocks. -/
def OpKind.sameBlock : OpKind → OpKind → Bool
  | .fill e _ off _, .fill f _ off' _ => e == f && off / 32 == off' / 32
  | _, _ => false

/-- A refused reissue record fills its queue block with zeros, with every element of the record (R205, R439). -/
def Cell.zeroBlock (c : Cell) (o : MemOp) : Cell :=
  let mates := c.ops.filter (fun x => x.reissue && x.kind.sameBlock o.kind)
  let zero (c : Cell) (x : MemOp) : Cell :=
    match x.kind with
    | .fill e blk off _ => c.modEntry e (fun y => y.fill blk (off / 32 * 32) (List.replicate 32 0))
    | _ => c
  let d := mates.foldl zero c
  { d with ops := d.ops.filter (fun x => x.id == o.id || !mates.any (·.id == x.id)) }

/-- What a refused operation leaves: a register as it was, zeros in its part of an entry (R231, R285). A refused element of gath.w or
gath.d zeroes its own bytes, not its granule (DESIGN CHOICE, notes/assumptions/66.md); a refused reissue zeroes its block (R439). -/
def Cell.refusedEffect (c : Cell) (o : MemOp) : Cell :=
  match o.kind with
  | .load r _ => c.unpend r.toNat
  | .kload k => c.unpendKreg k.toNat
  | .rmw _ r _ _ => c.unpend r.toNat
  | .fill e blk off len =>
    if o.reissue && o.bound != .out then c.zeroBlock o else c.modEntry e (fun x => x.fill blk off (List.replicate len 0))
  | _ => c

/-- A home has refused an operation: a deferred report, or its bit in the word's element mask; of a reissued load the address
(R439). -/
def Cell.refuse (c : Cell) (o : MemOp) (code : FaultCode) (val : Word) : Cell :=
  let c1 := (c.refusedEffect o).dropOp o.id
  let c2 :=
    match code, (if o.reissue then none else maskBit o.kind) with
    | .rxlate, some b => { c1 with masks := insertAt c1.masks o.word (lookup 0 c1.masks o.word ||| BitVec.ofNat 64 (2 ^ b)) }
    | _, _ => { c1 with reports := c1.reports ++ [(⟨code, val⟩ : Report)] }
  c2.finishWord o.word

/-- An element out of bounds reads zeros or writes nothing, and sets AST.oob as it completes (R85, R227). -/
def Cell.leaveOutside (c : Cell) (o : MemOp) (cycle : Nat) : Cell :=
  (((c.refusedEffect o).dropOp o.id).finishWord o.word).raiseAst cycle astOob

/-- An operation has left with its effect. -/
def Cell.leave (c : Cell) (o : MemOp) (t : Nat) : Cell := ((c.dropOp o.id).saw t).finishWord o.word

/-! Loads (R285, R108). -/

/-- The value of a load of a size code (R284 Table 1). -/
def loadValue (z : BitVec 3) (bs : List Byte) : Word :=
  let v := ofLe bs
  match z.toNat with
  | 0 => sx (BitVec.ofNat 8 v)
  | 2 => sx (BitVec.ofNat 16 v)
  | 4 => sx (BitVec.ofNat 32 v)
  | _ => BitVec.ofNat 64 v

/-- What the data of a read does to its strand. -/
def Cell.deliver (c : Cell) (o : MemOp) (bs : List Byte) : Cell :=
  match o.kind with
  | .load r z => (c.writeA r.toNat (loadValue z bs)).unpend r.toNat
  | .kload k => (c.writeK k.toNat (BitVec.ofNat 128 (ofLe bs))).unpendKreg k.toNat
  | .fill e blk off _ => c.modEntry e (fun x => x.fill blk off bs)
  | _ => c

/-- Count a block by where it came from, once the last access to memory that fills it has returned (R382). -/
def countFill (s : State) (ix : Nat) (c : Cell) (o : MemOp) : State :=
  match o.kind with
  | .fill _ _ _ _ =>
    if c.ops.any (fun x => x.id != o.id && x.bound != .out && x.kind.sameBlock o.kind) then s
    else if !aVault o.addr then s.count (dieOfCell ix) 8
    else if !isLocal ix o.addr then s
    else if vaultOf o.addr = ix % 144 then s.count (dieOfCell ix) 6
    else s.count (dieOfCell ix) 7
  | _ => s

/-- The home of an operation refers its miss to its command cell (R275). -/
def noteMiss (s : State) (ix : Nat) (o : MemOp) : State :=
  if !isLocal ix o.addr && o.missed.isNone && o.site.isNone && atHome s ix o && missOpen s ix o
  then onStrand s ix o.id (fun c => c.modOp o.id (fun x => { x with missed := some s.cycle })) else s

/-! The way to a home on another die and back (R327). -/

/-- The response of an atomic reaches its register (R286, R91). -/
def rmwDeliver (o : MemOp) (old t : Nat) (c : Cell) : Cell :=
  match o.kind with
  | .rmw op r _ _ => ((c.writeA r.toNat (rmwReturn op o.len old)).unpend r.toNat).leave o t
  | _ => c.leave o t

/-- What a response does to its strand; an acknowledgement of a store carries no time that an acquire takes (R319). -/
def Cell.take (c : Cell) (o : MemOp) (cycle : Nat) : Reply → Cell
  | .data bs t => (c.deliver o bs).leave o t
  | .old v t => rmwDeliver o v t c
  | .done t => c.leave o (if o.kind.isStore then 0 else t)
  | .refused e v => c.refuse o e v
  | .outside => c.leaveOutside o cycle

/-- A response reaches its strand, and a filled block is counted. -/
def takeReply (s : State) (ix : Nat) (o : MemOp) (r : Reply) : State :=
  let t := onStrand s ix o.id (fun c => c.take o s.cycle r)
  match r, strandOf s ix o.id with
  | .data _ _, some c => countFill t ix c o
  | _, _ => t

/-- Change one operation of a strand. -/
def onOp (s : State) (ix id : Nat) (f : MemOp → MemOp) : State := onStrand s ix id (fun c => c.modOp id f)

/-- A response starts its way back to the strand's die: from the home on its own package's ring, or from the bridge of the strand's
package, which has refused the access (R327, R329). -/
def sendReply (s : State) (ix : Nat) (o : MemOp) (r : Reply) (atSource : Bool) : State :=
  let q := if atSource then pkgOfCell ix else o.homePkg
  let last := atSource || q == pkgOfCell ix
  putSlot (onOp s ix o.id (fun x => { x with reply := some r, performed := true, leg := if last then .returned else .back })) q o.id
    (if atSource then bridgeStation (q % 8) else dieStation (homeDie o.addr % 8))
    (if last then dieStation (dieOfCell ix % 8) else bridgeStation (q % 8))

/-- The home of an operation answers it: at once on the strand's own die, else on the way back. -/
def answerOp (s : State) (ix : Nat) (o : MemOp) (r : Reply) : State :=
  if isLocal ix o.addr then takeReply s ix o r else sendReply s ix o r false

/-- A response goes one step further on its way back, or reaches its strand. -/
def comeBack (s : State) (ix : Nat) (o : MemOp) (r : Reply) : State :=
  let p := pkgOfCell ix
  let q := o.homePkg
  if o.leg = .back then
    if o.dead then s
    else if severedFor s p q then sendReply s ix o (.refused .rxlate o.addr) true
    else if onRing s q o.id || !responseOpen s p q then s
    else putSlot (onOp s ix o.id (fun x => { x with leg := .returned })) p o.id (bridgeStation (q % 8)) (dieStation (dieOfCell ix % 8))
  else if onRing s p o.id then s
  else takeReply s ix o r

/-- An operation waits on its plane at a port that has a newer version in force (R337). -/
def staleAtPort (s : State) (ix : Nat) (o : MemOp) : Bool :=
  o.leg == .plane && o.reply.isNone && requestOpen s (pkgOfCell ix) o.homePkg
    && olderVersion o.version (portVersion s o.homePkg (pkgOfCell ix % 8))

/-- An access to another package goes one step further towards its home: refused at its source's bridge, out of the port under the
version in force, or past the port of the home's package once that has the same version in force (R327, R329, R335, R337). One that was
outstanding when its home was severed is dead; a later one is refused (R339). -/
def travel (s : State) (ix : Nat) (c : Cell) (o : MemOp) : State :=
  let p := pkgOfCell ix
  let q := o.homePkg
  if o.dead || abandoned c o || c.isHeld ix o.id || onRing s p o.id || p == q then s
  else if severedFor s p q then sendReply s ix o (.refused .rxlate o.addr) true
  else if o.leg = .out then
    if sourceRefuses s p q then sendReply s ix o (.refused .rxlate o.addr) true
    else if issuing s p (p % 8) && requestOpen s p q then
      onOp s ix o.id (fun x => { x with leg := .plane, version := portVersion s p (p % 8) })
    else s
  else if o.leg = .plane && requestOpen s p q && o.version == portVersion s q (p % 8) then
    putSlot (onOp s ix o.id (fun x => { x with leg := .crossed })) q o.id (bridgeStation (p % 8)) (dieStation (homeDie o.addr % 8))
  else s

/-- Perform a read of a cell: its value is fixed and reaches the strand, or its refusal does. A reissued read that is refused is
left to REISSUE_REFUSED (R439). -/
def performRead (s : State) (ix id : Nat) : State :=
  let c := s.cell ix
  match c.op? id with
  | none => s
  | some o =>
    match o.reply with
    | some r => comeBack s ix o r
    | none =>
      if !atHome s ix o then travel s ix c o
      else if !mayPerform s ix c o then s
      else
        match arrive s ix c o with
        | .miss => noteMiss s ix o
        | .outside => answerOp s ix o .outside
        | .fault e v => if o.reissue && isLocal ix o.addr then s else answerOp s ix o (.refused e v)
        | .ok none _ => s
        | .ok (some p) tlb =>
          match readHome s o p with
          | .error e => if o.reissue && isLocal ix o.addr then s else answerOp s ix o (.refused e (faultAddr e o.addr))
          | .ok (bs, t) =>
            answerOp (t.modCell ix (fun c => { c with tlb := tlbAfter ix c o tlb })) ix o (.data bs (homeTime s o.addr))

def isReg : OpKind → Bool
  | .load _ _ | .kload _ => true
  | _ => false

def isFill : OpKind → Bool
  | .fill _ _ _ _ => true
  | _ => false

/-- The operation of a cell with a number, if it is of a kind. -/
def opOfKind (s : State) (ix id : Nat) (k : OpKind → Bool) : Option MemOp :=
  match (s.cell ix).op? id with
  | some o => if k o.kind then some o else none
  | none => none

/-- LOAD_DATA_RETURN: the data of a scalar or capability load reach its register (R91, R285). -/
def execLoadDataReturn (cid : CellId) (id : Nat) (s : State) : Out :=
  .next (if (opOfKind s (cellIx cid) id isReg).isSome then performRead s (cellIx cid) id else s)

/-! Stores and atomics. -/

/-- The bytes that a store-like operation wrote reach hmax (R319). -/
def writeHome (s : State) (ix : Nat) (o : MemOp) (p : Site) : Except FaultCode (Nat × State) :=
  if inWindow o.addr then
    match o.kind with
    | .store data _ => .ok (0, windowStore s (homeDie o.addr) (wf64 o.addr 47 0) (wordAt data 0))
    | _ => .ok (0, s)
  else
    match performStore s ix { o with site := some p } with
    | .error e => .error e
    | .ok (v, t) => .ok (v, raiseTime t o.addr o.wtime)

/-- A store-like operation of a cell is performed at its home or refused, with code none while it waits: the old value and the state
after it. -/
def performWrite (s : State) (ix : Nat) (c : Cell) (o : MemOp) : Except (FaultCode × Word) (Nat × State) :=
  match arrive s ix c o with
  | .fault e v => .error (e, v)
  | .ok (some p) _ =>
    match writeHome s ix o p with
    | .error e => .error (e, faultAddr e o.addr)
    | .ok r => .ok r
  | _ => .error (.none, 0)

/-- What becomes of a part of a store that has reached its remote home: it waits for its other elements or for a translation; it is
refused as a whole; or each element has its site, or lies out of bounds (R227, R232, R262). -/
inductive PartFate where
  | wait
  | refused
  | accepted

/-- What a home says of one element of a remote part, the checks of its granule included (R262). -/
def judge (s : State) (ix : Nat) (c : Cell) (o : MemOp) : Checked :=
  match arrive s ix c o with
  | .ok (some p) t =>
    match granuleAt s o.addr o.len o.kind.need with
    | some e => .fault e (faultAddr e o.addr)
    | none => .ok (some p) t
  | r => r

/-- A refusal that bars the whole part: every one but that of an element beyond its bounds, which alone is not accessed (R227). -/
def bars (s : State) (o : MemOp) : Checked → Bool
  | .fault _ _ => !o.outside s
  | _ => false

/-- The elements of an operation's part that no home has decided on. -/
def openPart (c : Cell) (o : MemOp) : List MemOp :=
  c.ops.filter (fun x => o.samePart x && x.kind.writes && !x.performed && x.site.isNone)

/-- The fate of the part of a remote store (R232, R262). -/
def partFate (s : State) (ix : Nat) (c : Cell) (o : MemOp) : PartFate :=
  if isLocal ix o.addr || o.site.isSome then .accepted
  else
    let xs := openPart c o
    let waits (x : MemOp) : Bool := !atHome s ix x || c.isHeld ix x.id
      || (match judge s ix c x with | .miss => true | _ => false)
    if xs.any waits then .wait
    else if xs.any (fun x => bars s x (judge s ix c x)) then .refused
    else .accepted

/-- A refused part is answered as a whole: its refused elements are reported, and no other one is performed (R231, R232). -/
def refusePart (s : State) (ix : Nat) (c : Cell) (o : MemOp) : State :=
  (openPart c o).foldl (fun u x =>
    match judge s ix c x with
    | .fault e v => answerOp u ix x (.refused e v)
    | .outside => answerOp u ix x .outside
    | _ => answerOp u ix x (.done 0)) s

/-- An accepted part: each element gets its site; those out of bounds are answered (R227). -/
def acceptPart (s : State) (ix : Nat) (c : Cell) (o : MemOp) : State :=
  if isLocal ix o.addr || o.site.isSome then s
  else (openPart c o).foldl (fun u x =>
    match judge s ix c x with
    | .ok site _ => onOp u ix x.id (fun y => { y with site := site })
    | .fault e v => answerOp u ix x (.refused e v)
    | .outside => answerOp u ix x .outside
    | .miss => u) s

/-- A store or adding scatter of a strand, in its cell or stowed, goes one step further: on its way, its part decided, performed, or on
its way back (R202, R207, R307). -/
def storeStep (s : State) (ix : Nat) (c : Cell) (o : MemOp) : State :=
  match o.reply with
  | some r => comeBack s ix o r
  | none =>
    if !atHome s ix o then travel s ix c o
    else if !mayPerform s ix c o then s
    else if o.bound = .out then answerOp s ix o .outside
    else
      match partFate s ix c o with
      | .wait => (openPart c o).foldl (fun u x => noteMiss u ix x) s
      | .refused => refusePart s ix c o
      | .accepted =>
        let t := acceptPart s ix c o
        match strandOf t ix o.id with
        | none => t
        | some d =>
          match d.op? o.id with
          | none => t
          | some o1 =>
            if o1.reply.isSome then t
            else
              match performWrite t ix d o1 with
              | .error (.none, _) => t
              | .error (e, v) => answerOp t ix o1 (.refused e v)
              | .ok (_, u) => answerOp u ix o1 (.done (homeTime u o1.addr))

/-- An atomic of a strand, in its cell or stowed, goes one step further (R286, R207). -/
def rmwStep (s : State) (ix : Nat) (c : Cell) (o : MemOp) : State :=
  match o.reply with
  | some r => comeBack s ix o r
  | none =>
    if !atHome s ix o then travel s ix c o
    else if !mayPerform s ix c o then s
    else
      match performWrite s ix c o with
      | .error (.none, _) => noteMiss s ix o
      | .error (e, v) => answerOp s ix o (.refused e v)
      | .ok (old, t) => answerOp t ix o (.old old (homeTime t o.addr))

/-! Fault-queue dispositions (R256). -/

/-- A record and a STRAND name the same strand of a task: one die point and one cell point (R86 Table 7). -/
def samePoint (a b : Word) : Bool := wf64 a 34 16 == wf64 b 34 16

/-- The strand cell, of the record's package, whose strand a test picks among those of the record's task. -/
def strandCell (s : State) (die : Nat) (r : FaultRecord) (pick : Nat → Cell → Bool) : Option Nat :=
  (s.cells.find? (fun e => e.1 / 1152 == pkgOfDie die && !isCmd e.1 && e.2.status != .idle && e.2.handle == r.task && pick e.1 e.2)).map (·.1)

/-- The stowed strand, of the record's package, that a test picks among those of the record's task: its die and itself. -/
def stowedOf (s : State) (die : Nat) (r : FaultRecord) (pick : Stowed → Bool) : Option (Nat × Stowed) :=
  (List.range 8).findSome? (fun k =>
    let d := pkgOfDie die * 8 + k
    ((s.die d).stowed.find? (fun x => x.handle == r.task && pick x)).map (fun x => (d, x)))

/-- A held XLATE is the one that a record records. -/
def Cell.holds (c : Cell) (r : FaultRecord) : Bool :=
  match c.fault with
  | some h => h.fault == r.fault
  | none => false

/-- Resume the elements of a held access in order, from the faulting one (R198, R230): those of the own die that translate get their
site and those of other dies leave; the first that does not translate leaves the access held; the first refused stops the strand at
the word. The page registers of the stream that the access belongs to follow it (R223). -/
def resumeOps (s : State) (ix : Nat) (n : Option Nat) : List MemOp → State × Option MemOp × Option (FaultCode × Word)
  | [] => (s, none, none)
  | o :: os =>
    if o.bound = .out then resumeOps s ix n os
    else if !isLocal ix o.addr then
      resumeOps (putSlot s (pkgOfCell ix) o.id (dieStation (dieOfCell ix % 8)) (routeOf ix o.addr)) ix n os
    else
      match checkAt s ix (s.cell ix).tlb o.addr o.len o.kind.need (o.len == 8) with
      | .miss | .outside => (s, some o, none)
      | .fault e v => (s, none, some (e, v))
      | .ok site t =>
        let moved (c : Cell) : Cell :=
          match n with
          | none => c
          | some k =>
            match (if ownPaged ix o.addr then pageStep s ix c (c.readS k) (aOff o.addr) else none) with
            | some (_, y) => c.writeS k y
            | none => c
        resumeOps (s.modCell ix (fun c => { moved (c.modOp o.id (fun x => { x with site := site })) with tlb := t })) ix n os

/-- The strand gives up a held access, whose word has no effect (R198, R136): its operations not yet performed go, with the entry they
fill; what it popped and the stream it moved are as before; its registers are no longer pending; and the A engine stands at the word
again. -/
def Cell.abandonHeld (c : Cell) (h : Held) : Cell :=
  let mine (o : MemOp) : Bool := o.word == h.word && !o.performed && !o.reissue
  let c1 := (c.ops.filter mine).foldl (fun c o =>
    match o.kind with
    | .load r _ => c.unpend r.toNat
    | .kload k => c.unpendKreg k.toNat
    | .rmw _ r _ _ => c.unpend r.toNat
    | .fill e _ _ _ => { c with queues := mapVals (fun es => es.filter (fun x => x.id != e)) c.queues }
    | _ => c) c
  let c2 := h.popped.foldr (fun x c => c.setQueue x.1 (x.2 :: c.queue x.1)) c1
  let c3 := match h.stream with
    | some (n, x) => c2.writeS n { x with curpg := 0 }
    | none => c2
  { c3 with ops := c3.ops.filter (fun o => !mine o), A := { c3.A with pc := h.pc }, fault := none }

/-- The held XLATE becomes a stopping fault (R198, R199); the record of the hold is one of the stop's. -/
def convertHeld (s : State) (ix : Nat) (h : Held) (code : FaultCode) (val : Word) : State :=
  (takeFault (s.modCell ix (fun c => c.abandonHeld h)) ix 0 code val).modCell ix (fun c =>
    if c.stopped = 0 then c else { c with stopped := h.fault })

/-- Try a held access again from its faulting element (R198, R230). -/
def resumeHeld (s : State) (ix : Nat) (h : Held) : State :=
  let s1 := s.modCell ix (fun c => { c with fault := none })
  match resumeOps s1 ix (h.stream.map (·.1)) ((s.cell ix).heldOps ix) with
  | (t, none, none) => t
  | (t, some o, _) => holdFault t ix { h with addr := o.addr } (h.pc - (t.cell ix).entry)
  | (t, none, some (e, v)) => convertHeld t ix h e v

/-- A command cell that has returned to a held access tries it again (R191, R198). -/
def retryHeld (s : State) (ix : Nat) : State :=
  match (s.cell ix).fault with
  | some h => resumeHeld s ix h
  | none => s

/-- Withdraw the entry that would restore a stow slot, the whole entry where it restores a share's other strands too (R256 does not say what
becomes of them; DESIGN CHOICE, notes/assumptions/68.md). -/
def dropRestore (d : Die) (slot : Nat) : Die :=
  { d with ready := d.ready.filter (fun e => !e.restore.contains slot) }

/-- Disposition 1: the strand resumes, or its stow is no longer held (R256). -/
def dispositionResume (s : State) (die : Nat) (r : FaultRecord) : State :=
  match strandCell s die r (fun _ c => c.holds r), stowedOf s die r (fun x => x.held && x.ctx.holds r) with
  | some ix, _ => retryHeld s ix
  | none, some (d, x) => modStowed s d (fun y => y.slot == x.slot) (fun y => { y with held := false })
  | none, none => s

/-- Disposition 2: the held XLATE becomes a stopping one; a stowed strand's stow becomes a fault stow (R256). -/
def dispositionConvert (s : State) (die : Nat) (r : FaultRecord) : State :=
  match strandCell s die r (fun _ c => c.holds r), stowedOf s die r (fun x => x.held && x.ctx.holds r) with
  | some ix, _ =>
    (match (s.cell ix).fault with
     | some h => convertHeld s ix h .xlate h.addr
     | none => s)
  | none, some (d, x) =>
    (modStowed s d (fun y => y.slot == x.slot) (fun y => { y with
      held := false, cause := .fault
      ctx := match y.ctx.fault with
        | some h => { y.ctx.abandonHeld h with faultc := faultWord 0 (codeNum .xlate) false, faultv := h.addr, stopped := h.fault }
        | none => y.ctx })).modDie d (fun k => dropRestore k x.slot)
  | none, none => s

/-- Disposition 3: a fault stow gets a restore entry, for a record of the stop that made it (R256). Dispositions 3 and 4 that are stored
before the stow is complete are ignored for good (DESIGN CHOICE, notes/assumptions/25.md). -/
def dispositionRestore (s : State) (die : Nat) (r : FaultRecord) : State :=
  match stowedOf s die r (fun x => x.cause == .fault && x.done && samePoint x.strand r.strand && decide (x.ctx.stopped ≤ r.fault)) with
  | some (d, x) =>
    if (s.die d).ready.any (fun e => e.restore.contains x.slot) || (s.die d).restoring.any (fun e => e.restore.contains x.slot) then s
    else s.modDie d (fun k => { k with ready := k.ready ++ [⟨x.handle, x.ctx.cls, s.cycle, s.cycle, x.ctx.dpoint, 1, [x.slot]⟩] })
  | none => s

/-- Disposition 4: the task of a held or stowed strand fails (R256). -/
def dispositionFail (s : State) (die : Nat) (r : FaultRecord) : State :=
  let held := strandCell s die r (fun ix c => (c.fault.isSome || c.status == .held) && samePoint (strandReg ix c) r.strand)
  if held.isSome || (stowedOf s die r (fun x => samePoint x.strand r.strand)).isSome then failTask s r.task else s

/-- A disposition takes effect on the record it is written for; one that is not valid is ignored (R256). -/
def disposition (s : State) (die i v : Nat) : State :=
  match find? (s.die die).fqRecords i with
  | none => s
  | some r =>
    if r.cause.toNat / 4096 ≠ 0 then s
    else if v = 1 then dispositionResume s die r
    else if v = 2 then dispositionConvert s die r
    else if v = 3 then dispositionRestore s die r
    else if v = 4 then dispositionFail s die r
    else s

/-- Address offset of the disposition of record i from the queue's base. -/
def dispOff (i : Nat) : Nat := 32 + 64 * i + 0x38

/-- Records whose disposition lies among n bytes at an offset from the queue's base. -/
def dispHits (off n : Nat) : List Nat := (List.range 256).filter (fun i => overlapAt (dispOff i) 8 off n)

def applyHits (s : State) (die base : Nat) : List Nat → State
  | [] => s
  | i :: is =>
    let v := ofLe (Memory.read s.mem (base + dispOff i) 8)
    applyHits (disposition s die i v) die base is

/-- What the device does after a store of the command cell to its fault queue: records that wait find room once the head has
moved, and dispositions take effect (R255, R256). -/
def afterFqStore (s : State) (ix : Nat) (o : MemOp) : State :=
  let die := dieOfCell ix
  let b := (s.die die).fqbase.toNat
  if !isCmd ix || b == 0 || !overlapAt b 16416 o.addr.toNat o.len then s
  else
    let s1 := if overlapAt (b + 8) 1 o.addr.toNat o.len then flushRecords s die 272 else s
    applyHits s1 die b (dispHits (o.addr.toNat - b) o.len)

/-- STORE_PERFORMED: a store or adding scatter is performed at its home; one homed on another die reaches it and returns its
acknowledgement by steps of their own (R307). -/
def execStorePerformed (cid : CellId) (id : Nat) (s : State) : Out :=
  let ix := cellIx cid
  match opOfKind s ix id (fun k => k.isStore || (match k with | .scatAdd _ _ _ => true | _ => false)) with
  | none => .next s
  | some o =>
    let t := storeStep s ix (s.cell ix) o
    .next (if isLocal ix o.addr && ((t.cell ix).op? id).isNone then afterFqStore t ix o else t)

/-- REISSUE_REFUSED: a reissued load is refused: a local miss holds an XLATE, any other refusal is a deferred fault (R439). -/
def execReissueRefused (cid : CellId) (id : Nat) (s : State) : Out :=
  let ix := cellIx cid
  let c := s.cell ix
  match c.op? id with
  | none => .next s
  | some o =>
    if !o.reissue ∨ c.status ≠ .running then .next s
    else if !isLocal ix o.addr then
      match o.reply with
      | some (.refused e v) => .next (if o.leg == .returned && !onRing s (pkgOfCell ix) id then s.setCell ix (c.refuse o e v) else s)
      | _ => .next s
    else
      match arrive s ix c o with
      | .miss => if c.fault.isSome then .next s else .next (holdFault s ix ⟨o.addr, c.A.pc, o.word, 0, [], none⟩ (offsetOf c 0))
      | .fault e v => .next (s.setCell ix (c.refuse o e v))
      | .ok none _ | .outside => .next s
      | .ok (some p) _ =>
        match readHome s o p with
        | .error e => .next (s.setCell ix (c.refuse o e (faultAddr e o.addr)))
        | .ok _ => .next s

/-! Fault rows. -/

/-- STOPPING_FAULT of a running cell (R29, R191, R199). -/
def execStoppingFault (cid : CellId) (eng : BitVec 2) (code : FaultCode) (v : Word) (s : State) : Out :=
  .next (if (s.cell (cellIx cid)).status = .running then takeFault s (cellIx cid) eng code v else s)

/-- The first report that has reached a cell is taken; the others of a strand are recorded before its stow (R197, R203). -/
def takeReport (s : State) (ix : Nat) : State :=
  match (s.cell ix).reports with
  | [] => s
  | r :: rs => takeFault (s.modCell ix (fun c => { c with reports := rs })) ix 0 r.code r.val

/-- DEFERRED_FAULT_TAKEN: a report that has reached the cell is taken at the A engine's boundary (R197). -/
def execDeferredFaultTaken (cid : CellId) (s : State) : Out :=
  .next (if (s.cell (cellIx cid)).status = .running then takeReport s (cellIx cid) else s)

/-- FAULT_QUEUE_HEAD_WRITE: the command cell's store to the head byte; waiting records are appended (R255). -/
def execFaultQueueHeadWrite (d : DieId) (head : Word) (s : State) : Out :=
  let die := dieIx d
  if fqOpen s die then .next (flushRecords (putRegion s ((s.die die).fqbase + 8) [head.setWidth 8]) die 272) else .next s

/-- The command cell's store of a disposition is performed (R256). -/
def writeDisposition (s : State) (die i v : Nat) : State :=
  if !fqOpen s die ∨ 256 ≤ i then s
  else disposition (putRegion s ((s.die die).fqbase + BitVec.ofNat 64 (dispOff i)) (leBytes v 8)) die i v

def execDispositionResume (d : DieId) (ix : Nat) (s : State) : Out := .next (writeDisposition s (dieIx d) ix 1)
def execDispositionConvert (d : DieId) (ix : Nat) (s : State) : Out := .next (writeDisposition s (dieIx d) ix 2)
def execDispositionRestore (d : DieId) (ix : Nat) (s : State) : Out := .next (writeDisposition s (dieIx d) ix 3)
def execDispositionFail (d : DieId) (ix : Nat) (s : State) : Out := .next (writeDisposition s (dieIx d) ix 4)

/-- SLIPDEAD: after 64 cycles in which every engine short of `end` waited internally; the record names the engine with the smallest
CSN, A before V before M (R28). -/
def slipdeadEngine (c : Cell) : Engine :=
  match [Engine.A, .V, .M].find? (fun e => [Engine.A, .V, .M].all (fun f => decide (((c.engine e).csn - (c.engine f).csn).toInt ≤ 0))) with
  | some e => e
  | none => .A

def execSlipdead (cid : CellId) (s : State) : Out :=
  let ix := cellIx cid
  let c := s.cell ix
  if c.internalFor < 64 then .next s
  else
    let e := slipdeadEngine c
    .next (takeFault { s with cells := insertAt s.cells ix { c with internalFor := 0 } } ix (engNo e) .slipdead (c.engine e).pc)

/-! Text (R40, R441). -/

/-- The bytes of a granule of text for a cell, or the refusal of the fetch. A home on another die that has no translation for it answers
with a final RXLATE at once: R231 and R275 let it refer the miss to its command cell instead (DESIGN CHOICE, notes/assumptions/63.md). -/
def fetchGranule (s : State) (ix : Nat) (g : Word) : Except (FaultCode × Word) (List Byte × List TlbEntry × State) :=
  let c := s.cell ix
  let found : Checked :=
    if !addrOk g then .fault .align g
    else if isLocal ix g then checkAt s ix c.tlb g 32 .rd false
    else match remoteCheck s (pkgOfCell ix) (s.die (dieOfCell ix)).world g .rd with
      | .ok p => .ok (some p) c.tlb
      | .error e => .fault e g
  match found with
  | .miss | .outside => .error (.xlate, g)
  | .fault e v => .error (e, v)
  | .ok none t => .ok ([], t, s)
  | .ok (some p) t =>
    match readSite s g p 32 with
    | .error e => .error (e, faultAddr e g)
    | .ok bs => .ok (bs, t, noteEcc s g p)

/-- TEXT_FETCH: a granule of text reaches the cell's instruction cache, or its refusal stops the engine that needs it. -/
def execTextFetch (cid : CellId) (e : Engine) (g : Word) (s : State) : Out :=
  let ix := cellIx cid
  let w := BitVec.ofNat 64 (g.toNat / 32 * 32)
  if (find? (s.cell ix).icache (w.toNat / 32)).isSome || !mayLeave s (dieOfCell ix) w then .next s
  else
    match fetchGranule s ix w with
    | .error (code, _) => .next (takeFault s ix (engNo e) code w)
    | .ok (bs, t, u) => .next (u.modCell ix (fun c => { c with icache := insertAt c.icache (w.toNat / 32) bs, tlb := t }))

end Sys2Proof.Machine
end

