-- ==== Sys2Proof/Machine/Fences.lean ====
section
/-! DEFINITION. Releases and acquires (R306, R307, R311, R312, R315, R316, R319) and the fence words (R310). -/
namespace Sys2Proof.Machine
open Sys2Proof

/-- The request that an operation of a cell stands for, if it is one to the pool. -/
def reqOf (s : State) (id : Nat) : Option PoolReq := s.reqs.find? (·.id == id)

/-- An operation that does not write (R305 Table 1): a read, or a pool request that only reads. -/
def isRead (s : State) (o : MemOp) : Bool :=
  match o.kind with
  | .load _ _ | .kload _ | .fill _ _ _ _ | .copyRead => true
  | .pool =>
    match reqOf s o.id with
    | some r => match r.op with
      | .read _ _ _ _ | .check _ _ | .field _ _ => true
      | _ => false
    | none => true
  | _ => false

/-- An operation that only writes (R305 Table 1). -/
def isWrite (s : State) (o : MemOp) : Bool :=
  match o.kind with
  | .store _ _ => true
  | .pool =>
    match reqOf s o.id with
    | some r => match r.op with
      | .write _ => true
      | _ => false
    | none => false
  | _ => false

/-- An operation is performed at a scope though its acknowledgement is still under way: its home has performed it, and lies
within the scope's instance (R307). -/
def performedAt (ix scope : Nat) (o : MemOp) : Bool :=
  o.kind.isStore && o.performed && (decide (4 ≤ scope) || (decide (3 ≤ scope) && homeDie o.addr / 8 == pkgOfCell ix))

/-- A write that was in flight when its home was severed: its memory write, or its discarded pool write (R312, R339). -/
def isDead (s : State) (o : MemOp) : Bool :=
  o.dead || (o.kind == .pool && (match reqOf s o.id with | some r => r.discarded | none => false))

/-- The number FAULTV reports for the home of a discarded write. -/
def deadPackage (s : State) (o : MemOp) : Word :=
  match reqOf s o.id with
  | some r => Config.severedNode r.node
  | none => BitVec.ofNat 64 (homeDie o.addr / 8)

/-- What a discarded write leaves; the register of an atomic stopped being pending when its home was severed (R339). -/
def Cell.discard (c : Cell) (o : MemOp) : Cell := (c.dropOp o.id).finishWord o.word

/-- What a release comes to. -/
inductive Released where
  | wait
  | done (s : State)
  | severed (s : State) (pkg : Word)

/-- What the release of a strand's earlier accesses finds (R311, R312): that it waits, or the dead writes that it discards. -/
def releaseLook (s : State) (ix scope : Nat) (c : Cell) (covers : MemOp → Bool) : Option (List MemOp) :=
  if c.ops.any (fun o => covers o && !isDead s o && !performedAt ix scope o) then none
  else some (c.ops.filter (fun o => covers o && isDead s o))

/-- A strand without the dead writes that a release discards, and AST.sev set. -/
def Cell.discardAll (c : Cell) (cycle : Nat) (dead : List MemOp) : Cell :=
  if dead.isEmpty then c else dead.foldl (fun c o => c.discard o) (c.raiseAst cycle astSev)

/-- The requests of discarded writes go with them. -/
def dropDead (s : State) (dead : List MemOp) : State := { s with reqs := s.reqs.filter (fun r => !(dead.any (·.id == r.id))) }

/-- The release of a cell's earlier accesses at a scope, for a word that saw ENGCTL.sevtrap as `sev` (R86, R311, R312): it waits for those
that `covers` names. -/
def releaseUnder (sev : Bool) (s : State) (ix scope : Nat) (covers : MemOp → Bool) : Released :=
  match releaseLook s ix scope (s.cell ix) covers with
  | none => .wait
  | some [] => .done s
  | some (o :: os) =>
    let t := dropDead (s.modCell ix (fun c => c.discardAll s.cycle (o :: os))) (o :: os)
    if sev then .severed t (deadPackage s o) else .done t

/-- The release of a word that issues now (R311, R312). -/
def releaseOf (s : State) (ix scope : Nat) (covers : MemOp → Bool) : Released :=
  releaseUnder ((s.cell ix).engctl.getLsbD 1) s ix scope covers

/-- The release before a word of the cell in focus leaves the cell (R315). -/
def release (s : State) (scope : Nat) (go : State → Res) : Res :=
  match releaseOf s s.me scope (fun _ => true) with
  | .wait => .stay .external s
  | .severed t p => .trapWith t .severed p
  | .done t => go t

/-- pts never decreases and saturates at 2^48 - 1 (R277). -/
def liftPts (s : State) (pkg t : Nat) : State :=
  s.modPkg pkg (fun p => { p with pts := min (2 ^ 48 - 1) (max p.pts t) })

/-- An acquire of the cell in focus at a scope that covers every response it has received (R311, R319). -/
def acquireSeen (s : State) (scope : Nat) : State := if 4 ≤ scope then liftPts s s.myPkg s.cur.seen else s

/-- The wait of an acquire for every earlier read and RMW of the cell in focus (R311). -/
def acquireReads (s : State) (go : State → Res) : Res :=
  match releaseOf s s.me 0 (fun o => !isWrite s o) with
  | .wait => .stay .external s
  | .severed t p => .trapWith t .severed p
  | .done t => go t

/-- A fence.sc takes its place in the order S of R316: at a scope of other packages its package's clock passes those of the fences
before it, so that their writes are seen (R317). -/
def joinOrder (s : State) (scope : Nat) : State :=
  if scope < 4 then s
  else
    let t := liftPts s s.myPkg s.scTime
    { t with scTime := (t.pkg t.myPkg).pts }

def execFenceRel (p : BitVec 4) (c : BitVec 3) (s : State) : Out :=
  aWord { pg := p } (fun s => release s c.toNat .done) s

def execFenceAcq (p : BitVec 4) (c : BitVec 3) (s : State) : Out :=
  aWord { pg := p } (fun s =>
    acquireReads s (fun t => .done (acquireSeen t c.toNat))) s

def execFenceSc (p : BitVec 4) (c : BitVec 3) (s : State) : Out :=
  aWord { pg := p } (fun s =>
    release s c.toNat (fun t =>
      acquireReads t (fun t => .done (joinOrder (acquireSeen t c.toNat) c.toNat)))) s

end Sys2Proof.Machine
end

