-- ==== Sys2Proof/Machine/Pool.lean ====
section
/-! DEFINITION. The pool: its words (R287 to R296, R111), what a node does with a request (R279, R281 to R283, R291, R296) and
the read and write traffic of the pool cache (R277 to R279). -/
namespace Sys2Proof.Machine
open Sys2Proof

/-! Homes. -/

/-- The object a request names, at its node. -/
def objOf (s : State) (n oid : Nat) : Option PoolObj := find? (s.node n).objects oid

def PoolReq.oid (r : PoolReq) : Nat := (capOid r.cap).toNat

/-- A node is present in the domain as a package sees it (R329, R339). -/
def nodePresent (s : State) (p n : Nat) : Bool :=
  (s.pkg p).topo.nodesPresent.contains n && !s.topo.nodesSevered.contains n && !(s.pkg p).severSelf

/-- The link between a package and a node carries traffic: port and front end of the node's plane are up (R327, R338, R339). -/
def nodeOpen (s : State) (p n : Nat) : Bool :=
  let t := lookup Port.reset (s.node n).ports (n % 8)
  portUp s p (n % 8) && decide (t.width < 3) && decide (t.pausedTill ≤ s.cycle)

/-- Change one request. -/
def modReq (s : State) (id : Nat) (f : PoolReq → PoolReq) : State :=
  { s with reqs := s.reqs.map (fun r => if r.id = id then f r else r) }
def dropReq (s : State) (id : Nat) : State := { s with reqs := s.reqs.filter (fun r => r.id != id) }
def req? (s : State) (id : Nat) : Option PoolReq := s.reqs.find? (·.id == id)

/-! Operations. -/

/-- Bytes of the object that an operation covers, 0 for an operation on the object itself. -/
def PoolOp.len : PoolOp → Nat
  | .read _ _ n _ => 32 * n
  | .copyRead _ | .fill => 32
  | .write d | .copyWrite _ d _ => d.length
  | .rmw _ n _ _ _ => n
  | _ => 0

/-- The right an operation needs, as a bit of rights (05 Table 9). -/
def PoolOp.right : PoolOp → Option Nat
  | .read _ _ _ _ | .copyRead _ | .fill => some 0
  | .write _ | .copyWrite _ _ _ => some 1
  | .rmw _ _ _ _ _ => some 2
  | .push _ | .give _ => some 3
  | .pop _ | .take _ _ _ => some 4
  | .acquire _ | .renew _ | .release _ | .check _ _ => some 5
  | .field _ _ => none

/-- The kinds of object an operation is valid for (R282 Table 9). -/
def PoolOp.kindOk : PoolOp → Nat → Bool
  | .push _, k | .pop _, k => k == 1 || k == 2 || k == 3
  | .give _, k | .take _ _ _, k => k == 4
  | .acquire _, _ | .renew _, _ | .release _, _ | .check _ _, _ | .field _ _, _ => true
  | _, k => k == 0

/-- An operation that writes the object and so needs a current token on a lease-guarded one (R283, R365). -/
def PoolOp.guardedWrite : PoolOp → Bool
  | .write _ | .rmw _ _ _ _ _ | .push _ | .pop _ | .give _ | .take _ _ _ => true
  | .copyWrite _ _ t => t.isNone
  | _ => false

/-- A read that starts anew: nothing of it has been supplied (R322). -/
def PoolOp.anew : PoolOp → PoolOp
  | .read e b n _ => .read e b n []
  | op => op

/-- The object's sectors that a read still asks for. -/
def askedSectors (r : PoolReq) : List Nat :=
  match r.op with
  | .read _ _ n got => ((List.range n).filter (fun k => !got.any (fun g => g.1 == k))).map (fun k => r.off / 32 + k)
  | _ => [r.off / 32]

/-- An object operation (R291). -/
def PoolOp.isObject : PoolOp → Bool
  | .push _ | .pop _ | .give _ | .take _ _ _ => true
  | _ => false

/-- The lease clock of the homes, in cycles; a tick of it is 1024 cc (R296), and a lease runs its ticks from the grant on (R423). -/
def leaseNow (s : State) : Nat := s.cycle

/-- Cycles of a lease duration in ticks (R283, R296). -/
def leaseSpan (ticks : Nat) : Nat := 1024 * ticks
def PoolObj.leased (o : PoolObj) (now : Nat) : Bool := o.holder.isSome && decide (now < o.expiry)
def PoolObj.capacity (o : PoolObj) : Nat := o.size / o.esize

/-- A field of the descriptor (R365 Table 14). -/
def PoolObj.field (o : PoolObj) (now sel : Nat) : Word :=
  if sel = 16 then BitVec.ofNat 64 o.size
  else if sel = 17 then BitVec.ofNat 64 ((if o.leased now then 32 else 0) + (if o.guarded then 16 else 0) + o.kind)
  else if sel = 18 then BitVec.ofNat 64 o.duration
  else if sel = 19 then o.token
  else if sel = 20 then (match o.override with | some w => BitVec.ofNat 64 (32768 + w) | none => 0)
  else if sel = 21 then (if o.kind = 4 then BitVec.ofNat 64 o.count else if o.kind = 0 then 0 else BitVec.ofNat 64 o.elems.length)
  else if sel = 22 then (if o.kind = 0 ∨ o.kind = 4 then 0 else BitVec.ofNat 64 o.esize)
  else zx o.world

/-! The node (R281). -/

/-- The right that a request's operation needs is present (check 5). -/
def rightOk (r : PoolReq) : Bool :=
  match r.op.right with
  | some b => (capRights r.cap).getLsbD b
  | none => true

/-- Checks 1 to 6, which give CAPFAIL: the object they pass, or none. -/
def capChecks (s : State) (n : Nat) (r : PoolReq) : Option PoolObj :=
  match objOf s n r.oid with
  | none => none
  | some o =>
    if r.world = o.world ∧ macOk s.domKey r.cap ∧ capHeat r.cap = o.heat
        ∧ rightOk r ∧ r.op.kindOk o.kind
    then some o else none

/-- Checks 7 and 8: the bytes lie within the window and the object. -/
def boundsOk (r : PoolReq) (o : PoolObj) : Bool :=
  r.op.len == 0 ||
    ((capWlen r.cap == 0 || decide (r.inOff + r.op.len ≤ capWlen r.cap * 4096)) && decide (r.off + r.op.len ≤ o.size))

/-- A fresh write stamp (R279). -/
def stamp (o : PoolObj) (pts sector : Nat) : Nat := max pts (lookup 0 o.rts sector + 1)

/-- Sectors that n bytes at an offset touch. -/
def sectorsOf (off n : Nat) : List Nat := (List.range ((off + n + 31) / 32 - off / 32)).map (fun i => off / 32 + i)

/-- The object with the sectors of a write stamped with one time, and the time (R279). -/
def stampAll (o : PoolObj) (pts : Nat) (secs : List Nat) : Nat × PoolObj :=
  let t := secs.foldl (fun t x => max t (stamp o pts x)) pts
  (t, { o with wts := secs.foldl (fun m x => insertAt m x t) o.wts, rts := secs.foldl (fun m x => insertAt m x t) o.rts })

/-- Low bytes of an element. -/
def lowBytes (v : Word) (n : Nat) : Word := BitVec.ofNat 64 (v.toNat % 2 ^ (8 * n))

/-- The effect of a request that has passed its checks on its object (R290, R291, R296, R283): the refusal, or the value for
rd, whether it found nothing, the write time (0 for none; the requester's pts where the operation stamps no sector, R319), and the
object. -/
def objEffect (now : Nat) (r : PoolReq) (o : PoolObj) : Except FaultCode (Word × Bool × Nat × PoolObj) :=
  match r.op with
  | .write d =>
    let (t, o1) := stampAll o r.pts (sectorsOf r.off d.length)
    .ok (0, false, t, { o1 with bytes := Memory.write o1.bytes r.off d })
  | .copyWrite _ d tok =>
    let go : Except FaultCode (Word × Bool × Nat × PoolObj) :=
      let (t, o1) := stampAll o r.pts (sectorsOf r.off d.length)
      .ok (0, false, t, { o1 with bytes := Memory.write o1.bytes r.off d })
    match tok with
    | none => go
    | some t => if t < o.token then .error .leaselost else if o.token < t then .error .perm else go
  | .rmw op n b e _ =>
    let old := ofLe (Memory.read o.bytes r.off n)
    let (t, o1) := stampAll o r.pts (sectorsOf r.off n)
    .ok (rmwReturn op n old, false, t,
      { o1 with bytes := Memory.write o1.bytes r.off (leBytes (rmwApply op n old (b.toNat % 2 ^ (8 * n)) (e.toNat % 2 ^ (8 * n))) n) })
  | .push v =>
    if o.capacity ≤ o.elems.length then .error .perm
    else
      let (t, o1) := stampAll o r.pts [0]
      .ok (0, false, t, { o1 with elems := o1.elems ++ [lowBytes v o.esize] })
  | .pop _ =>
    let (t, o1) := stampAll o r.pts [0]
    if o.kind = 3 then
      match o.elems with
      | [] => .ok (0, true, t, o1)
      | v :: vs => .ok (v, false, t, { o1 with elems := vs })
    else
      match o.elems.getLast? with
      | none => .ok (0, true, t, o1)
      | some v => .ok (v, false, t, { o1 with elems := o1.elems.dropLast })
  | .give n =>
    if 2 ^ 64 ≤ o.count + n.toNat then .error .perm
    else
      let (t, o1) := stampAll o r.pts [0]
      .ok (0, false, t, { o1 with count := o1.count + n.toNat })
  | .take n got _ =>
    let (t, o1) := stampAll o r.pts [0]
    let k := min n.toNat o.count
    .ok (got + BitVec.ofNat 64 k, false, t, { o1 with count := o1.count - k })
  | .acquire _ =>
    if o.leased now then .ok (0, false, r.pts, o)
    else .ok (o.token + 1, false, r.pts, { o with token := o.token + 1, holder := some r.cell, expiry := now + leaseSpan o.duration })
  | .renew t =>
    if t < o.token then .error .leaselost
    else if o.token < t then .error .perm
    else .ok (0, false, r.pts, { o with holder := some r.cell, expiry := now + leaseSpan o.duration })
  | .release t =>
    if t < o.token then .error .leaselost
    else if o.token < t then .error .perm
    else .ok (0, false, r.pts, { o with expiry := now })
  | .check t _ =>
    -- whole ticks that are left (R296 does not say how a part of one counts; DESIGN CHOICE, notes/assumptions/69.md)
    let st : Nat := if t < o.token then 2 else if o.token < t then 3 else if o.leased now then 0 else 1
    .ok (BitVec.ofNat 64 (st + (if st = 0 then (o.expiry - now) / 1024 * 65536 else 0)), false, 0, o)
  | .field sel _ => .ok (o.field now sel, false, 0, o)
  | _ => .ok (0, false, 0, o)

/-- The operation reads a sector for the pool cache (R278). -/
def PoolOp.isFill : PoolOp → Bool
  | .read _ _ _ _ | .copyRead _ | .fill => true
  | _ => false

/-- An operation that changes its object: it holds a veto until its response is received (R336). -/
def PoolOp.isRmw : PoolOp → Bool
  | .rmw _ _ _ _ _ | .push _ | .pop _ | .give _ | .take _ _ _ | .acquire _ | .renew _ | .release _ => true
  | _ => false

/-- Count a failure of checks 1 to 6 (R281). -/
def countFailure (s : State) (n : Nat) (world : BitVec 16) : State :=
  s.modNode n (fun d => { d with failures := insertAt d.failures world.toNat (lookup 0 d.failures world.toNat + 1) })

/-- A world with 1024 failures is quarantined (R281). -/
def quarantined (s : State) (n : Nat) (world : BitVec 16) : Bool := decide (1024 ≤ lookup 0 (s.node n).failures world.toNat)

/-- Put an object back and raise the node's hmax by a write's stamp (R319). -/
def putObj (s : State) (n oid : Nat) (o : PoolObj) (wts : Nat) : State :=
  s.modNode n (fun d => { d with objects := insertAt d.objects oid o, hmax := max d.hmax wts })

/-- The data and new leases of sectors that a package renews, and the object's read leases after it (R278). -/
def renewSectors (o : PoolObj) (pts : Nat) (secs : List Nat) : List (List Byte × Nat × Nat) × SMap Nat :=
  let rts (x : Nat) := max (lookup 0 o.rts x) (pts + 1024)
  (secs.map (fun x => (Memory.read o.bytes (x * 32) 32, lookup 0 o.wts x, rts x)), secs.foldl (fun m x => insertAt m x (rts x)) o.rts)

/-- What a node answers to a request and the state after it: every check in order, then the operation once (R281, R31). -/
def nodeServe (s : State) (n : Nat) (r : PoolReq) : ReqAnswer × State :=
  if quarantined s n r.world then (.refused .capfail, s)
  else
    match capChecks s n r with
    | none => (.refused .capfail, countFailure s n r.world)
    | some o =>
      if !boundsOk r o then (.refused .perm, s)
      else if o.guarded && r.op.guardedWrite then (.refused .leaselost, s)
      else if r.op.isFill then
        let (xs, rts) := renewSectors o r.pts (askedSectors r)
        (.data xs (s.node n).hmax, putObj s n r.oid { o with rts := rts } 0)
      else
        match objEffect (leaseNow s) r o with
        | .error e => (.refused e, s)
        | .ok (v, empty, wts, o1) =>
          let s1 := putObj s n r.oid o1 wts
          (.ok v empty (s1.node n).hmax wts, s1)

/-- A request that its home has still to perform, or whose write its package has still to hear of. -/
def unsettled (q : PoolReq) : Bool :=
  !q.discarded && q.stage != .returning && (q.answer == .none || !q.op.isFill)

/-- The stow slot of the strand that issued a request, if that strand has been stowed; whether it stands in the request's cell. -/
def ownerOf (s : State) (r : PoolReq) : Option Nat × Bool :=
  (((s.die (dieOfCell r.cell)).stowed.find? (fun x => (x.ctx.op? r.id).isSome)).map (·.slot), ((s.cell r.cell).op? r.id).isSome)

/-- Two requests are those of one strand: of the one in their cell, or of one that has been stowed there. -/
def sameStrand (s : State) (q r : PoolReq) : Bool := q.cell == r.cell && ownerOf s q == ownerOf s r

/-- A Ladle's or a bridge station's own request, which has no place in a strand's program order (R305). -/
def PoolOp.ofUnit : PoolOp → Bool
  | .copyRead _ | .copyWrite _ _ _ | .fill => true
  | _ => false

/-- Two requests to one object that keep their strand's order: both on the object itself, or to a common byte (R309, R111). -/
def orderedWith (s : State) (q r : PoolReq) : Bool :=
  sameStrand s q r && !q.op.ofUnit && !r.op.ofUnit && q.oid == r.oid
    && ((q.op.len == 0 && r.op.len == 0) || (q.op.len != 0 && r.op.len != 0 && overlapAt q.off q.op.len r.off r.op.len))

/-- A read that has not returned: a later write of its strand waits for it, since a read that a pre-emption abandons before that is
performed anew (R317, R322). -/
def openRead (q r : PoolReq) : Bool := !q.discarded && !r.op.isFill && (match q.op with | .read _ _ _ _ => true | _ => false)

/-- An earlier request of the same strand must be performed first (R309, R333). -/
def mustFollow (s : State) (r : PoolReq) : Bool :=
  s.reqs.any (fun q => decide (q.id < r.id) && (unsettled q || openRead q r) && orderedWith s q r)

/-- An earlier request of the same strand has not left its package yet. -/
def heldBack (s : State) (r : PoolReq) : Bool :=
  s.reqs.any (fun q => decide (q.id < r.id) && orderedWith s q r && !q.discarded
    && (q.stage == .atRing || q.stage == .heldRing || q.stage == .atBridge || q.stage == .heldBridge || q.stage == .refusedStale))

/-! Sectors of the pool cache (R278, R279). -/

def sectorKey (oid off : Nat) : Nat := oid * 2 ^ 59 + off / 32
def sector? (s : State) (pkg oid off : Nat) : Option Sector :=
  match find? (s.pkg pkg).sectors (sectorKey oid off) with
  | some x => if x.valid then some x else none
  | none => none

/-- Pages of 4 KiB that the pool-cache part of a plane's stack holds (R1, R274). -/
def cachePages (s : State) (pkg plane : Nat) : Nat := (48 - (s.die (pkg * 8 + plane)).local_) * 2 ^ 18

/-- Silent eviction (R278): a plane with more pages than its stack holds loses its lowest pages that have no write pending (DESIGN CHOICE,
notes/assumptions/61.md). -/
def fitSectors (s : State) (pkg plane : Nat) (m : SMap Sector) : SMap Sector :=
  let cap := cachePages s pkg plane
  if m.length ≤ cap then m
  else
    let own := m.filter (fun e => e.2.plane == plane)
    let pages := (own.map (fun e => e.1 / 128)).eraseDups
    let gone := (pages.filter (fun g => !own.any (fun e => e.1 / 128 == g && e.2.pending))).take (pages.length - cap)
    m.filter (fun e => e.2.plane != plane || !gone.contains (e.1 / 128))

def putSector (s : State) (pkg oid off : Nat) (x : Sector) : State :=
  s.modPkg pkg (fun p => { p with sectors := fitSectors s pkg x.plane (insertAt p.sectors (sectorKey oid off) x) })

/-- A `pst` updates the sectors that are present and marks them write-pending (R279). -/
def updateSectors (pkg oid off : Nat) : State → List (List Byte) → State
  | s, [] => s
  | s, g :: gs =>
    let s1 := match sector? s pkg oid off with
      | some x => putSector s pkg oid off { x with data := g, pending := true }
      | none => s
    updateSectors pkg oid (off + 32) s1 gs

/-- The sector that a renewal's answer fills; one whose write is pending keeps its bytes and its mark (R278, R279). -/
def fillSector (s : State) (pkg : Nat) (r : PoolReq) (sec : Nat) (x : List Byte × Nat × Nat) : State :=
  let pending := match sector? s pkg r.oid (32 * sec) with
    | some y => y.pending
    | none => false
  if pending then s
  else
    let size := match objOf s r.node r.oid with | some o => o.size | none => 0
    putSector s pkg r.oid (32 * sec) ⟨x.1, x.2.1, x.2.2, false, true, capOid r.cap, capHeat r.cap, r.world, size, r.node % 8⟩

/-- The sectors of an acknowledged or refused write: their lease, or their loss. -/
def settleSectors (pkg : Nat) (r : PoolReq) (wts : Option Nat) : State → List Nat → State
  | s, [] => s
  | s, sec :: rest =>
    let more := s.reqs.any (fun q => q.id != r.id && pkgOfCell q.cell == pkg && q.oid == r.oid && unsettled q &&
      (match q.op with | .write d => (sectorsOf q.off d.length).contains sec | _ => false))
    let s1 := match find? (s.pkg pkg).sectors (sectorKey r.oid (32 * sec)) with
      | some x =>
        putSector s pkg r.oid (32 * sec)
          (match wts with
           | some t => if x.pending then { x with wts := t, rts := t, pending := more } else x
           | none => { x with valid := false, pending := false })
      | none => s
    settleSectors pkg r wts s1 rest

/-- A `pst` part has been acknowledged with its write time, or refused. -/
def settleWrite (s : State) (r : PoolReq) (wts : Option Nat) : State :=
  match r.op with
  | .write d => settleSectors (pkgOfCell r.cell) r wts s (sectorsOf r.off d.length)
  | _ => s

/-! The way of a request and of its answer (R327). -/

/-- The die whose bridge station serves a request: that of its node's plane. -/
def bridgeDie (r : PoolReq) : Nat := pkgOfCell r.cell * 8 + r.node % 8

/-- An answer at the bridge station goes on to the strand's die. -/
def sendBack (s : State) (r : PoolReq) : State :=
  putSlot (modReq s r.id (fun x => { x with stage := .returning })) (pkgOfCell r.cell) r.id (bridgeStation (r.node % 8))
    (dieStation (dieOfCell r.cell % 8))

/-- A request refused at its source's bridge station: its node is absent or severed, or it has been refused as stale too often (R329,
R337). -/
def refuseReq (s : State) (id : Nat) (code : FaultCode) : State :=
  match req? s id with
  | none => s
  | some r => sendBack (settleWrite (modReq s id (fun r => { r with answer := .refused code })) r none) r

/-- The request leaves its package's port under the version in force there (R335). -/
def leavePort (s : State) (r : PoolReq) (to_ : ReqStage) : State :=
  modReq s r.id (fun x => { x with stage := to_, version := portVersion s (pkgOfCell r.cell) (r.node % 8) })

/-- The port of a request's plane issues it. -/
def mayIssue (s : State) (r : PoolReq) : Bool :=
  issuing s (pkgOfCell r.cell) (r.node % 8) && nodeOpen s (pkgOfCell r.cell) r.node

/-- A response has come over the ring to its strand's die. -/
def hasReturned (s : State) (r : PoolReq) : Bool := r.stage == .returning && !onRing s (pkgOfCell r.cell) r.id

/-- POOL_REQUEST: a request leaves its package, reaches its node and is performed there once, or refused (R281, R329, R337). -/
def execPoolRequest (n : NodeId) (id : Nat) (s : State) : Out :=
  match req? s id with
  | none => .next s
  | some r =>
    let p := pkgOfCell r.cell
    if r.node ≠ n.val ∨ r.answer ≠ .none ∨ r.discarded then .next s
    else if r.stage = .atBridge then
      if onRing s p id then .next s
      else if !nodePresent s p n.val then .next (refuseReq s id .staleTopo)
      else if mustFollow s r || !mayIssue s r then .next s
      else .next (leavePort s r .atNode)
    else if r.stage ≠ .atNode ∨ !nodeOpen s p n.val ∨ mustFollow s r ∨ r.version ≠ (s.node n.val).version then .next s
    else
      let (a, t) := nodeServe s n.val r
      .next (modReq t id (fun r => { r with
        stage := .answered, answer := a
        veto := r.op.isRmw && (match a with | .ok _ _ _ _ => true | _ => false) }))

/-! Issue at the cell. -/

/-- A pool operation of a cell's strand: an operation in flight and the request it stands for. -/
def addPoolOp (s : State) (word : Nat) (op : PoolOp) (cap : Cap) (inOff : Nat) (stage : ReqStage) : Nat × State :=
  let (id, s1) := s.fresh
  let p := s1.pkg s1.myPkg
  let off := if capWlen cap = 0 then inOff else capWstart cap * 4096 + inOff
  let r : PoolReq := {
    id := id, cell := s1.me, op := op, cap := cap, off := off, inOff := inOff, world := (s1.die s1.myDie).world
    node := nodeOf s1 (capOid cap).toNat, version := 0, pts := p.pts, stage := stage, since := s1.cycle, order := id
    expiry := 0, tries := 0, answer := .none, veto := false, discarded := false }
  let s2 := s1.upd (fun c => { c with
    ops := c.ops ++ [⟨id, word, .pool, BitVec.allOnes 64, 0, p.pts, none, false, false, .none, 0, 0, none, .out, none, false⟩] })
  let s3 := if stage = .atRing then s2 else putSlot s2 s2.myPkg id (dieStation (s2.myDie % 8)) (bridgeStation (r.node % 8))
  (id, { s3 with reqs := s3.reqs ++ [r] })

/-- An A word on a capability: all zeros raise CAPFAIL at issue (R81, R287). -/
def capWord (p : BitVec 4) (aregs : List Nat) (k : BitVec 4) (access : Bool) (body : Cap → State → Res) (s : State) : Out :=
  aWord { pg := p, aregs := aregs, kregs := [k.toNat], access := access } (fun s =>
    let c := s.cur.readK k.toNat
    if c = 0 then .trap .capfail 0 else body c s) s

/-- The parts of an access of n bytes at an offset, one for each 4 KiB page (R288): position in the access and length. -/
def pageParts (off n : Nat) : List (Nat × Nat) :=
  let room := 4096 - off % 4096
  if n ≤ room then [(0, n)] else [(0, room), (room, n - room)]

/-- Issue one read request for each page part of an access (R288). -/
def addReads (word entry : Nat) (cap : Cap) (off : Nat) : State → List (Nat × Nat) → State
  | s, [] => s
  | s, (a, n) :: ps => addReads word entry cap off (addPoolOp s word (.read entry (a / 32) (n / 32) []) cap (off + a) .atBridge).2 ps

def execPld (p : BitVec 4) (z : BitVec 3) (q : BitVec 4) (s : BitVec 5) (k : BitVec 4) (st : State) : Out :=
  capWord p [s.toNat] k true (fun cap st =>
    let c := st.cur
    let n := blockSize z
    let o := c.readA s.toNat
    if o.toNat % 32 ≠ 0 then .trap .align o
    else if c.qcapOf q.toNat < blocksOf n then .trap .qsize c.A.pc
    else if !c.canDraw q.toNat (blocksOf n) then .stay .draw st
    else
      let (e, s1) := st.fresh
      let (word, s2) := s1.fresh
      let s3 := s2.upd (fun c => c.reserve q.toNat (loadEntry c e n (List.range (n / 32))))
      .done (addReads word e cap o.toNat s3 (pageParts o.toNat n))) st

/-- A read of the cell in focus to some of the bytes has not returned: a `pst`, which updates the pool cache as it issues, waits
for it (R309). -/
def readsPending (s : State) (oid off n : Nat) : Bool :=
  s.reqs.any (fun q => (s.cur.op? q.id).isSome && q.oid == oid && overlapAt q.off q.op.len off n
    && (match q.op with | .read _ _ _ _ => true | _ => false))

/-- Issue one write request for each page part of an access (R288). -/
def addWrites (word : Nat) (cap : Cap) (off : Nat) (bs : List Byte) : State → List (Nat × Nat) → State
  | s, [] => s
  | s, (a, n) :: ps => addWrites word cap off bs (addPoolOp s word (.write ((bs.drop a).take n)) cap (off + a) .atBridge).2 ps

def execPst (p : BitVec 4) (z : BitVec 3) (q : BitVec 4) (s : BitVec 5) (k : BitVec 4) (st : State) : Out :=
  capWord p [s.toNat] k true (fun cap st =>
    let c := st.cur
    let n := blockSize z
    let o := c.readA s.toNat
    if o.toNat % 32 ≠ 0 then .trap .align o
    else
      match c.headAt q.toNat 0 with
      | .error w => .stay w st
      | .ok e =>
        let off := if capWlen cap = 0 then o.toNat else capWstart cap * 4096 + o.toNat
        if e.size ≠ n then .trap .qsize c.A.pc
        else if readsPending st (capOid cap).toNat off n then .stay .external st
        else
          let bs := fitBytes n (c.entryBytes e)
          let (word, s1) := st.fresh
          let s2 := s1.upd (fun c => c.popHead q.toNat)
          let s3 := updateSectors s2.myPkg (capOid cap).toNat off s2 (granules (n / 32) bs)
          .done (addWrites word cap o.toNat bs s3 (pageParts off n))) st

/-- A `pat` (R290). -/
def patWord (op : RmwOp) (p : BitVec 4) (n : Nat) (d s : BitVec 5) (k : BitVec 4) (st : State) : Out :=
  capWord p ([s.toNat, d.toNat] ++ (if op = .cas then [d.toNat + 1] else [])) k true (fun cap st =>
    let c := st.cur
    let o := c.readA s.toNat
    if o.toNat % n ≠ 0 then .trap .align o
    else
      let v := c.readA d.toNat
      let (data, expd) := if op = .cas then (c.readA (d.toNat + 1), v) else (v, 0)
      let (word, s1) := st.fresh
      let (_, s2) := addPoolOp s1 word (.rmw op n data expd d) cap o.toNat .atBridge
      .done (s2.upd (fun c => c.pend d.toNat))) st

def execPatAdd (p : BitVec 4) (_c z : BitVec 1) (d s : BitVec 5) (k : BitVec 4) (st : State) : Out := patWord .add p (atomSize z) d s k st
def execPatAnd (p : BitVec 4) (_c z : BitVec 1) (d s : BitVec 5) (k : BitVec 4) (st : State) : Out := patWord .and p (atomSize z) d s k st
def execPatOr (p : BitVec 4) (_c z : BitVec 1) (d s : BitVec 5) (k : BitVec 4) (st : State) : Out := patWord .or p (atomSize z) d s k st
def execPatXor (p : BitVec 4) (_c z : BitVec 1) (d s : BitVec 5) (k : BitVec 4) (st : State) : Out := patWord .xor p (atomSize z) d s k st
def execPatMin (p : BitVec 4) (_c z : BitVec 1) (d s : BitVec 5) (k : BitVec 4) (st : State) : Out := patWord .min p (atomSize z) d s k st
def execPatMax (p : BitVec 4) (_c z : BitVec 1) (d s : BitVec 5) (k : BitVec 4) (st : State) : Out := patWord .max p (atomSize z) d s k st
def execPatMinn (p : BitVec 4) (_c z : BitVec 1) (d s : BitVec 5) (k : BitVec 4) (st : State) : Out := patWord .minn p (atomSize z) d s k st
def execPatMaxn (p : BitVec 4) (_c z : BitVec 1) (d s : BitVec 5) (k : BitVec 4) (st : State) : Out := patWord .maxn p (atomSize z) d s k st
def execPatSwap (p : BitVec 4) (_c z : BitVec 1) (d s : BitVec 5) (k : BitVec 4) (st : State) : Out := patWord .swap p (atomSize z) d s k st
def execPatCas (p : BitVec 4) (_c z : BitVec 1) (d s : BitVec 5) (k : BitVec 4) (st : State) : Out := patWord .cas p (atomSize z) d s k st
def execPatFadd (p : BitVec 4) (_c : BitVec 1) (d s : BitVec 5) (k : BitVec 4) (st : State) : Out := patWord .fadd p 4 d s k st

/-! Object and lease words (R291, R296). -/

/-- Requests eligible to splice start at the ring station, all others at the bridge (R293, R331). -/
def firstStage (s : State) (cap : Cap) (op : PoolOp) : ReqStage :=
  match objOf s (nodeOf s (capOid cap).toNat) (capOid cap).toNat with
  | some o => if op.isObject && op.kindOk o.kind && o.kind != 3 && !o.guarded then .atRing else .atBridge
  | none => .atBridge

/-- Send one operation on an object and mark what waits for its response. -/
def sendObject (cap : Cap) (op : PoolOp) (hold : Bool) (mark : Cell → Cell) (s : State) : State :=
  let (word, s1) := s.fresh
  let (id, s2) := addPoolOp s1 word op cap 0 (firstStage s1 cap op)
  s2.upd (fun c => mark { c with acquire := if hold then id :: c.acquire else c.acquire })

def execPpush (p : BitVec 4) (d : BitVec 5) (k : BitVec 4) (st : State) : Out :=
  capWord p [d.toNat] k true (fun cap st =>
    release st 4 (fun t => .done (sendObject cap (.push (t.cur.readA d.toNat)) false id t))) st

def execPgive (p : BitVec 4) (d : BitVec 5) (k : BitVec 4) (st : State) : Out :=
  capWord p [d.toNat] k true (fun cap st =>
    release st 4 (fun t => .done (sendObject cap (.give (t.cur.readA d.toNat)) false id t))) st

def execPtake (p : BitVec 4) (d : BitVec 5) (k : BitVec 4) (st : State) : Out :=
  capWord p [d.toNat] k true (fun cap st =>
    .done (sendObject cap (.take (st.cur.readA d.toNat) 0 d) true (fun c => c.pend d.toNat) st)) st

/-- `ppop` also writes p15, whose value lands with the response (R291, R27). -/
def execPpop (p : BitVec 4) (d : BitVec 5) (k : BitVec 4) (st : State) : Out :=
  aWord { pg := p, dest := 15, aregs := [d.toNat], kregs := [k.toNat], access := true } (fun st =>
    let cap := st.cur.readK k.toNat
    if cap = 0 then .trap .capfail 0
    else .later (sendObject cap (.pop d) true (fun c => { c.pend d.toNat with pendP15 := true }) st)) st

def execWlacq (p : BitVec 4) (d : BitVec 5) (k : BitVec 4) (st : State) : Out :=
  capWord p [d.toNat] k true (fun cap st => .done (sendObject cap (.acquire d) true (fun c => c.pend d.toNat) st)) st

def execWlrenew (p : BitVec 4) (s : BitVec 5) (k : BitVec 4) (st : State) : Out :=
  capWord p [s.toNat] k true (fun cap st => .done (sendObject cap (.renew (st.cur.readA s.toNat)) false id st)) st

def execWlrel (p : BitVec 4) (s : BitVec 5) (k : BitVec 4) (st : State) : Out :=
  capWord p [s.toNat] k true (fun cap st =>
    release st 4 (fun t => .done (sendObject cap (.release (t.cur.readA s.toNat)) false id t))) st

def execWlchk (p : BitVec 4) (d s : BitVec 5) (k : BitVec 4) (st : State) : Out :=
  capWord p [d.toNat, s.toNat] k true (fun cap st =>
    .done (sendObject cap (.check (st.cur.readA s.toNat) d) false (fun c => c.pend d.toNat) st)) st

/-- A selector of `kinf` that the cell answers itself (R111 Table 11); every selector that is not listed gives 0. -/
def kinfLocal (s : State) (c : Cap) (sel : Nat) : Word :=
  if sel = 0 then zx (capOid c) else if sel = 1 then zx (capHeat c) else if sel = 2 then zx (capRights c)
  else if sel = 3 then BitVec.ofNat 64 (capKind c) else if sel = 4 then BitVec.ofNat 64 (capWstart c)
  else if sel = 5 then BitVec.ofNat 64 (capWlen c) else if sel = 6 then c.extractLsb' 0 64
  else if sel = 7 then c.extractLsb' 64 64 else if sel = 8 then ofBool (macOk (dieKey s s.myDie) c) else 0

/-- `kinf` (R111): a descriptor selector sends a read to the home and waits for it; its refusal stops at the word. -/
def execKinf (p : BitVec 4) (d s : BitVec 5) (k : BitVec 4) (st : State) : Out :=
  aWord { pg := p, aregs := [d.toNat, s.toNat], kregs := [k.toNat], access := true } (fun st =>
    let cap := st.cur.readK k.toNat
    let sel := (st.cur.readA s.toNat).toNat
    if sel < 16 ∨ 24 ≤ sel then .done (putA st d.toNat (kinfLocal st cap sel))
    else if cap = 0 then .trap .capfail 0
    else
      match st.cur.joined with
      | none =>
        let (word, s1) := st.fresh
        let (id, s2) := addPoolOp s1 word (.field sel d) cap 0 .atBridge
        .stay .external (s2.upd (fun c => { c with joined := some id }))
      | some id =>
        let gone (t : State) := dropReq (t.upd (fun c => { c.dropOp id with joined := none })) id
        match req? st id with
        | some r =>
          match (if hasReturned st r then r.answer else .none) with
          | .ok v _ t _ => .done (putA (gone (st.upd (fun c => c.saw t))) d.toNat v)
          | .refused code => .trapWith (gone st) code (zx (capOid cap))
          | _ => .stay .external st
        | none => .stay .external (gone st)) st

/-! Responses. -/

/-- FAULTV of a refused pool request: the object id, or the offset for PERM (R196). -/
def poolFaultVal (r : PoolReq) (code : FaultCode) : Word :=
  if code = .perm then BitVec.ofNat 64 r.inOff else zx (capOid r.cap)

/-- The register a request's result goes to. -/
def PoolOp.reg : PoolOp → Nat
  | .rmw _ _ _ _ r | .pop r | .take _ _ r | .acquire r | .check _ r | .field _ r => r.toNat
  | _ => 0

/-- What the answer to a request does to its strand (R290, R291, R296, R315). -/
def poolDeliver (r : PoolReq) (c : Cell) : Cell :=
  let c0 := { c.dropOp r.id with acquire := c.acquire.filter (· != r.id) }
  let land (c : Cell) : Cell := match r.op with | .pop _ => { c.landShared r.id 15 with pendP15 := false } | _ => c
  match r.answer with
  | .ok v empty t _ =>
    let c1 := (c0.saw t).unpend r.op.reg
    let c2 := c1.writeA r.op.reg v
    land (match r.op with | .pop _ => c2.writeP 15 empty | _ => c2)
  | .refused code => land { c0.unpend r.op.reg with reports := c0.reports ++ [(⟨code, poolFaultVal r code⟩ : Report)] }
  | _ => c0

/-- The logical time the package reaches by a response: a write's stamp, and the time an acquire carries (R277, R319). -/
def answerTime (r : PoolReq) : Nat :=
  match r.answer with
  | .ok _ _ t wts =>
    match r.op with
    | .pop _ | .take _ _ _ | .acquire _ => max t wts
    | _ => wts
  | _ => 0

/-- A home's answer reaches the bridge station of its package through the port of its plane (R327). -/
def arriveBack (s : State) (r : PoolReq) : State :=
  sendBack (liftPts s (pkgOfCell r.cell) (answerTime r)) r

/-- A request's response is received by its strand, and the request ends. -/
def receive (s : State) (ix : Nat) (r : PoolReq) : State :=
  dropReq (liftPts (onStrand s ix r.id (poolDeliver r)) (pkgOfCell ix) (answerTime r)) r.id

/-- The home has answered a request, and the link back carries traffic. -/
def canReturn (s : State) (r : PoolReq) : Bool :=
  r.stage == .answered && r.answer != .none && nodeOpen s (pkgOfCell r.cell) r.node

/-- An operation whose response goes to an a-register or acknowledges an object or lease operation. -/
def answersRmw (r : PoolReq) : Bool :=
  match r.op with
  | .rmw _ _ _ _ _ | .push _ | .pop _ | .give _ | .take _ _ _ | .acquire _ | .renew _ | .release _ | .check _ _ => true
  | _ => false

/-- RMW_RESPONSE: the response of an atomic, an object operation or a lease operation reaches its strand; that of a request on whose
home no veto stands first comes to its package. -/
def execRmwResponse (cid : CellId) (id : Nat) (s : State) : Out :=
  let ix := cellIx cid
  let c := s.cell ix
  match c.op? id with
  | none => .next s
  | some o =>
    match o.kind with
    | .rmw _ _ _ _ => .next (rmwStep s ix c o)
    | .pool =>
      match req? s id with
      | some r =>
        if canReturn s r && !r.veto && !r.op.isFill then .next (arriveBack s r)
        else if hasReturned s r && answersRmw r then .next (receive s ix r)
        else .next s
      | none => .next s
    | _ => .next s

/-- The strand that issued a request has ended. -/
def orphaned (s : State) (r : PoolReq) : Bool := !r.op.ofUnit && (strandOf s r.cell r.id).isNone

/-- VETO_RELEASE: the response of a performed operation is received by its package's port, and the veto of its home is released
(R336). A response whose strand has ended is received by nobody. -/
def execVetoRelease (n : NodeId) (id : Nat) (s : State) : Out :=
  match req? s id with
  | some r =>
    if r.node ≠ n.val then .next s
    else if (r.veto || (orphaned s r && !r.op.isFill)) && canReturn s r then
      .next (modReq (arriveBack s r) id (fun x => { x with veto := false }))
    else if hasReturned s r && orphaned s r then .next (dropReq s id)
    else .next s
  | none => .next s

/-! Reads through the cache (R278). -/

/-- The bridge's own checks on a read that would hit; a bridge station holds the domain key that the table of its die arms
(notes/assumptions/9.md). -/
def bridgeOk (s : State) (pkg : Nat) (r : PoolReq) (sec : Nat) (x : Sector) : Bool :=
  decide ((s.pkg pkg).pts ≤ x.rts) && x.plane == r.node % 8 && x.world == r.world && macOk (dieKey s (bridgeDie r)) r.cap && x.oid == capOid r.cap
    && x.heat == capHeat r.cap && (capRights r.cap).getLsbD 0
    && (capWlen r.cap == 0 || decide (r.inOff + 32 * (sec - r.off / 32) + 32 ≤ capWlen r.cap * 4096))

/-- A renewal of the sector is in flight from the package. -/
def renewing (s : State) (pkg : Nat) (r : PoolReq) (sec : Nat) : Bool :=
  s.reqs.any (fun q => q.id != r.id && q.op.isFill && pkgOfCell q.cell == pkg && q.oid == r.oid && (askedSectors q).contains sec
    && !q.discarded && (q.stage == .atNode || q.stage == .answered || q.stage == .refusedStale))

/-- What the bridge station does with a read of a sector: the cached data, a wait, or a renewal at the home. -/
inductive Looked where
  | hit (bs : List Byte) (wts : Nat)
  | wait
  | renew

def bridgeLook (s : State) (pkg : Nat) (r : PoolReq) (sec : Nat) : Looked :=
  match sector? s pkg r.oid (32 * sec) with
  | some x =>
    if x.pending then .wait
    else if bridgeOk s pkg r sec x then .hit x.data x.wts
    else if renewing s pkg r sec then .wait else .renew
  | none => if renewing s pkg r sec then .wait else .renew

/-- The sectors of a read that the cache supplies now, numbered from its first on. -/
def hitsOf (s : State) (pkg : Nat) (r : PoolReq) : List (Nat × List Byte × Nat) :=
  (askedSectors r).filterMap (fun x =>
    match bridgeLook s pkg r x with
    | .hit bs t => some (x - r.off / 32, bs, t)
    | _ => none)

/-- Some sector of a read waits for a write or a renewal. -/
def readWaits (s : State) (pkg : Nat) (r : PoolReq) : Bool :=
  (askedSectors r).any (fun x => match bridgeLook s pkg r x with | .wait => true | _ => false)

/-- A read with the sectors that the cache has supplied. -/
def PoolOp.supply (hits : List (Nat × List Byte × Nat)) : PoolOp → PoolOp
  | .read e b n got => .read e b n (got ++ hits)
  | op => op

/-- Count n events (R382). -/
def countN (s : State) (die k : Nat) : Nat → State
  | 0 => s
  | n + 1 => countN (s.count die k) die k n

/-- A read at the bridge station: answered from the cache, or the sectors that it lacks are renewed at the home by one request, which
carries pts (R278, R288). -/
def lookRead (s : State) (r : PoolReq) : State :=
  let p := pkgOfCell r.cell
  if r.stage ≠ .atBridge ∨ onRing s p r.id ∨ mustFollow s r ∨ readWaits s p r then s
  else
    let hits := hitsOf s p r
    let misses := (askedSectors r).length - hits.length
    let take (t : State) := modReq (countN t (bridgeDie r) 9 hits.length) r.id (fun x => { x with op := x.op.supply hits })
    if misses = 0 then
      let t := hits.foldl (fun m h => max m h.2.2) 0
      sendBack (modReq (take s) r.id (fun x => { x with answer := .data (hits.map (fun h => (h.2.1, h.2.2, 0))) t })) r
    else if !nodePresent s p r.node then refuseReq (take s) r.id .staleTopo
    else if mayIssue s r then
      modReq (countN (leavePort (take s) r .atNode) (bridgeDie r) 10 misses) r.id (fun x => { x with pts := (s.pkg p).pts })
    else s

/-- The blocks of an entry that a pool read fills: what the cache had, what the home sent, zeros where the home refused (R278, R288). -/
def poolFill (r : PoolReq) (c : Cell) : Cell :=
  match r.op with
  | .read e b n got =>
    let asked := (List.range n).filter (fun k => !got.any (fun g => g.1 == k))
    let rest := match r.answer with
      | .data xs _ => if got.length = n then [] else asked.zip (xs.map (·.1))
      | _ => asked.map (fun k => (k, List.replicate 32 0))
    (got.map (fun g => (g.1, g.2.1)) ++ rest).foldl (fun c x =>
      c.modEntry e (fun y => y.fill (b + x.1) (32 * (b + x.1)) x.2)) (c.dropOp r.id)
  | _ => c

/-- What the answer to a pool read does to its strand: its blocks, the largest time it carries, or the report of its refusal. -/
def readDeliver (r : PoolReq) (c : Cell) : Cell :=
  let c1 := poolFill r c
  let hit := match r.op with
    | .read _ _ _ got => got.foldl (fun m g => max m g.2.2) 0
    | _ => 0
  match r.answer with
  | .data _ t => c1.saw (max hit t)
  | .refused code => { c1.saw hit with reports := c1.reports ++ [(⟨code, poolFaultVal r code⟩ : Report)] }
  | _ => c1

/-- The data of a load that nobody waits for have arrived: its blocks return to the pool (R34). -/
def dropLost (s : State) (ix id : Nat) : State :=
  if (s.cell ix).lost.any (fun x => x.1 == id) then s.modCell ix (fun c => { c with lost := c.lost.filter (fun x => x.1 != id) }) else s

/-- A pool read of a cell goes one step further: at the bridge station, or its data reach the entry. -/
def readStep (s : State) (ix : Nat) (r : PoolReq) : State :=
  if r.stage = .atBridge then lookRead s r
  else if hasReturned s r then
    if ((s.cell ix).op? r.id).isSome then dropReq (s.modCell ix (readDeliver r)) r.id
    else dropReq (dropLost s ix r.id) r.id
  else s

/-- BLOCK_FILL: a block of a queue entry receives its data, from memory or through the pool cache; the entry is published with
its last block (R214, R278). Data that nobody waits for free the blocks they would have filled (R34). -/
def execBlockFill (cid : CellId) (id : Nat) (s : State) : Out :=
  let ix := cellIx cid
  match (s.cell ix).op? id, req? s id with
  | some o, some r =>
    if isFill o.kind then .next (performRead s ix id)
    else .next (match r.op with | .read _ _ _ _ => readStep s ix r | _ => s)
  | some o, none => .next (if isFill o.kind then performRead s ix id else s)
  | none, some r => .next (match r.op with | .read _ _ _ _ => readStep s ix r | _ => s)
  | none, none => .next (if onRing s (pkgOfCell ix) id then s else dropLost s ix id)

/-- RENEWAL_RESPONSE: a renewal's data fill the sectors and answer the read, or its refusal goes on to the reader (R278, R288). -/
def execRenewalResponse (p : PkgId) (id : Nat) (s : State) : Out :=
  match req? s id with
  | none => .next s
  | some r =>
    if pkgOfCell r.cell ≠ p.val ∨ !r.op.isFill ∨ !(canReturn s r || (r.op == .fill && hasReturned s r)) then .next s
    else
      match r.answer, r.op with
      | .data xs _, op =>
        let t := ((askedSectors r).zip xs).foldl (fun t x => fillSector t p.val r x.1 x.2) s
        .next (if op = .fill then dropReq (t.count (bridgeDie r) 14) id else sendBack t r)
      | .refused _, .fill => .next (dropReq (s.count (bridgeDie r) 15) id)
      | .refused _, _ => .next (sendBack s r)
      | _, _ => .next s

/-! Write acknowledgements (R279). -/

/-- POOL_WRITE_ACK: a `pst` part's acknowledgement or refusal reaches its package, and then its strand (R277, R279, R289). -/
def execPoolWriteAck (p : PkgId) (id : Nat) (s : State) : Out :=
  match req? s id with
  | none => .next s
  | some r =>
    if pkgOfCell r.cell ≠ p.val ∨ !(match r.op with | .write _ => true | _ => false) then .next s
    else if canReturn s r then
      .next (arriveBack (settleWrite s r (match r.answer with | .ok _ _ _ t => some t | _ => none)) r)
    else if hasReturned s r then .next (receive s r.cell r)
    else .next s

/-- LEASE_EXPIRY: a write lease lapses at its home (R283). -/
def execLeaseExpiry (n : NodeId) (oid : BitVec 32) (s : State) : Out :=
  match objOf s n.val oid.toNat with
  | some o =>
    if o.holder.isSome ∧ o.expiry ≤ leaseNow s then .next (putObj s n.val oid.toNat { o with holder := none } 0) else .next s
  | none => .next s

/-- PTS_TICK: the package's logical clock advances by 1 (R277). -/
def execPtsTick (p : PkgId) (s : State) : Out := .next (liftPts s p.val ((s.pkg p.val).pts + 1))

end Sys2Proof.Machine
end

