-- ==== Sys2Proof/Machine/Fabric.lean ====
section
/-! DEFINITION. The fabric: ring slots (R324 to R326), splice holds (R293, R294, R331 to R334), topology versions (R335 to
R337), links and severing (R338, R339), domain reduction (R341), and the nodes' management (R281, R365). -/
namespace Sys2Proof.Machine
open Sys2Proof

/-! The ring (R324, R325, R326). -/

/-- The reservation buffer of a station for a source and direction. -/
def resvKey (x : RingSlot) : Nat × Nat := (x.dst, 2 * x.src + (if upwards x.src x.dst then 1 else 0))

/-- A slot that entered the ring earlier between the same stations has not been accepted (R326). -/
def slotBehind (x : RingSlot) : List RingSlot → Bool
  | [] => false
  | y :: ys => if y.id = x.id then false else (y.src == x.src && y.dst == x.dst) || slotBehind x ys

/-- The stations of a die's part of the ring: its own, its bridge's, and with die 0 station 0 of the port die (R324). -/
def stationOf (die dst : Nat) : Bool := dst == dieStation die || dst == bridgeStation die || (dst == 0 && die == 0)

/-- RING_SLOT_ARRIVAL: a slot enters the ring once no refused one of its source circulates towards its destination; at its station it
is accepted, or refused once with a buffer reserved for its second lap (R325). -/
def execRingSlotArrival (d : DieId) (id : Nat) (s : State) : Out :=
  let p := s.pkg d.pkg.val
  match p.ringSlots.find? (·.id == id) with
  | none => .next s
  | some x =>
    if !stationOf d.die.val x.dst then .next s
    else if !ringClear s d.pkg.val x.src x.dst then .next s
    else if slotBehind x p.ringSlots then .next s
    else if !x.entered then
      .next (s.setPkg d.pkg.val { p with ringSlots := p.ringSlots.map (fun y => if y.id = id then { y with entered := true } else y) })
    else
      let s1 := { s with free := s.free + 1 }
      if x.lap = 0 && !p.resv.contains (resvKey x) && Config.bufferFull s.free then
        .next (s1.setPkg d.pkg.val { p with
          ringSlots := p.ringSlots.map (fun y => if y.id = id then { y with lap := 1, reserved := true } else y)
          resv := resvKey x :: p.resv })
      else .next (s1.setPkg d.pkg.val { p with
          ringSlots := p.ringSlots.filter (·.id != id)
          resv := if x.reserved then p.resv.erase (resvKey x) else p.resv })

/-! Splice holds. -/

/-- A hold point by number: its package's ring or bridge station of a die, or a node's front end. -/
def heldStage : HoldPoint → ReqStage
  | .ringStation _ => .heldRing
  | .bridgeStation _ => .heldBridge
  | .frontEnd _ => .heldFront

def atStage : HoldPoint → ReqStage
  | .ringStation _ => .atRing
  | .bridgeStation _ => .atBridge
  | .frontEnd _ => .atFront

/-- The hold point that a request meets at its stage (R331). -/
def pointOf (r : PoolReq) : HoldPoint → Bool
  | .ringStation d => r.cell / 144 == dieIx d
  | .bridgeStation d => bridgeDie r == dieIx d
  | .frontEnd n => r.node == n.val

def heldAt (h : HoldPoint) (r : PoolReq) : Bool := r.stage == heldStage h && pointOf r h

/-- Splice window of a hold point for a request: the object's override, or the station's default (R331). -/
def windowAt (s : State) (h : HoldPoint) (r : PoolReq) : Nat :=
  match (objOf s r.node r.oid).bind (·.override) with
  | some w => w
  | none =>
    match h with
    | .ringStation d => (s.die (dieIx d)).rwin
    | .bridgeStation d => (s.die (dieIx d)).bwin
    | .frontEnd _ => 64

/-- Push and pop, or give and take (R293). -/
def opposite : PoolOp → PoolOp → Bool
  | .push _, .pop _ | .pop _, .push _ | .give _, .take _ _ _ | .take _ _ _, .give _ => true
  | _, _ => false

/-- A push or a give: the side that comes first in a splice (R294). -/
def givesFirst : PoolOp → Bool
  | .push _ | .give _ => true
  | _ => false

/-- Requests that may pair: opposite kinds, the same object, capability heat, world and version (R293, R332, R334). -/
def matches_ (a b : PoolReq) : Bool :=
  opposite a.op b.op && a.oid == b.oid && capHeat a.cap == capHeat b.cap && a.world == b.world && a.version == b.version

/-- The request is the oldest held one of its strand for its object at the hold point (R333). -/
def oldestOwn (s : State) (h : HoldPoint) (r : PoolReq) : Bool :=
  !s.reqs.any (fun q => heldAt h q && sameStrand s q r && q.oid == r.oid && decide (q.order < r.order))

/-- Earlier held requests of the same strand for the object. -/
def ownHeld (s : State) (h : HoldPoint) (r : PoolReq) : List PoolReq :=
  s.reqs.filter (fun q => heldAt h q && sameStrand s q r && q.oid == r.oid && q.id != r.id)

/-- The request that arrived first of a list. -/
def firstHeld : List PoolReq → Option PoolReq
  | [] => none
  | x :: xs =>
    match firstHeld xs with
    | some y => if y.order < x.order then some y else some x
    | none => some x

/-- The partner of an arriving request (R332, R333): its own strand's earlier push or give, or the oldest partner of another
strand, whose window is open (R293); none while a request of its own strand is held before it. -/
def partnerOf (s : State) (h : HoldPoint) (r : PoolReq) : Option PoolReq :=
  match firstHeld (ownHeld s h r) with
  | some q => if matches_ q r && givesFirst q.op && decide (s.cycle ≤ q.expiry) then some q else none
  | none => firstHeld (s.reqs.filter (fun q => heldAt h q && matches_ q r && oldestOwn s h q && decide (s.cycle ≤ q.expiry)))

/-- The die whose counters a hold point's splices and fall-throughs go to; none at a front end (R382). -/
def countDie : HoldPoint → Option Nat
  | .ringStation d | .bridgeStation d => some (dieIx d)
  | .frontEnd _ => none

def countAt (s : State) (h : HoldPoint) (k : Nat) : State :=
  match countDie h with
  | some d => s.count d k
  | none => s

/-- A request goes on from a hold point: on to the ring, out of the port, or to the home. -/
def advance (s : State) (h : HoldPoint) (r : PoolReq) : State :=
  match h with
  | .ringStation d =>
    putSlot (modReq s r.id (fun r => { r with stage := .atBridge })) d.pkg.val r.id (dieStation d.die.val) (bridgeStation (r.node % 8))
  | .bridgeStation _ => leavePort s r .atFront
  | .frontEnd _ => modReq s r.id (fun r => { r with stage := .atNode })

/-- A request may go on: leaving a bridge needs a port that issues, and waits for earlier requests of its strand (R333, R335, R339). -/
def mayAdvance (s : State) (h : HoldPoint) (r : PoolReq) : Bool :=
  match h with
  | .bridgeStation _ => mayIssue s r && !heldBack s r
  | _ => true

/-- A request leaves a hold point without a partner, if it may go on; at the bridge one to an absent or severed node is refused
(R329, R332). -/
def forward (s : State) (h : HoldPoint) (r : PoolReq) : State :=
  match h with
  | .bridgeStation _ =>
    if !nodePresent s (pkgOfCell r.cell) r.node then refuseReq s r.id .staleTopo
    else if mayAdvance s h r then countAt (advance s h r) h 12 else s
  | _ => countAt (advance s h r) h 12

/-- Element size of the object a request names. -/
def elemSize (s : State) (r : PoolReq) : Nat := match objOf s r.node r.oid with | some o => o.esize | none => 8

/-- A request answered at a hold point, whose response starts its way back; the pair holds a veto until both responses are received
(R294, R336). -/
def answerHere (s : State) (h : HoldPoint) (r : PoolReq) (v : Word) (t : Nat) : State :=
  let s1 := modReq s r.id (fun x => { x with stage := .answered, answer := .ok v false t 0, veto := true })
  match h with
  | .ringStation _ => modReq s1 r.id (fun x => { x with stage := .returning })
  | .bridgeStation _ => sendBack s1 r
  | .frontEnd _ => s1

/-- The splice of a push or give a and a pop or take b (R294). A remainder goes on from here as a new request that reaches this hold
point (notes/assumptions/49.md). -/
def splice (s : State) (h : HoldPoint) (a b : PoolReq) : State :=
  let s1 := countAt s h 11
  match a.op, b.op with
  | .push v, .pop _ => answerHere (answerHere s1 h a 0 0) h b (lowBytes v (elemSize s a)) a.pts
  | .give n, .take m got r =>
    let t := if n ≤ m then n else m
    let s2 :=
      if n ≤ m then answerHere s1 h a 0 0
      else modReq s1 a.id (fun x => { x with op := .give (n - t), stage := atStage h })
    if m ≤ n then answerHere s2 h b (got + t) (max b.pts a.pts)
    else modReq s2 b.id (fun x => { x with op := .take (m - t) (got + t) r, pts := max x.pts a.pts, stage := atStage h })
  | _, _ => s

/-- Requests held at a hold point. -/
def heldCount (s : State) (h : HoldPoint) : Nat := (s.reqs.filter (heldAt h)).length

def hold (s : State) (h : HoldPoint) (r : PoolReq) : State :=
  let (n, s1) := s.fresh
  modReq s1 r.id (fun x => { x with stage := heldStage h, since := s.cycle, expiry := s.cycle + windowAt s h r, order := n })

/-- The front end of a node is reached over its plane, and judges a request's version first (R327, R337). -/
def versionOk (s : State) (h : HoldPoint) (r : PoolReq) : Bool :=
  match h with
  | .frontEnd n => r.version == (s.node n.val).version && nodeOpen s (pkgOfCell r.cell) n.val
  | _ => true

/-- How far on its way a request stands. -/
def ReqStage.rank : ReqStage → Nat
  | .atRing => 0
  | .heldRing => 1
  | .atBridge => 2
  | .heldBridge => 3
  | .refusedStale => 4
  | .atFront => 5
  | .heldFront => 6
  | _ => 7

/-- An earlier request of the strand to the object has not come as far as this hold point (R333). -/
def overtakes (s : State) (h : HoldPoint) (r : PoolReq) : Bool :=
  s.reqs.any (fun q => decide (q.id < r.id) && orderedWith s q r && !q.discarded && decide (q.stage.rank < (heldStage h).rank))

/-- A request whose object has become ineligible passes a hold point without a hold (R293); at the bridge POOL_REQUEST takes it on. -/
def passBy (s : State) (h : HoldPoint) (r : PoolReq) : State :=
  match h with
  | .bridgeStation _ => s
  | _ => advance s h r

/-- HOLD_ARRIVAL: an eligible request reaches a hold point, behind those of its strand before it: it splices, is held, or goes on (R332,
R333). -/
def execHoldArrival (h : HoldPoint) (id : Nat) (s : State) : Out :=
  match req? s id with
  | none => .next s
  | some r =>
    if r.stage ≠ atStage h ∨ !pointOf r h ∨ !r.op.isObject ∨ r.discarded ∨ !versionOk s h r ∨ onRing s (pkgOfCell r.cell) id
        ∨ overtakes s h r then .next s
    else if firstStage s r.cap r.op ≠ .atRing then .next (passBy s h r)
    else
      match partnerOf s h r with
      | some q => .next (if givesFirst r.op then splice s h r q else splice s h q r)
      | none =>
        let own := !(ownHeld s h r).isEmpty
        if (windowAt s h r ≠ 0 ∨ own) ∧ heldCount s h < 32 then .next (hold s h r)
        else if own then .next s
        else .next (forward s h r)

/-- HOLD_WINDOW_EXPIRY: a held request goes on when the window it was held with has passed (R331, R333, R352). -/
def execHoldWindowExpiry (h : HoldPoint) (id : Nat) (s : State) : Out :=
  match req? s id with
  | none => .next s
  | some r =>
    if heldAt h r && decide (r.expiry ≤ s.cycle) && oldestOwn s h r then .next (forward s h r) else .next s

/-- A held request's window ends now: it goes on at once, or as soon as it may (R334). -/
def endHold (s : State) (h : HoldPoint) (r : PoolReq) : State :=
  let s1 := modReq s r.id (fun x => { x with expiry := min x.expiry s.cycle })
  if oldestOwn s h r then forward s1 h r else s1

/-- The requests of a list that are held at a hold point go on at once (R334). -/
def releaseHeld (h : HoldPoint) : State → List PoolReq → State
  | s, [] => s
  | s, r :: rs => releaseHeld h (if heldAt h r then endHold s h r else s) rs

/-! Topology versions (R335, R337). -/

/-- The packages that belong to the domain: brought up and not severed. -/
def inDomain (s : State) (p : Nat) : Bool :=
  let k := s.pkg p
  (k.phase == .released || k.phase == .ready) && !k.severSelf && !s.topo.severed.contains p

/-- The nodes of the domain. -/
def nodeInDomain (s : State) (n : Nat) : Bool := s.topo.nodesPresent.contains n && !s.topo.nodesSevered.contains n

def modPort (s : State) (p link : Nat) (f : Port → Port) : State :=
  s.modPkg p (fun k => { k with ports := insertAt k.ports link (f (lookup Port.reset k.ports link)) })

/-- TOPOLOGY_ANNOUNCE: the announced version reaches a port or a node's front end, which stops issuing (R335). -/
def execTopologyAnnounce (at_ : Fabric) (s : State) : Out :=
  if !s.changing then .next s
  else
    match at_ with
    | .port p i =>
      if portVersion s p.val i.val = s.version then .next s
      else .next ((modPort s p.val i.val (fun t => { t with announced := true })).modPkg p.val (fun k => { k with announced := s.version }))
    | .node n => .next (if (s.node n.val).version = s.version then s else s.modNode n.val (fun d => { d with announced := true }))

/-- An operation of some strand, in its cell or stowed, has a property: tested with the number of its cell. -/
def anyOp (s : State) (f : Nat → MemOp → Bool) : Bool :=
  s.cells.any (fun e => e.2.ops.any (f e.1)) || s.dies.any (fun e => e.2.stowed.any (fun x => x.ctx.ops.any (f x.cell)))

/-- A request that a port of a package has issued awaits its answer (R335 step 2): one to a node of its plane, or on plane p mod 8 an
access to another package. -/
def unanswered (s : State) (p i : Nat) : Bool :=
  s.reqs.any (fun r => pkgOfCell r.cell == p && r.node % 8 == i && !r.discarded
    && (r.stage == .atFront || r.stage == .heldFront || r.stage == .atNode || (r.stage == .answered && r.answer != .none)))
  || (i == p % 8 && anyOp s (fun ix o => pkgOfCell ix == p && o.homePkg != p && !o.dead
    && (o.leg == .plane || o.leg == .crossed || o.leg == .back)))

/-- A veto stands at a port of a package (R336): of a spliced pair at its ring or bridge stations, or of an atomic that one of its dies
has performed for another package whose requests come on the port's plane. -/
def portVeto (s : State) (p i : Nat) : Bool :=
  s.reqs.any (fun r => pkgOfCell r.cell == p && r.node % 8 == i && r.stage == .returning && r.veto)
  || anyOp s (fun ix o => pkgOfCell ix != p && pkgOfCell ix % 8 == i && o.homePkg == p && o.leg == .back
    && o.kind.writes && !o.kind.isStore)

/-- A veto stands at a node (R336). -/
def nodeVeto (s : State) (n : Nat) : Bool := s.reqs.any (fun r => r.node == n && r.stage == .answered && r.veto)

/-- Filters whose byte differs between two listen words. -/
def changedFilters (a b : Word) : List Nat := (List.range 8).filter (fun f => wf64 a (8 * f + 7) (8 * f) ≠ wf64 b (8 * f + 7) (8 * f))

/-- A pending listen word comes into force at its port, whose changed filters retune for 360 cycles (R328, R335, R354). -/
def applyListen (s : State) (p i : Nat) : State :=
  let d := s.die (p * 8 + i)
  match d.listenPending with
  | none => s
  | some w =>
    let changed := changedFilters d.listen w
    modPort (s.setDie (p * 8 + i) { d with listen := w, listenPending := none }) p i
      (fun t => { t with
        retune := changed.map (fun f => (f, s.cycle + 360)) ++ t.retune.filter (fun x => !changed.contains x.1) })

/-- Every port and front end of the domain has adopted the announced version: the next change may be announced (R335). -/
def settleChange (s : State) : State :=
  if (List.range 32).all (fun p => !inDomain s p || (List.range 8).all (fun i => portVersion s p i == s.version))
      && (List.range 16).all (fun n => !nodeInDomain s n || (s.node n).version == s.version)
  then (if s.again then announce s else { s with changing := false }) else s

/-- Reductions of a package that are not complete start again under the new version (R341). -/
def restartReductions (p : Package) : Package :=
  { p with reductions := p.reductions.filter (fun e => (find? e.2 32).isSome) }

/-- A package with the announced topology in its table (R335, R356). -/
def Package.adopt (k : Package) (version : BitVec 4) (told : Topology) : Package :=
  if k.version = version then k else restartReductions { k with version := version, announced := version, topo := told }

/-- A port that entry 0 has rekeyed takes the new key, and its frame counters restart (R381, R388). -/
def rekeyPort (s : State) (p i : Nat) : State :=
  if (s.pkg p).rekey.contains i then
    (modPort s p i (fun t => { t with expects := [] })).modPkg p (fun k => { k with rekey := k.rekey.filter (· != i) })
  else s

/-- The requests held at the stations of a package for a plane go on at once (R334). -/
def releasePlane (s : State) (p i : Nat) : State :=
  let rs := s.reqs.filter (fun r => pkgOfCell r.cell == p && r.node % 8 == i)
  (List.range 8).foldl (fun t d => releaseHeld (.ringStation (dieIdOf (p * 8 + d))) t rs)
    (releaseHeld (.bridgeStation (dieIdOf (p * 8 + i))) s rs)

/-- TOPOLOGY_ADOPT: a port or a node's front end adopts the announced version and resumes, once what it has issued is answered and no
veto stands (R335). -/
def execTopologyAdopt (at_ : Fabric) (s : State) : Out :=
  match at_ with
  | .port p i =>
    if issuing s p.val i.val || unanswered s p.val i.val || portVeto s p.val i.val then .next s
    else
      let s1 := modPort s p.val i.val (fun t => { t with version := s.version, announced := false })
      let s2 := rekeyPort (s1.modPkg p.val (fun k => k.adopt s.version s.told)) p.val i.val
      .next (settleChange (releasePlane (applyListen s2 p.val i.val) p.val i.val))
  | .node n =>
    if !(s.node n.val).announced || nodeVeto s n.val then .next s
    else
      let s1 := s.modNode n.val (fun d => { d with version := s.version, announced := false })
      .next (settleChange (releaseHeld (.frontEnd n) s1 s1.reqs))

/-- The strand's cell, itself and an operation of it by number, in its cell or stowed. -/
def opOwner (s : State) (id : Nat) : Option (Nat × Cell × MemOp) :=
  let pick (ix : Nat) (c : Cell) : Option (Nat × Cell × MemOp) := (c.op? id).map (fun o => (ix, c, o))
  match s.cells.findSome? (fun e => pick e.1 e.2) with
  | some x => some x
  | none => s.dies.findSome? (fun e => e.2.stowed.findSome? (fun x => pick x.cell x.ctx))

/-- An access that a port of its home's package finds stale is sent again, three times at most; then its strand takes STALE_TOPO (R337). -/
def refuseStaleOp (s : State) (p i id : Nat) : State :=
  match opOwner s id with
  | none => s
  | some (ix, _, o) =>
    if !staleAtPort s ix o || o.homePkg != p || pkgOfCell ix % 8 != i then s
    else
      let s1 := s.count (dieOfCell ix) 13
      if 3 ≤ o.tries then sendReply s1 ix o (.refused .staleTopo o.addr) true
      else onOp s1 ix id (fun x => { x with leg := .out, tries := x.tries + 1 })

/-- STALE_REFUSAL: a node or a port refuses a request of an older version; its sender sends it again under the version in force there,
three times at most (R337). -/
def execStaleRefusal (at_ : Fabric) (id : Nat) (s : State) : Out :=
  match at_, req? s id with
  | .port p i, some r =>
    if pkgOfCell r.cell = p.val ∧ r.node % 8 = i.val ∧ r.stage = .refusedStale ∧ mayIssue s r then
      .next (leavePort s r (if firstStage s r.cap r.op = .atRing then .atFront else .atNode))
    else .next s
  | .port p i, none => .next (refuseStaleOp s p.val i.val id)
  | .node _, none => .next s
  | .node n, some r =>
    if r.node ≠ n.val ∨ (r.stage ≠ .atNode ∧ r.stage ≠ .atFront) ∨ r.answer ≠ .none ∨ r.discarded ∨ !nodeOpen s (pkgOfCell r.cell) n.val
        ∨ !olderVersion r.version (s.node n.val).version then .next s
    else
      let s1 := s.count (dieOfCell r.cell) 13
      .next (if 3 ≤ r.tries then refuseReq s1 id .staleTopo
        else modReq s1 id (fun r => { r with stage := .refusedStale, tries := r.tries + 1 }))

/-- RETUNE_COMPLETE: a filter hears its new colour 360 cycles after it was retuned (R328). -/
def execRetuneComplete (at_ : Fabric) (filter : Fin 8) (s : State) : Out :=
  match at_ with
  | .port p i => .next (modPort s p.val i.val (fun t => { t with
      retune := t.retune.filter (fun x => x.1 != filter.val || decide (s.cycle < x.2)) }))
  | .node _ => .next s

/-! Links (R338, R339, R381). -/

/-- A link as it stands. -/
def linkAt (s : State) (l : LinkRef) : Port :=
  match l.owner with
  | .pkg p => linkOf s p.val l.link.val
  | .node n => lookup Port.reset (s.node n.val).ports l.link.val

def modLink (s : State) (l : LinkRef) (f : Port → Port) : State :=
  match l.owner with
  | .pkg p => modPort s p.val l.link.val f
  | .node n => s.modNode n.val (fun d => { d with ports := insertAt d.ports l.link.val (f (lookup Port.reset d.ports l.link.val)) })

/-- The link is an optical port. -/
def opticalLink (l : LinkRef) : Bool := decide (l.link.val < 8)

/-- The widths of eight ports in one number, two bits for each plane (R356). -/
def widthsOf (m : SMap Port) : Nat := (List.range 8).foldl (fun n i => n + (lookup Port.reset m i).width * 4 ^ i) 0

/-- Reconfiguration knows the width of an optical port (R356). -/
def tellWidth (s : State) (l : LinkRef) : State :=
  let (k, w) := match l.owner with
    | .pkg p => (p.val, widthsOf (s.pkg p.val).ports)
    | .node n => (32 + n.val, widthsOf (s.node n.val).ports)
  { s with topo := { s.topo with widths := insertAt s.topo.widths k w } }

/-- LANE_FAILURE: a link loses a lane: half width, then quarter; an optical port is then down, and its width change is a topology
change, which that of an on-package link is not (R338, R339). -/
def execLaneFailure (owner : Peer) (link : Fin 41) (_lane : Nat) (s : State) : Out :=
  let l : LinkRef := ⟨owner, link⟩
  let t := linkAt s l
  let narrow (t : Port) : Port := { t with width := t.width + 1, lanesLost := t.lanesLost + 1, pausedTill := s.cycle + 3600, replay := true }
  if 3 ≤ t.width ∨ (!opticalLink l ∧ 2 ≤ t.width) then .next s
  else if !opticalLink l then .next (modLink s l narrow)
  else .next (startChange (tellWidth (modLink s l (fun t => { narrow t with
    downSince := if t.width = 2 then some s.cycle else t.downSince })) l))

/-- RETRAIN_DONE: 3600 cycles after the failure the link carries traffic again and its flits in flight are replayed (R338). -/
def execRetrainDone (owner : Peer) (link : Fin 41) (s : State) : Out :=
  let l : LinkRef := ⟨owner, link⟩
  if s.cycle < (linkAt s l).pausedTill then .next s
  else .next (modLink s l (fun t => { t with pausedTill := 0, replay := false }))

/-- LINK_REPLAY_TIMEOUT: frames that were not accepted are sent again; none is delivered twice (R338). -/
def execLinkReplayTimeout (owner : Peer) (link : Fin 41) (s : State) : Out :=
  .next (modLink s ⟨owner, link⟩ (fun t => { t with replay := false }))

/-- The die whose counters a link's dropped frames go to: that of the port, bridge, stack or ring station; none at a node (R382). -/
def linkDie (l : LinkRef) : Option Nat :=
  match l.owner with
  | .pkg p => some (p.val * 8 + (if l.link.val < 24 then l.link.val % 8 else min 7 ((l.link.val - 24) / 2)))
  | .node _ => none

/-- SEALED_FRAME_RECEIVE: the frame of the counter that its direction expects with a good tag is accepted; any other is dropped and
replayed (R381). -/
def execSealedFrameReceive (owner : Peer) (link : Fin 41) (f : SealedFrame) (s : State) : Out :=
  let l : LinkRef := ⟨owner, link⟩
  let n := lookup 0 (linkAt s l).expects f.dir.val
  if f.tagOk && f.counter == n then .next (modLink s l (fun t => { t with expects := insertAt t.expects f.dir.val (n + 1) }))
  else
    let t := modLink s l (fun t => { t with replay := true })
    .next (match linkDie l with | some d => t.count d 16 | none => t)

/-- What a strand sees of a discarded request: its register is no longer pending and keeps its value. -/
def severSeen (r : PoolReq) (c : Cell) : Cell :=
  let c1 := { c.unpend r.op.reg with acquire := c.acquire.filter (· != r.id) }
  match r.op with
  | .pop _ => { c1.landShared r.id 15 with pendP15 := false }
  | _ => c1

/-- A request whose home or package is severed: a write is discarded, a read refused (R312, R339). -/
def severReq (r : PoolReq) (s : State) : State :=
  if r.stage = .returning ∨ r.stage = .parked ∨ r.discarded then s
  else if r.op.isFill || (match r.op with | .check _ _ | .field _ _ | .copyWrite _ _ _ => true | _ => false)
  then refuseReq s r.id .staleTopo
  else
    settleWrite (onStrand (modReq s r.id (fun x => { x with discarded := true, veto := false, stage := .answered, answer := .none }))
      r.cell r.id (severSeen r)) r none

/-- Sever every request of a list. -/
def severReqs (s : State) (rs : List PoolReq) : State := rs.foldl (fun t r => severReq r t) s

/-- A write under way, of a cell, to a package severed from its own (R339). -/
def severedWrite (s : State) (ix : Nat) (o : MemOp) : Bool :=
  o.kind.writes && o.leg != .returned && !o.dead && severedFor s (pkgOfCell ix) o.homePkg

/-- The writes of a strand that are outstanding to a severed package are dead: none is performed any more, and the next release discards
them (R312); the registers of its atomics stop being pending (R339). -/
def killWrites (s : State) (ix : Nat) (c : Cell) : Cell :=
  let gone := c.ops.filter (severedWrite s ix)
  let d := gone.foldl (fun c o => match o.kind with | .rmw _ r _ _ => c.unpend r.toNat | _ => c) c
  { d with ops := d.ops.map (fun o => if severedWrite s ix o then { o with dead := true } else o) }

def killAllWrites (s : State) : State :=
  { s with
    cells := s.cells.map (fun (e : Nat × Cell) => (e.1, killWrites s e.1 e.2))
    dies := mapVals (fun d => { d with stowed := d.stowed.map (fun x => { x with ctx := killWrites s x.cell x.ctx }) }) s.dies }

/-- A package has had a port down for 90 000 cc (R339). -/
def downLong (s : State) (p : Nat) : Bool :=
  (s.pkg p).ports.any (fun e => match e.2.downSince with | some t => decide (t + 90000 ≤ s.cycle) | none => false)

/-- Add a number to a list once. -/
def addOnce (xs : List Nat) (x : Nat) : List Nat := if xs.contains x then xs else x :: xs

/-- A node has been without a port of any plane for 90 000 cc (R339). -/
def nodeLost (s : State) (n : Nat) : Bool :=
  (List.range 8).all (fun i =>
    match (lookup Port.reset (s.node n).ports i).downSince with | some t => decide (t + 90000 ≤ s.cycle) | none => false)

/-- Reconfiguration declares a package severed: it sees every peer so (R339). -/
def severPkg (s : State) (p : Nat) : State :=
  { s with topo := { s.topo with severed := addOnce s.topo.severed p } }.modPkg p (fun k => { k with severSelf := true })

/-- PACKAGE_SEVERED: reconfiguration declares a package or a node severed, and announces a new version (R339, R312). Where those that leave
were the last that had not adopted the version under way, the change is complete with them (R335). -/
def execPackageSevered (peer : Peer) (s : State) : Out :=
  match peer with
  | .pkg p =>
    if !downLong s p.val ∨ (s.pkg p.val).severSelf then .next s
    else
      let s1 := severPkg s p.val
      .next (settleChange (startChange (killAllWrites (severReqs s1 (s1.reqs.filter (fun r => pkgOfCell r.cell == p.val))))))
  | .node n =>
    if !nodeInDomain s n.val ∨ !nodeLost s n.val then .next s
    else
      let s1 : State := { s with topo := { s.topo with nodesSevered := addOnce s.topo.nodesSevered n.val } }
      .next (settleChange (startChange (severReqs s1 (s1.reqs.filter (fun r => r.node == n.val)))))

/-! Domain reduction (R341). -/

/-- A contribution reaches one package; with all of the domain's it is combined in ascending package number. -/
def contribute (s : State) (id from_ : Nat) (bs : List Byte) (q : Nat) : State :=
  if !inDomain s q || !(q == from_ || hears s q (from_ % 8) from_) then s
  else
    s.modPkg q (fun k =>
      let m := insertAt (lookup [] k.reductions id) from_ bs
      let members := (List.range 32).filter (fun p => inDomain s p)
      let done := members.all (fun p => (find? m p).isSome)
      let m1 := if done then insertAt m 32 (Config.reduceBytes (members.map (fun p => lookup [] m p))) else m
      { k with reductions := insertAt k.reductions id m1 })

/-- The plane of a package carries its multicast to every package of the domain that hears it (R327, R338, R339). -/
def multicastOpen (s : State) (p : Nat) : Bool :=
  (List.range 32).all (fun q => q == p || !inDomain s q || !hears s q (p % 8) p || requestOpen s p q)

/-- DOMAIN_REDUCTION: a package multicasts its contribution of a round, at most 256 B whose contents come from its Cleats; it waits while
a port of its way is down or paused. -/
def execDomainReduction (p : PkgId) (id : Nat) (s : State) : Out :=
  if !inDomain s p.val || !multicastOpen s p.val then .next s
  else
    let bs := (List.range 256).map (fun i => Config.freeByte (s.free + i))
    .next ((List.range 32).foldl (fun t q => contribute t id p.val bs q) { s with free := s.free + 256 })

/-! Node management (R281, R365). -/

/-- A descriptor that a node creates: page-multiple size, an element size for bags, stacks and fifos, a lease duration. -/
def createOk (s : State) (n : Nat) (oid kind pages duration esize : Nat) (window : Option Nat) : Bool :=
  oid != 0 && pages != 0 && duration != 0 && (objOf s n oid).isNone && !s.nodes.any (fun e => (find? e.2.objects oid).isSome)
    && (if kind = 0 ∨ kind = 4 then esize == 0 else esize == 1 || esize == 2 || esize == 4 || esize == 8)
    && (match window with | some w => decide (w ≤ 1024) | none => true)

/-- The contents are those of an object of the kind and size: bytes, elements up to the capacity, or a count (R282, R291). -/
def contentsOk (kind pages esize : Nat) : NodeContents → Bool
  | .bytes b => kind == 0 && decide (b.length ≤ pages * 4096)
  | .elems xs => (kind == 1 || kind == 2 || kind == 3) && decide (xs.length * esize ≤ pages * 4096)
  | .count _ => kind == 4

/-- A new object with its contents. -/
def PoolObj.holding (o : PoolObj) : NodeContents → PoolObj
  | .bytes b => { o with bytes := Memory.write [] 0 b }
  | .elems xs => { o with elems := xs.map (fun v => lowBytes v o.esize) }
  | .count n => { o with count := n.toNat }

/-- Held requests of an object whose window they have already exceeded go on at once (R334). -/
def releaseWindow (n oid : Nat) : State → List PoolReq → State
  | s, [] => s
  | s, r :: rs =>
    let h : HoldPoint := match r.stage with
      | .heldRing => .ringStation (dieIdOf (dieOfCell r.cell))
      | .heldBridge => .bridgeStation (dieIdOf (bridgeDie r))
      | _ => .frontEnd ⟨r.node % 16, Nat.mod_lt _ (by decide)⟩
    releaseWindow n oid
      (if r.node = n ∧ r.oid = oid ∧ heldAt h r ∧ r.since + windowAt s h r ≤ s.cycle then endHold s h r else s) rs

/-- NODE_MANAGEMENT_REQUEST: objects are created with a new heat, token 0 and their contents, freed, given a splice window; a world's failure
count is cleared (R281 to R283, R334, R365). -/
def execNodeManagementRequest (n : NodeId) (r : NodeRequest) (s : State) : Out :=
  match r with
  | .create oid kind pages world guarded duration window esize contents =>
    if !createOk s n.val oid.toNat kind.val pages duration.toNat esize window || !contentsOk kind.val pages esize contents then .next s
    else
      let heat := lookup 0 (s.node n.val).heats oid.toNat + 1
      let o : PoolObj := {
        kind := kind.val, size := pages * 4096, heat := heat, world := world, guarded := guarded, duration := duration.toNat
        token := 0, holder := none, expiry := 0, override := window, esize := esize, count := 0, bytes := [], elems := []
        wts := [], rts := [] }
      .next (s.modNode n.val (fun d => { d with objects := insertAt d.objects oid.toNat (o.holding contents), heats := insertAt d.heats oid.toNat heat }))
  | .free oid => .next (s.modNode n.val (fun d => { d with objects := dropKey d.objects oid.toNat }))
  | .setWindow oid window =>
    match objOf s n.val oid.toNat with
    | none => .next s
    | some o =>
      if (match window with | some w => decide (w ≤ 1024) | none => true) then
        let s1 := putObj s n.val oid.toNat { o with override := window } 0
        .next (releaseWindow n.val oid.toNat s1 s1.reqs)
      else .next s
  | .clearFailures world => .next (s.modNode n.val (fun d => { d with failures := dropKey d.failures world.toNat }))

/-- POOL_NODE_RESTART: tokens survive; the leases do not; a node that was not in the domain joins it under the version in force (R283,
R335). -/
def execPoolNodeRestart (n : NodeId) (s : State) : Out :=
  let s1 := s.modNode n.val (fun d => { d with objects := mapVals (fun o => { o with holder := none }) d.objects })
  let s2 := releaseHeld (.frontEnd n) s1 s1.reqs
  if nodeInDomain s n.val then .next s2
  else
    let s3 := s2.modNode n.val (fun d => { d with ports := [], version := s.version, announced := false })
    .next (startChange { s3 with topo := { s3.topo with
      nodesPresent := addOnce s3.topo.nodesPresent n.val, nodesSevered := s3.topo.nodesSevered.filter (· != n.val)
      widths := dropKey s3.topo.widths (32 + n.val) } })

end Sys2Proof.Machine
end

