-- ==== Sys2Proof/Machine/Copies.lean ====
section
/-! DEFINITION. Copies of the Ladles: `pour` (R298 to R303), `hpour` (R304, R391, R392) and the copy tags (R367 to R369). -/
namespace Sys2Proof.Machine
open Sys2Proof

/-! Reads that a word makes and waits for before it acts (R240, R298). -/

/-- The outcome of such reads: their bytes, a stopping fault, a local miss, or a wait, for earlier writes, for the way to a home or
for the command cell to which the home has referred a miss. -/
inductive Now where
  | ok (bs : List Byte) (s : State)
  | fault (code : FaultCode) (val : Word)
  | miss (addr : Word)
  | wait (s : State)

/-- The cycle in which a home referred the miss of this read to its command cell. -/
def Cell.referred (c : Cell) (w : Word) : Option Nat :=
  match c.refer with
  | some (a, t) => if a = w then some t else none
  | none => none

/-- Sixteen bytes read at a site. -/
def readFrom (s : State) (w : Word) (p : Site) (tlb : List TlbEntry) : Now :=
  match readSite s w p 16 with
  | .error e => .fault e (faultAddr e w)
  | .ok bs => .ok bs ((noteEcc s w p).upd (fun c => { c with tlb := tlb, seen := max c.seen (homeTime s w), refer := none }))

/-- One 16-byte load of the cell in focus, performed at once. -/
def readOne (s : State) (w : Word) : Now :=
  let world := (s.die s.myDie).world
  if s.cur.writePending w 16 || !mayLeave s s.myDie w then .wait s
  else if isLocal s.me w then
    match checkAt s s.me s.cur.tlb w 16 .rd false with
    | .miss => .miss w
    | .fault e v => .fault e v
    | .ok (some p) t => readFrom s w p t
    | _ => .fault .perm w
  else if (remoteGate s s.myPkg world w).isNone && remoteMiss s world w .rd && referOpen s (s.cur.referred w) w.toNat then
    .wait (if (s.cur.referred w).isSome then s else s.upd (fun c => { c with refer := some (w, s.cycle) }))
  else
    match remoteCheck s s.myPkg world w .rd with
    | .error e => .fault e w
    | .ok p => readFrom s w p s.cur.tlb

/-- n consecutive 16-byte loads. -/
def readNow (s : State) (w : Word) : Nat → Now
  | 0 => .ok [] s
  | n + 1 =>
    if !addrOk w then .fault .align w
    else
      match readOne s w with
      | .ok bs t =>
        match readNow t (w + 16) n with
        | .ok rest u => .ok (bs ++ rest) u
        | r => r
      | r => r

/-- Continue with the bytes read; a fault is taken at the word, a local miss holds the engine at it (R198). -/
def withRead (s : State) (w : Word) (n : Nat) (go : List Byte → State → Res) : Res :=
  match readNow s w n with
  | .ok bs t => go bs t
  | .fault e v => .trapWith (s.upd (fun c => { c with refer := none })) e v
  | .miss a => .stay .external (holdFault s s.me ⟨a, s.cur.A.pc, 0, 0, [], none⟩ (offsetOf s.cur 0))
  | .wait t => .stay .external t

/-! The pour descriptor (R298 Tables 7 and 8, R299). -/

def Copy.word (k : Copy) (i : Nat) : Word := k.words.getD i 0
def Copy.size (k : Copy) : Nat := wf64 (k.word 2) 39 0
def Copy.rows (k : Copy) : Nat := wf64 (k.word 2) 63 40 + 1
def Copy.scopeCode (k : Copy) : Nat := wf64 (k.word 3) 2 0
def Copy.spool (k : Copy) : Bool := (k.word 3).getLsbD 3
def Copy.dpool (k : Copy) : Bool := (k.word 3).getLsbD 4
def Copy.tok (k : Copy) : Bool := (k.word 3).getLsbD 5
def Copy.walk (k : Copy) : Bool := (k.word 4).getLsbD 0
def Copy.trit (k : Copy) : Nat := wf64 (k.word 4) 2 1
def Copy.transpose (k : Copy) : Bool := (k.word 4).getLsbD 3
def Copy.bf (k : Copy) : Nat := wf64 (k.word 4) 5 4
def Copy.zpad (k : Copy) : Bool := (k.word 4).getLsbD 6
def Copy.crcOn (k : Copy) : Bool := (k.word 4).getLsbD 7
def Copy.dlen (k : Copy) : Nat := wf64 (k.word 7) 39 0
/-- The direction of an `hpour`: 1 moves data out to the host (R391). -/
def Copy.hostDir (k : Copy) : Bool := (k.word 2).getLsbD 32
def Copy.srcStride (k : Copy) : Word := if k.walk then sx ((k.word 5).extractLsb' 0 32) else 0
def Copy.dstStride (k : Copy) : Word := if k.walk then sx ((k.word 5).extractLsb' 32 32) else 0

/-- Bytes of the stream before the stages. -/
def Copy.inLen (k : Copy) : Nat := if k.host then wf64 (k.word 2) 31 0 else k.size * k.rows

/-- Output length of n input bytes (R299). -/
def Copy.scaled (k : Copy) (n : Nat) : Nat :=
  let a := if k.trit = 1 then n * 5 / 4 else if k.trit = 2 then n * 4 / 5 else n
  if k.bf = 1 then 2 * a else if k.bf = 2 then a / 2 else a

/-- Bytes of the output before padding; an `hpour` to the host writes its 16-byte tag after them (R391). -/
def Copy.outLen (k : Copy) : Nat := if k.host then k.inLen + (if k.hostDir then 16 else 0) else k.scaled k.inLen
/-- Output with its padding, and with the CRC granule. -/
def Copy.padded (k : Copy) : Nat := if !k.host && k.zpad then k.dlen else k.outLen
def Copy.total (k : Copy) : Nat := k.padded + (if !k.host && k.crcOn then 32 else 0)

/-- Input bytes that are converted together, the last of a stream whatever they are. -/
def Copy.chunk (k : Copy) : Nat :=
  if k.trit = 1 then (if k.transpose then 4096 else 128)
  else if k.trit = 2 then (if k.transpose then 1280 else 160)
  else if k.transpose then 1024 else 32

/-! Starting a copy (R300). -/

def mod32 (w : Word) : Bool := w.toNat % 32 == 0

/-- Conditions that end a copy with ILLEGAL. -/
def Copy.illegal (k : Copy) : Bool :=
  let c := k.word 3
  let m := k.word 4
  let mid := if k.trit = 1 then k.inLen * 5 / 4 else if k.trit = 2 then k.inLen * 4 / 5 else k.inLen
  wf64 c 63 16 != 0 || wf64 c 7 6 != 0 || decide (5 < k.scopeCode) || wf64 m 63 8 != 0 || k.trit == 3 || k.bf == 3
    || (k.trit != 0 && k.bf != 0) || (!k.walk && k.rows != 1) || (k.tok && !k.dpool) || wf64 (k.word 7) 63 40 != 0
    || (k.walk && decide (2 ^ 24 < k.rows))
    || (k.trit == 1 && k.size % 128 != 0) || (k.trit == 2 && k.size % 160 != 0) || (k.transpose && mid % 1024 != 0)
    || (k.zpad && (k.walk || decide (k.dlen < k.outLen))) || (!k.zpad && k.dlen != 0)

/-- Conditions that end a copy with ALIGN. -/
def Copy.misaligned (k : Copy) : Bool :=
  !mod32 (k.word 0) || !mod32 (k.word 1) || k.size % 32 != 0 || (k.walk && (!mod32 k.srcStride || !mod32 k.dstStride))
    || k.dlen % 32 != 0 || (!k.spool && !addrOk (k.word 0)) || (!k.dpool && !addrOk (k.word 1))

def Copy.startCode (k : Copy) : Option FaultCode :=
  if k.illegal then some .illegal else if k.misaligned then some .align else none

def modCopy (s : State) (die id : Nat) (f : Copy → Copy) : State :=
  s.modDie die (fun d => { d with copies := d.copies.map (fun k => if k.id = id then f k else k) })
def copy? (s : State) (die id : Nat) : Option Copy := (s.die die).copies.find? (·.id == id)

/-- The cluster of a cell within its die (R10). -/
def clusterOf (ix : Nat) : Nat := ix % 144 / 24

/-- Copies of a cluster's Ladle that are in progress, at most 8 (R258). -/
def inProgress (s : State) (die cl : Nat) : Nat :=
  ((s.die die).copies.filter (fun k => k.running && clusterOf k.home == cl && k.code.isNone)).length

/-- The queued copy whose turn it is: of the first cell in turn that has one, its oldest (R258). -/
def nextCopy (d : Die) (die cl : Nat) : Option Copy :=
  let t := lookup 0 d.turn cl
  let cells := (List.range 24).map (fun i => die * 144 + 24 * cl + (t + i) % 24)
  (cells.findSome? (fun ix => d.copies.find? (fun k => k.home == ix && !k.running)))

/-- COPY_START: a Ladle starts the copy whose turn it is and checks its descriptor (R258, R300); an `hpour` goes to the port die over the
ring (R327). -/
def execCopyStart (d : DieId) (cl : Fin 6) (s : State) : Out :=
  let die := dieIx d
  if 8 ≤ inProgress s die cl.val ∨ (s.die die).reassign.isSome then .next s
  else
    match nextCopy (s.die die) die cl.val with
    | none => .next s
    | some k =>
      let s1 := modCopy s die k.id (fun k => { k with running := true, code := if k.host then none else k.startCode })
      let s2 := if k.host then putSlot s1 (pkgOfDie die) k.id (dieStation (die % 8)) 0 else s1
      .next (s2.modDie die (fun d => { d with turn := insertAt d.turn cl.val ((k.home % 24 + 1) % 24) }))

/-! Stages (R299, R123). -/

/-- The five trits of a t5 byte, or none for a reserved one (R123). -/
def t5Trits (b : Byte) : Option (List Int) :=
  if 243 ≤ b.toNat then none else some ((List.range 5).map (fun j => balancedTrit ((b.toNat : Int) - 121) j))

/-- Every element of a list mapped, or none where one has no image. -/
def mapAll {α β : Type} (f : α → Option β) : List α → Option (List β)
  | [] => some []
  | x :: xs =>
    match f x, mapAll f xs with
    | some y, some ys => some (y :: ys)
    | _, _ => none

/-- Groups of n elements. -/
def groupsOf {α : Type} (n : Nat) (xs : List α) : List (List α) :=
  (List.range (xs.length / n)).map (fun i => (xs.drop (i * n)).take n)

/-- Four trits in a t2 byte. -/
def packT2 (ts : List Int) : Byte :=
  BitVec.ofNat 8 ((List.range 4).foldl (fun a m => a + (tritCode (ts.getD m 0)).toNat * 4 ^ m) 0)

def t5ToT2 (bs : List Byte) : Option (List Byte) := (mapAll t5Trits bs).map (fun l => (groupsOf 4 l.flatten).map packT2)

/-- The four trits of a t2 byte, or none for the reserved code. -/
def t2Trits (b : Byte) : Option (List Int) := mapAll (fun m => codeTrit (b.extractLsb' (2 * m) 2)) (List.range 4)

/-- Five trits as a t5 byte (R123). -/
def packT5 (ts : List Int) : Byte :=
  BitVec.ofInt 8 ((List.range 5).foldl (fun a m => a + ts.getD m 0 * 3 ^ m) 121)

def t2ToT5 (bs : List Byte) : Option (List Byte) := (mapAll t2Trits bs).map (fun l => (groupsOf 5 l.flatten).map packT5)

/-- Each 1 KiB block as a 32 x 32 byte matrix, transposed. -/
def transposeBlocks (bs : List Byte) : List Byte :=
  (groupsOf 1024 bs).flatMap (fun b => (List.range 1024).map (fun i => byteAt b (32 * (i % 32) + i / 32)))

/-- bf16 to f32, exact. -/
def widenBf (bs : List Byte) : List Byte := (groupsOf 2 bs).flatMap (fun b => [0, 0] ++ b)

/-- f32 to bf16 under rne, NaNs canonical. -/
def narrowBf (bs : List Byte) : List Byte :=
  (groupsOf 4 bs).flatMap (fun b => leBytes ((fmul 8 1 (BitVec.ofNat 32 (ofLe b)) 0x3F800000 0).bits.toNat / 65536) 2)

/-- The stages on one chunk of the stream, or none for a reserved pattern (R299, R301). -/
def Copy.convert (k : Copy) (bs : List Byte) : Option (List Byte) :=
  let a := if k.trit = 1 then t5ToT2 bs else if k.trit = 2 then t2ToT5 bs else some bs
  a.map (fun b =>
    let c := if k.transpose then transposeBlocks b else b
    if k.bf = 1 then widenBf c else if k.bf = 2 then narrowBf c else c)

/-! Granules. -/

/-- The site of a Ladle's access on any die (R301). -/
def ladleSite (s : State) (die : Nat) (w : Word) (need : Need) : Except FaultCode Site :=
  if !addrOk w then .error .align
  else if homeDie w ≠ die then remoteCheck s (pkgOfDie die) (s.die die).world w need
  else if inWindow w then .error .perm
  else if aVault w then
    match vaultCheck s w need with
    | .error e => .error e
    | .ok r => .ok ⟨w.toNat, some r.heat⟩
  else
    match walk s die (aOff w) with
    | none => .error .rxlate
    | some l => if permAllows (permBits l.raw) need then .ok ⟨leafPhys die (aOff w) l, none⟩ else .error .rxlate

/-- A translation miss of a Ladle's access, which is referred to the command cell of the address's die (R301). -/
def ladleMiss (s : State) (die : Nat) (w : Word) (need : Need) : Bool :=
  addrOk w &&
    (if homeDie w = die then !inWindow w && !aVault w && (homeSite s w need).toOption.isNone
     else (remoteGate s (pkgOfDie die) (s.die die).world w).isNone && remoteMiss s (s.die die).world w need)

def ladleRead (s : State) (die : Nat) (w : Word) : Except FaultCode (List Byte × State) :=
  match ladleSite s die w .rd with
  | .error e => .error e
  | .ok p =>
    match readSite s w p 32 with
    | .error e => .error e
    | .ok bs => .ok (bs, noteEcc s w p)

def ladleWrite (s : State) (die : Nat) (w : Word) (bs : List Byte) : Except FaultCode State :=
  match ladleSite s die w .wr with
  | .error e => .error e
  | .ok p =>
    match writeSite s p bs with
    | .error e => .error e
    | .ok t => .ok (raiseTime t w (s.pkg (pkgOfDie die)).pts)

/-- Address or object offset of stream byte x of the source. -/
def Copy.srcAt (k : Copy) (x : Nat) : Word :=
  if k.host then k.word 1 + BitVec.ofNat 64 x
  else if k.size = 0 then k.word 0
  else k.word 0 + BitVec.ofNat 64 (x / k.size) * k.srcStride + BitVec.ofNat 64 (x % k.size)

/-- Bytes of a row of the output. -/
def Copy.row (k : Copy) : Nat := if k.host then k.outLen else k.scaled k.size

/-- Address or object offset of output byte x: rows, padding, and the CRC granule, the first after the last destination byte (R299;
where that byte ends inside a granule, notes/assumptions/48.md). -/
def Copy.dstAt (k : Copy) (x : Nat) : Word :=
  if k.host || !k.walk then k.word 1 + BitVec.ofNat 64 (if x = k.padded then (x + 31) / 32 * 32 else x)
  else if x < k.outLen then k.word 1 + BitVec.ofNat 64 (x / k.row) * k.dstStride + BitVec.ofNat 64 (x % k.row)
  else k.word 1 + BitVec.ofNat 64 (k.rows - 1) * k.dstStride + BitVec.ofNat 64 ((k.row + 31) / 32 * 32)

/-- A pool request of a Ladle. -/
def copyReq (s : State) (die : Nat) (k : Copy) (op : PoolOp) (cap : Cap) (o : Nat) : State :=
  let (id, s1) := s.fresh
  let p := s1.pkg (pkgOfDie die)
  let off := if capWlen cap = 0 then o else capWstart cap * 4096 + o
  let n := nodeOf s1 (capOid cap).toNat
  let r : PoolReq := {
    id := id, cell := k.home, op := op, cap := cap, off := off, inOff := o, world := (s1.die die).world, node := n
    version := 0, pts := p.pts, stage := .atBridge, since := s1.cycle, expiry := 0, order := id, tries := 0, answer := .none
    veto := false, discarded := false }
  let s2 := putSlot s1 (pkgOfDie die) id (dieStation (die % 8)) (bridgeStation (n % 8))
  { s2 with reqs := s2.reqs ++ [r] }

/-- The request under way for a copy. -/
def reqOfCopy (s : State) (id : Nat) : Option PoolReq :=
  s.reqs.find? (fun r => match r.op with | .copyRead c | .copyWrite c _ _ => c == id | _ => false)

def failCopy (s : State) (die id : Nat) (e : FaultCode) : State := modCopy s die id (fun k => { k with code := some e })

/-- A source granule has been read, with the time that a pool response carried: with a whole chunk, or at the end of the stream, the
stages make its output. -/
def Copy.feed (k : Copy) (bs : List Byte) (t : Nat) : Copy :=
  let all := k.bytesIn ++ bs
  let k1 := { k with readAt := k.readAt + 32, wtime := max k.wtime t, missed := none }
  if !k.host && (all.length == k.chunk || decide (k.inLen ≤ k.readAt + 32)) then
    match k.convert all with
    | none => { k1 with code := some .fmt }
    | some out => { k1 with bytesIn := [], output := k.output ++ out }
  else { k1 with bytesIn := all }

/-- Bytes of the output that lie in one granule of their row from byte x on. -/
def Copy.room (k : Copy) (x : Nat) : Nat := min (32 - x % k.row % 32) (k.row - x % k.row)

/-- What is written next: the output's bytes of one granule, with padding behind the last of them, padding, or the CRC granule; none
where it has not been made. -/
def Copy.head (k : Copy) : Option (List Byte) :=
  let x := k.doneBytes
  if x < k.outLen then
    let n := min (k.room x) (k.outLen - x)
    if k.output.length < n then none
    else if x + n = k.outLen then some (fitBytes (min (32 - x % 32) (k.padded - x)) (k.output.take n))
    else some (k.output.take n)
  else if x < k.padded then some (List.replicate 32 0)
  else if x < k.total then some (fitBytes 32 (leBytes (~~~k.crc).toNat 4))
  else none

/-- What was written next has been performed. -/
def Copy.wrote (k : Copy) (bs : List Byte) (t : Nat) : Copy :=
  { k with output := k.output.drop bs.length, doneBytes := k.doneBytes + bs.length, wtime := max k.wtime t, missed := none
           crc := if k.doneBytes < k.padded then crcFeed k.crc bs else k.crc }

/-- A Ladle's access waits: for the way to its home, or for the command cell of the die to which its miss has been referred (R275,
R301). -/
def ladleWaits (s : State) (die : Nat) (k : Copy) (w : Word) (need : Need) : Bool :=
  !mayLeave s die w || (ladleMiss s die w need && referOpen s k.missed k.id)

/-- The miss of an access that waits is referred once. -/
def referCopy (s : State) (die : Nat) (k : Copy) (w : Word) (need : Need) : State :=
  if mayLeave s die w && ladleMiss s die w need && k.missed.isNone then
    modCopy s die k.id (fun k => { k with missed := some s.cycle })
  else s

/-- One source granule at an address is read (R301). -/
def ladleTake (s : State) (die : Nat) (k : Copy) : State :=
  let w := k.srcAt k.readAt
  if ladleWaits s die k w .rd then referCopy s die k w .rd
  else
    match ladleRead s die w with
    | .error e => failCopy s die k.id e
    | .ok (bs, t) => modCopy t die k.id (fun k => k.feed bs 0)

/-- One output granule is written at an address (R301). -/
def ladleGive (s : State) (die : Nat) (k : Copy) (bs : List Byte) : State :=
  let w := k.dstAt k.doneBytes
  if ladleWaits s die k w .wr then referCopy s die k w .wr
  else
    match ladleWrite s die w bs with
    | .error e => failCopy s die k.id e
    | .ok t => modCopy t die k.id (fun k => k.wrote bs 0)

/-- One source granule is read: through the pool cache by a request, or at an address (R278, R301). -/
def copyRead (s : State) (die : Nat) (k : Copy) : State :=
  if k.host || !k.spool then ladleTake s die k
  else
    match reqOfCopy s k.id with
    | none => copyReq s die k (.copyRead k.id) k.src (k.srcAt k.readAt).toNat
    | some r =>
      if !hasReturned s r then lookRead s r
      else
        match r.answer with
        | .refused e => failCopy (dropReq s r.id) die k.id e
        | .data (x :: _) t => modCopy (dropReq s r.id) die k.id (fun k => k.feed x.1 t)
        | _ => s

/-- One destination granule is written to the pool by a request: its acknowledgement or refusal comes back to the Ladle (R279, R302). -/
def copyPool (s : State) (die : Nat) (k : Copy) (bs : List Byte) : State :=
  match reqOfCopy s k.id with
  | none => copyReq s die k (.copyWrite k.id bs (if k.tok then some (k.word 6) else none)) k.dst (k.dstAt k.doneBytes).toNat
  | some r =>
    if canReturn s r then arriveBack s r
    else if !hasReturned s r then s
    else
      match r.answer with
      | .refused e => failCopy (dropReq s r.id) die k.id e
      | .ok _ _ _ wts => modCopy (dropReq s r.id) die k.id (fun k => k.wrote bs wts)
      | _ => s

/-- The port die writes to host memory, whose hmax the write reaches (R319, R392). -/
def copyHost (s : State) (die : Nat) (k : Copy) (bs : List Byte) : State :=
  let a := (k.word 0).toNat + k.doneBytes
  if (s.pkg (pkgOfDie die)).hostErr.contains (a / 32) then failCopy s die k.id .perm
  else modCopy (s.modPkg (pkgOfDie die) (fun p => { p with hostMem := Memory.write p.hostMem a bs, hostTime := max p.hostTime p.pts }))
    die k.id (fun k => k.wrote bs 0)

/-- One destination granule is written (R301, R302). -/
def copyWrite (s : State) (die : Nat) (k : Copy) (bs : List Byte) : State :=
  if k.host && k.hostDir then copyHost s die k bs
  else if !k.host && k.dpool then copyPool s die k bs
  else ladleGive s die k bs

/-- COPY_GRANULE_WRITE: a Ladle takes one granule further: the next output granule is written, or the next source granule is
read. A request to the pool that is under way is waited for. -/
def execCopyGranuleWrite (d : DieId) (id : Nat) (s : State) : Out :=
  let die := dieIx d
  match copy? s die id with
  | none => .next s
  | some k =>
    if !k.running ∨ k.code.isSome ∨ (k.host ∧ (!k.staged ∨ k.packets.any (onRing s (pkgOfDie die)))) then .next s
    else
      match k.head with
      | some bs => .next (copyWrite s die k bs)
      | none => if k.readAt < k.inLen ∧ k.doneBytes < k.outLen then .next (copyRead s die k) else .next s

/-! Completion (R303, R393). -/

/-- Status of a copy (R302 Table 10): bytes_done is a field of 40 bits. -/
def Copy.status (k : Copy) (final : Bool) : BitVec 64 :=
  let done := (if k.host then min k.inLen k.doneBytes else k.doneBytes) % 2 ^ 40
  BitVec.ofNat 64 ((if final then 2 ^ 63 else 0)
    + (match k.code with | some e => if final then codeNum e * 2 ^ 48 else 0 | none => 0) + done)

/-- The copy has ended: with a code, or with every granule of its output performed (an out-copy's tag too). -/
def Copy.ended (k : Copy) : Bool :=
  k.running && (k.code.isSome || (decide (k.total ≤ k.doneBytes) && k.output.isEmpty && (!k.host || k.staged)))

/-- COPY_COMPLETE: the status becomes final, the tag ready and the cell's event latch set, in the cell or the stow image. -/
def execCopyComplete (d : DieId) (id : Nat) (s : State) : Out :=
  let die := dieIx d
  match copy? s die id with
  | none => .next s
  | some k =>
    if !k.ended ∨ (reqOfCopy s id).isSome then .next s
    else
      let f (c : Cell) : Cell := { c with
        tags := insertAt c.tags k.tag ⟨true, k.status true, if k.host then 5 else k.scopeCode, k.wtime, s.cycle⟩, latch := true }
      let s1 := s.modDie die (fun d => { d with copies := d.copies.filter (·.id != id) })
      if k.orphan then .next s1
      else if 1000000 ≤ k.cell then
        .next (modStowed s1 die (fun x => stowKey x.slot == k.cell) (fun x => { x with ctx := f x.ctx }))
      else .next (s1.modCell k.cell f)

/-! `hpour` at the port die (R392). -/

def Copy.keyIx (k : Copy) : Nat := wf64 (k.word 2) 47 40
def Copy.iv (k : Copy) : List Byte := beBytes (wf64 (k.word 3) 31 0) 4 ++ beBytes (k.word 4).toNat 8
/-- Bytes 0x08 to 0x17 of the request block. -/
def Copy.aad (k : Copy) : List Byte := leBytes (k.word 1).toNat 8 ++ leBytes (k.word 2).toNat 8

def Copy.hostIllegal (k : Copy) : Bool :=
  let n := wf64 (k.word 2) 31 0
  wf64 (k.word 2) 63 48 != 0 || wf64 (k.word 2) 39 33 != 0 || wf64 (k.word 3) 63 32 != 0
    || (k.words.drop 5).any (· != 0) || decide (n < 32) || decide (2 ^ 24 < n) || n % 32 != 0 || k.keyIx == 0 || decide (64 ≤ k.keyIx)

/-- The host granules that a transfer of n bytes from an address touches, one of which completes in error. -/
def hostFails (p : Package) (a n : Nat) : Bool := p.hostErr.any (fun g => overlapAt (g * 32) 32 a n)

/-- Bytes staged by copies of a package (R392). -/
def stagedBytes (s : State) (pkg : Nat) : Nat :=
  s.dies.foldl (fun n e => if e.1 / 8 = pkg then n + e.2.copies.foldl (fun n k => if k.host && !k.hostDir then n + k.bytesIn.length else n) 0 else n) 0

/-- A copy of a list that started before another has still to be checked against the counter of its key handle (R392, R433). -/
def checkedLater (id : Nat) (kh : Nat) : List Copy → Bool
  | [] => false
  | k :: ks => if k.id = id then false else (k.host && k.running && k.code.isNone && !k.begun && k.keyIx == kh) || checkedLater id kh ks

/-- HPOUR_START: the port die checks a started `hpour`, consumes its counter and reads what it moves in (R392). -/
def execHpourStart (d : DieId) (id : Nat) (s : State) : Out :=
  let die := dieIx d
  let p := s.pkg (pkgOfDie die)
  match copy? s die id with
  | none => .next s
  | some k =>
    if !k.host ∨ !k.running ∨ k.code.isSome ∨ k.begun ∨ onRing s (pkgOfDie die) id ∨ (s.die die).reassign.isSome then .next s
    else if k.hostIllegal then .next (failCopy s die id .illegal)
    else if !mod32 (k.word 0) || !mod32 (k.word 1) || !addrOk (k.word 1) || homeDie (k.word 1) != die then .next (failCopy s die id .align)
    else if checkedLater id k.keyIx (s.die die).copies then .next s
    else
      let e := keyOf s die k.keyIx
      if !e.armed || e.kind != 1 || e.world != (s.die die).world || e.fixed.toNat != wf64 (k.word 3) 31 0
          || decide (k.word 4 ≤ e.counter) then .next (failCopy s die id .perm)
      else if !k.hostDir && decide (67108864 < stagedBytes s (pkgOfDie die) + k.inLen) then .next s
      else
        let s1 := setKey s die k.keyIx { e with counter := k.word 4 }
        if (s.die die).world ≠ 0 ∧ (s.die die).tdi ≠ .run then .next (failCopy s1 die id .perm)
        else if k.hostDir then .next (modCopy s1 die id (fun x => { x with begun := true }))
        else if hostFails p (k.word 0).toNat (k.inLen + 16) then .next (failCopy s1 die id .perm)
        else .next (modCopy s1 die id (fun x => { x with
          begun := true, bytesIn := Memory.read p.hostMem (k.word 0).toNat (k.inLen + 16), readAt := k.inLen }))

/-- Packets of at most 512 bytes that carry n bytes over the ring between two stations (R325): their numbers, and the state in which the
ring has been given them. -/
def putPackets (pkg src dst : Nat) : Nat → State → List Nat × State
  | 0, s => ([], s)
  | n + 1, s =>
    let (id, s1) := s.fresh
    let (ids, t) := putPackets pkg src dst n (putSlot s1 pkg id src dst)
    (id :: ids, t)

/-- The data of a copy go over the ring, between a die and the port die (R327). -/
def sendData (s : State) (die id src dst : Nat) (bs : List Byte) : State :=
  let (ids, t) := putPackets (pkgOfDie die) src dst ((bs.length + 511) / 512) s
  modCopy t die id (fun k => { k with output := bs, bytesIn := [], staged := true, packets := ids })

/-- HPOUR_STAGED: a copy-in's tag has been verified and its plaintext goes over the ring to be written, or the copy ends with TAGFAIL;
a copy-out reads on until it has all of its source, which goes to the port die encrypted and followed by its tag (R327, R392). -/
def execHpourStaged (d : DieId) (id : Nat) (s : State) : Out :=
  let die := dieIx d
  match copy? s die id with
  | none => .next s
  | some k =>
    if !k.host ∨ k.code.isSome ∨ !k.begun ∨ k.staged then .next s
    else
      let key := keyBytes (keyOf s die k.keyIx).key
      if k.hostDir then
        if k.readAt < k.inLen then .next (ladleTake s die k)
        else
          let ct := gcmCrypt key k.iv k.bytesIn
          .next (sendData s die id (dieStation (die % 8)) 0 (ct ++ gcmTag key k.iv k.aad ct))
      else
        let ct := k.bytesIn.take k.inLen
        if gcmTag key k.iv k.aad ct = k.bytesIn.drop k.inLen then
          .next (sendData s die id 0 (dieStation (die % 8)) (gcmCrypt key k.iv ct))
        else .next (failCopy s die id .tagfail)

/-! The words (R298, R304). -/

/-- Copies queued or in flight for a cell, those of strands that have left it among them; at most 64 (R258). -/
def copiesOf (s : State) (ix : Nat) : Nat := ((s.die (dieOfCell ix)).copies.filter (fun k => k.home == ix)).length

/-- A tag whose copy is queued or in flight (R367). -/
def tagPending (s : State) (ix tag : Nat) : Bool :=
  (s.die (dieOfCell ix)).copies.any (fun k => k.cell == ix && !k.orphan && k.tag == tag)

/-- Queue a copy on a tag of the cell in focus: bit and status are cleared (R298). -/
def queueCopy (s : State) (host : Bool) (tag : Nat) (bs : List Byte) (src dst : Cap) : State :=
  let (id, s1) := s.fresh
  let k : Copy := {
    id := id, cell := s1.me, home := s1.me, tag := tag, host := host, running := false
    words := (List.range 8).map (fun i => wordAt bs (8 * i)), src := src, dst := dst, bytesIn := [], output := [], readAt := 0
    doneBytes := 0, code := none, wtime := 0, orphan := false, crc := 0xFFFFFFFF, begun := false, staged := false, missed := none, packets := [] }
  (s1.modDie s1.myDie (fun d => { d with copies := d.copies ++ [k] })).upd (fun c => { c with tags := dropKey c.tags tag })

/-- `pour` (R298). -/
def execPour (p : BitVec 4) (t : BitVec 6) (s : BitVec 5) (st : State) : Out :=
  aWord { pg := p, aregs := [s.toNat], access := true } (fun st =>
    let w := st.cur.readA s.toNat
    if w.toNat % 64 ≠ 0 then .trap .align w
    else withRead st w 4 (fun bs st =>
      let ctl := wordAt bs 0x18
      let sk := wf64 ctl 11 8
      let dk := wf64 ctl 15 12
      let sp := ctl.getLsbD 3
      let dp := ctl.getLsbD 4
      let c := st.cur
      if tagPending st st.me t.toNat then .trap .illegal c.A.pc
      else if (sp && c.pendK.contains sk) || (dp && c.pendK.contains dk) then .stay .external st
      else if (sp && c.readK sk == 0) || (dp && c.readK dk == 0) then .trap .capfail 0
      else if 64 ≤ copiesOf st st.me then .stay .external st
      else release st (min 5 (wf64 ctl 2 0)) (fun u =>
        .done (queueCopy u false t.toNat bs (if sp then u.cur.readK sk else 0) (if dp then u.cur.readK dk else 0))))) st

/-- `hpour` (R304, R393). -/
def execHpour (p : BitVec 4) (t : BitVec 6) (s : BitVec 5) (st : State) : Out :=
  aWord { pg := p, cm := true, aregs := [s.toNat], access := true } (fun st =>
    let w := st.cur.readA s.toNat
    if w.toNat % 64 ≠ 0 then .trap .align w
    else withRead st w 4 (fun bs st =>
      if tagPending st st.me t.toNat then .trap .illegal st.cur.A.pc
      else if 64 ≤ copiesOf st st.me then .stay .external st
      else release st 5 (fun u => .done (queueCopy u true t.toNat bs 0 0)))) st

/-! Tag words (R368, R369). -/

/-- Lowest ready tag of a mask. -/
def lowestReady (c : Cell) (m : Word) : Option Nat :=
  lowest 64 (fun n => m.getLsbD n && (match find? c.tags n with | some t => t.ready | none => false))

/-- A tag of the mask is pending. -/
def anyPending (s : State) (m : Word) : Bool := (List.range 64).any (fun n => m.getLsbD n && tagPending s s.me n)

/-- The acquire of a completed copy (R315): at domain or system scope pts reaches the copy's time. -/
def acquireTag (s : State) (n : Nat) : State :=
  match find? s.cur.tags n with
  | some t => if t.ready && decide (4 ≤ t.scope) then liftPts s s.myPkg t.time else s
  | none => s

def acquireTags (s : State) : List Nat → State
  | [] => s
  | n :: ns => acquireTags (acquireTag s n) ns

def execCtwany (p : BitVec 4) (s d : BitVec 5) (st : State) : Out :=
  aWord { pg := p, aregs := [s.toNat, d.toNat], access := true } (fun st =>
    let m := st.cur.readA s.toNat
    match lowestReady st.cur m with
    | some n => .done (putA (acquireTag st n) d.toNat (BitVec.ofNat 64 n))
    | none => if anyPending st m then .stay .idle st else .done (putA st d.toNat 64)) st

def execCtwall (p : BitVec 4) (s : BitVec 5) (st : State) : Out :=
  aWord { pg := p, aregs := [s.toNat], access := true } (fun st =>
    let m := st.cur.readA s.toNat
    if anyPending st m then .stay .idle st
    else .done (acquireTags st ((List.range 64).filter (fun n => m.getLsbD n)))) st

def execCtffr (p : BitVec 4) (s d : BitVec 5) (st : State) : Out :=
  aWord { pg := p, aregs := [s.toNat, d.toNat], access := true } (fun st =>
    match lowestReady st.cur (st.cur.readA s.toNat) with
    | some n => .done (putA (acquireTag st n) d.toNat (BitVec.ofNat 64 n))
    | none => .done (putA st d.toNat 64)) st

/-- Status of a tag: final, or of the copy under way (R302, R369). -/
def tagStatus (s : State) (n : Nat) : Word :=
  match (s.die s.myDie).copies.find? (fun k => k.cell == s.me && !k.orphan && k.tag == n) with
  | some k => k.status false
  | none => match find? s.cur.tags n with | some t => t.status | none => 0

def execCtstat (p : BitVec 4) (s d : BitVec 5) (st : State) : Out :=
  aWord { pg := p, aregs := [s.toNat, d.toNat], access := true } (fun st =>
    let n := (st.cur.readA s.toNat).toNat
    if 64 ≤ n then .trap .illegal st.cur.A.pc
    else .done (putA (acquireTag st n) d.toNat (tagStatus st n))) st

def execCtclr (p : BitVec 4) (s : BitVec 5) (st : State) : Out :=
  aWord { pg := p, aregs := [s.toNat], access := true } (fun st =>
    let m := st.cur.readA s.toNat
    .done (st.upd (fun c => { c with tags := c.tags.filter (fun e => !(m.getLsbD e.1 && e.2.ready && decide (e.2.since < st.cycle))) }))) st

end Sys2Proof.Machine
end

