-- ==== Sys2Proof/Machine/Heat.lean ====
section
/-! DEFINITION. Vault allocation (R264 to R266), translation upkeep (R276), the quench sweep (R272, R273). -/
namespace Sys2Proof.Machine
open Sys2Proof

/-- Refusal status of `valloc` and `tlaunch` (R265, R240). -/
def refuse (c : Nat) : Word := BitVec.ofNat 64 (2 ^ 63 + c)

/-! `valloc` and `vfree`. Bases and sizes of regions are in KiB. -/

/-- Regions of a vault with their table keys. -/
def vaultRegions (d : Die) (v : Nat) : List (Nat × Region) := d.regions.filter (fun e => e.1 / 64 == v)

/-- No region of the vault overlaps n KiB at a base. -/
def extentFree (rs : List (Nat × Region)) (base n : Nat) : Bool :=
  rs.all (fun e => !overlapAt e.2.base e.2.size base n)

/-- The lowest free extent of n KiB (R265): it starts at 0 or where a region ends. -/
def lowestExtent (rs : List (Nat × Region)) (n : Nat) : Option Nat :=
  let starts := 0 :: rs.map (fun e => e.2.base + e.2.size)
  let fits := starts.filter (fun b => decide (b + n ≤ 4096) && extentFree rs b n)
  fits.foldl (fun best b => match best with | none => some b | some x => some (min x b)) none

/-- Attribute fields of R264 Table 5. -/
def attrBad (size at_ : Word) : Bool :=
  let stow := at_.getLsbD 15
  wf64 at_ 63 16 != 0 || decide (144 ≤ wf64 at_ 7 0) || size == 0 || size.toNat % 1024 != 0 || decide (4194304 < size.toNat)
    || (stow && (wf64 at_ 14 12 != 0 || size.toNat != 393216))

/-- The result of `valloc` and the die after it (R265). -/
def vallocDie (d : Die) (die : Nat) (size at_ : Word) : Word × Die :=
  let v := wf64 at_ 7 0
  let n := size.toNat / 1024
  let rs := vaultRegions d v
  if attrBad size at_ then (refuse 1, d)
  else
    match lowestExtent rs n with
    | none => (refuse 2, d)
    | some base =>
      match lowest 64 (fun i => !rs.any (fun e => e.1 % 64 == i)) with
      | none => (refuse 3, d)
      | some slot =>
        match drawHeat d with
        | none => (refuse 4, d)
        | some (h, d1) =>
          let r : Region := ⟨base, n, h, at_.getLsbD 11, wf64 at_ 10 8, at_.getLsbD 12, at_.getLsbD 13, at_.getLsbD 14,
            at_.getLsbD 15, false, 0⟩
          (vaultAddr die v (base * 1024), { d1 with regions := insertAt d1.regions (64 * v + slot) r })

def execValloc (p : BitVec 4) (t s d : BitVec 5) (st : State) : Out :=
  aWord { pg := p, cm := true, aregs := [t.toNat, s.toNat, d.toNat] } (fun st =>
    let a := st.cur.readA t.toNat
    if wf64 a 10 8 = 7 then .trap .illegal st.cur.A.pc
    else
      let (r, di) := vallocDie (st.die st.myDie) st.myDie (st.cur.readA s.toNat) a
      .done (putA (st.setDie st.myDie di) d.toNat r)) st

/-- An operation of any strand, in its cell or stowed, that the vault has accepted inside a region and not performed. -/
def acceptedIn (s : State) (die key : Nat) (r : Region) : Bool :=
  let lo := (vaultAddr die (key / 64) (r.base * 1024)).toNat
  anyOp s (fun _ o => !o.performed &&
    (match o.site with
     | some p => p.heat.isSome && decide (lo ≤ p.phys) && decide (p.phys < lo + r.size * 1024)
     | none => false))

/-- A slot that holds a stowed strand, or is reserved for one that has been asked to halt and is to find it (R205, R266: the second is the
model's reading; DESIGN CHOICE, notes/assumptions/68.md). -/
def slotTaken (d : Die) (key : Nat) (r : Region) : Bool := r.stow && (r.sheld || d.reserved.any (fun x => x.2 == key))

/-- `vfree` (R266). -/
def execVfree (p : BitVec 4) (s : BitVec 5) (st : State) : Out :=
  aWord { pg := p, cm := true, aregs := [s.toNat] } (fun st =>
    let w := st.cur.readA s.toNat
    match regionBased st w with
    | none => .trap .perm w
    | some (key, r) =>
      if !isLocal st.me w || slotTaken (st.die st.myDie) key r then .trap .perm w
      else if acceptedIn st st.myDie key r then .stay .external st
      else .done (st.modDie st.myDie (fun d => retireHeat { d with regions := dropKey d.regions key } r.heat))) st

/-! `tlbinv` and `pgprobe` (R276, R225). -/

/-- A page register that covers an offset, or any, becomes invalid. -/
def invalPage (all : Bool) (off : Nat) (w : BitVec 32) (va : Word) : BitVec 32 :=
  match pageEntry w va with
  | some e => if all || e.covers off then 0 else w
  | none => w

def invalStream (all : Bool) (off : Nat) (x : Stream) : Stream :=
  { x with curpg := invalPage all off x.curpg x.curva, nextpg := invalPage all off x.nextpg x.nextva }

/-- The stream that a held access may give back loses its translations too. -/
def invalHeld (all : Bool) (off : Nat) (h : Held) : Held :=
  { h with stream := h.stream.map (fun x => (x.1, invalStream all off x.2)) }

/-- The translations of a cell that cover an offset, or all, become invalid. -/
def invalCell (all : Bool) (off : Nat) (c : Cell) : Cell :=
  { c with tlb := c.tlb.filter (fun e => !(all || e.covers off))
           sregs := mapVals (fun t => { t with val := invalStream all off t.val }) c.sregs
           fault := c.fault.map (invalHeld all off)
           stuck := c.stuck.map (fun k => { k with held := k.held.map (invalHeld all off) })
           saved := c.saved.map (fun x => { x with fault := x.fault.map (invalHeld all off) }) }

/-- Invalidate translations in every cell of a die and in its stow images (R276). -/
def invalDie (s : State) (die : Nat) (all : Bool) (off : Nat) : State :=
  let s1 : State := { s with cells := s.cells.map (fun (e : Nat × Cell) => if e.1 / 144 = die then (e.1, invalCell all off e.2) else e) }
  modStowed s1 die (fun _ => true) (fun x => { x with ctx := invalCell all off x.ctx })

def execTlbinv (p : BitVec 4) (s : BitVec 5) (st : State) : Out :=
  aWord { pg := p, cm := true, aregs := [s.toNat] } (fun st =>
    let w := st.cur.readA s.toNat
    let m := w.toNat % 4
    if 2 ≤ m then .trap .illegal st.cur.A.pc
    else if !isLocal st.me w || w.getLsbD 63 then .trap .perm w
    else .done (if m = 0 && aVault w then st else invalDie st st.myDie (m == 1) (aOff w / 4 * 4))) st

def execPgprobe (p : BitVec 4) (s d : BitVec 5) (st : State) : Out :=
  aWord { pg := p, cm := true, aregs := [s.toNat, d.toNat] } (fun st =>
    let w := st.cur.readA s.toNat
    let v := if w.getLsbD 63 || aVault w || !isLocal st.me w then 0
      else match walk st st.myDie (aOff w) with | some l => l.raw | none => 0
    .done (putA st d.toNat v)) st

/-! The sweep (R272). -/

/-- Granules of one vault, and the cycles of a pass. -/
def passLen : Nat := 131072

/-- A granule whose tag is retired turns cold. -/
def sweepGranule (d : Die) (heats : SMap Heat) (g : Nat) : SMap Heat :=
  match find? heats g with
  | some h => if (find? d.retired h.toNat).isSome then dropKey heats g else heats
  | none => heats

/-- QUENCH_SWEEP: the sweep takes one granule of every vault, and in cycle n of a pass, for n below 144, the units of cell n if it is
idle; the rule leaves open when in a pass it reaches a cell (DESIGN CHOICE, notes/assumptions/14.md). -/
def execQuenchSweep (d : DieId) (s : State) : Out :=
  let die := dieIx d
  let di := s.die die
  if passLen ≤ di.sweepPos then .next s
  else
    let pos := di.sweepPos
    let heats := if di.retired.isEmpty then s.heats
      else (List.range 144).foldl (fun m v => sweepGranule di m ((vaultAddr die v (32 * pos)).toNat / 32)) s.heats
    let s1 : State := { s with heats := heats }
    let s2 := s1.setDie die { di with sweepPos := pos + 1 }
    let ix := die * 144 + pos
    if pos < 144 ∧ (s.cell ix).status = .idle ∧ (find? s.cells ix).isSome then .next (s2.modCell ix (quenchCell di)) else .next s2

/-- QUENCH_PASS_END: a heat retired in an earlier pass that no cell's residue holds is reissuable; the next pass begins. -/
def execQuenchPassEnd (d : DieId) (s : State) : Out :=
  let die := dieIx d
  let di := s.die die
  if di.sweepPos < passLen then .next s
  else
    let held (h : Nat) := s.cells.any (fun e => e.1 / 144 == die && e.2.residue.any (fun x => x.toNat == h))
    .next (s.setDie die { di with
      sweepPos := di.sweepPos - passLen, sweepPass := di.sweepPass + 1
      retired := di.retired.filter (fun e => !(decide (e.2 + 1 ≤ di.sweepPass) && !held e.1)) })

/-- UNIT_WAKE: a gated unit kept its data and tags and is read as it stands (R273). -/
def execUnitWake (_d : DieId) (_unit : Nat) (s : State) : Out := .next s

end Sys2Proof.Machine
end

