-- ==== Sys2Proof/Machine/Sync.lean ====
section
/-! DEFINITION. Named barriers (R184, R370 to R374) and the ring words (R375 to R379). -/
namespace Sys2Proof.Machine
open Sys2Proof

/-! Barrier records (R370, R371, R374). -/

/-- The number by which a strand counts as a participant. -/
def partOf (c : Cell) : Nat := c.dpoint * 256 + c.cpoint

/-- Strands of a task that have not completed, on one die share or on all (R370). -/
def shareLeft (s : State) (h : Word) (dpoint : Nat) : Nat :=
  match taskOf s h with
  | some t => lookup 0 t.left dpoint
  | none => 0

def taskLeft (s : State) (h : Word) : Nat :=
  match taskOf s h with
  | some t => t.left.foldl (fun n e => n + e.2) 0
  | none => 0

/-- Die whose Cleat holds a barrier of a cell: its own for a share barrier and for a command cell, the launching one else. -/
def barDie (ix : Nat) (c : Cell) (n : Nat) : Nat := if isCmd ix ∨ n < 64 then dieOfCell ix else handleDie c.handle

/-- Key of the record; a command cell's barriers stand beside every task's. -/
def barKey (ix : Nat) (c : Cell) (n : Nat) : Nat := (if isCmd ix then 2 ^ 64 else c.handle.toNat) * 128 + n

/-- Participants when the record is made. -/
def barExpected (s : State) (ix : Nat) (c : Cell) (n : Nat) : Nat :=
  if isCmd ix then 1 else if n < 64 then shareLeft s c.handle c.dpoint else taskLeft s c.handle

/-- The record of barrier n of a strand; its first arrival or wait makes it. -/
def barrierOf (s : State) (ix : Nat) (c : Cell) (n : Nat) : Barrier :=
  lookup ⟨0, barExpected s ix c n, [], []⟩ (s.die (barDie ix c n)).barriers (barKey ix c n)

def putBarrier (s : State) (ix : Nat) (c : Cell) (n : Nat) (b : Barrier) : State :=
  s.modDie (barDie ix c n) (fun d => { d with barriers := insertAt d.barriers (barKey ix c n) b })

/-- The phase completes when every participant's arrival is counted; those that withdrew after arriving leave with it. -/
def Barrier.close (b : Barrier) : Barrier :=
  if b.expected ≠ 0 ∧ b.counted.length = b.expected then
    ⟨(b.phase + 1) % 2 ^ 32, b.expected - b.withdrawn.length, [], []⟩
  else b

/-- One arrival is counted (R371). -/
def Barrier.arrive (b : Barrier) (p : Nat) : Barrier := { b with counted := p :: b.counted }.close

/-- A participant withdraws (R374): from the next phase on if its arrival is counted, otherwise at once. -/
def Barrier.withdraw (b : Barrier) (p : Nat) : Barrier :=
  if b.counted.contains p then { b with withdrawn := p :: b.withdrawn }
  else { b with expected := b.expected - 1 }.close

/-- The cells and stow images of the strands a barrier binds get their event latch set (R193). -/
def wakeBarrier (s : State) (h : Word) (die : Option Nat) : State :=
  let mine (d : Nat) (c : Cell) := c.handle == h && (match die with | some x => d == x | none => d / 8 == hPkg h)
  let s1 : State := { s with cells := s.cells.map (fun (e : Nat × Cell) =>
    if mine (e.1 / 144) e.2 && e.2.status != .idle && !isCmd e.1 then (e.1, { e.2 with latch := true }) else e) }
  (List.range 8).foldl (fun t k =>
    let d := hPkg h * 8 + k
    modStowed t d (fun x => mine d x.ctx) (fun x => { x with ctx := { x.ctx with latch := true } })) s1

/-- Store a record; a phase that has completed wakes its participants. -/
def settleBarrier (s : State) (ix : Nat) (c : Cell) (n : Nat) (old new : Barrier) : State :=
  let t := putBarrier s ix c n new
  if new.phase = old.phase then t
  else if isCmd ix then setLatch t ix
  else wakeBarrier t c.handle (if n < 64 then some (dieOfCell ix) else none)

/-- A completed strand withdraws from one record; a record without participants is freed. -/
def withdrawFrom (s : State) (ix : Nat) (c : Cell) (die : Nat) (key : Nat) : State :=
  match find? (s.die die).barriers key with
  | none => s
  | some b =>
    let new := b.withdraw (partOf c)
    if new.expected = 0 then s.modDie die (fun d => { d with barriers := dropKey d.barriers key })
    else settleBarrier s ix c (key % 128) b new

def withdrawAll (s : State) (ix : Nat) (c : Cell) (die : Nat) : List Nat → State
  | [] => s
  | k :: ks => withdrawAll (withdrawFrom s ix c die k) ix c die ks

/-- A strand that completes withdraws from every barrier of its share and task (R374). -/
def withdrawStrand (s : State) (ix : Nat) : State :=
  let c := s.cell ix
  let keys (d : Nat) (task : Bool) := ((s.die d).barriers.filter (fun e =>
    e.1 / 128 == c.handle.toNat && (decide (64 ≤ e.1 % 128) == task))).map (·.1)
  let s1 := withdrawAll s ix c (dieOfCell ix) (keys (dieOfCell ix) false)
  withdrawAll s1 ix c (handleDie c.handle) (keys (handleDie c.handle) true)

/-! The bar words (R184, R372). -/

/-- Scope of a barrier's release and acquire. -/
def barScope (n : Nat) : Nat := if n < 64 then 2 else 3

def passes (c : Cell) (e : Engine) (n : Nat) : Nat := lookup 0 (c.engine e).arrives n

/-- Times that all three engines have passed the arrival of barrier n. -/
def allPassed (c : Cell) (n : Nat) : Nat := min (passes c .A n) (min (passes c .V n) (passes c .M n))

/-- The strand's previous arrival is on its way to the record, or counted in a phase that has not completed. -/
def arrivalOpen (s : State) (n : Nat) : Bool :=
  let c := s.cur
  decide (lookup 0 c.arrived n < allPassed c n) || (barrierOf s s.me s.cur n).counted.contains (partOf c)

/-- An engine passes the arrival of barrier n; A's passing numbers it, after the accesses that the arrival releases, and keeps the
ENGCTL.sevtrap that governs it (R86). -/
def passArrival (s : State) (e : Engine) (n reg : Nat) (sync : Bool) : State :=
  let pass (c : Cell) : Cell := c.modEngine e (fun g => { g with arrives := insertAt g.arrives n (lookup 0 g.arrives n + 1) })
  if e = .A then
    { s with nextId := s.nextId + 1 }.upd (fun c =>
      let c1 := pass c
      { (if sync then c1 else c1.pend reg) with tokenRegs := c1.tokenRegs ++ [(⟨n, reg, s.nextId, sync, c.engctl.getLsbD 1⟩ : TokenReg)] })
  else s.upd pass

/-- Engine A must wait for an earlier write of the register that the word reads or writes (R91). -/
def regPending (s : State) (e : Engine) (a : BitVec 5) : Bool := e == .A && a != 0 && s.cur.pendA.contains a.toNat

def execBarArrive (a : BitVec 5) (n : BitVec 7) (s : State) : Out :=
  commonWord [] (fun e s =>
    if regPending s e a || arrivalOpen s n.toNat then .stay .external
    else .pass (passArrival s e n.toNat a.toNat false)) s

/-- Evaluate a wait (R372): the distance, or the phase it waits for. -/
def startWait (s : State) (n t : Nat) (sync : Bool) : State :=
  let b := barrierOf s s.me s.cur n
  let d := (b.phase + 256 - t % 256) % 256
  let w : BarWait := if d = 0 then ⟨n, some b.phase, sync, none⟩ else ⟨n, none, sync, some d⟩
  (putBarrier s s.me s.cur n b).upd (fun c => { c with barWait := some w, pendP15 := true })

/-- The distance a wait returns, once its condition is met. -/
def waitDone (s : State) (w : BarWait) : Option Nat :=
  match w.done with
  | some d => some d
  | none =>
    match w.token with
    | some t => if (barrierOf s s.me s.cur w.name).phase = t then none else some 1
    | none => none

/-- Each engine passes a wait that is met on its own; A passes last and writes the results: until V and M have passed, it is in a write
wait of R27 for p15, which is internal (R28, R184). -/
def passWait (s : State) (e : Engine) (a : BitVec 5) (d : Nat) : CRes :=
  let c := s.cur
  match e with
  | .A =>
    if !c.mayWrite .A 15 then .stay .internal
    else .pass ((s.upd (fun c => { ((c.writeA a.toNat (BitVec.ofNat 64 d)).writeP 15 (decide (2 ≤ d))) with
      barWait := none, pendP15 := false, A := { c.A with inBar := none } })).upd (fun c => (c.bump .A 15).publish .A 15))
  | e =>
    if c.expects e 15 ≠ c.expects .A 15 then .stay .external
    else .pass (s.upd (fun c => (c.modEngine e (fun g => { g with inBar := none })).bump e 15))

/-- An engine other than A stands at the wait that A has evaluated, not at a later one. -/
def atWait (s : State) (e : Engine) : Bool := s.cur.expects e 15 == s.cur.expects .A 15

def execBarWait (a : BitVec 5) (n : BitVec 7) (s : State) : Out :=
  commonWord [] (fun e s =>
    match s.cur.barWait with
    | some w =>
      if !atWait s e then .stay .external
      else
        match waitDone s w with
        | some d => passWait s e a d
        | none => .stay .external
    | none =>
      if e ≠ .A ∨ regPending s e a ∨ !s.cur.mayRead .A 15 then .stay .external
      else .keep .external (startWait s n.toNat (s.cur.readA a.toNat).toNat false)) s

/-- The arrival of `bar.sync` n is on its way to the record. -/
def syncPending (c : Cell) (n : Nat) : Bool := c.tokenRegs.any (fun t => t.sync && t.name == n)

/-- `bar.sync`: the arrival part once for each engine, then the wait with the arrival's token. A wait whose record was taken
over by a handler of a command cell is met: that cell is the barrier's only participant (R370). -/
def execBarSync (a : BitVec 5) (n : BitVec 7) (s : State) : Out :=
  commonWord [] (fun e s =>
    let c := s.cur
    if (c.engine e).inBar ≠ some n.toNat then
      if regPending s e a || arrivalOpen s n.toNat then .stay .external
      else .keep .external ((passArrival s e n.toNat a.toNat true).upd (fun c => c.modEngine e (fun g => { g with inBar := some n.toNat })))
    else if !atWait s e then .stay .external
    else
      match c.barWait with
      | some w => if w.sync && (waitDone s w).isSome then passWait s e a 1 else .stay .external
      | none => if c.A.inBar = some n.toNat ∧ !syncPending c n.toNat then passWait s e a 1 else .stay .external) s

/-- The token of a counted arrival reaches its register, or the wait part of its `bar.sync` begins (R372). -/
def Cell.takeToken (c : Cell) (t : TokenReg) (phase : Nat) : Cell :=
  let c1 := { c with tokenRegs := c.tokenRegs.erase t, arrived := insertAt c.arrived t.name (lookup 0 c.arrived t.name + 1) }
  if t.sync then { c1 with barWait := some ⟨t.name, some phase, true, none⟩, pendP15 := true }
  else (c1.writeA t.reg (BitVec.ofNat 64 (phase % 256))).unpend t.reg

/-- An arrival may be counted: every engine has passed it, and the record counts none of the strand's yet. -/
def arrivalReady (s : State) (ix : Nat) (c : Cell) (t : TokenReg) : Bool :=
  decide (lookup 0 c.arrived t.name < allPassed c t.name) && !(barrierOf s ix c t.name).counted.contains (partOf c) && c.status != .idle

/-- The record counts a strand's arrival. -/
def countArrival (s : State) (ix : Nat) (c : Cell) (n : Nat) : State :=
  let b := barrierOf s ix c n
  settleBarrier s ix c n b (b.arrive (partOf c))

/-- BARRIER_ARRIVAL: a cell's arrival, which the last engine has passed, is released and counted at its record (R371, R372). -/
def execBarrierArrival (cid : CellId) (bar : BitVec 7) (s : State) : Out :=
  let ix := cellIx cid
  let c := s.cell ix
  match c.tokenRegs.find? (fun t => t.name == bar.toNat) with
  | none => .next s
  | some t =>
    let b := barrierOf s ix c t.name
    if !arrivalReady s ix c t then .next s
    else
      match releaseUnder t.sev s ix (barScope t.name) (fun o => decide (o.id < t.mark)) with
      | .wait => .next s
      | .severed u p => .next (takeFault u ix 0 .severed p)
      | .done u => .next (countArrival (u.modCell ix (fun c => c.takeToken t b.phase)) ix c t.name)

/-- The arrival of a strand that has been stowed goes on, and its token goes into the image (R202, R207); a discarded write that traps
is reported at the strand's next boundary. -/
def stowedArrival (s : State) (die mark : Nat) : State :=
  match (s.die die).stowed.find? (fun x => x.ctx.tokenRegs.any (·.mark == mark)) with
  | none => s
  | some x =>
    match x.ctx.tokenRegs.find? (·.mark == mark) with
    | none => s
    | some t =>
      let c := x.ctx
      let b := barrierOf s x.cell c t.name
      let put (s : State) (f : Cell → Cell) : State := modStowed s die (fun y => y.slot == x.slot) (fun y => { y with ctx := f y.ctx })
      if !arrivalReady s x.cell c t then s
      else
        match releaseLook s x.cell (barScope t.name) c (fun o => decide (o.id < t.mark)) with
        | none => s
        | some [] => countArrival (put s (fun c => c.takeToken t b.phase)) x.cell c t.name
        | some (o :: os) =>
          let u := dropDead (put s (fun c => c.discardAll s.cycle (o :: os))) (o :: os)
          if t.sev then put u (fun c => { c with
            tokenRegs := c.tokenRegs.erase t, reports := c.reports ++ [(⟨.severed, deadPackage s o⟩ : Report)] })
          else countArrival (put u (fun c => c.takeToken t b.phase)) x.cell c t.name

/-! Rings (R376 to R379). -/

/-- What the Cleat finds for a descriptor. -/
inductive RingLook where
  | refused
  | full
  | ok (r : Ring) (s : State)

/-- Read the descriptor, with the checks of R376; a read that its memory refuses is denied too. -/
def loadRing (s : State) (w : Word) : Option (Ring × State) :=
  match ladleSite s s.myDie w .rd, ladleSite s s.myDie w .wr with
  | .ok p, .ok _ =>
    let q := { p with phys := p.phys + 32 }
    match readSite s w p 32, readSite s (w + 32) q 32 with
    | .ok a, .ok b => (ringOf (a ++ b)).map (fun r => (r, noteEcc (noteEcc s w p) (w + 32) q))
    | _, _ => none
  | _, _ => none

/-- Evict a record: its counters go back to the descriptor, its slots stay claimed (R193, R376). -/
def evictRing (s : State) (die key : Nat) : State :=
  match find? (s.die die).rings key with
  | none => s
  | some r =>
    let w : Word := BitVec.ofNat 64 key
    let s1 := s.modDie die (fun d => { d with
      rings := dropKey d.rings key, ringClaims := if r.claims.isEmpty then d.ringClaims else insertAt d.ringClaims key r.claims })
    match ladleSite s1 die (w + 16) .wr with
    | .error _ => s1
    | .ok p =>
      match writeSite s1 p r.counterBytes with
      | .ok t => t
      | .error _ => s1

/-- The Cleat takes up a record that it has loaded, with the claims on its slots. -/
def takeRing (s : State) (die key : Nat) (r : Ring) : RingLook :=
  let q := { r with used := s.cycle, claims := lookup [] (s.die die).ringClaims key }
  .ok q (s.modDie die (fun d => { d with rings := insertAt d.rings key q, ringClaims := dropKey d.ringClaims key }))

/-- The record of a descriptor, loaded on its first use (R376); a die of another world, or one under reassignment, serves nobody (R261,
R386). -/
def ringAt (s : State) (w : Word) : RingLook :=
  let h := homeDie w
  if h / 8 ≠ s.myPkg ∨ (h ≠ s.myDie ∧ (homeGate s (s.die s.myDie).world w).isSome) then .refused
  else
    match find? (s.die h).rings w.toNat with
    | some r => .ok { r with used := s.cycle } s
    | none =>
      match loadRing s w with
      | none => .refused
      | some (r, t) =>
        if (t.die h).rings.length < ringCapacity then takeRing t h w.toNat r
        else
          match lruRing (t.die h).rings with
          | some k => takeRing (evictRing t h k) h w.toNat r
          | none => .full

/-- A refusal at the Cleat: a deferred PERM with the descriptor's address (R379). -/
def refuseRing (s : State) (w : Word) : Res := .done (s.upd (fun c => { c with reports := c.reports ++ [(⟨.perm, w⟩ : Report)] }))

/-- THE ISSUE OF A RING WORD: the checks of R379, then its effect on the record. -/
def ringWord (p : BitVec 4) (aregs : List Nat) (rs1 : BitVec 5) (body : Word → Ring → State → Res) (s : State) : Out :=
  aWord { pg := p, aregs := rs1.toNat :: aregs, access := true } (fun s =>
    let w := s.cur.readA rs1.toNat
    if w.toNat % 64 ≠ 0 ∨ !addrOk w then .trap .align w
    else
      match ringAt s w with
      | .refused => refuseRing s w
      | .full => .stay .external s
      | .ok r t => body w r t) s

/-- Slots asked for lie in 1 to N. -/
def countOk (r : Ring) (n : Word) : Bool := decide (1 ≤ n.toNat) && decide (n.toNat ≤ r.slots)

/-- Part of a die under which ring records keep times (R319). -/
def ringPart : Nat := 145
def ringTime (s : State) (w : Word) : Nat := lookup 0 (s.die (homeDie w)).hmax ringPart
def raiseRing (s : State) (w : Word) : State :=
  s.modDie (homeDie w) (fun d => { d with hmax := insertAt d.hmax ringPart (max (s.pkg s.myPkg).pts (lookup 0 d.hmax ringPart)) })

/-- The acquire at a ring's scope (R315, R319). -/
def acquireRing (s : State) (w : Word) (r : Ring) : State := if 4 ≤ r.scope then liftPts s s.myPkg (ringTime s w) else s

/-- Result of an `rclaim` that claims nothing (R378). -/
def noClaim : Word := BitVec.ofNat 64 (2 ^ 63)

def execRclaim (p : BitVec 4) (t s d : BitVec 5) (st : State) : Out :=
  ringWord p [t.toNat, d.toNat] s (fun w r st =>
    let n := st.cur.readA t.toNat
    if !countOk r n then refuseRing st w
    else if r.producers.isEmpty && decide (n.toNat ≤ r.free) then
      .done (putA (putRing st w (r.claimSlots st.me n.toNat)) d.toNat (zx r.pclaim))
    else .done (putA (putRing st w r) d.toNat noClaim)) st

/-- A word that waits in a FIFO: it joins once, and completes with its grant. -/
def ringWait (prod : Bool) (p : BitVec 4) (t s d : BitVec 5) (st : State) : Out :=
  ringWord p [t.toNat, d.toNat] s (fun w r st =>
    let n := st.cur.readA t.toNat
    match st.cur.granted with
    | some g => .done (putA ((acquireRing (putRing st w r) w r).upd (fun c => { c with granted := none, ringAt := none })) d.toNat g.val)
    | none =>
      if st.cur.ringAt.isSome then .stay .idle st
      else if !countOk r n then refuseRing st w
      else
        let x : RingWaiter := ⟨st.me, d.toNat, n.toNat⟩
        let q := if prod then { r with producers := r.producers ++ [x] } else { r with consumers := r.consumers ++ [x] }
        let u := settleRing (st.upd (fun c => { c with ringAt := some w.toNat })) w q
        match u.cur.granted with
        | some g => .done (putA ((acquireRing u w r).upd (fun c => { c with granted := none, ringAt := none })) d.toNat g.val)
        | none => .stay .idle u) st

def execRwaite (p : BitVec 4) (t s d : BitVec 5) (st : State) : Out := ringWait true p t s d st
def execRwaitf (p : BitVec 4) (t s d : BitVec 5) (st : State) : Out := ringWait false p t s d st

/-- The strands that hold a claim on a ring get their event latch set (R193). -/
def wakeClaims (s : State) : List RingClaim → State
  | [] => s
  | c :: cs =>
    let t := if c.cell < 1000000 then setLatch s c.cell
      else (List.range 8).foldl (fun t k =>
        let d := s.myPkg * 8 + k
        modStowed t d (fun x => claimKey d x.slot == c.cell) (fun x => { x with ctx := { x.ctx with latch := true } })) s
    wakeClaims t cs

/-- Publish or free slots after the release at the ring's scope (R378). -/
def ringGive (prod : Bool) (p : BitVec 4) (t s d : BitVec 5) (st : State) : Out :=
  ringWord p [t.toNat, d.toNat] s (fun w r st =>
    let n := (st.cur.readA t.toNat).toNat
    let first := st.cur.readA d.toNat
    if r.refuses prod first n then refuseRing st w
    else release st r.scope (fun u =>
      let f := first.extractLsb' 0 32
      let q := if prod then r.publish f n else r.release f n
      .done (settleRing (wakeClaims (raiseRing u w) r.claims) w q))) st

def execRpubl (p : BitVec 4) (t s d : BitVec 5) (st : State) : Out := ringGive true p t s d st
def execRfree (p : BitVec 4) (t s d : BitVec 5) (st : State) : Out := ringGive false p t s d st

def execRpeek (p : BitVec 4) (s d : BitVec 5) (st : State) : Out :=
  ringWord p [d.toNat] s (fun w r st =>
    .done (putA (putRing st w r) d.toNat (BitVec.ofNat 64 (r.free * 2 ^ 32 + r.ready)))) st

/-- RING_RECORD_EVICT: the least recently used record that may leave a full sync store leaves it (R376). -/
def execRingRecordEvict (d : DieId) (ix : Nat) (s : State) : Out :=
  let die := dieIx d
  match (s.die die).rings.drop ix with
  | (k, _) :: _ =>
    if ringCapacity ≤ (s.die die).rings.length ∧ lruRing (s.die die).rings = some k then .next (evictRing s die k) else .next s
  | [] => .next s

end Sys2Proof.Machine
end

