-- ==== Sys2Proof/Machine/Launch.lean ====
section
/-! DEFINITION. Launch descriptors and task records: `tlaunch`, `tdep`, `tqry`, `tkill` (R236 to R245), and the schedule words
(R361 to R364). -/
namespace Sys2Proof.Machine
open Sys2Proof

/-! The launch control word (R236 Table 2). -/

def ctlPersist (w : Word) : Bool := w.getLsbD 31
def ctlScope (w : Word) : Nat := wf64 w 30 28
def ctlClass (w : Word) : Nat := wf64 w 27 26
def ctlPmode (w : Word) : Nat := wf64 w 25 24
def ctlPclus (w : Word) : Nat := wf64 w 23 21
def ctlPopnd (w : Word) : Nat := wf64 w 20 18
def ctlPcount (w : Word) : Nat := wf64 w 15 0

/-! The kernel descriptor (R344, R345): the 192 bytes that `tlaunch` reads. -/

def kdEntry (kb : List Byte) : Word := wordAt kb 0
def kdHeader (kb : List Byte) : Word := wordAt kb 8
def kdLoop (kb : List Byte) (n : Nat) : Word := wordAt kb (0x40 + 8 * n)
def kdOperand (kb : List Byte) (j : Nat) : Word := wordAt kb (0x80 + 8 * j)

/-- Kind of an operand slot: 0 undeclared, 1 region, 2 capability (R345 Table 5). -/
def slotKind (e : Word) : Nat := wf64 e 1 0

/-- An operand entry obeys R345 Table 5. -/
def slotOk (e : Word) : Bool :=
  let size := wf64 e 28 16
  wf64 e 63 29 == 0 && wf64 e 15 9 == 0 && slotKind e != 3 &&
    (if slotKind e = 1 then decide (1 ≤ size) && decide (size ≤ 4096) && decide (wf64 e 5 3 ≤ 6) else size == 0)

/-- The descriptor at an address is valid (R345). -/
def kdValid (addr : Word) (kb : List Byte) : Bool :=
  let h := kdHeader kb
  addr.toNat % 64 == 0 && kdEntry kb != 0 && (kdEntry kb).toNat % 4 == 0 && wf64 h 63 28 == 0 && wf64 h 19 0 != 0
    && decide (wf64 h 26 20 ≤ 64) && wf64 (wordAt kb 16) 63 8 == 0 && allZero ((kb.drop 0x18).take 0x28)
    && allZero ((kb.drop 0x70).take 0x10) && (List.range 6).all (fun n => wf64 (kdLoop kb n) 63 18 == 0)
    && (List.range 8).all (fun j => slotOk (kdOperand kb j))

/-- Kind and trip count of the six levels. -/
def kdLevels (kb : List Byte) : List (BitVec 2 × Nat) :=
  (List.range 6).map (fun n => (BitVec.ofNat 2 (wf64 (kdLoop kb n) 17 16), wf64 (kdLoop kb n) 15 0))

/-- Product of the trip counts of the levels of a kind: 2 over cells, 3 over dies (R15). -/
def spatialPoints (levels : List (BitVec 2 × Nat)) (kind : BitVec 2) : Nat :=
  levels.foldl (fun n l => if l.1 = kind then n * l.2 else n) 1

/-! Refusals (R240 Table 5, R346). -/

/-- The region that a launch names satisfies the operand entry (R346). -/
def regionFits (s : State) (e w : Word) : Bool :=
  match regionBased s w with
  | none => false
  | some (_, r) =>
    pkgPresent s s.myPkg (aPkg w) && (s.die (homeDie w)).world == (s.die s.myDie).world
      && decide (wf64 e 28 16 ≤ r.size) && r.span == wf64 e 5 3 && r.mode == e.getLsbD 2
      && (!e.getLsbD 6 || r.rd) && (!e.getLsbD 7 || r.wr) && (!e.getLsbD 8 || r.atom)

/-- Operand j of a launch matches the kernel's declaration (R236, R346). -/
def operandFits (s : State) (desc kb : List Byte) (j : Nat) : Bool :=
  let e := kdOperand kb j
  let x := capAt desc (0x40 + 16 * j)
  if slotKind e = 1 then x.extractLsb' 64 64 == 0 && regionFits s e (x.extractLsb' 0 64)
  else if slotKind e = 2 then x != 0
  else x == 0

/-- A queue-limit table obeys R237. -/
def limitsOk (qb : List Byte) : Bool :=
  let w (n : Nat) : Nat := ofLe ((qb.drop (4 * n)).take 4)
  (List.range 16).all (fun n => fieldOf (w n) 31 30 == 0 && fieldOf (w n) 15 14 == 0
      && decide (1 ≤ fieldOf (w n) 29 16) && decide (fieldOf (w n) 29 16 ≤ 8192) && decide (fieldOf (w n) 13 0 ≤ fieldOf (w n) 29 16))
    && decide (sumQ (fun n => fieldOf (w n) 13 0) ≤ 8192)

/-- Refusal 0x01. -/
def launchMalformed (s : State) (desc kb : List Byte) : Bool :=
  let c := wordAt desc 8
  !allZero ((desc.drop 0x18).take 0x28) || wf64 c 63 32 != 0 || wf64 c 17 16 != 0 || ctlPmode c == 3 || decide (6 ≤ ctlPclus c)
    || (ctlPmode c != 1 && ctlPclus c != 0) || (ctlPmode c != 2 && ctlPopnd c != 0) || !kdValid (wordAt desc 0) kb
    || !(List.range 8).all (operandFits s desc kb) || (ctlPmode c == 2 && slotKind (kdOperand kb (ctlPopnd c)) != 1)

/-- Refusal 0x03. -/
def launchTooWide (levels : List (BitVec 2 × Nat)) : Bool :=
  levels.any (fun l => (l.1 == 2 || l.1 == 3) && l.2 == 0) || decide (143 < spatialPoints levels 2) || decide (8 < spatialPoints levels 3)

/-- The task is persistent (R236 Table 2). -/
def launchPersists (desc kb : List Byte) : Bool := ctlPersist (wordAt desc 8) || (kdHeader kb).getLsbD 27

/-- The lowest free record of a die's task table (R238). -/
def freeRecord (d : Die) : Option Nat :=
  lowest 4096 (fun i => match find? d.tasks i with | some t => t.state == .free | none => true)

/-- The code of the first check that fails, 0x01 to 0x05 (R240 Table 5). -/
def launchCode (s : State) (desc kb qb : List Byte) : Option Nat :=
  let c := wordAt desc 8
  if launchMalformed s desc kb then some 1
  else if 6 ≤ ctlScope c then some 2
  else if launchTooWide (kdLevels kb) then some 3
  else if !qb.isEmpty && !limitsOk qb then some 4
  else if !isCmd s.me && (ctlClass c == 0 || launchPersists desc kb) then some 5
  else none

/-! Shares (R245). -/

/-- Die that a point of a task's shares goes to (R15). -/
def shareDie (h : Word) (dpoint : Nat) : Nat := hPkg h * 8 + (hDie h + dpoint) % 8

/-- A share of a task as a ready-pool entry. -/
def shareEntry (s : State) (h : Word) (t : Task) (dpoint : Nat) : ReadyEntry :=
  ⟨h, ctlClass t.control, s.cycle, s.cycle, dpoint, spatialPoints t.levels 2, []⟩

/-- A share asks its die for a ready-pool entry; a share of the launching die enters the pool when nothing waits before it. -/
def requestShare (s : State) (h : Word) (t : Task) (dpoint : Nat) : State :=
  s.modDie (shareDie h dpoint) (fun d =>
    if dpoint = 0 ∧ d.grants.isEmpty ∧ d.ready.length < 4096 then { d with ready := d.ready ++ [shareEntry s h t dpoint] }
    else { d with grants := d.grants ++ [shareEntry s h t dpoint] })

def requestShares (s : State) (h : Word) (t : Task) : List Nat → State
  | [] => s
  | p :: ps => requestShares (requestShare s h t p) h t ps

/-- A task becomes ready: its launching die's dispatcher expands it into shares (R245). -/
def makeReady (s : State) (h : Word) (t : Task) : State :=
  requestShares (setTask s h { t with state := .ready }) h t (List.range (spatialPoints t.levels 3))

/-- A record of the dispatcher with a fault code (R255, R87: engine 3). -/
def dispatcherRecord (s : State) (die kind : Nat) (code : FaultCode) (value task : Word) (world : BitVec 16) : FaultRecord :=
  { recordTask s die kind value task world with cause := BitVec.ofNat 15 (kind * 4096 + (faultWord 3 (codeNum code) false).toNat) }

/-- A point whose die holds another world is refused, and its task fails with PERM (R15, R36). -/
def refusePoint (s : State) (h : Word) (t : Task) : State :=
  failTask (appendRecord s (handleDie h) (dispatcherRecord s (handleDie h) 4 .perm h h t.world)) h

/-- SHARE_TRANSFER: the die grants an entry to the share whose request is first (R245). -/
def execShareTransfer (d : DieId) (task : Word) (dpoint : Fin 8) (s : State) : Out :=
  let die := dieIx d
  let k := s.die die
  match k.grants with
  | [] => .next s
  | e :: es =>
    if e.handle ≠ task ∨ e.dpoint ≠ dpoint.val ∨ 4096 ≤ k.ready.length then .next s
    else
      let s1 := s.setDie die { k with grants := es }
      match taskOf s1 task with
      | none => .next s1
      | some t =>
        if k.world ≠ t.world then .next (refusePoint s1 task t)
        else .next (s1.setDie die { k with grants := es, ready := k.ready ++ [{ e with since := s.cycle, time := s.cycle }] })

/-! `tlaunch` (R240). -/

/-- Strands of each die point of a task, none of which has completed. -/
def freshLeft (levels : List (BitVec 2 × Nat)) : SMap Nat :=
  (List.range (spatialPoints levels 3)).map (fun p => (p, spatialPoints levels 2))

/-- The record of a launch. -/
def launchTask (desc kb qb : List Byte) (world : BitVec 16) (gen : BitVec 24) : Task :=
  let c := wordAt desc 8
  { Task.reset with
    state := .waiting, gen := gen, persist := launchPersists desc kb, kernel := wordAt desc 0, control := c
    qlim := wordAt desc 0x10, operands := (List.range 8).map (fun j => capAt desc (0x40 + 16 * j)), count := ctlPcount c
    levels := kdLevels kb, kinds := (List.range 8).map (kdOperand kb), header := kdHeader kb, entry := kdEntry kb
    limits := if qb.isEmpty then [] else (List.range 16).map (fun n => BitVec.ofNat 32 (ofLe ((qb.drop (4 * n)).take 4)))
    world := world, left := freshLeft (kdLevels kb) }

/-- Generation of a record's next use (R238). -/
def nextGen (d : Die) (i : Nat) : BitVec 24 :=
  match find? d.tasks i with
  | some t => t.gen + 1
  | none => 0

/-- The result of a launch whose structures have been read, and the state after it. -/
def launch (s : State) (desc kb qb : List Byte) : Word × State :=
  match launchCode s desc kb qb with
  | some c => (refuse c, s)
  | none =>
    let die := s.myDie
    match freeRecord (s.die die) with
    | none => (refuse 6, s)
    | some i =>
      let gen := nextGen (s.die die) i
      let h := mkHandle die i gen
      let t := launchTask desc kb qb (s.die die).world gen
      if t.count = 0 then (h, makeReady s h t) else (h, setTask s h t)

/-- The launch after the descriptor: the kernel descriptor and the queue-limit table are read in the same way. -/
def launchReads (desc : List Byte) (go : List Byte → List Byte → State → Res) (s : State) : Res :=
  let k := wordAt desc 0
  let q := wordAt desc 0x10
  if k.toNat % 16 ≠ 0 then .trap .align k
  else withRead s k 12 (fun kb s =>
    if q = 0 then go kb [] s
    else if q.toNat % 16 ≠ 0 then .trap .align q
    else withRead s q 4 (fun qb s => go kb qb s))

def execTlaunch (p : BitVec 4) (s d : BitVec 5) (st : State) : Out :=
  aWord { pg := p, aregs := [s.toNat, d.toNat], access := true } (fun st =>
    let w := st.cur.readA s.toNat
    if w.toNat % 64 ≠ 0 then .trap .align w
    else release st 3 (fun st => withRead st w 12 (fun desc st => launchReads desc (fun kb qb st =>
      let (r, t) := launch st desc kb qb
      .done (putA t d.toNat r)) st))) st

/-! `tdep`, `tqry`, `tkill` (R241 to R244). -/

/-- The record of a handle; one of another world counts as stale (R239). -/
def taskSeen (s : State) (h : Word) : Option Task :=
  match taskOf s h with
  | some t => if t.world = (s.die s.myDie).world then some t else none
  | none => none

/-- The offending handle of a `tdep`, if there is one (R241). -/
def depFault (s : State) (a b : Word) : Option Word :=
  match taskSeen s a, taskSeen s b with
  | none, _ => some a
  | some _, none => some b
  | some p, some q =>
    if hPkg a ≠ s.myPkg then some a
    else if hPkg b ≠ s.myPkg ∨ a = b ∨ q.state ≠ .waiting ∨ ctlPcount q.control ≤ q.named then some b
    else if 32 ≤ p.succs.length then some a
    else none

/-- One predecessor edge of a waiting task is satisfied; at count 0 the task becomes ready (R241, R242). -/
def satisfyEdge (s : State) (h : Word) : State :=
  match taskOf s h with
  | none => s
  | some t =>
    if t.state ≠ .waiting then s
    else
      let t1 := { t with count := t.count - 1 }
      if t1.count = 0 then makeReady s h t1 else setTask s h t1

/-- Record the edge from task a to task b (R241). -/
def addEdge (s : State) (a b : Word) : State :=
  match taskOf s a, taskOf s b with
  | some p, some q =>
    let s1 := setTask s b { q with named := q.named + 1 }
    (match p.state with
     | .complete => satisfyEdge s1 b
     | .failed | .killed => failAll s1 cascadeFuel [(b, a)]
     | _ => setTask s1 a { p with succs := p.succs ++ [b] })
  | _, _ => s

def execTdep (p : BitVec 4) (t s : BitVec 5) (st : State) : Out :=
  aWord { pg := p, aregs := [s.toNat, t.toNat] } (fun st =>
    let a := st.cur.readA s.toNat
    let b := st.cur.readA t.toNat
    match depFault st a b with
    | some h => .trap .perm h
    | none => .done (addEdge st a b)) st

/-- The state of a task as `tqry` reports it (R243 Table 6). -/
def taskWord (t : Option Task) : Word :=
  match t with
  | none => BitVec.ofNat 64 (6 * 2 ^ 16)
  | some t => BitVec.ofNat 64 (t.dcomp.toNat * 2 ^ 28 + t.ddisp.toNat * 2 ^ 20 + (if t.stowed then 2 ^ 19 else 0)
      + stateCode t.state * 2 ^ 16 + t.count)

def execTqry (p : BitVec 4) (s d : BitVec 5) (st : State) : Out :=
  aWord { pg := p, aregs := [s.toNat, d.toNat], access := true } (fun st =>
    .done (putA st d.toNat (taskWord (taskSeen st (st.cur.readA s.toNat))))) st

def execTkill (p : BitVec 4) (s : BitVec 5) (st : State) : Out :=
  aWord { pg := p, cm := true, aregs := [s.toNat] } (fun st =>
    let h := st.cur.readA s.toNat
    match taskSeen st h with
    | some _ => .done (killTask st h true)
    | none => .done st) st

/-- A completed task of a package that still has an edge to a task. -/
def pendingEdge (s : State) (pkg : Nat) (h : Word) : Option (Nat × Nat × Task) :=
  (List.range 8).findSome? (fun d =>
    let die := pkg * 8 + d
    match (s.die die).tasks.find? (fun e => e.2.state == .complete && e.2.succs.contains h) with
    | some e => some (die, e.1, e.2)
    | none => none)

/-- SUCCESSOR_DECREMENT: a completed predecessor's edge to a task of this die is satisfied (R242). -/
def execSuccessorDecrement (d : DieId) (task : Word) (s : State) : Out :=
  if handleDie task ≠ dieIx d then .next s
  else
    match pendingEdge s d.pkg.val task with
    | none => .next s
    | some (die, i, t) =>
      .next (satisfyEdge (s.modDie die (fun k => { k with tasks := insertAt k.tasks i { t with succs := t.succs.erase task } })) task)

/-- TASK_RECORD_FREE: a record is free 2^20 cc after its task's final state (R238). -/
def execTaskRecordFree (d : DieId) (rec : Fin 4096) (s : State) : Out :=
  let die := dieIx d
  match find? (s.die die).tasks rec.val with
  | none => .next s
  | some t =>
    if t.state.isFinal ∧ t.state ≠ .free ∧ t.succs.isEmpty ∧ t.final + 2 ^ 20 ≤ s.cycle
    then .next (s.modDie die (fun k => { k with tasks := insertAt k.tasks rec.val { t with state := .free } }))
    else .next s

/-! Schedules (R361 to R364). -/

/-- A schedule header of 64 bytes is well formed for a die (R362, R363). -/
def headerOk (die : Nat) (hb : List Byte) : Bool :=
  let l := wordAt hb 0
  let c := wordAt hb 8
  wf64 c 63 15 == 0 && wf64 c 11 9 == 0 && decide (1 ≤ wf64 c 8 0) && decide (wf64 c 8 0 ≤ 256) && allZero (hb.drop 0x18)
    && l.toNat % 256 == 0 && addrOk l && homeDie l == die

/-- The schedule of a header. -/
def scheduleOf (d : Die) (hb : List Byte) : Schedule :=
  let c := wordAt hb 8
  let dist := wf64 c 14 12
  ⟨wordAt hb 0, wf64 c 8 0, if dist = 0 then d.pfdist else dist, (wordAt hb 0x10).toNat, [], []⟩

def putSchedule (s : State) (x : Option Schedule) : State := s.modDie s.myDie (fun d => { d with schedule := x })

def execSchpub (p : BitVec 4) (s : BitVec 5) (st : State) : Out :=
  aWord { pg := p, cm := true, aregs := [s.toNat], access := true } (fun st =>
    let w := st.cur.readA s.toNat
    if w = 0 then .done (putSchedule st none)
    else if w.toNat % 64 ≠ 0 then .trap .align w
    else withRead st w 4 (fun hb st =>
      if headerOk st.myDie hb then .done (putSchedule st (some (scheduleOf (st.die st.myDie) hb))) else .trap .perm w)) st

/-- Steps of a schedule's walk (R364). -/
def Schedule.walk (x : Schedule) : List Nat := (List.range (x.dist + 1)).map (fun k => (x.s + k) % 2 ^ 64)

def execSchadv (p : BitVec 4) (s : BitVec 5) (st : State) : Out :=
  aWord { pg := p, cm := true, aregs := [s.toNat] } (fun st =>
    let w := st.cur.readA s.toNat
    match (st.die st.myDie).schedule with
    | none => .trap .perm w
    | some x =>
      let y := { x with s := w.toNat }
      .done (putSchedule st (some { y with
        entered := x.entered.filter (fun k => y.walk.contains k.2)
        queued := x.queued.filter (fun q => y.walk.contains q.step) }))) st

/-- The fills of one step entry of 256 bytes for a bridge station (R362, R364); a malformed entry names none. -/
def entryJobs (bridge step : Nat) (eb : List Byte) : List FillJob :=
  let r := wf64 (wordAt eb 0) 3 0
  if 8 < r then []
  else (List.range r).filterMap (fun j =>
    let cap := capAt eb (0x40 + 24 * j)
    let x := wordAt eb (0x50 + 24 * j)
    if wf64 x 63 48 ≠ 0 ∨ wf64 x 47 32 = 0 then none
    else some ⟨bridge, step, cap, wf64 x 31 0 * 4096, (wf64 x 31 0 + wf64 x 47 32) * 4096⟩)

/-- Bytes of a hardware read on behalf of a die, 32 at a time, and the state with its corrected errors counted; none where one is
refused. -/
def readRun (die : Nat) (w : Word) : Nat → State → Option (List Byte × State)
  | 0, s => some ([], s)
  | n + 1, s =>
    match ladleRead s die w with
    | .ok (bs, t) => (readRun die (w + 32) n t).map (fun x => (bs ++ x.1, x.2))
    | .error _ => none

/-- A renewal leaves for the home, as that of a `pld` block through the capability would (R364). -/
def sendFill (s : State) (die : Nat) (j : FillJob) : State :=
  let (id, s1) := s.fresh
  let pkg := pkgOfDie die
  let p := s1.pkg pkg
  let n := nodeOf s1 (capOid j.cap).toNat
  let off := if capWlen j.cap = 0 then j.next else capWstart j.cap * 4096 + j.next
  let r : PoolReq := {
    id := id, cell := die * 144, op := .fill, cap := j.cap, off := off, inOff := j.next, world := (s1.die die).world, node := n
    version := 0, pts := p.pts, stage := .atBridge, since := s1.cycle, expiry := 0, order := id, tries := 0, answer := .none
    veto := false, discarded := false }
  leavePort { s1 with reqs := s1.reqs ++ [r] } r .atNode

/-- One fill at a bridge station: a sector that is valid with a lease in force, pending or under renewal is left alone. -/
def fillOne (s : State) (die bridge : Nat) (j : FillJob) : State :=
  let pkg := pkgOfDie die
  let oid := (capOid j.cap).toNat
  let off := if capWlen j.cap = 0 then j.next else capWstart j.cap * 4096 + j.next
  let held := match sector? s pkg oid off with
    | some x => x.pending || decide ((s.pkg pkg).pts ≤ x.rts)
    | none => false
  let flying := s.reqs.any (fun q => q.op.isFill && pkgOfCell q.cell == pkg && q.oid == oid && (askedSectors q).contains (off / 32)
    && !q.discarded && q.stage != .returning)
  if held || flying then s
  else if !nodePresent s pkg (nodeOf s oid) then s.count (pkg * 8 + bridge) 15
  else sendFill s die j

/-- One step of a bridge station on one die's schedule, or none where it has nothing to do. -/
def fillStep (s : State) (die bridge : Nat) (x : Schedule) : Option State :=
  let put (t : State) (y : Schedule) : State := t.modDie die (fun d => { d with schedule := some y })
  match x.walk.find? (fun k => !x.entered.contains (bridge, k)) with
  | some k =>
    let (jobs, t) := match readRun die (x.list + BitVec.ofNat 64 (256 * (k % x.n))) 8 s with
      | some (eb, t) => (entryJobs bridge k eb, t)
      | none => ([], s)
    some (put t { x with entered := x.entered ++ [(bridge, k)], queued := x.queued ++ jobs })
  | none =>
    match x.queued.find? (fun j => j.bridge == bridge) with
    | none => none
    | some j =>
      let n := nodeOf s (capOid j.cap).toNat
      if n % 8 ≠ bridge ∨ j.stop ≤ j.next then some (put s { x with queued := x.queued.erase j })
      else if !issuing s (pkgOfDie die) bridge || !nodeOpen s (pkgOfDie die) n then none
      else some (put (fillOne s die bridge j) { x with queued := x.queued.map (fun q => if q = j then { j with next := j.next + 32 } else q) })

/-- SCHEDULE_FILL: the bridge station of a die goes one step further on the schedules of its package (R364). -/
def execScheduleFill (d : DieId) (s : State) : Out :=
  match (List.range 8).findSome? (fun k =>
    let die := d.pkg.val * 8 + k
    match (s.die die).schedule with
    | some x => fillStep s die d.die.val x
    | none => none) with
  | some t => .next t
  | none => .next s

end Sys2Proof.Machine
end

