-- ==== Sys2Proof/Machine/Dispatcher.lean ====
section
/-! DEFINITION. The dispatcher: decisions, placement and strand starts (R22, R246 to R249, R440), class pre-emption and system
requests (R250, R252, R360), completion, the watchdog and quiescence (R33 to R35, R200, R254). -/
namespace Sys2Proof.Machine
open Sys2Proof

/-! The state a strand starts in (R22, R348, R349, R440). -/

/-- Counter of level j at a point: the lowest-numbered level of a kind runs fastest (R440). -/
def levelCounter (levels : List (BitVec 2 × Nat)) (dpoint cpoint j : Nat) : Nat :=
  match levels.drop j with
  | (k, trip) :: _ =>
    if k = 2 then cpoint / spatialPoints (levels.take j) k % trip
    else if k = 3 then dpoint / spatialPoints (levels.take j) k % trip
    else 0
  | [] => 0

/-- The level counters of a strand's engines. -/
def startCounters (levels : List (BitVec 2 × Nat)) (dpoint cpoint : Nat) : SMap (BitVec 16) :=
  (List.range 6).filterMap (fun j =>
    let n := levelCounter levels dpoint cpoint j
    if n = 0 then none else some (j, BitVec.ofNat 16 n))

/-- Curve n of a kernel descriptor's bytes (R349). -/
def curveOf (bs : List Byte) : Curve :=
  let f (i : Nat) : BitVec 32 := BitVec.ofNat 32 (ofLe ((bs.drop (4 * i)).take 4))
  ⟨(List.range 16).map (fun j => f (3 * j)), (List.range 16).map (fun j => f (3 * j + 1)), (List.range 16).map (fun j => f (3 * j + 2))⟩

/-- Bytes of a kernel descriptor as the hardware reads them for a die, and the state after the read; a refused read gives zeros. -/
def kernelBytes (die : Nat) (w : Word) (n : Nat) (s : State) : List Byte × State :=
  match readRun die w n s with
  | some x => x
  | none => (List.replicate (32 * n) 0, s)

/-- The valid curves among those that a kernel names, and the state after they have been read (R349). -/
def loadCurves (die : Nat) (k : Word) (present : Byte) : State → List Nat → SMap Curve × State
  | s, [] => ([], s)
  | s, n :: ns =>
    if present.getLsbD n then
      let (bs, t) := kernelBytes die (k + BitVec.ofNat 64 (0x200 + 192 * n)) 6 s
      let (m, u) := loadCurves die k present t ns
      (if curveValid (curveOf bs) then (n, curveOf bs) :: m else m, u)
    else loadCurves die k present s ns

/-- Dispatch and restore copy the format table and the valid curves of the kernel into the cell (R348, R349). -/
def loadTables (s : State) (ix : Nat) : State :=
  let k := (s.cell ix).kernel
  let die := dieOfCell ix
  let (fb, s1) := kernelBytes die (k + 0xC0) 8 s
  let (head, s2) := kernelBytes die k 1 s1
  let (curves, s3) := loadCurves die k (byteAt head 0x10) s2 (List.range 8)
  s3.modCell ix (fun c => { c with formats := (List.range 16).map (fun n => (n, (capAt fb (16 * n) : BitVec 128))), curves := curves })

/-- Declared operands go to k0 to k7 and a24 to a31 (R22). -/
def placeOperands (t : Task) (c : Cell) : Cell :=
  (List.range 8).foldl (fun c j =>
    let x := t.operands.getD j 0
    let k := slotKind (t.kinds.getD j 0)
    if k = 1 then c.writeA (24 + j) (x.extractLsb' 0 64) else if k = 2 then c.writeK j x else c) c

/-- A strand on a cell at its dispatch: everything reads zero under the new heat but what R22 places. Its class is that of the task's
control word, whatever ageing made of the entry (R252 speaks of the share's class and of the task's; DESIGN CHOICE,
notes/assumptions/54.md). -/
def startCell (s : State) (die ix : Nat) (h : Word) (t : Task) (dpoint cpoint : Nat) (heat : Heat) : Cell :=
  let v := vacant (s.die die) (s.cell ix)
  let pick (f : BitVec 32 → Nat) (d : Nat) : SMap Nat := if t.limits.isEmpty then [] else (List.range 16).map (fun n => (n, f (t.limits.getD n (BitVec.ofNat 32 d))))
  let e (g : EngineState) : EngineState := { g with pc := t.entry, lcnt := startCounters t.levels dpoint cpoint }
  let slip := wf64 t.header 26 20
  placeOperands t { v with
    status := .starting, heat := heat, A := e v.A, V := e v.V, M := e v.M
    levelKinds := (List.range 6).map (fun n => (n, (t.levels.getD n (0, 0)).1))
    trips := (List.range 6).map (fun n => (n, (t.levels.getD n (0, 0)).2))
    kernel := t.kernel, entry := t.entry, parcels := wf64 t.header 19 0, persistent := t.persist
    slip := if slip = 0 then 16 else slip, dpoint := dpoint, cpoint := cpoint, wdogLimit := (s.cell (die * 144)).wdogLimit
    qmin := pick (fun w => (w.extractLsb' 0 14).toNat) 0, qcap := pick (fun w => (w.extractLsb' 16 14).toNat) 0
    handle := h, cls := ctlClass t.control, startAt := s.cycle + 12 + cpoint, dispatched := s.cycle
    residue := if v.residue.contains heat then v.residue else heat :: v.residue }

/-- STRAND_START: a dispatched strand's first word may issue; its tables are loaded (R249, R348). -/
def execStrandStart (cid : CellId) (s : State) : Out :=
  let ix := cellIx cid
  if (s.cell ix).status ≠ .starting ∨ s.cycle < (s.cell ix).startAt then .next s
  else .next (loadTables (s.modCell ix (fun c => { c with status := .running })) ix)

/-! Placement (R248). Cells are numbered within the die; `idle` is in ascending order. -/

/-- The lowest idle cell of the first cluster from one on, cyclically, that has one. -/
def clusterFrom (idle : List Nat) (cluster : Nat) : Nat :=
  match (List.range 6).findSome? (fun k => idle.find? (fun i => i / 24 == (cluster + k) % 6)) with
  | some i => i
  | none => 0

/-- The cell whose vault holds the base of a region operand homed on a die. -/
def operandCell (die : Nat) (w : Word) : Option Nat := if homeDie w = die then some (vaultOf w) else none

/-- The anchor of a share (R248). -/
def anchorOf (t : Task) (die : Nat) (idle : List Nat) : Nat :=
  let lowestIdle := idle.headD 0
  let base (j : Nat) : Word := (t.operands.getD j 0).extractLsb' 0 64
  if ctlPmode t.control = 1 then clusterFrom idle (ctlPclus t.control)
  else if ctlPmode t.control = 2 then
    let v := vaultOf (base (ctlPopnd t.control))
    if homeDie (base (ctlPopnd t.control)) = die ∧ idle.contains v then v else clusterFrom idle (v / 24)
  else
    match (List.range 8).find? (fun j => slotKind (t.kinds.getD j 0) == 1 && homeDie (base j) == die) with
    | some j => if idle.contains (vaultOf (base j)) then vaultOf (base j) else lowestIdle
    | none => lowestIdle

/-- Candidate cells in order: the anchor, its cluster, then the following clusters. -/
def candidates (idle : List Nat) (anchor : Nat) : List Nat :=
  anchor :: (List.range 6).flatMap (fun k => idle.filter (fun i => i / 24 == (anchor / 24 + k) % 6 && i != anchor))

/-- Idle strand cells of a die, numbered within it. -/
def idleNumbers (s : State) (die : Nat) : List Nat := (idleCells s die).map (· % 144)

/-! Decisions (R247). -/

/-- The order of ready-pool entries: class, ready time, launching die, record index. -/
def entryBefore (a b : ReadyEntry) : Bool :=
  decide (a.cls < b.cls) || (a.cls == b.cls && (decide (a.time < b.time) || (a.time == b.time &&
    (decide (handleDie a.handle < handleDie b.handle) || (handleDie a.handle == handleDie b.handle && decide (hIndex a.handle < hIndex b.handle))))))

/-- Strand cells that persistent strands do not hold. -/
def openCells (s : State) (die : Nat) : Nat :=
  143 - (s.cells.filter (fun e => e.1 / 144 == die && !isCmd e.1 && e.2.status != .idle && e.2.persistent)).length

def taskPersists (s : State) (h : Word) : Bool :=
  match taskOf s h with
  | some t => t.persist
  | none => false

/-- An entry that is passed over. -/
def passedOver (s : State) (die : Nat) (e : ReadyEntry) : Bool :=
  let f := openCells s die
  decide (f < e.strands)
    || e.restore.any (fun k => (s.die die).stowed.any (fun x => x.slot == k && (x.held || !x.done)))
    || (e.restore.isEmpty && taskPersists s e.handle && e.strands == f)

/-- The head of the ready pool. -/
def headEntry (s : State) (die : Nat) : Option ReadyEntry :=
  (s.die die).ready.foldl (fun best e =>
    if passedOver s die e then best
    else match best with
      | none => some e
      | some b => if entryBefore e b then some e else some b) none

/-- Idle cells that no restore under way will take. -/
def roomFor (s : State) (die : Nat) : Nat :=
  (idleCells s die).length - (s.die die).restoring.foldl (fun n e => n + e.strands) 0

/-- The lowest free route tag goes to a share; with all held it has none (R373). -/
def takeRoute (d : Die) (h : Word) : Die :=
  match lowest 8 (fun i => (find? d.routes i).isNone) with
  | some i => { d with routes := insertAt d.routes i h }
  | none => d

/-- Put the strands of a share on the candidates in order. -/
def startStrands (s : State) (die : Nat) (h : Word) (t : Task) (dpoint : Nat) (heat : Heat) : Nat → List Nat → State
  | _, [] => s
  | c, i :: is => startStrands (s.setCell (die * 144 + i) (startCell s die (die * 144 + i) h t dpoint c heat)) die h t dpoint heat (c + 1) is

/-- Dispatch a share under a heat just drawn (R20, R21, R248). -/
def dispatchShare (s : State) (die : Nat) (e : ReadyEntry) (t : Task) (heat : Heat) (d : Die) : State :=
  let idle := idleNumbers s die
  let cells := (candidates idle (anchorOf t die idle)).take e.strands
  let s1 := s.setDie die (takeRoute { d with ready := d.ready.erase e } e.handle)
  let t1 := { t with state := .running, ddisp := t.ddisp ||| BitVec.ofNat 8 (2 ^ (die % 8)), heats := insertAt t.heats (die % 8) heat }
  startStrands (setTask s1 e.handle t1) die e.handle t1 e.dpoint heat 0 cells

/-- Dispatch a head that fits; a share whose task has gone, or for which no heat can be drawn, changes nothing. -/
def dispatchHead (s : State) (die : Nat) (e : ReadyEntry) : State :=
  if e.restore.isEmpty then
    match taskOf s e.handle, drawHeat (s.die die) with
    | some t, some (heat, d) => dispatchShare s die e t heat d
    | _, _ => s
  else s.modDie die (fun d => { d with ready := d.ready.erase e, restoring := d.restoring ++ [e] })

/-! Pre-emption of shares (R250, R252). -/

/-- All three engines have arrived at `end`. -/
def ended (c : Cell) : Bool := c.A.park == .atEnd && c.V.park == .atEnd && c.M.park == .atEnd

/-- Cells of a die that hold strands of a task. -/
def shareCells (s : State) (die : Nat) (h : Word) : List Nat :=
  (s.cells.filter (fun e => e.1 / 144 == die && !isCmd e.1 && e.2.status != .idle && e.2.handle == h)).map (·.1)

/-- A strand that a pre-emption would halt; one whose fault waits for room for its record leaves once that has been written. -/
def canHalt (c : Cell) : Bool := (c.status == .running || c.status == .starting || c.status == .held) && c.preempt.isNone && !ended c

/-- A share is being pre-empted. -/
def shareLeaving (s : State) (die : Nat) (h : Word) : Bool :=
  (shareCells s die h).any (fun ix => (s.cell ix).preempt == some .classPreemption || (s.cell ix).preempt == some .systemRequest)

/-- Ask one strand to halt, with a slot reserved for it (R205). -/
def haltStrand (s : State) (ix : Nat) (why : StowCause) : State :=
  if canHalt (s.cell ix) then
    (match beginStow s ix why with
     | some t => t
     | none => s)
  else s

def haltStrands (s : State) (why : StowCause) : List Nat → State
  | [] => s
  | ix :: r => haltStrands (haltStrand s ix why) why r

/-- Slots that halting a share needs. -/
def slotsNeeded (s : State) (die : Nat) (h : Word) : Nat := ((shareCells s die h).filter (fun ix => canHalt (s.cell ix))).length

/-- A share that a class-0 head may pre-empt: its task, class, last dispatch and cells. -/
structure Victim where
  handle : Word
  cls    : Nat
  since  : Nat
  cells  : Nat
deriving DecidableEq, Repr

/-- Insert in the order of R250: class from 3 down, then the most recent dispatch first. -/
def insertVictim (v : Victim) : List Victim → List Victim
  | [] => [v]
  | w :: ws => if w.cls < v.cls ∨ (w.cls = v.cls ∧ w.since < v.since) then v :: w :: ws else w :: insertVictim v ws

/-- Victims of a die in order. -/
def victims (s : State) (die : Nat) : List Victim :=
  let here := s.cells.filter (fun e => e.1 / 144 == die && !isCmd e.1 && e.2.status != .idle && !e.2.persistent
    && decide (1 ≤ e.2.cls) && !shareLeaving s die e.2.handle)
  let handles := (here.map (·.2.handle)).eraseDups
  handles.foldl (fun vs h =>
    let cs := here.filter (fun e => e.2.handle == h)
    match cs with
    | [] => vs
    | e :: _ => insertVictim ⟨h, e.2.cls, cs.foldl (fun n e => max n e.2.dispatched) 0, cs.length⟩ vs) []

/-- The shortest prefix whose cells make up what is missing. -/
def prefixFor (missing : Nat) : List Victim → Option (List Victim)
  | [] => if missing = 0 then some [] else none
  | v :: vs =>
    if missing = 0 then some []
    else match prefixFor (missing - v.cells) vs with
      | some r => some (v :: r)
      | none => none

/-- Cells of the shares that are being pre-empted, which are no victims (R250). -/
def leavingCells (s : State) (die : Nat) : Nat :=
  (s.cells.filter (fun e => e.1 / 144 == die && !isCmd e.1 && e.2.status != .idle && shareLeaving s die e.2.handle)).length

/-- A class-0 head that lacks cells pre-empts the prefix, if slots are free for all its strands; while the strands of an earlier prefix
that is enough still halt, it pre-empts no further share (R250). -/
def classPreempt (s : State) (die : Nat) (e : ReadyEntry) : State :=
  if e.cls ≠ 0 ∨ e.strands ≤ roomFor s die + leavingCells s die then s
  else
    match prefixFor (e.strands - (roomFor s die + leavingCells s die)) (victims s die) with
    | none => s
    | some vs =>
      let need := vs.foldl (fun n v => n + slotsNeeded s die v.handle) 0
      if (freeSlots (s.die die) die s.cycle).length < need then s
      else vs.foldl (fun s v => haltStrands s .classPreemption (shareCells s die v.handle)) s

/-- Tasks of a package that ask for the share on a die to be pre-empted. -/
def requests (s : State) (die : Nat) : List (Nat × Nat × Task) :=
  (List.range 8).flatMap (fun k =>
    let p := die / 8 * 8 + k
    ((s.die p).tasks.filter (fun e => e.2.request.getLsbD (die % 8))).map (fun e => (p, e.1, e.2)))

def clearRequest (s : State) (p i : Nat) (t : Task) (bit : Nat) : State :=
  s.modDie p (fun d => { d with tasks := insertAt d.tasks i { t with request := t.request &&& ~~~BitVec.ofNat 8 (2 ^ bit) } })

/-- Serve one request (R252, R360): cleared where the share does not run, merged where it is leaving, else made when slots
are free for all its strands. -/
def serveRequest (s : State) (die : Nat) (r : Nat × Nat × Task) : State :=
  let h := mkHandle r.1 r.2.1 r.2.2.gen
  if (shareCells s die h).isEmpty then clearRequest s r.1 r.2.1 r.2.2 (die % 8)
  else if shareLeaving s die h then s
  else if (freeSlots (s.die die) die s.cycle).length < slotsNeeded s die h then s
  else haltStrands s .systemRequest (shareCells s die h)

/-- DISPATCH_DECISION: requests are served, then the head is dispatched, pre-empts or waits (R247, R250, R252). -/
def execDispatchDecision (d : DieId) (s : State) : Out :=
  let die := dieIx d
  let t := (requests s die).foldl (fun s r => serveRequest s die r) s
  match headEntry t die with
  | none => .next t
  | some e => if e.strands ≤ roomFor t die then .next (dispatchHead t die e) else .next (classPreempt t die e)

/-- Ageing period of a class (R83). -/
def agePeriod (d : Die) (c : Nat) : Nat := lookup 1048576 d.ages c

/-- AGEING_PROMOTION: an entry that has waited its period in a class of 1 or more moves up one class (R246). -/
def execAgeingPromotion (d : DieId) (ix : Nat) (s : State) : Out :=
  let die := dieIx d
  let k := s.die die
  match k.ready.drop ix with
  | e :: _ =>
    if 1 ≤ e.cls ∧ agePeriod k e.cls ≤ s.cycle - e.since then
      .next (s.setDie die { k with ready := k.ready.take ix ++ { e with cls := e.cls - 1, since := s.cycle } :: k.ready.drop (ix + 1) })
    else .next s
  | [] => .next s

/-! Completion (R33 to R35). -/

/-- Every engine is at `end`, its stall has elapsed, and the strand has nothing to report. -/
def atRest (s : State) (c : Cell) : Bool :=
  ended c && c.status == .running && decide (c.A.nextIssue ≤ s.cycle) && decide (c.V.nextIssue ≤ s.cycle)
    && decide (c.M.nextIssue ≤ s.cycle) && c.reports.isEmpty && c.fault.isNone && c.tokenRegs.isEmpty && c.preempt.isNone

/-- Completion scope of a strand's task. -/
def taskScope (s : State) (h : Word) : Nat :=
  match taskOf s h with
  | some t => ctlScope t.control
  | none => 5

/-- One strand of a point has completed: the point's share, and the task, may have completed with it (R21, R35). -/
def countDone (s : State) (die : Nat) (h : Word) (dpoint : Nat) : State :=
  match taskOf s h with
  | none => s
  | some t =>
    let left := insertAt t.left dpoint (lookup 0 t.left dpoint - 1)
    let t1 := { t with left := left }
    if lookup 0 left dpoint ≠ 0 then setTask s h t1
    else
      let t2 := { t1 with dcomp := t1.dcomp ||| BitVec.ofNat 8 (2 ^ (die % 8)) }
      let s1 := match find? t.heats (die % 8) with
        | some ht => s.modDie die (fun d => retireHeat { d with barriers := d.barriers.filter (fun e =>
            !(e.1 / 128 == h.toNat && decide (e.1 % 128 < 64))) } ht)
        | none => s
      if left.any (fun e => e.2 != 0) then setTask s1 h t2
      else
        let s2 := s1.modDie (handleDie h) (fun d => { d with barriers := d.barriers.filter (fun e => e.1 / 128 != h.toNat) })
        setTask s2 h { t2 with state := .complete, final := s.cycle, request := 0, stowed := false }

/-- The strand has completed: it withdraws from its barriers and leaves its cell. -/
def finishStrand (s : State) (ix : Nat) : State :=
  let c := s.cell ix
  freeCell (countDone (withdrawStrand s ix) (dieOfCell ix) c.handle c.dpoint) ix

/-- A strand whose wait at `end` finds a severed home stops with SEVERED, and its task fails, once the record has room (R255, R312). -/
def stopAtEnd (s : State) (ix : Nat) (val : Word) : State :=
  let c := s.cell ix
  let x := recordOf s ix 0 (faultWord 0 (codeNum .severed) false) val (offsetOf c 0)
  let s1 : State := { s with nextId := s.nextId + 1 }
  if recordRoom s (recordDie s ix) then failTask (stopWith s1 ix x) c.handle else awaitRoom s1 ix ⟨x, none, true⟩

/-- STRAND_COMPLETE: all engines at `end`, every store, atomic and copy performed at the completion scope (R33, R312). -/
def execStrandComplete (cid : CellId) (s : State) : Out :=
  let ix := cellIx cid
  let c := s.cell ix
  if isCmd ix || !atRest s c || (s.die (dieOfCell ix)).copies.any (fun k => k.cell == ix && !k.orphan) then .next s
  else
    match releaseOf s ix (taskScope s c.handle) (fun o => !isRead s o) with
    | .wait => .next s
    | .severed t p => .next (stopAtEnd t ix p)
    | .done t => .next (finishStrand t ix)

/-! Watchdog and quiescence (R200, R254, R380). -/

/-- WATCHDOG_FIRE: the count has reached the limit; the strand halts, a record of kind 1 is written and the task fails. -/
def execWatchdogFire (cid : CellId) (s : State) : Out :=
  let ix := cellIx cid
  let c := s.cell ix
  if isCmd ix ∨ c.status ≠ .running ∨ c.wdogLimit = 0 ∨ c.wdogCount < c.wdogLimit then .next s
  else
    let r := recordOf s ix 1 (faultWord 3 (codeNum .watchdog) false) (BitVec.ofNat 64 c.wdogCount) 0
    .next (failTask (appendRecord ((s.count (dieOfCell ix) 19).count (dieOfCell ix) 18) (recordDie s ix) r) c.handle)

/-- A strand is in an idle wait or has a held fault. -/
def strandIdle (c : Cell) : Bool := c.fault.isSome || (c.persistent && c.A.wait == .idle)

/-- No barrier phase is outstanding for a strand: no arrival of its own is under way, or counted at its task's launching die (R254, R370). -/
def barriersQuiet (s : State) (c : Cell) : Bool :=
  c.tokenRegs.isEmpty && !(s.die (handleDie c.handle)).barriers.any (fun e => e.1 / 128 == c.handle.toNat && e.2.counted.contains (partOf c))

/-- The conditions of R254 but for their duration. -/
def dieQuiet (s : State) (die : Nat) : Bool :=
  let d := s.die die
  d.ready.isEmpty && d.restoring.isEmpty && d.stowed.all (fun x => x.held && barriersQuiet s x.ctx)
    && !(d.copies.any (fun k => !k.orphan && k.home % 144 != 0)) && d.barriers.all (fun e => e.2.counted.isEmpty)
    && s.cells.all (fun e => e.1 / 144 != die || isCmd e.1 || e.2.status == .idle
      || (strandIdle e.2 && barriersQuiet s e.2 && e.2.ops.all (fun o => o.kind != .pool)))

/-- DIE_QUIESCENT: quiescent for as many cycles as the command cell's limit, the die gets one record of kind 5 (R254). -/
def execDieQuiescent (d : DieId) (s : State) : Out :=
  let die := dieIx d
  let k := s.die die
  let limit := (s.cell (die * 144)).wdogLimit
  if k.quietReported ∨ limit = 0 ∨ k.quiet < limit ∨ !dieQuiet s die then .next s
  else .next (appendRecord (s.setDie die { k with quietReported := true }) die (recordTask s die 5 0 0 k.world))

end Sys2Proof.Machine
end

