-- ==== Sys2Proof/Machine/HostPort.lean ====
section
/-! DEFINITION. Worlds (R383 to R387), the host port and its windows (R389, R390, R395, R269, R394), and bring-up (R396 to
R399). -/
namespace Sys2Proof.Machine
open Sys2Proof

/-- A package answers host requests other than configuration, SPDM and its load window (R397, R398). -/
def hostUp (s : State) (pkg : Nat) : Bool := (s.pkg pkg).phase == .released || (s.pkg pkg).phase == .ready

def setTdisp (s : State) (die : Nat) (a : Answer) : State :=
  s.modPkg (pkgOfDie die) (fun p => { p with tdisp := insertAt p.tdisp (die % 8) a })

/-! Command cells (R397 step 4). -/

/-- Bytes of the firmware image in a die's local part. -/
def imageAddr (die : Nat) : Nat := dieBase die + 0x1000000

/-- A field of an image's header (R396). -/
def imageField (m : Memory) (off n : Nat) : Nat := ofLe (Memory.read m off n)

/-- Copy the image, its zero bytes too, and write the top page table of a die (R397 step 4). What lies in the load window past the image's
length is no part of it. -/
def prepareDie (s : State) (die : Nat) : State :=
  let img := (s.pkg (pkgOfDie die)).image
  let n := imageField img 8 8
  let m0 := s.mem.filter (fun c => !(decide (imageAddr die ≤ c.1) && decide (c.1 < imageAddr die + n)))
  let m1 := (img.filter (fun c => decide (c.1 < n))).foldl (fun m c => Memory.setByte m (imageAddr die + c.1) c.2) m0
  { s with mem := Memory.write m1 (dieBase die) (leBytes 0x9F 8 ++ List.replicate 504 0) }

/-- The command cell of a die starts at the firmware's entry, its handler resolved against the image (R397 step 4). -/
def startCommand (s : State) (die : Nat) : State :=
  let img := (s.pkg (pkgOfDie die)).image
  let base := BitVec.ofNat 64 (imageAddr die)
  let pc := base + BitVec.ofNat 64 (imageField img 0x10 8)
  let e := { EngineState.reset with pc := pc }
  let c := { Cell.reset with
    status := .running, heat := commandHeat, A := e, V := e, M := e, entry := base, kernel := base
    parcels := imageField img 8 8 / 4, resetAt := s.cycle }
  (s.setCell (die * 144) c).modDie die (fun d => { d with
    handler := base + BitVec.ofNat 64 (imageField img 0x18 8), firmware := pc })

/-! Reassignment (R386). -/

/-- World ids of a package's serials (R383). -/
def worldOf (pkg serial : Nat) : BitVec 16 := BitVec.ofNat 16 (pkg * 2048 + serial)

/-- The next free serial, ascending after the last one allocated (R383). -/
def nextSerial (p : Package) : Option Nat :=
  ((List.range 2047).map (fun i => (p.lastSerial + i) % 2047 + 1)).find? (fun n => !p.serials.contains n)

/-- The kind-6 and kind-7 records of the host fault log (R386, R385). -/
def worldRecord (s : State) (die kind value : Nat) (world : BitVec 16) : FaultRecord :=
  recordTask s die kind (BitVec.ofNat 64 value) 0 world

/-- Start a reassignment of a die. -/
def beginReassign (s : State) (die : Nat) (w : BitVec 16) (t : TdiState) (stream : Option Nat) (answer : Bool) : State :=
  s.modDie die (fun d => { d with reassign := some ⟨1, w, t, stream, answer⟩ })

/-- Take one TDISP transition of a die that no reassignment holds up (R384, R385, R390). -/
def transition (s : State) (die : Nat) (r : TdiReq) : State :=
  let d := s.die die
  let p := pkgOfDie die
  match r with
  | .lock stream =>
    if d.tdi ≠ .configUnlocked then setTdisp s die .invalidInterfaceState
    else
      match nextSerial (s.pkg p) with
      | none => appendLog (setTdisp s die .unspecified) p (worldRecord s die 7 (die % 8 + 1) 0)
      | some n =>
        beginReassign (s.modPkg p (fun k => { k with serials := n :: k.serials, lastSerial := n })) die (worldOf p n) .configLocked
          (some stream) true
  | .start =>
    if d.tdi ≠ .configLocked then setTdisp s die .invalidInterfaceState
    else setTdisp (s.setDie die { d with tdi := .run }) die .tdispOk
  | .stop => beginReassign s die 0 .configUnlocked none true
  | .toError => if d.tdi = .configLocked ∨ d.tdi = .run then beginReassign s die 0 .error none false else s

/-- The transitions that waited are taken in arrival order, up to one that starts a reassignment (R387). -/
def takeWaiting (die : Nat) : State → List TdiReq → State
  | s, [] => s.modDie die (fun d => { d with waiting := [] })
  | s, r :: rs =>
    let t := transition (s.modDie die (fun d => { d with waiting := rs })) die r
    if (t.die die).reassign.isSome then t else takeWaiting die t rs

/-- A transition is taken at once, or waits while a reassignment is under way (R387). -/
def tdispRequest (s : State) (die : Nat) (r : TdiReq) : State :=
  if !hostUp s (pkgOfDie die) then setTdisp s die .unsupported
  else if (s.die die).reassign.isSome then s.modDie die (fun d => { d with waiting := d.waiting ++ [r] })
  else transition s die r

/-- LOCK_INTERFACE: it binds the TDI to the IDE stream that it names (R384, R390). -/
def execLockInterface (r : LockRequest) (s : State) : Out := .next (tdispRequest s (dieIx r.die) (.lock r.stream.val))
def execStartInterface (d : DieId) (s : State) : Out := .next (tdispRequest s (dieIx d) .start)
def execStopInterface (d : DieId) (s : State) : Out := .next (tdispRequest s (dieIx d) .stop)

/-- LOCKED_CONFIG_WRITE: a configuration write in a locked state moves the TDI to ERROR (R390). -/
def execLockedConfigWrite (d : DieId) (_off : BitVec 48) (_v : Word) (s : State) : Out := .next (tdispRequest s (dieIx d) .toError)

/-- Tasks of a die that have not ended. -/
def openTasks (d : Die) (die : Nat) : List Word :=
  (d.tasks.filter (fun e => !e.2.state.isFinal)).map (fun e => mkHandle die e.1 e.2.gen)

/-- Tasks of one die end killed without a record: the state, and the edges to their successors. -/
def killAll : State → List Word → State × List (Word × Word)
  | s, [] => (s, [])
  | s, h :: hs =>
    match taskOf s h with
    | some t =>
      let (u, es) := killAll (endTask s h t .killed) hs
      (u, t.succs.map (fun x => (x, h)) ++ es)
    | none => killAll s hs

/-- Steps 1 and 2: strands are discarded, tasks end killed without a record, and their successors on other dies fail; the log tells the
world change (R242, R386). -/
def reassignHalt (s : State) (die : Nat) : State :=
  let d := s.die die
  let (s0, edges) := killAll s (openTasks d die)
  let s1 := failAll s0 cascadeFuel edges
  let others := ((s1.cells.filter (fun e => e.1 / 144 == die && !isCmd e.1 && e.2.status != .idle)).map (·.2.handle))
    ++ (s1.die die).stowed.map (·.handle)
  let s2 := others.foldl failTask s1
  let s3 := s2.modCell (die * 144) (fun c => { c with status := .stopped })
  appendLog s3 (pkgOfDie die) (redact (worldRecord s die 6 0 d.world))

/-- Everything the die has issued has been answered (R386 step 3): its pool requests, and what its command cell has in flight. -/
def dieSettled (s : State) (die : Nat) : Bool :=
  let ix := die * 144
  !s.reqs.any (fun r => r.cell / 144 == die && r.answer == .none && !r.discarded)
    && (s.cell ix).ops.all (fun o => o.kind == .pool || o.dead)

/-- Steps 4 to 7 (R386). -/
def reassignFinish (s : State) (die : Nat) (r : Reassign) : State :=
  let d := s.die die
  let retired := d.live.foldl retireHeat d
  let keep := d.keys.map (fun e => if e.1 = 0 then e else (e.1, { e.2 with armed := false, kind := 0, key := 0 }))
  let lo := dieBase die
  let s1 : State := { s with
    mem := s.mem.filter (fun c => !(decide (lo ≤ c.1) && decide (c.1 < lo + 2 ^ 53)))
    cells := s.cells.filter (fun e => e.1 / 144 != die)
    reqs := s.reqs.filter (fun q => q.cell / 144 != die) }
  let s2 := s1.setDie die { Die.reset die with
    world := r.world, tdi := r.tdi, stream := r.stream, waiting := d.waiting, heatCtr := d.heatCtr, retired := retired.retired
    sweepPass := d.sweepPass, sweepPos := d.sweepPos, local_ := d.local_, keys := keep, tasks := d.tasks, listen := d.listen
    listenPending := d.listenPending, hmax := d.hmax, faultWait := [], firmware := d.firmware, lastDoorbell := d.lastDoorbell }
  let restarts (n : Nat) : Bool := [16 + die % 8, 24 + 2 * (die % 8), 25 + 2 * (die % 8)].contains n
  let s3 := s2.modPkg (pkgOfDie die) (fun p => { p with
    ports := p.ports.map (fun e => (e.1, if restarts e.1 then { e.2 with expects := [] } else e.2))
    sectors := p.sectors.filter (fun e => e.2.plane != die % 8) })
  startCommand (prepareDie s3 die) die

/-- REASSIGNMENT_COMPLETE: the steps of a reassignment in order; at the end the answer is sent and the waiting transitions are taken
(R386, R387). -/
def execReassignmentComplete (d : DieId) (s : State) : Out :=
  let die := dieIx d
  match (s.die die).reassign with
  | none => .next s
  | some r =>
    if r.step = 1 then
      .next ((reassignHalt s die).modDie die (fun d => { d with reassign := some { r with step := 3 }, copies := [] }))
    else if !dieSettled s die then .next s
    else
      let s1 := reassignFinish s die r
      let s2 := if r.answer then setTdisp s1 die .tdispOk else s1
      .next (takeWaiting die s2 (s2.die die).waiting)

/-! TDISP and SPDM reports (R389). -/

/-- Code of a TDI state (R390 Table 2). -/
def tdiCode : TdiState → BitVec 64
  | .configUnlocked => 0
  | .configLocked => 1
  | .run => 2
  | .error => 3

/-- A message whose contents only the named standards fix. -/
def drawReply (s : State) : Answer × State := (.bytes (Config.reply s.free), { s with free := s.free + 1 })

def execGetDeviceInterfaceReport (d : DieId) (s : State) : Out :=
  if !hostUp s d.pkg.val then .next (setTdisp s (dieIx d) .unsupported)
  else
    let (a, t) := drawReply s
    .next (setTdisp t (dieIx d) a)

def execGetDeviceInterfaceState (d : DieId) (s : State) : Out :=
  if !hostUp s d.pkg.val then .next (setTdisp s (dieIx d) .unsupported)
  else .next (setTdisp s (dieIx d) (.value (tdiCode (s.die (dieIx d)).tdi)))

/-- An SPDM exchange at the DOE mailbox, answered from step 2 of bring-up onward, and what it makes of the session (R389, R397). -/
def spdm (p : PkgId) (f : Session → Session) (s : State) : State :=
  if (s.pkg p.val).phase = .inReset then s
  else
    let (a, t) := drawReply s
    t.modPkg p.val (fun k => { k with doe := a, session := f k.session })

def execGetVersion (p : PkgId) (s : State) : Out := .next (spdm p id s)
def execGetCapabilities (p : PkgId) (s : State) : Out := .next (spdm p id s)
def execNegotiateAlgorithms (p : PkgId) (s : State) : Out := .next (spdm p id s)
def execGetDigests (p : PkgId) (s : State) : Out := .next (spdm p id s)
def execGetCertificate (p : PkgId) (s : State) : Out := .next (spdm p id s)
def execChallenge (p : PkgId) (s : State) : Out := .next (spdm p id s)
/-- KEY_EXCHANGE opens a session, FINISH secures it, END_SESSION ends it (R389). -/
def execKeyExchange (p : PkgId) (s : State) : Out := .next (spdm p (fun _ => .handshake) s)
def execFinish (p : PkgId) (s : State) : Out := .next (spdm p (fun x => if x = .none then .none else .secure) s)
def execKeyUpdate (p : PkgId) (s : State) : Out := .next (spdm p id s)
def execEndSession (p : PkgId) (s : State) : Out := .next (spdm p (fun _ => .none) s)

/-- GET_MEASUREMENTS: index n of 1 to 8 returns MEAS(n - 1); any other index returns all of them (R397 step 5). -/
def execGetMeasurements (p : PkgId) (ix : Nat) (s : State) : Out :=
  let k := s.pkg p.val
  if k.phase = .inReset then .next s
  else if 1 ≤ ix ∧ ix ≤ 8 then .next (s.setPkg p.val { k with doe := .measurements [k.meas.getD (ix - 1) 0] })
  else .next (s.setPkg p.val { k with doe := .measurements ((List.range 8).map (fun i => k.meas.getD i 0)) })

/-- IDE_KM_REQUEST: a key of one of the nine selective streams is set; its value comes over the secure session, without which there is
no such request (R389). -/
def execIdeKmRequest (p : PkgId) (v : Word) (s : State) : Out :=
  if (s.pkg p.val).phase = .inReset ∨ (s.pkg p.val).session ≠ .secure then .next s
  else
    let key := BitVec.ofNat 256 (ofLe ((List.range 32).map (fun i => Config.freeByte (s.free + i))))
    .next ({ s with free := s.free + 32 }.modPkg p.val (fun k => { k with
      ideKeys := insertAt k.ideKeys (v.toNat % 9) key }))

/-! Host windows (R390, R395, R257). -/

/-- The doorbell's verdict on a tail (R257, R390 Table 2): bit 0 refused, bit 1 no ring, bit 2 not in RUN. -/
def doorbellStatus (s : State) (die t : Nat) : BitVec 3 :=
  let d := s.die die
  let n := 2 ^ d.lrm
  let head := lrIndex s die 8
  let tail := lrIndex s die 0
  if d.tdi = .configLocked then 5
  else if d.tdi = .error ∨ d.reassign.isSome then 1
  else if d.lrbase = 0 then 3
  else if n ≤ t ∨ (t + n - head % n) % n < (tail + n - head % n) % n then 1
  else 0

/-- A die function takes a memory request: in CONFIG_LOCKED and RUN only on the IDE stream that it is bound to, under a key that has
been set; any other is an Unsupported Request (R389, R390). -/
def onStream (s : State) (die : Nat) (stream : Option Nat) : Bool :=
  let d := s.die die
  !(d.tdi == .configLocked || d.tdi == .run) ||
    (match stream with
     | some n => d.stream == some n && (find? (s.pkg (pkgOfDie die)).ideKeys n).isSome
     | none => false)

/-- A host write that the port die of a package performs: it carries the package's pts as its write time (R319). -/
def hostStore (s : State) (pkg : Nat) (w : Word) (bs : List Byte) : State :=
  raiseTime { s with mem := Memory.write s.mem w.toNat bs } w (s.pkg pkg).pts

/-- LAUNCH_DOORBELL: an accepted tail goes to the ring header and sets the command cell's latch; the tail in force changes nothing
(R257, R193). -/
def execLaunchDoorbell (d : DieId) (tail : HostWord) (s : State) : Out :=
  let die := dieIx d
  if !hostUp s d.pkg.val || !onStream s die (tail.stream.map (·.val)) then .next s
  else
    let t := tail.word.toNat % 4096
    let st := doorbellStatus s die t
    let s1 := s.modDie die (fun d => { d with lastDoorbell := st })
    if st ≠ 0 ∨ t = lrIndex s die 0 then .next s1
    else .next (setLatch (hostStore s1 d.pkg.val (s1.die die).lrbase (leBytes t 8)) (die * 144))

/-- HOST_RING_WRITE: 8 bytes into the ring's entries; the header and a die that is not serving take nothing (R390). -/
def execHostRingWrite (d : DieId) (off : Word) (data : HostWord) (s : State) : Out :=
  let die := dieIx d
  let k := s.die die
  if !hostUp s d.pkg.val || !onStream s die (data.stream.map (·.val)) || k.lrbase == 0 || k.reassign.isSome || !(k.tdi == .run || k.tdi == .configUnlocked)
      || decide (off.toNat < 256) || decide (256 + 2 ^ k.lrm * 256 < off.toNat + 8) then .next s
  else .next (hostStore s d.pkg.val (k.lrbase + off) (leBytes data.word.toNat 8))

/-- DEBUGGER_READ: the granule's data when the request's world is the die's and its heat is the granule's tag, else zeros; a cold
granule is stale under every heat, and a heat that awaits reissue equals no tag (R267, R269, R428). A package whose dies do not run
answers Unsupported Request (R398). The request names the granule by a byte offset into the die's vault space. -/
def execDebuggerRead (d : DieId) (g : Word) (world : BitVec 16) (heat : Heat) (s : State) : Out :=
  let die := dieIx d
  let a := dieBase die + 2 ^ 53 + g.toNat % 2 ^ 30 / 32 * 32
  let ok := (s.die die).reassign.isNone && world == (s.die die).world && heat != 0
    && (find? (s.die die).retired heat.toNat).isNone && lookup 0 s.heats (a / 32) == heat
  if !hostUp s d.pkg.val then .next (s.modPkg d.pkg.val (fun p => { p with debugger := .unsupported }))
  else .next (s.modPkg d.pkg.val (fun p => { p with debugger := .bytes (if ok then Memory.read s.mem a 32 else List.replicate 32 0) }))

/-- COUNTER_READ: one performance counter of a die through the counter mailbox (R382). -/
def execCounterRead (d : DieId) (ix : Nat) (s : State) : Out :=
  if !hostUp s d.pkg.val ∨ 20 ≤ ix then .next (s.modPkg d.pkg.val (fun p => { p with counterBox := .unsupported }))
  else .next (s.modPkg d.pkg.val (fun p => { p with counterBox := .value (zx (lookup 0 (s.die (dieIx d)).counters ix)) }))

/-- HOST_LOG_HEAD_WRITE: the host moves the head of its fault log (R395). -/
def execHostLogHeadWrite (p : PkgId) (head : Word) (s : State) : Out :=
  if hostUp s p.val then .next (s.modPkg p.val (fun k => { k with logHead := head.setWidth 8 })) else .next s

/-- SERIAL_CONFIRMATION: the nodes have removed a world's objects, so its serial may be issued again (R383). -/
def execSerialConfirmation (p : PkgId) (serial : BitVec 15) (s : State) : Out :=
  let w := worldOf p.val serial.toNat
  let inUse := (List.range 8).any (fun i => (s.die (p.val * 8 + i)).world == w
    || (match (s.die (p.val * 8 + i)).reassign with | some r => r.world == w | none => false))
  if inUse then .next s else .next (s.modPkg p.val (fun k => { k with serials := k.serials.filter (· != serial.toNat) }))

/-! Bring-up (R396, R397). -/

/-- Magic and length of an image are valid (R396). -/
def imageHeaderOk (m : Memory) : Bool :=
  let n := imageField m 8 8
  imageField m 0 4 == 0x314C534C && n % 4096 == 0 && n != 0 && decide (n ≤ 16777216)

/-- The image with its signature field zero. -/
def signedBytes (img : List Byte) : List Byte := overlay img 0x200 (List.replicate 512 0)

/-- The boot ROM accepts an image (R396). -/
def imageOk (pkg : Nat) (m : Memory) : Bool :=
  imageHeaderOk m &&
    (let img := Memory.read m 0 (imageField m 8 8)
     let mods := (img.drop 0x400).take 512
     let exps := (img.drop 0x600).take 8
     digestOf (mods ++ exps) == Config.fusedHash pkg
       && pssVerify (ofLe mods) (ofLe exps) (signedBytes img) ((img.drop 0x200).take 512))

/-- The bytes of the 4 KiB self-test log (R395). -/
def logBytes (log : List (BitVec 64)) : List Byte := fitBytes 4096 (log.flatMap (fun w => leBytes w.toNat 8))

/-- Word 0 of the log: the overall result and the first failing unit, in the places that the entries give them (DESIGN CHOICE,
notes/assumptions/7.md). -/
def testVerdict (faulty : Option Nat) : BitVec 64 :=
  match faulty with
  | some u => BitVec.ofNat 64 (2 ^ 24 + u % 65536)
  | none => 0

/-- The n-th entry of a log: unit id, class and detail are free, and the result is the unit's: fail for the first failing unit, pass for
every unit of a package that passes (R398). -/
def testEntry (faulty : Option Nat) (free n : Nat) : BitVec 64 :=
  let w := BitVec.ofNat 64 (ofLe ((List.range 8).map (fun j => Config.freeByte (free + 8 * n + j))))
  let unit := wf64 w 15 0
  let failed := match faulty with
    | some u => if unit = u % 65536 then 1 else wf64 w 24 24
    | none => 0
  BitVec.ofNat 64 (unit + wf64 w 17 16 * 2 ^ 16 + failed * 2 ^ 24 + wf64 w 63 32 * 2 ^ 32)

/-- The self-test log of a package: word 0, then 511 entries, whose free bytes are drawn from a place on (R398). -/
def testResult (p : Package) (free : Nat) : List (BitVec 64) :=
  testVerdict p.faulty :: (List.range 511).map (testEntry p.faulty free)

/-- A die held in reset or released: everything at its reset value, its vault granules cold (R397). -/
def resetDie (s : State) (die : Nat) : State :=
  let lo := (dieBase die + 2 ^ 53) / 32
  { s with cells := s.cells.filter (fun e => e.1 / 144 != die), dies := insertAt s.dies die (Die.reset die)
           heats := s.heats.filter (fun e => !(decide (lo ≤ e.1) && decide (e.1 < lo + 2 ^ 48))) }

/-- Release a die of a verified package (R397 step 4). -/
def releaseDie (s : State) (die : Nat) : State := startCommand (prepareDie (resetDie s die) die) die

/-- The ports of a package that comes up carry the version in force (R335). -/
def freshPorts (s : State) : SMap Port := (List.range 8).map (fun i => (i, { Port.reset with version := s.version }))

/-- PACKAGE_RESET: self-test, measurements, verification, and the release of the dies or the safe talkative state, in which nothing has been
measured where the self-test failed (R397, R398). A package in the safe talkative state leaves it by its next reset, and a severed one
rejoins the domain in this way only (R339). -/
def execPackageReset (p : PkgId) (s : State) : Out :=
  let k := s.pkg p.val
  if k.phase ≠ .inReset ∧ k.phase ≠ .safeTalkative ∧ !k.severSelf then .next s
  else
    let src := if k.useLoad then k.loadWin else k.image
    let log := testResult k s.free
    let img := if imageHeaderOk src then Memory.read src 0 (imageField src 8 8) else []
    let meas := [extendMeas 0 (Config.bootRomDigest p.val), extendMeas 0 (digestOf img), extendMeas 0 (Config.fuseDigest p.val),
      extendMeas 0 (digestOf (logBytes log)), 0, 0, 0, 0]
    let good := k.faulty.isNone && imageOk p.val src
    let k1 := { Package.reset with
      topo := { Topology.reset with present := [p.val] }, ports := freshPorts s, hostMem := k.hostMem
      hostErr := k.hostErr, serials := k.serials, lastSerial := k.lastSerial, selfTest := log, faulty := k.faulty
      meas := if k.faulty.isNone then meas else List.replicate 8 0
      image := if good then src else k.image, loadWin := k.loadWin, version := s.version, announced := s.version
      phase := if good then .released else .safeTalkative }
    let s1 := { s with free := s.free + 4096, reqs := s.reqs.filter (fun r => pkgOfCell r.cell != p.val) }.setPkg p.val k1
    let dies := (List.range 8).map (fun i => p.val * 8 + i)
    .next (keyGone (if good then dies.foldl releaseDie s1 else dies.foldl resetDie s1))

/-- FIRMWARE_READY: the firmware has extended MEAS4 to MEAS7 and declares ready; the measurements are locked and the package
joins the domain with the next topology version (R397 step 5, R335, R356). -/
def execFirmwareReady (p : PkgId) (s : State) : Out :=
  let k := s.pkg p.val
  if k.phase ≠ .released then .next s
  else
    let d (i : Nat) := BitVec.ofNat 512 (ofLe ((List.range 64).map (fun j => Config.freeByte (s.free + 64 * i + j))))
    let meas := k.meas.take 4 ++ (List.range 4).map (fun i => extendMeas (k.meas.getD (4 + i) 0) (d i))
    let topo := { s.topo with
      present := addOnce s.topo.present p.val, severed := s.topo.severed.filter (· != p.val), widths := dropKey s.topo.widths p.val }
    let s1 : State := { s with free := s.free + 256, topo := topo }
    .next (startChange (s1.setPkg p.val { k with phase := .ready, meas := meas, measLocked := true }))

/-- The load window after the host's bytes, those past its 16 MiB dropped: it is writable in the safe talkative state only (R395). -/
def loadWindow (k : Package) (v : Reload) : Memory :=
  if k.phase = .safeTalkative then Memory.write k.loadWin v.off.toNat (v.bytes.take (2 ^ 24 - v.off.toNat)) else k.loadWin

/-- RELOAD_START: bytes into the load window, then a write to reload control, which starts the reload and is refused outside the safe
talkative state (R395, R399). -/
def execReloadStart (p : PkgId) (v : Reload) (s : State) : Out :=
  let k := s.pkg p.val
  let k1 := { k with loadWin := loadWindow k v }
  if !v.control.getLsbD 0 then .next (s.setPkg p.val k1)
  else if k.phase = .safeTalkative then .next (s.setPkg p.val { k1 with phase := .inReset, useLoad := true, reloadRefused := false })
  else .next (s.setPkg p.val { k1 with reloadRefused := true })

end Sys2Proof.Machine
end

