-- ==== Sys2Proof/Machine/Lanes.lean ====
section
/-! DEFINITION. The issue of V words: operand forms, lanes, results and their landings (R46 to R51, R133 to R141, R194). -/
namespace Sys2Proof.Machine
open Sys2Proof

/-! Elements in lanes (R116, R120). -/

/-- Bits of an element of an integer type code: i32, n32, i16, i8, c8. -/
def widthOf (ty : Nat) : Nat := if ty = 4 then 16 else if ty ≤ 3 then 32 else 8

/-- The integer element that a lane holds: unsigned for n32, signed otherwise (R116, R120). -/
def elemInt (ty : Nat) (x : Lane) : Int :=
  if ty = 3 then x.toNat
  else if ty = 4 then (x.setWidth 16).toInt
  else if ty = 2 then x.toInt
  else (x.setWidth 8).toInt

/-- The low bits of an element as a pattern. -/
def elemBits (ty : Nat) (x : Lane) : Nat := x.toNat % 2 ^ widthOf ty

/-- An integer result in its lane, wrapped to its width and sign-extended (R116, R120). -/
def placeInt (ty : Nat) (v : Int) : Lane :=
  if ty = 4 then (BitVec.ofInt 16 v).signExtend 32
  else if ty ≤ 3 then BitVec.ofInt 32 v
  else (BitVec.ofInt 8 v).signExtend 32

/-- The floating operand that a lane holds; a bf16 element is the upper half (R116). -/
def elemFloat (ty : Nat) (x : Lane) : BitVec 32 := if ty = 1 then x &&& 0xFFFF0000 else x

/-- The 32-bit lanes of a byte list. -/
def lanesOfBytes : Nat → List Byte → List Lane
  | 0, _ => []
  | n + 1, bs => BitVec.ofNat 32 (ofLe (bs.take 4)) :: lanesOfBytes n (bs.drop 4)

/-- The bytes of 32-bit lanes. -/
def bytesOfLanes (xs : List Lane) : List Byte := xs.flatMap (fun x => leBytes x.toNat 4)

/-! Descriptors. -/

/-- Effective index of a strided descriptor among n (R47). -/
def vEff (c : Cell) (d : BitVec 20) (n : Nat) : Nat :=
  (((dIndex d : Int) + dStride d * (c.V.level (dLevel d) : Int)) % (n : Int)).toNat

/-- An immediate as it stands in every lane (R46). -/
def immLane (ty : Nat) (i : BitVec 18) : Lane :=
  if ty ≤ 1 then i.setWidth 32 <<< 14 else if ty = 7 then i.signExtend 32 &&& 3 else i.signExtend 32

/-- An immediate that its type admits: a c8 code or a trit in range (R46). -/
def immOk (ty : Nat) (i : BitVec 18) : Bool :=
  if ty = 6 then decide (-127 ≤ i.toInt ∧ i.toInt ≤ 127) else if ty = 7 then decide (-1 ≤ i.toInt ∧ i.toInt ≤ 1) else true

/-- Which operands of a V word are vectors and which are masks, and whether it reads D or writes a mask (R72). -/
structure VForm where
  S1  : VRole
  S2  : VRole
  acc : Bool := false
  toMask : Bool := false
deriving DecidableEq, Repr

def formUnary : VForm := ⟨.vec, .none, false, false⟩
def formBinary : VForm := ⟨.vec, .vec, false, false⟩
def formAcc : VForm := ⟨.vec, .vec, true, false⟩
def formCompare : VForm := ⟨.vec, .vec, false, true⟩
def formMask2 : VForm := ⟨.msk, .msk, false, true⟩
def formMask1 : VForm := ⟨.msk, .none, false, true⟩
def formOfMask : VForm := ⟨.msk, .none, false, false⟩
def formVecMask : VForm := ⟨.vec, .msk, false, false⟩
def formNone : VForm := ⟨.none, .none, false, false⟩

/-- The queue a source pops, if it is a queue (R48). -/
def popQueue (c : Cell) (r : VRole) (d : BitVec 20) : Option Nat :=
  if r = .vec ∧ dKind d = 1 then some (vEff c d 16) else none

/-- Pop an entry that a word may take, or how the word waits (R136, R164). -/
def popOpt (c : Cell) (q : Option Nat) : Except WaitKind (Option QEntry × Cell) :=
  match q with
  | none => .ok (none, c)
  | some q =>
    match c.headAt q 0 with
    | .ok e => .ok (some e, c.popHead q)
    | .error w => .error w

/-- The entry has the size its descriptor asks for: 512 B, or 8 B in scalar form (R135). -/
def entrySizeOk (d : BitVec 20) (e : Option QEntry) : Bool :=
  match e with
  | none => true
  | some e => e.size == (if dExt d = 1 then 8 else 512)

/-- ReadOperand for every lane (R134). -/
def readVec (c : Cell) (ty : Nat) (d : BitVec 20) (e : Option QEntry) : List Lane :=
  match dKind d with
  | 0 => c.readV (vEff c d 64)
  | 1 =>
    match e with
    | some e =>
      if dExt d = 1 then List.replicate 128 (BitVec.ofNat 32 (ofLe ((c.entryBytes e).take 4)))
      else lanesOfBytes 128 (c.entryBytes e)
    | none => []
  | 2 => List.replicate 128 (immLane ty (dImm d))
  | _ => List.replicate 128 (laneOf (c.readV (dIndex d)) (dLane d))

/-! The scoreboard (R194): the landing cycle of the last issued write to v-registers 0-63, masks 64 + m, the B buffer 80, and
row r of the I part of tile a 96 + 16 a + r, of the F part 160 + 16 a + r. -/

def keyM (m : Nat) : Nat := 64 + m
def keyB : Nat := 80
def keyI (a r : Nat) : Nat := 96 + 16 * a + r
def keyF (a r : Nat) : Nat := 160 + 16 * a + r

/-- A word that issues now writes these items at the cycle given. -/
def noteLands (s : State) (keys : List Nat) (due : Nat) : State :=
  s.upd (fun c => { c with lastLand := keys.foldl (fun m k => insertAt m k due) c.lastLand })

/-- With ENGCTL.check set for an engine's word, a read of an item at a cycle comes before its landing (R86, R194). -/
def earlyRead (c : Cell) (e : Engine) (key cycle : Nat) : Bool :=
  (c.engctlOf e).getLsbD 0 && decide (cycle < lookup 0 c.lastLand key)

/-- The items a source reads. -/
def readKeys (c : Cell) (r : VRole) (d : BitVec 20) : List Nat :=
  match r with
  | .msk => let m := vEff c d 8; if m = 0 then [] else [keyM m]
  | .vec => if dKind d = 0 then [vEff c d 64] else if dKind d = 3 then [dIndex d] else []
  | _ => []

/-- Every item a V word reads at issue (R136, R194). -/
def vKeys (c : Cell) (m : VForm) (f : VFields) : List Nat :=
  readKeys c m.S1 f.S1 ++ readKeys c m.S2 f.S2 ++ (if m.acc then [vEff c f.D 64] else [])
    ++ (if f.mask = 0 then [] else [keyM f.mask.toNat])

/-! What a V word computes. -/

/-- The operands of a V word: the active lanes, S1, S2 and the old D by lane, the mask operands, and the rounding mode. -/
structure VIn where
  c    : Cell
  f    : VFields
  ty   : Nat
  act  : BitVec 128
  a    : List Lane
  b    : List Lane
  d    : List Lane
  ma   : BitVec 128
  mb   : BitVec 128
  mode : RMode

/-- The value of a V word. -/
inductive VVal where
  | lanes (xs : List Lane)
  | bits (m : BitVec 128)
  | truth (b : Bool)

/-- What a V word writes: the lanes written, their values, its flags, and the generators that step (R127, R129, R137). -/
structure VOut where
  write : BitVec 128
  val   : VVal
  flags : Flags := 0
  gens  : List (Nat × BitVec 32) := []

/-- The result of one lane. -/
structure LRes where
  val   : Lane
  flags : Flags := 0
  drew  : Bool := false

def LRes.ofF (r : FRes) : LRes := ⟨r.bits, r.flags, r.drew⟩

/-- The stochastic word of a lane's generator, if the word rounds stochastically (R127). -/
def VIn.next (x : VIn) (i : Nat) : BitVec 32 :=
  if x.mode = 5 then genStep (x.c.generator x.c.epoch (x.c.vctl.extractLsb' 32 32) i) else 0

/-- A result by active lanes; inactive lanes compute nothing. -/
def perLane (x : VIn) (g : Nat → Lane → Lane → Lane → Nat → LRes) : VOut :=
  let rs := (List.range 128).map (fun i =>
    if x.act.getLsbD i then g i (laneOf x.a i) (laneOf x.b i) (laneOf x.d i) (x.next i).toNat else ⟨0, 0, false⟩)
  { write := x.act
    val := .lanes (rs.map (fun r => r.val))
    flags := rs.foldl (fun fl r => fl ||| r.flags) 0
    gens := if x.mode = 5
      then (List.range 128).filterMap (fun i => match rs[i]? with | some r => if r.drew then some (i, x.next i) else none | none => none)
      else [] }

/-- The rounding mode of a V word: rnd 0 selects VCTL.rnd (R126). -/
def vMode (c : Cell) (rnd : BitVec 3) : RMode := if rnd = 0 then (c.vctl.extractLsb' 0 3).toNat else rnd.toNat

/-- The operands of a V word once its entries are known (R133, R134). -/
def vInput (c : Cell) (m : VForm) (f : VFields) (e1 e2 : Option QEntry) : VIn :=
  let ty := f.ty.toNat
  { c := c
    f := f
    ty := ty
    act := if f.minv = 1 then ~~~(c.readM f.mask.toNat) else c.readM f.mask.toNat
    a := if m.S1 = .vec then readVec c ty f.S1 e1 else []
    b := if m.S2 = .vec then readVec c ty f.S2 e2 else []
    d := if m.acc then c.readV (vEff c f.D 64) else []
    ma := if m.S1 = .msk then c.readM (vEff c f.S1 8) else 0
    mb := if m.S2 = .msk then c.readM (vEff c f.S2 8) else 0
    mode := vMode c f.rnd }

/-! Results. -/

/-- The lanes of a value with zeros where nothing is written (R137). -/
def maskLanes (w : BitVec 128) (xs : List Lane) : List Lane :=
  (List.range 128).map (fun i => if w.getLsbD i then laneOf xs i else 0)

/-- The 8 bytes that a scalar push carries (R135). -/
def scalarBytes (ty : Nat) (w : BitVec 128) (xs : List Lane) : List Byte :=
  let x := if w.getLsbD 0 then laneOf xs 0 else 0
  let v : Word := if ty = 2 ∨ ty = 4 ∨ ty = 5 ∨ ty = 6 then x.signExtend 64 else x.setWidth 64
  fitBytes 32 (leBytes v.toNat 8)

/-- Reserve an entry whose bytes land later (R140). -/
def reserveLater (s : State) (q size lat : Nat) (bytes : List Byte) : State :=
  let (id, s1) := s.fresh
  let s2 := s1.upd (fun c => c.reserve q ⟨id, size, c.heat, [], [0], false⟩)
  addLanding s2 lat (.push q id bytes)

/-- WriteResult, at issue plus latency (R137, R139, R140, R148). -/
def writeResult (s : State) (m : VForm) (f : VFields) (lat : Nat) (o : VOut) : State :=
  match o.val with
  | .truth b => addLanding s lat (.pred (dIndex f.D) (some b))
  | .bits x =>
    let r := vEff s.cur f.D 8
    if r = 0 then s else noteLands (addLanding s lat (.mreg r o.write x)) [keyM r] (s.cycle + lat)
  | .lanes xs =>
    if dKind f.D = 1 then
      let q := vEff s.cur f.D 16
      if dExt f.D = 1 then reserveLater s q 8 lat (scalarBytes (if m.S1 = .msk then 2 else f.ty.toNat) o.write xs)
      else reserveLater s q 512 lat (bytesOfLanes (maskLanes o.write xs))
    else
      let r := vEff s.cur f.D 64
      noteLands (addLanding s lat (.vreg r o.write xs)) [r] (s.cycle + lat)

/-- Step the generators that drew (R127). -/
def stepGens (s : State) (gs : List (Nat × BitVec 32)) : State :=
  s.upd (fun c => { c with gens := gs.foldl (fun m g => insertAt m (256 * c.epoch + g.1) g.2) c.gens })

/-- Blocks that a word's push takes, if D is a queue (R135, R211). -/
def pushBlocks (m : VForm) (f : VFields) : Nat :=
  if !m.toMask && dKind f.D == 1 then (if dExt f.D = 1 then 1 else 16) else 0

/-- The FMT conditions that every V word shares: immediates (R46). -/
def immsOk (m : VForm) (f : VFields) : Bool :=
  (m.S1 != .vec || dKind f.S1 != 2 || immOk f.ty.toNat (dImm f.S1)) && (m.S2 != .vec || dKind f.S2 != 2 || immOk f.ty.toNat (dImm f.S2))

/-- The effect of a V word whose guard is true: waits, checks in the order of R136, pops, result. -/
def vBody (m : VForm) (lat : Nat) (fmtOk : VIn → Bool) (run : VIn → VOut) (f : VFields) (s : State) : VRes :=
  let c := s.cur
  match popOpt c (popQueue c m.S1 f.S1) with
  | .error w => .stay w
  | .ok (e1, c1) =>
    match popOpt c1 (popQueue c m.S2 f.S2) with
    | .error w => .stay w
    | .ok (e2, c2) =>
      let q := vEff c f.D 16
      let nb := pushBlocks m f
      let tooLarge := nb ≠ 0 ∧ c.qcapOf q < nb
      if nb ≠ 0 ∧ ¬tooLarge ∧ !c2.canDraw q nb then .stay .draw
      else if (vKeys c m f).any (fun k => earlyRead c .V k s.cycle) then .trap .stallShort
      else if tooLarge ∨ !entrySizeOk f.S1 e1 ∨ !entrySizeOk f.S2 e2 then .trap .qsize
      else
        let x := vInput c m f e1 e2
        if !immsOk m f ∨ !fmtOk x then .trap .fmt
        else
          let o := run x
          let s1 := stepGens (writeResult (s.setCell s.me c2) m f lat o) o.gens
          .done (if o.flags = 0 then s1 else addLanding s1 lat (.ast (astV o.flags)))

/-- THE ISSUE OF A V WORD. A word with rnd 0 or 5 reads VCTL (R86). -/
def vWord (m : VForm) (lat dest : Nat) (fmtOk : VIn → Bool) (run : VIn → VOut) (f : VFields) (s : State) : Out :=
  .next (vStep .V f.pg 3 f.stall.toNat (if f.rnd = 0 ∨ f.rnd = 5 then [shVctl] else []) dest (vBody m lat fmtOk run f) s)

/-- A V word with no check and no predicate of its own. -/
def vPlain (m : VForm) (lat : Nat) (run : VIn → VOut) (f : VFields) (s : State) : Out :=
  vWord m lat 0 (fun _ => true) run f s

/-- Latency of an operation of floating or integer type (R139 Table 1). -/
def latArith (f : VFields) : Nat := if f.ty.toNat ≤ 1 then 4 else 2

end Sys2Proof.Machine
end

