-- ==== Sys2Proof/Machine/Matrix.lean ====
section
/-! DEFINITION. The meanings of the M words (R157 to R173) and the landing of V and M results (R139, R161, R163). -/
namespace Sys2Proof.Machine
open Sys2Proof

/-! Tiles, the B buffer and format entries. -/

def Cell.tile (c : Cell) (a : Nat) : Tile := readTag c.heat Tile.zero c.accs a
def Cell.setTile (c : Cell) (a : Nat) (t : Tile) : Cell := { c with accs := writeTag c.heat c.accs a t }
def Cell.modTile (c : Cell) (a : Nat) (f : Tile → Tile) : Cell := c.setTile a (f (c.tile a))
def Cell.bBuffer (c : Cell) : BBuf := if c.bbuf.heat = c.heat then c.bbuf.val else BBuf.zero

/-- The columns of the enabled groups (R158). -/
def colsOf (f : MFields) : BitVec 128 := maskOf (fun n => f.cols.getLsbD (n / 16))

def rowsOf (f : MFields) : Nat := f.rowsm1.toNat + 1

/-- The word covers the whole tile. -/
def wholeTile (f : MFields) : Bool := f.rowsm1 == 15 && f.cols == 255

/-- Element n of an I or F row. -/
def colI (r : List (BitVec 48)) (n : Nat) : Int := (r.getD n 0).toInt
def colF (r : List (BitVec 32)) (n : Nat) : BitVec 32 := r.getD n 0

/-- A row with the columns of a mask replaced. -/
def mixRow {α : Type} (z : α) (cols : BitVec 128) (old new : List α) : List α :=
  (List.range 128).map (fun n => if cols.getLsbD n then new.getD n z else old.getD n z)

/-- Fields of a format entry (R347 Table 6). -/
def fmtC8 (e : BitVec 128) : Bool := e.getLsbD 0
def fmtCurve (e : BitVec 128) : Nat := fieldOf e.toNat 5 3
def fmtPlanes (e : BitVec 128) : Nat := fieldOf e.toNat 8 6
def fmtGroup (e : BitVec 128) : Nat := fieldOf e.toNat 20 9 + 1
def fmtSaSrc (e : BitVec 128) : Nat := fieldOf e.toNat 22 21
def fmtSbSrc (e : BitVec 128) : Nat := fieldOf e.toNat 24 23
def fmtBf16 (e : BitVec 128) : Bool := e.getLsbD 25
def fmtRnd (e : BitVec 128) : Nat := fieldOf e.toNat 28 26
def fmtSa (e : BitVec 128) : BitVec 20 := e.extractLsb' 64 20
def fmtSb (e : BitVec 128) : BitVec 20 := e.extractLsb' 84 20

/-- A table scale that is read must not have exponent 255. -/
def tableScaleOk (src : Nat) (x : BitVec 20) : Bool := src != 1 || x.extractLsb' 12 8 != 255

/-- An entry is valid (R348). -/
def fmtValid (e : BitVec 128) : Bool :=
  e.getLsbD 31 && fieldOf e.toNat 127 104 == 0 && fieldOf e.toNat 63 32 == 0 && fieldOf e.toNat 30 29 == 0
    && fieldOf e.toNat 2 1 == 0 && fmtSaSrc e != 3 && fmtSbSrc e != 3 && decide (1 ≤ fmtPlanes e ∧ fmtPlanes e ≤ 6) && decide (1 ≤ fmtRnd e ∧ fmtRnd e ≤ 5)
    && (fmtC8 e || fmtCurve e == 0) && tableScaleOk (fmtSaSrc e) (fmtSa e) && tableScaleOk (fmtSbSrc e) (fmtSb e)

/-- The format entry that a word selects, if it is valid (R160). -/
def formatEntry (c : Cell) (f : MFields) : Option (BitVec 128) :=
  let i := (c.M.level f.fmtl.toNat + f.fmtb.toNat + c.fmtbase.toNat) % 16
  let e := lookup 0 c.formats i
  if fmtValid e then some e else none

/-- A landing with a given cycle and place in issue order. -/
def landAt (c : Cell) (due seq : Nat) (k : LandKind) : Cell := { c with landings := c.landings ++ [⟨due, seq, k⟩] }

/-- The issue of an M word. -/
def mWord (reads : List Nat) (body : State → VRes) (f : MFields) (s : State) : Out :=
  .next (vStep .M f.pg 6 f.stall.toNat reads 0 body s)

/-! Landing (R139, R140, R161). -/

/-- The write of an `mtsr` takes effect (R102). ENGCTL as a word before a trap wrote it is kept for the words before the trap. -/
def landCtrl (l : Landing) (r : Nat) (v : Word) (n : Nat) (c : Cell) : Cell :=
  match c.saved with
  | some sv =>
    if r = 0 ∧ l.seq < sv.before then
      { c with engctl := v.setWidth 3, saved := some { sv with engPast := (n, c.engctl) :: sv.engPast } }
    else (srCell c l.due r v n).getD c
  | none => (srCell c l.due r v n).getD c

/-- A landing's write takes place. -/
def applyLanding (l : Landing) (c : Cell) : Cell :=
  match l.what with
  | .vreg r lanes xs => c.writeV r lanes xs
  | .mreg r lanes bits => c.writeM r lanes bits
  | .pred p v => (match v with | some b => c.writeP p b | none => c).landShared l.seq p
  | .push _ id bs => c.modEntry id (fun e => { e with bytes := bs, missing := [] })
  | .ast b => c.raiseAst l.due b
  | .areg r v b => let c1 := (c.writeA r v).unpend r; if b = 0 then c1 else c1.raiseAst l.due b
  | .ctrl r v n => landCtrl l r v n c
  | .bbuf cols rows plane =>
    let old := c.bBuffer
    let mask : BitVec 256 := BitVec.ofNat 256 ((setLanes cols).foldl (fun a n => a + 3 * 4 ^ n) 0)
    let row (k : Nat) : Nat × BitVec 256 := (k, (rows.getD k 0 &&& mask) ||| (lookup 0 old.rows k &&& ~~~mask))
    { c with bbuf := ⟨c.heat, ⟨(List.range 64).map row, plane⟩⟩ }
  | .counters a st h => c.modTile a (fun t => { t with steps := st, horners := h })
  | .irow a r cols xs => c.modTile a (fun t => { t with irows := insertAt t.irows r (mixRow 0 cols (lookup [] t.irows r) xs) })
  | .frow a r cols xs => c.modTile a (fun t => { t with frows := insertAt t.frows r (mixRow 0 cols (lookup [] t.frows r) xs) })
  | .zeroTile a cols reset =>
    c.modTile a (fun t => { t with
      irows := mapVals (fun r => mixRow 0 cols r []) t.irows, frows := mapVals (fun r => mixRow 0 cols r []) t.frows
      steps := if reset then 0 else t.steps, horners := if reset then 0 else t.horners })
  | .stepRead .. => c
  | .drainRead .. => c

/-- An I element after one step (R167): modes add, sub, horner3, over. -/
def stepElem (mode : BitVec 2) (old s : Int) : Int :=
  if mode = 0 then old + s else if mode = 1 then old - s else if mode = 2 then 3 * old + s else s

/-- What a drain makes of one element, with its flags and whether a generator stepped (R170 Table 5). -/
def drainF (dtype : Nat) (cv : Option Curve) (mode : RMode) (x : BitVec 32) (rnd : Nat) : LRes :=
  if dtype = 0 then ⟨x, 0, false⟩
  else if dtype = 1 then
    match fval x with
    | .fin s m e => .ofF (roundDy 8 mode (FVal.fin s m e).dyadic s rnd)
    | .inf s => .ofF (infRes s)
    | .nan _ => ⟨canonicalNaN, 0, false⟩
  else if dtype = 6 then
    match cv with
    | some cv => let q := quantise cv x 0x3F800000 mode rnd; ⟨placeInt 6 q.1, q.2.1, q.2.2⟩
    | none => ⟨0, 0, false⟩
  else
    let lim := typeRange dtype
    match fval x with
    | .inf s => ⟨placeInt dtype (if s then lim.1 else lim.2), fNV, false⟩
    | .nan _ => ⟨0, fNV, false⟩
    | .fin s m e =>
      let d := (FVal.fin s m e).dyadic
      let r := roundInt mode s d.num d.den rnd
      let k := saturate lim.1 lim.2 r.1
      ⟨placeInt dtype k.1, (if r.2 then fNX else 0) ||| satFlag k.2, r.2⟩

def drainI (dtype : Nat) (cv : Option Curve) (mode : RMode) (x : Int) (rnd : Nat) : LRes :=
  let rounded (p : Nat) (m : RMode) (n : Nat) : FRes := roundFrac p m (decide (x < 0)) x.natAbs 1 n
  if dtype = 0 then .ofF (rounded 24 mode rnd)
  else if dtype = 1 then .ofF (rounded 8 mode rnd)
  else if dtype = 6 then
    match cv with
    | some cv =>
      let y := rounded 24 1 0
      let q := quantise cv y.bits 0x3F800000 mode rnd
      ⟨placeInt 6 q.1, y.flags ||| q.2.1, q.2.2⟩
    | none => ⟨0, 0, false⟩
  else
    let k := saturate (typeRange dtype).1 (typeRange dtype).2 x
    ⟨placeInt dtype k.1, satFlag k.2, false⟩

/-- The stochastic word of a column's generator in the seeding a word reads (R127). -/
def columnNext (c : Cell) (mode : RMode) (epoch : Nat) (seed : BitVec 32) (n : Nat) : BitVec 32 :=
  if mode = 5 then genStep (c.generator epoch seed (128 + n)) else 0

/-- Keep the steps of column generators that drew. -/
def stepColumns (c : Cell) (epoch : Nat) (ds : List (Nat × BitVec 32)) : Cell :=
  { c with gens := ds.foldl (fun m d => insertAt m (256 * epoch + 128 + d.1) d.2) c.gens }

/-- The generators that step for a row of results. -/
def drawn (mode : RMode) (rs : List LRes) (next : Nat → BitVec 32) : List (Nat × BitVec 32) :=
  if mode = 5 then (List.range 128).filterMap (fun n => match rs[n]? with | some r => if r.drew then some (n, next n) else none | none => none)
  else []

/-- A row that an M word reads at its cycle, and what lands from it later (R161). -/
def applyRead (l : Landing) (c : Cell) : Cell :=
  match l.what with
  | .stepRead a r mode cols sums =>
    let old := lookup [] (c.tile a).irows r
    let new := (List.range 128).map (fun n => BitVec.ofInt 48 (stepElem mode (colI old n) (sums.getD n 0)))
    landAt c (l.due + 7) l.seq (.irow a r cols new)
  | .drainRead a r fromI cols q id dtype curve mode zero epoch seed flagsAt =>
    let t := c.tile a
    let cv := find? c.curves curve
    let next := columnNext c mode epoch seed
    let one (n : Nat) : LRes :=
      if !cols.getLsbD n then ⟨0, 0, false⟩
      else if fromI then drainI dtype cv mode (colI (lookup [] t.irows r) n) (next n).toNat
      else drainF dtype cv mode (colF (lookup [] t.frows r) n) (next n).toNat
    let rs := (List.range 128).map one
    let fl := rs.foldl (fun f r => f ||| r.flags) 0
    let c1 := stepColumns c epoch (drawn mode rs next)
    let c2 := landAt c1 (l.due + 5) l.seq (.push q id (rs.flatMap (fun r => leBytes r.val.toNat 4)))
    let c3 := if fl = 0 then c2 else landAt c2 flagsAt l.seq (.ast (astM fl))
    if !zero then c3
    else landAt c3 (l.due + 1) l.seq (if fromI then .irow a r cols [] else .frow a r cols [])
  | _ => c

/-- Whether a landing is a row read rather than a write. -/
def isRowRead : LandKind → Bool
  | .stepRead .. => true
  | .drainRead .. => true
  | _ => false

/-- Landings in the order they apply: by cycle, then by issue (R161). -/
def landBefore (a b : Landing) : Bool := decide (a.due < b.due) || (a.due == b.due && decide (a.seq ≤ b.seq))

def insertLanding (l : Landing) : List Landing → List Landing
  | [] => [l]
  | m :: r => if landBefore m l then m :: insertLanding l r else l :: m :: r

def sortLandings (ls : List Landing) : List Landing := ls.foldl (fun r l => insertLanding l r) []

/-- Every landing whose cycle has come takes place: the writes, then the row reads of that cycle (R161). -/
def landDue (cycle : Nat) (c : Cell) : Cell :=
  let due := c.landings.filter (fun l => decide (l.due ≤ cycle))
  let c1 := { c with landings := c.landings.filter (fun l => !decide (l.due ≤ cycle)) }
  let c2 := (sortLandings (due.filter (fun l => !isRowRead l.what))).foldl (fun c l => applyLanding l c) c1
  (sortLandings (due.filter (fun l => isRowRead l.what))).foldl (fun c l => applyRead l c) c2

/-- The last cycle in which a stochastic drain of the present seeding reads a row, if one is still to be read. -/
def drawsUntil (c : Cell) : Option Nat :=
  c.landings.foldl (fun m l => match l.what with
    | .drainRead _ _ _ _ _ _ _ _ mode _ e _ _ => if mode = 5 ∧ e = c.epoch then some (max l.due (m.getD 0)) else m
    | _ => m) none

/-- Column generators step in the order the words issue (R127): before a later word draws, the rows that a drain has still to
read draw in a forecast of its remaining cycles, and the later word goes on from there (notes/assumptions/35.md). -/
def settleDraws (cycle : Nat) (c : Cell) : Cell :=
  match drawsUntil c with
  | none => c
  | some last =>
    let f := (List.range (last - cycle)).foldl (fun c k => landDue (cycle + 1 + k) c) c
    let mine := f.gens.filter (fun e => decide (256 * c.epoch ≤ e.1) && decide (e.1 < 256 * (c.epoch + 1)))
    { c with epoch := c.epoch + 1, gens := mine.foldl (fun m e => insertAt m (e.1 + 256) e.2) c.gens }

/-- The AGE registers that landings due in a cycle write (R84, R102). -/
def landAges (s : State) (ix : Nat) : List Landing → State
  | [] => s
  | l :: ls =>
    let t := match l.what with
      | .ctrl r v _ => if l.due ≤ s.cycle then setAge s ix r v else s
      | _ => s
    landAges t ix ls

/-- Results of V and M words reach the registers and queues of a cell, and writes of control registers take effect. -/
def execResultLanding (cell : CellId) (s : State) : Out :=
  let ix := cellIx cell
  .next ((landAges s ix (s.cell ix).landings).modCell ix (landDue s.cycle))

/-! mldb (R166). -/

/-- Row k of a B tile as 128 t2 codes. -/
def tileRow (bs : List Byte) (k : Nat) : BitVec 256 := BitVec.ofNat 256 (ofLe ((bs.drop (32 * k)).take 32))

/-- The code of column n in a row of the buffer. -/
def rowCode (row : BitVec 256) (n : Nat) : BitVec 2 := row.extractLsb' (2 * n) 2

def mldbBody (f : MFields) (s : State) : VRes :=
  let c := s.cur
  match popOpt c (some f.bq.toNat) with
  | .error w => .stay w
  | .ok (none, _) => .trap .fmt
  | .ok (some e, c1) =>
    if e.size ≠ 2048 then .trap .qsize
    else
      match formatEntry c f with
      | none => .trap .fmt
      | some fe =>
        let bs := c.entryBytes e
        let rows := (List.range 64).map (tileRow bs)
        let cols := colsOf f
        if fmtPlanes fe ≤ f.plane.toNat ∨ rows.any (fun r => (setLanes cols).any (fun n => rowCode r n == 2)) then .trap .fmt
        else .done (noteLands (addLanding (s.setCell s.me c1) 8 (.bbuf cols rows f.plane.toNat)) [keyB] (s.cycle + 8))

def execMldb (f : MFields) (s : State) : Out := mWord [shFmt] (mldbBody f) f s

/-! mstep (R167). -/

/-- Aval of a byte under a format entry, none for the reserved code (R159). -/
def aval (fe : BitVec 128) (cv : Option Curve) (b : Byte) : Option Int :=
  if !fmtC8 fe then some b.toInt
  else if b = 0x80 then none
  else match cv with
    | some cv => some (expandCode cv b.toInt)
    | none => none

/-- The trit of a code that `mldb` has admitted. -/
def tritOf (c : BitVec 2) : Int := match codeTrit c with | some t => t | none => 0

/-- The sums of a row over the buffer, by column (R167). -/
def stepSums (b : BBuf) (cols : BitVec 128) (row : List Int) : List Int :=
  (List.range 128).map (fun n =>
    if cols.getLsbD n then (List.range 64).foldl (fun a k => a + row.getD k 0 * tritOf (rowCode (lookup 0 b.rows k) n)) 0 else 0)

/-- Rows 0 to n - 1 of an A block. -/
def avalRows (fe : BitVec 128) (cv : Option Curve) (bs : List Byte) (n : Nat) : List (List (Option Int)) :=
  (List.range n).map (fun r => (List.range 64).map (fun k => aval fe cv (byteAt bs (64 * r + k))))

/-- The counters after a step, or none past the limits of the entry (R167). -/
def stepCounters (f : MFields) (fe : BitVec 128) (t : Tile) : Option (Nat × Nat) :=
  if f.amode = 3 ∧ wholeTile f then some (1, 0)
  else
    let ns := t.steps + 1
    let nh := t.horners + (if f.amode = 2 then 1 else 0)
    if fmtGroup fe * fmtPlanes fe < ns ∨ fmtPlanes fe < nh then none else some (ns, nh)

/-- The landings of rows r.. of a step; row 0 is read at issue, row r is read r cycles later. -/
def stepRows (s : State) (f : MFields) (cols : BitVec 128) (sums : List (List Int)) : State :=
  let a := f.acc.toNat
  let (seq, s1) := s.fresh
  let add (c : Cell) (r : Nat) : Cell :=
    let l : Landing := ⟨s.cycle + r, seq, .stepRead a r f.amode cols (sums.getD r [])⟩
    if r = 0 then applyRead l c else { c with landings := c.landings ++ [l] }
  s1.upd (fun c => (List.range (rowsOf f)).foldl add c)

def mstepBody (f : MFields) (s : State) : VRes :=
  let c := s.cur
  let a := f.acc.toNat
  if s.cycle < c.arrayFree then .stay .external
  else
    match popOpt c (some f.aq.toNat) with
    | .error w => .stay w
    | .ok (none, _) => .trap .fmt
    | .ok (some e, c1) =>
      if earlyRead c .M keyB s.cycle ∨ (f.amode ≠ 3 ∧ (List.range (rowsOf f)).any (fun r => earlyRead c .M (keyI a r) (s.cycle + r))) then .trap .stallShort
      else if e.size ≠ 1024 then .trap .qsize
      else
        match formatEntry c f with
        | none => .trap .fmt
        | some fe =>
          let cv := find? c.curves (fmtCurve fe)
          let b := c.bBuffer
          if fmtPlanes fe ≤ f.plane.toNat ∨ f.plane.toNat ≠ b.plane ∨ (fmtC8 fe ∧ cv.isNone) then .trap .fmt
          else
            match stepCounters f fe (c.tile a) with
            | none => .trap .fmt
            | some (ns, nh) =>
              let vals := avalRows fe cv (c.entryBytes e) (rowsOf f)
              if vals.any (fun row => row.any (fun v => v.isNone)) then .trap .fmt
              else
                let cols := colsOf f
                let sums := vals.map (fun row => stepSums b cols (row.map (fun v => match v with | some x => x | none => 0)))
                let s1 := stepRows (s.setCell s.me { c1 with arrayFree := s.cycle + rowsOf f }) f cols sums
                let s2 := (List.range (rowsOf f)).foldl (fun s r => noteLands s [keyI a r] (s.cycle + 7 + r)) s1
                .done (addLanding s2 7 (.counters a ns nh))

def execMstep (f : MFields) (s : State) : Out := mWord [shFmt] (mstepBody f) f s

/-! mfold (R169). -/

/-- F + I x sA x sB rounded once (R169); an infinite F stays. -/
def foldElem (p : Nat) (mode : RMode) (x : BitVec 32) (i : Int) (sa sb : Dyadic) (rnd : Nat) : LRes :=
  match fval x with
  | .fin sg m e =>
    let add := Dyadic.mul ⟨i, 0⟩ (Dyadic.mul sa sb)
    let v := Dyadic.add (FVal.fin sg m e).dyadic add
    -- -0 + 0 is +0 but under rdn; an exact cancellation is +0 but under rdn
    let zneg := if add.m = 0 then sg && mode == 3 else mode == 3
    .ofF (roundDy p mode v zneg rnd)
  | .inf _ => ⟨x, 0, false⟩
  | .nan _ => ⟨x, 0, false⟩

/-- A scale from its source: inline, table, or a popped entry whose upper bits must be zero (R169). -/
def scaleFrom (src : Nat) (inl tab : BitVec 20) (c : Cell) (e : Option QEntry) : Option Dyadic :=
  if src = 0 then scaleValue inl
  else if src = 1 then scaleValue tab
  else
    match e with
    | some e =>
      let w := wordAt (c.entryBytes e) 0
      if wf64 w 63 20 = 0 then scaleValue (w.setWidth 20) else none
    | none => none

/-- The entry popped for a scale is 8 bytes. -/
def scaleSizeOk (e : Option QEntry) : Bool := match e with | some e => e.size == 8 | none => true

/-- Fold row r: its results and the cell with the generators stepped. -/
def foldRow (f : MFields) (fe : BitVec 128) (sa sb : Dyadic) (cols : BitVec 128) (c : Cell) (r : Nat) : List LRes × Cell :=
  let t := c.tile f.acc.toNat
  let mode := fmtRnd fe
  let next := columnNext c mode c.epoch (c.vctl.extractLsb' 32 32)
  let rs := (List.range 128).map (fun n =>
    if cols.getLsbD n then foldElem (if fmtBf16 fe then 8 else 24) mode (colF (lookup [] t.frows r) n) (colI (lookup [] t.irows r) n) sa sb (next n).toNat
    else ⟨0, 0, false⟩)
  (rs, stepColumns c c.epoch (drawn mode rs next))

/-- Fold n rows from row r, with their landings and flags. -/
def foldRows (f : MFields) (fe : BitVec 128) (sa sb : Dyadic) (cols : BitVec 128) : Nat → Nat → State × Flags → State × Flags
  | 0, _, x => x
  | n + 1, r, (s, fl) =>
    let a := f.acc.toNat
    let y := foldRow f fe sa sb cols s.cur r
    let s1 := s.setCell s.me y.2
    let s2 := addLanding s1 10 (.frow a r cols (y.1.map (fun x => x.val)))
    let s3 := noteLands (addLanding s2 10 (.irow a r cols [])) [keyI a r, keyF a r] (s.cycle + 10)
    foldRows f fe sa sb cols n (r + 1) (s3, y.1.foldl (fun fl x => fl ||| x.flags) fl)

def mfoldBody (f : MFields) (s : State) : VRes :=
  let c := s.cur
  let a := f.acc.toNat
  let early := (List.range (rowsOf f)).any (fun r => earlyRead c .M (keyI a r) s.cycle || earlyRead c .M (keyF a r) s.cycle)
  match formatEntry c f with
  | none => .trap (if early then .stallShort else .fmt)
  | some fe =>
    match popOpt c (if fmtSaSrc fe = 2 then some f.aq.toNat else none) with
    | .error w => .stay w
    | .ok (ea, c1) =>
      match popOpt c1 (if fmtSbSrc fe = 2 then some f.bq.toNat else none) with
      | .error w => .stay w
      | .ok (eb, c2) =>
        if early then .trap .stallShort
        else if !scaleSizeOk ea ∨ !scaleSizeOk eb then .trap .qsize
        else
          match scaleFrom (fmtSaSrc fe) f.sa (fmtSa fe) c ea, scaleFrom (fmtSbSrc fe) f.sb (fmtSb fe) c eb with
          | some sa, some sb =>
            let c3 := if fmtRnd fe = 5 then settleDraws s.cycle c2 else c2
            let y := foldRows f fe sa sb (colsOf f) (rowsOf f) 0 (s.setCell s.me c3, 0)
            let s1 := if wholeTile f then addLanding y.1 10 (.counters a 0 0) else y.1
            .done (if y.2 = 0 then s1 else addLanding s1 10 (.ast (astM y.2)))
          | _, _ => .trap .fmt

/-- `mfold` reads FMTBASE, and VCTL once its entry is valid: a word with an invalid one faults without that wait (R164). -/
def execMfold (f : MFields) (s : State) : Out :=
  mWord (if (formatEntry s.cur f).isSome || !s.cur.mayRead .M shFmt then [shFmt, shVctl] else [shFmt]) (mfoldBody f) f s

/-! mdrain, mdraini (R170). -/

/-- Reserve the entries of a drain and read or schedule its rows. -/
def drainRows (fromI : Bool) (f : MFields) (s : State) : State :=
  let a := f.acc.toNat
  let mode := if f.drnd = 0 then (s.cur.vctl.extractLsb' 0 3).toNat else f.drnd.toNat
  let (seq, s0) := s.fresh
  (List.range (rowsOf f)).foldl (fun s1 r =>
    let (id, s2) := s1.fresh
    s2.upd (fun c =>
      let c1 := c.reserve f.dq.toNat ⟨id, 512, c.heat, [], [0], false⟩
      let l : Landing := ⟨s.cycle + r, seq, .drainRead a r fromI (colsOf f) f.dq.toNat id f.dtype.toNat f.curve.toNat mode (f.zero == 1)
        c.epoch (c.vctl.extractLsb' 32 32) (s.cycle + rowsOf f + 4)⟩
      if r = 0 then applyRead l c1 else { c1 with landings := c1.landings ++ [l] })) s0

/-- A drain word (R170, R172). Zero-after over the whole tile clears steps and horners when the last row has been read, rows cycles
after the issue: Table 3 names no landing cycle for it (DESIGN CHOICE, notes/assumptions/65.md). -/
def drainBody (fromI : Bool) (f : MFields) (s : State) : VRes :=
  let c := s.cur
  let a := f.acc.toNat
  let q := f.dq.toNat
  let n := rowsOf f
  let key := if fromI then keyI a else keyF a
  let tooLarge : Bool := decide (c.qcapOf q < 16)
  if s.cycle < c.drainFree then .stay .external
  else if !tooLarge ∧ !c.canDraw q (16 * n) then .stay .draw
  else if (List.range n).any (fun r => earlyRead c .M (key r) (s.cycle + r)) then .trap .stallShort
  else if tooLarge then .trap .qsize
  else if f.dtype = 6 ∧ (find? c.curves f.curve.toNat).isNone then .trap .fmt
  else
    let s1 := drainRows fromI f (s.setCell s.me { c with drainFree := s.cycle + n })
    let s2 := if f.zero = 1 then (List.range n).foldl (fun s r => noteLands s [key r] (s.cycle + r + 1)) s1 else s1
    .done (if fromI && f.zero == 1 && wholeTile f then addLanding s2 n (.counters a 0 0) else s2)

def execMdrain (f : MFields) (s : State) : Out := mWord [shVctl] (drainBody false f) f s

def execMdraini (f : MFields) (s : State) : Out := mWord [shVctl] (drainBody true f) f s

/-! mzero (R171). -/

def execMzero (f : MFields) (s : State) : Out :=
  mWord [] (fun s =>
    if f.cols = 0 then .done s
    else
      let a := f.acc.toNat
      let keys := (List.range 16).flatMap (fun r => [keyI a r, keyF a r])
      .done (noteLands (addLanding s 2 (.zeroTile a (colsOf f) (f.cols == 255))) keys (s.cycle + 2))) f s

end Sys2Proof.Machine
end

