-- ==== Sys2Proof/Machine/Stow.lean ====
section
/-! DEFINITION. Pre-emption and the return of a strand (R201 to R207, R439): the halt, the stow, the restore, and results that arrive while a strand is stowed. -/
namespace Sys2Proof.Machine
open Sys2Proof

/-! The halt (R201, R202). -/

/-- An operation that pre-emption abandons: a load whose data have not returned; those of a held access that wait with it stay held. -/
def abandons (ix : Nat) (c : Cell) (o : MemOp) : Bool :=
  (match o.kind with
   | .load _ _ | .kload _ | .fill _ _ _ _ => true
   | _ => false) && o.bound != .out && !c.isHeld ix o.id

/-- Loads become reissue records; a `pld` read is parked; a `kinf` that waits is given up. A load keeps the site it was given, so
that it stays in order with the strand's other accesses (R309); its reissue is checked anew (R439). -/
def abandonLoads (s : State) (ix : Nat) : State :=
  let c := s.cell ix
  let mine (id : Nat) := (c.op? id).isSome
  let read (r : PoolReq) := mine r.id && (match r.op with | .read _ _ _ _ => true | _ => false)
  let gone (id : Nat) := c.ops.any (fun o => o.id == id && abandons ix c o) || s.reqs.any (fun r => r.id == id && read r)
  let s1 : State := { s with reqs := s.reqs.map (fun r => if read r then { r with
    stage := .parked, answer := .none, tries := 0, op := r.op.anew } else r) }
  let s2 := s1.modPkg (pkgOfCell ix) (fun p => { p with ringSlots := p.ringSlots.filter (fun x => !gone x.id) })
  let c1 := { c with ops := c.ops.map (fun o => if abandons ix c o then { o with
    reissue := true, missed := none, tries := 0, leg := .out, performed := false, reply := none } else o) }
  match c.joined with
  | some id => dropReq (s2.setCell ix { c1.dropOp id with joined := none }) id
  | none => s2.setCell ix c1

/-- A ring grant that came before the halt stands: its word has completed (R379), and the die counts it (R382). -/
def takeGrant (s : State) (ix : Nat) : State :=
  let c := s.cell ix
  match c.granted with
  | some g => (s.setCell ix { c.writeA g.reg g.val with
      granted := none, ringAt := none, A := { c.A with pc := c.A.pc + 4, wait := .none }, iret := c.iret + 1 }).count (dieOfCell ix) 1
  | none => s

/-- A `bar.wait` that no engine has passed is given up (R372). -/
def dropWait (c : Cell) : Cell :=
  match c.barWait with
  | some w =>
    if !w.sync && c.expects .V 15 == c.expects .A 15 && c.expects .M 15 == c.expects .A 15
    then { c with barWait := none, pendP15 := false } else c
  | none => c

/-- The reserved slot of a cell returns to the list. -/
def unreserve (s : State) (ix : Nat) : State := s.modDie (dieOfCell ix) (fun d => { d with reserved := dropKey d.reserved ix })

/-- Once no strand of a share is leaving any more, those it has stowed together get one restore entry (R252): a strand whose stow has
become a fault stow gets none, and does not keep its siblings from theirs. The entry joins the ready pool even where the pool holds 4096
(DESIGN CHOICE, notes/assumptions/68.md). -/
def returnShare (s : State) (die : Nat) (h : Word) : State :=
  let d := s.die die
  let listed (k : Nat) := (d.ready ++ d.restoring).any (fun e => e.restore.contains k)
  match (if shareLeaving s die h then [] else d.stowed.filter (fun y =>
      y.handle == h && (y.cause == .classPreemption || y.cause == .systemRequest) && !listed y.slot)) with
  | [] => s
  | x :: xs => s.modDie die (fun d => { d with ready := d.ready ++
      [⟨h, x.ctx.cls, s.cycle, s.cycle, x.ctx.dpoint, xs.length + 1, (x :: xs).map (·.slot)⟩] })

/-- PREEMPTION: a strand asked to halt halts: its loads become reissue records and its waits are given up (R201, R202). A
request is ignored once all engines are at `end` (R203). -/
def execPreemption (cid : CellId) (cause : StowCause) (s : State) : Out :=
  let ix := cellIx cid
  let c := s.cell ix
  if isCmd ix ∨ c.status ≠ .halting ∨ c.preempt ≠ some cause then .next s
  else if ended c ∧ cause ≠ .fault then
    .next (returnShare ((unreserve s ix).modCell ix (fun c => { c with status := .running, preempt := none })) (dieOfCell ix) c.handle)
  else
    let s0 := s.count (dieOfCell ix) 18
    let s1 := if c.granted.isSome then takeGrant s0 ix else leaveRing s0 ix
    .next (abandonLoads (s1.modCell ix (fun c => { dropWait c with status := .stowing })) ix)

/-! The stow (R204, R205). -/

/-- The first deferred fault that reached the strand before the halt is recorded, once its record has room, and the stow is a fault stow
(R203, R255). FAULTC and FAULTV keep the fault recorded first (R197). -/
def lateFault (s : State) (ix : Nat) : State :=
  let c := s.cell ix
  match c.reports with
  | [] => s
  | r :: rs =>
    if !recordRoom s (recordDie s ix) then s
    else
      let fc := faultWord 0 (codeNum r.code) false
      let s1 := appendRecord s (recordDie s ix) (recordOf s ix 0 fc r.val (offsetOf c 0))
      let first := c.preempt != some .fault
      { s1 with nextId := s1.nextId + 1 }.modCell ix (fun c => { c with
        reports := rs, preempt := some .fault
        faultc := if first then fc else c.faultc, faultv := if first then r.val else c.faultv
        stopped := if first then s.nextId else c.stopped })

/-- What a stow leads to: a strand that yielded gets its own entry; else its share may be complete (R252). -/
def afterStow (s : State) (die : Nat) (x : Stowed) : State :=
  if x.cause = .yield then s.modDie die (fun d => { d with ready := d.ready ++
    [⟨x.handle, x.ctx.cls, s.cycle, s.cycle, x.ctx.dpoint, 1, [x.slot]⟩] })
  else returnShare s die x.handle

/-- Clear the request for a share whose strands are all stowed, and show that some strand is stowed (R359, R360). -/
def markStowed (s : State) (die : Nat) (h : Word) : State :=
  match taskOf s h with
  | some t =>
    let req := if (shareCells s die h).isEmpty then t.request &&& ~~~BitVec.ofNat 8 (2 ^ (die % 8)) else t.request
    setTask s h { t with stowed := true, request := req }
  | none => s

/-- Stow a halted strand into its slot and free its cell. -/
def stowStrand (s : State) (ix slot : Nat) (cause : StowCause) : State :=
  let die := dieOfCell ix
  let c := s.cell ix
  let ctx := { c with A := saveEngine s.cycle c.A, V := saveEngine s.cycle c.V, M := saveEngine s.cycle c.M }
  let x : Stowed := ⟨slot, cause, c.fault.isSome, true, strandReg ix c, c.handle, ix, s.cycle - c.resetAt, ctx⟩
  let s1 := writeSlot s die x (stowImage s x)
  let s2 := moveClaims (moveClaims s1 (pkgOfCell ix) (claimKey die slot) none) (pkgOfCell ix) ix (some (claimKey die slot))
  let s3 := s2.modDie die (fun d => { markSlot d slot true (hIndex c.handle) with
    stowed := d.stowed ++ [x], reserved := dropKey d.reserved ix
    copies := d.copies.map (fun k => if k.cell = ix ∧ !k.orphan then { k with cell := stowKey slot } else k) })
  let s4 := freeCell (s3.modCell ix (fun c => { c with ops := [] })) ix
  afterStow (markStowed s4 die c.handle) die x

/-- STOW_COMPLETE: with no landing or push pending, the late faults recorded, the strand is stowed (R201, R203, R204). -/
def execStowComplete (cid : CellId) (s : State) : Out :=
  let ix := cellIx cid
  let c := s.cell ix
  if c.status ≠ .stowing ∨ !c.landings.isEmpty then .next s
  else if !c.reports.isEmpty then .next (lateFault s ix)
  else
    match find? (s.die (dieOfCell ix)).reserved ix, c.preempt with
    | some slot, some cause => .next (stowStrand s ix slot cause)
    | _, _ => .next s

/-! The restore (R206). -/

/-- Units of a stow image over what the cell holds; a unit of the strand's heat that the image lacks reads zero (R206, R88). -/
def overUnits {α : Type} (h : Heat) (old new : SMap (Tagged α)) : SMap (Tagged α) :=
  new.foldl (fun m e => if e.2.heat = h then insertAt m e.1 e.2 else m) (old.filter (fun e => e.2.heat != h))

/-- A translation fetch that was under way when its strand was stowed is not made. -/
def dropPageFetch (x : Stream) : Stream :=
  { x with curpg := if x.curpg.getLsbD 30 then 0 else x.curpg, nextpg := if x.nextpg.getLsbD 30 then 0 else x.nextpg }

/-- The cell of a restored strand (R206 steps 1, 2 and 5; R83). -/
def restoredCell (s : State) (ix : Nat) (x : Stowed) : Cell :=
  let v := vacant (s.die (dieOfCell ix)) (s.cell ix)
  let c := x.ctx
  let h := c.heat
  let e (old g : EngineState) : EngineState := { resumeEngine s.cycle g with bregs := overUnits h old.bregs g.bregs }
  { c with
    status := .running, A := e v.A c.A, V := e v.V c.V, M := e v.M c.M
    aregs := overUnits h v.aregs c.aregs, pregs := overUnits h v.pregs c.pregs, kregs := overUnits h v.kregs c.kregs
    sregs := mapVals (fun t => { t with val := dropPageFetch t.val }) (overUnits h v.sregs c.sregs)
    vregs := overUnits h v.vregs c.vregs, mregs := overUnits h v.mregs c.mregs, accs := overUnits h v.accs c.accs
    bbuf := if c.bbuf.heat = h then c.bbuf else if v.bbuf.heat = h then ⟨0, .zero⟩ else v.bbuf
    wdogCount := 0, beat := false, tlb := v.tlb, lost := v.lost, icache := [], internalFor := 0, arrayFree := 0, drainFree := 0, lastLand := [], preempt := none
    stuck := none, stopped := 0, resetAt := v.resetAt, dispatched := s.cycle, startAt := s.cycle
    residue := if v.residue.contains h then v.residue else h :: v.residue }

/-- Reissue records leave the cell again: remote loads enter the ring, parked reads go to their bridge (R206 step 4). -/
def reissueOne (s : State) (ix : Nat) (o : MemOp) : State :=
  let p := pkgOfCell ix
  match o.kind with
  | .pool =>
    match req? s o.id with
    | some r =>
      if r.stage = .parked then
        putSlot (modReq s r.id (fun r => { r with stage := .atBridge, pts := (s.pkg p).pts, since := s.cycle }))
          p r.id (dieStation (dieOfCell ix % 8)) (bridgeStation (r.node % 8))
      else s
    | none => s
  | _ =>
    if o.reissue && !isLocal ix o.addr then
      putSlot s p o.id (dieStation (dieOfCell ix % 8)) (routeOf ix o.addr)
    else s

def reissueAll (s : State) (ix : Nat) : List MemOp → State
  | [] => s
  | o :: os => reissueAll (reissueOne s ix o) ix os

/-- The reissue records of a strand in block-slot order, then the scalar slots in issue order (R206 step 4). -/
def reissueOrder (s : State) (c : Cell) : List MemOp :=
  let fills (e : QEntry) (b : Nat) (o : MemOp) : Bool :=
    match o.kind with
    | .fill en _ off _ => en == e.id && off / 32 == b
    | .pool => s.reqs.any (fun r => r.id == o.id && (match r.op with | .read en blk _ _ => en == e.id && blk == b | _ => false))
    | _ => false
  (blockList c).flatMap (fun x => c.ops.filter (fills x.1 x.2)) ++ c.ops.filter (fun o => match o.kind with | .load _ _ | .kload _ => true | _ => false)

/-- The order in which the operations of a cell take their turns: reissued ones as they were reissued (R206 step 4), then the others in
issue order. -/
def turnOps (s : State) (c : Cell) : List MemOp :=
  if c.ops.any (·.reissue) then
    (reissueOrder s c).filter (·.reissue) ++ c.ops.filter (fun o => !o.reissue)
  else c.ops

/-- A granule of the image of a stowed strand; one that is uncorrectable when the restore reads it (R206 step 1, R268). -/
def inImage (s : State) (die : Nat) (x : Stowed) (g : Nat) : Bool :=
  let base := (slotBase s die x.slot).toNat
  (stowImage s x).any (fun p => decide ((base + p.1) / 32 ≤ g) && decide (g * 32 < base + p.1 + p.2.length))

def badSlotGranule (s : State) (die : Nat) (x : Stowed) : Option Nat := s.eccBad.find? (inImage s die x)

/-- A task whose last stowed strand has returned. -/
def markReturned (s : State) (h : Word) : State :=
  match taskOf s h with
  | some t =>
    let some_ := (List.range 8).any (fun d => (s.die (hPkg h * 8 + d)).stowed.any (fun x => x.handle == h))
    setTask s h { t with stowed := some_ }
  | none => s

/-- A restored strand's requests are from now on those of its cell. -/
def rehome (s : State) (ix : Nat) (c : Cell) : State :=
  { s with reqs := s.reqs.map (fun r => if (c.op? r.id).isSome then { r with cell := ix } else r) }

/-- Restore one strand onto a cell: its slot returns to the list, its copies and claims follow it, a held access that has been
resolved goes on (R206). A slot granule that cannot be corrected stops it with ECC (notes/assumptions/12.md). -/
def restoreStrand (s : State) (ix : Nat) (x : Stowed) : State :=
  let die := dieOfCell ix
  let s0 := (s.eccOne.filter (inImage s die x)).foldl (fun t _ => t.count die 17) s
  let s1 := s0.setCell ix (restoredCell s0 ix x)
  let s2 := moveClaims s1 (pkgOfCell ix) (claimKey die x.slot) (some ix)
  let s3 := s2.modDie die (fun d => { markSlot d x.slot false 0 with
    stowed := d.stowed.filter (fun y => y.slot ≠ x.slot)
    copies := d.copies.map (fun k => if k.cell = stowKey x.slot ∧ !k.orphan then { k with cell := ix } else k) })
  let s4 := reissueAll (loadTables (rehome s3 ix x.ctx) ix) ix (reissueOrder s3 x.ctx)
  let s5 := retryHeld (markReturned s4 x.handle) ix
  match badSlotGranule s die x with
  | some g => takeFault s5 ix 0 .ecc (BitVec.ofNat 64 (g * 32))
  | none => s5

/-- Cells for the strands of a restore entry: each to its own cell if idle, the others by point to the candidates (R206). The anchor is
the lowest cell that is idle once the strands that return to their own cells have taken them (DESIGN CHOICE,
notes/assumptions/64.md). -/
def restorePlaces (idle : List Nat) (xs : List Stowed) : List (Stowed × Nat) :=
  let home := xs.filter (fun x => idle.contains (x.cell % 144))
  let rest := xs.filter (fun x => !idle.contains (x.cell % 144))
  let sorted := (List.range 144).flatMap (fun p => rest.filter (fun x => x.ctx.cpoint == p))
  let free := idle.filter (fun i => !home.any (fun x => x.cell % 144 == i))
  home.map (fun x => (x, x.cell % 144)) ++ sorted.zip (candidates free (free.headD 0))

def restoreAll (s : State) (die : Nat) : List (Stowed × Nat) → State
  | [] => s
  | (x, i) :: r => restoreAll (restoreStrand s (die * 144 + i) x) die r

/-- RESTORE: a restore entry that has been dispatched is placed, reloaded and restarted (R206). -/
def execRestore (d : DieId) (ix : Nat) (s : State) : Out :=
  let die := dieIx d
  let k := s.die die
  match k.restoring.drop ix with
  | [] => .next s
  | e :: _ =>
    let xs := k.stowed.filter (fun x => e.restore.contains x.slot)
    if (idleNumbers s die).length < xs.length then .next s
    else .next (restoreAll (s.setDie die { k with restoring := k.restoring.erase e }) die (restorePlaces (idleNumbers s die) xs))

/-! Results for a stowed strand (R207). -/

/-- The cell number and context of the strand, stowed or restored, that an operation or an arrival of a die belongs to. -/
def strandAt (s : State) (die id : Nat) : Option (Nat × Cell) :=
  let mine (c : Cell) : Bool := (c.op? id).isSome || c.tokenRegs.any (·.mark == id)
  match (s.die die).stowed.find? (fun x => mine x.ctx) with
  | some x => some (x.cell, x.ctx)
  | none => s.cells.find? (fun e => e.1 / 144 == die && mine e.2)

/-- RESULT_DELIVERY: work that continued through a pre-emption is performed, and its result goes to the strand where it
stands (R202, R207). -/
def execResultDelivery (d : DieId) (op : Nat) (s : State) : Out :=
  let die := dieIx d
  match strandAt s die op with
  | none => .next s
  | some (ix, c) =>
    match c.op? op with
    | none => .next (stowedArrival s die op)
    | some o =>
      match o.kind with
      | .rmw _ _ _ _ => .next (rmwStep s ix c o)
      | .store _ _ | .scatAdd _ _ _ => .next (storeStep s ix c o)
      | .pool =>
        match req? s op with
        | some r =>
          if canReturn s r && !r.veto && !r.op.isFill then .next (arriveBack s r)
          else if hasReturned s r && answersRmw r then .next (receive s ix r)
          else .next s
        | none => .next s
      | _ => .next s

end Sys2Proof.Machine
end

