-- ==== Sys2Proof/Machine/Vector.lean ====
section
/-! DEFINITION. The meanings of the V words (R142 to R156). -/
namespace Sys2Proof.Machine
open Sys2Proof

/-! Arithmetic (R142 to R144). -/

/-- An arithmetic word: `ff` on floating operands (precision, mode, d, a, b, stochastic word), `fi` on integers. -/
def arith (ff : Nat → RMode → BitVec 32 → BitVec 32 → BitVec 32 → Nat → FRes) (fi : Nat → Int → Int → Int × Flags) (x : VIn) : VOut :=
  perLane x (fun _ a b d r =>
    if x.ty ≤ 1 then .ofF (ff (precOf x.ty) x.mode (elemFloat x.ty d) (elemFloat x.ty a) (elemFloat x.ty b) r)
    else
      let y := fi x.ty (elemInt x.ty a) (elemInt x.ty b)
      ⟨placeInt x.ty y.1, y.2, false⟩)

/-- No floating form. -/
def noFloat : Nat → RMode → BitVec 32 → BitVec 32 → BitVec 32 → Nat → FRes := fun _ _ _ _ _ _ => ⟨0, 0, false⟩

/-- No integer form. -/
def noInt : Nat → Int → Int → Int × Flags := fun _ _ _ => (0, 0)

/-- An integer operation that raises no flag. -/
def intOp (g : Int → Int → Int) : Nat → Int → Int → Int × Flags := fun _ a b => (g a b, 0)

/-- |a| or -a, which saturates at the most negative value (R142). -/
def intSign (g : Int → Int) : Nat → Int → Int → Int × Flags := fun ty a _ =>
  let r := saturate (typeRange ty).1 (typeRange ty).2 (g a)
  (r.1, satFlag r.2)

def execVadd (f : VFields) (s : State) : Out :=
  vPlain formBinary (latArith f) (arith (fun p m _ a b r => fadd p m a b r) (intOp (· + ·))) f s

def execVsub (f : VFields) (s : State) : Out :=
  vPlain formBinary (latArith f) (arith (fun p m _ a b r => fsub p m a b r) (intOp (· - ·))) f s

def execVmul (f : VFields) (s : State) : Out :=
  vPlain formBinary (latArith f) (arith (fun p m _ a b r => fmul p m a b r) (intOp (· * ·))) f s

def execVmulh (f : VFields) (s : State) : Out :=
  vPlain formBinary 2 (arith noFloat (fun ty a b => (a * b / (2 ^ widthOf ty : Int), 0))) f s

def execVfma (f : VFields) (s : State) : Out :=
  vPlain formAcc 4 (arith (fun p m d a b r => fma p m false false d a b r) noInt) f s

def execVfms (f : VFields) (s : State) : Out :=
  vPlain formAcc 4 (arith (fun p m d a b r => fma p m true false d a b r) noInt) f s

def execVfnm (f : VFields) (s : State) : Out :=
  vPlain formAcc 4 (arith (fun p m d a b r => fma p m false true d a b r) noInt) f s

def execVmin (f : VFields) (s : State) : Out :=
  vPlain formBinary (latArith f) (arith (fun _ _ _ a b _ => fminmax false a b) (intOp (fun a b => min a b))) f s

def execVmax (f : VFields) (s : State) : Out :=
  vPlain formBinary (latArith f) (arith (fun _ _ _ a b _ => fminmax true a b) (intOp (fun a b => max a b))) f s

def execVabs (f : VFields) (s : State) : Out :=
  vPlain formUnary (latArith f) (arith (fun _ _ _ a _ _ => fsign false a) (intSign (fun a => a.natAbs))) f s

def execVneg (f : VFields) (s : State) : Out :=
  vPlain formUnary (latArith f) (arith (fun _ _ _ a _ _ => fsign true a) (intSign (fun a => -a))) f s

def execVabsd (f : VFields) (s : State) : Out :=
  vPlain formBinary (latArith f) (arith (fun p m _ a b r => fabsd p m a b r) (intOp (fun a b => (a - b).natAbs))) f s

/-- An estimate rounds to nearest even always, so no generator steps (R127, R144). -/
def estimate (g : BitVec 32 → FRes) (x : VIn) : VOut := perLane x (fun _ a _ _ _ => ⟨(g a).bits, (g a).flags, false⟩)

def execVrcpe (f : VFields) (s : State) : Out :=
  vPlain formUnary 6 (estimate vrcpe) f s

def execVrsqe (f : VFields) (s : State) : Out :=
  vPlain formUnary 6 (estimate vrsqe) f s

def execVexpe (f : VFields) (s : State) : Out :=
  vPlain formUnary 6 (estimate vexpe) f s

def execVfrx (f : VFields) (s : State) : Out :=
  vPlain formUnary 6 (fun x => perLane x (fun _ a _ _ r => .ofF (vfrx x.mode a r))) f s

/-! Bitwise operations (R145). -/

/-- A bitwise word on the w-bit patterns of the elements. -/
def bitwise (g : Nat → Nat → Nat → Nat) (x : VIn) : VOut :=
  perLane x (fun _ a b _ _ => ⟨placeInt x.ty (g (widthOf x.ty) (elemBits x.ty a) (elemBits x.ty b)), 0, false⟩)

def execVand (f : VFields) (s : State) : Out := vPlain formBinary 2 (bitwise (fun _ a b => a &&& b)) f s
def execVor (f : VFields) (s : State) : Out := vPlain formBinary 2 (bitwise (fun _ a b => a ||| b)) f s
def execVxor (f : VFields) (s : State) : Out := vPlain formBinary 2 (bitwise (fun _ a b => a ^^^ b)) f s
def execVandn (f : VFields) (s : State) : Out := vPlain formBinary 2 (bitwise (fun w a b => a &&& (2 ^ w - 1 - b))) f s
def execVshl (f : VFields) (s : State) : Out := vPlain formBinary 2 (bitwise (fun w a b => a * 2 ^ (b % w))) f s
def execVshr (f : VFields) (s : State) : Out := vPlain formBinary 2 (bitwise (fun w a b => a / 2 ^ (b % w))) f s

/-- A w-bit pattern shifted right by k with copies of its top bit. -/
def sraBits (w a k : Nat) : Nat := if a < 2 ^ (w - 1) then a / 2 ^ k else 2 ^ w - 1 - (2 ^ w - 1 - a) / 2 ^ k

def execVsra (f : VFields) (s : State) : Out := vPlain formBinary 2 (bitwise (fun w a b => sraBits w a (b % w))) f s
def execVpopc (f : VFields) (s : State) : Out := vPlain formUnary 2 (bitwise (fun w a _ => popCount a w)) f s
def execVclz (f : VFields) (s : State) : Out := vPlain formUnary 2 (bitwise (fun w a _ => clzN a w)) f s

/-! Selection and moves (R146). -/

/-- Every lane of D is written: S1 where the mask selects, S2 elsewhere (R146). -/
def selectLanes (x : VIn) : VOut where
  write := BitVec.allOnes 128
  val := .lanes ((List.range 128).map (fun i => if x.act.getLsbD i then laneOf x.a i else laneOf x.b i))

def execVsel (f : VFields) (s : State) : Out := vPlain formBinary 2 selectLanes f s

/-- Lane values moved without being read as numbers, written where the lanes are active (R118, R156). -/
def moveLanes (g : VIn → Nat → Lane) (x : VIn) : VOut where
  write := x.act
  val := .lanes ((List.range 128).map (g x))

def execVmov (f : VFields) (s : State) : Out := vPlain formUnary 2 (moveLanes (fun x i => laneOf x.a i)) f s
def execVidx (f : VFields) (s : State) : Out := vPlain formNone 2 (moveLanes (fun _ i => BitVec.ofNat 32 i)) f s
def execVclass (f : VFields) (s : State) : Out :=
  vPlain formUnary 2 (moveLanes (fun x i => BitVec.ofNat 32 (2 ^ fclass (elemFloat x.ty (laneOf x.a i))))) f s

/-! Compares and masks (R147, R148). -/

/-- An integer condition by its code: eq ne lt le gt un. -/
def icompare (k : Nat) (a b : Int) : Bool :=
  match k with
  | 0 => a == b
  | 1 => a != b
  | 2 => decide (a < b)
  | 3 => decide (a ≤ b)
  | 4 => decide (b < a)
  | _ => false

/-- A compare with the condition of op8 0x20 + k (R147). -/
def compareLanes (k : Nat) (x : VIn) : VOut :=
  let r (i : Nat) : Bool × Flags :=
    if x.ty ≤ 1 then fcompare k (elemFloat x.ty (laneOf x.a i)) (elemFloat x.ty (laneOf x.b i))
    else (icompare k (elemInt x.ty (laneOf x.a i)) (elemInt x.ty (laneOf x.b i)), 0)
  { write := x.act
    val := .bits (maskOf (fun i => x.act.getLsbD i && (r i).1))
    flags := (setLanes x.act).foldl (fun fl i => fl ||| (r i).2) 0 }

def execVceq (f : VFields) (s : State) : Out := vPlain formCompare 2 (compareLanes 0) f s
def execVcne (f : VFields) (s : State) : Out := vPlain formCompare 2 (compareLanes 1) f s
def execVclt (f : VFields) (s : State) : Out := vPlain formCompare 2 (compareLanes 2) f s
def execVcle (f : VFields) (s : State) : Out := vPlain formCompare 2 (compareLanes 3) f s
def execVcgt (f : VFields) (s : State) : Out := vPlain formCompare 2 (compareLanes 4) f s
def execVcun (f : VFields) (s : State) : Out := vPlain formCompare 2 (compareLanes 5) f s

/-- A mask result (R148). -/
def maskBits (g : VIn → BitVec 128) (x : VIn) : VOut where
  write := x.act
  val := .bits (g x)

def execMand (f : VFields) (s : State) : Out := vPlain formMask2 2 (maskBits (fun x => x.ma &&& x.mb)) f s
def execMor (f : VFields) (s : State) : Out := vPlain formMask2 2 (maskBits (fun x => x.ma ||| x.mb)) f s
def execMxor (f : VFields) (s : State) : Out := vPlain formMask2 2 (maskBits (fun x => x.ma ^^^ x.mb)) f s
def execMnot (f : VFields) (s : State) : Out := vPlain formMask1 2 (maskBits (fun x => ~~~x.ma)) f s

/-- The active lanes whose mask bit is set. -/
def VIn.picked (x : VIn) : BitVec 128 := x.ma &&& x.act

def execMcnt (f : VFields) (s : State) : Out :=
  vPlain formOfMask 2 (moveLanes (fun x _ => BitVec.ofNat 32 (popCount x.picked.toNat 128))) f s

def execMffs (f : VFields) (s : State) : Out :=
  vPlain formOfMask 2 (moveLanes (fun x _ => BitVec.ofNat 32 (ctzN x.picked.toNat 128))) f s

def execMpany (f : VFields) (s : State) : Out :=
  vWord formOfMask 2 (dIndex f.D) (fun _ => true) (fun x => { write := x.act, val := .truth (x.picked != 0) }) f s

def execMpall (f : VFields) (s : State) : Out :=
  vWord formOfMask 2 (dIndex f.D) (fun _ => true) (fun x => { write := x.act, val := .truth (x.picked == x.act) }) f s

/-! Conversions (R149 to R153). -/

/-- An exact integer rounded to a floating format. -/
def ofInteger (p : Nat) (mode : RMode) (v : Int) (rnd : Nat) : FRes := roundFrac p mode (decide (v < 0)) v.natAbs 1 rnd

/-- A floating value rounded to bf16; a NaN gives the canonical NaN (R118, R119). -/
def toBf16 (mode : RMode) (a : BitVec 32) (rnd : Nat) : FRes :=
  match fval a with
  | .nan s => nanRes s
  | .inf s => infRes s
  | .fin s m e => roundDy 8 mode (FVal.fin s m e).dyadic s rnd

/-- A floating value converted to an integer type or c8 (R129, R149). -/
def toInteger (ty : Nat) (mode : RMode) (a : BitVec 32) (rnd : Nat) : Int × Flags × Bool :=
  let lim := typeRange ty
  match fval a with
  | .nan _ => (0, fNV, false)
  | .inf s => (if s then lim.1 else lim.2, fNV, false)
  | .fin s m e =>
    let d := (FVal.fin s m e).dyadic
    let r := roundInt mode s d.num d.den rnd
    let k := saturate lim.1 lim.2 r.1
    (k.1, (if r.2 then fNX else 0) ||| satFlag k.2, r.2)

/-- vcvt of one element from type `ts` to type `td` (R149 Table 6). -/
def convert (ts td : Nat) (mode : RMode) (a : Lane) (rnd : Nat) : LRes :=
  if 2 ≤ ts then
    if 2 ≤ td then
      let k := saturate (typeRange td).1 (typeRange td).2 (elemInt ts a)
      ⟨placeInt td k.1, satFlag k.2, false⟩
    else .ofF (ofInteger (precOf td) mode (elemInt ts a) rnd)
  else if 2 ≤ td then
    let r := toInteger td mode (elemFloat ts a) rnd
    ⟨placeInt td r.1, r.2.1, r.2.2⟩
  else if ts = 0 then .ofF (toBf16 mode a rnd)
  else
    let v := fval (elemFloat 1 a)
    .ofF (if v.isNaN then nanRes v.isSNaN else ⟨elemFloat 1 a, 0, false⟩)

/-- No active lane of S1 holds the reserved c8 code (R121, R136). -/
def noReserved (x : VIn) : Bool := (setLanes x.act).all (fun i => (laneOf x.a i).setWidth 8 != 0x80#8)

def execVcvt (f : VFields) (s : State) : Out :=
  vWord formUnary 3 0 (fun x => x.f.aux.toNat != 6 || noReserved x)
    (fun x => perLane x (fun _ a _ _ r => convert x.f.aux.toNat x.ty x.mode a r)) f s

/-- The curve that a word names, if it is valid (R130, R349). -/
def VIn.curve (x : VIn) : Option Curve := find? x.c.curves x.f.aux.toNat

def execVqnt (f : VFields) (s : State) : Out :=
  vWord formBinary 3 0 (fun x => x.curve.isSome)
    (fun x =>
      match x.curve with
      | some cv => perLane x (fun _ a b _ r =>
          let q := quantise cv a b x.mode r
          ⟨placeInt 6 q.1, q.2.1, q.2.2⟩)
      | none => { write := 0, val := .lanes [] }) f s

def execVdqt (f : VFields) (s : State) : Out :=
  vWord formBinary 3 0 (fun x => x.curve.isSome && noReserved x)
    (fun x =>
      match x.curve with
      | some cv => perLane x (fun _ a b _ r => .ofF (fmul 24 x.mode (ofInteger 24 1 (expandCode cv (elemInt 6 a)) 0).bits b r))
      | none => { write := 0, val := .lanes [] }) f s

def execVtpl (f : VFields) (s : State) : Out :=
  vPlain formUnary 3 (fun x => perLane x (fun _ a _ _ _ =>
    ⟨(tritCode (balancedTrit (elemInt 5 a) x.f.aux.toNat)).setWidth 32, 0, false⟩)) f s

/-- The packed element of a lane, in the bytes of its format (R116 Table 1). -/
def packElem (ty : Nat) (x : Lane) : List Byte :=
  if ty = 1 then leBytes (x.toNat / 65536) 2 else if ty = 4 then leBytes (x.toNat % 65536) 2 else leBytes (x.toNat % 256) 1

/-- 64 lanes packed from a run of elements. -/
def packLanes (ty : Nat) (xs : List Lane) : List Lane := lanesOfBytes 64 (xs.flatMap (packElem ty))

/-- A full list of 128 lanes. -/
def allLanes (xs : List Lane) : List Lane := (List.range 128).map (fun i => laneOf xs i)

/-- vpack (R152 Table 7). The half of D that vpack.i8 does not write pushes zeros when D is a queue, and a scalar with aux = 1 is 0
(DESIGN CHOICE, notes/assumptions/65.md). -/
def packWord (x : VIn) : VOut :=
  let h := x.f.aux.toNat
  if x.ty = 5 then
    let half := packLanes 5 (allLanes x.a ++ allLanes x.b)
    { write := x.act &&& maskOf (fun i => i / 64 == h), val := .lanes (half ++ half) }
  else
    let pa := packLanes x.ty (allLanes x.a)
    let pb := packLanes x.ty (allLanes x.b)
    { write := x.act, val := .lanes (if h = 0 then pa ++ pb else pb ++ pa) }

def execVpack (f : VFields) (s : State) : Out := vPlain formBinary 3 packWord f s

/-- vunpk of one lane (R152 Table 7). -/
def unpackLane (x : VIn) (i : Nat) : Lane :=
  let bs := bytesOfLanes ((allLanes x.a).drop (64 * x.f.aux.toNat) |>.take 64)
  if x.ty = 5 then placeInt 5 (byteAt bs (128 * (dImm x.f.S2).toNat + i)).toNat
  else
    let e := ofLe ((bs.drop (2 * i)).take 2)
    if x.ty = 1 then BitVec.ofNat 32 (e * 65536) else placeInt 4 e

def execVunpk (f : VFields) (s : State) : Out := vPlain formUnary 3 (moveLanes unpackLane) f s

def execVbfNarrow (f : VFields) (s : State) : Out :=
  vPlain formUnary 3 (fun x => perLane x (fun _ a _ _ r => .ofF (toBf16 x.mode a r))) f s

def execVbfWiden (f : VFields) (s : State) : Out :=
  vPlain formUnary 3 (moveLanes (fun x i => elemFloat 1 (laneOf x.a i))) f s

/-! Reductions and scans (R132, R154, R155). -/

/-- One step of the pairwise tree, with the flags of its operations. -/
def treeStep (g : BitVec 32 → BitVec 32 → FRes) : List Lane → List Lane × Flags
  | a :: b :: r =>
    let t := treeStep g r
    let y := g a b
    (y.bits :: t.1, y.flags ||| t.2)
  | xs => (xs, 0)

/-- n steps of the pairwise tree. -/
def treeSteps (g : BitVec 32 → BitVec 32 → FRes) : Nat → List Lane → List Lane × Flags
  | 0, xs => (xs, 0)
  | n + 1, xs =>
    let y := treeStep g xs
    let z := treeSteps g n y.1
    (z.1, y.2 ||| z.2)

/-- S1 with an identity in the inactive lanes. -/
def withIdentity (x : VIn) (z : Lane) : List Lane :=
  (List.range 128).map (fun i => if x.act.getLsbD i then laneOf x.a i else z)

/-- A reduction: the result in every active lane (R154). `ids` holds the identities of f32, i32 and n32. -/
def reduce (g : BitVec 32 → BitVec 32 → FRes) (gi : Int → Int → Int) (idF : Lane) (idI idN : Int) (x : VIn) : VOut :=
  let v : Lane × Flags :=
    if x.ty = 0 then
      let t := treeSteps g 7 (withIdentity x idF)
      (laneOf t.1 0, t.2)
    else (BitVec.ofInt 32 ((setLanes x.act).foldl (fun r i => gi r (elemInt x.ty (laneOf x.a i))) (if x.ty = 3 then idN else idI)), 0)
  { write := x.act, val := .lanes (List.replicate 128 v.1), flags := v.2 }

def execVrsum (f : VFields) (s : State) : Out :=
  vPlain formUnary 8 (reduce (fun a b => fadd 24 1 a b 0) (· + ·) 0x80000000 0 0) f s

def execVrmax (f : VFields) (s : State) : Out :=
  vPlain formUnary 8 (reduce (fminmax true) (fun a b => max a b) 0xFF800000 (-2147483648) 0) f s

def execVrmin (f : VFields) (s : State) : Out :=
  vPlain formUnary 8 (reduce (fminmax false) (fun a b => min a b) 0x7F800000 2147483647 4294967295) f s

def execVrsumi (f : VFields) (s : State) : Out :=
  vPlain formUnary 8 (reduce (fun a _ => ⟨a, 0, false⟩) (· + ·) 0 0 0) f s

/-- No head stands in lanes (i - d, i]. -/
def sameSegment (heads : BitVec 128) (i d : Nat) : Bool := (List.range d).all (fun k => !heads.getLsbD (i - k))

/-- One Kogge-Stone step over values with the flags of the additions in them (R132). -/
def scanStep (add : Lane → Lane → FRes) (heads : BitVec 128) (d : Nat) (ys : List (Lane × Flags)) : List (Lane × Flags) :=
  (List.range 128).map (fun i =>
    let y := ys.getD i (0, 0)
    if d ≤ i ∧ sameSegment heads i d then
      let z := ys.getD (i - d) (0, 0)
      let r := add z.1 y.1
      (r.bits, z.2 ||| y.2 ||| r.flags)
    else y)

/-- An operand of an f32 scan: a NaN becomes the canonical one, in a lane that no addition enters too, and a signalling one is invalid
(R118). -/
def scanOperand (v : Lane) : Lane × Flags :=
  match fval v with
  | .nan signalling => ((nanRes signalling).bits, (nanRes signalling).flags)
  | _ => (v, 0)

/-- An inclusive scan restarted at the heads (R155). -/
def scan (heads : BitVec 128) (x : VIn) : VOut :=
  let add (a b : Lane) : FRes := if x.ty = 0 then fadd 24 1 a b 0 else ⟨a + b, 0, false⟩
  let ys := [1, 2, 4, 8, 16, 32, 64].foldl (fun ys d => scanStep add heads d ys)
    ((withIdentity x (if x.ty = 0 then 0x80000000 else 0)).map (fun v => if x.ty = 0 then scanOperand v else (v, 0)))
  { write := x.act
    val := .lanes (ys.map (·.1))
    flags := (setLanes x.act).foldl (fun fl i => fl ||| (ys.getD i (0, 0)).2) 0 }

def execVscan (f : VFields) (s : State) : Out := vPlain formUnary 8 (scan 0) f s
def execVsegsum (f : VFields) (s : State) : Out := vPlain formVecMask 8 (fun x => scan (x.mb ||| 1) x) f s

/-! Permutes (R156 Table 9). -/

/-- Lane 0 of S2. -/
def VIn.sh (x : VIn) : Lane := laneOf x.b 0

def permLane (x : VIn) (i : Nat) : Lane := laneOf x.a ((laneOf x.b i).toNat % 128)
def rotLane (x : VIn) (i : Nat) : Lane := laneOf x.a ((i + 128 - x.sh.toNat % 128) % 128)
def bcstLane (x : VIn) (_ : Nat) : Lane := laneOf x.a (x.sh.toNat % 128)
def zipLane (x : VIn) (i : Nat) : Lane := if i % 2 = 0 then laneOf x.a (i / 2) else laneOf x.b ((i - 1) / 2)
def uzpLane (x : VIn) (i : Nat) : Lane := if i < 64 then laneOf x.a (2 * i) else laneOf x.b (2 * (i - 64))

def slideLane (x : VIn) (i : Nat) : Lane :=
  let j := (i : Int) + (x.sh.setWidth 8).toInt
  if 0 ≤ j ∧ j ≤ 127 then laneOf x.a j.toNat else 0

def compLane (x : VIn) (i : Nat) : Lane :=
  match (setLanes x.mb)[i]? with
  | some j => laneOf x.a j
  | none => 0

def expdLane (x : VIn) (i : Nat) : Lane := if x.mb.getLsbD i then laneOf x.a (popCount x.mb.toNat i) else 0

def execVperm (f : VFields) (s : State) : Out := vPlain formBinary 3 (moveLanes permLane) f s
def execVrot (f : VFields) (s : State) : Out := vPlain formBinary 3 (moveLanes rotLane) f s
def execVbcst (f : VFields) (s : State) : Out := vPlain formBinary 3 (moveLanes bcstLane) f s
def execVzip (f : VFields) (s : State) : Out := vPlain formBinary 3 (moveLanes zipLane) f s
def execVuzp (f : VFields) (s : State) : Out := vPlain formBinary 3 (moveLanes uzpLane) f s
def execVslide (f : VFields) (s : State) : Out := vPlain formBinary 3 (moveLanes slideLane) f s
def execVcomp (f : VFields) (s : State) : Out := vPlain formVecMask 3 (moveLanes compLane) f s
def execVexpd (f : VFields) (s : State) : Out := vPlain formVecMask 3 (moveLanes expdLane) f s

end Sys2Proof.Machine
end

