-- ==== Sys2Proof/Machine/Dispatch.lean ====
section
/-! DEFINITION. One arm per constructor of Instr: the meaning of each row of spec/opcode_table.json. -/
namespace Sys2Proof.Machine
open Sys2Proof

def exec (i : Instr) (s : State) : Host.Outcome State Fault Refusal :=
  match i with
  | .add p t s_ d => Sys2Proof.Machine.execAdd p t s_ d s
  | .sub p t s_ d => Sys2Proof.Machine.execSub p t s_ d s
  | .and p t s_ d => Sys2Proof.Machine.execAnd p t s_ d s
  | .or p t s_ d => Sys2Proof.Machine.execOr p t s_ d s
  | .xor p t s_ d => Sys2Proof.Machine.execXor p t s_ d s
  | .sll p t s_ d => Sys2Proof.Machine.execSll p t s_ d s
  | .srl p t s_ d => Sys2Proof.Machine.execSrl p t s_ d s
  | .sra p t s_ d => Sys2Proof.Machine.execSra p t s_ d s
  | .mul p t s_ d => Sys2Proof.Machine.execMul p t s_ d s
  | .mulh p t s_ d => Sys2Proof.Machine.execMulh p t s_ d s
  | .mulhn p t s_ d => Sys2Proof.Machine.execMulhn p t s_ d s
  | .div p t s_ d => Sys2Proof.Machine.execDiv p t s_ d s
  | .divn p t s_ d => Sys2Proof.Machine.execDivn p t s_ d s
  | .rem p t s_ d => Sys2Proof.Machine.execRem p t s_ d s
  | .remn p t s_ d => Sys2Proof.Machine.execRemn p t s_ d s
  | .min p t s_ d => Sys2Proof.Machine.execMin p t s_ d s
  | .max p t s_ d => Sys2Proof.Machine.execMax p t s_ d s
  | .minn p t s_ d => Sys2Proof.Machine.execMinn p t s_ d s
  | .maxn p t s_ d => Sys2Proof.Machine.execMaxn p t s_ d s
  | .addw p t s_ d => Sys2Proof.Machine.execAddw p t s_ d s
  | .subw p t s_ d => Sys2Proof.Machine.execSubw p t s_ d s
  | .clz p s_ d => Sys2Proof.Machine.execClz p s_ d s
  | .ctz p s_ d => Sys2Proof.Machine.execCtz p s_ d s
  | .popc p s_ d => Sys2Proof.Machine.execPopc p s_ d s
  | .andn p t s_ d => Sys2Proof.Machine.execAndn p t s_ d s
  | .rol p t s_ d => Sys2Proof.Machine.execRol p t s_ d s
  | .ror p t s_ d => Sys2Proof.Machine.execRor p t s_ d s
  | .addi p i_ s_ d => Sys2Proof.Machine.execAddi p i_ s_ d s
  | .andi p i_ s_ d => Sys2Proof.Machine.execAndi p i_ s_ d s
  | .ori p i_ s_ d => Sys2Proof.Machine.execOri p i_ s_ d s
  | .xori p i_ s_ d => Sys2Proof.Machine.execXori p i_ s_ d s
  | .slli p h s_ d => Sys2Proof.Machine.execSlli p h s_ d s
  | .srli p h s_ d => Sys2Proof.Machine.execSrli p h s_ d s
  | .srai p h s_ d => Sys2Proof.Machine.execSrai p h s_ d s
  | .lui i_ d => Sys2Proof.Machine.execLui i_ d s
  | .addpc i_ d => Sys2Proof.Machine.execAddpc i_ d s
  | .cmp p t s_ c e => Sys2Proof.Machine.execCmp p t s_ c e s
  | .cmpAnd p t s_ c e => Sys2Proof.Machine.execCmpAnd p t s_ c e s
  | .cmpOr p t s_ c e => Sys2Proof.Machine.execCmpOr p t s_ c e s
  | .cmpi p i_ s_ c e => Sys2Proof.Machine.execCmpi p i_ s_ c e s
  | .pand p b a e => Sys2Proof.Machine.execPand p b a e s
  | .por p b a e => Sys2Proof.Machine.execPor p b a e s
  | .pxor p b a e => Sys2Proof.Machine.execPxor p b a e s
  | .pandn p b a e => Sys2Proof.Machine.execPandn p b a e s
  | .pset p v e => Sys2Proof.Machine.execPset p v e s
  | .mfsr p r d => Sys2Proof.Machine.execMfsr p r d s
  | .mtsr p r s_ => Sys2Proof.Machine.execMtsr p r s_ s
  | .mtb p s_ b => Sys2Proof.Machine.execMtb p s_ b s
  | .ld p i_ z s_ d => Sys2Proof.Machine.execLd p i_ z s_ d s
  | .st p i_ z s_ d => Sys2Proof.Machine.execSt p i_ z s_ d s
  | .ldq p i_ z s_ q => Sys2Proof.Machine.execLdq p i_ z s_ q s
  | .stq p i_ z s_ q => Sys2Proof.Machine.execStq p i_ z s_ q s
  | .sbase p s_ n => Sys2Proof.Machine.execSbase p s_ n s
  | .sdim p t s_ k n => Sys2Proof.Machine.execSdim p t s_ k n s
  | .sunf p t s_ n => Sys2Proof.Machine.execSunf p t s_ n s
  | .spage p s_ n => Sys2Proof.Machine.execSpage p s_ n s
  | .sgo p z n q => Sys2Proof.Machine.execSgo p z n q s
  | .gathW p j s_ q => Sys2Proof.Machine.execGathW p j s_ q s
  | .gathD p j s_ q => Sys2Proof.Machine.execGathD p j s_ q s
  | .gathG p j s_ q => Sys2Proof.Machine.execGathG p j s_ q s
  | .scatW p j s_ q => Sys2Proof.Machine.execScatW p j s_ q s
  | .scatD p j s_ q => Sys2Proof.Machine.execScatD p j s_ q s
  | .scatG p j s_ q => Sys2Proof.Machine.execScatG p j s_ q s
  | .scatAddW p j s_ q => Sys2Proof.Machine.execScatAddW p j s_ q s
  | .scatAddD p j s_ q => Sys2Proof.Machine.execScatAddD p j s_ q s
  | .scatAddF p j s_ q => Sys2Proof.Machine.execScatAddF p j s_ q s
  | .atomAdd p z t s_ d => Sys2Proof.Machine.execAtomAdd p z t s_ d s
  | .atomAnd p z t s_ d => Sys2Proof.Machine.execAtomAnd p z t s_ d s
  | .atomOr p z t s_ d => Sys2Proof.Machine.execAtomOr p z t s_ d s
  | .atomXor p z t s_ d => Sys2Proof.Machine.execAtomXor p z t s_ d s
  | .atomMin p z t s_ d => Sys2Proof.Machine.execAtomMin p z t s_ d s
  | .atomMax p z t s_ d => Sys2Proof.Machine.execAtomMax p z t s_ d s
  | .atomMinn p z t s_ d => Sys2Proof.Machine.execAtomMinn p z t s_ d s
  | .atomMaxn p z t s_ d => Sys2Proof.Machine.execAtomMaxn p z t s_ d s
  | .atomSwap p z t s_ d => Sys2Proof.Machine.execAtomSwap p z t s_ d s
  | .atomCas p z t s_ d => Sys2Proof.Machine.execAtomCas p z t s_ d s
  | .atomFadd p t s_ d => Sys2Proof.Machine.execAtomFadd p t s_ d s
  | .kld p s_ k => Sys2Proof.Machine.execKld p s_ k s
  | .kst p s_ k => Sys2Proof.Machine.execKst p s_ k s
  | .kbnd p d s_ k => Sys2Proof.Machine.execKbnd p d s_ k s
  | .krgt p s_ k => Sys2Proof.Machine.execKrgt p s_ k s
  | .kinf p d s_ k => Sys2Proof.Machine.execKinf p d s_ k s
  | .kmov p j k => Sys2Proof.Machine.execKmov p j k s
  | .pld p z q s_ k => Sys2Proof.Machine.execPld p z q s_ k s
  | .pst p z q s_ k => Sys2Proof.Machine.execPst p z q s_ k s
  | .patAdd p c z d s_ k => Sys2Proof.Machine.execPatAdd p c z d s_ k s
  | .patAnd p c z d s_ k => Sys2Proof.Machine.execPatAnd p c z d s_ k s
  | .patOr p c z d s_ k => Sys2Proof.Machine.execPatOr p c z d s_ k s
  | .patXor p c z d s_ k => Sys2Proof.Machine.execPatXor p c z d s_ k s
  | .patMin p c z d s_ k => Sys2Proof.Machine.execPatMin p c z d s_ k s
  | .patMax p c z d s_ k => Sys2Proof.Machine.execPatMax p c z d s_ k s
  | .patMinn p c z d s_ k => Sys2Proof.Machine.execPatMinn p c z d s_ k s
  | .patMaxn p c z d s_ k => Sys2Proof.Machine.execPatMaxn p c z d s_ k s
  | .patSwap p c z d s_ k => Sys2Proof.Machine.execPatSwap p c z d s_ k s
  | .patCas p c z d s_ k => Sys2Proof.Machine.execPatCas p c z d s_ k s
  | .patFadd p c d s_ k => Sys2Proof.Machine.execPatFadd p c d s_ k s
  | .ppush p d k => Sys2Proof.Machine.execPpush p d k s
  | .ppop p d k => Sys2Proof.Machine.execPpop p d k s
  | .pgive p d k => Sys2Proof.Machine.execPgive p d k s
  | .ptake p d k => Sys2Proof.Machine.execPtake p d k s
  | .pour p t s_ => Sys2Proof.Machine.execPour p t s_ s
  | .hpour p t s_ => Sys2Proof.Machine.execHpour p t s_ s
  | .ctwany p s_ d => Sys2Proof.Machine.execCtwany p s_ d s
  | .ctwall p s_ => Sys2Proof.Machine.execCtwall p s_ s
  | .ctffr p s_ d => Sys2Proof.Machine.execCtffr p s_ d s
  | .ctstat p s_ d => Sys2Proof.Machine.execCtstat p s_ d s
  | .ctclr p s_ => Sys2Proof.Machine.execCtclr p s_ s
  | .rclaim p t s_ d => Sys2Proof.Machine.execRclaim p t s_ d s
  | .rpubl p t s_ d => Sys2Proof.Machine.execRpubl p t s_ d s
  | .rwaitf p t s_ d => Sys2Proof.Machine.execRwaitf p t s_ d s
  | .rwaite p t s_ d => Sys2Proof.Machine.execRwaite p t s_ d s
  | .rfree p t s_ d => Sys2Proof.Machine.execRfree p t s_ d s
  | .rpeek p s_ d => Sys2Proof.Machine.execRpeek p s_ d s
  | .fenceRel p c => Sys2Proof.Machine.execFenceRel p c s
  | .fenceAcq p c => Sys2Proof.Machine.execFenceAcq p c s
  | .fenceSc p c => Sys2Proof.Machine.execFenceSc p c s
  | .wlacq p d k => Sys2Proof.Machine.execWlacq p d k s
  | .wlrenew p s_ k => Sys2Proof.Machine.execWlrenew p s_ k s
  | .wlrel p s_ k => Sys2Proof.Machine.execWlrel p s_ k s
  | .wlchk p d s_ k => Sys2Proof.Machine.execWlchk p d s_ k s
  | .trap p n => Sys2Proof.Machine.execTrap p n s
  | .eret p => Sys2Proof.Machine.execEret p s
  | .heatq p d => Sys2Proof.Machine.execHeatq p d s
  | .brk p => Sys2Proof.Machine.execBrk p s
  | .wfe p => Sys2Proof.Machine.execWfe p s
  | .tlaunch p s_ d => Sys2Proof.Machine.execTlaunch p s_ d s
  | .tdep p t s_ => Sys2Proof.Machine.execTdep p t s_ s
  | .tqry p s_ d => Sys2Proof.Machine.execTqry p s_ d s
  | .tkill p s_ => Sys2Proof.Machine.execTkill p s_ s
  | .valloc p t s_ d => Sys2Proof.Machine.execValloc p t s_ d s
  | .vfree p s_ => Sys2Proof.Machine.execVfree p s_ s
  | .tlbinv p s_ => Sys2Proof.Machine.execTlbinv p s_ s
  | .pgprobe p s_ d => Sys2Proof.Machine.execPgprobe p s_ d s
  | .schpub p s_ => Sys2Proof.Machine.execSchpub p s_ s
  | .schadv p s_ => Sys2Proof.Machine.execSchadv p s_ s
  | .qpop p q d => Sys2Proof.Machine.execQpop p q d s
  | .qpush p s_ q => Sys2Proof.Machine.execQpush p s_ q s
  | .sel p n e t s_ d => Sys2Proof.Machine.execSel p n e t s_ d s
  | .ltrip p s_ l => Sys2Proof.Machine.execLtrip p s_ l s
  | .nop => Sys2Proof.Machine.execNop s
  | .ptb i_ b => Sys2Proof.Machine.execPtb i_ b s
  | .br h n e b => Sys2Proof.Machine.execBr h n e b s
  | .call b => Sys2Proof.Machine.execCall b s
  | .ret => Sys2Proof.Machine.execRet s
  | .loop l v => Sys2Proof.Machine.execLoop l v s
  | .lbrk => Sys2Proof.Machine.execLbrk s
  | .endWord => Sys2Proof.Machine.execEndWord s
  | .barArrive a n => Sys2Proof.Machine.execBarArrive a n s
  | .barWait a n => Sys2Proof.Machine.execBarWait a n s
  | .barSync a n => Sys2Proof.Machine.execBarSync a n s
  | .beat => Sys2Proof.Machine.execBeat s
  | .yield => Sys2Proof.Machine.execYield s
  | .halt => Sys2Proof.Machine.execHalt s
  | .vadd f => Sys2Proof.Machine.execVadd f s
  | .vsub f => Sys2Proof.Machine.execVsub f s
  | .vmul f => Sys2Proof.Machine.execVmul f s
  | .vmulh f => Sys2Proof.Machine.execVmulh f s
  | .vfma f => Sys2Proof.Machine.execVfma f s
  | .vfms f => Sys2Proof.Machine.execVfms f s
  | .vfnm f => Sys2Proof.Machine.execVfnm f s
  | .vmin f => Sys2Proof.Machine.execVmin f s
  | .vmax f => Sys2Proof.Machine.execVmax f s
  | .vabs f => Sys2Proof.Machine.execVabs f s
  | .vneg f => Sys2Proof.Machine.execVneg f s
  | .vabsd f => Sys2Proof.Machine.execVabsd f s
  | .vrcpe f => Sys2Proof.Machine.execVrcpe f s
  | .vrsqe f => Sys2Proof.Machine.execVrsqe f s
  | .vexpe f => Sys2Proof.Machine.execVexpe f s
  | .vfrx f => Sys2Proof.Machine.execVfrx f s
  | .vand f => Sys2Proof.Machine.execVand f s
  | .vor f => Sys2Proof.Machine.execVor f s
  | .vxor f => Sys2Proof.Machine.execVxor f s
  | .vandn f => Sys2Proof.Machine.execVandn f s
  | .vshl f => Sys2Proof.Machine.execVshl f s
  | .vshr f => Sys2Proof.Machine.execVshr f s
  | .vsra f => Sys2Proof.Machine.execVsra f s
  | .vpopc f => Sys2Proof.Machine.execVpopc f s
  | .vclz f => Sys2Proof.Machine.execVclz f s
  | .vsel f => Sys2Proof.Machine.execVsel f s
  | .vmov f => Sys2Proof.Machine.execVmov f s
  | .vidx f => Sys2Proof.Machine.execVidx f s
  | .vclass f => Sys2Proof.Machine.execVclass f s
  | .vceq f => Sys2Proof.Machine.execVceq f s
  | .vcne f => Sys2Proof.Machine.execVcne f s
  | .vclt f => Sys2Proof.Machine.execVclt f s
  | .vcle f => Sys2Proof.Machine.execVcle f s
  | .vcgt f => Sys2Proof.Machine.execVcgt f s
  | .vcun f => Sys2Proof.Machine.execVcun f s
  | .mand f => Sys2Proof.Machine.execMand f s
  | .mor f => Sys2Proof.Machine.execMor f s
  | .mxor f => Sys2Proof.Machine.execMxor f s
  | .mnot f => Sys2Proof.Machine.execMnot f s
  | .mcnt f => Sys2Proof.Machine.execMcnt f s
  | .mffs f => Sys2Proof.Machine.execMffs f s
  | .mpany f => Sys2Proof.Machine.execMpany f s
  | .mpall f => Sys2Proof.Machine.execMpall f s
  | .vcvt f => Sys2Proof.Machine.execVcvt f s
  | .vqnt f => Sys2Proof.Machine.execVqnt f s
  | .vdqt f => Sys2Proof.Machine.execVdqt f s
  | .vtpl f => Sys2Proof.Machine.execVtpl f s
  | .vpack f => Sys2Proof.Machine.execVpack f s
  | .vunpk f => Sys2Proof.Machine.execVunpk f s
  | .vbfNarrow f => Sys2Proof.Machine.execVbfNarrow f s
  | .vbfWiden f => Sys2Proof.Machine.execVbfWiden f s
  | .vrsum f => Sys2Proof.Machine.execVrsum f s
  | .vrmax f => Sys2Proof.Machine.execVrmax f s
  | .vrmin f => Sys2Proof.Machine.execVrmin f s
  | .vscan f => Sys2Proof.Machine.execVscan f s
  | .vrsumi f => Sys2Proof.Machine.execVrsumi f s
  | .vsegsum f => Sys2Proof.Machine.execVsegsum f s
  | .vperm f => Sys2Proof.Machine.execVperm f s
  | .vrot f => Sys2Proof.Machine.execVrot f s
  | .vbcst f => Sys2Proof.Machine.execVbcst f s
  | .vzip f => Sys2Proof.Machine.execVzip f s
  | .vuzp f => Sys2Proof.Machine.execVuzp f s
  | .vslide f => Sys2Proof.Machine.execVslide f s
  | .vcomp f => Sys2Proof.Machine.execVcomp f s
  | .vexpd f => Sys2Proof.Machine.execVexpd f s
  | .mldb f => Sys2Proof.Machine.execMldb f s
  | .mstep f => Sys2Proof.Machine.execMstep f s
  | .mfold f => Sys2Proof.Machine.execMfold f s
  | .mdrain f => Sys2Proof.Machine.execMdrain f s
  | .mdraini f => Sys2Proof.Machine.execMdraini f s
  | .mzero f => Sys2Proof.Machine.execMzero f s
  | .loopBackEdge c e => Sys2Proof.Machine.execLoopBackEdge c e s
  | .resultLanding c => Sys2Proof.Machine.execResultLanding c s
  | .slipdead c => Sys2Proof.Machine.execSlipdead c s
  | .writeSlip c v => Sys2Proof.Machine.execWriteSlip c v s
  | .writeAst c v => Sys2Proof.Machine.execWriteAst c v s
  | .writeVctl c v => Sys2Proof.Machine.execWriteVctl c v s
  | .writeQcap c r v => Sys2Proof.Machine.execWriteQcap c r v s
  | .writeControlRegister c r v => Sys2Proof.Machine.execWriteControlRegister c r v s
  | .textFetch c e g => Sys2Proof.Machine.execTextFetch c e g s
  | .loadDataReturn c op => Sys2Proof.Machine.execLoadDataReturn c op s
  | .blockFill c op => Sys2Proof.Machine.execBlockFill c op s
  | .storePerformed c op => Sys2Proof.Machine.execStorePerformed c op s
  | .rmwResponse c op => Sys2Proof.Machine.execRmwResponse c op s
  | .pageAheadFill c n => Sys2Proof.Machine.execPageAheadFill c n s
  | .stoppingFault c eng code v => Sys2Proof.Machine.execStoppingFault c eng code v s
  | .deferredFaultTaken c => Sys2Proof.Machine.execDeferredFaultTaken c s
  | .faultQueueHeadWrite d head => Sys2Proof.Machine.execFaultQueueHeadWrite d head s
  | .dispositionResume d ix => Sys2Proof.Machine.execDispositionResume d ix s
  | .dispositionConvert d ix => Sys2Proof.Machine.execDispositionConvert d ix s
  | .dispositionRestore d ix => Sys2Proof.Machine.execDispositionRestore d ix s
  | .dispositionFail d ix => Sys2Proof.Machine.execDispositionFail d ix s
  | .dispatchDecision d => Sys2Proof.Machine.execDispatchDecision d s
  | .strandStart c => Sys2Proof.Machine.execStrandStart c s
  | .ageingPromotion d ix => Sys2Proof.Machine.execAgeingPromotion d ix s
  | .shareTransfer d task dpoint => Sys2Proof.Machine.execShareTransfer d task dpoint s
  | .successorDecrement d task => Sys2Proof.Machine.execSuccessorDecrement d task s
  | .preemption c cause => Sys2Proof.Machine.execPreemption c cause s
  | .stowComplete c => Sys2Proof.Machine.execStowComplete c s
  | .restore d ix => Sys2Proof.Machine.execRestore d ix s
  | .reissueRefused c op => Sys2Proof.Machine.execReissueRefused c op s
  | .resultDelivery d op => Sys2Proof.Machine.execResultDelivery d op s
  | .strandComplete c => Sys2Proof.Machine.execStrandComplete c s
  | .watchdogFire c => Sys2Proof.Machine.execWatchdogFire c s
  | .dieQuiescent d => Sys2Proof.Machine.execDieQuiescent d s
  | .taskRecordFree d rec => Sys2Proof.Machine.execTaskRecordFree d rec s
  | .launchDoorbell d tail => Sys2Proof.Machine.execLaunchDoorbell d tail s
  | .hostRingWrite d off data => Sys2Proof.Machine.execHostRingWrite d off data s
  | .copyStart d cluster => Sys2Proof.Machine.execCopyStart d cluster s
  | .copyGranuleWrite d id => Sys2Proof.Machine.execCopyGranuleWrite d id s
  | .copyComplete d id => Sys2Proof.Machine.execCopyComplete d id s
  | .hpourStart d id => Sys2Proof.Machine.execHpourStart d id s
  | .hpourStaged d id => Sys2Proof.Machine.execHpourStaged d id s
  | .quenchSweep d => Sys2Proof.Machine.execQuenchSweep d s
  | .quenchPassEnd d => Sys2Proof.Machine.execQuenchPassEnd d s
  | .unitWake d unit => Sys2Proof.Machine.execUnitWake d unit s
  | .ptsTick p => Sys2Proof.Machine.execPtsTick p s
  | .renewalResponse p req => Sys2Proof.Machine.execRenewalResponse p req s
  | .poolWriteAck p req => Sys2Proof.Machine.execPoolWriteAck p req s
  | .poolRequest n req => Sys2Proof.Machine.execPoolRequest n req s
  | .leaseExpiry n oid => Sys2Proof.Machine.execLeaseExpiry n oid s
  | .holdArrival at_ req => Sys2Proof.Machine.execHoldArrival at_ req s
  | .holdWindowExpiry at_ req => Sys2Proof.Machine.execHoldWindowExpiry at_ req s
  | .ringSlotArrival d slot => Sys2Proof.Machine.execRingSlotArrival d slot s
  | .topologyAnnounce at_ => Sys2Proof.Machine.execTopologyAnnounce at_ s
  | .topologyAdopt at_ => Sys2Proof.Machine.execTopologyAdopt at_ s
  | .staleRefusal at_ req => Sys2Proof.Machine.execStaleRefusal at_ req s
  | .vetoRelease n req => Sys2Proof.Machine.execVetoRelease n req s
  | .laneFailure owner link lane => Sys2Proof.Machine.execLaneFailure owner link lane s
  | .retrainDone owner link => Sys2Proof.Machine.execRetrainDone owner link s
  | .packageSevered peer => Sys2Proof.Machine.execPackageSevered peer s
  | .sealedFrameReceive owner link frame => Sys2Proof.Machine.execSealedFrameReceive owner link frame s
  | .domainReduction p id => Sys2Proof.Machine.execDomainReduction p id s
  | .scheduleFill d => Sys2Proof.Machine.execScheduleFill d s
  | .barrierArrival c bar => Sys2Proof.Machine.execBarrierArrival c bar s
  | .ringRecordEvict d ix => Sys2Proof.Machine.execRingRecordEvict d ix s
  | .writeLocal d v => Sys2Proof.Machine.execWriteLocal d v s
  | .writePtroot d v => Sys2Proof.Machine.execWritePtroot d v s
  | .writeRwin d v => Sys2Proof.Machine.execWriteRwin d v s
  | .writeBwin d v => Sys2Proof.Machine.execWriteBwin d v s
  | .writePfdist d v => Sys2Proof.Machine.execWritePfdist d v s
  | .writeFqbase d v => Sys2Proof.Machine.execWriteFqbase d v s
  | .writeLrbase d v => Sys2Proof.Machine.execWriteLrbase d v s
  | .writeLrm d v => Sys2Proof.Machine.execWriteLrm d v s
  | .writeStowSlotList d ix v => Sys2Proof.Machine.execWriteStowSlotList d ix v s
  | .writeListenPending d v => Sys2Proof.Machine.execWriteListenPending d v s
  | .writeKey d ix word v => Sys2Proof.Machine.execWriteKey d ix word v s
  | .keyArm d ix v => Sys2Proof.Machine.execKeyArm d ix v s
  | .keyDisarm d ix v => Sys2Proof.Machine.execKeyDisarm d ix v s
  | .writePreemptRequest d rec bit => Sys2Proof.Machine.execWritePreemptRequest d rec bit s
  | .windowWrite d off v => Sys2Proof.Machine.execWindowWrite d off v s
  | .lockInterface r => Sys2Proof.Machine.execLockInterface r s
  | .startInterface d => Sys2Proof.Machine.execStartInterface d s
  | .stopInterface d => Sys2Proof.Machine.execStopInterface d s
  | .getDeviceInterfaceReport d => Sys2Proof.Machine.execGetDeviceInterfaceReport d s
  | .getDeviceInterfaceState d => Sys2Proof.Machine.execGetDeviceInterfaceState d s
  | .reassignmentComplete d => Sys2Proof.Machine.execReassignmentComplete d s
  | .lockedConfigWrite d off v => Sys2Proof.Machine.execLockedConfigWrite d off v s
  | .getVersion p => Sys2Proof.Machine.execGetVersion p s
  | .getCapabilities p => Sys2Proof.Machine.execGetCapabilities p s
  | .negotiateAlgorithms p => Sys2Proof.Machine.execNegotiateAlgorithms p s
  | .getDigests p => Sys2Proof.Machine.execGetDigests p s
  | .getCertificate p => Sys2Proof.Machine.execGetCertificate p s
  | .challenge p => Sys2Proof.Machine.execChallenge p s
  | .getMeasurements p ix => Sys2Proof.Machine.execGetMeasurements p ix s
  | .keyExchange p => Sys2Proof.Machine.execKeyExchange p s
  | .finish p => Sys2Proof.Machine.execFinish p s
  | .keyUpdate p => Sys2Proof.Machine.execKeyUpdate p s
  | .endSession p => Sys2Proof.Machine.execEndSession p s
  | .debuggerRead d g world heat => Sys2Proof.Machine.execDebuggerRead d g world heat s
  | .counterRead d ix => Sys2Proof.Machine.execCounterRead d ix s
  | .hostLogHeadWrite p head => Sys2Proof.Machine.execHostLogHeadWrite p head s
  | .reloadStart p v => Sys2Proof.Machine.execReloadStart p v s
  | .packageReset p => Sys2Proof.Machine.execPackageReset p s
  | .firmwareReady p => Sys2Proof.Machine.execFirmwareReady p s
  | .ideKmRequest p v => Sys2Proof.Machine.execIdeKmRequest p v s
  | .nodeManagementRequest n r => Sys2Proof.Machine.execNodeManagementRequest n r s
  | .serialConfirmation p serial => Sys2Proof.Machine.execSerialConfirmation p serial s
  | .poolNodeRestart n => Sys2Proof.Machine.execPoolNodeRestart n s
  | .linkReplayTimeout owner link => Sys2Proof.Machine.execLinkReplayTimeout owner link s
  | .retuneComplete at_ filter => Sys2Proof.Machine.execRetuneComplete at_ filter s

end Sys2Proof.Machine
end

