-- ==== Sys2Proof/Machine/Schedule.lean ====
section
/-! DEFINITION. The advance of the clock by one cycle: the counts that run with it (R28, R254, R380, R382) and the turns it
queues, the steps of the device that are due (notes/assumptions/1.md). A step checks its own conditions again when its turn
comes. -/
namespace Sys2Proof.Machine
open Sys2Proof

/-! Counts of a cycle. -/

/-- An internal wait (R28). -/
def WaitKind.isInternal : WaitKind → Bool
  | .internal | .draw | .empty false => true
  | _ => false

/-- A wait on an empty queue (R382). -/
def WaitKind.onQueue : WaitKind → Bool
  | .empty _ => true
  | _ => false

/-- Every engine that has not arrived at `end` is in an internal wait (R28). -/
def stuckInside (c : Cell) : Bool :=
  let live := [c.A, c.V, c.M].filter (fun g => g.park != .atEnd)
  !live.isEmpty && live.all (fun g => g.wait.isInternal)

/-- The watchdog count after a cycle (R380). -/
def wdogNext (c : Cell) : Nat :=
  if c.beat then 0
  else if (c.persistent && c.A.wait == .idle) || c.fault.isSome then c.wdogCount
  else min (c.wdogCount + 1) (2 ^ 32 - 1)

/-- A cell after a cycle. -/
def tickCell (ix : Nat) (c : Cell) : Cell :=
  if c.status ≠ .running then c
  else { c with
    internalFor := if stuckInside c then c.internalFor + 1 else 0
    wdogCount := if isCmd ix then c.wdogCount else wdogNext c
    beat := false }

/-- Add to one of a die's performance counters (R382). -/
def Die.addCount (d : Die) (k n : Nat) : Die :=
  if n = 0 then d else { d with counters := insertAt d.counters k (lookup 0 d.counters k + BitVec.ofNat 48 n) }

/-- What the cells of a die add to counters 0, 4 and 5 in a cycle (R382). -/
def cycleCounts (cs : List (Nat × Cell)) : Nat × Nat × Nat :=
  cs.foldl (fun n e =>
    (n.1 + (if !isCmd e.1 && e.2.status != .idle then 1 else 0),
     n.2.1 + (if e.2.V.wait.onQueue then 1 else 0) + (if e.2.M.wait.onQueue then 1 else 0),
     n.2.2 + (if e.2.A.wait == .draw then 1 else 0))) (0, 0, 0)

/-- A die after a cycle: its counters, how long it has been quiescent, and a sweep that has nothing to quench (R254, R272). -/
def tickDie (s : State) (ix : Nat) (d : Die) : Die :=
  let n := cycleCounts (s.cells.filter (fun e => e.1 / 144 == ix))
  let d1 := ((d.addCount 0 n.1).addCount 4 n.2.1).addCount 5 n.2.2
  let q := dieQuiet s ix
  { d1 with
    quiet := if q then d.quiet + 1 else 0, quietReported := d.quietReported && q
    sweepPos := if d.retired.isEmpty ∧ d.sweepPos ≤ passLen then d.sweepPos + 1 else d.sweepPos }

/-! What is due. -/

/-- Steps due at a cell. -/
def dueCell (s : State) (ix : Nat) (c : Cell) : List Due :=
  let one (b : Bool) (u : Due) : List Due := if b then [u] else []
  one (c.landings.any (fun l => decide (l.due ≤ s.cycle))) (.landing ix)
    ++ one (c.status == .starting && decide (c.startAt ≤ s.cycle)) (.strandStart ix)
    ++ one (decide (64 ≤ c.internalFor)) (.slipdead ix)
    ++ one (!isCmd ix && c.status == .running && c.wdogLimit != 0 && decide (c.wdogLimit ≤ c.wdogCount)) (.watchdog ix)
    ++ one (c.status == .held && c.stuck.isSome) (.retry ix)
    ++ one (c.status == .halting) (.halt ix)
    ++ one (c.status == .running && c.A.park != .none && !c.reports.isEmpty) (.report ix)
    ++ (turnOps s c).filterMap (fun o => match o.kind with | .pool | .copyRead => none | _ => some (.op ix o.id))
    ++ (c.lost.map (·.1)).eraseDups.map (fun id => .op ix id)
    ++ (List.range 8).filterMap (fun n => if (c.readS n).nextpg = pagePending then some (.pageAhead ix n) else none)
    ++ c.tokenRegs.map (fun t => .arrival ix t.name)
    ++ one (c.status == .stowing && c.landings.isEmpty) (.stow ix)
    ++ one (!isCmd ix && c.status == .running && ended c) (.strandComplete ix)

/-- Steps due for a copy (R258, R301 to R304). -/
def dueCopy (ix : Nat) (k : Copy) : List Due :=
  if !k.running then []
  else if k.ended then [.copyDone ix k.id, .copyWrite ix k.id]
  else if k.host && !k.staged then [if k.begun then .hpourStaged ix k.id else .hpourStart ix k.id]
  else [.copyWrite ix k.id]

/-- An entry of the ready pool that has waited its period (R246). -/
def agesNow (s : State) (d : Die) (e : ReadyEntry) : Bool :=
  decide (1 ≤ e.cls) && decide (agePeriod d e.cls ≤ s.cycle - e.since) && decide (e.since < s.cycle)

/-- Steps due at a die whose package is up. -/
def dueDie (s : State) (ix : Nat) (d : Die) : List Due :=
  let one (b : Bool) (u : Due) : List Due := if b then [u] else []
  let limit := (s.cell (ix * 144)).wdogLimit
  one d.reassign.isSome (.reassign ix)
    ++ one (s.cycle % 4 == 0 && d.reassign.isNone) (.dispatch ix)
    ++ (d.ready.filter (agesNow s d)).map (fun _ => .ageing ix 0)
    ++ (match d.grants with | e :: _ => [.share ix e.handle e.dpoint] | [] => [])
    ++ d.tasks.filterMap (fun e =>
        match e.2.state, e.2.succs with
        | .complete, h :: _ => some (.successor (handleDie h) h)
        | _, _ => none)
    ++ one (!d.restoring.isEmpty) (.restore ix 0)
    ++ d.stowed.flatMap (fun x => x.ctx.ops.filterMap (fun o =>
        match o.kind with
        | .rmw .. | .store .. | .scatAdd .. => some (.deliver ix o.id)
        | _ => none) ++ x.ctx.tokenRegs.map (fun t => .deliver ix t.mark))
    ++ one (!d.quietReported && limit != 0 && decide (limit ≤ d.quiet)) (.quiescent ix)
    ++ d.tasks.filterMap (fun e =>
        if e.2.state.isFinal && e.2.state != .free && e.2.succs.isEmpty && decide (e.2.final + 2 ^ 20 ≤ s.cycle)
        then some (.recordFree ix e.1) else none)
    ++ (List.range 6).filterMap (fun cl =>
        if d.copies.any (fun k => !k.running && clusterOf k.home == cl) then some (.copyStart ix cl) else none)
    ++ d.copies.flatMap (dueCopy ix)
    ++ one ((List.range 8).any (fun k => (s.die (ix / 8 * 8 + k)).schedule.isSome)) (.fill ix)

/-- Steps of a die's sweep: they come before every other step of the cycle, so that a heat retired in it counts from the next. The cycle
after a pass's last granule is the first of the next pass, which takes granule 0 (R272, R429). Without a retired heat `tickDie` has
already counted the cycle's granule. -/
def dueSweep (ix : Nat) (d : Die) : List Due :=
  (if passLen + (if d.retired.isEmpty then 1 else 0) ≤ d.sweepPos then [.passEnd ix] else [])
    ++ (if d.retired.isEmpty then [] else [.quench ix])

/-- A package's dies run (R397, R398). -/
def pkgUp (p : Package) : Bool := p.phase == .released || p.phase == .ready

/-- Filters of a port that have retuned (R328). -/
def dueRetune (s : State) (p : Nat) (e : Nat × Port) : List Due :=
  (e.2.retune.filter (fun x => decide (x.2 ≤ s.cycle))).map (fun x => .retune p e.1 x.1)

/-- A link whose retraining is over (R338). -/
def retrained (s : State) (t : Port) : Bool := t.pausedTill != 0 && decide (t.pausedTill ≤ s.cycle)

/-- Steps due at a package. -/
def duePkg (s : State) (ix : Nat) (p : Package) : List Due :=
  let one (b : Bool) (u : Due) : List Due := if b then [u] else []
  one (p.phase == .inReset) (.pkgReset ix)
    ++ one (pkgUp p && s.cycle % 1024 == 0) (.pts ix)
    ++ p.ringSlots.map (fun x => .ringSlot (ix * 8 + (x.dst - 1) / 2) x.id)
    ++ (List.range 8).filterMap (fun i =>
        if s.changing && inDomain s ix && portVersion s ix i != s.version then some (.adoptPort ix i) else none)
    ++ p.ports.flatMap (dueRetune s ix)
    ++ p.ports.filterMap (fun e => if retrained s e.2 then
        some (.retrain ⟨.pkg (dieIdOf (8 * ix)).pkg, ⟨e.1 % 41, Nat.mod_lt _ (by decide)⟩⟩) else none)

/-- Steps due at a node. -/
def dueNode (s : State) (ix : Nat) (n : Node) : List Due :=
  n.objects.filterMap (fun e => if e.2.holder.isSome ∧ e.2.expiry ≤ leaseNow s then some (.lease ix e.1) else none)
    ++ n.ports.filterMap (fun e => if retrained s e.2 then
        some (.retrain ⟨.node ⟨ix % 16, Nat.mod_lt _ (by decide)⟩, ⟨e.1 % 41, Nat.mod_lt _ (by decide)⟩⟩) else none)

/-- Every step that is due, in the order in which the turns are taken. -/
def dueList (s : State) : List Due :=
  s.dies.flatMap (fun e => if pkgUp (s.pkg (pkgOfDie e.1)) then dueSweep e.1 e.2 else [])
    ++ s.pkgs.flatMap (fun e => duePkg s e.1 e.2)
    ++ s.cells.flatMap (fun e => dueCell s e.1 e.2)
    ++ s.dies.flatMap (fun e => if pkgUp (s.pkg (pkgOfDie e.1)) then dueDie s e.1 e.2 else [])
    ++ s.reqs.map (fun r => .request r.id)
    ++ s.nodes.flatMap (fun e => dueNode s e.1 e.2)
    ++ (List.range 16).filterMap (fun n => if s.changing && nodeInDomain s n && (s.node n).version != s.version then some (.adoptNode n) else none)

/-- THE NEXT CYCLE: the counts run on and the due steps get their turns. -/
def tick (s : State) : State :=
  let s1 : State := { s with cycle := s.cycle + 1, dies := s.dies.map (fun (e : Nat × Die) =>
    (e.1, if pkgUp (s.pkg (pkgOfDie e.1)) then tickDie s e.1 e.2 else e.2)) }
  let s2 : State := { s1 with cells := s1.cells.map (fun (e : Nat × Cell) => (e.1, tickCell e.1 e.2)) }
  { s2 with turns := (dueList s2).map .due }

/-! Which row a due step stands for. -/

/-- The row that takes a response further: to its package, or to its strand. -/
def responseStep (s : State) (r : PoolReq) : Out :=
  let cell := cellIdOf r.cell
  let node : NodeId := ⟨r.node % 16, Nat.mod_lt _ (by decide)⟩
  match r.op with
  | .read _ _ _ _ => if r.stage = .answered then execRenewalResponse cell.home.pkg r.id s else execBlockFill cell r.id s
  | .fill => execRenewalResponse cell.home.pkg r.id s
  | .copyRead _ => if r.stage = .answered then execRenewalResponse cell.home.pkg r.id s else .next s
  | .copyWrite _ _ _ => .next s
  | .write _ => execPoolWriteAck cell.home.pkg r.id s
  | _ =>
    if (r.veto && r.stage == .answered) || orphaned s r then execVetoRelease node r.id s
    else if ((s.cell r.cell).op? r.id).isSome then execRmwResponse cell r.id s
    else execResultDelivery cell.home r.id s

/-- Where a request stands decides the row that takes it further (R281, R331 to R337). A read of a copy that a reassignment has ended is
still answered (R386 step 3). -/
def requestStep (s : State) (r : PoolReq) : Out :=
  let cell := cellIdOf r.cell
  let node : NodeId := ⟨r.node % 16, Nat.mod_lt _ (by decide)⟩
  match r.stage with
  | .atRing => execHoldArrival (.ringStation cell.home) r.id s
  | .heldRing => execHoldWindowExpiry (.ringStation cell.home) r.id s
  | .heldBridge => execHoldWindowExpiry (.bridgeStation (dieIdOf (bridgeDie r))) r.id s
  | .heldFront => execHoldWindowExpiry (.frontEnd node) r.id s
  | .atBridge =>
    match r.op with
    | .read _ _ _ _ => execBlockFill cell r.id s
    | .copyRead id => if (copy? s (dieOfCell r.cell) id).isNone then .next (lookRead s r) else .next s
    | _ => if firstStage s r.cap r.op = .atRing then execHoldArrival (.bridgeStation (dieIdOf (bridgeDie r))) r.id s
      else execPoolRequest node r.id s
  | .atFront =>
    if olderVersion r.version (s.node r.node).version then execStaleRefusal (.node node) r.id s
    else execHoldArrival (.frontEnd node) r.id s
  | .atNode =>
    if olderVersion r.version (s.node r.node).version then execStaleRefusal (.node node) r.id s
    else execPoolRequest node r.id s
  | .refusedStale => execStaleRefusal (.port cell.home.pkg ⟨r.node % 8, Nat.mod_lt _ (by decide)⟩) r.id s
  | .parked => .next s
  | .answered | .returning => responseStep s r

/-- A reissued read of a cell is refused: by the own die's checks, or by a response that has come back (R439). -/
def reissueRefused (s : State) (ix : Nat) (c : Cell) (o : MemOp) : Bool :=
  o.reissue &&
    (if isLocal ix o.addr then mayPerform s ix c o &&
       (match arrive s ix c o with
        | .ok (some p) _ => (match readHome s o p with | .error _ => true | .ok _ => false)
        | _ => true)
     else (match o.reply with
       | some (.refused _ _) => o.leg == .returned && !onRing s (pkgOfCell ix) o.id
       | _ => false))

/-- The port at which an access to another package is refused as stale (R337). -/
def stalePort (ix : Nat) (o : MemOp) : Fabric :=
  .port ⟨o.homePkg % 32, Nat.mod_lt _ (by decide)⟩ ⟨pkgOfCell ix % 8, Nat.mod_lt _ (by decide)⟩

/-- Take an operation of a cell further; a reissued read that its home refuses is taken by its own row (R439). -/
def opStep (s : State) (ix id : Nat) : Out :=
  let c := s.cell ix
  let cell := cellIdOf ix
  match c.op? id with
  | none => execBlockFill cell id s
  | some o =>
    if reissueRefused s ix c o then execReissueRefused cell id s
    else if staleAtPort s ix o then execStaleRefusal (stalePort ix o) id s
    else
      match o.kind with
      | .load _ _ | .kload _ => execLoadDataReturn cell id s
      | .fill _ _ _ _ => execBlockFill cell id s
      | .store _ _ | .scatAdd _ _ _ => execStorePerformed cell id s
      | .rmw _ _ _ _ => execRmwResponse cell id s
      | .pool | .copyRead => .next s

/-- Take what a stowed strand has in flight further (R207). -/
def deliverStep (s : State) (d : DieId) (id : Nat) : Out :=
  match (strandAt s (dieIx d) id).bind (fun x => (x.2.op? id).map (fun o => (x.1, o))) with
  | some (ix, o) => if staleAtPort s ix o then execStaleRefusal (stalePort ix o) id s else execResultDelivery d id s
  | none => execResultDelivery d id s

/-- A port or node front end hears of the announced version, then adopts it (R335). -/
def adoptStep (s : State) (at_ : Fabric) (told : Bool) : Out :=
  if told then execTopologyAdopt at_ s else execTopologyAnnounce at_ s

/-- A strand whose stopping fault waited for room stops once there is room, and its task fails with it where the fault fails the task
(R255, R33). -/
def retryStop (s : State) (ix : Nat) : State :=
  match (s.cell ix).stuck with
  | some k =>
    if recordRoom s (recordDie s ix) then
      (match k.held with
       | some h => holdWith s ix k.record h
       | none => if k.fails then failTask (stopWith s ix k.record) (s.cell ix).handle else stopWith s ix k.record)
    else s
  | none => s

/-- One ageing turn: the first entry of the ready pool that is due moves up. The pool may have changed since the turn was queued (R246). -/
def ageStep (s : State) (d : Nat) : Out :=
  match (s.die d).ready.findIdx? (agesNow s (s.die d)) with
  | some i => execAgeingPromotion (dieIdOf d) i s
  | none => .next s

/-- A step that the clock found due, as its row's meaning. -/
def runDue (u : Due) (s : State) : Out :=
  match u with
  | .landing c => execResultLanding (cellIdOf c) s
  | .slipdead c => execSlipdead (cellIdOf c) s
  | .strandStart c => execStrandStart (cellIdOf c) s
  | .strandComplete c => execStrandComplete (cellIdOf c) s
  | .halt c =>
    match (s.cell c).preempt with
    | some why => execPreemption (cellIdOf c) why s
    | none => .next s
  | .stow c => execStowComplete (cellIdOf c) s
  | .watchdog c => execWatchdogFire (cellIdOf c) s
  | .retry c => .next (retryStop s c)
  | .report c => execDeferredFaultTaken (cellIdOf c) s
  | .op c id => opStep s c id
  | .pageAhead c n => execPageAheadFill (cellIdOf c) (BitVec.ofNat 3 n) s
  | .arrival c bar => execBarrierArrival (cellIdOf c) (BitVec.ofNat 7 bar) s
  | .dispatch d => execDispatchDecision (dieIdOf d) s
  | .ageing d _ => ageStep s d
  | .share d task p => execShareTransfer (dieIdOf d) task ⟨p % 8, Nat.mod_lt _ (by decide)⟩ s
  | .successor d task => execSuccessorDecrement (dieIdOf d) task s
  | .restore d ix => execRestore (dieIdOf d) ix s
  | .deliver d id => deliverStep s (dieIdOf d) id
  | .quench d => execQuenchSweep (dieIdOf d) s
  | .passEnd d => execQuenchPassEnd (dieIdOf d) s
  | .quiescent d => execDieQuiescent (dieIdOf d) s
  | .recordFree d r => execTaskRecordFree (dieIdOf d) ⟨r % 4096, Nat.mod_lt _ (by decide)⟩ s
  | .copyStart d cl => execCopyStart (dieIdOf d) ⟨cl % 6, Nat.mod_lt _ (by decide)⟩ s
  | .copyWrite d id => execCopyGranuleWrite (dieIdOf d) id s
  | .copyDone d id => execCopyComplete (dieIdOf d) id s
  | .hpourStart d id => execHpourStart (dieIdOf d) id s
  | .hpourStaged d id => execHpourStaged (dieIdOf d) id s
  | .fill d => execScheduleFill (dieIdOf d) s
  | .reassign d => execReassignmentComplete (dieIdOf d) s
  | .pts p => execPtsTick (dieIdOf (8 * p)).pkg s
  | .request id =>
    match req? s id with
    | some r => requestStep s r
    | none => .next s
  | .lease n oid => execLeaseExpiry ⟨n % 16, Nat.mod_lt _ (by decide)⟩ (BitVec.ofNat 32 oid) s
  | .ringSlot d slot => execRingSlotArrival (dieIdOf d) slot s
  | .adoptPort p i => adoptStep s (.port (dieIdOf (8 * p)).pkg ⟨i % 8, Nat.mod_lt _ (by decide)⟩) (!issuing s p i)
  | .adoptNode n => adoptStep s (.node ⟨n % 16, Nat.mod_lt _ (by decide)⟩) (s.node n).announced
  | .retune p i f =>
    execRetuneComplete (.port (dieIdOf (8 * p)).pkg ⟨i % 8, Nat.mod_lt _ (by decide)⟩) ⟨f % 8, Nat.mod_lt _ (by decide)⟩ s
  | .retrain l => execRetrainDone l.owner l.link s
  | .pkgReset p => execPackageReset (dieIdOf (8 * p)).pkg s

end Sys2Proof.Machine
end

