-- ==== Sys2Proof/Machine/Engine.lean ====
section
/-! DEFINITION. What one engine does when its turn comes (R23, R38, R40, R41, R51, R179, R197, R441): fetching, skipping,
decoding, and handing its words to `exec`; and the order in which turns are taken when none is queued. -/
namespace Sys2Proof.Machine
open Sys2Proof

/-- Apply a function to the next state of an outcome. -/
def mapNext (f : State → State) : Out → Out
  | .next s => .next (f s)
  | .fault r => .fault r
  | .refused r => .refused r

/-! Fetch (R40, R441). -/

/-- The n bytes of text from an address, or the first address whose granule is absent. -/
def cachedText (c : Cell) (a : Nat) : Nat → Except Nat (List Byte)
  | 0 => .ok []
  | n + 1 =>
    match cachedByte c a with
    | none => .error a
    | some b =>
      match cachedText c (a + 1) n with
      | .ok bs => .ok (b :: bs)
      | .error x => .error x

/-- Whether the tag of a first byte makes the word one of engine e's own or a common word (R23). -/
def ownWord (e : Engine) (b : Byte) : Bool :=
  let t := b.extractLsb' 0 2
  t == 3 || t == engNo e

/-- The engine stands at the body end of its innermost loop, at that loop's depth (R179). -/
def atBodyEnd (g : EngineState) : Bool :=
  match g.loops with
  | l :: _ => l.depth == g.rets.length && g.pc == l.stop
  | [] => false

/-- A word of n parcels at the engine's pc would pass the body end of its innermost loop (R179). -/
def passesBody (g : EngineState) (n : Nat) : Bool :=
  match g.loops with
  | l :: _ => l.depth == g.rets.length && decide (g.pc.toNat < l.stop.toNat) && decide (l.stop.toNat < g.pc.toNat + 4 * n)
  | [] => false

/-- What an engine finds at its pc. -/
inductive Fetched where
  | illegal
  | absent (granule : Word)
  | skip (parcels dest : Nat)
  | word (i : Instr)
deriving DecidableEq, Repr

/-- Fetch and decode the word at an engine's pc (R23, R38, R55, R66 steps 1 and 2). -/
def fetchWord (c : Cell) (e : Engine) : Fetched :=
  let g := c.engine e
  let pc := g.pc.toNat
  if !inText c g.pc then .illegal
  else
    match cachedByte c pc with
    | none => .absent (BitVec.ofNat 64 (pc / 32 * 32))
    | some b =>
      let n := wordLen b
      if textEnd c < pc + 4 * n ∨ passesBody g n then .illegal
      else
        match cachedText c pc (4 * n) with
        | .error a => .absent (BitVec.ofNat 64 (a / 32 * 32))
        | .ok bs =>
          match decode bs with
          | .ok (i, _) => if ownWord e b then .word i else .skip n (destOf i)
          | .error _ => if ownWord e b then .illegal else .skip n 0

/-! The default order of turns (notes/assumptions/1.md). -/

/-- The first running cell with a number above n. -/
def nextRunning (s : State) (n : Nat) : Option Nat :=
  match s.cells.find? (fun e => decide (n ≤ e.1) && e.2.status == .running) with
  | some e => some e.1
  | none => none

/-- Deferred faults are taken in this cycle: the A engine has issued nothing in it. -/
def reportsDue (cycle : Nat) (c : Cell) : Bool :=
  c.status == .running && !c.reports.isEmpty && decide (c.A.nextIssue ≤ cycle)

/-- The turn passes on: A, V, M of a cell (the order in which R56 names the fault of one cycle), then the next running cell,
then the clock advances. Deferred faults are taken once V and M have had the cycle, so that a precise fault of theirs is recorded
first (R197). -/
def rotate (s : State) : State :=
  match s.eng with
  | .A => { s with eng := .V }
  | .V => { s with eng := .M }
  | .M =>
    let u := if reportsDue s.cycle s.cur then takeReport s s.me else s
    match nextRunning u (u.me + 1) with
    | some ix => { u with eng := .A, focus := cellIdOf ix }
    | none =>
      let t := tick u
      match nextRunning t 0 with
      | some ix => { t with eng := .A, focus := cellIdOf ix }
      | none => { t with eng := .A }

/-- An engine of the cell in focus takes its turn. A skipped word and a loop exit leave the turn with it (R51). -/
def engineStep (s : State) : Out :=
  let c := s.cur
  let e := s.eng
  let g := c.engine e
  if c.status ≠ .running ∨ g.park ≠ .none ∨ s.cycle < g.nextIssue then .next (rotate s)
  else if e = .A ∧ !c.reports.isEmpty then .next (rotate s)
  else if e = .A ∧ c.fault.isSome then .next (rotate (if isCmd s.me then retryHeld s s.me else s))
  else if atBodyEnd g then mapNext rotate (execLoopBackEdge s.focus e s)
  else
    match fetchWord c e with
    | .illegal => .next (rotate (faultHere s e .illegal g.pc))
    | .absent a =>
      if mayLeave s s.myDie a then execTextFetch s.focus e a s
      else .next (rotate (s.upd (fun c => c.modEngine e (fun g => { g with wait := .external }))))
    | .skip n x =>
      .next (s.upd (fun c => (c.bump e x).modEngine e (fun g =>
        { g with pc := g.pc + BitVec.ofNat 64 (4 * n), wait := .none })))
    | .word i => mapNext rotate (exec i s)

/-- The step when no turn is queued: a package in reset comes up, a running engine takes its turn. -/
def idleStep (s : State) : Out :=
  if (s.pkg s.myPkg).phase = .inReset then execPackageReset s.focus.pkg s else engineStep s

/-- A queued turn. -/
def takeTurn (t : Turn) (s : State) : Out :=
  match t with
  | .engine c e => engineStep { s with focus := c, eng := e }
  | .event i => exec i s
  | .due u => runDue u s

/-! Placing an instruction where the next step runs it. -/

/-- The engine that runs a word with a given tag; common words are given to A. -/
def tagEngine (tag : BitVec 2) : Engine := if tag = 1 then .V else if tag = 2 then .M else .A

/-- Address at which `withFetchWord` places an instruction: the image address of die 0 of package 0 (R397). -/
def placeAddr : Nat := 0x1000000

/-- The granules of a byte list, as instruction-cache entries from a granule number on. -/
def cacheGranules (g : Nat) : Nat → List Byte → SMap (List Byte)
  | 0, _ => []
  | n + 1, bs => (g, fitBytes 32 (bs.take 32)) :: cacheGranules (g + 1) n (bs.drop 32)

/-- The machine with 24 bytes as the text its command cell runs next: package 0 is released, and the engine of the word's
tag stands at the first of them (notes/assumptions/1.md). -/
def placeWord (s : State) (bs : List Byte) : State :=
  let e := tagEngine ((byteAt bs 0).extractLsb' 0 2)
  let at_ (x : EngineState) : EngineState := { x with
    pc := BitVec.ofNat 64 placeAddr, nextIssue := 0, loops := [], park := .none, wait := .none }
  let c := s.cell 0
  let s1 := s.modPkg 0 (fun p => { p with phase := if p.phase = .inReset then .ready else p.phase })
  let s2 := s1.setCell 0 { c with
    status := .running, A := at_ c.A, V := at_ c.V, M := at_ c.M, entry := BitVec.ofNat 64 placeAddr, parcels := 8
    icache := cacheGranules (placeAddr / 32) 1 bs, reports := [], fault := none
    heat := if c.heat = 0 then commandHeat else c.heat }
  { s2 with mem := Memory.write s2.mem placeAddr bs, turns := [], focus := ⟨0, 0, 0⟩, eng := e }

end Sys2Proof.Machine
end

