-- ==== Sys2Proof/Machine/Step.lean ====
section
/-! DEFINITION. One step of the machine: a queued turn, or the default order. -/
namespace Sys2Proof.Machine
open Sys2Proof

/-- One step: the first queued turn is taken; with none queued, the default order of turns applies. -/
def step (s : State) : Host.Outcome State Fault Refusal :=
  match s.turns with
  | [] => idleStep s
  | t :: ts => takeTurn t { s with turns := ts }

/-- The state with an instruction of the opcode table stored where `step` fetches its next instruction. -/
def State.withFetchWord (s : State) (nbits w : Nat) : State := placeWord s (tableBytes nbits w)

end Sys2Proof.Machine
end

