-- ==== Sys2Proof/Safety.lean ====
section
/-! DEFINITION. The terms in which claims speak: when a word may issue, what issuing a word leaves alone, and the form of
memory every step keeps. A run is safe when every step of it answers a next state. -/
namespace Sys2Proof.Machine
open Sys2Proof

/-- A step is safe when it answers a next state: the model neither faults nor refuses. -/
def SafeStep (s : State) : Prop := ∃ t, step s = .next t

/-- The invariant of memory: the bytes of the domain stand in canonical form. -/
def MemOk (s : State) : Prop := Memory.wf s.mem = true

/-! A words. -/

/-- An A word issues with its guard true: its mode is right (R66 step 3), the shared registers it names are in order (R27), its
a- and k-registers hold the values of earlier words (R91), its guard is true (R41), and no acquire holds back an access
(R315). -/
structure AGo (i : AInfo) (s : State) : Prop where
  mode  : i.cm = true → isCmd s.me = true
  reads : ∀ x ∈ i.pg.toNat :: i.reads, s.cur.mayRead .A x = true
  dest  : s.cur.mayWrite .A i.dest = true
  ready : aReady s.cur i = true
  guard : s.cur.readP i.pg.toNat = true
  hold  : i.access = true → s.cur.acquire = []

/-- The same with the guard false (R41). -/
structure ANot (i : AInfo) (s : State) : Prop where
  mode  : i.cm = true → isCmd s.me = true
  reads : ∀ x ∈ i.pg.toNat :: i.reads, s.cur.mayRead .A x = true
  dest  : s.cur.mayWrite .A i.dest = true
  ready : aReady s.cur i = true
  guard : s.cur.readP i.pg.toNat = false

/-- Everything outside the cell in focus is as it was, but for the event counters of its die. -/
structure Outside (s t : State) : Prop where
  rest   : { t with cells := s.cells, dies := s.dies } = s
  cells  : ∀ ix, ix ≠ s.me → t.cell ix = s.cell ix
  dies   : ∀ d, { t.die d with counters := (s.die d).counters } = s.die d
  memory : ∀ a, Memory.byte t.mem a = Memory.byte s.mem a

/-- State t is s but for the cell in focus, the counters of its die and the model's own numbers. -/
def Local (s t : State) : Prop := Outside { s with nextId := t.nextId, free := t.free } t

/-- The counts of shared registers of a cell c once engine e has passed a word whose destination is register x (none where x is 0): the
engine expects one write more, and where the result does not land later the write is made, so that the register's version is that count
(R27). -/
structure Counted (e : Engine) (x : Nat) (late : Bool) (c d : Cell) : Prop where
  expects : ∀ y, d.expects e y = c.expects e y + (if x ≠ 0 ∧ y = x then 1 else 0)
  version : ∀ y, d.version y = if x ≠ 0 ∧ y = x ∧ late = false then c.expects e x + 1 else c.version y

/-- State t is state u, in which a word of engine e with destination x took its effect, once the word of n parcels has issued: the pc
passes the word (R177), IRET counts it (R83), the engine issues nothing before the cycle after it (R51), and the counts of shared
registers are those of R27; the engine's other state, the cell's other state and everything else are as in u. -/
structure Issued (e : Engine) (n x : Nat) (late : Bool) (u t : State) : Prop where
  pc     : (t.cur.engine e).pc = (u.cur.engine e).pc + BitVec.ofNat 64 (4 * n)
  iret   : t.cur.iret = u.cur.iret + 1
  next   : u.cycle + 1 ≤ (t.cur.engine e).nextIssue
  engine : { t.cur.engine e with
             pc := (u.cur.engine e).pc, nextIssue := (u.cur.engine e).nextIssue, wait := (u.cur.engine e).wait
             expect := (u.cur.engine e).expect } = u.cur.engine e
  cell   : { t.cur.setEngine e (u.cur.engine e) with iret := u.cur.iret, versions := u.cur.versions } = u.cur
  counts : Counted e x late u.cur t.cur
  outside : Outside u t

/-- The A engine has issued its word, whose destination is shared register x. -/
abbrev AIssued (x : Nat) (late : Bool) (u t : State) : Prop := Issued .A 1 x late u t

/-- The one A word whose shared result, p15, lands with its response (R290). -/
def landsLater : Instr → Bool
  | .ppop _ _ _ => true
  | _ => false

/-- State t is state u with the A engine's word issued but its pc as the word's own effect left it. -/
structure AJumped (u t : State) : Prop where
  pc     : t.cur.A.pc = u.cur.A.pc
  iret   : t.cur.iret = u.cur.iret + 1
  engine : { t.cur.A with nextIssue := u.cur.A.nextIssue, wait := u.cur.A.wait } = u.cur.A
  cell   : { t.cur with A := u.cur.A, iret := u.cur.iret } = u.cur
  outside : Outside u t

/-- The A word issues in s, and u is s with the word's own effect. -/
def Issues (i : Instr) (s u : State) : Prop := ∃ t, exec i s = .next t ∧ AIssued (destOf i) (landsLater i) u t

/-- The A word's guard is false: it issues, its destination counted, and has no effect (R27, R41). -/
def Passes (i : Instr) (s : State) : Prop := ∃ t, exec i s = .next t ∧ AIssued (destOf i) false s t

/-- The A word's own effect is to write a value to an a-register; a0 discards it (R79). -/
def WritesA (i : Instr) (s : State) (d : BitVec 5) (v : Word) : Prop := Issues i s (putA s d.toNat v)

/-- The A word's own effect is to write a predicate; p0 discards it (R79). -/
def WritesP (i : Instr) (s : State) (e : BitVec 4) (v : Bool) : Prop := Issues i s (putP s e.toNat v)

/-- The A word's own effect is to write a k-register. -/
def WritesK (i : Instr) (s : State) (k : BitVec 4) (v : Cap) : Prop := Issues i s (putK s k.toNat v)

/-- The A word takes a stopping fault with its pc unchanged (R29, R191). -/
def Traps (i : Instr) (s : State) (code : FaultCode) (v : Word) : Prop := exec i s = .next (takeFault s s.me 0 code v)

/-- The A word takes a stopping fault once it has brought the machine to state u (R240, R312); a miss that a home has referred is
forgotten with the word. -/
def TrapsAfter (i : Instr) (s u : State) (code : FaultCode) (v : Word) : Prop :=
  exec i s = .next (takeFault (u.upd (fun c => { c with refer := none })) u.me 0 code v)

/-- What every A word names besides its effect: its guard, whether it is of command mode only (R71), the shared registers it reads and
writes (R27), the a- and k-registers it reads or writes (R91), and whether it is an access, which an acquire holds back (R315); none for
the words of other engines and for events. -/
def aInfoOf : Instr → Option AInfo
  | .add p t s d => some { pg := p, aregs := [d.toNat, t.toNat, s.toNat] }
  | .sub p t s d => some { pg := p, aregs := [d.toNat, t.toNat, s.toNat] }
  | .and p t s d => some { pg := p, aregs := [d.toNat, t.toNat, s.toNat] }
  | .or p t s d => some { pg := p, aregs := [d.toNat, t.toNat, s.toNat] }
  | .xor p t s d => some { pg := p, aregs := [d.toNat, t.toNat, s.toNat] }
  | .sll p t s d => some { pg := p, aregs := [d.toNat, t.toNat, s.toNat] }
  | .srl p t s d => some { pg := p, aregs := [d.toNat, t.toNat, s.toNat] }
  | .sra p t s d => some { pg := p, aregs := [d.toNat, t.toNat, s.toNat] }
  | .mul p t s d => some { pg := p, aregs := [d.toNat, t.toNat, s.toNat] }
  | .mulh p t s d => some { pg := p, aregs := [d.toNat, t.toNat, s.toNat] }
  | .mulhn p t s d => some { pg := p, aregs := [d.toNat, t.toNat, s.toNat] }
  | .div p t s d => some { pg := p, aregs := [d.toNat, t.toNat, s.toNat] }
  | .divn p t s d => some { pg := p, aregs := [d.toNat, t.toNat, s.toNat] }
  | .rem p t s d => some { pg := p, aregs := [d.toNat, t.toNat, s.toNat] }
  | .remn p t s d => some { pg := p, aregs := [d.toNat, t.toNat, s.toNat] }
  | .min p t s d => some { pg := p, aregs := [d.toNat, t.toNat, s.toNat] }
  | .max p t s d => some { pg := p, aregs := [d.toNat, t.toNat, s.toNat] }
  | .minn p t s d => some { pg := p, aregs := [d.toNat, t.toNat, s.toNat] }
  | .maxn p t s d => some { pg := p, aregs := [d.toNat, t.toNat, s.toNat] }
  | .addw p t s d => some { pg := p, aregs := [d.toNat, t.toNat, s.toNat] }
  | .subw p t s d => some { pg := p, aregs := [d.toNat, t.toNat, s.toNat] }
  | .clz p s d => some { pg := p, aregs := [d.toNat, s.toNat] }
  | .ctz p s d => some { pg := p, aregs := [d.toNat, s.toNat] }
  | .popc p s d => some { pg := p, aregs := [d.toNat, s.toNat] }
  | .andn p t s d => some { pg := p, aregs := [d.toNat, t.toNat, s.toNat] }
  | .rol p t s d => some { pg := p, aregs := [d.toNat, t.toNat, s.toNat] }
  | .ror p t s d => some { pg := p, aregs := [d.toNat, t.toNat, s.toNat] }
  | .addi p _ s d => some { pg := p, aregs := [d.toNat, s.toNat] }
  | .andi p _ s d => some { pg := p, aregs := [d.toNat, s.toNat] }
  | .ori p _ s d => some { pg := p, aregs := [d.toNat, s.toNat] }
  | .xori p _ s d => some { pg := p, aregs := [d.toNat, s.toNat] }
  | .slli p _ s d => some { pg := p, aregs := [d.toNat, s.toNat] }
  | .srli p _ s d => some { pg := p, aregs := [d.toNat, s.toNat] }
  | .srai p _ s d => some { pg := p, aregs := [d.toNat, s.toNat] }
  | .lui _ d => some { pg := 0, aregs := [d.toNat] }
  | .addpc _ d => some { pg := 0, aregs := [d.toNat] }
  | .cmp p t s _ e => some { pg := p, dest := e.toNat, aregs := [t.toNat, s.toNat] }
  | .cmpAnd p t s _ e => some { pg := p, reads := [e.toNat], dest := e.toNat, aregs := [t.toNat, s.toNat] }
  | .cmpOr p t s _ e => some { pg := p, reads := [e.toNat], dest := e.toNat, aregs := [t.toNat, s.toNat] }
  | .cmpi p _ s _ e => some { pg := p, dest := e.toNat, aregs := [s.toNat] }
  | .pand p b a e => some { pg := p, reads := [a.toNat, b.toNat], dest := e.toNat }
  | .por p b a e => some { pg := p, reads := [a.toNat, b.toNat], dest := e.toNat }
  | .pxor p b a e => some { pg := p, reads := [a.toNat, b.toNat], dest := e.toNat }
  | .pandn p b a e => some { pg := p, reads := [a.toNat, b.toNat], dest := e.toNat }
  | .pset p _ e => some { pg := p, dest := e.toNat }
  | .mfsr p r d => some { pg := p, cm := srCommand r.toNat, aregs := [d.toNat] }
  | .mtsr p r s => some { pg := p, cm := srCommand r.toNat, dest := srShared r, aregs := [s.toNat] }
  | .mtb p s b => some { pg := p, dest := shB b.toNat, aregs := [s.toNat] }
  | .ld p _ _ s d => some { pg := p, aregs := [s.toNat, d.toNat], access := true }
  | .st p _ _ s d => some { pg := p, aregs := [s.toNat, d.toNat], access := true }
  | .ldq p _ _ s _ => some { pg := p, aregs := [s.toNat], access := true }
  | .stq p _ _ s _ => some { pg := p, aregs := [s.toNat], access := true }
  | .sbase p s _ => some { pg := p, aregs := [s.toNat] }
  | .sdim p t s _ _ => some { pg := p, aregs := [t.toNat, s.toNat] }
  | .sunf p t s _ => some { pg := p, aregs := [t.toNat, s.toNat] }
  | .spage p s _ => some { pg := p, aregs := [s.toNat] }
  | .sgo p _ _ _ => some { pg := p, access := true }
  | .gathW p _ s _ => some { pg := p, aregs := [s.toNat], access := true }
  | .gathD p _ s _ => some { pg := p, aregs := [s.toNat], access := true }
  | .gathG p _ s _ => some { pg := p, aregs := [s.toNat], access := true }
  | .scatW p _ s _ => some { pg := p, aregs := [s.toNat], access := true }
  | .scatD p _ s _ => some { pg := p, aregs := [s.toNat], access := true }
  | .scatG p _ s _ => some { pg := p, aregs := [s.toNat], access := true }
  | .scatAddW p _ s _ => some { pg := p, aregs := [s.toNat], access := true }
  | .scatAddD p _ s _ => some { pg := p, aregs := [s.toNat], access := true }
  | .scatAddF p _ s _ => some { pg := p, aregs := [s.toNat], access := true }
  | .atomAdd p _ t s d => some { pg := p, aregs := [s.toNat, t.toNat, d.toNat], access := true }
  | .atomAnd p _ t s d => some { pg := p, aregs := [s.toNat, t.toNat, d.toNat], access := true }
  | .atomOr p _ t s d => some { pg := p, aregs := [s.toNat, t.toNat, d.toNat], access := true }
  | .atomXor p _ t s d => some { pg := p, aregs := [s.toNat, t.toNat, d.toNat], access := true }
  | .atomMin p _ t s d => some { pg := p, aregs := [s.toNat, t.toNat, d.toNat], access := true }
  | .atomMax p _ t s d => some { pg := p, aregs := [s.toNat, t.toNat, d.toNat], access := true }
  | .atomMinn p _ t s d => some { pg := p, aregs := [s.toNat, t.toNat, d.toNat], access := true }
  | .atomMaxn p _ t s d => some { pg := p, aregs := [s.toNat, t.toNat, d.toNat], access := true }
  | .atomSwap p _ t s d => some { pg := p, aregs := [s.toNat, t.toNat, d.toNat], access := true }
  | .atomCas p _ t s d => some { pg := p, aregs := [s.toNat, t.toNat, d.toNat], access := true }
  | .atomFadd p t s d => some { pg := p, aregs := [s.toNat, t.toNat, d.toNat], access := true }
  | .kld p s k => some { pg := p, aregs := [s.toNat], kregs := [k.toNat], access := true }
  | .kst p s k => some { pg := p, aregs := [s.toNat], kregs := [k.toNat], access := true }
  | .kbnd p d s k => some { pg := p, aregs := [d.toNat, s.toNat], kregs := [k.toNat] }
  | .krgt p s k => some { pg := p, aregs := [s.toNat], kregs := [k.toNat] }
  | .kinf p d s k => some { pg := p, aregs := [d.toNat, s.toNat], kregs := [k.toNat], access := true }
  | .kmov p j k => some { pg := p, kregs := [j.toNat, k.toNat] }
  | .pld p _ _ s k => some { pg := p, aregs := [s.toNat], kregs := [k.toNat], access := true }
  | .pst p _ _ s k => some { pg := p, aregs := [s.toNat], kregs := [k.toNat], access := true }
  | .patAdd p _ _ d s k => some { pg := p, aregs := [s.toNat, d.toNat], kregs := [k.toNat], access := true }
  | .patAnd p _ _ d s k => some { pg := p, aregs := [s.toNat, d.toNat], kregs := [k.toNat], access := true }
  | .patOr p _ _ d s k => some { pg := p, aregs := [s.toNat, d.toNat], kregs := [k.toNat], access := true }
  | .patXor p _ _ d s k => some { pg := p, aregs := [s.toNat, d.toNat], kregs := [k.toNat], access := true }
  | .patMin p _ _ d s k => some { pg := p, aregs := [s.toNat, d.toNat], kregs := [k.toNat], access := true }
  | .patMax p _ _ d s k => some { pg := p, aregs := [s.toNat, d.toNat], kregs := [k.toNat], access := true }
  | .patMinn p _ _ d s k => some { pg := p, aregs := [s.toNat, d.toNat], kregs := [k.toNat], access := true }
  | .patMaxn p _ _ d s k => some { pg := p, aregs := [s.toNat, d.toNat], kregs := [k.toNat], access := true }
  | .patSwap p _ _ d s k => some { pg := p, aregs := [s.toNat, d.toNat], kregs := [k.toNat], access := true }
  | .patCas p _ _ d s k => some { pg := p, aregs := [s.toNat, d.toNat, d.toNat + 1], kregs := [k.toNat], access := true }
  | .patFadd p _ d s k => some { pg := p, aregs := [s.toNat, d.toNat], kregs := [k.toNat], access := true }
  | .ppush p d k => some { pg := p, aregs := [d.toNat], kregs := [k.toNat], access := true }
  | .ppop p d k => some { pg := p, dest := 15, aregs := [d.toNat], kregs := [k.toNat], access := true }
  | .pgive p d k => some { pg := p, aregs := [d.toNat], kregs := [k.toNat], access := true }
  | .ptake p d k => some { pg := p, aregs := [d.toNat], kregs := [k.toNat], access := true }
  | .pour p _ s => some { pg := p, aregs := [s.toNat], access := true }
  | .hpour p _ s => some { pg := p, cm := true, aregs := [s.toNat], access := true }
  | .ctwany p s d => some { pg := p, aregs := [s.toNat, d.toNat], access := true }
  | .ctwall p s => some { pg := p, aregs := [s.toNat], access := true }
  | .ctffr p s d => some { pg := p, aregs := [s.toNat, d.toNat], access := true }
  | .ctstat p s d => some { pg := p, aregs := [s.toNat, d.toNat], access := true }
  | .ctclr p s => some { pg := p, aregs := [s.toNat], access := true }
  | .rclaim p t s d => some { pg := p, aregs := [s.toNat, t.toNat, d.toNat], access := true }
  | .rpubl p t s d => some { pg := p, aregs := [s.toNat, t.toNat, d.toNat], access := true }
  | .rwaitf p t s d => some { pg := p, aregs := [s.toNat, t.toNat, d.toNat], access := true }
  | .rwaite p t s d => some { pg := p, aregs := [s.toNat, t.toNat, d.toNat], access := true }
  | .rfree p t s d => some { pg := p, aregs := [s.toNat, t.toNat, d.toNat], access := true }
  | .rpeek p s d => some { pg := p, aregs := [s.toNat, d.toNat], access := true }
  | .fenceRel p _ => some { pg := p }
  | .fenceAcq p _ => some { pg := p }
  | .fenceSc p _ => some { pg := p }
  | .wlacq p d k => some { pg := p, aregs := [d.toNat], kregs := [k.toNat], access := true }
  | .wlrenew p s k => some { pg := p, aregs := [s.toNat], kregs := [k.toNat], access := true }
  | .wlrel p s k => some { pg := p, aregs := [s.toNat], kregs := [k.toNat], access := true }
  | .wlchk p d s k => some { pg := p, aregs := [d.toNat, s.toNat], kregs := [k.toNat], access := true }
  | .trap p _ => some { pg := p }
  | .eret p => some { pg := p, cm := true }
  | .heatq p d => some { pg := p, aregs := [d.toNat] }
  | .brk p => some { pg := p }
  | .wfe p => some { pg := p }
  | .tlaunch p s d => some { pg := p, aregs := [s.toNat, d.toNat], access := true }
  | .tdep p t s => some { pg := p, aregs := [s.toNat, t.toNat] }
  | .tqry p s d => some { pg := p, aregs := [s.toNat, d.toNat], access := true }
  | .tkill p s => some { pg := p, cm := true, aregs := [s.toNat] }
  | .valloc p t s d => some { pg := p, cm := true, aregs := [t.toNat, s.toNat, d.toNat] }
  | .vfree p s => some { pg := p, cm := true, aregs := [s.toNat] }
  | .tlbinv p s => some { pg := p, cm := true, aregs := [s.toNat] }
  | .pgprobe p s d => some { pg := p, cm := true, aregs := [s.toNat, d.toNat] }
  | .schpub p s => some { pg := p, cm := true, aregs := [s.toNat], access := true }
  | .schadv p s => some { pg := p, cm := true, aregs := [s.toNat] }
  | .qpop p _ d => some { pg := p, aregs := [d.toNat] }
  | .qpush p s _ => some { pg := p, aregs := [s.toNat] }
  | .sel p _ e t s d => some { pg := p, reads := [e.toNat], aregs := [t.toNat, s.toNat, d.toNat] }
  | .ltrip p s l => some { pg := p, dest := if l.toNat < 6 then shTrip l.toNat else 0, aregs := [s.toNat] }
  | _ => none

/-! Accesses of an A word. -/

/-- What the checks at issue give the elements of an access, in order: their sites and the TLB after them; none where one is
refused or does not translate (R260 to R262, R268, R275). -/
def accepted (s : State) (win : Bool) : List TlbEntry → List Part → Option (List (Option Site) × List TlbEntry)
  | t, [] => some ([], t)
  | t, q :: qs =>
    match checkPart s s.me t q win with
    | .ok site t' =>
      match accepted s win t' qs with
      | some (ss, u) => some (site :: ss, u)
      | none => none
    | _ => none

/-- The operations that the elements of an access leave the cell as: numbered from `id` on in order, carrying the package's pts
and with no topology version yet. -/
def opsFrom (word pts : Nat) : Nat → List Part → List (Option Site) → List MemOp
  | id, q :: qs, site :: ss =>
    ⟨id, word, q.kind, q.addr, q.len, pts, site, false, false, q.bound, 0, 0, none, .out, none, false⟩ :: opsFrom word pts (id + 1) qs ss
  | _, _, _ => []

/-- The packet of a cell's request, as it is given to its package's ring: it waits outside while a refused packet of its die
circulates towards the same station (R325). -/
def slotOf (s : State) (id : Nat) (w : Word) : RingSlot :=
  ⟨id, dieStation (s.myDie % 8), routeOf s.me w, 0, false,
    !(s.pkg s.myPkg).ringSlots.any (slotBlocks (dieStation (s.myDie % 8)) (routeOf s.me w))⟩

/-- The packets of the elements homed on other dies, as they are given to the package's ring. -/
def slotsFrom (s : State) : Nat → List Part → List RingSlot
  | _, [] => []
  | id, q :: qs => if isLocal s.me q.addr then slotsFrom s (id + 1) qs else slotOf s id q.addr :: slotsFrom s (id + 1) qs

/-- The elements of an access may leave the cell: their addresses exist, no earlier write to bytes they read is outstanding,
and the own die accepts each that it homes. -/
structure MayAccess (s : State) (win : Bool) (parts : List Part) (sites : List (Option Site)) (tlb : List TlbEntry) : Prop where
  addr  : ∀ q ∈ parts, addrOk q.addr = true
  order : ∀ q ∈ parts, q.need ≠ .wr → s.cur.writePending q.addr q.len = false
  homes : accepted s win s.cur.tlb parts = some (sites, tlb)

/-- State u is s once the elements of an access have become operations of the cell in focus, as its word number s.nextId, those of
`sent` have left it, and `mark` has been done to the cell. -/
structure Leaves (sent parts : List Part) (sites : List (Option Site)) (tlb : List TlbEntry) (mark : Cell → Cell) (s u : State) : Prop where
  cell : u.cur = mark { s.cur with
    tlb := tlb, ops := s.cur.ops ++ opsFrom s.nextId (s.pkg s.myPkg).pts (s.nextId + 1) parts sites }
  ring : (u.pkg s.myPkg).ringSlots = (s.pkg s.myPkg).ringSlots ++ slotsFrom s (s.nextId + 1) sent
  pkgs : ∀ q, { u.pkg q with ringSlots := (s.pkg q).ringSlots } = s.pkg q
  away : ∀ q, q ≠ s.myPkg → u.pkg q = s.pkg q
  rest : Outside { s with nextId := u.nextId, pkgs := u.pkgs } u

/-- Every element of the access has left. -/
abbrev Sent (parts : List Part) (sites : List (Option Site)) (tlb : List TlbEntry) (mark : Cell → Cell) (s u : State) : Prop :=
  Leaves parts parts sites tlb mark s u

/-- The access of an A word, ready to leave from state x, stops at its first element q that does not pass: where its own die refuses q
the word takes that fault and nothing has left; where q does not translate the word has issued, the elements before q have left, the
others stay, and q holds an XLATE with what the word popped and the stream it moved (R198, R230, R262). -/
def Stops (i : Instr) (s x : State) (win : Bool) (parts : List Part) (mark : Cell → Cell) (done : State → State) : Prop :=
  (∀ q ∈ parts, addrOk q.addr = true) → (∀ q ∈ parts, q.need ≠ .wr → x.cur.writePending q.addr q.len = false) →
  ∀ (pre post : List Part) (q : Part) (sites : List (Option Site)) (tlb : List TlbEntry),
    parts = pre ++ q :: post → accepted x win x.cur.tlb pre = some (sites, tlb) →
    (∀ code v, checkPart x x.me tlb q win = .fault code v → Traps i s code v)
    ∧ (checkPart x x.me tlb q win = .miss → ∃ u v, Leaves pre parts (sites ++ List.replicate (post.length + 1) none) tlb mark x u
        ∧ AIssued 0 false (done u) v ∧ ∃ h : Held, h.addr = q.addr ∧ h.pc = s.cur.A.pc ∧ h.word = x.nextId
        ∧ (h.popped, h.stream) = undoOf s.cur (done u).cur ∧ exec i s = .next (holdFault v s.me h (offsetOf s.cur 0)))

/-! V and M words. -/

/-- The operand form and the fields of every V word (R72, Table 5 of spec/03_opcode_map.md); none for other words and for events. -/
def vFormOf : Instr → Option (VForm × VFields)
  | .vadd f => some (formBinary, f)
  | .vsub f => some (formBinary, f)
  | .vmul f => some (formBinary, f)
  | .vmulh f => some (formBinary, f)
  | .vfma f => some (formAcc, f)
  | .vfms f => some (formAcc, f)
  | .vfnm f => some (formAcc, f)
  | .vmin f => some (formBinary, f)
  | .vmax f => some (formBinary, f)
  | .vabs f => some (formUnary, f)
  | .vneg f => some (formUnary, f)
  | .vabsd f => some (formBinary, f)
  | .vrcpe f => some (formUnary, f)
  | .vrsqe f => some (formUnary, f)
  | .vexpe f => some (formUnary, f)
  | .vfrx f => some (formUnary, f)
  | .vand f => some (formBinary, f)
  | .vor f => some (formBinary, f)
  | .vxor f => some (formBinary, f)
  | .vandn f => some (formBinary, f)
  | .vshl f => some (formBinary, f)
  | .vshr f => some (formBinary, f)
  | .vsra f => some (formBinary, f)
  | .vpopc f => some (formUnary, f)
  | .vclz f => some (formUnary, f)
  | .vsel f => some (formBinary, f)
  | .vmov f => some (formUnary, f)
  | .vidx f => some (formNone, f)
  | .vclass f => some (formUnary, f)
  | .vceq f => some (formCompare, f)
  | .vcne f => some (formCompare, f)
  | .vclt f => some (formCompare, f)
  | .vcle f => some (formCompare, f)
  | .vcgt f => some (formCompare, f)
  | .vcun f => some (formCompare, f)
  | .mand f => some (formMask2, f)
  | .mor f => some (formMask2, f)
  | .mxor f => some (formMask2, f)
  | .mnot f => some (formMask1, f)
  | .mcnt f => some (formOfMask, f)
  | .mffs f => some (formOfMask, f)
  | .mpany f => some (formOfMask, f)
  | .mpall f => some (formOfMask, f)
  | .vcvt f => some (formUnary, f)
  | .vqnt f => some (formBinary, f)
  | .vdqt f => some (formBinary, f)
  | .vtpl f => some (formUnary, f)
  | .vpack f => some (formBinary, f)
  | .vunpk f => some (formUnary, f)
  | .vbfNarrow f => some (formUnary, f)
  | .vbfWiden f => some (formUnary, f)
  | .vrsum f => some (formUnary, f)
  | .vrmax f => some (formUnary, f)
  | .vrmin f => some (formUnary, f)
  | .vrsumi f => some (formUnary, f)
  | .vscan f => some (formUnary, f)
  | .vsegsum f => some (formVecMask, f)
  | .vperm f => some (formBinary, f)
  | .vrot f => some (formBinary, f)
  | .vbcst f => some (formBinary, f)
  | .vzip f => some (formBinary, f)
  | .vuzp f => some (formBinary, f)
  | .vslide f => some (formBinary, f)
  | .vcomp f => some (formVecMask, f)
  | .vexpd f => some (formVecMask, f)
  | _ => none

/-- The guard and the stall count of every M word; none for other words and for events. -/
def mGuardOf : Instr → Option (BitVec 4 × Nat)
  | .mldb f => some (f.pg, f.stall.toNat)
  | .mstep f => some (f.pg, f.stall.toNat)
  | .mfold f => some (f.pg, f.stall.toNat)
  | .mdrain f => some (f.pg, f.stall.toNat)
  | .mdraini f => some (f.pg, f.stall.toNat)
  | .mzero f => some (f.pg, f.stall.toNat)
  | _ => none

/-- A V or M word issues with its guard true (R27, R41). -/
structure VGo (e : Engine) (pg : BitVec 4) (reads : List Nat) (dest : Nat) (s : State) : Prop where
  reads : ∀ x ∈ pg.toNat :: reads, s.cur.mayRead e x = true
  dest  : s.cur.mayWrite e dest = true
  guard : s.cur.readP pg.toNat = true

/-- The V or M word's guard is false: its shared registers are in order, and it passes with no more than its destination counted and its
stall count kept (R27, R41, R51). -/
def VNot (e : Engine) (pg : BitVec 4) (dest : Nat) (s : State) : Prop :=
  s.cur.mayRead e pg.toNat = true ∧ s.cur.mayWrite e dest = true ∧ s.cur.readP pg.toNat = false

/-- What such a word of n parcels leaves. -/
def VPasses (e : Engine) (n stall : Nat) (i : Instr) (s : State) : Prop :=
  ∃ t, exec i s = .next t ∧ Issued e n (destOf i) false s t
    ∧ (t.cur.engine e).nextIssue = max (s.cur.engine e).nextIssue (s.cycle + max 1 stall)

/-- The shared registers a V word reads: rnd 0 and 5 read VCTL (R86). -/
def vReads (f : VFields) : List Nat := if f.rnd = 0 ∨ f.rnd = 5 then [shVctl] else []

/-- A V word gets its operands: the entries it pops are there, in order and of their sizes, what it pushes finds room, no read is
early under ENGCTL.check, and its immediates are admitted (R46, R135, R136, R194). Cell c is the cell without the entries. -/
structure VTakes (m : VForm) (f : VFields) (s : State) (e1 e2 : Option QEntry) (c : Cell) : Prop where
  pops  : ∃ c1, popOpt s.cur (popQueue s.cur m.S1 f.S1) = .ok (e1, c1) ∧ popOpt c1 (popQueue s.cur m.S2 f.S2) = .ok (e2, c)
  room  : pushBlocks m f ≠ 0 →
    pushBlocks m f ≤ s.cur.qcapOf (vEff s.cur f.D 16) ∧ c.canDraw (vEff s.cur f.D 16) (pushBlocks m f) = true
  late  : ∀ k ∈ vKeys s.cur m f, earlyRead s.cur .V k s.cycle = false
  sizes : entrySizeOk f.S1 e1 = true ∧ entrySizeOk f.S2 e2 = true
  imms  : immsOk m f = true

/-- State u is s once its cell has become c with the queues qs and the results under way, all to land lat cycles after s; the
scoreboard and the stochastic generators may have moved (R127, R139, R194). -/
structure VLeft (lat : Nat) (s : State) (c : Cell) (qs : SMap (List QEntry)) (kinds : List LandKind) (u : State) : Prop where
  lands   : u.cur.landings.map (fun l => (l.due, l.what))
    = c.landings.map (fun l => (l.due, l.what)) ++ kinds.map (fun k => (s.cycle + lat, k))
  queues  : u.cur.queues = qs
  cell    : { u.cur with landings := c.landings, queues := c.queues, lastLand := c.lastLand, gens := c.gens } = c
  outside : Local s u

/-- The flags of a result land with it (R129). -/
def flagKinds (fl : Flags) : List LandKind := if fl = 0 then [] else [.ast (astV fl)]

/-- The V word issues, and its results are under way; a generator steps only under stochastic rounding (R127). -/
def VIssues (f : VFields) (i : Instr) (lat : Nat) (s : State) (c : Cell) (qs : SMap (List QEntry)) (kinds : List LandKind) : Prop :=
  ∃ t u, exec i s = .next t ∧ Issued .V 3 (destOf i) true u t ∧ VLeft lat s c qs kinds u ∧ (vMode s.cur f.rnd ≠ 5 → u.cur.gens = c.gens)

/-- The V word issues; in the lanes of w its result is v, which lands in the v-register or the queue entry that D names, with
the flags fl (R135, R137, R140). -/
def VLands (m : VForm) (f : VFields) (i : Instr) (lat : Nat) (s : State) (c : Cell) (w : BitVec 128) (v : Nat → Lane) (fl : Flags) : Prop :=
  ∃ xs, (∀ j, j < 128 → w.getLsbD j = true → laneOf xs j = v j) ∧
    VIssues f i lat s c
      (if dKind f.D = 1 then (c.reserve (vEff s.cur f.D 16) ⟨s.nextId, if dExt f.D = 1 then 8 else 512, c.heat, [], [0], false⟩).queues
        else c.queues)
      ((if dKind f.D = 1 then .push (vEff s.cur f.D 16) s.nextId
          (if dExt f.D = 1 then scalarBytes (if m.S1 = .msk then 2 else f.ty.toNat) w xs else bytesOfLanes (maskLanes w xs))
        else .vreg (vEff s.cur f.D 64) w xs) :: flagKinds fl)

/-- The V word issues; in the lanes of w the bits of the mask D receive k; m0 discards them (R148). -/
def VMasks (f : VFields) (i : Instr) (s : State) (c : Cell) (w : BitVec 128) (k : Nat → Bool) (fl : Flags) : Prop :=
  ∃ bits : BitVec 128, (∀ j, j < 128 → w.getLsbD j = true → bits.getLsbD j = k j) ∧
    VIssues f i 2 s c c.queues ((if vEff s.cur f.D 8 = 0 then [] else [.mreg (vEff s.cur f.D 8) w bits]) ++ flagKinds fl)

/-! Common words. -/

/-- A common word executes in the engine whose turn it is: the shared registers it reads are in order (R27) and its step keeps
within SLIP (R25). -/
structure CGo (reads : List Nat) (s : State) : Prop where
  reads : ∀ x ∈ reads, s.cur.mayRead s.eng x = true
  slip  : slipOk s.cur s.eng = true

/-- State t is state u once the engine has executed a common word that moves its pc by `by_`: CSN counts it (R24), the engine
issues next in the next cycle, IRET counts the word at most once (R83); everything else is as in u. -/
structure CommonPassed (by_ : Word) (u t : State) : Prop where
  pc     : (t.cur.engine u.eng).pc = (u.cur.engine u.eng).pc + by_
  csn    : (t.cur.engine u.eng).csn = (u.cur.engine u.eng).csn + 1
  next   : (t.cur.engine u.eng).nextIssue = u.cycle + 1
  iret   : t.cur.iret = u.cur.iret ∨ t.cur.iret = u.cur.iret + 1
  engine : { t.cur.engine u.eng with
             pc := (u.cur.engine u.eng).pc, csn := (u.cur.engine u.eng).csn, nextIssue := (u.cur.engine u.eng).nextIssue
             wait := (u.cur.engine u.eng).wait, park := (u.cur.engine u.eng).park
             commons := (u.cur.engine u.eng).commons } = u.cur.engine u.eng
  cell   : { t.cur.setEngine u.eng (u.cur.engine u.eng) with iret := u.cur.iret } = u.cur
  outside : Outside u t

end Sys2Proof.Machine
end

