-- ==== Sys2Proof/Certificates/Slice0/Obligations.lean ====
section
/-! DEFINITION. The statements about the machine, each from the rules of the spec its docstring names. -/
open Sys2Proof Sys2Proof.Machine

/-- Words that the spec writes out bit by bit decode to the instruction it names: add a5,a3,a4; (p3) addi a7,a7,-2; ptb b1 twelve parcels ahead; the vfma.f32 and vcgt.f32 of its tables; mstep acc0,q0; pat.min.d.sys a6,[k2+a9]; sel a5,!p3,a6,a7; mtsr AST,a6; ld.wn a5,[a9+8]; stq.512 q1,[a24+512]; tlaunch a5,[a9]; ctstat a7,a8; bar.wait 5,a7. (spec/02_instruction_text.md Table 8, spec/03_opcode_map.md, R42, R54, R45, R53) -/
def Obligations.WrittenWordsDecode : Prop :=
  decodeWord [0x00106500] = .ok (.add 0 4 3 5) ∧ decodeWord [0x3FF8E704] = .ok (.addi 3 (-2) 7 7)
  ∧ decodeWord [0x00006107] = .ok (.ptb 12 1)
  ∧ decodeWord [0x00400011, 0x0C008100, 0x0C30A042] = .ok (.vfma ⟨0, 0, 4, 0, 0, 0, 0, 0x08100, 0x420C0, 0xC30A0⟩)
  ∧ decodeWord [0x00000091, 0x0C0020C0, 0x08FC0001] = .ok (.vcgt ⟨0, 0, 0, 0, 0, 0, 0, 0x020C0, 0x010C0, 0x8FC00⟩)
  ∧ decodeWord [0x019C0006, 0x003FC300, 0, 0, 0, 0] = .ok (.mstep ⟨0, 6, 7, 0, 0, 0, 255, 0, 3, 0, 0, 0, 0, 0, 0, 0, 0, 0⟩)
  ∧ decodeWord [0x0D0C9260] = .ok (.patMin 0 1 1 6 9 2) ∧ decodeWord [0x099CC594] = .ok (.sel 0 1 3 7 6 5)
  ∧ decodeWord [0x0420C02C] = .ok (.mtsr 0 0x08 6) ∧ decodeWord [0x00552530] = .ok (.ld 0 2 5 9 5)
  ∧ decodeWord [0x0033013C] = .ok (.stq 0 1 4 24 1) ∧ decodeWord [0x00012580] = .ok (.tlaunch 0 9 5)
  ∧ decodeWord [0x0181076C] = .ok (.ctstat 0 8 7) ∧ decodeWord [0x001C8523] = .ok (.barWait 7 5)

/-- For every well-formed instruction that has words, the decoder reads from the bytes of those words, followed by any bytes, exactly that instruction with every operand, and leaves exactly the bytes that follow. (R37, R42, R45, R52, R53, R54, spec/03_opcode_map.md) -/
def Obligations.EncodedWordsDecode : Prop :=
  ∀ (i : Instr) (ps : List Parcel) (rest : List Byte), i.wf = true → encode i = some ps →
    decode (ps.flatMap bytesOfParcel ++ rest) = .ok (i, rest)

/-- A parcel of tag 0 with a major above 0x26, one of tag 3 with a code above 0x0B, a V word with parcel 2 [31:28] non-zero or an unlisted op8, and an M word with an op6 above 5 or a reserved bit set are rejected as reserved in the engine of their tag; a word that runs past the bytes given is rejected as truncated; and what decodes is well formed. (R55, R37, R38, R45, R52, R54, R68, R72) -/
def Obligations.ReservedWordsAreRejected : Prop :=
  (∀ (p : Parcel) (ps : List Parcel), p.extractLsb' 0 2 = 0 → 0x26 < (p.extractLsb' 2 6).toNat → decodeWord (p :: ps) = .error (.reserved 0))
  ∧ (∀ (p : Parcel) (ps : List Parcel), p.extractLsb' 0 2 = 3 → 0x0B < (p.extractLsb' 2 6).toNat → decodeWord (p :: ps) = .error (.reserved 3))
  ∧ (∀ (p q r : Parcel) (ps : List Parcel), p.extractLsb' 0 2 = 1 →
      let n := (p.extractLsb' 2 8).toNat
      r.extractLsb' 28 4 ≠ 0 ∨ (0x1C < n ∧ n < 0x20) ∨ n = 0x26 ∨ n = 0x27 ∨ (0x36 < n ∧ n < 0x40) ∨ (0x45 < n ∧ n < 0x50) ∨ 0x57 < n →
      decodeWord (p :: q :: r :: ps) = .error (.reserved 1))
  ∧ (∀ (p0 p1 p2 p3 p4 p5 : Parcel) (ps : List Parcel), p0.extractLsb' 0 2 = 2 →
      5 < (p0.extractLsb' 2 6).toNat ∨ p0.extractLsb' 25 3 ≠ 0 ∨ p1.extractLsb' 22 10 ≠ 0 ∨ p2.extractLsb' 20 12 ≠ 0 ∨ p3.extractLsb' 20 12 ≠ 0
        ∨ p4.extractLsb' 14 18 ≠ 0 ∨ p5 ≠ 0 →
      decodeWord (p0 :: p1 :: p2 :: p3 :: p4 :: p5 :: ps) = .error (.reserved 2))
  ∧ (∀ (p : Parcel) (ps : List Parcel), ps.length + 1 < wordParcels (p.extractLsb' 0 2) → decodeWord (p :: ps) = .error .truncated)
  ∧ (∀ (ps : List Parcel) (i : Instr), decodeWord ps = .ok i → i.wf = true)

/-- With no turn queued, when the engine whose turn it is may issue (its cell runs, it is not parked or stalled, no deferred fault or held fault stops A, it stands at no body end) and the bytes at its pc, cached and inside the text, decode to a well-formed instruction of its own or a common word, the step is exec of that instruction, after which the turn passes on; a word of another engine is passed over with nothing but the pc moved and its destination counted; a pc outside the text, and a word of the engine's own that does not decode, take ILLEGAL; text that is not in the instruction cache is fetched once the way to its home is open, and the turn passes on until then. Where the rules leave a point open the statement takes the model's own choice: turns of due steps (notes/assumptions/1.md), when a body end is judged (notes/assumptions/15.md), what the caches keep (notes/assumptions/61.md), a miss at a home (notes/assumptions/63.md). (R23, R38, R40, R55, R66, R41) -/
def Obligations.StepRunsFetchedWord : Prop :=
  ∀ (s : State), s.turns = [] → (s.pkg s.myPkg).phase ≠ .inReset →
    let c := s.cur
    let g := c.engine s.eng
    c.status = .running → g.park = .none → g.nextIssue ≤ s.cycle → (s.eng = .A → c.reports = [] ∧ c.fault = none) → atBodyEnd g = false →
    (∀ (b : Byte) (bs rest : List Byte) (i : Instr), inText c g.pc = true → cachedByte c g.pc.toNat = some b →
      g.pc.toNat + 4 * wordLen b ≤ textEnd c → passesBody g (wordLen b) = false → cachedText c g.pc.toNat (4 * wordLen b) = .ok bs →
      decode bs = .ok (i, rest) →
      (ownWord s.eng b = true → step s = mapNext rotate (exec i s))
      ∧ (ownWord s.eng b = false → step s = .next (s.upd (fun c => (c.bump s.eng (destOf i)).modEngine s.eng (fun g =>
          { g with pc := g.pc + BitVec.ofNat 64 (4 * wordLen b), wait := .none })))))
    ∧ (∀ (b : Byte) (bs : List Byte) (e : DecodeError), inText c g.pc = true → cachedByte c g.pc.toNat = some b →
      g.pc.toNat + 4 * wordLen b ≤ textEnd c → passesBody g (wordLen b) = false → cachedText c g.pc.toNat (4 * wordLen b) = .ok bs →
      decode bs = .error e → ownWord s.eng b = true → step s = .next (rotate (faultHere s s.eng .illegal g.pc)))
    ∧ (inText c g.pc = false → step s = .next (rotate (faultHere s s.eng .illegal g.pc)))
    ∧ (inText c g.pc = true → cachedByte c g.pc.toNat = none →
      let w := BitVec.ofNat 64 (g.pc.toNat / 32 * 32)
      (mayLeave s s.myDie w = true → step s = exec (.textFetch s.focus s.eng w) s)
      ∧ (mayLeave s s.myDie w = false → step s = .next (rotate (s.upd (fun c => c.modEngine s.eng (fun g => { g with wait := .external }))))))

/-- With turns queued, the step takes the first and leaves the rest: an event of the table is exec of it; an engine's turn makes it the engine in focus; a due turn performs what is due. The queue is the model's own input (notes/assumptions/1.md). In every state, and for every instruction and event, exec and step answer a next state: what the hardware reports as a fault is a next state in which the fault has been taken. (spec/95_what_each_step_holds.md, spec/01_machine.md, R29, R191, R199) -/
def Obligations.TurnsComeFirstAndEveryStepGoesOn : Prop :=
(∀ (s : State) (ts : List Turn),
    (∀ i, s.turns = .event i :: ts → step s = exec i { s with turns := ts })
    ∧ (∀ c e, s.turns = .engine c e :: ts → step s = engineStep { s with turns := ts, focus := c, eng := e })
    ∧ (∀ u, s.turns = .due u :: ts → step s = runDue u { s with turns := ts }))
  ∧ ((∀ (i : Instr) (s : State), ∃ t, exec i s = .next t) ∧ ∀ s : State, SafeStep s)

/-- At reset the cycle count is 0 and no memory is listed; every cell is idle with empty registers that read 0 under every heat, ENGCTL 0, SLIP 16, VCTL 0x100000001, AST 0, PGAHEAD 64, the watchdog limit 2^28, no queue entry and each queue minimum and capacity as R83 gives them. SLIP of a command cell is the model's choice (notes/assumptions/5.md). Where the rules leave a point open the statement takes the model's own choice: cold granules at reset (notes/assumptions/2.md), the unlisted byte (notes/assumptions/3.md), records at reset (notes/assumptions/14.md). (R80, R83, R24, spec/04_registers.md Table 3) -/
def Obligations.ResetState : Prop :=
  MemOk State.reset ∧ State.reset.cycle = 0 ∧ State.reset.mem = [] ∧ State.reset.turns = []
  ∧ ∀ ix, let c := State.reset.cell ix
    c.status = .idle ∧ c.engctl = 0 ∧ c.slip = 16 ∧ c.vctl = 0x0000000100000001 ∧ c.ast = 0 ∧ c.faultc = 0 ∧ c.faultv = 0 ∧ c.pgahead = 64 ∧ c.fmtbase = 0 ∧ c.wdogLimit = 268435456 ∧ c.wdogCount = 0 ∧ c.iret = 0 ∧ c.latch = false
    ∧ (∀ h r, 1 ≤ r → { c with heat := h }.readA r = 0 ∧ { c with heat := h }.readP r = false ∧ { c with heat := h }.readM r = 0
        ∧ { c with heat := h }.readK r = 0 ∧ { c with heat := h }.readV r = [])
    ∧ (∀ e, (c.engine e).csn = 0 ∧ (c.engine e).rets = [] ∧ (c.engine e).loops = [] ∧ (c.engine e).nextIssue = 0)
    ∧ c.ops = [] ∧ c.landings = [] ∧ c.acquire = [] ∧ c.reports = [] ∧ c.saved = none
    ∧ ∀ q, c.qminOf q = 0 ∧ c.qcapOf q = 8192 ∧ lookup [] c.queues q = []

/-- From every state whose memory has its addresses strictly rising and lists no byte equal to what an unlisted address reads as, every step leads to a state whose memory has that form, whatever word, event or due turn the step takes; so two memories that read alike everywhere are equal data. (spec/12_memories.md, spec/95_what_each_step_holds.md) -/
def Obligations.StepsKeepMemoryForm : Prop :=
  (∀ s t : State, MemOk s → step s = .next t → MemOk t)
  ∧ ∀ m n : Memory, Memory.wf m = true → Memory.wf n = true → (∀ a, Memory.byte m a = Memory.byte n a) → m = n

/-- Writing bytes from an address leaves each of them to be read there, changes no byte outside them, and keeps the canonical form. Reading bytes of a vault granule under the heat of its tag gives the bytes stored, an uncorrectable granule an ECC fault; under another heat it gives zeros, or HEATTRAP in a region of trap mode. Writing under the tag's heat changes the bytes written alone; under another heat every other byte of the granule becomes zero and the tag becomes the writer's heat; a partial write of an uncorrectable granule is refused. No byte outside the granule changes. Whatever a strand has written to an a-, p-, k-, v-, m-, b- or s-register other than a0, p0 and m0, to a tile or to the B buffer, it reads back under its own heat, in the lanes, mask bits or columns written; once the cell runs under another heat the register reads its stale value (0, false for a predicate, zero in every lane or element, an empty stream), and the write of one register changes no other. In every cell a0 reads 0, p0 reads 1 and m0 reads all ones, and a write of any of the three leaves the cell as it was. (spec/12_memories.md, R284, R268, R267, R269, R80, R79, spec/04_registers.md) -/
def Obligations.StorageReadsBackUnderItsHeat : Prop :=
(∀ (m : Memory) (a : Nat) (bs : List Byte),
    (Memory.wf m = true → Memory.wf (Memory.write m a bs) = true)
    ∧ (∀ k, k < bs.length → Memory.byte (Memory.write m a bs) (a + k) = bs.getD k 0)
    ∧ (∀ b, (b < a ∨ a + bs.length ≤ b) → Memory.byte (Memory.write m a bs) b = Memory.byte m b)
    ∧ Memory.read (Memory.write m a bs) a bs.length = bs)
  ∧ (∀ (s : State) (h : Heat) (trap : Bool) (a n : Nat) (bs : List Byte), MemOk s → a % 32 + n ≤ 32 → bs.length = n →
    let g := a / 32
    let tag := lookup 0 s.heats g
    (tag ≠ h → readVault s h trap a n = if trap then .error .heattrap else .ok (List.replicate n 0))
    ∧ (tag = h → readVault s h trap a n = if s.eccBad.contains g then .error .ecc else .ok (Memory.read s.mem a n))
    ∧ (tag = h → n < 32 → s.eccBad.contains g = true → writeVault s h a bs = .error .ecc)
    ∧ (¬ (tag = h ∧ n < 32 ∧ s.eccBad.contains g = true) → ∃ t, writeVault s h a bs = .ok t
      ∧ lookup 0 t.heats g = h ∧ (∀ j, j ≠ g → lookup 0 t.heats j = lookup 0 s.heats j) ∧ t.eccBad.contains g = false ∧ MemOk t
      ∧ (∀ k, k < n → Memory.byte t.mem (a + k) = bs.getD k 0)
      ∧ (∀ x, (x < a ∨ a + n ≤ x) → Memory.byte t.mem x = if x / 32 = g ∧ tag ≠ h then 0 else Memory.byte s.mem x)
      ∧ { t with mem := s.mem, heats := s.heats, eccBad := s.eccBad, eccOne := s.eccOne } = s))
  ∧ (∀ (c : Cell) (h : Heat) (r q : Nat) (v : Word) (b : Bool) (k : Cap) (x : Stream) (t : Tile), h ≠ c.heat →
    (r ≠ 0 → (c.writeA r v).readA r = v ∧ { c.writeA r v with heat := h }.readA r = 0
      ∧ (c.writeP r b).readP r = b ∧ { c.writeP r b with heat := h }.readP r = false)
    ∧ (c.writeK r k).readK r = k ∧ { c.writeK r k with heat := h }.readK r = 0
    ∧ (c.writeS r x).readS r = x ∧ { c.writeS r x with heat := h }.readS r = Stream.zero
    ∧ (c.setTile r t).tile r = t ∧ { c.setTile r t with heat := h }.tile r = Tile.zero
    ∧ (∀ e g : Engine, (c.writeB e r v).readB e r = v ∧ { c.writeB e r v with heat := h }.readB e r = 0
      ∧ (q ≠ r ∨ g ≠ e → (c.writeB e r v).readB g q = c.readB g q))
    ∧ (∀ (lanes bits : BitVec 128) (xs : List Lane),
      (∀ i, i < 128 → laneOf ((c.writeV r lanes xs).readV r) i = (if lanes.getLsbD i then laneOf xs i else laneOf (c.readV r) i)
        ∧ laneOf ({ c.writeV r lanes xs with heat := h }.readV r) i = 0)
      ∧ (r ≠ 0 → (c.writeM r lanes bits).readM r = (bits &&& lanes) ||| (c.readM r &&& ~~~lanes) ∧ { c.writeM r lanes bits with heat := h }.readM r = 0)
      ∧ (q ≠ r → (c.writeV r lanes xs).readV q = c.readV q ∧ (c.writeM r lanes bits).readM q = c.readM q))
    ∧ (q ≠ r → (c.writeA r v).readA q = c.readA q ∧ (c.writeP r b).readP q = c.readP q ∧ (c.writeK r k).readK q = c.readK q
      ∧ (c.writeS r x).readS q = c.readS q ∧ (c.setTile r t).tile q = c.tile q)
    ∧ (∀ (l : Landing) (cols : BitVec 128) (rows : List (BitVec 256)) (plane : Nat), l.what = .bbuf cols rows plane →
      let d := applyLanding l c
      d.bBuffer.plane = plane ∧ { d with heat := h }.bBuffer = BBuf.zero
      ∧ ∀ i j, i < 64 → j < 128 → rowCode (lookup 0 d.bBuffer.rows i) j
          = rowCode (if cols.getLsbD j then rows.getD i 0 else lookup 0 c.bBuffer.rows i) j))
  ∧ (∀ (c : Cell) (v : Word) (b : Bool) (lanes bits : BitVec 128),
    c.readA 0 = 0 ∧ c.readP 0 = true ∧ c.readM 0 = BitVec.allOnes 128
    ∧ c.writeA 0 v = c ∧ c.writeP 0 b = c ∧ c.writeM 0 lanes bits = c)

/-- For every word of major 0x00 other than the four divides, in every state in which it may issue with its guard true, it issues: rd receives F(A, B) of Table 2 (a0 discards it), the pc moves on by one parcel, IRET counts it, and nothing else changes. clz writes 64 for the operand 0 and otherwise 63 less the place of its highest one bit; ctz writes the number of places below its lowest one bit, 64 where there is none; popc writes how many of its 64 bits are one. Each issues in every state in which it may issue with its guard true and changes nothing else. Where the rules leave a point open the statement takes the model's own choice: the order of an A word's conditions (notes/assumptions/16.md), A words write at their issue (notes/assumptions/37.md). (R93, R79, R83, spec/05_scalar_instructions.md Table 2) -/
def Obligations.ScalarArithmeticWritesItsResult : Prop :=
(∀ (p : BitVec 4) (t s d : BitVec 5) (st : State), AGo { pg := p, aregs := [d.toNat, t.toNat, s.toNat] } st →
    let a := st.cur.readA s.toNat
    let b := st.cur.readA t.toNat
    let n := b.toNat % 64
    WritesA (.add p t s d) st d (a + b) ∧ WritesA (.sub p t s d) st d (a - b) ∧ WritesA (.and p t s d) st d (a &&& b)
    ∧ WritesA (.or p t s d) st d (a ||| b) ∧ WritesA (.xor p t s d) st d (a ^^^ b)
    ∧ WritesA (.sll p t s d) st d (a <<< n) ∧ WritesA (.srl p t s d) st d (a >>> n) ∧ WritesA (.sra p t s d) st d (a.sshiftRight n)
    ∧ WritesA (.mul p t s d) st d (BitVec.ofNat 64 (a.toNat * b.toNat))
    ∧ WritesA (.mulh p t s d) st d (BitVec.ofInt 64 (a.toInt * b.toInt / 2 ^ 64))
    ∧ WritesA (.mulhn p t s d) st d (BitVec.ofNat 64 (a.toNat * b.toNat / 2 ^ 64))
    ∧ WritesA (.min p t s d) st d (if a.toInt < b.toInt then a else b) ∧ WritesA (.max p t s d) st d (if b.toInt < a.toInt then a else b)
    ∧ WritesA (.minn p t s d) st d (if a.toNat < b.toNat then a else b) ∧ WritesA (.maxn p t s d) st d (if b.toNat < a.toNat then a else b)
    ∧ WritesA (.addw p t s d) st d (((a + b).setWidth 32).signExtend 64) ∧ WritesA (.subw p t s d) st d (((a - b).setWidth 32).signExtend 64)
    ∧ WritesA (.andn p t s d) st d (a &&& ~~~b) ∧ WritesA (.rol p t s d) st d (a.rotateLeft n) ∧ WritesA (.ror p t s d) st d (a.rotateRight n))
  ∧ (∀ (p : BitVec 4) (s d : BitVec 5) (st : State), AGo { pg := p, aregs := [d.toNat, s.toNat] } st →
    let a := st.cur.readA s.toNat
    (∃ n : Nat, WritesA (.clz p s d) st d (BitVec.ofNat 64 n) ∧ (a = 0 → n = 64) ∧
      (∀ k, k < 64 → a.getLsbD k = true → (∀ j, k < j → j < 64 → a.getLsbD j = false) → n = 63 - k))
    ∧ (∃ n : Nat, WritesA (.ctz p s d) st d (BitVec.ofNat 64 n) ∧ (a = 0 → n = 64) ∧
      (∀ k, k < 64 → a.getLsbD k = true → (∀ j, j < k → a.getLsbD j = false) → n = k))
    ∧ WritesA (.popc p s d) st d (BitVec.ofNat 64 ((List.range 64).countP (fun k => a.getLsbD k))))

/-- A div, divn, rem or remn that may issue with its guard true while the divider is free issues: rd becomes pending, nothing else of the cell changes but the divider and the queue of landings, and when the landing of 34 cycles later takes place rd holds the value R94 gives, rd is pending no longer, and AST.adz is set exactly when the divisor is zero, even when rd is a0. (R94) -/
def Obligations.DivisionResultLands : Prop :=
  ∀ (p : BitVec 4) (t s d : BitVec 5) (st : State), AGo { pg := p, aregs := [d.toNat, t.toNat, s.toNat] } st →
    st.cur.divFree ≤ st.cycle →
    let a := st.cur.readA s.toNat
    let b := st.cur.readA t.toNat
    let lands (i : Instr) (v : Word) : Prop := ∃ u l, Issues i st u ∧ Local st u
      ∧ u.cur = { st.cur.pend d.toNat with divFree := st.cycle + 34, landings := st.cur.landings ++ [l] }
      ∧ l.due = st.cycle + 34
      ∧ ∀ c : Cell, c.heat = st.cur.heat →
          (applyLanding l c).readA d.toNat = (if d = 0 then 0 else v) ∧ (applyLanding l c).pendA = c.pendA.erase d.toNat
          ∧ (applyLanding l c).ast = (if b = 0 then c.ast ||| 0x004 else c.ast)
    lands (.div p t s d) (if b = 0 then BitVec.allOnes 64 else BitVec.ofInt 64 (a.toInt.tdiv b.toInt))
    ∧ lands (.rem p t s d) (if b = 0 then a else BitVec.ofInt 64 (a.toInt - b.toInt * a.toInt.tdiv b.toInt))
    ∧ lands (.divn p t s d) (if b = 0 then BitVec.allOnes 64 else BitVec.ofNat 64 (a.toNat / b.toNat))
    ∧ lands (.remn p t s d) (if b = 0 then a else BitVec.ofNat 64 (a.toNat % b.toNat))

/-- Each immediate word, in every state in which it may issue with its guard true (lui and addpc have no guard), writes rd with the value of R95, R96 and R97, moves the pc by one parcel and changes nothing else. Where the rules leave a point open the statement takes the model's own choice: the order of an A word's conditions (notes/assumptions/16.md), A words write at their issue (notes/assumptions/37.md). (R95, R96, R97) -/
def Obligations.ImmediateWordsWriteTheirResult : Prop :=
  (∀ (p : BitVec 4) (s d : BitVec 5) (i : BitVec 10) (h : BitVec 6) (st : State), AGo { pg := p, aregs := [d.toNat, s.toNat] } st →
    let a := st.cur.readA s.toNat
    WritesA (.addi p i s d) st d (a + i.signExtend 64) ∧ WritesA (.andi p i s d) st d (a &&& i.signExtend 64)
    ∧ WritesA (.ori p i s d) st d (a ||| i.signExtend 64) ∧ WritesA (.xori p i s d) st d (a ^^^ i.signExtend 64)
    ∧ WritesA (.slli p h s d) st d (a <<< h.toNat) ∧ WritesA (.srli p h s d) st d (a >>> h.toNat)
    ∧ WritesA (.srai p h s d) st d (a.sshiftRight h.toNat))
  ∧ (∀ (d : BitVec 5) (i : BitVec 19) (st : State), AGo { pg := 0, aregs := [d.toNat] } st →
    WritesA (.lui i d) st d (i.signExtend 64 * 1024) ∧ WritesA (.addpc i d) st d (st.cur.A.pc + i.signExtend 64 * 4))

/-- Each compare writes pd with its condition of Table 4 (for conditions 0 to 5), cmp.and and cmp.or combine it with pd, the predicate words write the function of two predicates, pset a constant, and sel writes rd with one of its operands as the predicate says; each issues in every state in which it may issue with its guard true and changes nothing else but the counts of shared registers. Where the rules leave a point open the statement takes the model's own choice: the order of an A word's conditions (notes/assumptions/16.md), A words write at their issue (notes/assumptions/37.md). (R98, R99, R100, R101, R79) -/
def Obligations.ComparesAndPredicateWordsWriteThePredicate : Prop :=
  (∀ (p e : BitVec 4) (t s : BitVec 5) (c : BitVec 3) (st : State), c.toNat < 6 →
    let a := st.cur.readA s.toNat
    let b := st.cur.readA t.toNat
    let holds (v : Word) : Bool :=
      if c = 0 then a == v else if c = 1 then a != v else if c = 2 then decide (a.toInt < v.toInt)
      else if c = 3 then decide (a.toNat < v.toNat) else if c = 4 then decide (v.toInt ≤ a.toInt) else decide (v.toNat ≤ a.toNat)
    (AGo { pg := p, dest := e.toNat, aregs := [t.toNat, s.toNat] } st → WritesP (.cmp p t s c e) st e (holds b))
    ∧ (AGo { pg := p, reads := [e.toNat], dest := e.toNat, aregs := [t.toNat, s.toNat] } st →
        WritesP (.cmpAnd p t s c e) st e (st.cur.readP e.toNat && holds b) ∧ WritesP (.cmpOr p t s c e) st e (st.cur.readP e.toNat || holds b))
    ∧ (∀ i : BitVec 8, AGo { pg := p, dest := e.toNat, aregs := [s.toNat] } st → WritesP (.cmpi p i s c e) st e (holds (i.signExtend 64))))
  ∧ (∀ (p a b e : BitVec 4) (st : State), AGo { pg := p, reads := [a.toNat, b.toNat], dest := e.toNat } st →
    let x := st.cur.readP a.toNat
    let y := st.cur.readP b.toNat
    WritesP (.pand p b a e) st e (x && y) ∧ WritesP (.por p b a e) st e (x || y) ∧ WritesP (.pxor p b a e) st e (x != y)
    ∧ WritesP (.pandn p b a e) st e (x && !y))
  ∧ (∀ (p e : BitVec 4) (v : BitVec 1) (st : State), AGo { pg := p, dest := e.toNat } st → WritesP (.pset p v e) st e (v == 1))
  ∧ (∀ (p e : BitVec 4) (n : BitVec 1) (t s d : BitVec 5) (st : State),
    AGo { pg := p, reads := [e.toNat], aregs := [t.toNat, s.toNat, d.toNat] } st →
    WritesA (.sel p n e t s d) st d
      (if (if n = 1 then st.cur.readP e.toNat = false else st.cur.readP e.toNat = true) then st.cur.readA s.toNat else st.cur.readA t.toNat))

/-- An mfsr that may issue with its guard true (in command mode for a register marked CM) writes rd with the register as R83 Table 3 lays it out, and changes nothing else. Where the rules leave a point open the statement takes the model's own choice: QSTAT of unfilled entries (notes/assumptions/20.md), A words write at their issue (notes/assumptions/37.md), blocks of a held word and orders of queue words and eret (notes/assumptions/67.md). (R83, R102, R103) -/
def Obligations.ControlRegisterReads : Prop :=
  ∀ (p : BitVec 4) (r : BitVec 8) (d : BitVec 5) (st : State), AGo { pg := p, cm := srCommand r.toNat, aregs := [d.toNat] } st →
    let c := st.cur
    let k := st.die st.myDie
    let reads (v : Word) : Prop := WritesA (.mfsr p r d) st d v
    (r = 0x00 → reads (c.engctl.setWidth 64)) ∧ (r = 0x01 → reads (BitVec.ofNat 64 c.slip)) ∧ (r = 0x02 → reads (c.heat.setWidth 64))
    ∧ (r = 0x03 → reads (k.world.setWidth 64)) ∧ (r = 0x04 → reads (strandReg st.me c)) ∧ (r = 0x05 → reads (c.faultc.setWidth 64))
    ∧ (r = 0x06 → reads c.faultv) ∧ (r = 0x07 → reads c.vctl) ∧ (r = 0x08 → reads (c.ast.setWidth 64)) ∧ (r = 0x09 → reads c.qstat)
    ∧ (r = 0x0A → reads (c.pgahead.setWidth 64)) ∧ (r = 0x0B → reads (c.fmtbase.setWidth 64))
    ∧ (r = 0x0C → reads (BitVec.ofNat 64 (c.wdogCount * 2 ^ 32 + c.wdogLimit)))
    ∧ (r = 0x0D → reads (BitVec.ofNat 64 (st.cycle - c.resetAt))) ∧ (r = 0x0E → reads (BitVec.ofNat 64 c.iret))
    ∧ (0x10 ≤ r.toNat → r.toNat ≤ 0x15 → reads (BitVec.ofNat 64 (c.A.level (r.toNat - 0x10))))
    ∧ (0x20 ≤ r.toNat → r.toNat ≤ 0x2F → reads (BitVec.ofNat 64 (c.qminOf (r.toNat - 0x20))))
    ∧ (0x30 ≤ r.toNat → r.toNat ≤ 0x3F → reads (BitVec.ofNat 64 (c.qcapOf (r.toNat - 0x30))))
    ∧ (0x40 ≤ r.toNat → r.toNat ≤ 0x43 → reads (BitVec.ofNat 64 (lookup 1048576 k.ages (r.toNat - 0x40))))

/-- An mtsr that may issue with its guard true completes, and writes the whole register, where R84 accepts the value: at once for AST (bits written as 1 are cleared but for those set in the same cycle), VCTL (which reseeds the generators) and FMTBASE; in the next cycle for ENGCTL, SLIP, FAULTC, FAULTV, PGAHEAD, WDOG, QMINn, QCAPn and AGEn, as the landing it leaves. A value that R84 refuses raises ILLEGAL and leaves the register unchanged. A write to a register that is only read raises ILLEGAL. (R84, R85, R86, R102, R103, R104, spec/04_registers.md Table 3) -/
def Obligations.ControlRegisterWrites : Prop :=
  ∀ (p : BitVec 4) (r : BitVec 8) (s : BitVec 5) (st : State),
    AGo { pg := p, cm := srCommand r.toNat, dest := srShared r, aregs := [s.toNat] } st →
    let v := st.cur.readA s.toNat
    let n := v.toNat
    let q := r.toNat % 16
    let sets (f : Cell → Cell) : Prop := Issues (.mtsr p r s) st (st.upd f)
    let leaves (l : Landing) : Prop := ∃ u, Issues (.mtsr p r s) st u ∧ Local st u ∧ l.due = st.cycle + 1
      ∧ u.cur = { st.cur with landings := st.cur.landings ++ [l] }
    let lands (f : Cell → Cell) : Prop := ∃ l, leaves l
      ∧ ∀ c : Cell, c.saved = none → c.qmin = st.cur.qmin → c.qcap = st.cur.qcap → applyLanding l c = f c
    let refused : Prop := Traps (.mtsr p r s) st .illegal st.cur.A.pc
    (r = 0x00 → (n < 8 → lands (fun c => c.setEngctl (st.cur.expects .A shEng + 1) (v.setWidth 3))) ∧ (8 ≤ n → refused))
    ∧ (r = 0x01 → (1 ≤ n → n ≤ 64 → lands (fun c => { c with slip := n })) ∧ (n = 0 ∨ 64 < n → refused))
    ∧ (r = 0x05 → (n < 2048 → lands (fun c => { c with faultc := v.setWidth 11 })) ∧ (2048 ≤ n → refused))
    ∧ (r = 0x06 → lands (fun c => { c with faultv := v }))
    ∧ (r = 0x07 → (n / 8 % 2 ^ 29 = 0 → 1 ≤ n % 8 → n % 8 ≤ 5 → sets (fun c => c.reseed v))
        ∧ (n / 8 % 2 ^ 29 ≠ 0 ∨ n % 8 = 0 ∨ 5 < n % 8 → refused))
    ∧ (r = 0x08 → (n < 4096 → sets (fun c => { c with ast := (c.ast &&& ~~~(v.setWidth 12)) ||| (if c.astAt = st.cycle then c.astSet else 0) }))
        ∧ (4096 ≤ n → refused))
    ∧ (r = 0x0A → (n < 65536 → lands (fun c => { c with pgahead := v.setWidth 16 })) ∧ (65536 ≤ n → refused))
    ∧ (r = 0x0B → (n < 16 → sets (fun c => { c with fmtbase := v.setWidth 4 })) ∧ (16 ≤ n → refused))
    ∧ (r = 0x0C → lands (fun c => { c with wdogLimit := n % 2 ^ 32 }))
    ∧ (0x20 ≤ r.toNat → r.toNat ≤ 0x2F →
        let ok : Prop := n ≤ st.cur.qcapOf q ∧ sumQ (fun k => if k = q then n else st.cur.qminOf k) ≤ 8192
        (ok → lands (fun c => { c with qmin := insertAt c.qmin q n })) ∧ (¬ ok → refused))
    ∧ (0x30 ≤ r.toNat → r.toNat ≤ 0x3F →
        let ok : Prop := 1 ≤ n ∧ n ≤ 8192 ∧ st.cur.qminOf q ≤ n
        (ok → lands (fun c => { c with qcap := insertAt c.qcap q n })) ∧ (¬ ok → refused))
    ∧ (0x40 ≤ r.toNat → r.toNat ≤ 0x43 → (n < 1024 ∨ 2 ^ 32 ≤ n → refused)
        ∧ (1024 ≤ n → n < 2 ^ 32 → ∃ l, leaves l ∧ ∀ (x : State) (cid : CellId),
          let die := dieOfCell (cellIx cid)
          (x.cell (cellIx cid)).landings = [l] → l.due ≤ x.cycle → ∃ t, exec (.resultLanding cid) x = .next t
            ∧ t.die die = { x.die die with ages := insertAt (x.die die).ages q n }))
    ∧ (srReadOnly r = true → refused)

/-- Each, in every state in which it may issue with its guard true: mtb writes all three copies of bN with an address of the text and raises ILLEGAL for any other value; ltrip sets the trip count of a temporal level to a value up to 65535 and raises ILLEGAL otherwise; qpop takes the complete 8-byte head entry into rd and raises QSIZE for another size; qpush adds an 8-byte entry with the value of rs1. Where the rules leave a point open the statement takes the model's own choice: the order of an A word's conditions (notes/assumptions/16.md). (R105, R182, R113, R114) -/
def Obligations.BranchTargetTripAndQueueWords : Prop :=
  (∀ (p : BitVec 4) (b : BitVec 3) (s : BitVec 5) (st : State), AGo { pg := p, dest := shB b.toNat, aregs := [s.toNat] } st →
    let a := st.cur.readA s.toNat
    (inText st.cur a = true → a ≠ 0 →
      Issues (.mtb p s b) st (st.upd (fun c => ((c.writeB .A b.toNat a).writeB .V b.toNat a).writeB .M b.toNat a)))
    ∧ (inText st.cur a = false ∨ a = 0 → Traps (.mtb p s b) st .illegal st.cur.A.pc))
  ∧ (∀ (p : BitVec 4) (l : BitVec 3) (s : BitVec 5) (st : State), l.toNat < 6 → AGo { pg := p, dest := shTrip l.toNat, aregs := [s.toNat] } st →
    let n := (st.cur.readA s.toNat).toNat
    (n ≤ 65535 → isTemporal st.cur l.toNat = true → Issues (.ltrip p s l) st (st.upd (fun c => { c with trips := insertAt c.trips l.toNat n })))
    ∧ (65535 < n ∨ isTemporal st.cur l.toNat = false → Traps (.ltrip p s l) st .illegal st.cur.A.pc))
  ∧ (∀ (p q : BitVec 4) (d : BitVec 5) (st : State) (e : QEntry), AGo { pg := p, aregs := [d.toNat] } st → st.cur.headAt q.toNat 0 = .ok e →
    (e.size = 8 → Issues (.qpop p q d) st (putA (st.upd (fun c => c.popHead q.toNat)) d.toNat (wordAt (st.cur.entryBytes e) 0)))
    ∧ (e.size ≠ 8 → Traps (.qpop p q d) st .qsize st.cur.A.pc))
  ∧ (∀ (p q : BitVec 4) (s : BitVec 5) (st : State), AGo { pg := p, aregs := [s.toNat] } st → st.cur.canDraw q.toNat 1 = true →
    ∃ u e, Issues (.qpush p s q) st u ∧ Local st u ∧ u.cur = st.cur.reserve q.toNat e ∧ e.size = 8 ∧ e.missing = []
      ∧ e.heat = st.cur.heat ∧ e.bytes.take 8 = leBytes (st.cur.readA s.toNat).toNat 8)

/-- Each scalar load, store, capability load or store and each local atomic that may issue with its guard true, whose address is a multiple of its size and passes the checks at issue, issues: one operation with its address, length, data and site joins the operations in flight (for another die, with a packet on the package ring), a load or atomic marks its register as pending, and nothing else changes; memory changes only when its home performs it. One that its own die refuses at issue takes that fault at the word and leaves nothing, and one that does not translate there is issued and holds an XLATE. A load, store, capability load or store or atomic that may issue with its guard true raises ALIGN with the address as its value where the address is no multiple of the access size or fails the checks of R260; a store of a capability that R108 refuses is excepted. An element homed on another die passes with no site of its own. On the own die a window address raises PERM but for an 8-byte access of the command cell to a word of the window; a vault address raises PERM outside every region, beyond vault 143, in a stow slot or without the right the access needs; a granule under another heat than its region traps reads of a trap-mode region with HEATTRAP and is accepted otherwise; an uncorrectable granule under its own heat raises ECC, with the address of the granule, but for a store of the whole granule; and a paged address is accepted where it translates and is a miss where it does not. Where the rules leave a point open the statement takes the model's own choice: the order of an A word's conditions (notes/assumptions/16.md), how program order is kept (notes/assumptions/42.md). (R284, R285, R286, R108, R91, R198, R260, R262, R268, R275, R343) -/
def Obligations.ScalarAccessesLeaveTheCell : Prop :=
(∀ (p : BitVec 4) (s d t : BitVec 5) (st : State) (sites : List (Option Site)) (tlb : List TlbEntry),
    let a := st.cur.readA s.toNat
    let leaves (i : Instr) (kind : OpKind) (w : Word) (n : Nat) (need : Need) (win : Bool) (mark : Cell → Cell) : Prop :=
      w.toNat % n = 0 → (MayAccess st win [.plain kind w n need] sites tlb →
        ∃ u, Issues i st u ∧ Sent [.plain kind w n need] sites tlb mark st u) ∧ Stops i st st win [.plain kind w n need] mark id
    (∀ (i : BitVec 7) (z : BitVec 3), AGo { pg := p, aregs := [s.toNat, d.toNat], access := true } st →
      let n := Machine.sizeOf z
      let w := a + i.signExtend 64 * BitVec.ofNat 64 n
      (st.cur.loads < 16 → leaves (.ld p i z s d) (.load d z) w n .rd (n == 8) (fun c => c.pend d.toNat))
      ∧ (st.cur.stores < 64 → leaves (.st p i z s d) (.store (leBytes (st.cur.readA d.toNat).toNat n) 64) w n .wr (n == 8) id))
    ∧ (∀ k : BitVec 4, AGo { pg := p, aregs := [s.toNat], kregs := [k.toNat], access := true } st →
      let c := st.cur.readK k.toNat
      (st.cur.loads < 16 → leaves (.kld p s k) (.kload k) a 16 .rd false (fun x => x.pendKreg k.toNat))
      ∧ (st.cur.stores < 64 → c = 0 ∨ (capRights c).getLsbD 6 = true → leaves (.kst p s k) (.store (leBytes c.toNat 16) 64) a 16 .wr false id)
      ∧ (c ≠ 0 → (capRights c).getLsbD 6 = false → Traps (.kst p s k) st .capfail ((capOid c).setWidth 64)))
    ∧ (∀ z : BitVec 1, AGo { pg := p, aregs := [s.toNat, t.toNat, d.toNat], access := true } st → st.cur.loads < 16 →
      let atom (i : Instr) (op : RmwOp) (n : Nat) : Prop :=
        leaves i (.rmw op d (st.cur.readA t.toNat) (st.cur.readA d.toNat)) a n .atom false (fun c => c.pend d.toNat)
      let n := if z = 1 then 8 else 4
      atom (.atomAdd p z t s d) .add n ∧ atom (.atomAnd p z t s d) .and n ∧ atom (.atomOr p z t s d) .or n
      ∧ atom (.atomXor p z t s d) .xor n ∧ atom (.atomMin p z t s d) .min n ∧ atom (.atomMax p z t s d) .max n
      ∧ atom (.atomMinn p z t s d) .minn n ∧ atom (.atomMaxn p z t s d) .maxn n ∧ atom (.atomSwap p z t s d) .swap n
      ∧ atom (.atomCas p z t s d) .cas n ∧ atom (.atomFadd p t s d) .fadd 4))
  ∧ (∀ (p : BitVec 4) (s d t : BitVec 5) (st : State),
    let a := st.cur.readA s.toNat
    let bad (w : Word) (n : Nat) : Prop := w.toNat % n ≠ 0 ∨ addrOk w = false
    (∀ (i : BitVec 7) (z : BitVec 3), AGo { pg := p, aregs := [s.toNat, d.toNat], access := true } st →
      let w := a + i.signExtend 64 * BitVec.ofNat 64 (Machine.sizeOf z)
      bad w (Machine.sizeOf z) → Traps (.ld p i z s d) st .align w ∧ Traps (.st p i z s d) st .align w)
    ∧ (∀ k : BitVec 4, AGo { pg := p, aregs := [s.toNat], kregs := [k.toNat], access := true } st → bad a 16 →
      Traps (.kld p s k) st .align a
      ∧ (st.cur.readK k.toNat = 0 ∨ (capRights (st.cur.readK k.toNat)).getLsbD 6 = true → Traps (.kst p s k) st .align a))
    ∧ (∀ z : BitVec 1, AGo { pg := p, aregs := [s.toNat, t.toNat, d.toNat], access := true } st →
      let traps (i : Instr) (n : Nat) : Prop := bad a n → Traps i st .align a
      let n := if z = 1 then 8 else 4
      traps (.atomAdd p z t s d) n ∧ traps (.atomAnd p z t s d) n ∧ traps (.atomOr p z t s d) n ∧ traps (.atomXor p z t s d) n
      ∧ traps (.atomMin p z t s d) n ∧ traps (.atomMax p z t s d) n ∧ traps (.atomMinn p z t s d) n ∧ traps (.atomMaxn p z t s d) n
      ∧ traps (.atomSwap p z t s d) n ∧ traps (.atomCas p z t s d) n ∧ traps (.atomFadd p t s d) 4))
  ∧ (∀ (s : State) (tlb : List TlbEntry) (w : Word) (n : Nat) (need : Need) (win : Bool), addrOk w = true →
    let is (x : Checked) : Prop := checkAt s s.me tlb w n need win = x
    let D := s.die s.myDie
    let tag := lookup 0 s.heats (w.toNat / 32)
    (∀ kind, checkPart s s.me tlb (.plain kind w n need) win = checkAt s s.me tlb w n need win)
    ∧ (isLocal s.me w = false → is (.ok none tlb))
    ∧ (isLocal s.me w = true →
      (inWindow w = true →
        let word : Prop := isCmd s.me = true ∧ win = true ∧ (windowLoad s s.myDie (wf64 w 47 0)).isSome = true
        (word → is (.ok (some ⟨w.toNat, none⟩) tlb)) ∧ (¬ word → is (.fault .perm w)))
      ∧ (aVault w = true →
        ((∀ e ∈ D.regions, e.1 / 64 = vaultOf w → e.2.base * 1024 ≤ vaultByte w → (e.2.base + e.2.size) * 1024 ≤ vaultByte w) → is (.fault .perm w))
        ∧ ∀ k r, regionAt D (vaultOf w) (vaultByte w) = some (k, r) →
          let allowed : Prop := vaultOf w < 144 ∧ r.stow = false ∧ (need ≠ .wr → r.rd = true) ∧ (need ≠ .rd → r.wr = true) ∧ (need = .atom → r.atom = true)
          (¬ allowed → is (.fault .perm w))
          ∧ (allowed → tag ≠ r.heat → (r.mode = true → need ≠ .wr → is (.fault .heattrap w))
            ∧ (r.mode = false ∨ need = .wr → is (.ok (some ⟨w.toNat, some r.heat⟩) tlb)))
          ∧ (allowed → tag = r.heat →
            let bad : Prop := s.eccBad.contains (w.toNat / 32) = true ∧ (need ≠ .wr ∨ n < 32)
            (bad → is (.fault .ecc (BitVec.ofNat 64 (w.toNat / 32 * 32)))) ∧ (¬ bad → is (.ok (some ⟨w.toNat, some r.heat⟩) tlb))))
      ∧ (aVault w = false → inWindow w = false →
        (translate s s.myDie tlb (aOff w) need = none → is .miss)
        ∧ ∀ a t, translate s s.myDie tlb (aOff w) need = some (a, t) → is (.ok (some ⟨a, none⟩) t))))

/-- A queue load that may issue and whose queue can draw the blocks reserves an entry at the tail and sends one operation for each granule; a queue store pops the complete entry at the head and sends its granules; a gather pops its index entry and fills a new 512-byte entry element by element; a scatter pops value and index entries and stores or adds each element. An element out of bounds accesses nothing and sets AST.oob when it completes, or with ENGCTL.oobtrap the first that is judged at issue raises PERM with its address and nothing leaves the cell. A negative index and the region of an own-die base are judged at issue, the region of another die's base by its home. Each of them takes a refusal of its own die at the word, before anything leaves, and holds an XLATE at its first element that does not translate. Where the rules leave a point open the statement takes the model's own choice: the order of checks at issue (notes/assumptions/38.md), how program order is kept (notes/assumptions/42.md), blocks of a held word and orders of queue words and eret (notes/assumptions/67.md). (R215, R216, R217, R226, R227, R228, R229, R211, R198, R230, R262) -/
def Obligations.QueueAccessesLeaveTheCell : Prop :=
  ∀ (p q j : BitVec 4) (s : BitVec 5) (st : State) (sites : List (Option Site)) (tlb : List TlbEntry),
    AGo { pg := p, aregs := [s.toNat], access := true } st →
    let a := st.cur.readA s.toNat
    let fills (i : Instr) (x : State) (n : Nat) (pieces : List Nat) (parts : Nat → List Part) : Prop :=
      blocksOf n ≤ x.cur.qcapOf q.toNat → x.cur.canDraw q.toNat (blocksOf n) = true →
        let mark (c : Cell) : Cell := c.reserve q.toNat (loadEntry c x.nextId n pieces)
        (MayAccess x.fresh.2 false (parts x.nextId) sites tlb → ∃ u, Issues i st u ∧ Sent (parts x.nextId) sites tlb mark x.fresh.2 u)
        ∧ Stops i st x.fresh.2 false (parts x.nextId) mark id
    let addr (e : QEntry) (k size : Nat) : Word := a + BitVec.ofInt 64 (idxAt (st.cur.entryBytes e) k * size)
    let out (e : QEntry) (k size : Nat) : Prop := idxAt (st.cur.entryBytes e) k < 0
      ∨ (aVault a = true ∧ addrOk a = true ∧ isLocal st.me a = true ∧ outsideRegion st a (addr e k size) size = true)
    let noTrap (e : QEntry) (n size : Nat) : Prop := st.cur.engctl.getLsbD 2 = true → ∀ k, k < n → ¬ out e k size
    let traps (i : Instr) (e : QEntry) (n size : Nat) : Prop := ∀ k, k < n → st.cur.engctl.getLsbD 2 = true → out e k size →
      (∀ l, l < k → ¬ out e l size) → Traps i st .perm (addr e k size)
    (∀ (i : BitVec 7) (z : BitVec 3),
      let n := 32 * 2 ^ z.toNat
      let w := a + i.signExtend 64 * BitVec.ofNat 64 n
      (w.toNat % 32 = 0 → fills (.ldq p i z s q) st n (List.range (n / 32)) (fun id => granuleParts w (n / 32) .rd (fun k => .fill id k (32 * k) 32)))
      ∧ (w.toNat % 32 ≠ 0 → Traps (.ldq p i z s q) st .align w ∧ Traps (.stq p i z s q) st .align w)
      ∧ (∀ e, st.cur.headAt q.toNat 0 = .ok e → w.toNat % 32 = 0 →
        (e.size = n →
          let parts := granuleParts w (n / 32) .wr (fun k => .store (fitBytes 32 ((st.cur.entryBytes e).drop (32 * k))) k)
          (MayAccess st false parts sites tlb → ∃ u, Issues (.stq p i z s q) st u ∧ Sent parts sites tlb (fun c => c.popHead q.toNat) st u)
          ∧ Stops (.stq p i z s q) st st false parts (fun c => c.popHead q.toNat) id)
        ∧ (e.size ≠ n → Traps (.stq p i z s q) st .qsize st.cur.A.pc)))
    ∧ (∀ e, st.cur.headAt j.toNat 0 = .ok e → e.size = 512 →
      let gathers (i : Instr) (n size : Nat) : Prop := a.toNat % size = 0 →
        (noTrap e n size → fills i (st.upd (fun c => c.popHead j.toNat)) 512 (List.range n)
          (fun id => (List.range n).map (fun k =>
            elemPart st (.fill id k (k * size) size) a (idxAt (st.cur.entryBytes e) k) size .rd)))
        ∧ traps i e n size
      gathers (.gathW p j s q) 128 4 ∧ gathers (.gathD p j s q) 64 8 ∧ gathers (.gathG p j s q) 16 32)
    ∧ (∀ ve ie, st.cur.headAt q.toNat 0 = .ok ve → st.cur.headAt j.toNat (if j = q then 1 else 0) = .ok ie → ve.size = 512 → ie.size = 512 →
      let scatters (i : Instr) (n size : Nat) (need : Need) (kind : List Byte → Nat → OpKind) : Prop := a.toNat % size = 0 →
        let parts := (List.range n).map (fun k =>
          elemPart st (kind (fitBytes size ((st.cur.entryBytes ve).drop (k * size))) (k * size / 32)) a (idxAt (st.cur.entryBytes ie) k) size need)
        let mark (c : Cell) : Cell := (c.popHead q.toNat).popHead j.toNat
        (noTrap ie n size → (MayAccess st false parts sites tlb → ∃ u, Issues i st u ∧ Sent parts sites tlb mark st u)
          ∧ Stops i st st false parts mark id)
        ∧ traps i ie n size
      scatters (.scatW p j s q) 128 4 .wr .store ∧ scatters (.scatD p j s q) 64 8 .wr .store ∧ scatters (.scatG p j s q) 16 32 .wr .store
      ∧ scatters (.scatAddW p j s q) 128 4 .atom (fun bs e => .scatAdd .add (wordAt bs 0) e)
      ∧ scatters (.scatAddD p j s q) 64 8 .atom (fun bs e => .scatAdd .add (wordAt bs 0) e)
      ∧ scatters (.scatAddF p j s q) 128 4 .atom (fun bs e => .scatAdd .fadd (wordAt bs 0) e))

/-- Each stream set-up word that may issue with its guard true writes the stream register as R219 says: sbase resets it with a new base and counts 1; sdim writes stride and count of one dimension and restarts it where the stride fits 32 bits and the count lies within its limit; sunf writes mode and geometry where they are valid; spage writes a page distance below 65536; other values raise ILLEGAL and change nothing. An sgo that may issue with its guard true does nothing more than issue where its stream is exhausted or counts no access. Otherwise a linear stream sends the granules of its next accesses, each translated by a page register that covers it or by the TLB, reserves the entry they fill, and moves the stream past them; an unfold stream sends the runs of bytes of its next 1024-byte entry and holds A issue for 16 cycles. Either takes a refusal of its own die at the word, with the stream as it was, and holds an XLATE at its first element that does not translate, with no page in use. Where the rules leave a point open the statement takes the model's own choice: an exhausted stream (notes/assumptions/39.md), what the caches keep (notes/assumptions/61.md), blocks of a held word and orders of queue words and eret (notes/assumptions/67.md). (R219, R218, R221, R220, R222, R223) -/
def Obligations.StreamWordsAndTheirEntries : Prop :=
(∀ (p : BitVec 4) (n : BitVec 3) (t s : BitVec 5) (st : State),
    let a := st.cur.readA s.toNat
    let b := st.cur.readA t.toNat
    let x := st.cur.readS n.toNat
    let sets (i : Instr) (y : Stream) : Prop := Issues i st (st.upd (fun c => c.writeS n.toNat y))
    let refused (i : Instr) : Prop := Traps i st .illegal st.cur.A.pc
    (AGo { pg := p, aregs := [s.toNat] } st →
      sets (.sbase p s n) { Stream.zero with base := a, cnt := [1, 1, 1, 1] }
      ∧ (a.toNat < 65536 → sets (.spage p s n) { x with dist := a.setWidth 16 }) ∧ (65536 ≤ a.toNat → refused (.spage p s n)))
    ∧ (AGo { pg := p, aregs := [t.toNat, s.toNat] } st →
      (∀ k : BitVec 2,
        let ok : Prop := (-2147483648 ≤ a.toInt ∧ a.toInt < 2147483648) ∧ 1 ≤ b.toNat ∧ b.toNat ≤ (if k = 3 then 32768 else 65535)
        (ok → sets (.sdim p t s k n) { x with
          str := setAt 0 x.str k.toNat (a.setWidth 32), cnt := setAt 0 x.cnt k.toNat (b.setWidth 16), pos := [], done := false })
        ∧ (¬ ok → refused (.sdim p t s k n)))
      ∧ (modeOk a b = true → sets (.sunf p t s n) { x with mode := a.setWidth 32, geom := b, pos := [], done := false })
      ∧ (modeOk a b = false → refused (.sunf p t s n))))
  ∧ (∀ (p q : BitVec 4) (z n : BitVec 3) (st : State) (sites : List (Option Site)) (tlb : List TlbEntry), AGo { pg := p, access := true } st →
    let x := st.cur.readS n.toNat
    let size := 32 * 2 ^ z.toNat
    let fills (y : State) (bytes : Nat) (pieces : List Nat) (parts : Nat → List Part) (done held : State → State) : Prop :=
      blocksOf bytes ≤ y.cur.qcapOf q.toNat → y.cur.canDraw q.toNat (blocksOf bytes) = true →
        let mark (c : Cell) : Cell := c.reserve q.toNat (loadEntry c y.nextId bytes pieces)
        (MayAccess y.fresh.2 false (parts y.nextId) sites tlb →
          ∃ u, Sent (parts y.nextId) sites tlb mark y.fresh.2 u ∧ Issues (.sgo p z n q) st (done u))
        ∧ Stops (.sgo p z n q) st y.fresh.2 false (parts y.nextId) mark held
    (x.done = true ∨ x.total = 0 → Issues (.sgo p z n q) st st)
    ∧ (x.done = false → x.total ≠ 0 → x.mode.toNat % 4 ≠ 1 →
      let pack := 2 ^ (x.mode.toNat / 4 % 8)
      let addrs := linearAddrs x pack
      let grans := addrs.flatMap (fun w => (List.range (size / 32)).map (fun j => w + BitVec.ofNat 64 (32 * j)))
      let walked := pageWalk st st.me st.cur x grans
      size * pack ≤ 2048 → (∀ w ∈ addrs, w.toNat % 32 = 0) → (∀ w ∈ grans, waitsForFill st st.me st.cur x w = false) →
      fills st (size * pack) (List.range grans.length)
        (fun id => (List.range grans.length).map (fun k =>
          { Part.plain (.fill id k (32 * k) 32) (grans.getD k 0) 32 .rd with page := walked.2.getD k none }))
        (sgoDone n.toNat (walked.1.advance pack) pack)
        (fun u => (sgoDone n.toNat (walked.1.advance pack) pack u).upd (fun c => c.writeS n.toNat { c.readS n.toNat with curpg := 0 })))
    ∧ (x.done = false → x.total ≠ 0 → x.mode.toNat % 4 = 1 → z = 1 → aVault x.tensor = true →
      let runs := unfoldRuns x.geom x.tensor (x.pos.getD 1 0).toNat (x.pos.getD 0 0).toNat
      fills st 1024 (List.range runs.length)
        (fun id => (List.range runs.length).map (fun k =>
          let r := runs.getD k (0, 0, 0)
          .plain (.fill id k r.2.1 r.2.2) r.1 r.2.2 .rd))
        (sgoDone n.toNat (x.advance 1) 16) (sgoDone n.toNat (x.advance 1) 16)))

/-- A fault or trap of a command cell that is not in its handler writes FAULTC and FAULTV, saves for each engine its pc, CSN, remaining stall, return stack, level counters, active loops and R27 counts together with the version counts and what its words have under way (a barrier wait, arrivals, a ring grant, a held XLATE with its elements), and starts every engine at the handler entry as at dispatch; nothing else of the cell changes, and no other cell (the cell first leaves the wait of a ring word and gives up the read of a word that waits for it, if it was in one). In its handler it stops and reports a die fault instead. eret waits while a result of the handler's own for a shared register is under way (notes/assumptions/67.md), then restores everything saved and returns each engine to its saved pc; with no trap taken it raises ILLEGAL; on a strand cell it raises PRIV. Where the rules leave a point open the statement takes the model's own choice: a second fault in the handler (notes/assumptions/27.md), how ring words meet their record (notes/assumptions/47.md), blocks of a held word and orders of queue words and eret (notes/assumptions/67.md). (R191, R87) -/
def Obligations.CommandCellTrapAndReturn : Prop :=
  (∀ (s : State) (e : BitVec 2) (code : FaultCode) (v : Word), isCmd s.me = true →
    let b := giveUpJoined (leaveRing s s.me) s.me
    let c := b.cur
    let t := takeFault s s.me e code v
    t.cur.faultc = faultWord e (codeNum code) false ∧ t.cur.faultv = v ∧ Local b t
    ∧ (c.inHandler = true → t.cur = { c with faultc := t.cur.faultc, faultv := v, status := .stopped, dieStopped := true })
    ∧ (c.inHandler = false →
        { t.cur with faultc := c.faultc, faultv := c.faultv, saved := c.saved, inHandler := c.inHandler, A := c.A, V := c.V, M := c.M
                     versions := c.versions, barWait := c.barWait, joined := c.joined, granted := c.granted, internalFor := c.internalFor
                     ops := c.ops, fault := c.fault, engPast := c.engPast, arrived := c.arrived } = c
        ∧ t.cur.inHandler = true ∧ t.cur.versions = [] ∧ t.cur.fault = none ∧ t.cur.barWait = none ∧ t.cur.arrived = []
        ∧ (∀ g : Engine,
            t.cur.engine g = { EngineState.reset with pc := (b.die b.myDie).handler, bregs := (c.engine g).bregs })
        ∧ ∃ sv, t.cur.saved = some sv ∧ sv.versions = c.versions ∧ sv.barWait = c.barWait ∧ sv.arrived = c.arrived ∧ sv.granted = c.granted
          ∧ sv.engPast = c.engPast ∧ sv.fault = c.fault ∧ sv.before = b.nextId
          ∧ sv.ops = c.heldOps s.me ∧ t.cur.ops = c.ops.filter (fun o => !sv.ops.any (·.id == o.id))
          ∧ ∀ x y : EngineState, (x, y) ∈ [(sv.A, c.A), (sv.V, c.V), (sv.M, c.M)] →
              x = { y with nextIssue := y.nextIssue - b.cycle, wait := .none }))
  ∧ (∀ (p : BitVec 4) (s : State), AGo { pg := p, cm := true } s →
    (s.cur.saved = none → Traps (.eret p) s .illegal s.cur.A.pc)
    ∧ (∀ sv, s.cur.saved = some sv → handlerOpen s sv = true → exec (.eret p) s = .next (setWait s .A .external))
    ∧ ∀ sv, s.cur.saved = some sv → handlerOpen s sv = false → ∃ t, exec (.eret p) s = .next t ∧ Outside s t
      ∧ t.cur.saved = none ∧ t.cur.inHandler = false ∧ t.cur.versions = sv.versions ∧ t.cur.barWait = sv.barWait ∧ t.cur.arrived = sv.arrived
      ∧ t.cur.granted = sv.granted ∧ t.cur.engPast = sv.engPast ∧ t.cur.fault = sv.fault ∧ t.cur.ops = sv.ops ++ s.cur.ops
      ∧ { t.cur with saved := s.cur.saved, inHandler := s.cur.inHandler, A := s.cur.A, V := s.cur.V, M := s.cur.M, versions := s.cur.versions
                     barWait := s.cur.barWait, joined := s.cur.joined, granted := s.cur.granted, iret := s.cur.iret
                     arrived := s.cur.arrived, engPast := s.cur.engPast, fault := s.cur.fault, ops := s.cur.ops } = s.cur
      ∧ ∀ g x, (g, x) ∈ [(Engine.A, sv.A), (Engine.V, sv.V), (Engine.M, sv.M)] →
          let y := t.cur.engine g
          y.pc = x.pc ∧ y.csn = x.csn ∧ y.rets = x.rets ∧ y.lcnt = x.lcnt ∧ y.loops = x.loops ∧ y.expect = x.expect
          ∧ y.bregs = (s.cur.engine g).bregs ∧ (g ≠ .A → y.nextIssue = x.nextIssue + s.cycle))
  ∧ (∀ (p : BitVec 4) (s : State), isCmd s.me = false → Traps (.eret p) s .priv s.cur.A.pc)

/-- A trap or brk that issues with its guard true raises its fault with FAULTC.eng 0 after the A engine has passed the word: on a command cell the handler is entered, on a strand cell the strand stops and is no longer running, its record naming the offset of the trap. With its guard false it only issues. A wfe that may issue completes and clears the event latch where it is set; otherwise the A engine waits idle at the word. (R190, R29, R191, R193, R199) -/
def Obligations.TrapBreakAndEventWait : Prop :=
  ∀ (p : BitVec 4) (n : BitVec 5) (s : State),
    let raises (i : Instr) (code : FaultCode) (v : Word) : Prop :=
      (AGo { pg := p } s → ∃ t, AIssued 0 false s t
        ∧ (isCmd s.me = true → exec i s = .next (commandTrap t s.me (faultWord 0 (codeNum code) false) v))
        ∧ (isCmd s.me = false → ∃ u, exec i s = .next u ∧ u = stopStrand t s.me 0 code v (s.cur.A.pc - s.cur.entry)
            ∧ (u.cell s.me).status ≠ .running))
      ∧ (ANot { pg := p } s → Passes i s)
    raises (.trap p n) .trapi (n.setWidth 64) ∧ raises (.brk p) .brk s.cur.A.pc
    ∧ (AGo { pg := p } s →
      (s.cur.latch = true → Issues (.wfe p) s (s.upd (fun c => { c with latch := false })))
      ∧ (s.cur.latch = false → exec (.wfe p) s = .next (setWait s .A .idle)))

/-- A stopping fault of a strand cell: with room for its record and a stow slot reserved or free, FAULTC and FAULTV are written, the record is appended to the fault queue of the launching die of its task, the cell halts for a fault stow and no other cell but that die's command cell changes; with no slot the cell becomes idle and the record stands; with no room for the record the cell is held until there is. STOPPING_FAULT of a running cell does this, and of a cell that does not run does nothing. Where the rules leave a point open the statement takes the model's own choice: a fault without room for its record (notes/assumptions/28.md). (R29, R199, R205, R255) -/
def Obligations.StrandStopsOnAFault : Prop :=
  ∀ (s : State) (ix : Nat) (e : BitVec 2) (code : FaultCode) (v : Word), isCmd ix = false →
    let die := dieOfCell ix
    let c := s.cell ix
    let off := offsetOf c e
    let fc := faultWord e (codeNum code) false
    let r := recordOf s ix 0 fc v off
    let t := takeFault s ix e code v
    let x : State := { s with nextId := s.nextId + 1 }
    ((taskOf s c.handle).isSome = true → recordDie s ix = handleDie c.handle)
    ∧ (recordRoom s (recordDie s ix) = false → t = x.modCell ix (fun c => { c with status := .held, stuck := some ⟨r, none, false⟩ }))
    ∧ (recordRoom s (recordDie s ix) = true →
      let a := appendRecord x (recordDie s ix) r
      ((a.die die).reserved.any (fun x => x.1 == ix) = true ∨ freeSlots (a.die die) die s.cycle ≠ [] →
        t.cell ix = { c with status := .halting, faultc := fc, faultv := v, preempt := some .fault, stuck := none, stopped := s.nextId }
        ∧ (∀ j, j ≠ ix → t.cell j = a.cell j) ∧ t.mem = a.mem
        ∧ (t.die die).reserved.any (fun x => x.1 == ix) = true)
      ∧ ((a.die die).reserved.any (fun x => x.1 == ix) = false → freeSlots (a.die die) die s.cycle = [] → (t.cell ix).status = .idle))
    ∧ ∀ cid : CellId, cellIx cid = ix →
      exec (.stoppingFault cid e code v) s = .next (if c.status = .running then t else s)

/-- heatq, in every state in which it may issue with its guard true, writes rd with HEATR at [11:0], the oldest retired heat that may not yet be reissued (0 with none) at [23:12], the number of retired heats at [35:24] and zeros above, and changes nothing else. (R192) -/
def Obligations.HeatStateIsRead : Prop :=
  ∀ (p : BitVec 4) (d : BitVec 5) (s : State), AGo { pg := p, aregs := [d.toNat] } s →
    let retired := (s.die s.myDie).retired
    WritesA (.heatq p d) s d
      (BitVec.ofNat 64 (s.cur.heat.toNat + (retired.head?.map Prod.fst).getD 0 * 2 ^ 12 + retired.length * 2 ^ 24))

/-- hpour, eret, tkill, valloc, vfree, tlbinv, pgprobe, schpub, schadv, and mfsr or mtsr of a register marked CM, raise PRIV with the address of the word in every strand cell, guard true or false, and have no other effect. Every A word, V word and M word whose guard predicate is false passes as R41 says: the pc moves on by the word's parcels, IRET counts the word, its destination among the shared registers is counted and published as R27 says (a write of mtsr, mtb, ltrip, ppop, mpany or mpall too, with the value left), a V or M word keeps its stall count, and no other register, queue, memory or fault is touched. aInfoOf, vFormOf and mGuardOf name every A, V and M word. A V word whose guard is true waits while an entry that it pops is not there (S1 before S2) and then while its push finds no room; then STALL_SHORT for an early read under ENGCTL.check, QSIZE for an entry of another size or a push above QCAP, and FMT for an immediate that its type does not admit are raised in this order, with nothing popped, pushed or written. Where the rules leave a point open the statement takes the model's own choice: the order of an A word's conditions (notes/assumptions/16.md). (R71, R66, R27, R41, R136, R148, R194, R46, R211) -/
def Obligations.ModeAndGuardComeBeforeTheEffect : Prop :=
(∀ (p : BitVec 4) (s t d : BitVec 5) (h : BitVec 6) (r : BitVec 8) (st : State), isCmd st.me = false →
    let priv (i : Instr) : Prop := Traps i st .priv st.cur.A.pc
    priv (.hpour p h s) ∧ priv (.eret p) ∧ priv (.tkill p s) ∧ priv (.valloc p t s d) ∧ priv (.vfree p s) ∧ priv (.tlbinv p s)
    ∧ priv (.pgprobe p s d) ∧ priv (.schpub p s) ∧ priv (.schadv p s)
    ∧ (srCommand r.toNat = true → priv (.mfsr p r d) ∧ priv (.mtsr p r s)))
  ∧ ((∀ (i : Instr) (info : AInfo) (s : State), aInfoOf i = some info → ANot info s → Passes i s)
  ∧ (∀ (i : Instr) (m : VForm) (f : VFields) (s : State), vFormOf i = some (m, f) →
    let c := s.cur
    let q := vEff c f.D 16
    let nb := pushBlocks m f
    let traps (code : FaultCode) : Prop := exec i s = .next (faultHere s .V code c.V.pc)
    (VNot .V f.pg (destOf i) s → VPasses .V 3 f.stall.toNat i s)
    ∧ (VGo .V f.pg (vReads f) (destOf i) s →
      (∀ w, popOpt c (popQueue c m.S1 f.S1) = .error w → exec i s = .next (setWait s .V w))
      ∧ (∀ e1 c1, popOpt c (popQueue c m.S1 f.S1) = .ok (e1, c1) →
        (∀ w, popOpt c1 (popQueue c m.S2 f.S2) = .error w → exec i s = .next (setWait s .V w))
        ∧ (∀ e2 c2, popOpt c1 (popQueue c m.S2 f.S2) = .ok (e2, c2) →
          (nb ≠ 0 → nb ≤ c.qcapOf q → c2.canDraw q nb = false → exec i s = .next (setWait s .V .draw))
          ∧ ((nb ≠ 0 → nb ≤ c.qcapOf q → c2.canDraw q nb = true) →
            let early : Prop := ∃ k ∈ vKeys c m f, earlyRead c .V k s.cycle = true
            let size : Prop := (nb ≠ 0 ∧ c.qcapOf q < nb) ∨ entrySizeOk f.S1 e1 = false ∨ entrySizeOk f.S2 e2 = false
            (early → traps .stallShort) ∧ (¬ early → size → traps .qsize) ∧ (¬ early → ¬ size → immsOk m f = false → traps .fmt))))))
  ∧ (∀ (i : Instr) (g : BitVec 4) (stall : Nat) (s : State), mGuardOf i = some (g, stall) → VNot .M g 0 s → VPasses .M 6 stall i s)
  ∧ (∀ (c : Cell) (q : Nat) (e : QEntry) (es : List QEntry),
    (c.queue q = [] → popOpt c (some q) = .error (.empty false))
    ∧ (c.queue q = e :: es → e.full = false → popOpt c (some q) = .error (.empty e.fills))
    ∧ (c.queue q = e :: es → e.full = true → popOpt c (some q) = .ok (some e, c.popHead q)))
  ∧ (∀ (x : Parcel) (xs : List Parcel) (i : Instr), decodeWord (x :: xs) = .ok i →
    (x.extractLsb' 0 2 = 0 → (aInfoOf i).isSome = true) ∧ (x.extractLsb' 0 2 = 1 → (vFormOf i).isSome = true)
    ∧ (x.extractLsb' 0 2 = 2 → (mGuardOf i).isSome = true)))

/-- kmov copies a k-register. kbnd narrows the window of a usable capability by start and length and seals it again where R109 allows, and raises CAPFAIL with the object id otherwise; krgt clears the rights the mask names and seals again; both raise CAPFAIL for a capability whose object id is 0 or whose MAC does not verify. A window only shrinks, and the rights after krgt are the rights before without those of the mask. Where the rules leave a point open the statement takes the model's own choice: one domain key (notes/assumptions/21.md). (R107, R109, R110, R112) -/
def Obligations.CapabilityWords : Prop :=
  ∀ (p j k : BitVec 4) (d s : BitVec 5) (st : State),
    let c := st.cur.readK k.toNat
    let key := dieKey st st.myDie
    (AGo { pg := p, kregs := [j.toNat, k.toNat] } st → WritesK (.kmov p j k) st k (st.cur.readK j.toNat))
    ∧ (AGo { pg := p, aregs := [d.toNat, s.toNat], kregs := [k.toNat] } st →
      let n := (st.cur.readA d.toNat).toNat
      let a := (st.cur.readA s.toNat).toNat
      let base := if capWlen c = 0 then 0 else capWstart c
      let fits : Prop := 0 < n ∧ n < 2 ^ 14 ∧ a < 2 ^ 14 ∧ (capWlen c ≠ 0 → a + n ≤ capWlen c) ∧ base + a + n ≤ 2 ^ 14
      (capUsable st c = true → fits → WritesK (.kbnd p d s k) st k (reseal key (setWindow c (base + a) n)))
      ∧ (capUsable st c = false ∨ ¬ fits → Traps (.kbnd p d s k) st .capfail ((capOid c).setWidth 64)))
    ∧ (AGo { pg := p, aregs := [s.toNat], kregs := [k.toNat] } st →
      (capUsable st c = true → WritesK (.krgt p s k) st k (reseal key (clearRights c ((st.cur.readA s.toNat).extractLsb' 0 8))))
      ∧ (capUsable st c = false → Traps (.krgt p s k) st .capfail ((capOid c).setWidth 64)))
    ∧ (∀ (x : Cap) (m : BitVec 8) (b n : Nat), b < 2 ^ 14 → n < 2 ^ 14 →
      let y := reseal key (setWindow x b n)
      capWstart y = b ∧ capWlen y = n ∧ capOid y = capOid x ∧ capHeat y = capHeat x ∧ capRights y = capRights x ∧ capKind y = capKind x
      ∧ capHeat y = capHeat (reseal key (clearRights x m))
      ∧ capRights (reseal key (clearRights x m)) = capRights x &&& ~~~m ∧ capOid (reseal key (clearRights x m)) = capOid x
      ∧ capWstart (reseal key (clearRights x m)) = capWstart x ∧ capWlen (reseal key (clearRights x m)) = capWlen x)

/-- A valloc that may issue writes rd with the base address of the new region, at the lowest place where no region of the vault lies, and lists it under a heat drawn for it with the mode, the span, the rights and the stow mark of its attributes; or with 2^63 plus the cause (1 attributes, 2 space, 3 entries, 4 heats), changing nothing else. vfree of the base of an own region that no accepted operation is inside removes the region and retires its heat; it waits while one is inside, and raises PERM for any other address and for a stow slot that holds a stowed strand or is reserved for one (notes/assumptions/68.md). The extent is free and no lower base has room. Where the rules leave a point open the statement takes the model's own choice: corners of the fault queue, the ready pool and the slots (notes/assumptions/68.md). (R264, R265, R266, R270, R271) -/
def Obligations.VaultAllocation : Prop :=
  ∀ (p : BitVec 4) (t s d : BitVec 5) (st : State),
    (AGo { pg := p, cm := true, aregs := [t.toNat, s.toNat, d.toNat] } st →
      let a := st.cur.readA t.toNat
      let size := st.cur.readA s.toNat
      let D := st.die st.myDie
      let v := wf64 a 7 0
      let n := size.toNat / 1024
      let rs := vaultRegions D v
      let refused (k : Nat) : Prop := WritesA (.valloc p t s d) st d (refuse k)
      (wf64 a 10 8 = 7 → Traps (.valloc p t s d) st .illegal st.cur.A.pc)
      ∧ (wf64 a 10 8 ≠ 7 →
        (attrBad size a = true → refused 1)
        ∧ (attrBad size a = false → lowestExtent rs n = none → refused 2)
        ∧ (attrBad size a = false → ∀ base, lowestExtent rs n = some base →
          let slot := lowest 64 (fun i => !rs.any (fun e => e.1 % 64 == i))
          (slot = none → refused 3)
          ∧ (∀ k, slot = some k → (drawHeat D = none → refused 4)
            ∧ ∀ h D1, drawHeat D = some (h, D1) → ∃ r : Region, r.base = base ∧ r.size = n ∧ r.heat = h ∧ r.sheld = false ∧ r.sindex = 0
                ∧ r.mode = a.getLsbD 11 ∧ r.span = wf64 a 10 8 ∧ r.rd = a.getLsbD 12 ∧ r.wr = a.getLsbD 13 ∧ r.atom = a.getLsbD 14 ∧ r.stow = a.getLsbD 15 ∧
              Issues (.valloc p t s d) st
                (putA (st.setDie st.myDie { D1 with regions := insertAt D1.regions (64 * v + k) r }) d.toNat
                  (vaultAddr st.myDie v (base * 1024)))))))
    ∧ (AGo { pg := p, cm := true, aregs := [s.toNat] } st →
      let w := st.cur.readA s.toNat
      let slot (key : Nat) (r : Region) : Prop := r.stow = true ∧ (r.sheld = true ∨ ∃ x ∈ (st.die st.myDie).reserved, x.2 = key)
      (regionBased st w = none → Traps (.vfree p s) st .perm w)
      ∧ (∀ key r, regionBased st w = some (key, r) →
        (isLocal st.me w = false ∨ slot key r → Traps (.vfree p s) st .perm w)
        ∧ (isLocal st.me w = true → ¬ slot key r →
          (acceptedIn st st.myDie key r = true → exec (.vfree p s) st = .next (setWait st .A .external))
          ∧ (acceptedIn st st.myDie key r = false → Issues (.vfree p s) st
              (st.modDie st.myDie (fun d => retireHeat { d with regions := dropKey d.regions key } r.heat))))))
    ∧ ∀ (rs : List (Nat × Region)) (n base : Nat), 0 < n → lowestExtent rs n = some base →
      base + n ≤ 4096 ∧ (∀ e ∈ rs, e.2.base + e.2.size ≤ base ∨ base + n ≤ e.2.base)
      ∧ ∀ b, b < base → b + n ≤ 4096 → extentFree rs b n = false

/-- In a command cell tlbinv with mode 0 of an own paged address drops the translations that cover it in every cell and stow image of the die, with mode 1 all of them, and the page registers that hold such a translation, in streams and in those that a held access keeps, become invalid; a vault address with mode 0 changes nothing; a mode above 1 raises ILLEGAL, another die's address or one above 2^63 PERM. pgprobe writes rd with the entry of the walk, 0 where there is none. Where the rules leave a point open the statement takes the model's own choice: the order of an A word's conditions (notes/assumptions/16.md). (R276, R225) -/
def Obligations.TranslationWords : Prop :=
  ∀ (p : BitVec 4) (s d : BitVec 5) (st : State),
    let w := st.cur.readA s.toNat
    (AGo { pg := p, cm := true, aregs := [s.toNat] } st →
      let m := w.toNat % 4
      (2 ≤ m → Traps (.tlbinv p s) st .illegal st.cur.A.pc)
      ∧ (m < 2 → isLocal st.me w = false ∨ w.getLsbD 63 = true → Traps (.tlbinv p s) st .perm w)
      ∧ (isLocal st.me w = true → w.getLsbD 63 = false →
        (m = 0 → aVault w = true → Issues (.tlbinv p s) st st)
        ∧ (m = 0 → aVault w = false → Issues (.tlbinv p s) st (invalDie st st.myDie false (aOff w / 4 * 4)))
        ∧ (m = 1 → Issues (.tlbinv p s) st (invalDie st st.myDie true (aOff w / 4 * 4)))
        ∧ ∀ (all : Bool) (ix : Nat), ix / 144 = st.myDie →
          let x := aOff w / 4 * 4
          let t := invalDie st st.myDie all x
          let clean (u v : Stream) : Prop := v = { u with curpg := v.curpg, nextpg := v.nextpg }
            ∧ ∀ a b va, (a, b, va) ∈ [(u.curpg, v.curpg, u.curva), (u.nextpg, v.nextpg, u.nextva)] →
              b = if ∃ e, pageEntry a va = some e ∧ (all = true ∨ e.covers x = true) then 0 else a
          (t.cell ix).tlb = (st.cell ix).tlb.filter (fun e => !(all || e.covers x))
          ∧ (t.die st.myDie).stowed = (st.die st.myDie).stowed.map (fun y => { y with ctx := invalCell all x y.ctx })
          ∧ (∀ c : Cell, (∀ n, clean (c.readS n) ((invalCell all x c).readS n))
            ∧ (∀ h h' n u v, c.fault = some h → (invalCell all x c).fault = some h' → h.stream = some (n, u) → h'.stream = some (n, v) → clean u v))))
    ∧ (AGo { pg := p, cm := true, aregs := [s.toNat, d.toNat] } st →
      (w.getLsbD 63 = true ∨ aVault w = true ∨ isLocal st.me w = false → WritesA (.pgprobe p s d) st d 0)
      ∧ (w.getLsbD 63 = false → aVault w = false → isLocal st.me w = true →
        (walk st st.myDie (aOff w) = none → WritesA (.pgprobe p s d) st d 0)
        ∧ ∀ l, walk st st.myDie (aOff w) = some l → WritesA (.pgprobe p s d) st d l.raw))

/-- QUENCH_SWEEP during a pass moves the sweep on by one and takes, in each of the die's 144 vaults, the granule at the sweep's position: its heat tag is dropped exactly where that heat is retired, and every other tag stays. The cell of that position, where it is listed and idle, loses its units of retired heats: each of its registers reads its stale value under a retired heat and what it read before under any other, and its residue loses the retired heats; every other cell stays as it was. QUENCH_PASS_END at the end of a pass begins the next and frees the heats retired before the pass that no cell holds; both do nothing at other times, and UNIT_WAKE changes nothing. Where the rules leave a point open the statement takes the model's own choice: cold granules at reset (notes/assumptions/2.md), records at reset (notes/assumptions/14.md). (R271, R272, R273) -/
def Obligations.SweepQuenchesRetiredHeats : Prop :=
  ∀ (d : DieId) (u : Nat) (s : State),
    let die := dieIx d
    let D := s.die die
    let ix := die * 144 + D.sweepPos
    let cold (h : Heat) : Prop := (find? D.retired h.toNat).isSome = true
    (passLen ≤ D.sweepPos → exec (.quenchSweep d) s = .next s)
    ∧ (D.sweepPos < passLen → ∃ t, exec (.quenchSweep d) s = .next t
      ∧ t.die die = { D with sweepPos := D.sweepPos + 1 } ∧ t.mem = s.mem
      ∧ { t with heats := s.heats, dies := s.dies, cells := s.cells } = s ∧ (∀ o, o ≠ die → t.die o = s.die o)
      ∧ (∀ g, let swept : Prop := (∃ v, v < 144 ∧ g = (vaultAddr die v (32 * D.sweepPos)).toNat / 32) ∧ ∃ h, find? s.heats g = some h ∧ cold h
          (swept → find? t.heats g = none) ∧ (¬ swept → find? t.heats g = find? s.heats g))
      ∧ (∀ j, j ≠ ix ∨ 144 ≤ D.sweepPos ∨ (s.cell ix).status ≠ .idle → t.cell j = s.cell j)
      ∧ (D.sweepPos < 144 → (s.cell ix).status = .idle → find? s.cells ix ≠ none → ∀ h : Heat,
          let c : Cell := { s.cell ix with heat := h }
          let q : Cell := { t.cell ix with heat := h }
          (t.cell ix).residue = (s.cell ix).residue.filter (fun h => !(find? D.retired h.toNat).isSome)
          ∧ (∀ r, 0 < r → (cold h → q.readA r = 0 ∧ q.readP r = false ∧ q.readM r = 0) ∧ (¬ cold h → q.readA r = c.readA r ∧ q.readP r = c.readP r ∧ q.readM r = c.readM r))
          ∧ (∀ r, (cold h → q.readK r = 0 ∧ q.readS r = Stream.zero ∧ q.readV r = [] ∧ q.tile r = Tile.zero ∧ ∀ e, q.readB e r = 0)
            ∧ (¬ cold h → q.readK r = c.readK r ∧ q.readS r = c.readS r ∧ q.readV r = c.readV r ∧ q.tile r = c.tile r ∧ ∀ e, q.readB e r = c.readB e r))
          ∧ q.bBuffer = (if (find? D.retired h.toNat).isSome then BBuf.zero else c.bBuffer)))
    ∧ (D.sweepPos < passLen → exec (.quenchPassEnd d) s = .next s)
    ∧ (passLen ≤ D.sweepPos → ∃ t, exec (.quenchPassEnd d) s = .next t ∧ (t.die die).sweepPos = D.sweepPos - passLen ∧ (t.die die).sweepPass = D.sweepPass + 1
      ∧ (∀ e, e ∈ (t.die die).retired ↔ e ∈ D.retired ∧
          (D.sweepPass ≤ e.2 ∨ ∃ x ∈ s.cells, x.1 / 144 = die ∧ ∃ y ∈ x.2.residue, y.toNat = e.1))
      ∧ { t with dies := s.dies } = s)
    ∧ exec (.unitWake d u) s = .next s

/-- A load, capability load or block fill that may be performed: what its home answers (the bytes read, with the time of the home; a refusal; or that the element lies out of bounds) is taken at once where the home is the own die, and otherwise starts back as the operation's response; no memory and no other cell changes. A response that has come back to the die is taken. With its data a register holds the value of the bytes read, extended as its size code says, or the entry they fill holds them at their offset, with its heat, its other bytes and the blocks still missing as they were and the block filled no longer missing, and the operation has left; a refused one leaves a deferred report. An operation at its home that may not yet be performed waits. Where the rules leave a point open the statement takes the model's own choice: how accesses travel between packages (notes/assumptions/10.md), elements with a refused part (notes/assumptions/40.md), which cells counters 0, 4 and 5 count (notes/assumptions/43.md), when links are dark, paused and rekeyed (notes/assumptions/62.md), a miss at a home (notes/assumptions/63.md), refused elements and the rights of an adding scatter (notes/assumptions/66.md). (R284, R285, R108, R214, R197, R327) -/
def Obligations.ReadsDeliverTheirData : Prop :=
  ∀ (cid : CellId) (id : Nat) (s : State) (o : MemOp),
    let ix := cellIx cid
    let c := s.cell ix
    c.op? id = some o →
    let event : Instr := if isReg o.kind then .loadDataReturn cid id else .blockFill cid id
    let leads (x : Cell) : Prop := ∃ u, exec event s = .next u ∧ u.mem = s.mem ∧ u.heats = s.heats ∧ (∀ j, j ≠ ix → u.cell j = s.cell j)
      ∧ (∀ d, { u.die d with counters := (s.die d).counters } = s.die d) ∧ u.cell ix = x
    let answers (x : Cell) (r : Reply) : Prop := leads (if isLocal ix o.addr then x.take o s.cycle r
      else x.modOp id (fun y => { y with reply := some r, performed := true, leg := if o.homePkg = pkgOfCell ix then .returned else .back }))
    isReg o.kind = true ∨ isFill o.kind = true →
    (o.reply = none → atHome s ix o = true → mayPerform s ix c o = false → exec event s = .next s)
    ∧ (mayPerform s ix c o = true →
      (∀ e v, arrive s ix c o = .fault e v → o.reissue = false ∨ isLocal ix o.addr = false → answers c (.refused e v))
      ∧ (arrive s ix c o = .outside → answers c .outside)
      ∧ (∀ p tlb bs t, arrive s ix c o = .ok (some p) tlb → readHome s o p = .ok (bs, t) →
          answers { c with tlb := if isLocal ix o.addr then tlb else c.tlb } (.data bs (homeTime s o.addr))))
    ∧ (∀ r, o.reply = some r → o.leg = .returned → onRing s (pkgOfCell ix) id = false → leads (c.take o s.cycle r))
    ∧ (∀ bs t, let u := c.take o s.cycle (.data bs t)
        u.op? id = none ∧ (∀ r z, o.kind = .load r z → r ≠ 0 → u.readA r.toNat = loadValue z bs)
        ∧ (∀ k, o.kind = .kload k → u.readK k.toNat = BitVec.ofNat 128 (ofLe bs))
        ∧ (∀ e blk off len, o.kind = .fill e blk off len → ∀ q, (∀ x ∈ c.queue q, x.id = e → off + bs.length ≤ max 32 x.size) → u.queue q = (c.queue q).map (fun x => if x.id = e then { x with
            missing := x.missing.erase blk
            bytes := (List.range (max 32 x.size)).map (fun i =>
              if off ≤ i ∧ i < off + bs.length then bs.getD (i - off) 0 else x.bytes.getD i 0) } else x)))
    ∧ (∀ e v, o.reissue = true ∨ e ≠ .rxlate ∨ maskBit o.kind = none →
        (⟨e, v⟩ : Report) ∈ (c.take o s.cycle (.refused e v)).reports ∧ (c.take o s.cycle (.refused e v)).op? id = none)
    ∧ (∀ (z : BitVec 3) (bs : List Byte), loadValue z bs =
        if z = 0 then (BitVec.ofNat 8 (ofLe bs)).signExtend 64 else if z = 2 then (BitVec.ofNat 16 (ofLe bs)).signExtend 64
        else if z = 4 then (BitVec.ofNat 32 (ofLe bs)).signExtend 64 else BitVec.ofNat 64 (ofLe bs))

/-- A store, adding scatter element or atomic of a strand cell that may be performed and that its home accepts changes the bytes at its site as its kind says; one homed on the own die then leaves the operations in flight, an atomic with the old value in its register; one of another die leaves when its response, which starts back from the home, has reached the die. A remote part with an element that is refused changes no memory, and a refusal becomes a deferred report. An operation at its home that may not be performed waits. For an old value a and an operand b of n bytes (n = 4 or 8): add adds modulo the width, and, or and xor act bitwise, min and max compare signed, minn and maxn unsigned, swap stores b, cas stores b where a equals the expected value and a otherwise; the return is the old value, sign-extended from 32 bits except for minn and maxn. Where the rules leave a point open the statement takes the model's own choice: how accesses travel between packages (notes/assumptions/10.md), elements with a refused part (notes/assumptions/40.md), absent nodes (notes/assumptions/49.md), a miss at a home (notes/assumptions/63.md), refused elements and the rights of an adding scatter (notes/assumptions/66.md). (R285, R286, R229, R307, R232, R262, R197, R327) -/
def Obligations.WritesAndAtomicsArePerformedAtTheirHome : Prop :=
(∀ (cid : CellId) (id : Nat) (s : State) (o : MemOp),
    let ix := cellIx cid
    let c := s.cell ix
    c.op? id = some o → isCmd ix = false → inWindow o.addr = false →
    let leads (i : Instr) (m : State) (x : Cell) : Prop := ∃ u, exec i s = .next u ∧ u.mem = m.mem ∧ u.heats = m.heats
      ∧ (∀ j, j ≠ ix → u.cell j = s.cell j) ∧ u.cell ix = x
    let answers (i : Instr) (m : State) (site : Option Site → Option Site) (r : Nat → Reply) : Prop := ∃ t, leads i m (if isLocal ix o.addr then c.take o s.cycle (r t)
      else c.modOp id (fun y => { y with site := site y.site, reply := some (r t), performed := true, leg := if o.homePkg = pkgOfCell ix then .returned else .back }))
    let common (i : Instr) : Prop :=
      (o.reply = none → atHome s ix o = true → mayPerform s ix c o = false → exec i s = .next s)
      ∧ (∀ r, o.reply = some r → o.leg = .returned → onRing s (pkgOfCell ix) id = false → leads i s (c.take o s.cycle r))
    let stores (p : Site) (t : State) (site : Option Site → Option Site) : Prop :=
      (∀ data e, o.kind = .store data e → writeSite s p data = .ok t → answers (.storePerformed cid id) t site .done)
      ∧ (∀ op b e bs, o.kind = .scatAdd op b e → readSite s o.addr p o.len = .ok bs →
          writeSite s p (leBytes (rmwApply op o.len (ofLe bs) (b.toNat % 2 ^ (8 * o.len)) 0) o.len) = .ok t →
          answers (.storePerformed cid id) t site .done)
    ((∃ data e, o.kind = .store data e) ∨ (∃ op b e, o.kind = .scatAdd op b e) →
      common (.storePerformed cid id)
      ∧ (mayPerform s ix c o = true → o.bound = .none → o.reissue = false → ∀ p t,
        (o.site = some p → stores p t (fun y => y))
        ∧ (isLocal ix o.addr = false → o.site = none → openPart c o = [o] →
          (∀ tlb, judge s ix c o = .ok (some p) tlb → stores p t (fun _ => some p))
          ∧ (∀ e v, judge s ix c o = .fault e v → answers (.storePerformed cid id) s (fun y => y) (fun _ => .refused e v))))
      ∧ (mayPerform s ix c o = true → o.bound ≠ .out → partFate s ix c o = .refused →
          ∃ u, exec (.storePerformed cid id) s = .next u ∧ u.mem = s.mem ∧ u.heats = s.heats))
    ∧ (∀ op r b e, o.kind = .rmw op r b e →
      common (.rmwResponse cid id)
      ∧ (mayPerform s ix c o = true →
        (∀ f v, arrive s ix c o = .fault f v → f ≠ .none → answers (.rmwResponse cid id) s (fun y => y) (fun _ => .refused f v))
        ∧ ∀ p tlb bs t, arrive s ix c o = .ok (some p) tlb → readSite s o.addr p o.len = .ok bs →
          writeSite s p (leBytes (rmwApply op o.len (ofLe bs) (b.toNat % 2 ^ (8 * o.len)) (e.toNat % 2 ^ (8 * o.len))) o.len) = .ok t →
          answers (.rmwResponse cid id) t (fun y => y) (.old (ofLe bs)))
      ∧ (∀ v t, (c.take o s.cycle (.old v t)).op? id = none ∧ (r ≠ 0 → (c.take o s.cycle (.old v t)).readA r.toNat = rmwReturn op o.len v))))
  ∧ (∀ (n a b e : Nat), n = 4 ∨ n = 8 → a < 2 ^ (8 * n) → b < 2 ^ (8 * n) → e < 2 ^ (8 * n) →
    let signed (x : Nat) : Int := if x < 2 ^ (8 * n - 1) then x else (x : Int) - 2 ^ (8 * n)
    rmwApply .add n a b e = (a + b) % 2 ^ (8 * n) ∧ rmwApply .and n a b e = a &&& b ∧ rmwApply .or n a b e = a ||| b
    ∧ rmwApply .xor n a b e = a ^^^ b ∧ rmwApply .min n a b e = (if signed a < signed b then a else b)
    ∧ rmwApply .max n a b e = (if signed b < signed a then a else b) ∧ rmwApply .minn n a b e = (if a < b then a else b)
    ∧ rmwApply .maxn n a b e = (if b < a then a else b) ∧ rmwApply .swap n a b e = b
    ∧ rmwApply .cas n a b e = (if a = e then b else a)
    ∧ (∀ op : RmwOp, rmwReturn op n a =
        if n = 4 ∧ op ≠ .minn ∧ op ≠ .maxn then (BitVec.ofNat 32 a).signExtend 64 else BitVec.ofNat 64 a))

/-- TEXT_FETCH of a granule already cached, or while no packet may leave for it, changes nothing; otherwise the granule of text that holds the address is read, under the cell's translations, into the instruction cache, or its refusal is a stopping fault of the engine with the granule's address. PAGE_AHEAD_FILL of a stream whose next page is awaited puts in its translation, or none where it does not translate, and changes nothing else. REISSUE_REFUSED of a reissued load turns a local miss into a held XLATE and any other refusal into a deferred report. Where the rules leave a point open the statement takes the model's own choice: what a held XLATE has done (notes/assumptions/23.md), what the caches keep (notes/assumptions/61.md), a miss at a home (notes/assumptions/63.md). (R40, R441, R223, R439, R198) -/
def Obligations.TextAndPageFills : Prop :=
  ∀ (cid : CellId) (s : State),
    let ix := cellIx cid
    let c := s.cell ix
    (∀ (e : Engine) (g : Word),
      let w : Word := BitVec.ofNat 64 (g.toNat / 32 * 32)
      ((find? c.icache (w.toNat / 32)).isSome = true → exec (.textFetch cid e g) s = .next s)
      ∧ (mayLeave s (dieOfCell ix) w = false → exec (.textFetch cid e g) s = .next s)
      ∧ (find? c.icache (w.toNat / 32) = none → mayLeave s (dieOfCell ix) w = true →
        (∀ bs tlb u, fetchGranule s ix w = .ok (bs, tlb, u) → u.cells = s.cells ∧ u.mem = s.mem ∧
          exec (.textFetch cid e g) s = .next (u.setCell ix { c with icache := insertAt c.icache (w.toNat / 32) bs, tlb := tlb }))
        ∧ ∀ code v, fetchGranule s ix w = .error (code, v) → exec (.textFetch cid e g) s = .next (takeFault s ix (engNo e) code w)))
    ∧ (∀ n : BitVec 3,
      let x := c.readS n.toNat
      (x.nextpg ≠ pagePending → exec (.pageAheadFill cid n) s = .next s)
      ∧ (x.nextpg = pagePending →
        let off := x.nextva.toNat
        (c.tlb.find? (·.covers off) = none → walk s (dieOfCell ix) off = none →
          exec (.pageAheadFill cid n) s = .next (s.setCell ix (c.writeS n.toNat { x with nextpg := 0 })))
        ∧ ∀ e, c.tlb.find? (·.covers off) = some e ∨ (c.tlb.find? (·.covers off) = none ∧ ∃ l, walk s (dieOfCell ix) off = some l ∧ e = tlbOf off l) →
          exec (.pageAheadFill cid n) s = .next (s.setCell ix ({ c with tlb := tlbUse c.tlb e }.writeS n.toNat
            { x with nextpg := pageWord e, nextva := BitVec.ofNat 64 e.page }))))
    ∧ (∀ (id : Nat) (o : MemOp), c.op? id = some o →
      (o.reissue = false ∨ c.status ≠ .running → exec (.reissueRefused cid id) s = .next s)
      ∧ (o.reissue = true → c.status = .running →
        (isLocal ix o.addr = true →
          (arrive s ix c o = .miss → c.fault = none →
            exec (.reissueRefused cid id) s = .next (holdFault s ix ⟨o.addr, c.A.pc, o.word, 0, [], none⟩ (offsetOf c 0)))
          ∧ ∀ e v, arrive s ix c o = .fault e v → exec (.reissueRefused cid id) s = .next (s.setCell ix (c.refuse o e v)))
        ∧ (∀ e v, isLocal ix o.addr = false → o.reply = some (.refused e v) → o.leg = .returned → onRing s (pkgOfCell ix) id = false →
            exec (.reissueRefused cid id) s = .next (s.setCell ix (c.refuse o e v)))))

/-- WRITE_SLIP, WRITE_AST, WRITE_VCTL, WRITE_QCAP and WRITE_CONTROL_REGISTER write the register of the cell they name where R84 accepts the value: SLIP 1 to 64; AST clears the bits written as 1 but those set in the same cycle; VCTL reseeds the generators; QMIN at most its QCAP with all minimums at most 8192; QCAP 1 to 8192 and at least its QMIN; the others as R84 bounds them; a queue keeps its entries. Any other value changes nothing. (R84, R25, R85, R128, R213) -/
def Obligations.ControlRegisterEvents : Prop :=
  ∀ (cid : CellId) (v : Word) (s : State),
    let ix := cellIx cid
    let c := s.cell ix
    let n := v.toNat
    let becomes (i : Instr) (ok : Prop) (c' : Cell) : Prop := (ok → exec i s = .next (s.setCell ix c')) ∧ (¬ ok → exec i s = .next s)
    let slip (i : Instr) : Prop := becomes i (1 ≤ n ∧ n ≤ 64) { c with slip := n }
    let ast (i : Instr) : Prop := becomes i (n < 4096)
      { c with ast := (c.ast &&& ~~~(v.setWidth 12)) ||| (if c.astAt = s.cycle then c.astSet else 0) }
    let vctl (i : Instr) : Prop := becomes i (n / 8 % 2 ^ 29 = 0 ∧ 1 ≤ n % 8 ∧ n % 8 ≤ 5) (c.reseed v)
    let qmin (i : Instr) (q : Nat) : Prop := becomes i (n ≤ c.qcapOf q ∧ sumQ (fun k => if k = q then n else c.qminOf k) ≤ 8192)
      { c with qmin := insertAt c.qmin q n }
    let qcap (i : Instr) (q : Nat) : Prop := becomes i (1 ≤ n ∧ n ≤ 8192 ∧ c.qminOf q ≤ n) { c with qcap := insertAt c.qcap q n }
    slip (.writeSlip cid v) ∧ ast (.writeAst cid v) ∧ vctl (.writeVctl cid v)
    ∧ slip (.writeControlRegister cid 0x01 v) ∧ ast (.writeControlRegister cid 0x08 v) ∧ vctl (.writeControlRegister cid 0x07 v)
    ∧ (∀ q : BitVec 8, q.toNat < 16 →
        qmin (.writeQcap cid (0x20 + q) v) q.toNat ∧ qmin (.writeControlRegister cid (0x20 + q) v) q.toNat
        ∧ qcap (.writeQcap cid (0x30 + q) v) q.toNat ∧ qcap (.writeControlRegister cid (0x30 + q) v) q.toNat)
    ∧ (∀ r : BitVec 8, r.toNat < 0x20 ∨ 0x40 ≤ r.toNat → exec (.writeQcap cid r v) s = .next s)
    ∧ becomes (.writeControlRegister cid 0x00 v) (n < 8) (c.setEngctl 0 (v.setWidth 3))
    ∧ becomes (.writeControlRegister cid 0x05 v) (n < 2048) { c with faultc := v.setWidth 11 }
    ∧ becomes (.writeControlRegister cid 0x06 v) True { c with faultv := v }
    ∧ becomes (.writeControlRegister cid 0x0A v) (n < 65536) { c with pgahead := v.setWidth 16 }
    ∧ becomes (.writeControlRegister cid 0x0B v) (n < 16) { c with fmtbase := v.setWidth 4 }
    ∧ becomes (.writeControlRegister cid 0x0C v) True { c with wdogLimit := n % 2 ^ 32 }
    ∧ (∀ r : BitVec 8, srReadOnly r = true → exec (.writeControlRegister cid r v) s = .next s)
    ∧ (∀ r : BitVec 8, 0x40 ≤ r.toNat → r.toNat ≤ 0x43 →
        exec (.writeControlRegister cid r v) s = .next (if 1024 ≤ n ∧ n < 2 ^ 32
          then (s.setCell ix c).modDie (dieOfCell ix) (fun d => { d with ages := insertAt d.ages (r.toNat - 0x40) n }) else s))

/-- RESULT_LANDING takes every landing of the cell that is due and leaves the others: first the due writes, in the order of their cycles and, within a cycle, of issue, then the row reads that are due, in the same order; of the die it changes only the AGE registers that due writes name. What one landing does: the lanes of a v-register or the bits of a mask; a predicate, or p15 left as it is, with the count of its writes raised (among the saved counts, where the word stood before a trap); the bytes of a queue entry, which is then complete; bits of AST; an a-register, pending no longer, with the AST bits that come with it; ENGCTL, SLIP, FAULTC, FAULTV, PGAHEAD, the watchdog limit, QMINn or QCAPn as an mtsr wrote it, where R84 accepts the value. No other cell and no memory changes. Landings of the B buffer are stated with the registers, those of tiles with the matrix words. LOOP_BACK_EDGE at the body end of the innermost loop goes back to the body start, counts the level and CSN and clears the watchdog count while the trip count is not used up and SLIP allows, and otherwise removes the loop with the pc and counter as they are. Where the rules leave a point open the statement takes the model's own choice: when a body end is judged (notes/assumptions/15.md), every engine's beat resets the watchdog count (notes/assumptions/19.md). (R179, R161, R139, R25, R380) -/
def Obligations.LandingsAndBackEdges : Prop :=
  (∀ (c : Cell) (l : Landing),
    let d := applyLanding l c
    (∀ r m xs, l.what = .vreg r m xs → { d with vregs := c.vregs } = c ∧ ∀ k i, i < 128 →
      laneOf (d.readV k) i = if k = r ∧ m.getLsbD i = true then laneOf xs i else laneOf (c.readV k) i)
    ∧ (∀ r m bits, l.what = .mreg r m bits → { d with mregs := c.mregs } = c ∧ ∀ k,
        d.readM k = if k = r ∧ r ≠ 0 then (bits &&& m) ||| (c.readM k &&& ~~~m) else c.readM k)
    ∧ (∀ p v, l.what = .pred p v → p ≠ 0 →
      { d with pregs := c.pregs, versions := c.versions, saved := c.saved } = c
      ∧ (∀ k, d.readP k = if k = p then v.getD (c.readP p) else c.readP k)
      ∧ (c.saved = none → d.saved = none ∧ ∀ y, d.version y = c.version y + (if y = p then 1 else 0))
      ∧ ∀ sv, c.saved = some sv →
        (sv.before ≤ l.seq → d.saved = c.saved ∧ ∀ y, d.version y = c.version y + (if y = p then 1 else 0))
        ∧ (l.seq < sv.before → d.versions = c.versions ∧ ∃ m, d.saved = some { sv with versions := m }
            ∧ ∀ y, lookup 0 m y = lookup 0 sv.versions y + (if y = p then 1 else 0)))
    ∧ (∀ q id bs, l.what = .push q id bs → { d with queues := c.queues } = c
        ∧ ∀ k, d.queue k = (c.queue k).map (fun e => if e.id = id then { e with bytes := bs, missing := [] } else e))
    ∧ (∀ b, l.what = .ast b → d.ast = c.ast ||| b ∧ { d with ast := c.ast, astSet := c.astSet, astAt := c.astAt } = c)
    ∧ (∀ r v b, l.what = .areg r v b →
        (∀ k, d.readA k = if k = r ∧ r ≠ 0 then v else c.readA k) ∧ d.pendA = c.pendA.erase r ∧ d.ast = c.ast ||| b
        ∧ { d with aregs := c.aregs, pendA := c.pendA, ast := c.ast, astSet := c.astSet, astAt := c.astAt } = c)
    ∧ (∀ r v n, l.what = .ctrl r v n → c.saved = none →
      let k := v.toNat
      let q := r % 16
      let sets (ok : Prop) (x : Cell) : Prop := (ok → d = x) ∧ (¬ ok → d = c)
      (r = 0x00 → sets (k < 8) (c.setEngctl n (v.setWidth 3)))
      ∧ (r = 0x01 → sets (1 ≤ k ∧ k ≤ 64) { c with slip := k })
      ∧ (r = 0x05 → sets (k < 2048) { c with faultc := v.setWidth 11 })
      ∧ (r = 0x06 → d = { c with faultv := v })
      ∧ (r = 0x0A → sets (k < 65536) { c with pgahead := v.setWidth 16 })
      ∧ (r = 0x0C → d = { c with wdogLimit := k % 2 ^ 32 })
      ∧ (0x20 ≤ r → r < 0x30 → sets (k ≤ c.qcapOf q ∧ sumQ (fun j => if j = q then k else c.qminOf j) ≤ 8192) { c with qmin := insertAt c.qmin q k })
      ∧ (0x30 ≤ r → r < 0x40 → sets (1 ≤ k ∧ k ≤ 8192 ∧ c.qminOf q ≤ k) { c with qcap := insertAt c.qcap q k })))
  ∧ (∀ (cid : CellId) (s : State),
    let ix := cellIx cid
    let c := s.cell ix
    let due (l : Landing) : Prop := l.due ≤ s.cycle
    let ordered (xs ys : List Landing) : Prop := xs.Pairwise (fun a b => a.due < b.due ∨ (a.due = b.due ∧ a.seq ≤ b.seq))
      ∧ ∀ n k, xs.filter (fun l => l.due == n && l.seq == k) = ys.filter (fun l => l.due == n && l.seq == k)
    (∃ t, exec (.resultLanding cid) s = .next t ∧ { t with cells := s.cells, dies := s.dies } = s ∧ (∀ j, j ≠ ix → t.cell j = s.cell j)
      ∧ (∀ d, d ≠ dieOfCell ix → t.die d = s.die d) ∧ { t.die (dieOfCell ix) with ages := (s.die (dieOfCell ix)).ages } = s.die (dieOfCell ix)
      ∧ (∃ writes reads : List Landing, ordered writes (c.landings.filter (fun l => decide (l.due ≤ s.cycle) && !isRowRead l.what))
        ∧ ordered reads (c.landings.filter (fun l => decide (l.due ≤ s.cycle) && isRowRead l.what))
        ∧ t.cell ix = reads.foldl (fun c l => applyRead l c) (writes.foldl (fun c l => applyLanding l c)
            { c with landings := c.landings.filter (fun l => decide (s.cycle < l.due)) }))
      ∧ ∀ q, q < 4 →
        let age (x : State) : Nat := lookup 1048576 (x.die (dieOfCell ix)).ages q
        let names (l : Landing) : Prop := due l ∧ ∃ v n, l.what = .ctrl (0x40 + q) v n
        ((∀ l ∈ c.landings, ¬ names l) → age t = age s)
        ∧ ∀ pre l post v n, c.landings = pre ++ l :: post → due l → l.what = .ctrl (0x40 + q) v n → (∀ x ∈ post, ¬ names x) → age t = v.toNat)
    ∧ (∀ (e : Engine),
      let g := c.engine e
      (g.loops = [] → exec (.loopBackEdge cid e) s = .next s)
      ∧ ∀ l ls, g.loops = l :: ls →
        (l.depth ≠ g.rets.length ∨ g.pc ≠ l.stop → exec (.loopBackEdge cid e) s = .next s)
        ∧ (l.depth = g.rets.length → g.pc = l.stop →
          let n := (lookup 0 g.lcnt l.level).toNat
          (l.trip ≤ n + 1 → exec (.loopBackEdge cid e) s = .next (s.setCell ix (c.setEngine e { g with loops := ls })))
          ∧ (n + 1 < l.trip → slipOk c e = false → exec (.loopBackEdge cid e) s = .next (s.setCell ix (c.setEngine e { g with wait := .internal })))
          ∧ (n + 1 < l.trip → slipOk c e = true → exec (.loopBackEdge cid e) s = .next (s.setCell ix { c.setEngine e { g with
              lcnt := insertAt g.lcnt l.level (BitVec.ofNat 16 (n + 1)), pc := l.start, csn := g.csn + 1
              nextIssue := s.cycle + 1, wait := .none } with wdogCount := 0, beat := true })))))

/-- WATCHDOG_FIRE of a running strand whose count has reached a limit other than 0 counts the event, writes a record of kind 1 with the count to the launching die and fails the task; SLIPDEAD after 64 cycles of internal waits is a stopping fault of the engine with the smallest CSN (A before V before M), with its pc; DIE_QUIESCENT of a die quiescent for as many cycles as the command cell's limit, not yet reported, writes one record of kind 5. None does anything where its condition does not hold. Where the rules leave a point open the statement takes the model's own choice: a fault without room for its record (notes/assumptions/28.md), occupancy is an external wait (notes/assumptions/36.md), quiescence of a die without strands (notes/assumptions/55.md). (R28, R200, R254, R255, R380) -/
def Obligations.WatchdogSlipAndQuiescence : Prop :=
  ∀ (cid : CellId) (d : DieId) (s : State),
    let ix := cellIx cid
    let c := s.cell ix
    let die := dieIx d
    let D := s.die die
    let limit := (s.cell (die * 144)).wdogLimit
    let fires : Prop := isCmd ix = false ∧ c.status = .running ∧ 0 < c.wdogLimit ∧ c.wdogLimit ≤ c.wdogCount
    let quiet : Prop := D.quietReported = false ∧ 0 < limit ∧ limit ≤ D.quiet ∧ dieQuiet s die = true
    (fires → exec (.watchdogFire cid) s = .next (failTask (appendRecord ((s.count (dieOfCell ix) 19).count (dieOfCell ix) 18) (recordDie s ix)
        (recordOf s ix 1 (faultWord 3 15 false) (BitVec.ofNat 64 c.wdogCount) 0)) c.handle))
    ∧ (¬ fires → exec (.watchdogFire cid) s = .next s)
    ∧ (c.internalFor < 64 → exec (.slipdead cid) s = .next s)
    ∧ (64 ≤ c.internalFor → ∃ e, exec (.slipdead cid) s = .next (takeFault (s.setCell ix { c with internalFor := 0 }) ix (engNo e) .slipdead (c.engine e).pc)
        ∧ ∀ f, (∀ g, 0 ≤ ((c.engine g).csn - (c.engine f).csn).toInt) → (∀ g, 0 ≤ ((c.engine g).csn - (c.engine e).csn).toInt) ∧ (engNo e).toNat ≤ (engNo f).toNat)
    ∧ (quiet → ∃ r : FaultRecord, r.cause = 0x5000 ∧ r.world = D.world ∧
        exec (.dieQuiescent d) s = .next (appendRecord (s.setDie die { D with quietReported := true }) die r))
    ∧ (¬ quiet → exec (.dieQuiescent d) s = .next s)

/-- DEFERRED_FAULT_TAKEN takes the first report of a running cell as a stopping fault of engine 0 and leaves the others; with no report, or where the cell does not run, it does nothing. FAULT_QUEUE_HEAD_WRITE of a die with a queue (one registered whose header lies in a region, notes/assumptions/68.md) stores the head byte and lets the records that wait enter in order. A record appended while there is room and none waits goes to the ring at once; otherwise it waits last. Where the rules leave a point open the statement takes the model's own choice: further deferred faults (notes/assumptions/26.md), corners of the fault queue, the ready pool and the slots (notes/assumptions/68.md). (R197, R255, R191, R199) -/
def Obligations.DeferredFaultsAndRecords : Prop :=
  (∀ (cid : CellId) (s : State),
    let ix := cellIx cid
    ((s.cell ix).reports = [] ∨ (s.cell ix).status ≠ .running → exec (.deferredFaultTaken cid) s = .next s)
    ∧ ∀ r rs, (s.cell ix).reports = r :: rs → (s.cell ix).status = .running →
      exec (.deferredFaultTaken cid) s = .next (takeFault (s.modCell ix (fun c => { c with reports := rs })) ix 0 r.code r.val))
  ∧ (∀ (d : DieId) (h : Word) (s : State),
    let die := dieIx d
    let b := (s.die die).fqbase
    (fqOpen s die = false → exec (.faultQueueHeadWrite d h) s = .next s)
    ∧ (fqOpen s die = true → exec (.faultQueueHeadWrite d h) s = .next (flushRecords (putRegion s (b + 8) [h.setWidth 8]) die 272)))
  ∧ (∀ (s : State) (die : Nat) (r : FaultRecord),
    let t := appendRecord s die r
    (fqRoom s die = true → (s.die die).faultWait = [] → t = fqStore s die r)
    ∧ (fqRoom s die = false ∨ (s.die die).faultWait ≠ [] → t = s.modDie die (fun d => { d with faultWait := d.faultWait ++ [r] })))

/-- A disposition event of a die with a fault queue and a slot below 256 stores its number in the record and acts on it: 1 resumes the strand that holds the XLATE of the record, or ends the hold of its stow; 2 makes the held XLATE a stopping fault; 3 lets a strand stowed by a fault be restored, once; 4 fails the task of a held or stowed strand. A slot with no record, a record of another kind, or a strand that is not so stopped is left as it was but for the stored number. Where the rules leave a point open the statement takes the model's own choice: what a held XLATE has done (notes/assumptions/23.md), what disposition 2 leaves (notes/assumptions/24.md), how a disposition finds its fault (notes/assumptions/25.md), corners of the fault queue, the ready pool and the slots (notes/assumptions/68.md). (R198, R255, R256) -/
def Obligations.DispositionsAct : Prop :=
  ∀ (d : DieId) (i : Nat) (s : State),
    let die := dieIx d
    let b := (s.die die).fqbase
    let stored (v : Nat) : State := putRegion s (b + BitVec.ofNat 64 (dispOff i)) (leBytes v 8)
    let events : List (Nat × Instr) := [(1, .dispositionResume d i), (2, .dispositionConvert d i), (3, .dispositionRestore d i), (4, .dispositionFail d i)]
    (fqOpen s die = false ∨ 256 ≤ i → ∀ e ∈ events, exec e.2 s = .next s)
    ∧ (fqOpen s die = true → i < 256 →
      (∀ e ∈ events, ∀ r, find? (s.die die).fqRecords i = none ∨ (find? (s.die die).fqRecords i = some r ∧ 4096 ≤ r.cause.toNat) →
        exec e.2 s = .next (stored e.1))
      ∧ ∀ r, find? (s.die die).fqRecords i = some r → r.cause.toNat < 4096 →
        let inCell (v : Nat) : Option Nat := strandCell (stored v) die r (fun _ c => c.holds r)
        let inSlot (v : Nat) : Option (Nat × Stowed) := stowedOf (stored v) die r (fun x => x.held && x.ctx.holds r)
        (∀ ix h, inCell 1 = some ix → ((stored 1).cell ix).fault = some h → exec (.dispositionResume d i) s = .next (resumeHeld (stored 1) ix h))
        ∧ (∀ ix h, inCell 2 = some ix → ((stored 2).cell ix).fault = some h →
            exec (.dispositionConvert d i) s = .next (convertHeld (stored 2) ix h .xlate h.addr))
        ∧ (∀ k x, inCell 1 = none → inSlot 1 = some (k, x) → ∃ t, exec (.dispositionResume d i) s = .next t
            ∧ (t.die k).stowed = ((stored 1).die k).stowed.map (fun y => if y.slot == x.slot then { y with held := false } else y))
        ∧ (inCell 1 = none → inSlot 1 = none → exec (.dispositionResume d i) s = .next (stored 1))
        ∧ (inCell 2 = none → inSlot 2 = none → exec (.dispositionConvert d i) s = .next (stored 2))
        ∧ (let stopped := stowedOf (stored 3) die r (fun x =>
              x.cause == .fault && x.done && samePoint x.strand r.strand && decide (x.ctx.stopped ≤ r.fault))
          (stopped = none → exec (.dispositionRestore d i) s = .next (stored 3))
          ∧ (∀ k x, stopped = some (k, x) →
              (((stored 3).die k).ready ++ ((stored 3).die k).restoring).any (fun e => e.restore.contains x.slot) = false →
              ∃ t, exec (.dispositionRestore d i) s = .next t ∧ { t with dies := s.dies } = { stored 3 with dies := s.dies }
                ∧ (t.die k).ready.any (fun e => e.restore == [x.slot] && e.handle == x.handle) = true))
        ∧ (let held := strandCell (stored 4) die r (fun ix c => (c.fault.isSome || c.status == .held) && samePoint (strandReg ix c) r.strand)
          let slot := stowedOf (stored 4) die r (fun x => samePoint x.strand r.strand)
          (held ≠ none ∨ slot ≠ none → exec (.dispositionFail d i) s = .next (failTask (stored 4) r.task))
          ∧ (held = none → slot = none → exec (.dispositionFail d i) s = .next (stored 4))))

/-- A common word whose shared registers are in order and whose step keeps within SLIP executes in the engine whose turn it is, counts in its CSN and moves its pc: nop by one parcel and nothing else; ptb writes the engine's copy of b with the text address it computes; beat clears the watchdog count; br goes to b where its predicate XOR negate is 1, leaving the loops it leaves, and passes otherwise; call pushes the next address, ret pops it; loop enters the body with the level's trip count or passes a body with trip 0; lbrk leaves the innermost loop for its end. A zero or outside target, a ninth call, a ret or lbrk with nothing to return from, and a loop that may not be entered or whose body ends inside a word raise ILLEGAL in the engine. Where the rules leave a point open the statement takes the model's own choice: when a body end is judged (notes/assumptions/15.md), a zero branch register (notes/assumptions/18.md), every engine's beat resets the watchdog count (notes/assumptions/19.md). (R54, R175, R176, R177, R178, R180, R181, R185, R24, R25) -/
def Obligations.CommonWordsMoveEachEngine : Prop :=
  ∀ (s : State),
    let e := s.eng
    let g := s.cur.engine e
    let passes (i : Instr) (u : State) : Prop := ∃ t, exec i s = .next t ∧ CommonPassed 4 u t
    let goes (i : Instr) (u : State) : Prop := ∃ t, exec i s = .next t ∧ CommonPassed 0 u t
    let illegal (i : Instr) : Prop := exec i s = .next (faultHere s e .illegal g.pc)
    let eng (f : EngineState → EngineState) : State := s.upd (fun c => c.modEngine e f)
    (CGo [] s →
      passes .nop s
      ∧ passes .beat (resetWdog s)
      ∧ (g.rets = [] → illegal .ret)
      ∧ (∀ a rs, g.rets = a :: rs → goes .ret (resetWdog (eng (fun g => { g with
          pc := a, rets := rs, loops := g.loops.dropWhile (fun l => decide (rs.length < l.depth)) }))))
      ∧ (g.loops = [] → illegal .lbrk)
      ∧ (∀ l ls, g.loops = l :: ls → goes .lbrk (eng (fun g => { g with pc := l.stop, loops := ls }))))
    ∧ (∀ (i : BitVec 21) (b : BitVec 3), CGo [shB b.toNat] s →
      let a := g.pc + i.signExtend 64 * 4
      (inText s.cur a = true → passes (.ptb i b) (s.upd (fun c => c.writeB e b.toNat a)))
      ∧ (inText s.cur a = false → illegal (.ptb i b)))
    ∧ (∀ (b : BitVec 3), CGo [shB b.toNat] s →
      let a := s.cur.readB e b.toNat
      (a ≠ 0 → g.rets.length < 8 → goes (.call b) (resetWdog (eng (fun g => { g with pc := a, rets := (g.pc + 4) :: g.rets }))))
      ∧ (a = 0 ∨ 8 ≤ g.rets.length → illegal (.call b)))
    ∧ (∀ (h n : BitVec 1) (p : BitVec 4) (b : BitVec 3), CGo [p.toNat, shB b.toNat] s →
      let a := s.cur.readB e b.toNat
      let taken : Bool := s.cur.readP p.toNat != (n == 1)
      (taken = false → passes (.br h n p b) s)
      ∧ (taken = true → a = 0 → illegal (.br h n p b))
      ∧ (taken = true → a ≠ 0 →
        goes (.br h n p b) (resetWdog (eng (fun g => { g with pc := a, loops := leaveLoops a g.rets.length g.loops })))))
    ∧ (∀ (l : BitVec 20) (v : BitVec 3), CGo [shTrip v.toNat] s →
      let start := g.pc + 4
      let stop := start + BitVec.ofNat 64 (4 * l.toNat)
      let trip := lookup 0 s.cur.trips v.toNat
      let ends := bodyEnds s s.me stop.toNat (l.toNat + 1) start.toNat
      (loopOk s.cur g v.toNat stop.toNat = false ∨ ends = false → illegal (.loop l v))
      ∧ (loopOk s.cur g v.toNat stop.toNat = true → ends = true →
        (trip = 0 → goes (.loop l v) (eng (fun g => { g with pc := stop, lcnt := insertAt g.lcnt v.toNat 0 })))
        ∧ (trip ≠ 0 → goes (.loop l v) (eng (fun g => { g with
            pc := start, lcnt := insertAt g.lcnt v.toNat 0, loops := ⟨start, stop, v.toNat, g.rets.length, trip⟩ :: g.loops })))))

/-- end parks the engine that reaches it and changes nothing else but IRET, when it is the last of the three. yield and halt park the engine within SLIP until the other two are there; then all three pass the word, and halt raises BRK with engine number 3 and the address of the word, while yield goes on, or begins a stow where a task of a higher class waits and a slot is free. Where the rules leave a point open the statement takes the model's own choice: when a restore entry appears (notes/assumptions/54.md). (R183, R186, R187, R24, R83) -/
def Obligations.EnginesMeetAtEndYieldAndHalt : Prop :=
  ∀ (s : State),
    let e := s.eng
    let others (p : Park) : Prop := ∀ f, f ≠ e → (s.cur.engine f).park = p
    let parked (p : Park) : State := s.upd (fun c => c.modEngine e (fun g => { g with park := p, wait := .internal }))
    let all (t : State) : State := passCommon .M true (passCommon .V true (passCommon .A true t))
    (∃ t, exec .endWord s = .next t ∧ (t.cur.engine e).park = .atEnd
      ∧ { t.cur.setEngine e (s.cur.engine e) with iret := s.cur.iret } = s.cur
      ∧ { t.cur.engine e with park := (s.cur.engine e).park, wait := (s.cur.engine e).wait } = s.cur.engine e
      ∧ (others .atEnd → t.cur.iret = s.cur.iret + 1) ∧ (¬ others .atEnd → t.cur.iret = s.cur.iret) ∧ Outside s t)
    ∧ (slipOk s.cur e = false → exec .yield s = .next (setWait s e .internal) ∧ exec .halt s = .next (setWait s e .internal))
    ∧ (slipOk s.cur e = true →
      (¬ others .yield → exec .yield s = .next (parked .yield))
      ∧ (others .yield → isCmd s.me = true ∨ higherWaits (all (parked .yield)) s.myDie s.cur.cls = false → exec .yield s = .next (all (parked .yield)))
      ∧ (others .yield → isCmd s.me = false → higherWaits (all (parked .yield)) s.myDie s.cur.cls = true →
          (∀ u, beginStow (all (parked .yield)) s.me .yield = some u → exec .yield s = .next u)
          ∧ (beginStow (all (parked .yield)) s.me .yield = none → exec .yield s = .next (all (parked .yield))))
      ∧ (¬ others .halt → exec .halt s = .next (parked .halt))
      ∧ (others .halt → exec .halt s = .next (takeFault (all (parked .halt)) s.me 3 .brk (s.cur.engine e).pc)))
    ∧ (∀ (p : Park) (f : Engine), others p →
        ((all (parked p)).cur.engine f).pc = (s.cur.engine f).pc + 4 ∧ ((all (parked p)).cur.engine f).csn = (s.cur.engine f).csn + 1
        ∧ ((all (parked p)).cur.engine f).park = .none)

/-- A record counts arrivals until they are as many as it expects; then its phase grows by one modulo 2^32 and it counts anew, without the strands that withdrew. bar.arrive passes each engine and leaves A's register pending; BARRIER_ARRIVAL, once all engines have passed it and its release is done, counts it and delivers the phase modulo 256 as the token; a write of a severed home that the release discards stops the strand with SEVERED where ENGCTL.sevtrap was 1 when A passed the word. A bar.wait begins in A, waits while its token is the current phase and then writes the distance and p15 and passes each engine, A last, whose wait for the others is internal; bar.sync arrives and waits in one word. Where the rules leave a point open the statement takes the model's own choice: how program order is kept (notes/assumptions/42.md), how ring words meet their record (notes/assumptions/47.md). (R184, R370, R371, R372, R374) -/
def Obligations.BarriersCountArrivals : Prop :=
  (∀ (b : Barrier) (p : Nat), b.expected ≠ 0 →
    (b.counted.length + 1 = b.expected → b.arrive p = ⟨(b.phase + 1) % 2 ^ 32, b.expected - b.withdrawn.length, [], []⟩)
    ∧ (b.counted.length + 1 ≠ b.expected → b.arrive p = { b with counted := p :: b.counted }))
  ∧ (∀ (a : BitVec 5) (n : BitVec 7) (s : State), CGo [] s →
    let e := s.eng
    let stays (i : Instr) : Prop := exec i s = .next (setWait s e .external)
    (regPending s e a = true ∨ arrivalOpen s n.toNat = true → stays (.barArrive a n))
    ∧ (regPending s e a = false → arrivalOpen s n.toNat = false →
        (∃ t, exec (.barArrive a n) s = .next t ∧ CommonPassed 4 (passArrival s e n.toNat a.toNat false) t)
        ∧ ((s.cur.engine e).inBar ≠ some n.toNat → exec (.barSync a n) s = .next (setWait ((passArrival s e n.toNat a.toNat true).upd
            (fun c => c.modEngine e (fun g => { g with inBar := some n.toNat }))) e .external)))
    ∧ (s.cur.barWait = none → e = .A → regPending s e a = false → s.cur.mayRead .A 15 = true →
        exec (.barWait a n) s = .next (setWait (startWait s n.toNat (s.cur.readA a.toNat).toNat false) e .external))
    ∧ (∀ w d, s.cur.barWait = some w → waitDone s w = some d → e = .A → s.cur.mayWrite .A 15 = true → s.cur.expects .A 15 = s.cur.expects e 15 →
        let done (i : Instr) (d : Nat) : Prop := ∃ t, exec i s = .next t ∧ (d < 2 ^ 64 → a ≠ 0 → t.cur.readA a.toNat = BitVec.ofNat 64 d)
            ∧ t.cur.readP 15 = decide (2 ≤ d) ∧ t.cur.barWait = none ∧ t.cur.A.pc = s.cur.A.pc + 4 ∧ t.cur.A.csn = s.cur.A.csn + 1
        done (.barWait a n) d ∧ ((s.cur.engine e).inBar = some n.toNat → w.sync = true → done (.barSync a n) 1))
    ∧ (∀ w d, s.cur.barWait = some w → waitDone s w = some d → e ≠ .A → s.cur.expects e 15 = s.cur.expects .A 15 →
        let passed := s.upd (fun c => (c.modEngine e (fun g => { g with inBar := none })).bump e 15)
        (∃ t, exec (.barWait a n) s = .next t ∧ CommonPassed 4 passed t)
        ∧ ((s.cur.engine e).inBar = some n.toNat → w.sync = true → ∃ t, exec (.barSync a n) s = .next t ∧ CommonPassed 4 passed t))
    ∧ (∀ w d, s.cur.barWait = some w → waitDone s w = some d → e = .A → s.cur.mayWrite .A 15 = false →
        exec (.barWait a n) s = .next (setWait s .A .internal))
    ∧ (∀ t, s.cur.tokenRegs ++ [t] = (passArrival s .A n.toNat a.toNat false).cur.tokenRegs → t.name = n.toNat ∧ t.reg = a.toNat ∧ t.mark = s.nextId
        ∧ t.sync = false ∧ t.sev = s.cur.engctl.getLsbD 1)
    ∧ (∀ w, s.cur.barWait = some w → waitDone s w = none → stays (.barWait a n)))
  ∧ (∀ (cid : CellId) (n : BitVec 7) (s : State) (t : TokenReg),
    let ix := cellIx cid
    let c := s.cell ix
    let b := barrierOf s ix c n.toNat
    (c.tokenRegs.find? (fun t => t.name == n.toNat) = none → exec (.barrierArrival cid n) s = .next s)
    ∧ (c.tokenRegs.find? (fun t => t.name == n.toNat) = some t →
      (allPassed c n.toNat ≤ lookup 0 c.arrived n.toNat ∨ b.counted.contains (partOf c) = true ∨ c.status = .idle →
        exec (.barrierArrival cid n) s = .next s)
      ∧ (lookup 0 c.arrived n.toNat < allPassed c n.toNat → b.counted.contains (partOf c) = false → c.status ≠ .idle →
        (releaseUnder t.sev s ix (barScope n.toNat) (fun o => decide (o.id < t.mark)) = .wait → exec (.barrierArrival cid n) s = .next s)
        ∧ (∀ u v, releaseUnder t.sev s ix (barScope n.toNat) (fun o => decide (o.id < t.mark)) = .severed u v →
            exec (.barrierArrival cid n) s = .next (takeFault u ix 0 .severed v))
        ∧ ∀ u, releaseUnder t.sev s ix (barScope n.toNat) (fun o => decide (o.id < t.mark)) = .done u →
          let v := u.modCell ix (fun c => c.takeToken t b.phase)
          let r := barrierOf v ix c n.toNat
          exec (.barrierArrival cid n) s = .next (settleBarrier v ix c n.toNat r (r.arrive (partOf c))))))

/-- A ring word that may issue, with an aligned descriptor address, acts on the ring's record as the Cleat finds it: rclaim claims the slots asked for where no producer waits and they are free, and writes the claim position or 2^63; rwaite and rwaitf complete with their grant, or join the producers or consumers once and wait idle; rpubl and rfree, after the release at the ring's scope, publish or free slots and serve those that wait; rpeek reads the free and ready counts. A refused descriptor or count is a deferred PERM, a misaligned address ALIGN. RING_RECORD_EVICT of a full sync store removes the least recently used record that may leave. Where the rules leave a point open the statement takes the model's own choice: the number of ring records (notes/assumptions/11.md), how ring words meet their record (notes/assumptions/47.md). (R376, R377, R378, R379, R315) -/
def Obligations.RingWordsActOnTheRecord : Prop :=
  ∀ (p : BitVec 4) (t s d : BitVec 5) (st : State),
    let w := st.cur.readA s.toNat
    let denied (i : Instr) (x : State) : Prop := Issues i st (x.upd (fun c => { c with reports := c.reports ++ [(⟨.perm, w⟩ : Report)] }))
    let grantDone (i : Instr) (x : State) (r : Ring) (g : Grant) : Prop :=
      Issues i st (putA ((acquireRing x w r).upd (fun c => { c with granted := none, ringAt := none })) d.toNat g.val)
    (AGo { pg := p, aregs := [s.toNat, t.toNat, d.toNat], access := true } st →
      (w.toNat % 64 ≠ 0 ∨ addrOk w = false → Traps (.rclaim p t s d) st .align w ∧ Traps (.rwaite p t s d) st .align w
        ∧ Traps (.rwaitf p t s d) st .align w ∧ Traps (.rpubl p t s d) st .align w ∧ Traps (.rfree p t s d) st .align w)
      ∧ (w.toNat % 64 = 0 → addrOk w = true →
        (ringAt st w = .refused → denied (.rclaim p t s d) st ∧ denied (.rwaite p t s d) st ∧ denied (.rwaitf p t s d) st
          ∧ denied (.rpubl p t s d) st ∧ denied (.rfree p t s d) st)
        ∧ (ringAt st w = .full → exec (.rclaim p t s d) st = .next (setWait st .A .external))
        ∧ ∀ r x, ringAt st w = .ok r x →
          let n := x.cur.readA t.toNat
          let first := x.cur.readA d.toNat
          (countOk r n = false → denied (.rclaim p t s d) x)
          ∧ (countOk r n = true → r.producers = [] → n.toNat ≤ r.free →
              Issues (.rclaim p t s d) st (putA (putRing x w (r.claimSlots x.me n.toNat)) d.toNat (r.pclaim.setWidth 64)))
          ∧ (countOk r n = true → r.producers ≠ [] ∨ r.free < n.toNat →
              Issues (.rclaim p t s d) st (putA (putRing x w r) d.toNat (BitVec.ofNat 64 (2 ^ 63))))
          ∧ (∀ g, x.cur.granted = some g → grantDone (.rwaite p t s d) (putRing x w r) r g ∧ grantDone (.rwaitf p t s d) (putRing x w r) r g)
          ∧ (x.cur.granted = none → x.cur.ringAt.isSome = true →
              exec (.rwaite p t s d) st = .next (setWait x .A .idle) ∧ exec (.rwaitf p t s d) st = .next (setWait x .A .idle))
          ∧ (x.cur.granted = none → x.cur.ringAt = none → countOk r n = true →
              let joins (i : Instr) (q : Ring) : Prop :=
                let u := settleRing (x.upd (fun c => { c with ringAt := some w.toNat })) w q
                (u.cur.granted = none → exec i st = .next (setWait u .A .idle)) ∧ ∀ g, u.cur.granted = some g → grantDone i u r g
              joins (.rwaite p t s d) { r with producers := r.producers ++ [⟨x.me, d.toNat, n.toNat⟩] }
              ∧ joins (.rwaitf p t s d) { r with consumers := r.consumers ++ [⟨x.me, d.toNat, n.toNat⟩] })
          ∧ (let gives (i : Instr) (prod : Bool) (q : Ring) : Prop :=
              (r.refuses prod first n.toNat = true → denied i x)
              ∧ (r.refuses prod first n.toNat = false →
                (releaseOf x x.me r.scope (fun _ => true) = .wait → exec i st = .next (setWait x .A .external))
                ∧ ∀ u, releaseOf x x.me r.scope (fun _ => true) = .done u →
                  Issues i st (settleRing (wakeClaims (raiseRing u w) r.claims) w q))
            gives (.rpubl p t s d) true (r.publish (first.extractLsb' 0 32) n.toNat)
            ∧ gives (.rfree p t s d) false (r.release (first.extractLsb' 0 32) n.toNat))))
    ∧ (AGo { pg := p, aregs := [s.toNat, d.toNat], access := true } st → w.toNat % 64 = 0 → addrOk w = true → ∀ r x, ringAt st w = .ok r x →
        Issues (.rpeek p s d) st (putA (putRing x w r) d.toNat (BitVec.ofNat 64 (r.free * 2 ^ 32 + r.ready))))
    ∧ (∀ (die : DieId) (ix k : Nat) (r : Ring) (rest : List (Nat × Ring)), (st.die (dieIx die)).rings.drop ix = (k, r) :: rest →
        let full : Prop := ringCapacity ≤ (st.die (dieIx die)).rings.length
        (full → lruRing (st.die (dieIx die)).rings = some k → exec (.ringRecordEvict die ix) st = .next (evictRing st (dieIx die) k))
        ∧ (¬ full ∨ lruRing (st.die (dieIx die)).rings ≠ some k → exec (.ringRecordEvict die ix) st = .next st))

/-- fence.rel issues once every operation in flight is performed at its scope; fence.acq once no earlier read or atomic is in flight, and at scope 4 or above lifts the package's time to the latest response seen; fence.sc does both, and at scope 4 or above lifts the package's time past those of the sc fences before it. While an operation they wait for is in flight the A engine waits. Writes whose home is severed are discarded with AST.sev set, or raise SEVERED where ENGCTL.sevtrap is 1. Where the rules leave a point open the statement takes the model's own choice: free values (notes/assumptions/7.md), absent nodes (notes/assumptions/49.md). (R310, R311, R312, R316, R319) -/
def Obligations.FencesWaitForAccesses : Prop :=
  ∀ (p : BitVec 4) (c : BitVec 3) (s : State), AGo { pg := p } s →
    let holds (o : MemOp) (scope : Nat) : Prop := isDead s o = false ∧ performedAt s.me scope o = false
    let lifted : State := if 4 ≤ c.toNat
      then s.modPkg s.myPkg (fun k => { k with pts := min (2 ^ 48 - 1) (max k.pts s.cur.seen) }) else s
    let waits (i : Instr) : Prop := exec i s = .next (setWait s .A .external)
    let dead := s.cur.ops.filter (fun o => isDead s o)
    let gone : State := dropDead (s.modCell s.me (fun k => k.discardAll s.cycle dead)) dead
    let ordered : State := let k := liftPts lifted s.myPkg s.scTime
      if 4 ≤ c.toNat then { k with scTime := (k.pkg s.myPkg).pts } else s
    ((∃ o ∈ s.cur.ops, holds o c.toNat) → waits (.fenceRel p c) ∧ waits (.fenceSc p c))
    ∧ ((∃ o ∈ s.cur.ops, isWrite s o = false ∧ holds o 0) → waits (.fenceAcq p c))
    ∧ ((∀ o ∈ s.cur.ops, isDead s o = false ∧ performedAt s.me c.toNat o = true) → Issues (.fenceRel p c) s s)
    ∧ ((∀ o ∈ s.cur.ops, isWrite s o = true) → Issues (.fenceAcq p c) s lifted)
    ∧ (s.cur.ops = [] → Issues (.fenceSc p c) s ordered)
    ∧ (∀ o ds, dead = o :: ds → (∀ x ∈ s.cur.ops, ¬ holds x c.toNat) →
        gone.cur.ast = s.cur.ast ||| astSev ∧ (∀ x ∈ dead, gone.cur.op? x.id = none)
        ∧ (s.cur.engctl.getLsbD 1 = false → Issues (.fenceRel p c) s gone)
        ∧ (s.cur.engctl.getLsbD 1 = true → exec (.fenceRel p c) s = .next (takeFault gone s.me 0 .severed (deadPackage s o))))

/-- A pool atomic, object word or lease word that may issue issues: one request with the operation of R290, R291 or R296, the whole capability, the die's world, the offset within the capability and within the object, and the package's time joins the requests, one operation joins those in flight, and the register it will write is pending; ppush, pgive and wlrel first make a release at domain scope, and ppop, ptake and wlacq hold back later accesses until their response. pld reserves an entry and sends a read for each page it touches; pst, once no read of its bytes is unanswered, pops its entry and sends a write for each page it touches. kinf answers selectors 0 to 8 itself, and asks the home for 16 to 23. A zero capability raises CAPFAIL at issue, a misaligned offset ALIGN; memory and other cells are unchanged. Where the rules leave a point open the statement takes the model's own choice: the home and heat of an object (notes/assumptions/9.md), CAPFAIL before ALIGN (notes/assumptions/41.md), how program order is kept (notes/assumptions/42.md). (R287, R288, R289, R290, R291, R296, R111, R81, R315) -/
def Obligations.PoolWordsSendTheirRequests : Prop :=
  ∀ (p k q : BitVec 4) (z1 c1 : BitVec 1) (z : BitVec 3) (s d : BitVec 5) (st : State),
    let cap := st.cur.readK k.toNat
    let a := st.cur.readA d.toNat
    let o := st.cur.readA s.toNat
    let asked (x : State) (op : PoolOp) (off : Nat) (r : PoolReq) : Prop :=
      r.cell = st.me ∧ r.op = op ∧ r.cap = cap ∧ r.inOff = off ∧ r.off = (if capWlen cap = 0 then off else capWstart cap * 4096 + off)
      ∧ r.world = (st.die st.myDie).world ∧ r.node = nodeOf st (capOid cap).toNat ∧ r.pts = (x.pkg st.myPkg).pts ∧ r.answer = .none
    let sends (i : Instr) (x : State) (op : PoolOp) (off : Nat) (hold : Bool) (mark : Cell → Cell) : Prop :=
      ∃ u r, Issues i st u ∧ u.reqs = x.reqs ++ [r] ∧ asked x op off r ∧ u.mem = x.mem ∧ (∀ j, j ≠ st.me → u.cell j = x.cell j)
        ∧ u.cur = mark { x.cur with
            ops := x.cur.ops ++ [⟨r.id, r.id - 1, .pool, BitVec.allOnes 64, 0, r.pts, none, false, false, .none, 0, 0, none, .out, none, false⟩]
            acquire := if hold then r.id :: x.cur.acquire else x.cur.acquire }
    let pends (c : Cell) : Cell := c.pend d.toNat
    let released (f : State → Prop) : Prop := ∀ x, releaseOf st st.me 4 (fun _ => true) = .done x → f x
    let capfail (i : Instr) : Prop := cap = 0 → Traps i st .capfail 0
    (AGo { pg := p, aregs := [s.toNat, d.toNat], kregs := [k.toNat], access := true } st →
      let n := if z1 = 1 then 8 else 4
      let pat (i : Instr) (op : RmwOp) (n : Nat) : Prop := capfail i ∧ (cap ≠ 0 → o.toNat % n ≠ 0 → Traps i st .align o)
        ∧ (cap ≠ 0 → o.toNat % n = 0 → sends i st (.rmw op n a 0 d) o.toNat false pends)
      pat (.patAdd p c1 z1 d s k) .add n ∧ pat (.patAnd p c1 z1 d s k) .and n ∧ pat (.patOr p c1 z1 d s k) .or n
      ∧ pat (.patXor p c1 z1 d s k) .xor n ∧ pat (.patMin p c1 z1 d s k) .min n ∧ pat (.patMax p c1 z1 d s k) .max n
      ∧ pat (.patMinn p c1 z1 d s k) .minn n ∧ pat (.patMaxn p c1 z1 d s k) .maxn n ∧ pat (.patSwap p c1 z1 d s k) .swap n
      ∧ pat (.patFadd p c1 d s k) .fadd 4)
    ∧ (AGo { pg := p, aregs := [s.toNat, d.toNat, d.toNat + 1], kregs := [k.toNat], access := true } st →
      let n := if z1 = 1 then 8 else 4
      capfail (.patCas p c1 z1 d s k) ∧ (cap ≠ 0 → o.toNat % n ≠ 0 → Traps (.patCas p c1 z1 d s k) st .align o)
      ∧ (cap ≠ 0 → o.toNat % n = 0 → sends (.patCas p c1 z1 d s k) st (.rmw .cas n (st.cur.readA (d.toNat + 1)) a d) o.toNat false pends))
    ∧ (AGo { pg := p, aregs := [d.toNat], kregs := [k.toNat], access := true } st →
      capfail (.ppush p d k) ∧ capfail (.pgive p d k) ∧ capfail (.ptake p d k) ∧ capfail (.wlacq p d k)
      ∧ (cap ≠ 0 → sends (.ptake p d k) st (.take a 0 d) 0 true pends ∧ sends (.wlacq p d k) st (.acquire d) 0 true pends
        ∧ released (fun x => sends (.ppush p d k) x (.push (x.cur.readA d.toNat)) 0 false id
          ∧ sends (.pgive p d k) x (.give (x.cur.readA d.toNat)) 0 false id)))
    ∧ (AGo { pg := p, dest := 15, aregs := [d.toNat], kregs := [k.toNat], access := true } st → capfail (.ppop p d k)
      ∧ (cap ≠ 0 → sends (.ppop p d k) st (.pop d) 0 true (fun c => { c.pend d.toNat with pendP15 := true })))
    ∧ (AGo { pg := p, aregs := [s.toNat], kregs := [k.toNat], access := true } st →
      capfail (.wlrenew p s k) ∧ capfail (.wlrel p s k) ∧ capfail (.pld p z q s k) ∧ capfail (.pst p z q s k)
      ∧ (cap ≠ 0 → sends (.wlrenew p s k) st (.renew o) 0 false id
        ∧ released (fun x => sends (.wlrel p s k) x (.release (x.cur.readA s.toNat)) 0 false id)
        ∧ (let n := 32 * 2 ^ z.toNat
          (o.toNat % 32 ≠ 0 → Traps (.pld p z q s k) st .align o ∧ Traps (.pst p z q s k) st .align o)
          ∧ (o.toNat % 32 = 0 → blocksOf n ≤ st.cur.qcapOf q.toNat → st.cur.canDraw q.toNat (blocksOf n) = true →
            let parts := pageParts o.toNat n
            ∃ u rs, Issues (.pld p z q s k) st u ∧ u.reqs = st.reqs ++ rs ∧ rs.length = parts.length ∧ u.mem = st.mem
              ∧ (∀ j (h : j < rs.length) (g : j < parts.length),
                  asked st (.read st.nextId (parts[j].1 / 32) (parts[j].2 / 32) []) (o.toNat + parts[j].1) rs[j])
              ∧ u.cur.queues = (st.cur.reserve q.toNat (loadEntry st.cur st.nextId n (List.range (n / 32)))).queues)
          ∧ (∀ e, o.toNat % 32 = 0 → st.cur.headAt q.toNat 0 = .ok e →
            (e.size ≠ n → Traps (.pst p z q s k) st .qsize st.cur.A.pc)
            ∧ (e.size = n →
              let bs := fitBytes n (st.cur.entryBytes e)
              let off := if capWlen cap = 0 then o.toNat else capWstart cap * 4096 + o.toNat
              let parts := pageParts off n
              (readsPending st (capOid cap).toNat off n = true → exec (.pst p z q s k) st = .next (setWait st .A .external))
              ∧ (readsPending st (capOid cap).toNat off n = false →
              ∃ u rs, Issues (.pst p z q s k) st u ∧ u.reqs = st.reqs ++ rs ∧ rs.length = parts.length ∧ u.mem = st.mem
                ∧ (∀ j (h : j < rs.length) (g : j < parts.length),
                    asked st (.write ((bs.drop parts[j].1).take parts[j].2)) (o.toNat + parts[j].1) rs[j])
                ∧ u.cur.queues = (st.cur.popHead q.toNat).queues))))))
    ∧ (AGo { pg := p, aregs := [d.toNat, s.toNat], kregs := [k.toNat], access := true } st →
      let sel := o.toNat
      capfail (.wlchk p d s k) ∧ (cap ≠ 0 → sends (.wlchk p d s k) st (.check o d) 0 false pends)
      ∧ (sel < 16 ∨ 24 ≤ sel → WritesA (.kinf p d s k) st d (kinfLocal st cap sel))
      ∧ (16 ≤ sel → sel < 24 → capfail (.kinf p d s k)
        ∧ (cap ≠ 0 → st.cur.joined = none → ∃ u r, exec (.kinf p d s k) st = .next u ∧ u.reqs = st.reqs ++ [r] ∧ asked st (.field sel d) 0 r
            ∧ u.cur.joined = some r.id ∧ u.cur.A.pc = st.cur.A.pc)
        ∧ (cap ≠ 0 → ∀ id r v e t w, st.cur.joined = some id → req? st id = some r → hasReturned st r = true → r.answer = .ok v e t w →
            ∃ u, Issues (.kinf p d s k) st u ∧ (d ≠ 0 → u.cur.readA d.toNat = v) ∧ u.cur.joined = none ∧ req? u id = none)))

/-- POOL_REQUEST of a request at its package's bridge station lets it leave under the port's version. One that has come to its node with the version in force there is answered: CAPFAIL for a quarantined world or where object, world, MAC, heat, right or kind do not match (counted against the world), PERM outside the window or the object, LEASELOST for an unguarded write to a guarded object, otherwise the operation's effect on the object. A bag or stack pops its last element, a fifo its first, tokens are added and taken up to the count; a lease runs 1024 cycles for each tick of its duration from the grant or renewal on. A second event for an answered request, one not at the node, and one of another node change nothing. LEASE_EXPIRY removes the holder of a lease whose time has come. Where the rules leave a point open the statement takes the model's own choice: the home and heat of an object (notes/assumptions/9.md), FAULTV of a refused pool access (notes/assumptions/44.md), lease holder and clock (notes/assumptions/45.md), the ticks of wlchk (notes/assumptions/69.md). (R281, R282, R283, R291, R296, R337) -/
def Obligations.NodesServeRequests : Prop :=
  (∀ (n : NodeId) (id : Nat) (s : State),
    (∀ r, req? s id = none ∨ (req? s id = some r ∧ (r.node ≠ n.val ∨ r.answer ≠ .none ∨ r.discarded = true ∨ (r.stage ≠ .atBridge ∧ r.stage ≠ .atNode)))
      → exec (.poolRequest n id) s = .next s)
    ∧ (∀ r, req? s id = some r → r.node = n.val → r.answer = .none → r.stage = .atBridge → r.discarded = false →
      (onRing s (pkgOfCell r.cell) id = true → exec (.poolRequest n id) s = .next s)
      ∧ (onRing s (pkgOfCell r.cell) id = false → nodePresent s (pkgOfCell r.cell) n.val = true →
        (mustFollow s r = true ∨ mayIssue s r = false → exec (.poolRequest n id) s = .next s)
        ∧ (mustFollow s r = false → mayIssue s r = true → exec (.poolRequest n id) s = .next (leavePort s r .atNode))))
    ∧ ∀ r, req? s id = some r → r.node = n.val → r.answer = .none → r.stage = .atNode → r.discarded = false →
      nodeOpen s (pkgOfCell r.cell) n.val = true → mustFollow s r = false →
      (r.version ≠ (s.node n.val).version → exec (.poolRequest n id) s = .next s)
      ∧ (r.version = (s.node n.val).version → ∃ t, exec (.poolRequest n id) s = .next t ∧ t.mem = s.mem ∧ t.cells = s.cells
        ∧ ∃ q, req? t id = some q ∧ q.stage = .answered ∧
          (let fails (c : FaultCode) : Prop := q.answer = .refused c ∧ (∀ i, objOf t n.val i = objOf s n.val i)
          (quarantined s n.val r.world = true ∨ capChecks s n.val r = none → fails .capfail)
          ∧ (quarantined s n.val r.world = false → ∀ o, capChecks s n.val r = some o →
            (boundsOk r o = false → fails .perm)
            ∧ (boundsOk r o = true → (o.guarded && r.op.guardedWrite) = true → fails .leaselost)
            ∧ (boundsOk r o = true → (o.guarded && r.op.guardedWrite) = false → r.op.isFill = false →
              (∀ e, objEffect (leaseNow s) r o = .error e → fails e)
              ∧ (∀ v b w x, objEffect (leaseNow s) r o = .ok (v, b, w, x) → objOf t n.val r.oid = some x
                  ∧ (∀ i, i ≠ r.oid → objOf t n.val i = objOf s n.val i) ∧ ∃ l, q.answer = .ok v b l w))
            ∧ (boundsOk r o = true → (o.guarded && r.op.guardedWrite) = false → r.op.isFill = true →
              ∃ l : Nat → Nat, q.answer = .data ((askedSectors r).map (fun x => (Memory.read o.bytes (x * 32) 32, lookup 0 o.wts x, l x))) (s.node n.val).hmax
                ∧ ∀ x, r.pts + 1024 ≤ l x ∧ lookup 0 o.rts x ≤ l x)))))
  ∧ (∀ (now : Nat) (r : PoolReq) (o : PoolObj),
    (∀ v, r.op = .push v → o.elems.length < o.capacity → ∃ w x, objEffect now r o = .ok (0, false, w, x) ∧ x.elems = o.elems ++ [lowBytes v o.esize])
    ∧ (∀ v, r.op = .push v → o.capacity ≤ o.elems.length → objEffect now r o = .error .perm)
    ∧ (∀ d, r.op = .pop d → o.elems = [] → ∃ w x, objEffect now r o = .ok (0, true, w, x) ∧ x.elems = [])
    ∧ (∀ d v vs, r.op = .pop d → o.kind = 3 → o.elems = v :: vs → ∃ w x, objEffect now r o = .ok (v, false, w, x) ∧ x.elems = vs)
    ∧ (∀ d v vs, r.op = .pop d → o.kind ≠ 3 → o.elems = vs ++ [v] → ∃ w x, objEffect now r o = .ok (v, false, w, x) ∧ x.elems = vs)
    ∧ (∀ v, r.op = .give v → o.count + v.toNat < 2 ^ 64 → ∃ w x, objEffect now r o = .ok (0, false, w, x) ∧ x.count = o.count + v.toNat)
    ∧ (∀ v d, r.op = .take v 0 d → ∃ w x, objEffect now r o = .ok (BitVec.ofNat 64 (min v.toNat o.count), false, w, x)
        ∧ x.count = o.count - min v.toNat o.count)
    ∧ (∀ d, r.op = .acquire d → o.leased now = false → objEffect now r o = .ok (o.token + 1, false, r.pts,
        { o with token := o.token + 1, holder := some r.cell, expiry := now + 1024 * o.duration }))
    ∧ (∀ d, r.op = .acquire d → o.leased now = true → objEffect now r o = .ok (0, false, r.pts, o))
    ∧ (∀ t, r.op = .renew t ∨ r.op = .release t → (t < o.token → objEffect now r o = .error .leaselost)
        ∧ (o.token < t → objEffect now r o = .error .perm))
    ∧ (r.op = .renew o.token → objEffect now r o = .ok (0, false, r.pts, { o with holder := some r.cell, expiry := now + 1024 * o.duration }))
    ∧ (r.op = .release o.token → objEffect now r o = .ok (0, false, r.pts, { o with expiry := now })))
  ∧ (∀ (n : NodeId) (oid : BitVec 32) (s : State),
    (∀ o, objOf s n.val oid.toNat = some o → o.holder.isSome = true → o.expiry ≤ leaseNow s → ∃ t, exec (.leaseExpiry n oid) s = .next t
      ∧ objOf t n.val oid.toNat = some { o with holder := none } ∧ (∀ i, i ≠ oid.toNat → objOf t n.val i = objOf s n.val i) ∧ { t with nodes := s.nodes } = s)
    ∧ (∀ o, objOf s n.val oid.toNat = none ∨ (objOf s n.val oid.toNat = some o ∧ (o.holder = none ∨ leaseNow s < o.expiry)) →
        exec (.leaseExpiry n oid) s = .next s))

/-- RMW_RESPONSE of a request that its home has answered brings the answer to the package, whose time it lifts; once it has come over the ring the register holds the value (and p15 whether a ppop found nothing) and is pending no longer, or the refusal is reported, and the request ends. RENEWAL_RESPONSE puts the sectors into the package's cache with their leases and the answer on its way; BLOCK_FILL fills the blocks of the entry. POOL_WRITE_ACK settles the sectors of a write and then ends it. VETO_RELEASE lets the response be received by the package and frees the home, and ends a request whose strand has ended. PTS_TICK moves the package's time on by 1, up to 2^48 - 1. An event for a request that is not so far, or not of that package, changes nothing. Where the rules leave a point open the statement takes the model's own choice: FAULTV of a refused pool access (notes/assumptions/44.md), hmax per home (notes/assumptions/46.md), what the caches keep (notes/assumptions/61.md). (R277, R278, R279, R288, R290, R291, R315, R327, R336) -/
def Obligations.PoolResponsesReachTheStrand : Prop :=
  (∀ (cid : CellId) (id : Nat) (s : State) (o : MemOp) (r : PoolReq),
    let ix := cellIx cid
    let p := pkgOfCell r.cell
    let homeward : Prop := canReturn s r = true ∧ r.veto = false ∧ r.op.isFill = false
    (s.cell ix).op? id = some o → o.kind = .pool → req? s id = some r →
    (¬ homeward → hasReturned s r = false ∨ answersRmw r = false → exec (.rmwResponse cid id) s = .next s)
    ∧ (homeward → ∃ t, exec (.rmwResponse cid id) s = .next t ∧ t.mem = s.mem ∧ t.cells = s.cells ∧ req? t id = some { r with stage := .returning }
      ∧ (t.pkg p).pts = min (2 ^ 48 - 1) (max (s.pkg p).pts (answerTime r)))
    ∧ (hasReturned s r = true → answersRmw r = true → ∃ t, exec (.rmwResponse cid id) s = .next t ∧ t.mem = s.mem ∧ (t.cell ix).op? id = none
      ∧ req? t id = none ∧ (∀ j, j ≠ ix → t.cell j = s.cell j)
      ∧ (∀ v e l w, r.answer = .ok v e l w →
        (r.op.reg ≠ 0 → (t.cell ix).readA r.op.reg = v ∧ (t.cell ix).pendA = (s.cell ix).pendA.erase r.op.reg)
        ∧ (∀ d, r.op = .pop d → (t.cell ix).readP 15 = e ∧ (t.cell ix).pendP15 = false)
        ∧ (t.cell ix).acquire = (s.cell ix).acquire.filter (· != id))
      ∧ (∀ code, r.answer = .refused code →
        (t.cell ix).reports = (s.cell ix).reports ++ [⟨code, if code = .perm then BitVec.ofNat 64 r.inOff else (capOid r.cap).setWidth 64⟩]
        ∧ (t.cell ix).aregs = (s.cell ix).aregs))
    ∧ (∀ e b n got, r.op = .read e b n got → hasReturned s r = true →
      exec (.blockFill cid id) s = .next (dropReq (s.modCell ix (readDeliver r)) id)
      ∧ ∀ bs w l h, n = 1 → got = [] → r.answer = .data [(bs, w, l)] h →
        poolFill r (s.cell ix) = ((s.cell ix).dropOp id).modEntry e (fun y => y.fill b (32 * b) bs)))
  ∧ (∀ (p : PkgId) (id : Nat) (s : State),
    (∀ r, req? s id = none ∨ (req? s id = some r ∧ (pkgOfCell r.cell ≠ p.val ∨ (canReturn s r = false ∧ hasReturned s r = false))) →
      exec (.renewalResponse p id) s = .next s ∧ exec (.poolWriteAck p id) s = .next s)
    ∧ (∀ r, req? s id = some r → pkgOfCell r.cell = p.val →
      (∀ xs h, canReturn s r = true → r.answer = .data xs h → r.op.isFill = true → r.op ≠ .fill → ∃ t, exec (.renewalResponse p id) s = .next t
        ∧ t.mem = s.mem ∧ t.cells = s.cells ∧ req? t id = some { r with stage := .returning }
        ∧ ∀ k bs w l, askedSectors r = [k] → xs = [(bs, w, l)] → (∀ y, sector? s p.val r.oid (32 * k) = some y → y.pending = false) →
            (s.pkg p.val).sectors.length < cachePages s p.val (r.node % 8) →
            ∃ x, sector? t p.val r.oid (32 * k) = some x ∧ x.data = bs ∧ x.wts = w ∧ x.rts = l ∧ x.pending = false)
      ∧ (∀ code, canReturn s r = true → r.answer = .refused code → r.op.isFill = true → r.op ≠ .fill → ∃ t, exec (.renewalResponse p id) s = .next t
        ∧ t.mem = s.mem ∧ t.cells = s.cells ∧ req? t id = some { r with stage := .returning })
      ∧ (∀ a, r.op = .fill → canReturn s r = true → r.answer = .refused a ∨ (∃ xs h, r.answer = .data xs h) →
        ∃ t, exec (.renewalResponse p id) s = .next t ∧ t.mem = s.mem ∧ t.cells = s.cells ∧ req? t id = none)
      ∧ (∀ d, r.op = .write d →
        (canReturn s r = true → ∃ t, exec (.poolWriteAck p id) s = .next t ∧ t.mem = s.mem ∧ t.cells = s.cells ∧ req? t id = some { r with stage := .returning }
          ∧ ∀ v e l w, r.answer = .ok v e l w → (t.pkg p.val).pts = min (2 ^ 48 - 1) (max (s.pkg p.val).pts w))
        ∧ (hasReturned s r = true → ((s.cell r.cell).op? id).isSome = true → ∃ t, exec (.poolWriteAck p id) s = .next t ∧ t.mem = s.mem ∧ req? t id = none
          ∧ (t.cell r.cell).op? id = none))))
  ∧ (∀ (n : NodeId) (id : Nat) (s : State) (r : PoolReq), req? s id = some r →
    let held : Prop := r.node = n.val ∧ (r.veto = true ∨ (orphaned s r = true ∧ r.op.isFill = false)) ∧ canReturn s r = true
    let gone : Prop := r.node = n.val ∧ hasReturned s r = true ∧ orphaned s r = true
    (held → ∃ t, exec (.vetoRelease n id) s = .next t ∧ t.mem = s.mem ∧ t.cells = s.cells ∧ req? t id = some { r with stage := .returning, veto := false })
    ∧ (gone → exec (.vetoRelease n id) s = .next { s with reqs := s.reqs.filter (fun r => r.id != id) })
    ∧ (¬ held → ¬ gone → exec (.vetoRelease n id) s = .next s))
  ∧ (∀ (p : PkgId) (s : State), exec (.ptsTick p) s = .next (s.modPkg p.val (fun k => { k with pts := min (2 ^ 48 - 1) (k.pts + 1) })))

/-- A pour or hpour that may issue reads its 64-byte descriptor by four loads; then, where the tag is not pending, fewer than 64 copies of the cell are under way and the named capabilities are there, it makes a release (at the descriptor's scope; system scope for hpour) and queues one copy with the tag and the descriptor at the die, clearing the tag's ready bit and status. A misaligned descriptor raises ALIGN, a pending tag ILLEGAL, a zero capability CAPFAIL, a refused load its fault; a load that waits keeps the engine at the word. ctwany and ctffr write the lowest ready tag of a mask, or 64 where none is; ctwany waits idle while one of the mask is pending, ctwall while any is; ctstat writes a tag's status; ctclr clears the tags of a mask that were ready before its cycle; the acquires lift the package's time. Where the rules leave a point open the statement takes the model's own choice: how copies move (notes/assumptions/48.md). (R298, R304, R367, R368, R369, R315) -/
def Obligations.CopyAndTagWords : Prop :=
  ∀ (p : BitVec 4) (t : BitVec 6) (s d : BitVec 5) (st : State),
    let w := st.cur.readA s.toNat
    let queued (i : Instr) (u : State) (host : Bool) (bs : List Byte) (src dst : Cap) : Prop :=
      ∃ x k, Issues i st x ∧ (x.die x.myDie).copies = (u.die u.myDie).copies ++ [k] ∧ k.tag = t.toNat ∧ k.host = host ∧ k.cell = st.me
        ∧ k.src = src ∧ k.dst = dst ∧ k.running = false ∧ k.doneBytes = 0 ∧ k.code = none
        ∧ k.words = (List.range 8).map (fun i => wordAt bs (8 * i)) ∧ x.cur = { u.cur with tags := dropKey u.cur.tags t.toNat } ∧ x.mem = u.mem
    (AGo { pg := p, aregs := [s.toNat], access := true } st →
      (w.toNat % 64 ≠ 0 → Traps (.pour p t s) st .align w)
      ∧ (w.toNat % 64 = 0 →
        (∀ e v, readNow st w 4 = .fault e v → exec (.pour p t s) st = .next (takeFault (st.upd (fun c => { c with refer := none })) st.me 0 e v))
        ∧ (∀ x, readNow st w 4 = .wait x → exec (.pour p t s) st = .next (setWait x .A .external))
        ∧ ∀ bs x, readNow st w 4 = .ok bs x →
          let ctl := wordAt bs 0x18
          let src := x.cur.readK (ctl.toNat / 256 % 16)
          let dst := x.cur.readK (ctl.toNat / 4096 % 16)
          let sp := ctl.getLsbD 3
          let dp := ctl.getLsbD 4
          (tagPending x x.me t.toNat = true → Traps (.pour p t s) st .illegal x.cur.A.pc)
          ∧ (tagPending x x.me t.toNat = false → x.cur.pendK = [] →
            ((sp = true ∧ src = 0) ∨ (dp = true ∧ dst = 0) → Traps (.pour p t s) st .capfail 0)
            ∧ ((sp = true → src ≠ 0) → (dp = true → dst ≠ 0) →
              (64 ≤ copiesOf x x.me → exec (.pour p t s) st = .next (setWait x .A .external))
              ∧ (copiesOf x x.me < 64 → ∀ u, releaseOf x x.me (min 5 (ctl.toNat % 8)) (fun _ => true) = .done u →
                queued (.pour p t s) u false bs (if sp then u.cur.readK (ctl.toNat / 256 % 16) else 0)
                  (if dp then u.cur.readK (ctl.toNat / 4096 % 16) else 0)))))
      ∧ (anyPending st w = true → exec (.ctwall p s) st = .next (setWait st .A .idle))
      ∧ (anyPending st w = false → Issues (.ctwall p s) st (acquireTags st ((List.range 64).filter (fun n => w.getLsbD n))))
      ∧ Issues (.ctclr p s) st (st.upd (fun c => { c with tags := c.tags.filter (fun e => !(w.getLsbD e.1 && e.2.ready && decide (e.2.since < st.cycle))) })))
    ∧ (AGo { pg := p, cm := true, aregs := [s.toNat], access := true } st →
      (w.toNat % 64 ≠ 0 → Traps (.hpour p t s) st .align w)
      ∧ (w.toNat % 64 = 0 → ∀ bs x, readNow st w 4 = .ok bs x →
        (tagPending x x.me t.toNat = true → Traps (.hpour p t s) st .illegal x.cur.A.pc)
        ∧ (tagPending x x.me t.toNat = false → copiesOf x x.me < 64 → ∀ u, releaseOf x x.me 5 (fun _ => true) = .done u →
          queued (.hpour p t s) u true bs 0 0)))
    ∧ (AGo { pg := p, aregs := [s.toNat, d.toNat], access := true } st →
      (∀ n, lowestReady st.cur w = some n → Issues (.ctwany p s d) st (putA (acquireTag st n) d.toNat (BitVec.ofNat 64 n))
          ∧ Issues (.ctffr p s d) st (putA (acquireTag st n) d.toNat (BitVec.ofNat 64 n)))
      ∧ (lowestReady st.cur w = none → WritesA (.ctffr p s d) st d 64
        ∧ (anyPending st w = true → exec (.ctwany p s d) st = .next (setWait st .A .idle))
        ∧ (anyPending st w = false → WritesA (.ctwany p s d) st d 64))
      ∧ (w.toNat < 64 → Issues (.ctstat p s d) st (putA (acquireTag st w.toNat) d.toNat (tagStatus st w.toNat)))
      ∧ (64 ≤ w.toNat → Traps (.ctstat p s d) st .illegal st.cur.A.pc))
    ∧ (∀ n, lowestReady st.cur w = some n → n < 64 ∧ w.getLsbD n = true ∧ ∃ g, find? st.cur.tags n = some g ∧ g.ready = true
        ∧ (∀ m h, m < n → w.getLsbD m = true → find? st.cur.tags m = some h → h.ready = false)
        ∧ acquireTag st n = if 4 ≤ g.scope then st.modPkg st.myPkg (fun k => { k with pts := min (2 ^ 48 - 1) (max k.pts g.time) }) else st)

/-- COPY_START starts the queued copy whose turn it is in a cluster with fewer than eight under way, with the code its descriptor deserves. COPY_GRANULE_WRITE of a copy under way writes its next output granule at its destination, or reads its next source granule, in memory or by a request to the pool; a refused access ends the copy with its code, and one that has to wait is left. COPY_COMPLETE of an ended copy removes it and makes its tag ready with the final status, setting the cell's event latch. HPOUR_START checks the request block, once every copy of its key handle that the die lists before it has been checked, consumes its counter and reads host memory (for a copy out, only begins it); HPOUR_STAGED stages the plaintext where the tag verifies and ends the copy with TAGFAIL otherwise, and of a copy out reads its source on and then stages the ciphertext with its tag; the data go over the ring in packets of 512 bytes, and a copy out writes them to host memory once all have come. bytes_done of a status is counted modulo 2^40. An event that finds no such copy changes nothing. Where the rules leave a point open the statement takes the model's own choice: how program order is kept (notes/assumptions/42.md), how copies move (notes/assumptions/48.md), when links are dark, paused and rekeyed (notes/assumptions/62.md), a miss at a home (notes/assumptions/63.md). (R258, R298, R300, R301, R302, R303, R391, R392, R393) -/
def Obligations.CopyStepsMoveGranules : Prop :=
  ∀ (d : DieId) (cl : Fin 6) (id : Nat) (s : State),
    let die := dieIx d
    let D := s.die die
    let fails (i : Instr) (b : State) (e : FaultCode) : Prop := exec i s = .next (modCopy b die id (fun k => { k with code := some e }))
    (8 ≤ inProgress s die cl.val ∨ D.reassign.isSome = true ∨ nextCopy D die cl.val = none → exec (.copyStart d cl) s = .next s)
    ∧ (inProgress s die cl.val < 8 → D.reassign = none → ∀ k, nextCopy D die cl.val = some k →
        let u := modCopy s die k.id (fun k => { k with running := true, code := if k.host then none else k.startCode })
        exec (.copyStart d cl) s = .next ((if k.host then putSlot u (pkgOfDie die) k.id (dieStation (die % 8)) 0 else u).modDie die
          (fun d => { d with turn := insertAt d.turn cl.val ((k.home % 24 + 1) % 24) })))
    ∧ (copy? s die id = none → exec (.copyGranuleWrite d id) s = .next s ∧ exec (.copyComplete d id) s = .next s
        ∧ exec (.hpourStart d id) s = .next s ∧ exec (.hpourStaged d id) s = .next s)
    ∧ (∀ k, copy? s die id = some k → k.id = id →
      (k.running = false ∨ k.code.isSome = true → exec (.copyGranuleWrite d id) s = .next s)
      ∧ (k.host = true → k.staged = false ∨ k.packets.any (onRing s (pkgOfDie die)) = true → exec (.copyGranuleWrite d id) s = .next s)
      ∧ (∀ bs, k.running = true → k.code = none → k.host = true → k.hostDir = true → k.staged = true → k.packets.any (onRing s (pkgOfDie die)) = false →
        k.head = some bs →
        let p := s.pkg (pkgOfDie die)
        let a := (k.word 0).toNat + k.doneBytes
        (p.hostErr.contains (a / 32) = true → fails (.copyGranuleWrite d id) s .perm)
        ∧ (p.hostErr.contains (a / 32) = false → exec (.copyGranuleWrite d id) s = .next (modCopy (s.setPkg (pkgOfDie die)
            { p with hostMem := Memory.write p.hostMem a bs, hostTime := max p.hostTime p.pts }) die id (fun k => k.wrote bs 0))))
      ∧ (∀ f, (k.status f).getLsbD 63 = f ∧ (k.status f).extractLsb' 40 8 = 0
        ∧ ((k.status f).extractLsb' 0 40).toNat = (if k.host then min k.inLen k.doneBytes else k.doneBytes) % 2 ^ 40)
      ∧ (k.running = true → k.code = none → k.host = false →
        (∀ bs, k.head = some bs → k.dpool = false → ladleWaits s die k (k.dstAt k.doneBytes) .wr = false →
          (∀ t, ladleWrite s die (k.dstAt k.doneBytes) bs = .ok t →
            exec (.copyGranuleWrite d id) s = .next (modCopy t die id (fun k => k.wrote bs 0)))
          ∧ (∀ e, ladleWrite s die (k.dstAt k.doneBytes) bs = .error e → fails (.copyGranuleWrite d id) s e))
        ∧ (k.head = none → k.readAt < k.inLen → k.doneBytes < k.outLen → k.spool = false → ladleWaits s die k (k.srcAt k.readAt) .rd = false →
          (∀ bs t, ladleRead s die (k.srcAt k.readAt) = .ok (bs, t) → exec (.copyGranuleWrite d id) s = .next (modCopy t die id (fun k => k.feed bs 0)))
          ∧ (∀ e, ladleRead s die (k.srcAt k.readAt) = .error e → fails (.copyGranuleWrite d id) s e))
        ∧ (∀ bs, k.head = some bs → k.dpool = false → ladleWaits s die k (k.dstAt k.doneBytes) .wr = true →
            exec (.copyGranuleWrite d id) s = .next (referCopy s die k (k.dstAt k.doneBytes) .wr))
        ∧ (∀ bs, k.head = some bs → k.dpool = true → reqOfCopy s id = none → ∃ t r, exec (.copyGranuleWrite d id) s = .next t ∧ t.reqs = s.reqs ++ [r]
            ∧ r.op = .copyWrite id bs (if k.tok then some (k.word 6) else none) ∧ r.cap = k.dst ∧ r.inOff = (k.dstAt k.doneBytes).toNat ∧ t.mem = s.mem)
        ∧ (k.head = none → k.readAt < k.inLen → k.doneBytes < k.outLen → k.spool = true → reqOfCopy s id = none →
            ∃ t r, exec (.copyGranuleWrite d id) s = .next t ∧ t.reqs = s.reqs ++ [r]
            ∧ r.op = .copyRead id ∧ r.cap = k.src ∧ r.inOff = (k.srcAt k.readAt).toNat ∧ t.mem = s.mem))
      ∧ (k.ended = false ∨ (reqOfCopy s id).isSome = true → exec (.copyComplete d id) s = .next s)
      ∧ (k.ended = true → reqOfCopy s id = none → ∃ t, exec (.copyComplete d id) s = .next t ∧ copy? t die id = none ∧ t.mem = s.mem
        ∧ (k.orphan = true → t.cells = s.cells)
        ∧ (k.orphan = false → k.cell < 1000000 → t.cell k.cell = { s.cell k.cell with
            tags := insertAt (s.cell k.cell).tags k.tag ⟨true, k.status true, if k.host then 5 else k.scopeCode, k.wtime, s.cycle⟩, latch := true }))
      ∧ (let e := keyOf s die k.keyIx
        let n := k.inLen
        let fits : Prop := (k.word 0).toNat % 32 = 0 ∧ (k.word 1).toNat % 32 = 0 ∧ addrOk (k.word 1) = true ∧ homeDie (k.word 1) = die
        let keyed : Prop := e.armed = true ∧ e.kind = 1 ∧ e.world = D.world ∧ e.fixed.toNat = (k.word 3).toNat % 2 ^ 32 ∧ e.counter < k.word 4
        k.host = true → k.running = true → k.code = none → k.begun = false → onRing s (pkgOfDie die) id = false → D.reassign = none →
        (k.hostIllegal = true → fails (.hpourStart d id) s .illegal)
        ∧ (k.hostIllegal = false → ¬ fits → fails (.hpourStart d id) s .align)
        ∧ (k.hostIllegal = false → fits → checkedLater id k.keyIx D.copies = true → exec (.hpourStart d id) s = .next s)
        ∧ (k.hostIllegal = false → fits → checkedLater id k.keyIx D.copies = false → ¬ keyed → fails (.hpourStart d id) s .perm)
        ∧ (k.hostIllegal = false → fits → checkedLater id k.keyIx D.copies = false → keyed → k.hostDir = false → stagedBytes s (pkgOfDie die) + n ≤ 67108864 →
          D.world = 0 ∨ D.tdi = .run → hostFails (s.pkg (pkgOfDie die)) (k.word 0).toNat (n + 16) = false →
          exec (.hpourStart d id) s = .next (modCopy (setKey s die k.keyIx { e with counter := k.word 4 }) die id (fun x => { x with
            begun := true, bytesIn := Memory.read (s.pkg (pkgOfDie die)).hostMem (k.word 0).toNat (n + 16), readAt := n })))
        ∧ (k.hostIllegal = false → fits → checkedLater id k.keyIx D.copies = false → keyed → k.hostDir = true → D.world = 0 ∨ D.tdi = .run →
          exec (.hpourStart d id) s = .next (modCopy (setKey s die k.keyIx { e with counter := k.word 4 }) die id (fun x => { x with begun := true }))))
      ∧ (k.host = true → k.code = none → k.begun = true → k.staged = false →
        let key := keyBytes (keyOf s die k.keyIx).key
        let ct := k.bytesIn.take k.inLen
        let out := gcmCrypt key k.iv k.bytesIn
        let slots (x : State) : List (Nat × Nat × Nat) := (x.pkg (pkgOfDie die)).ringSlots.map (fun y => (y.id, y.src, y.dst))
        let sent (src dst : Nat) (bs : List Byte) : Prop := ∃ t ids, exec (.hpourStaged d id) s = .next t ∧ t.mem = s.mem ∧ t.cells = s.cells
          ∧ copy? t die id = some { k with output := bs, bytesIn := [], staged := true, packets := ids }
          ∧ ids.length = (bs.length + 511) / 512 ∧ slots t = slots s ++ ids.map (fun j => (j, src, dst))
        (k.hostDir = false → gcmTag key k.iv k.aad ct = k.bytesIn.drop k.inLen →
          sent 0 (dieStation (die % 8)) (gcmCrypt key k.iv ct))
        ∧ (k.hostDir = false → gcmTag key k.iv k.aad ct ≠ k.bytesIn.drop k.inLen → fails (.hpourStaged d id) s .tagfail)
        ∧ (k.hostDir = true → k.readAt < k.inLen → exec (.hpourStaged d id) s = .next (ladleTake s die k))
        ∧ (k.hostDir = true → k.inLen ≤ k.readAt → sent (dieStation (die % 8)) 0 (out ++ gcmTag key k.iv k.aad out))))

/-- RING_SLOT_ARRIVAL of a slot for a station of the die, with none before it on its way and no link of its way paused by a retraining, lets a slot that waits enter the ring and takes one on it off at its station, or, on its first lap with no buffer reserved for it and the station full, marks it and reserves its buffer. HOLD_ARRIVAL of an eligible request that finds a partner splices the two: a pop receives the pushed element and both are answered and owe a veto; with none it is held, for the window in force then, while a window is open and fewer than 32 are held, and goes on otherwise. It arrives behind the earlier requests of its strand for the object, and one whose object is no longer eligible passes by. HOLD_WINDOW_EXPIRY lets a held request go on when its window has passed and no older one of its strand is held. A request for an absent node that goes on from a bridge is refused there. Other events change nothing. Where the rules leave a point open the statement takes the model's own choice: free values (notes/assumptions/7.md), which requests splice (notes/assumptions/59.md), when links are dark, paused and rekeyed (notes/assumptions/62.md). (R324, R325, R326, R329, R293, R294, R331, R332, R333, R338, R352) -/
def Obligations.RingSlotsAndSplices : Prop :=
  ∀ (d : DieId) (h : HoldPoint) (id : Nat) (s : State),
    let P := s.pkg d.pkg.val
    (∀ x, P.ringSlots.find? (·.id == id) = none ∨ (P.ringSlots.find? (·.id == id) = some x ∧
        (stationOf d.die.val x.dst = false ∨ slotBehind x P.ringSlots = true ∨ ∃ k ∈ ringLinks x.src x.dst, linkClear s d.pkg.val k = false)) →
      exec (.ringSlotArrival d id) s = .next s)
    ∧ (∀ x, P.ringSlots.find? (·.id == id) = some x → stationOf d.die.val x.dst = true → (∀ k ∈ ringLinks x.src x.dst, linkClear s d.pkg.val k = true) →
        slotBehind x P.ringSlots = false →
        (x.entered = false → exec (.ringSlotArrival d id) s = .next (s.setPkg d.pkg.val { P with
            ringSlots := P.ringSlots.map (fun y => if y.id = id then { y with entered := true } else y) }))
        ∧ (x.entered = true → ∃ t, exec (.ringSlotArrival d id) s = .next t
          ∧ { t with pkgs := s.pkgs, free := s.free } = s ∧ (∀ q, q ≠ d.pkg.val → t.pkg q = s.pkg q)
          ∧ ((t.pkg d.pkg.val).ringSlots = P.ringSlots.filter (·.id != id)
            ∨ (x.lap = 0 ∧ P.resv.contains (resvKey x) = false ∧ (t.pkg d.pkg.val).resv = resvKey x :: P.resv
              ∧ (t.pkg d.pkg.val).ringSlots = P.ringSlots.map (fun y => if y.id = id then { y with lap := 1, reserved := true } else y)))))
    ∧ (∀ r, req? s id = some r → r.id = id →
      let arrived : Prop := r.stage = atStage h ∧ pointOf r h = true ∧ r.op.isObject = true
        ∧ r.discarded = false ∧ versionOk s h r = true ∧ onRing s (pkgOfCell r.cell) id = false
        ∧ ∀ q ∈ s.reqs, q.id < r.id → orderedWith s q r = true → q.discarded = false → (heldStage h).rank ≤ q.stage.rank
      let eligible : Prop := arrived ∧ firstStage s r.cap r.op = .atRing
      let there : Prop := (∃ x, h = .bridgeStation x) → nodePresent s (pkgOfCell r.cell) r.node = true
      let onward (i : Instr) : Prop :=
        (there → mayAdvance s h r = true → exec i s = .next (countAt (advance s h r) h 12))
        ∧ (there → mayAdvance s h r = false → exec i s = .next s)
        ∧ (¬ there → exec i s = .next (refuseReq s id .staleTopo))
      (¬ arrived → exec (.holdArrival h id) s = .next s)
      ∧ (arrived → firstStage s r.cap r.op ≠ .atRing →
        ((∃ x, h = .bridgeStation x) → exec (.holdArrival h id) s = .next s)
        ∧ ((∀ x, h ≠ .bridgeStation x) → exec (.holdArrival h id) s = .next (advance s h r)))
      ∧ (eligible →
        (∀ q v g, partnerOf s h r = some q → req? s q.id = some q → q.stage = heldStage h →
          ((r.op = .push v ∧ q.op = .pop g) ∨ (q.op = .push v ∧ r.op = .pop g)) →
          ∃ t a b, exec (.holdArrival h id) s = .next t ∧ t.mem = s.mem ∧ t.cells = s.cells
            ∧ req? t (if r.op = .push v then r else q).id = some a ∧ req? t (if r.op = .push v then q else r).id = some b
            ∧ a.stage = (match h with | .frontEnd _ => ReqStage.answered | _ => ReqStage.returning) ∧ b.stage = a.stage
            ∧ a.veto = true ∧ b.veto = true ∧ a.answer = .ok 0 false 0 0
            ∧ b.answer = .ok (lowBytes v (elemSize s (if r.op = .push v then r else q))) false (if r.op = .push v then r else q).pts 0)
        ∧ (∀ q, partnerOf s h r = some q → exec (.holdArrival h id) s = .next (if givesFirst r.op then splice s h r q else splice s h q r))
        ∧ (partnerOf s h r = none → windowAt s h r ≠ 0 ∨ ownHeld s h r ≠ [] → heldCount s h < 32 →
          ∃ t q, exec (.holdArrival h id) s = .next t ∧ req? t id = some q
            ∧ q = { r with stage := heldStage h, since := s.cycle, expiry := s.cycle + windowAt s h r, order := s.nextId })
        ∧ (partnerOf s h r = none → ownHeld s h r ≠ [] → 32 ≤ heldCount s h → exec (.holdArrival h id) s = .next s)
        ∧ (partnerOf s h r = none → ownHeld s h r = [] → windowAt s h r = 0 ∨ 32 ≤ heldCount s h → onward (.holdArrival h id)))
      ∧ (let due : Prop := heldAt h r = true ∧ r.expiry ≤ s.cycle ∧ oldestOwn s h r = true
        (due → onward (.holdWindowExpiry h id)) ∧ (¬ due → exec (.holdWindowExpiry h id) s = .next s)))

/-- While a change is under way TOPOLOGY_ANNOUNCE shows its version to a port or a node; TOPOLOGY_ADOPT makes it the version in force there once no request that the port has issued is unanswered and no veto stands, restarting the frame counters of a port that has been rekeyed, and otherwise changes nothing. A node refuses a request of an older version by STALE_REFUSAL, three times; the fourth ends it with STALE_TOPO. LANE_FAILURE takes an optical port from full to half to quarter width and then down, pauses it for 3600 cycles and starts a topology change, and takes an on-package link to half and quarter width with the same pause and no topology change; RETRAIN_DONE after those cycles and LINK_REPLAY_TIMEOUT let it go on. A sealed frame is accepted exactly when its tag is good and its counter the one its direction expects. PACKAGE_SEVERED of a package with a port down for 90000 cycles, or of a node without a port for as long, severs it and starts a topology change, which is under way while some port or node of the domain has not adopted its version; a write of a strand that was under way to the package is dead and no longer keeps its register pending. RETUNE_COMPLETE lets a filter hear again once its time has come. Where the rules leave a point open the statement takes the model's own choice: absent nodes (notes/assumptions/49.md), when a port adopts a version (notes/assumptions/50.md), the keys of links (notes/assumptions/60.md), when links are dark, paused and rekeyed (notes/assumptions/62.md). (R328, R335, R336, R337, R338, R339, R340, R381) -/
def Obligations.TopologyLinksAndSevering : Prop :=
  ∀ (p : PkgId) (n : NodeId) (i f : Fin 8) (l : LinkRef) (k id : Nat) (fr : SealedFrame) (s : State),
    let P := s.pkg p.val
    let N := s.node n.val
    let T := linkAt s l
    let waits : Prop := issuing s p.val i.val = true ∨ unanswered s p.val i.val = true ∨ portVeto s p.val i.val = true
    let open_ (t : State) : Prop := (∃ q j, q < 32 ∧ j < 8 ∧ inDomain t q = true ∧ portVersion t q j ≠ t.version)
      ∨ ∃ m, m < 16 ∧ nodeInDomain t m = true ∧ (t.node m).version ≠ t.version
    let changes (t : State) : Prop := (open_ t → t.changing = true)
      ∧ (s.changing = false → s.again = false → t.version = s.version + 1) ∧ (s.changing = true → t.version ≠ s.version ∨ t.again = true)
    (s.changing = false → exec (.topologyAnnounce (.port p i)) s = .next s ∧ exec (.topologyAnnounce (.node n)) s = .next s)
    ∧ (s.changing = true → (portVersion s p.val i.val = s.version → exec (.topologyAnnounce (.port p i)) s = .next s)
      ∧ (portVersion s p.val i.val ≠ s.version → ∃ t, exec (.topologyAnnounce (.port p i)) s = .next t ∧ { t with pkgs := s.pkgs } = s
          ∧ issuing t p.val i.val = false ∧ (t.pkg p.val).announced = s.version)
      ∧ (N.version = s.version → exec (.topologyAnnounce (.node n)) s = .next s)
      ∧ (N.version ≠ s.version → exec (.topologyAnnounce (.node n)) s = .next (s.modNode n.val (fun d => { d with announced := true }))))
    ∧ (waits → exec (.topologyAdopt (.port p i)) s = .next s)
    ∧ (¬ waits → ∃ t, exec (.topologyAdopt (.port p i)) s = .next t ∧ portVersion t p.val i.val = s.version ∧ issuing t p.val i.val = true
        ∧ (t.pkg p.val).version = s.version ∧ t.mem = s.mem
        ∧ (linkOf t p.val i.val).expects = (if P.rekey.contains i.val then [] else (linkOf s p.val i.val).expects))
    ∧ (N.announced = false ∨ nodeVeto s n.val = true → exec (.topologyAdopt (.node n)) s = .next s)
    ∧ (N.announced = true → nodeVeto s n.val = false →
        ∃ t, exec (.topologyAdopt (.node n)) s = .next t ∧ (t.node n.val).version = s.version ∧ (t.node n.val).announced = false ∧ t.mem = s.mem)
    ∧ (∀ r, req? s id = some r → r.id = id →
      (let again : Prop := pkgOfCell r.cell = p.val ∧ r.node % 8 = i.val ∧ r.stage = .refusedStale ∧ mayIssue s r = true;
        (again → exec (.staleRefusal (.port p i) id) s = .next (leavePort s r (if firstStage s r.cap r.op = .atRing then .atFront else .atNode)))
        ∧ (¬ again → exec (.staleRefusal (.port p i) id) s = .next s))
      ∧ (r.node = n.val → r.stage = .atNode ∨ r.stage = .atFront → r.answer = .none → r.discarded = false → nodeOpen s (pkgOfCell r.cell) n.val = true →
        (olderVersion r.version N.version = false → exec (.staleRefusal (.node n) id) s = .next s)
        ∧ (olderVersion r.version N.version = true → ∃ t q, exec (.staleRefusal (.node n) id) s = .next t ∧ req? t id = some q ∧ t.mem = s.mem
          ∧ (3 ≤ r.tries → q.stage = .returning ∧ q.answer = .refused .staleTopo)
          ∧ (r.tries < 3 → q.stage = .refusedStale ∧ q.tries = r.tries + 1 ∧ q.answer = .none))))
    ∧ (3 ≤ T.width ∨ (opticalLink l = false ∧ 2 ≤ T.width) → exec (.laneFailure l.owner l.link k) s = .next s)
    ∧ (opticalLink l = false → T.width < 2 → exec (.laneFailure l.owner l.link k) s = .next (modLink s l (fun t => { t with
        width := t.width + 1, lanesLost := t.lanesLost + 1, pausedTill := s.cycle + 3600, replay := true })))
    ∧ (opticalLink l = true → T.width < 3 → ∃ t, exec (.laneFailure l.owner l.link k) s = .next t ∧ t.mem = s.mem ∧ t.cells = s.cells ∧ t.changing = true
      ∧ (let U := linkAt t l
        U.width = T.width + 1 ∧ U.pausedTill = s.cycle + 3600 ∧ U.lanesLost = T.lanesLost + 1 ∧ (T.width = 2 → U.downSince = some s.cycle)))
    ∧ (s.cycle < T.pausedTill → exec (.retrainDone l.owner l.link) s = .next s)
    ∧ (T.pausedTill ≤ s.cycle → exec (.retrainDone l.owner l.link) s = .next (modLink s l (fun t => { t with pausedTill := 0, replay := false })))
    ∧ exec (.linkReplayTimeout l.owner l.link) s = .next (modLink s l (fun t => { t with replay := false }))
    ∧ (let e := lookup 0 T.expects fr.dir.val
      (fr.tagOk = true → fr.counter = e →
        exec (.sealedFrameReceive l.owner l.link fr) s = .next (modLink s l (fun t => { t with expects := insertAt t.expects fr.dir.val (e + 1) })))
      ∧ (fr.tagOk = false ∨ fr.counter ≠ e → let x := modLink s l (fun t => { t with replay := true })
        exec (.sealedFrameReceive l.owner l.link fr) s = .next (match linkDie l with | some d => x.count d 16 | none => x)))
    ∧ (downLong s p.val = false ∨ P.severSelf = true → exec (.packageSevered (.pkg p)) s = .next s)
    ∧ (downLong s p.val = true → P.severSelf = false → ∃ t, exec (.packageSevered (.pkg p)) s = .next t ∧ changes t
        ∧ (t.pkg p.val).severSelf = true ∧ t.topo.severed.contains p.val = true
        ∧ ∀ ix o, o ∈ (s.cell ix).ops → o.kind.writes = true → o.leg ≠ .returned → pkgOfCell ix ≠ o.homePkg → o.homePkg = p.val →
            ∃ x ∈ (t.cell ix).ops, x.id = o.id ∧ x.dead = true)
    ∧ (nodeInDomain s n.val = false ∨ nodeLost s n.val = false → exec (.packageSevered (.node n)) s = .next s)
    ∧ (nodeInDomain s n.val = true → nodeLost s n.val = true → ∃ t, exec (.packageSevered (.node n)) s = .next t ∧ changes t
        ∧ nodeInDomain t n.val = false ∧ ∀ r ∈ t.reqs, r.node = n.val → r.stage = .returning ∨ r.stage = .parked ∨ r.discarded = true)
    ∧ (∃ t, exec (.retuneComplete (.port p i) f) s = .next t ∧ { t with pkgs := s.pkgs } = s ∧
        ∀ x, x ∈ (linkOf t p.val i.val).retune ↔ x ∈ (linkOf s p.val i.val).retune ∧ (x.1 ≠ f.val ∨ s.cycle < x.2))
    ∧ exec (.retuneComplete (.node n) f) s = .next s

/-- NODE_MANAGEMENT_REQUEST creates an object of a fresh id with its descriptor (kind, size, world, lease duration, splice window, element size), its contents, a new heat, token 0 and no lease, frees an object, sets its splice window up to 1024 or takes its override away, or clears a world's failure count; a descriptor that is not allowed, or contents that do not fit it, change nothing. POOL_NODE_RESTART ends every lease at the node and keeps its tokens; a node that was not in the domain joins it with a new version. DOMAIN_REDUCTION of a package outside the domain, or with a port of its way down or paused, does nothing; otherwise a contribution of at most 256 bytes reaches the package itself and every package of the domain that hears it, and no other; at each of them the round is complete with the contribution of the last member of the domain, with the combination of all of them in ascending package number (the function of the service is a free one); memory, cells and dies are as before. Where the rules leave a point open the statement takes the model's own choice: the topology at reset and how nodes join (notes/assumptions/6.md), free values (notes/assumptions/7.md), the home and heat of an object (notes/assumptions/9.md), lease holder and clock (notes/assumptions/45.md). (R281, R282, R283, R334, R341, R365) -/
def Obligations.NodesAndReductions : Prop :=
  ∀ (n : NodeId) (p : PkgId) (id : Nat) (s : State),
    let manage (r : NodeRequest) (t : State) : Prop := exec (.nodeManagementRequest n r) s = .next t
    (∀ oid kind pages world guarded duration window esize contents,
      let r : NodeRequest := .create oid kind pages world guarded duration window esize contents
      let ok := createOk s n.val oid.toNat kind.val pages duration.toNat esize window && contentsOk kind.val pages esize contents
      (ok = false → manage r s)
      ∧ (ok = true → ∃ t o, manage r t ∧ objOf t n.val oid.toNat = some o
        ∧ o.kind = kind.val ∧ o.size = pages * 4096 ∧ o.world = world ∧ o.guarded = guarded ∧ o.token = 0 ∧ o.holder = none
        ∧ o.duration = duration.toNat ∧ o.override = window ∧ o.esize = esize ∧ o.wts = [] ∧ o.rts = []
        ∧ (∀ b, contents = .bytes b → o.bytes = Memory.write [] 0 b ∧ o.elems = [] ∧ o.count = 0)
        ∧ (∀ xs, contents = .elems xs → o.elems = xs.map (fun v => lowBytes v esize) ∧ o.bytes = [] ∧ o.count = 0)
        ∧ (∀ c, contents = .count c → o.count = c.toNat ∧ o.bytes = [] ∧ o.elems = [])
        ∧ o.heat = lookup 0 (s.node n.val).heats oid.toNat + 1 ∧ (∀ i, i ≠ oid.toNat → objOf t n.val i = objOf s n.val i)
        ∧ { t with nodes := s.nodes } = s))
    ∧ (∀ oid, manage (.free oid) (s.modNode n.val (fun d => { d with objects := dropKey d.objects oid.toNat })))
    ∧ (∀ w, manage (.clearFailures w) (s.modNode n.val (fun d => { d with failures := dropKey d.failures w.toNat })))
    ∧ (∀ oid w, objOf s n.val oid.toNat = none ∨ 1024 < w → manage (.setWindow oid (some w)) s)
    ∧ (∀ oid, objOf s n.val oid.toNat = none → manage (.setWindow oid none) s)
    ∧ (∀ oid w o, objOf s n.val oid.toNat = some o → (∀ x, w = some x → x ≤ 1024) → ∃ t, manage (.setWindow oid w) t
        ∧ objOf t n.val oid.toNat = some { o with override := w } ∧ t.mem = s.mem)
    ∧ (∃ t, exec (.poolNodeRestart n) s = .next t ∧ t.mem = s.mem ∧ t.cells = s.cells
        ∧ (∀ i, objOf t n.val i = (objOf s n.val i).map (fun o => { o with holder := none }))
        ∧ (nodeInDomain s n.val = false → nodeInDomain t n.val = true ∧ t.changing = true))
    ∧ (let reaches (q : Nat) : Prop := inDomain s q = true ∧ (q = p.val ∨ hears s q (p.val % 8) p.val = true)
      let way : Prop := ∀ q, q < 32 → q ≠ p.val → reaches q → requestOpen s p.val q = true
      (inDomain s p.val = false ∨ ¬ way → exec (.domainReduction p id) s = .next s)
      ∧ (inDomain s p.val = true → way → ∃ t bs, exec (.domainReduction p id) s = .next t ∧ bs.length = 256
        ∧ { t with pkgs := s.pkgs, free := s.free } = s
        ∧ ∀ q, (¬ (q < 32 ∧ reaches q) → t.pkg q = s.pkg q)
          ∧ (q < 32 → reaches q →
            let old := lookup [] (s.pkg q).reductions id
            let m := lookup [] (t.pkg q).reductions id
            find? m p.val = some bs ∧ (∀ x, x < 32 → x ≠ p.val → find? m x = find? old x)
            ∧ ((∀ x, x < 32 → inDomain s x = true → find? m x ≠ none) →
                find? m 32 = some (Config.reduceBytes (((List.range 32).filter (fun x => inDomain s x)).map (fun x => lookup [] m x))))
            ∧ ((∃ x, x < 32 ∧ inDomain s x = true ∧ find? m x = none) → find? m 32 = find? old 32)
            ∧ (∀ j, j ≠ id → find? (t.pkg q).reductions j = find? (s.pkg q).reductions j)
            ∧ { t.pkg q with reductions := (s.pkg q).reductions } = s.pkg q)))

/-- A tlaunch that may issue makes its release at package scope, reads its descriptor, the kernel descriptor and the queue-limit table, and writes rd: with the refusal status and the code of the first check that fails, creating nothing, or with the handle of the lowest free record, whose new record holds the descriptor's words in state ready where pcount is 0 and waiting otherwise. A misaligned address raises ALIGN and a refused read its fault, the release before it standing. tdep raises PERM with the offending handle, or counts the edge at S: appended to the successors of a P that has not ended, satisfied at once by a completed P. tqry writes the fields of Table 6, state 6 and zeros for a stale handle. tkill ends a live task of its world as killed and does nothing for a stale handle; it is a command-mode word. Where the rules leave a point open the statement takes the model's own choice: checks of a launch descriptor (notes/assumptions/51.md), the record a launch takes (notes/assumptions/52.md). (R236, R238, R239, R240, R241, R243, R244, R315) -/
def Obligations.TaskWords : Prop :=
  ∀ (p : BitVec 4) (t s d : BitVec 5) (st : State),
    let a := st.cur.readA s.toNat
    let b := st.cur.readA t.toNat
    (AGo { pg := p, aregs := [s.toNat, d.toNat], access := true } st →
      let i : Instr := .tlaunch p s d
      (a.toNat % 64 ≠ 0 → Traps i st .align a)
      ∧ (a.toNat % 64 = 0 → (releaseOf st st.me 3 (fun _ => true) = .wait → exec i st = .next (setWait st .A .external))
        ∧ ∀ x, releaseOf st st.me 3 (fun _ => true) = .done x →
          (∀ e v, readNow x a 12 = .fault e v → TrapsAfter i st x e v)
          ∧ ∀ desc y, readNow x a 12 = .ok desc y →
            let k := wordAt desc 0
            let c := wordAt desc 8
            let q := wordAt desc 16
            let completes (kb qb : List Byte) (z : State) : Prop :=
              (∀ n, launchCode z desc kb qb = some n → Issues i st (putA z d.toNat (BitVec.ofNat 64 (2 ^ 63 + n))))
              ∧ (launchCode z desc kb qb = none → freeRecord (z.die z.myDie) = none → Issues i st (putA z d.toNat (BitVec.ofNat 64 (2 ^ 63 + 6))))
              ∧ (∀ r, launchCode z desc kb qb = none → freeRecord (z.die z.myDie) = some r → ∃ u h T, Issues i st u
                  ∧ (d ≠ 0 → u.cur.readA d.toNat = h) ∧ taskOf u h = some T ∧ u.mem = z.mem
                  ∧ handleDie h = z.myDie ∧ hIndex h = r ∧ h.toNat < 2 ^ 48
                  ∧ T.state = (if ctlPcount c = 0 then .ready else .waiting) ∧ T.kernel = k ∧ T.control = c ∧ T.qlim = q
                  ∧ T.count = ctlPcount c ∧ T.entry = wordAt kb 0 ∧ T.world = (z.die z.myDie).world ∧ T.succs = [] ∧ T.named = 0
                  ∧ (∀ o, find? (z.die z.myDie).tasks r = some o → T.gen = o.gen + 1)
                  ∧ (∀ j, j < 8 → T.operands.getD j 0 = capAt desc (64 + 16 * j)))
            (k.toNat % 16 ≠ 0 → Traps i st .align k)
            ∧ (k.toNat % 16 = 0 → (∀ e v, readNow y k 12 = .fault e v → TrapsAfter i st y e v) ∧ ∀ kb z, readNow y k 12 = .ok kb z →
                (q = 0 → completes kb [] z) ∧ (q ≠ 0 → q.toNat % 16 ≠ 0 → Traps i st .align q)
                ∧ (q ≠ 0 → q.toNat % 16 = 0 → (∀ e v, readNow z q 4 = .fault e v → TrapsAfter i st z e v)
                    ∧ ∀ qb v, readNow z q 4 = .ok qb v → completes kb qb v))))
    ∧ (AGo { pg := p, aregs := [s.toNat, t.toNat] } st →
      (∀ h, depFault st a b = some h → Traps (.tdep p t s) st .perm h)
      ∧ (∀ P S, depFault st a b = none → taskOf st a = some P → taskOf st b = some S →
        let S1 : Task := { S with named := S.named + 1 }
        let S2 : Task := { S1 with count := S.count - 1 }
        (P.state = .waiting ∨ P.state = .ready ∨ P.state = .running →
          Issues (.tdep p t s) st (setTask (setTask st b S1) a { P with succs := P.succs ++ [b] }))
        ∧ (P.state = .complete → 2 ≤ S.count → Issues (.tdep p t s) st (setTask (setTask st b S1) b S2))
        ∧ (P.state = .complete → S.count ≤ 1 → Issues (.tdep p t s) st (makeReady (setTask st b S1) b S2))
        ∧ (P.state = .failed ∨ P.state = .killed → S.succs = [] → ∃ u T, Issues (.tdep p t s) st u ∧ taskOf u b = some T ∧ T.state = .failed))
      ∧ (∀ P S, taskSeen st a = some P → taskSeen st b = some S → (depFault st a b = none ↔
          hPkg a = st.myPkg ∧ hPkg b = st.myPkg ∧ a ≠ b ∧ S.state = .waiting ∧ S.named < ctlPcount S.control ∧ P.succs.length < 32))
      ∧ (taskSeen st a = none → depFault st a b = some a) ∧ (∀ P, taskSeen st a = some P → taskSeen st b = none → depFault st a b = some b))
    ∧ (AGo { pg := p, aregs := [s.toNat, d.toNat], access := true } st →
      (taskSeen st a = none → WritesA (.tqry p s d) st d (BitVec.ofNat 64 (6 * 2 ^ 16)))
      ∧ (∀ T, taskSeen st a = some T → ∃ v, WritesA (.tqry p s d) st d v ∧ (T.count < 2 ^ 16 → (v.extractLsb' 0 16).toNat = T.count
          ∧ (v.extractLsb' 16 3).toNat = stateCode T.state ∧ v.getLsbD 19 = T.stowed ∧ v.extractLsb' 20 8 = T.ddisp ∧ v.extractLsb' 28 8 = T.dcomp
          ∧ v.extractLsb' 36 28 = 0)))
    ∧ (AGo { pg := p, cm := true, aregs := [s.toNat] } st →
      (taskSeen st a = none → Issues (.tkill p s) st st)
      ∧ (∀ T, taskSeen st a = some T → (T.state.isFinal = true → Issues (.tkill p s) st st)
        ∧ (T.state.isFinal = false → T.succs = [] → ∃ u, Issues (.tkill p s) st u
          ∧ taskOf u a = some { T with state := .killed, final := st.cycle, stowed := false, request := 0, succs := [] })))

/-- A command-mode schpub that may issue withdraws the die's schedule for a zero register; otherwise it reads the 64-byte header by four loads and publishes the step list, count and distance where the header is well formed, raising ALIGN for a misaligned address and PERM for a malformed header. schadv sets the current step of the published schedule, keeping of its walk what is still ahead, or raises PERM where none is published. SCHEDULE_FILL with no schedule in the package changes nothing; otherwise a bridge station reads the entry of the next step of the walk and queues its fills, drops a finished fill or one of another bridge, and sends a renewal for one sector of 32 bytes that is not held under a lease in force while its port issues and its node's link is open. Where the rules leave a point open the statement takes the model's own choice: the home and heat of an object (notes/assumptions/9.md), malformed schedule entries (notes/assumptions/56.md). (R361, R362, R363, R364) -/
def Obligations.ScheduleWordsAndFills : Prop :=
  (∀ (p : BitVec 4) (s : BitVec 5) (st : State),
    let w := st.cur.readA s.toNat
    (AGo { pg := p, cm := true, aregs := [s.toNat], access := true } st →
      (w = 0 → Issues (.schpub p s) st (st.modDie st.myDie (fun d => { d with schedule := none })))
      ∧ (w.toNat % 64 ≠ 0 → Traps (.schpub p s) st .align w)
      ∧ (w ≠ 0 → w.toNat % 64 = 0 → (∀ e v, readNow st w 4 = .fault e v → TrapsAfter (.schpub p s) st st e v)
        ∧ ∀ hb x, readNow st w 4 = .ok hb x →
          let l := wordAt hb 0
          let c := wordAt hb 8
          let dist := (c.extractLsb' 12 3).toNat
          let n := (c.extractLsb' 0 9).toNat
          let good : Prop := c.extractLsb' 15 49 = 0 ∧ c.extractLsb' 9 3 = 0 ∧ 1 ≤ n ∧ n ≤ 256 ∧ (∀ y ∈ hb.drop 24, y = 0)
            ∧ l.toNat % 256 = 0 ∧ addrOk l = true ∧ homeDie l = x.myDie
          (good → Issues (.schpub p s) st (x.modDie x.myDie (fun d => { d with
              schedule := some ⟨l, n, if dist = 0 then d.pfdist else dist, (wordAt hb 16).toNat, [], []⟩ })))
          ∧ (¬ good → Traps (.schpub p s) st .perm w)))
    ∧ (AGo { pg := p, cm := true, aregs := [s.toNat] } st →
      ((st.die st.myDie).schedule = none → Traps (.schadv p s) st .perm w)
      ∧ (∀ x, (st.die st.myDie).schedule = some x → ∃ u y, Issues (.schadv p s) st u ∧ u = st.modDie st.myDie (fun d => { d with schedule := some y })
          ∧ y.s = w.toNat ∧ y.list = x.list ∧ y.n = x.n ∧ y.dist = x.dist
          ∧ (∀ e, e ∈ y.entered ↔ e ∈ x.entered ∧ e.2 ∈ y.walk) ∧ (∀ j, j ∈ y.queued ↔ j ∈ x.queued ∧ j.step ∈ y.walk))))
  ∧ (∀ (d : DieId) (s : State),
    let die := d.pkg.val * 8
    ((∀ k, k < 8 → (s.die (die + k)).schedule = none) → exec (.scheduleFill d) s = .next s)
    ∧ (∀ x, (s.die die).schedule = some x →
      let put (t : State) (y : Schedule) : State := t.modDie die (fun d => { d with schedule := some y })
      (∀ k, x.walk.find? (fun k => !x.entered.contains (d.die.val, k)) = some k → ∃ jobs u, exec (.scheduleFill d) s = .next (put u { x with
          entered := x.entered ++ [(d.die.val, k)], queued := x.queued ++ jobs })
          ∧ (readRun die (x.list + BitVec.ofNat 64 (256 * (k % x.n))) 8 s = none → jobs = [] ∧ u = s)
          ∧ (∀ y, readRun die (x.list + BitVec.ofNat 64 (256 * (k % x.n))) 8 s = some y → u = y.2)
          ∧ (∀ j ∈ jobs, j.bridge = d.die.val ∧ j.step = k ∧ j.next < j.stop ∧ j.next % 4096 = 0))
      ∧ (x.walk.find? (fun k => !x.entered.contains (d.die.val, k)) = none → ∀ j, x.queued.find? (fun j => j.bridge == d.die.val) = some j →
        let n := nodeOf s (capOid j.cap).toNat
        let off := if capWlen j.cap = 0 then j.next else capWstart j.cap * 4096 + j.next
        (n % 8 ≠ d.die.val ∨ j.stop ≤ j.next → exec (.scheduleFill d) s = .next (put s { x with queued := x.queued.erase j }))
        ∧ (n % 8 = d.die.val → j.next < j.stop → issuing s d.pkg.val d.die.val = true → nodeOpen s d.pkg.val n = true →
          let y : Schedule := { x with queued := x.queued.map (fun q => if q = j then { j with next := j.next + 32 } else q) }
          (∀ c, sector? s d.pkg.val (capOid j.cap).toNat off = some c → (c.pending = true ∨ (s.pkg d.pkg.val).pts ≤ c.rts) →
            exec (.scheduleFill d) s = .next (put s y))
          ∧ ((∀ c, sector? s d.pkg.val (capOid j.cap).toNat off = some c → c.pending = false ∧ c.rts < (s.pkg d.pkg.val).pts) →
              (∀ r ∈ s.reqs, r.id ≠ s.nextId ∧ ¬ (r.op.isFill = true ∧ pkgOfCell r.cell = d.pkg.val ∧ r.oid = (capOid j.cap).toNat
                ∧ off / 32 ∈ askedSectors r ∧ r.discarded = false ∧ r.stage ≠ .returning)) →
              nodePresent s d.pkg.val n = true → ∃ t r, exec (.scheduleFill d) s = .next t ∧ t.reqs = s.reqs ++ [r] ∧ r.op = .fill ∧ r.cap = j.cap
                ∧ r.off = off ∧ r.node = n ∧ r.cell = die * 144 ∧ t.mem = s.mem ∧ t.cells = s.cells ∧ (t.die die).schedule = some y)))))

/-- SUCCESSOR_DECREMENT takes the edge off its completed predecessor and lowers the task's count; at count 0 the task becomes ready and its share enters the launching die's pool. With no such edge, or on another die, it changes nothing. SHARE_TRANSFER grants the first waiting share a ready-pool entry while fewer than 4096 stand there; a share whose die holds another world fails its task. AGEING_PROMOTION moves an entry that has waited its period in class 1 or more one class up. TASK_RECORD_FREE frees a record whose task ended 2^20 cycles ago and has no edge left; each does nothing where its condition does not hold. Where the rules leave a point open the statement takes the model's own choice: shares on other dies (notes/assumptions/53.md). (R238, R242, R245, R246, R15, R36) -/
def Obligations.DispatcherMovesTasksToReady : Prop :=
  ∀ (d : DieId) (s : State),
    let die := dieIx d
    let D := s.die die
    (∀ task, handleDie task ≠ die ∨ pendingEdge s d.pkg.val task = none → exec (.successorDecrement d task) s = .next s)
    ∧ (∀ task e i P, handleDie task = die → pendingEdge s d.pkg.val task = some (e, i, P) →
      let s1 := s.modDie e (fun k => { k with tasks := insertAt k.tasks i { P with succs := P.succs.erase task } })
      P.state = .complete ∧ task ∈ P.succs
      ∧ (taskOf s1 task = none → exec (.successorDecrement d task) s = .next s1)
      ∧ (∀ S, taskOf s1 task = some S →
        (S.state ≠ .waiting → exec (.successorDecrement d task) s = .next s1)
        ∧ (S.state = .waiting → 2 ≤ S.count → exec (.successorDecrement d task) s = .next (setTask s1 task { S with count := S.count - 1 }))
        ∧ (S.state = .waiting → S.count ≤ 1 → ∃ t, exec (.successorDecrement d task) s = .next t
          ∧ taskOf t task = some { S with count := 0, state := .ready } ∧ t.mem = s.mem ∧ t.cells = s.cells
          ∧ (spatialPoints S.levels 3 = 1 → (s1.die die).grants = [] → (s1.die die).ready.length < 4096 →
              (t.die die).ready = (s1.die die).ready ++ [⟨task, ctlClass S.control, s.cycle, s.cycle, 0, spatialPoints S.levels 2, []⟩]))))
    ∧ (∀ task p, D.grants = [] ∨ (∃ e es, D.grants = e :: es ∧ (e.handle ≠ task ∨ e.dpoint ≠ p.val)) ∨ 4096 ≤ D.ready.length →
        exec (.shareTransfer d task p) s = .next s)
    ∧ (∀ p e es T, D.grants = e :: es → e.dpoint = p.val → D.ready.length < 4096 → taskOf s e.handle = some T →
      (D.world = T.world → ∃ t, exec (.shareTransfer d e.handle p) s = .next t ∧ { t with dies := s.dies } = s
          ∧ t.die die = { D with grants := es, ready := D.ready ++ [{ e with since := s.cycle, time := s.cycle }] } ∧ (∀ j, j ≠ die → t.die j = s.die j))
      ∧ (D.world ≠ T.world → T.state.isFinal = false → T.succs = [] →
          ∃ t U, exec (.shareTransfer d e.handle p) s = .next t ∧ taskOf t e.handle = some U ∧ U.state = .failed))
    ∧ (∀ ix, D.ready.length ≤ ix → exec (.ageingPromotion d ix) s = .next s)
    ∧ (∀ ix (h : ix < D.ready.length), let e := D.ready[ix]
      let period := lookup 1048576 D.ages e.cls
      (1 ≤ e.cls → period ≤ s.cycle - e.since → exec (.ageingPromotion d ix) s =
          .next (s.setDie die { D with ready := D.ready.set ix { e with cls := e.cls - 1, since := s.cycle } }))
      ∧ (e.cls = 0 ∨ s.cycle - e.since < period → exec (.ageingPromotion d ix) s = .next s))
    ∧ (∀ r : Fin 4096, find? D.tasks r.val = none → exec (.taskRecordFree d r) s = .next s)
    ∧ (∀ (r : Fin 4096) T, find? D.tasks r.val = some T →
      let old : Prop := (T.state = .complete ∨ T.state = .failed ∨ T.state = .killed) ∧ T.succs = [] ∧ T.final + 2 ^ 20 ≤ s.cycle
      (old → exec (.taskRecordFree d r) s = .next (s.modDie die (fun k => { k with tasks := insertAt k.tasks r.val { T with state := .free } })))
      ∧ (¬ old → exec (.taskRecordFree d r) s = .next s))

/-- The head of the ready pool is an entry that is not passed over and that no other such entry precedes in the order of class, ready time, launching die and record. DISPATCH_DECISION with no request and no head changes nothing; a head that fits is dispatched: it leaves the pool, its task runs with its die marked and its heat drawn, and point c starts on the c-th candidate cell with every engine at the entry, first word 12 + c cycles later; a restore entry goes to restoring; a head of class 1 or more that does not fit waits; one of class 0 pre-empts the shortest prefix of the victims, by class from 3 down and the latest dispatch first, that makes up what it lacks, where slots are free for all their strands, and no share while leaving strands are enough. STRAND_START lets a starting strand run when its cycle has come, its format table read. STRAND_COMPLETE waits until all engines are at end and the strand's writes are performed at the completion scope, then counts the strand and frees its cell; the last strand completes the task; a severed home stops the strand and fails its task, once the record has room. Where the rules leave a point open the statement takes the model's own choice: hmax per home (notes/assumptions/46.md), absent nodes (notes/assumptions/49.md), when a restore entry appears (notes/assumptions/54.md). (R22, R33, R34, R35, R246, R247, R248, R249, R348) -/
def Obligations.DispatcherStartsAndEndsStrands : Prop :=
  (∀ (n : Nat) (l : List Victim), let cells (ws : List Victim) : Nat := (ws.map (·.cells)).sum
    (prefixFor n l = none ↔ cells l < n)
    ∧ ∀ vs, prefixFor n l = some vs → vs <+: l ∧ n ≤ cells vs ∧ ∀ ws, ws <+: l → n ≤ cells ws → vs.length ≤ ws.length)
  ∧ (∀ (s : State) (die : Nat), (victims s die).Pairwise (fun v w => w.cls < v.cls ∨ (w.cls = v.cls ∧ w.since ≤ v.since))
    ∧ ∀ v ∈ victims s die, 1 ≤ v.cls ∧ shareLeaving s die v.handle = false)
  ∧ (∀ (d : DieId) (s : State),
    let die := dieIx d
    let D := s.die die
    (∀ e, headEntry s die = some e → e ∈ D.ready ∧ passedOver s die e = false
      ∧ ∀ x ∈ D.ready, passedOver s die x = false → entryBefore x e = false)
    ∧ (requests s die = [] →
      (headEntry s die = none → exec (.dispatchDecision d) s = .next s)
      ∧ (∀ e, headEntry s die = some e →
        (roomFor s die < e.strands → e.cls ≠ 0 → exec (.dispatchDecision d) s = .next s)
        ∧ (roomFor s die < e.strands → e.cls = 0 →
          let free := roomFor s die + leavingCells s die
          let need (vs : List Victim) : Nat := (vs.map (fun v => slotsNeeded s die v.handle)).sum
          (e.strands ≤ free → exec (.dispatchDecision d) s = .next s)
          ∧ (free < e.strands → prefixFor (e.strands - free) (victims s die) = none → exec (.dispatchDecision d) s = .next s)
          ∧ (∀ vs, free < e.strands → prefixFor (e.strands - free) (victims s die) = some vs →
            ((freeSlots D die s.cycle).length < need vs → exec (.dispatchDecision d) s = .next s)
            ∧ (need vs ≤ (freeSlots D die s.cycle).length → ∃ t, exec (.dispatchDecision d) s = .next t ∧ t.mem = s.mem ∧ (t.die die).ready = D.ready
              ∧ (∀ v ∈ vs, ∀ ix ∈ shareCells s die v.handle, canHalt (s.cell ix) = true → (t.cell ix).preempt = some .classPreemption
                  ∧ (t.cell ix).status = (if (s.cell ix).status = .held then .held else .halting) ∧ (find? (t.die die).reserved ix).isSome = true)
              ∧ (∀ ix, (∀ v ∈ vs, ix ∉ shareCells s die v.handle) ∨ canHalt (s.cell ix) = false → t.cell ix = s.cell ix))))
        ∧ (e.strands ≤ roomFor s die → e.restore ≠ [] → exec (.dispatchDecision d) s = .next (s.modDie die (fun k => { k with
            ready := k.ready.erase e, restoring := k.restoring ++ [e] })))
        ∧ (e.strands ≤ roomFor s die → e.restore = [] → ∀ T h k, taskOf s e.handle = some T → drawHeat D = some (h, k) →
          let idle := idleNumbers s die
          let cells := (candidates idle (anchorOf T die idle)).take e.strands
          cells.length = e.strands ∧ ∃ t, exec (.dispatchDecision d) s = .next t ∧ t.mem = s.mem ∧ (t.die die).ready = D.ready.erase e
            ∧ taskOf t e.handle = some { T with
                state := .running, ddisp := T.ddisp ||| BitVec.ofNat 8 (2 ^ (die % 8)), heats := insertAt T.heats (die % 8) h }
            ∧ (∀ ix, (∀ i ∈ cells, ix ≠ die * 144 + i) → t.cell ix = s.cell ix)
            ∧ ∀ c (g : c < cells.length), let x := t.cell (die * 144 + cells[c])
              (s.cell (die * 144 + cells[c])).status = .idle ∧ x.status = .starting ∧ x.cpoint = c ∧ x.dpoint = e.dpoint ∧ x.handle = e.handle
              ∧ x.heat = h ∧ x.A.pc = T.entry ∧ x.V.pc = T.entry ∧ x.M.pc = T.entry ∧ x.startAt = s.cycle + 12 + c))))
  ∧ (∀ (cid : CellId) (s : State),
    let ix := cellIx cid
    let c := s.cell ix
    (c.status ≠ .starting ∨ s.cycle < c.startAt → exec (.strandStart cid) s = .next s)
    ∧ (c.status = .starting → c.startAt ≤ s.cycle → ∃ t, exec (.strandStart cid) s = .next t ∧ t.mem = s.mem
      ∧ (∀ j, j ≠ ix → t.cell j = s.cell j) ∧ { t.cell ix with formats := c.formats, curves := c.curves } = { c with status := .running }
      ∧ ∀ fb, readRun (dieOfCell ix) (c.kernel + 0xC0) 8 (s.setCell ix { c with status := .running }) = some fb →
          ∀ n, n < 16 → lookup 0 (t.cell ix).formats n = capAt fb.1 (16 * n)))
  ∧ (∀ (cid : CellId) (s : State),
    let ix := cellIx cid
    let c := s.cell ix
    (isCmd ix = true ∨ atRest s c = false ∨ (∃ k ∈ (s.die (dieOfCell ix)).copies, k.cell = ix ∧ k.orphan = false) →
      exec (.strandComplete cid) s = .next s)
    ∧ (isCmd ix = false → atRest s c = true → (∀ k ∈ (s.die (dieOfCell ix)).copies, k.cell = ix → k.orphan = true) →
      let r := releaseOf s ix (taskScope s c.handle) (fun o => !isRead s o)
      (r = .wait → exec (.strandComplete cid) s = .next s)
      ∧ (∀ t v, r = .severed t v →
        (recordRoom t (recordDie t ix) = false → ∃ u x, exec (.strandComplete cid) s = .next u ∧ (u.cell ix).status = .held
            ∧ (u.cell ix).stuck = some ⟨x, none, true⟩ ∧ x.value = v ∧ (∀ j, j ≠ ix → u.cell j = t.cell j))
        ∧ (recordRoom t (recordDie t ix) = true → ∃ u, exec (.strandComplete cid) s = .next u ∧ (u.cell ix).status ≠ .running
            ∧ ∀ T, taskOf t c.handle = some T → T.state.isFinal = false → T.succs = [] → ∃ V, taskOf u c.handle = some V ∧ V.state = .failed))
      ∧ (∀ t, r = .done t → ∃ u, exec (.strandComplete cid) s = .next u ∧ (u.cell ix).status = .idle
          ∧ u = freeCell (countDone (withdrawStrand t ix) (dieOfCell ix) (t.cell ix).handle (t.cell ix).dpoint) ix)))
  ∧ (∀ (u : State) (die p n : Nat) (h : Word) (T : Task), taskOf u h = some T → lookup 0 T.left p = n + 1 →
    (n ≠ 0 → taskOf (countDone u die h p) h = some { T with left := insertAt T.left p n })
    ∧ (n = 0 → (∀ e ∈ T.left, e.1 ≠ p → e.2 = 0) → T.left.Pairwise (fun a b => a.1 < b.1) → ∃ V, taskOf (countDone u die h p) h = some V
        ∧ V.state = .complete ∧ V.final = u.cycle ∧ V.dcomp = T.dcomp ||| BitVec.ofNat 8 (2 ^ (die % 8)) ∧ V.count = T.count)
    ∧ (n = 0 → (∃ e ∈ T.left, e.1 ≠ p ∧ e.2 ≠ 0) → ∃ V, taskOf (countDone u die h p) h = some V
        ∧ V.state = T.state ∧ V.dcomp = T.dcomp ||| BitVec.ofNat 8 (2 ^ (die % 8))))

/-- PREEMPTION of a strand asked to halt, its engines not all at end, halts it: every load whose data have not returned becomes a reissue record, its registers stay, memory stays. At end the request is dropped. STOW_COMPLETE, once no result or push is pending, records a deferred fault that has reached the strand, the first of which makes the stow a fault stow, and then puts the strand with its registers into the slot reserved for it and frees the cell. RESTORE of an entry places a strand on its own cell where that is idle, else on the lowest idle cell, with its heat, handle, engines, registers, masks, tiles and control registers and the format table of its kernel, and returns the slot, where no granule of memory is uncorrectable. RESULT_DELIVERY for an operation no strand of the die has changes nothing; the response of a store or atomic that has come back to the die reaches the strand where it stands. Events whose condition does not hold change nothing. Where the rules leave a point open the statement takes the model's own choice: bytes of the stow image and its restore (notes/assumptions/12.md), when a restore entry appears (notes/assumptions/54.md), the anchor of a restore (notes/assumptions/64.md), corners of the fault queue, the ready pool and the slots (notes/assumptions/68.md). (R201, R202, R203, R204, R205, R206, R207, R439) -/
def Obligations.PreemptionStowsAndRestores : Prop :=
  (∀ (cid : CellId) (why : StowCause) (s : State),
    let ix := cellIx cid
    let c := s.cell ix
    (isCmd ix = true ∨ c.status ≠ .halting ∨ c.preempt ≠ some why → exec (.preemption cid why) s = .next s)
    ∧ (isCmd ix = false → c.status = .halting → c.preempt = some why →
      (ended c = true → why ≠ .fault → ∃ t, exec (.preemption cid why) s = .next t ∧ t.mem = s.mem
          ∧ t.cell ix = { c with status := .running, preempt := none } ∧ ∀ j, j ≠ ix → t.cell j = s.cell j)
      ∧ (ended c = false ∨ why = .fault → c.granted = none → c.ringAt = none → c.joined = none →
        ∃ t, exec (.preemption cid why) s = .next t ∧ t.mem = s.mem ∧ (∀ j, j ≠ ix → t.cell j = s.cell j)
          ∧ (t.cell ix).status = .stowing ∧ (t.cell ix).aregs = c.aregs ∧ (t.cell ix).pregs = c.pregs ∧ (t.cell ix).vregs = c.vregs
          ∧ (t.cell ix).A = c.A ∧ (t.cell ix).landings = c.landings ∧ (t.cell ix).queues = c.queues
          ∧ (t.cell ix).ops.length = c.ops.length
          ∧ ∀ o ∈ c.ops, (abandons ix c o = true → { o with reissue := true, missed := none, tries := 0, leg := .out, performed := false, reply := none } ∈ (t.cell ix).ops)
              ∧ (abandons ix c o = false → o ∈ (t.cell ix).ops))))
  ∧ (∀ (cid : CellId) (s : State),
    let ix := cellIx cid
    let c := s.cell ix
    let die := dieOfCell ix
    (c.status ≠ .stowing ∨ c.landings ≠ [] → exec (.stowComplete cid) s = .next s)
    ∧ (∀ r rs, c.status = .stowing → c.landings = [] → c.reports = r :: rs →
      (recordRoom s (recordDie s ix) = false → exec (.stowComplete cid) s = .next s)
      ∧ (recordRoom s (recordDie s ix) = true → ∃ t, exec (.stowComplete cid) s = .next t ∧ (t.cell ix).status = .stowing
        ∧ (t.cell ix).reports = rs ∧ (t.cell ix).preempt = some .fault ∧ (∀ j, j ≠ ix → isCmd j = false → t.cell j = s.cell j)
        ∧ (c.preempt = some .fault → (t.cell ix).faultc = c.faultc ∧ (t.cell ix).faultv = c.faultv)
        ∧ (c.preempt ≠ some .fault → (t.cell ix).faultc = faultWord 0 (codeNum r.code) false ∧ (t.cell ix).faultv = r.val)))
    ∧ (c.status = .stowing → c.landings = [] → c.reports = [] → ∀ slot why,
      find? (s.die die).reserved ix = some slot → c.preempt = some why → ∃ t x, exec (.stowComplete cid) s = .next t
        ∧ (t.cell ix).status = .idle ∧ (t.die die).stowed = (s.die die).stowed ++ [x] ∧ x.slot = slot ∧ x.cause = why ∧ x.handle = c.handle
        ∧ x.cell = ix ∧ x.held = c.fault.isSome
        ∧ x.ctx = { c with A := saveEngine s.cycle c.A, V := saveEngine s.cycle c.V, M := saveEngine s.cycle c.M }))
  ∧ (∀ (d : DieId) (k : Nat) (s : State),
    let die := dieIx d
    let D := s.die die
    (D.restoring.length ≤ k → exec (.restore d k) s = .next s)
    ∧ (∀ (h : k < D.restoring.length), let e := D.restoring[k]
      let xs := D.stowed.filter (fun x => e.restore.contains x.slot)
      ((idleNumbers s die).length < xs.length → exec (.restore d k) s = .next s)
      ∧ (∀ x, xs = [x] → idleNumbers s die ≠ [] → (x.cell % 144 ∉ idleNumbers s die → x.ctx.cpoint < 144) → x.ctx.fault = none → s.eccBad = [] →
        let ix := die * 144 + (if x.cell % 144 ∈ idleNumbers s die then x.cell % 144 else (idleNumbers s die).headD 0)
        ∃ t, exec (.restore d k) s = .next t ∧ t.mem = s.mem ∧ (∀ j, j ≠ ix → t.cell j = s.cell j)
          ∧ (t.die die).restoring = D.restoring.erase e ∧ (t.die die).stowed = D.stowed.filter (fun y => y.slot ≠ x.slot)
          ∧ (t.cell ix).status = .running ∧ (t.cell ix).heat = x.ctx.heat ∧ (t.cell ix).handle = x.ctx.handle
          ∧ (∀ e, { (t.cell ix).engine e with bregs := [], nextIssue := 0 } = { x.ctx.engine e with bregs := [], nextIssue := 0, wait := .none }
              ∧ ((t.cell ix).engine e).nextIssue = (x.ctx.engine e).nextIssue + s.cycle)
          ∧ (t.cell ix).ops = x.ctx.ops ∧ (t.cell ix).queues = x.ctx.queues ∧ (t.cell ix).ast = x.ctx.ast ∧ (t.cell ix).wdogCount = 0
          ∧ (let c := t.cell ix
            let once {α : Type} (m : SMap α) : Prop := (m.map Prod.fst).Nodup
            c.engctl = x.ctx.engctl ∧ c.vctl = x.ctx.vctl ∧ c.slip = x.ctx.slip ∧ c.pgahead = x.ctx.pgahead ∧ c.fmtbase = x.ctx.fmtbase
            ∧ c.faultc = x.ctx.faultc ∧ c.faultv = x.ctx.faultv ∧ c.wdogLimit = x.ctx.wdogLimit ∧ c.iret = x.ctx.iret ∧ c.qmin = x.ctx.qmin
            ∧ c.qcap = x.ctx.qcap ∧ c.versions = x.ctx.versions ∧ c.tags = x.ctx.tags ∧ c.landings = x.ctx.landings
            ∧ (once x.ctx.aregs → ∀ r, c.readA r = x.ctx.readA r) ∧ (once x.ctx.pregs → ∀ r, c.readP r = x.ctx.readP r)
            ∧ (once x.ctx.kregs → ∀ r, c.readK r = x.ctx.readK r) ∧ (once x.ctx.vregs → ∀ r, c.readV r = x.ctx.readV r)
            ∧ (once x.ctx.mregs → ∀ r, c.readM r = x.ctx.readM r) ∧ (once x.ctx.accs → ∀ r, c.tile r = x.ctx.tile r)
            ∧ (∀ e, once (x.ctx.engine e).bregs → ∀ r, c.readB e r = x.ctx.readB e r)
            ∧ (∃ u, u.mem = s.mem ∧ u.heats = s.heats ∧ u.eccBad = s.eccBad ∧ u.pkgs = s.pkgs
              ∧ ∀ fb, readRun die (x.ctx.kernel + 0xC0) 8 u = some fb → ∀ n, n < 16 → lookup 0 c.formats n = capAt fb.1 (16 * n))))))
  ∧ (∀ (d : DieId) (id : Nat) (s : State),
    (strandAt s (dieIx d) id = none → exec (.resultDelivery d id) s = .next s)
    ∧ (∀ ix c o, strandAt s (dieIx d) id = some (ix, c) → c.op? id = some o →
      (∃ data e, o.kind = .store data e) ∨ (∃ op b e, o.kind = .scatAdd op b e) ∨ (∃ op r b e, o.kind = .rmw op r b e) →
      (∀ r, o.reply = some r → o.leg = .returned → onRing s (pkgOfCell ix) o.id = false →
          exec (.resultDelivery d id) s = .next (onStrand s ix o.id (fun c => c.take o s.cycle r)))
      ∧ (o.reply = none → atHome s ix o = true → mayPerform s ix c o = false → exec (.resultDelivery d id) s = .next s))
    ∧ (∀ ix c o r z, strandAt s (dieIx d) id = some (ix, c) → c.op? id = some o → o.kind = .load r z → exec (.resultDelivery d id) s = .next s))

/-- Each event that writes a field of the die window sets that field and nothing else where R352 to R355 accept the value (local and ptroot only while the die is quiet, a change of local emptying the pool-cache part of the die's plane, lrbase and lrm only while the launch ring is empty, fqbase only for a region of the command cell's vault and while the fault queue is empty, a stow slot entry only while its slot holds no strand) and changes nothing otherwise. A pending listen word starts a topology change. A key word is written while its entry is disarmed; arming zeroes the counter, and entry 0 with kind 2 gives the domain key; disarming zeroes the key, and with no such entry armed the domain has no key. A pre-emption request sets its bit for a running share. A window write at the offset of a field does what that field's event does; a write to a read-only field or a misaligned one changes nothing. Where the rules leave a point open the statement takes the model's own choice: one domain key (notes/assumptions/21.md), when a port adopts a version (notes/assumptions/50.md), what the caches keep (notes/assumptions/61.md), when links are dark, paused and rekeyed (notes/assumptions/62.md), reserved values of a key entry (notes/assumptions/70.md). (R343, R352, R353, R354, R355, R360, R335) -/
def Obligations.WindowStoresObeyTheirFields : Prop :=
  ∀ (d : DieId) (v : Word) (s : State),
    let die := dieIx d
    let D := s.die die
    let sets (i : Instr) (ok : Prop) (f : Die → Die) : Prop := (ok → exec i s = .next (s.modDie die f)) ∧ (¬ ok → exec i s = .next s)
    let quiet : Prop := quietDie s die = true
    let empty : Prop := D.lrbase = 0 ∨ lrIndex s die 0 = lrIndex s die 8
    (v.toNat ≤ 48 ∧ quiet → exec (.writeLocal d v) s = .next (dropPlane (s.modDie die (fun k => { k with local_ := v.toNat })) (die / 8) (die % 8)))
    ∧ (¬ (v.toNat ≤ 48 ∧ quiet) → exec (.writeLocal d v) s = .next s)
    ∧ sets (.writePtroot d v) (v.toNat < 2 ^ 36 ∧ v.toNat % 512 = 0 ∧ quiet) (fun k => { k with ptroot := v.toNat })
    ∧ sets (.writeRwin d v) (v.toNat ≤ 1024) (fun k => { k with rwin := v.toNat })
    ∧ sets (.writeBwin d v) (v.toNat ≤ 1024) (fun k => { k with bwin := v.toNat })
    ∧ sets (.writePfdist d v) (1 ≤ v.toNat ∧ v.toNat ≤ 4) (fun k => { k with pfdist := v.toNat })
    ∧ sets (.writeLrbase d v) (v.toNat % 256 = 0 ∧ empty) (fun k => { k with lrbase := v })
    ∧ sets (.writeLrm d v) (4 ≤ v.toNat ∧ v.toNat ≤ 12 ∧ empty) (fun k => { k with lrm := v.toNat })
    ∧ (D.faultWait = [] → sets (.writeFqbase d v) ((v = 0 ∨ (addrOk v = true ∧ aVault v = true ∧ homeDie v = die ∧ vaultOf v = 0
          ∧ ∃ k r, regionAt D 0 (vaultByte v) = some (k, r) ∧ r.rd = true ∧ r.wr = true ∧ vaultByte v + 16416 ≤ (r.base + r.size) * 1024))
        ∧ (D.fqbase = 0 ∨ fqByte s die 0 = fqByte s die 8)) (fun k => { k with fqbase := v }))
    ∧ (∀ ix : Fin 512, let old := lookup 0 D.slots ix.val
        sets (.writeStowSlotList d ix v) (old = 0 ∨ old = v ∨ slotHeld D die old = false) (fun k => { k with
          slots := insertAt k.slots ix.val v, slotsWas := some (s.cycle, k.slotsSeen s.cycle) })
        ∧ exec (.windowWrite d (BitVec.ofNat 48 (0x1000 + 8 * ix.val)) v) s = exec (.writeStowSlotList d ix v) s)
    ∧ (listenOk s die v = false → exec (.writeListenPending d v) s = .next s)
    ∧ (listenOk s die v = true → ∃ t, exec (.writeListenPending d v) s = .next t ∧ t.die die = { D with listenPending := some v } ∧ t.changing = true
        ∧ (s.changing = false → t.version = s.version + 1 ∧ t.again = false ∧ t.told = s.topo)
        ∧ (s.changing = true → t.version = s.version ∧ t.told = s.told
            ∧ t.again = (s.again || (portVersion s (die / 8) (die % 8) == s.version))) ∧ t.mem = s.mem ∧ t.cells = s.cells ∧ ∀ j, j ≠ die → t.die j = s.die j)
    ∧ (∀ ix : Fin 64, let k := lookup KeyEntry.reset D.keys ix.val
      let put (x : KeyEntry) (t : State) : State := t.modDie die (fun y => { y with keys := insertAt y.keys ix.val x })
      let at_ (n : Nat) : BitVec 48 := BitVec.ofNat 48 (0x3000 + 64 * ix.val + n)
      (∀ w : Fin 4, (k.armed = true → exec (.writeKey d ix w v) s = .next s)
        ∧ (k.armed = false → ∃ K : BitVec 256, exec (.writeKey d ix w v) s = .next (put { k with key := K } s) ∧ K.extractLsb' (64 * w.val) 64 = v
            ∧ ∀ u, u < 4 → u ≠ w.val → K.extractLsb' (64 * u) 64 = k.key.extractLsb' (64 * u) 64)
        ∧ exec (.windowWrite d (at_ (16 + 8 * w.val)) v) s = exec (.writeKey d ix w v) s)
      ∧ (let kind := v.extractLsb' 0 2
        let world := v.extractLsb' 16 16
        let legal : Prop := kind ≠ 0 ∧ (kind = 2 → ix.val = 0) ∧ (kind = 1 → ix.val ≠ 0 ∧ world = D.world)
        let armed : KeyEntry := ⟨v.extractLsb' 32 32, world, true, kind, 0, k.key⟩
        (legal → exec (.keyArm d ix v) s = .next (if ix.val = 0 ∧ kind = 2 then
            { put armed s with domKey := some k.key }.modPkg d.pkg.val (fun q => { q with
              lit := true, rekey := if q.lit then List.range 8 else q.rekey }) else keyGone (put armed s)))
        ∧ (¬ legal → exec (.keyArm d ix v) s = .next s)
        ∧ exec (.keyDisarm d ix v) s = .next (keyGone (put { k with
            fixed := v.extractLsb' 32 32, world := world, armed := false, kind := 0, key := 0 } s))
        ∧ (kind ≠ 0 → exec (.windowWrite d (at_ 0) v) s = exec (.keyArm d ix v) s)
        ∧ (kind = 0 → exec (.windowWrite d (at_ 0) v) s = exec (.keyDisarm d ix v) s)
        ∧ exec (.windowWrite d (at_ 8) v) s = .next s))
    ∧ (∀ (r : Fin 4096) (b : Fin 8),
      (find? D.tasks r.val = none → exec (.writePreemptRequest d r b) s = .next s)
      ∧ (∀ T, find? D.tasks r.val = some T →
        (T.state.isFinal = true → exec (.writePreemptRequest d r b) s = .next s)
        ∧ (T.state.isFinal = false → ∃ x, exec (.writePreemptRequest d r b) s = .next (s.modDie die (fun k => { k with
            tasks := insertAt k.tasks r.val { T with request := x } }))
            ∧ (shareRuns s (mkHandle die r.val T.gen) (die / 8 * 8 + b.val) = true → x = T.request ||| BitVec.ofNat 8 (2 ^ b.val))
            ∧ (shareRuns s (mkHandle die r.val T.gen) (die / 8 * 8 + b.val) = false → x = T.request)))
      ∧ exec (.windowWrite d (BitVec.ofNat 48 (0x200020 + 512 * r.val)) (BitVec.ofNat 64 (2 ^ b.val))) s = exec (.writePreemptRequest d r b) s)
    ∧ ((∃ e ∈ s.dies, ∃ k, dieKey s e.1 = some k) → keyGone s = s) ∧ ((∀ e ∈ s.dies, dieKey s e.1 = none) → keyGone s = { s with domKey := none })
    ∧ exec (.windowWrite d 0x0 v) s = exec (.writeLocal d v) s ∧ exec (.windowWrite d 0x8 v) s = exec (.writePtroot d v) s
    ∧ exec (.windowWrite d 0x10 v) s = exec (.writeRwin d v) s ∧ exec (.windowWrite d 0x18 v) s = exec (.writeBwin d v) s
    ∧ exec (.windowWrite d 0x20 v) s = exec (.writePfdist d v) s ∧ exec (.windowWrite d 0x28 v) s = exec (.writeFqbase d v) s
    ∧ exec (.windowWrite d 0x30 v) s = exec (.writeLrbase d v) s ∧ exec (.windowWrite d 0x38 v) s = exec (.writeLrm d v) s
    ∧ exec (.windowWrite d 0x2008 v) s = exec (.writeListenPending d v) s
    ∧ (∀ off : BitVec 48, off.toNat % 8 ≠ 0 ∨ off = 0x2000 ∨ (0x4000 ≤ off.toNat ∧ off.toNat < 0x200000) → exec (.windowWrite d off v) s = .next s)

/-- A doorbell of a die that serves and whose ring is registered, on the IDE stream it is bound to, with a tail that moves the tail forward, stores the tail in the ring header under the package's pts as write time and sets the command cell's latch; a refused doorbell, and one with the tail in force, only leaves its status; on another stream nothing is taken. A ring write puts 8 bytes among the ring's entries and nowhere else. A debugger read gives a granule's bytes where world and heat match and the heat is neither cold nor retired, zeros otherwise, and is unsupported where the package's dies do not run. A counter read gives one of the twenty counters. The host moves the head of its log. A world's serial becomes free on confirmation unless a die still uses it. After reset every SPDM request puts one message in the mailbox, GET_MEASUREMENTS the measurement asked for, KEY_EXCHANGE, FINISH and END_SESSION open, secure and end the session, and a key of an IDE stream is set over a secured session only. A package that is not up answers none of the requests that need its dies. Where the rules leave a point open the statement takes the model's own choice: free values (notes/assumptions/7.md), mailboxes and doorbell status (notes/assumptions/57.md). (R257, R193, R269, R382, R383, R389, R390, R394, R395, R397) -/
def Obligations.HostRequestsAreAnswered : Prop :=
  (∀ (d : DieId) (z : Option (Fin 9)) (s : State) (x y : Word),
    let die := dieIx d
    let D := s.die die
    let p := d.pkg.val
    let up : Prop := (s.pkg p).phase = .released ∨ (s.pkg p).phase = .ready
    let bound : Prop := D.tdi = .configUnlocked ∨ D.tdi = .error
      ∨ ∃ k, z = some k ∧ D.stream = some k.val ∧ (find? (s.pkg p).ideKeys k.val).isSome = true
    let timed (u : State) (w : Word) : Prop := lookup 0 (u.die (homeDie w)).hmax (homePart w)
      = max (s.pkg p).pts (lookup 0 (s.die (homeDie w)).hmax (homePart w))
    (¬ up ∨ ¬ bound → exec (.launchDoorbell d ⟨z, x⟩) s = .next s ∧ exec (.hostRingWrite d x ⟨z, y⟩) s = .next s)
    ∧ (up → bound →
      let t := x.toNat % 4096
      let head := lrIndex s die 8
      let tail := lrIndex s die 0
      let n := 2 ^ D.lrm
      let refused (b : BitVec 3) : Prop := exec (.launchDoorbell d ⟨z, x⟩) s = .next (s.modDie die (fun k => { k with lastDoorbell := b }))
      (D.tdi = .configLocked → refused 5)
      ∧ (D.tdi = .error → refused 1)
      ∧ (D.tdi ≠ .configLocked → D.tdi ≠ .error → D.reassign.isSome = true → refused 1)
      ∧ ((D.tdi = .run ∨ D.tdi = .configUnlocked) → D.reassign = none →
        (D.lrbase = 0 → refused 3)
        ∧ (D.lrbase ≠ 0 → head < n → tail < n →
          (n ≤ t → refused 1)
          ∧ (t < n → (t + n - head) % n < (tail + n - head) % n → refused 1)
          ∧ (t < n → t = tail → refused 0)
          ∧ (t < n → t ≠ tail → (tail + n - head) % n ≤ (t + n - head) % n → ∃ u, exec (.launchDoorbell d ⟨z, x⟩) s = .next u
              ∧ u.mem = Memory.write s.mem D.lrbase.toNat (leBytes t 8) ∧ (u.cell (die * 144)).latch = true
              ∧ { u.die die with hmax := D.hmax } = { D with lastDoorbell := 0 } ∧ timed u D.lrbase
              ∧ (∀ j, j ≠ die * 144 → u.cell j = s.cell j)))
        ∧ (D.lrbase ≠ 0 → 256 ≤ x.toNat → x.toNat + 8 ≤ 256 + n * 256 → ∃ u, exec (.hostRingWrite d x ⟨z, y⟩) s = .next u
            ∧ u.mem = Memory.write s.mem (D.lrbase + x).toNat (leBytes y.toNat 8) ∧ { u with mem := s.mem, dies := s.dies } = s
            ∧ timed u (D.lrbase + x) ∧ ∀ j, { u.die j with hmax := (s.die j).hmax } = s.die j)
        ∧ (D.lrbase = 0 ∨ x.toNat < 256 ∨ 256 + n * 256 < x.toNat + 8 → exec (.hostRingWrite d x ⟨z, y⟩) s = .next s)))
    ∧ (∀ (w : BitVec 16) (h : Heat), (¬ up → exec (.debuggerRead d x w h) s = .next (s.modPkg p (fun k => { k with debugger := .unsupported })))
      ∧ (up → ∃ bs, exec (.debuggerRead d x w h) s = .next (s.modPkg p (fun k => { k with debugger := .bytes bs }))
      ∧ (let a := dieBase die + 2 ^ 53 + x.toNat % 2 ^ 30 / 32 * 32
        (D.reassign = none → w = D.world → h ≠ 0 → find? D.retired h.toNat = none → lookup 0 s.heats (a / 32) = h → bs = Memory.read s.mem a 32)
        ∧ (D.reassign.isSome = true ∨ w ≠ D.world ∨ h = 0 ∨ (find? D.retired h.toNat).isSome = true ∨ lookup 0 s.heats (a / 32) ≠ h → bs = List.replicate 32 0))))
    ∧ (∀ k, (up → k < 20 → exec (.counterRead d k) s = .next (s.modPkg p (fun q => { q with
            counterBox := .value ((lookup 0 D.counters k).setWidth 64) })))
        ∧ (¬ up ∨ 20 ≤ k → exec (.counterRead d k) s = .next (s.modPkg p (fun q => { q with counterBox := .unsupported })))))
  ∧ (∀ (p : PkgId) (s : State) (v : Word),
    let K := s.pkg p.val
    let up : Prop := K.phase = .released ∨ K.phase = .ready
    let answers (i : Instr) (f : Session → Session) : Prop := (K.phase = .inReset → exec i s = .next s)
      ∧ (K.phase ≠ .inReset → ∃ bs, exec i s = .next ({ s with free := s.free + 1 }.modPkg p.val (fun q => { q with doe := .bytes bs, session := f q.session })))
    (up → exec (.hostLogHeadWrite p v) s = .next (s.modPkg p.val (fun q => { q with logHead := v.setWidth 8 })))
    ∧ (¬ up → exec (.hostLogHeadWrite p v) s = .next s)
    ∧ (∀ n : BitVec 15, let w := BitVec.ofNat 16 (p.val * 2048 + n.toNat)
      ((∀ i, i < 8 → (s.die (p.val * 8 + i)).world ≠ w ∧ ∀ r, (s.die (p.val * 8 + i)).reassign = some r → r.world ≠ w) →
        exec (.serialConfirmation p n) s = .next (s.modPkg p.val (fun q => { q with serials := q.serials.filter (· != n.toNat) })))
      ∧ (∀ i, i < 8 → (s.die (p.val * 8 + i)).world = w → exec (.serialConfirmation p n) s = .next s))
    ∧ answers (.getVersion p) id ∧ answers (.getCapabilities p) id ∧ answers (.negotiateAlgorithms p) id ∧ answers (.getDigests p) id
    ∧ answers (.getCertificate p) id ∧ answers (.challenge p) id ∧ answers (.keyUpdate p) id ∧ answers (.keyExchange p) (fun _ => .handshake)
    ∧ answers (.finish p) (fun x => if x = .none then .none else .secure) ∧ answers (.endSession p) (fun _ => .none)
    ∧ (K.phase = .inReset → ∀ k, exec (.getMeasurements p k) s = .next s)
    ∧ (K.phase = .inReset ∨ K.session ≠ .secure → exec (.ideKmRequest p v) s = .next s)
    ∧ (K.phase ≠ .inReset →
      (∀ k, k < 8 → exec (.getMeasurements p (k + 1)) s = .next (s.modPkg p.val (fun q => { q with doe := .measurements [K.meas.getD k 0] })))
      ∧ (∀ k, k = 0 ∨ 8 < k → ∃ ms, exec (.getMeasurements p k) s = .next (s.modPkg p.val (fun q => { q with doe := .measurements ms }))
          ∧ ms.length = 8 ∧ ∀ j, j < 8 → ms.getD j 0 = K.meas.getD j 0)
      ∧ (K.session = .secure → ∃ key, exec (.ideKmRequest p v) s = .next ({ s with free := s.free + 32 }.modPkg p.val (fun q => { q with
          ideKeys := insertAt q.ideKeys (v.toNat % 9) key })))))

/-- LOCK takes a die that is unlocked to CONFIG_LOCKED under the next free serial, START a locked one to RUN, STOP any to unlocked, and a configuration write in a locked state to ERROR; a request in the wrong state is answered INVALID_INTERFACE_STATE, one of a package not up as unsupported, and one during a reassignment waits. A reassignment first stops the command cell, then gives the die its new world and state once nothing it issued is unanswered, and takes the requests that waited; of its memory only image and top page table read non-zero, the image as the package holds it, and memory of other dies is as before. Interface reports and states are answered. PACKAGE_RESET of a package in reset, safe talkative or severed releases its dies where its image verifies and otherwise leaves it safe talkative, with no measurement where its self-test failed; RELOAD_START writes into the load window of a safe talkative package only, puts such a package into reset and is refused elsewhere; FIRMWARE_READY locks the measurements, makes the package ready and announces it with the next topology version, its table unchanged. Where the rules leave a point open the statement takes the model's own choice: the empty image at reset (notes/assumptions/4.md), the topology at reset and how nodes join (notes/assumptions/6.md), free values (notes/assumptions/7.md), how a package comes up (notes/assumptions/13.md), the byte order of the signature (notes/assumptions/22.md), the steps of a reassignment (notes/assumptions/58.md). (R383, R384, R385, R386, R387, R389, R390, R396, R397, R398, R399) -/
def Obligations.WorldsChangeAndPackagesComeUp : Prop :=
  (∀ (d : DieId) (z : Fin 9) (s : State),
    let die := dieIx d
    let D := s.die die
    let p := d.pkg.val
    let up : Prop := (s.pkg p).phase = .released ∨ (s.pkg p).phase = .ready
    let answers (i : Instr) (u : State) (a : Answer) : Prop :=
      exec i s = .next (u.modPkg p (fun q => { q with tdisp := insertAt q.tdisp (die % 8) a }))
    let starts (i : Instr) (u : State) (r : Reassign) : Prop := exec i s = .next (u.modDie die (fun k => { k with reassign := some r }))
    let waits (i : Instr) (r : TdiReq) : Prop := exec i s = .next (s.modDie die (fun k => { k with waiting := k.waiting ++ [r] }))
    (¬ up → answers (.lockInterface ⟨d, z⟩) s .unsupported ∧ answers (.startInterface d) s .unsupported ∧ answers (.stopInterface d) s .unsupported
      ∧ answers (.getDeviceInterfaceReport d) s .unsupported ∧ answers (.getDeviceInterfaceState d) s .unsupported)
    ∧ (up → D.reassign.isSome = true → waits (.lockInterface ⟨d, z⟩) (.lock z.val) ∧ waits (.startInterface d) .start ∧ waits (.stopInterface d) .stop
      ∧ ∀ o v, waits (.lockedConfigWrite d o v) .toError)
    ∧ (up → D.reassign = none →
      (D.tdi ≠ .configUnlocked → answers (.lockInterface ⟨d, z⟩) s .invalidInterfaceState)
      ∧ (D.tdi = .configUnlocked → ∀ n, nextSerial (s.pkg p) = some n → 1 ≤ n ∧ n ≤ 2047 ∧ n ∉ (s.pkg p).serials
          ∧ starts (.lockInterface ⟨d, z⟩) (s.modPkg p (fun q => { q with serials := n :: q.serials, lastSerial := n }))
              ⟨1, BitVec.ofNat 16 (p * 2048 + n), .configLocked, some z.val, true⟩)
      ∧ (D.tdi = .configUnlocked → nextSerial (s.pkg p) = none → exec (.lockInterface ⟨d, z⟩) s = .next (appendLog
          (s.modPkg p (fun q => { q with tdisp := insertAt q.tdisp (die % 8) .unspecified })) p (worldRecord s die 7 (die % 8 + 1) 0)))
      ∧ (D.tdi ≠ .configLocked → answers (.startInterface d) s .invalidInterfaceState)
      ∧ (D.tdi = .configLocked → answers (.startInterface d) (s.modDie die (fun k => { k with tdi := .run })) .tdispOk)
      ∧ starts (.stopInterface d) s ⟨1, 0, .configUnlocked, none, true⟩
      ∧ (∀ o v, (D.tdi = .configLocked ∨ D.tdi = .run → starts (.lockedConfigWrite d o v) s ⟨1, 0, .error, none, false⟩)
          ∧ (D.tdi = .configUnlocked ∨ D.tdi = .error → exec (.lockedConfigWrite d o v) s = .next s)))
    ∧ (up → (∃ bs, answers (.getDeviceInterfaceReport d) { s with free := s.free + 1 } (.bytes bs))
      ∧ answers (.getDeviceInterfaceState d) s (.value (match D.tdi with | .configUnlocked => 0 | .configLocked => 1 | .run => 2 | .error => 3)))
    ∧ (D.reassign = none → exec (.reassignmentComplete d) s = .next s)
    ∧ (∀ r, D.reassign = some r → r.step = 1 → ∃ t, exec (.reassignmentComplete d) s = .next t ∧ (t.die die).reassign = some { r with step := 3 }
        ∧ (t.die die).copies = [] ∧ (t.cell (die * 144)).status = .stopped)
    ∧ (∀ r, D.reassign = some r → r.step ≠ 1 →
      let open_ : Prop := (∃ q ∈ s.reqs, q.cell / 144 = die ∧ q.answer = .none ∧ q.discarded = false)
        ∨ ∃ o ∈ (s.cell (die * 144)).ops, o.kind ≠ .pool ∧ o.dead = false
      (open_ → exec (.reassignmentComplete d) s = .next s)
      ∧ (¬ open_ → MemOk s →
          (∀ c ∈ (s.pkg p).image, c.1 < 2 ^ 24) → imageField (s.pkg p).image 8 8 ≤ 2 ^ 24 → ∃ t, exec (.reassignmentComplete d) s = .next (takeWaiting die t D.waiting)
          ∧ (t.die die).stream = r.stream ∧ (t.die die).world = r.world ∧ (t.die die).tdi = r.tdi ∧ (t.die die).reassign = none ∧ (t.die die).regions = []
          ∧ (t.cell (die * 144)).status = .running ∧ (∀ j, j / 144 = die → j ≠ die * 144 → t.cell j = Cell.reset)
          ∧ (∀ j, j / 144 ≠ die → t.cell j = s.cell j)
          ∧ (∀ a, a < dieBase die ∨ dieBase die + 2 ^ 53 ≤ a → Memory.byte t.mem a = Memory.byte s.mem a)
          ∧ (∀ a, dieBase die + 512 ≤ a → a < dieBase die + 2 ^ 53 → (a < dieBase die + 2 ^ 24 ∨ dieBase die + 2 ^ 25 ≤ a) → Memory.byte t.mem a = 0)
          ∧ (Memory.wf (s.pkg p).image = true → ∀ a, a < imageField (s.pkg p).image 8 8 →
              Memory.byte t.mem (imageAddr die + a) = Memory.byte (s.pkg p).image a)
          ∧ ∀ q ∈ t.reqs, q.cell / 144 ≠ die)))
  ∧ (∀ (p : PkgId) (s : State) (v : Reload),
    let K := s.pkg p.val
    let k1 : Package := { K with loadWin := if K.phase = .safeTalkative then Memory.write K.loadWin v.off.toNat (v.bytes.take (2 ^ 24 - v.off.toNat)) else K.loadWin }
    (K.phase ≠ .inReset → K.phase ≠ .safeTalkative → K.severSelf = false → exec (.packageReset p) s = .next s)
    ∧ (K.phase = .inReset ∨ K.phase = .safeTalkative ∨ K.severSelf = true → ∃ t, exec (.packageReset p) s = .next t
      ∧ (let src := if K.useLoad then K.loadWin else K.image
        let good : Prop := K.faulty = none ∧ imageOk p.val src = true
        (good → (t.pkg p.val).phase = .released ∧ ∀ i, i < 8 → (t.cell ((p.val * 8 + i) * 144)).status = .running
            ∧ (t.cell ((p.val * 8 + i) * 144)).A.pc = BitVec.ofNat 64 (imageAddr (p.val * 8 + i)) + BitVec.ofNat 64 (imageField src 0x10 8))
        ∧ (¬ good → (t.pkg p.val).phase = .safeTalkative ∧ t.mem = s.mem ∧ ∀ i, i < 1152 → t.cell (p.val * 1152 + i) = Cell.reset)
        ∧ (∀ j, j / 1152 ≠ p.val → t.cell j = s.cell j) ∧ (∀ q, q ≠ p.val → t.pkg q = s.pkg q) ∧ (t.pkg p.val).pts = 0 ∧ (t.pkg p.val).version = s.version ∧ (t.pkg p.val).severSelf = false
        ∧ (t.pkg p.val).measLocked = false ∧ (∀ f, K.faulty = some f → ∀ i, (t.pkg p.val).meas.getD i 0 = 0) ∧ (t.pkg p.val).selfTest.length = 512
        ∧ ((t.pkg p.val).selfTest.headD 0 = match K.faulty with | some f => BitVec.ofNat 64 (2 ^ 24 + f % 65536) | none => 0)
        ∧ ((∀ e ∈ t.dies, dieKey t e.1 = none) → t.domKey = none)))
    ∧ (K.phase ≠ .released → exec (.firmwareReady p) s = .next s)
    ∧ (K.phase = .released → ∃ t, exec (.firmwareReady p) s = .next t ∧ (t.pkg p.val).phase = .ready ∧ (t.pkg p.val).measLocked = true ∧ p.val ∈ t.topo.present
        ∧ (4 ≤ K.meas.length → (t.pkg p.val).meas.take 4 = K.meas.take 4) ∧ (t.pkg p.val).topo = K.topo ∧ t.changing = true
        ∧ (s.changing = false → t.version = s.version + 1 ∧ t.told = t.topo) ∧ (s.changing = true → t.version = s.version ∧ t.again = true) ∧ t.mem = s.mem ∧ t.cells = s.cells ∧ t.dies = s.dies)
    ∧ (v.control.getLsbD 0 = false → exec (.reloadStart p v) s = .next (s.setPkg p.val k1))
    ∧ (v.control.getLsbD 0 = true → K.phase = .safeTalkative → exec (.reloadStart p v) s = .next (s.setPkg p.val { k1 with
        phase := .inReset, useLoad := true, reloadRefused := false }))
    ∧ (v.control.getLsbD 0 = true → K.phase ≠ .safeTalkative → exec (.reloadStart p v) s = .next (s.setPkg p.val { k1 with reloadRefused := true })))

/-- A V word of these groups that gets its operands (registers, queue entries, immediates or lanes) with its guard true issues: the entries it pops leave their queues, its pc moves past the word, and nothing else changes but the result under way. In the active lanes the result is that of Table 3, of R143 to R146 for the type: integer results wrap to the element's width and are sign-extended into their lanes, vabs and vneg of the most negative value saturate and raise of and nx; floating results are rounded once, with their flags. vsel writes every lane. Rounding picks one of the two neighbours of the exact value by its mode, a stochastic one by the generator's word, with inexact, overflow and underflow; a sum, difference, product or fused sum of finite operands is the exact one rounded once, NaNs give the canonical NaN and a signalling one sets invalid. Where the rules leave a point open the statement takes the model's own choice: rnd of words that do not round (notes/assumptions/29.md), estimates draw no number (notes/assumptions/30.md), the landing STALL_SHORT speaks of (notes/assumptions/34.md). (R142, R143, R144, R145, R146, R135, R137, R139, R118, R126, R127, R129) -/
def Obligations.VectorArithmeticLandsInItsLanes : Prop :=
  (∀ (f : VFields) (s : State) (e1 e2 : Option QEntry) (c : Cell), VGo .V f.pg (vReads f) 0 s →
    let ty := f.ty.toNat
    let mode := vMode s.cur f.rnd
    let act : BitVec 128 := if f.minv = 1 then ~~~(s.cur.readM f.mask.toNat) else s.cur.readM f.mask.toNat
    let S1 (j : Nat) : Lane := laneOf (readVec s.cur ty f.S1 e1) j
    let S2 (j : Nat) : Lane := laneOf (readVec s.cur ty f.S2 e2) j
    let rnd (j : Nat) : Nat := if mode = 5 then (genStep (s.cur.generator s.cur.epoch (s.cur.vctl.extractLsb' 32 32) j)).toNat else 0
    let flags (g : Nat → Flags) : Flags := (List.range 128).foldl (fun z j => if act.getLsbD j then z ||| g j else z) 0
    let w := widthOf ty
    let fit (x : Lane) : Lane := if w = 16 then (x.setWidth 16).signExtend 32 else if w = 32 then x else (x.setWidth 8).signExtend 32
    let int (x : Lane) : Int := if ty = 3 then x.toNat else (fit x).toInt
    let ofInt (n : Int) : Lane := fit (BitVec.ofInt 32 n)
    let fl (x : Lane) : Lane := if ty = 1 then x &&& 0xFFFF0000 else x
    let low (x : Lane) : Nat := x.toNat % 2 ^ w
    (VTakes formBinary f s e1 e2 c →
      let puts (i : Instr) (v : Nat → Lane) : Prop := VLands formBinary f i 2 s c act v 0
      let rounds (i : Instr) (g : Nat → FRes) : Prop := VLands formBinary f i 4 s c act (fun j => (g j).bits) (flags (fun j => (g j).flags))
      (2 ≤ ty →
        puts (.vadd f) (fun j => fit (S1 j + S2 j)) ∧ puts (.vsub f) (fun j => fit (S1 j - S2 j)) ∧ puts (.vmul f) (fun j => fit (S1 j * S2 j))
        ∧ puts (.vmulh f) (fun j => ofInt (int (S1 j) * int (S2 j) / 2 ^ w))
        ∧ puts (.vmin f) (fun j => ofInt (min (int (S1 j)) (int (S2 j)))) ∧ puts (.vmax f) (fun j => ofInt (max (int (S1 j)) (int (S2 j))))
        ∧ puts (.vabsd f) (fun j => ofInt (int (S1 j) - int (S2 j)).natAbs)
        ∧ puts (.vand f) (fun j => fit (S1 j &&& S2 j)) ∧ puts (.vor f) (fun j => fit (S1 j ||| S2 j)) ∧ puts (.vxor f) (fun j => fit (S1 j ^^^ S2 j))
        ∧ puts (.vandn f) (fun j => fit (S1 j &&& ~~~S2 j))
        ∧ puts (.vshl f) (fun j => fit (S1 j <<< ((S2 j).toNat % w)))
        ∧ puts (.vshr f) (fun j => fit (BitVec.ofNat 32 (low (S1 j) / 2 ^ ((S2 j).toNat % w))))
        ∧ puts (.vsra f) (fun j => (fit (S1 j)).sshiftRight ((S2 j).toNat % w)))
      ∧ (ty ≤ 1 →
        rounds (.vadd f) (fun j => fadd (precOf ty) mode (fl (S1 j)) (fl (S2 j)) (rnd j))
        ∧ rounds (.vsub f) (fun j => fsub (precOf ty) mode (fl (S1 j)) (fl (S2 j)) (rnd j))
        ∧ rounds (.vmul f) (fun j => fmul (precOf ty) mode (fl (S1 j)) (fl (S2 j)) (rnd j))
        ∧ rounds (.vabsd f) (fun j => fabsd (precOf ty) mode (fl (S1 j)) (fl (S2 j)) (rnd j))
        ∧ rounds (.vmin f) (fun j => fminmax false (fl (S1 j)) (fl (S2 j))) ∧ rounds (.vmax f) (fun j => fminmax true (fl (S1 j)) (fl (S2 j))))
      ∧ VLands formBinary f (.vsel f) 2 s c (BitVec.allOnes 128) (fun j => if act.getLsbD j then S1 j else S2 j) 0)
    ∧ (VTakes formAcc f s e1 e2 c → ty ≤ 1 →
      let d (j : Nat) : Lane := fl (laneOf (s.cur.readV (vEff s.cur f.D 64)) j)
      let rounds (i : Instr) (g : Nat → FRes) : Prop := VLands formAcc f i 4 s c act (fun j => (g j).bits) (flags (fun j => (g j).flags))
      rounds (.vfma f) (fun j => fma (precOf ty) mode false false (d j) (fl (S1 j)) (fl (S2 j)) (rnd j))
      ∧ rounds (.vfms f) (fun j => fma (precOf ty) mode true false (d j) (fl (S1 j)) (fl (S2 j)) (rnd j))
      ∧ rounds (.vfnm f) (fun j => fma (precOf ty) mode false true (d j) (fl (S1 j)) (fl (S2 j)) (rnd j)))
    ∧ (VTakes formUnary f s e1 e2 c →
      let puts (i : Instr) (v : Nat → Lane) : Prop := VLands formUnary f i 2 s c act v 0
      let rounds (i : Instr) (lat : Nat) (g : Nat → FRes) : Prop :=
        VLands formUnary f i lat s c act (fun j => (g j).bits) (flags (fun j => (g j).flags))
      puts (.vmov f) S1
      ∧ (ty ≤ 1 → puts (.vclass f) (fun j => BitVec.ofNat 32 (2 ^ fclass (fl (S1 j))))
        ∧ rounds (.vabs f) 4 (fun j => fsign false (fl (S1 j))) ∧ rounds (.vneg f) 4 (fun j => fsign true (fl (S1 j))))
      ∧ (ty = 0 → rounds (.vrcpe f) 6 (fun j => vrcpe (S1 j)) ∧ rounds (.vrsqe f) 6 (fun j => vrsqe (S1 j))
        ∧ rounds (.vexpe f) 6 (fun j => vexpe (S1 j)) ∧ rounds (.vfrx f) 6 (fun j => vfrx mode (S1 j) (rnd j)))
      ∧ (ty = 2 ∨ ty = 4 ∨ ty = 5 →
        let top : Int := 2 ^ (w - 1) - 1
        let clamp : Flags := flags (fun j => if int (S1 j) = - top - 1 then 0x14 else 0)
        VLands formUnary f (.vabs f) 2 s c act (fun j => ofInt (min top (int (S1 j)).natAbs)) clamp
        ∧ VLands formUnary f (.vneg f) 2 s c act (fun j => ofInt (min top (- int (S1 j)))) clamp)
      ∧ (2 ≤ ty → puts (.vpopc f) (fun j => BitVec.ofNat 32 ((List.range w).countP (fun k => (S1 j).getLsbD k)))
        ∧ ∃ n : Nat → Nat, puts (.vclz f) (fun j => BitVec.ofNat 32 (n j)) ∧ ∀ j, n j ≤ w ∧ (∀ k, k < w → w - n j ≤ k → (S1 j).getLsbD k = false)
            ∧ (n j < w → (S1 j).getLsbD (w - 1 - n j) = true)))
    ∧ (VTakes formNone f s e1 e2 c → VLands formNone f (.vidx f) 2 s c act (fun j => BitVec.ofNat 32 j) 0))
  ∧ (∀ (p mode : Nat) (neg : Bool) (num den n : Nat), p = 24 ∨ p = 8 ∨ p = 12 → 0 < den →
    let x := num * 2 ^ 149
    let val (i : Nat) : Nat :=
      let b := i * 2 ^ (24 - p)
      den * (if b < 2 ^ 23 then b else (2 ^ 23 + b % 2 ^ 23) * 2 ^ (b / 2 ^ 23 - 1))
    let pat (i : Nat) : BitVec 32 := BitVec.ofNat 32 ((if neg then 2 ^ 31 else 0) + i * 2 ^ (24 - p))
    let top := 255 * 2 ^ (p - 1)
    ∃ lo, lo < top ∧ val lo ≤ x ∧ (x < val (lo + 1) ∨ lo + 1 = top)
      ∧ (val lo = x → roundFrac p mode neg num den n = ⟨pat lo, 0, false⟩)
      ∧ (val lo < x →
        let away : Prop := (mode = 1 ∧ (val lo + val (lo + 1) < 2 * x ∨ (val lo + val (lo + 1) = 2 * x ∧ lo % 2 = 1)))
          ∨ (mode = 3 ∧ neg = true) ∨ (mode = 4 ∧ neg = false)
          ∨ (mode = 5 ∧ 2 ^ 32 ≤ (x - val lo) * 2 ^ 32 / (val (lo + 1) - val lo) + n)
        let flags (i : Nat) : Flags := 16 ||| (if i = top then 4 else 0) ||| (if i < 2 ^ (p - 1) then 8 else 0)
        1 ≤ mode → mode ≤ 5 → (away → roundFrac p mode neg num den n = ⟨pat (lo + 1), flags (lo + 1), true⟩)
          ∧ (¬ away → roundFrac p mode neg num den n = ⟨pat lo, flags lo, true⟩)))
  ∧ (∀ (p mode : Nat) (a b d : BitVec 32) (n : Nat), p = 24 ∨ p = 8 →
    let nan (x : BitVec 32) : Prop := x.extractLsb' 23 8 = 255 ∧ x.extractLsb' 0 23 ≠ 0
    let signalling (x : BitVec 32) : Prop := nan x ∧ x.getLsbD 22 = false
    let inf (x : BitVec 32) : Prop := x.extractLsb' 0 31 = 0x7F800000
    let fin (x : BitVec 32) : Prop := x.extractLsb' 23 8 ≠ 255
    let int (x : BitVec 32) : Int :=
      let m := (x.extractLsb' 0 23).toNat
      let e := (x.extractLsb' 23 8).toNat
      (if x.getLsbD 31 then -1 else 1) * ((if e = 0 then m else (2 ^ 23 + m) * 2 ^ (e - 1) : Nat) : Int)
    let once (v : Int) (k : Nat) : FRes := roundFrac p mode (decide (v < 0)) v.natAbs (2 ^ k) n
    let quiet : FRes := ⟨0x7FC00000, 0, false⟩
    let invalid : FRes := ⟨0x7FC00000, 1, false⟩
    let zero (neg : Prop) (r : FRes) : Prop := (neg → r = ⟨0x80000000, 0, false⟩) ∧ (¬ neg → r = ⟨0, 0, false⟩)
    (nan a ∨ nan b → signalling a ∨ signalling b → fadd p mode a b n = invalid ∧ fsub p mode a b n = invalid ∧ fmul p mode a b n = invalid
        ∧ fabsd p mode a b n = invalid)
    ∧ (nan a ∨ nan b → ¬ (signalling a ∨ signalling b) → fadd p mode a b n = quiet ∧ fsub p mode a b n = quiet ∧ fmul p mode a b n = quiet
        ∧ fabsd p mode a b n = quiet)
    ∧ (∀ u v, (signalling a ∨ signalling b ∨ signalling d → fma p mode u v d a b n = invalid)
      ∧ (nan a ∨ nan b ∨ nan d → ¬ (signalling a ∨ signalling b ∨ signalling d) → fma p mode u v d a b n = quiet))
    ∧ (inf a → inf b → (a = b → fadd p mode a b n = ⟨a, 0, false⟩ ∧ fsub p mode a b n = invalid ∧ fabsd p mode a b n = invalid)
      ∧ (a ≠ b → fadd p mode a b n = invalid ∧ fsub p mode a b n = ⟨a, 0, false⟩ ∧ fabsd p mode a b n = ⟨0x7F800000, 0, false⟩))
    ∧ (inf a → fin b → fadd p mode a b n = ⟨a, 0, false⟩ ∧ fsub p mode a b n = ⟨a, 0, false⟩ ∧ (int b = 0 → fmul p mode a b n = invalid)
        ∧ (int b ≠ 0 → fmul p mode a b n = ⟨a ^^^ (b &&& 0x80000000), 0, false⟩))
    ∧ (fin a → fin b →
      (int a + int b ≠ 0 → fadd p mode a b n = once (int a + int b) 149)
      ∧ (int a ≠ int b → fsub p mode a b n = once (int a - int b) 149
          ∧ fabsd p mode a b n = roundFrac p mode false (int a - int b).natAbs (2 ^ 149) n)
      ∧ (int a * int b ≠ 0 → fmul p mode a b n = once (int a * int b) 298)
      ∧ (int a + int b = 0 → zero (if int a = 0 ∧ a.getLsbD 31 = b.getLsbD 31 then a.getLsbD 31 = true else mode = 3) (fadd p mode a b n))
      ∧ (int a = int b → fabsd p mode a b n = ⟨0, 0, false⟩)
      ∧ (int a * int b = 0 → zero (a.getLsbD 31 ≠ b.getLsbD 31) (fmul p mode a b n))
      ∧ (fin d → ∀ (u v : Bool), let x := int d * 2 ^ 149 + (if u then - (int a * int b) else int a * int b)
          x ≠ 0 → fma p mode u v d a b n = once (if v then - x else x) 298))
    ∧ (fin a → int a ≠ 0 → vrcpe a = roundFrac 12 1 (decide (int a < 0)) (2 ^ 149) (int a).natAbs 0)
    ∧ (fin a → vfrx mode a n = roundFrac 24 mode false (int a % 2 ^ 149).toNat (2 ^ 149) n))
  ∧ (∀ x : BitVec 32, genStep x = if x.getLsbD 0 then (x >>> 1) ^^^ 0x80200003 else x >>> 1)

/-- A compare, mask word, mcnt, mffs, mpany or mpall that gets its operands with its guard true issues. A compare's mask bit of each active lane is its condition (n32 unsigned, other integers signed, floating by R147 with its flags), the mask words combine masks bit by bit; m0 discards the result and inactive bits stay. mcnt writes how many active lanes have their bit set, mffs the smallest such lane or 128, mpany and mpall whether some or every active lane has it, to the predicate, as a writer of it. Where the rules leave a point open the statement takes the model's own choice: the entry of mcnt and mffs (notes/assumptions/33.md), the landing STALL_SHORT speaks of (notes/assumptions/34.md). (R147, R148, R137, R139, R41, R27) -/
def Obligations.ComparesAndMaskWordsLand : Prop :=
  (∀ (f : VFields) (s : State) (e1 e2 : Option QEntry) (c : Cell), VGo .V f.pg (vReads f) 0 s →
    let ty := f.ty.toNat
    let act : BitVec 128 := if f.minv = 1 then ~~~(s.cur.readM f.mask.toNat) else s.cur.readM f.mask.toNat
    let S1 (j : Nat) : Lane := laneOf (readVec s.cur ty f.S1 e1) j
    let S2 (j : Nat) : Lane := laneOf (readVec s.cur ty f.S2 e2) j
    let mA := s.cur.readM (vEff s.cur f.S1 8)
    let mB := s.cur.readM (vEff s.cur f.S2 8)
    let flags (g : Nat → Flags) : Flags := (List.range 128).foldl (fun z j => if act.getLsbD j then z ||| g j else z) 0
    (VTakes formCompare f s e1 e2 c →
      let int (x : Lane) : Int := if ty = 3 then x.toNat else if ty = 2 then x.toInt else if ty = 4 then (x.setWidth 16).toInt else (x.setWidth 8).toInt
      let fl (x : Lane) : Lane := if ty = 1 then x &&& 0xFFFF0000 else x
      let puts (i : Instr) (k : Nat → Bool) : Prop := VMasks f i s c act k 0
      let tests (i : Instr) (n : Nat) : Prop := VMasks f i s c act (fun j => (fcompare n (fl (S1 j)) (fl (S2 j))).1)
        (flags (fun j => (fcompare n (fl (S1 j)) (fl (S2 j))).2))
      (2 ≤ ty → puts (.vceq f) (fun j => decide (int (S1 j) = int (S2 j))) ∧ puts (.vcne f) (fun j => decide (int (S1 j) ≠ int (S2 j)))
        ∧ puts (.vclt f) (fun j => decide (int (S1 j) < int (S2 j))) ∧ puts (.vcle f) (fun j => decide (int (S1 j) ≤ int (S2 j)))
        ∧ puts (.vcgt f) (fun j => decide (int (S2 j) < int (S1 j))))
      ∧ (ty ≤ 1 → tests (.vceq f) 0 ∧ tests (.vcne f) 1 ∧ tests (.vclt f) 2 ∧ tests (.vcle f) 3 ∧ tests (.vcgt f) 4 ∧ tests (.vcun f) 5))
    ∧ (VTakes formMask2 f s e1 e2 c →
      VMasks f (.mand f) s c act (fun j => mA.getLsbD j && mB.getLsbD j) 0 ∧ VMasks f (.mor f) s c act (fun j => mA.getLsbD j || mB.getLsbD j) 0
      ∧ VMasks f (.mxor f) s c act (fun j => mA.getLsbD j != mB.getLsbD j) 0)
    ∧ (VTakes formMask1 f s e1 e2 c → VMasks f (.mnot f) s c act (fun j => !mA.getLsbD j) 0)
    ∧ (VTakes formOfMask f s e1 e2 c →
      VLands formOfMask f (.mcnt f) 2 s c act (fun _ => BitVec.ofNat 32 ((List.range 128).countP (fun j => act.getLsbD j && mA.getLsbD j))) 0
      ∧ ∃ n, n ≤ 128 ∧ VLands formOfMask f (.mffs f) 2 s c act (fun _ => BitVec.ofNat 32 n) 0
          ∧ (∀ j, j < n → act.getLsbD j = false ∨ mA.getLsbD j = false) ∧ (n < 128 → act.getLsbD n = true ∧ mA.getLsbD n = true)))
  ∧ (∀ (f : VFields) (s : State) (e1 e2 : Option QEntry) (c : Cell), VGo .V f.pg (vReads f) (dIndex f.D) s → dKind f.D = 0 →
    VTakes formOfMask f s e1 e2 c →
    let act : BitVec 128 := if f.minv = 1 then ~~~(s.cur.readM f.mask.toNat) else s.cur.readM f.mask.toNat
    let mA := s.cur.readM (vEff s.cur f.S1 8)
    VIssues f (.mpany f) 2 s c c.queues [.pred (dIndex f.D) (some ((List.range 128).any (fun j => act.getLsbD j && mA.getLsbD j)))]
    ∧ VIssues f (.mpall f) 2 s c c.queues [.pred (dIndex f.D) (some ((List.range 128).all (fun j => !act.getLsbD j || mA.getLsbD j)))])
  ∧ (∀ (fcmp : Nat) (a b : BitVec 32), (fval a).isNaN = true ∨ (fval b).isNaN = true → fcmp < 6 →
      (fcompare fcmp a b).1 = decide (fcmp = 1 ∨ fcmp = 5))

/-- A word of these groups that gets its operands with its guard true issues and its result lands after its latency: vcvt saturates integers into integer types and rounds between integer and floating ones, vqnt and vdqt quantise and expand by the named curve, vtpl writes a balanced trit; vcvt from c8 and vdqt raise FMT on a reserved code in an active lane, vqnt and vdqt without a valid curve. vpack and vunpk and the two vbf words move elements. An integer sum is that of the active lanes, vrmax and vrmin the extreme one, a floating reduction follows the pairwise tree with the identity in inactive lanes; a scan is the running sum, restarted at the heads for vsegsum. Each permute takes its lane by Table 9. Where the rules leave a point open the statement takes the model's own choice: rnd of words that do not round (notes/assumptions/29.md), immediates in the type of the word (notes/assumptions/31.md), flags of masked scans (notes/assumptions/32.md), halves of vpack.i8 and the counters after a drain (notes/assumptions/65.md). (R149, R150, R151, R152, R153, R154, R155, R156, R121, R132, R130, R131) -/
def Obligations.ConversionsReductionsAndPermutesLand : Prop :=
  (∀ (f : VFields) (s : State) (e1 e2 : Option QEntry) (c : Cell), VGo .V f.pg (vReads f) 0 s →
    let ty := f.ty.toNat
    let mode := vMode s.cur f.rnd
    let act : BitVec 128 := if f.minv = 1 then ~~~(s.cur.readM f.mask.toNat) else s.cur.readM f.mask.toNat
    let S1 (j : Nat) : Lane := laneOf (readVec s.cur ty f.S1 e1) j
    let S2 (j : Nat) : Lane := laneOf (readVec s.cur ty f.S2 e2) j
    let rnd (j : Nat) : Nat := if mode = 5 then (genStep (s.cur.generator s.cur.epoch (s.cur.vctl.extractLsb' 32 32) j)).toNat else 0
    let flags (g : Nat → Flags) : Flags := (List.range 128).foldl (fun z j => if act.getLsbD j then z ||| g j else z) 0
    let int (x : Lane) : Int := if ty = 3 then x.toNat else if ty = 2 then x.toInt else if ty = 4 then (x.setWidth 16).toInt else (x.setWidth 8).toInt
    let clean : Prop := ∀ j, j < 128 → act.getLsbD j = true → (S1 j).setWidth 8 ≠ 0x80#8
    let fmt (i : Instr) : Prop := exec i s = .next (faultHere s .V .fmt s.cur.V.pc)
    let mB := s.cur.readM (vEff s.cur f.S2 8)
    let src := f.aux.toNat
    let canon (j : Nat) : Lane × Flags := if act.getLsbD j then (if (fval (S1 j)).isNaN then (0x7FC00000, if (fval (S1 j)).isSNaN then 1 else 0) else (S1 j, 0))
      else (0x80000000, 0)
    let step (heads : BitVec 128) (ys : List (Lane × Flags)) (d : Nat) : List (Lane × Flags) := (List.range 128).map (fun i =>
      let y := ys.getD i (0, 0)
      let z := ys.getD (i - d) (0, 0)
      if d ≤ i ∧ (List.range d).all (fun k => !heads.getLsbD (i - k)) = true
      then ((fadd 24 1 z.1 y.1 0).bits, z.2 ||| y.2 ||| (fadd 24 1 z.1 y.1 0).flags) else y)
    let running (heads : BitVec 128) : List (Lane × Flags) := [1, 2, 4, 8, 16, 32, 64].foldl (step heads) ((List.range 128).map canon)
    (VTakes formUnary f s e1 e2 c →
      let puts (i : Instr) (v : Nat → Lane) : Prop := VLands formUnary f i 3 s c act v 0
      (src = 6 → ¬ clean → fmt (.vcvt f))
      ∧ (src ≠ 6 ∨ clean → VLands formUnary f (.vcvt f) 3 s c act (fun j => (convert src ty mode (S1 j) (rnd j)).val)
          (flags (fun j => (convert src ty mode (S1 j) (rnd j)).flags)))
      ∧ puts (.vtpl f) (fun j => (tritCode (balancedTrit ((S1 j).setWidth 8).toInt src)).setWidth 32)
      ∧ VLands formUnary f (.vbfNarrow f) 3 s c act (fun j => (toBf16 mode (S1 j) (rnd j)).bits) (flags (fun j => (toBf16 mode (S1 j) (rnd j)).flags))
      ∧ puts (.vbfWiden f) (fun j => S1 j &&& 0xFFFF0000)
      ∧ (ty = 4 → src ≤ 1 → puts (.vunpk f) (fun j =>
          (((S1 (64 * src + j / 2)) >>> (16 * (j % 2))).setWidth 16).signExtend 32))
      ∧ (ty = 1 → src ≤ 1 → puts (.vunpk f) (fun j => (((S1 (64 * src + j / 2)) >>> (16 * (j % 2))).setWidth 16).setWidth 32 <<< 16))
      ∧ (2 ≤ ty → ty ≤ 5 →
        let sum : Lane := (List.range 128).foldl (fun z j => if act.getLsbD j then z + BitVec.ofInt 32 (int (S1 j)) else z) 0
        let best (pick : Int → Int → Int) (z : Int) : Lane :=
          BitVec.ofInt 32 ((List.range 128).foldl (fun m j => if act.getLsbD j then pick m (int (S1 j)) else m) z)
        let sums (i : Instr) (v : Lane) : Prop := VLands formUnary f i 8 s c act (fun _ => v) 0
        sums (.vrsum f) sum ∧ sums (.vrsumi f) sum
        ∧ sums (.vrmax f) (best max (if ty = 3 then 0 else -2147483648)) ∧ sums (.vrmin f) (best min (if ty = 3 then 4294967295 else 2147483647)))
      ∧ (ty = 0 →
        let tree (i : Instr) (g : Lane → Lane → FRes) (z : Lane) : Prop :=
          let r := treeSteps g 7 ((List.range 128).map (fun j => if act.getLsbD j then S1 j else z))
          VLands formUnary f i 8 s c act (fun _ => laneOf r.1 0) r.2
        tree (.vrsum f) (fun a b => fadd 24 1 a b 0) 0x80000000 ∧ tree (.vrmax f) (fminmax true) 0xFF800000
        ∧ tree (.vrmin f) (fminmax false) 0x7F800000)
      ∧ (2 ≤ ty → VLands formUnary f (.vscan f) 8 s c act (fun j =>
          ((List.range (j + 1)).filter (fun k => act.getLsbD k)).foldl (fun z k => z + S1 k) 0) 0)
      ∧ (ty = 0 → VLands formUnary f (.vscan f) 8 s c act (fun j => ((running 0).getD j (0, 0)).1) (flags (fun j => ((running 0).getD j (0, 0)).2)))
      ∧ (ty = 5 → src ≤ 1 → (dImm f.S2).toNat ≤ 1 → puts (.vunpk f) (fun j =>
          let k := 128 * (dImm f.S2).toNat + j
          (((S1 (64 * src + k / 4)) >>> (8 * (k % 4))).setWidth 8).signExtend 32)))
    ∧ (VTakes formVecMask f s e1 e2 c →
      (ty = 0 → VLands formVecMask f (.vsegsum f) 8 s c act (fun j => ((running (mB ||| 1)).getD j (0, 0)).1)
          (flags (fun j => ((running (mB ||| 1)).getD j (0, 0)).2)))
      ∧ (2 ≤ ty → VLands formVecMask f (.vsegsum f) 8 s c act (fun j =>
          ((List.range (j + 1)).filter (fun k => act.getLsbD k && (List.range (j - k)).all (fun d => !mB.getLsbD (j - d)))).foldl (fun z k => z + S1 k) 0) 0)
      ∧ VLands formVecMask f (.vcomp f) 3 s c act (fun j => match ((List.range 128).filter (fun k => mB.getLsbD k))[j]? with
          | some k => S1 k
          | none => 0) 0
      ∧ VLands formVecMask f (.vexpd f) 3 s c act (fun j =>
          if mB.getLsbD j then S1 ((List.range j).countP (fun k => mB.getLsbD k)) else 0) 0)
    ∧ (VTakes formBinary f s e1 e2 c →
      let puts (i : Instr) (v : Nat → Lane) : Prop := VLands formBinary f i 3 s c act v 0
      let cv := find? s.cur.curves src
      (cv = none → fmt (.vqnt f) ∧ fmt (.vdqt f))
      ∧ (∀ k, cv = some k → VLands formBinary f (.vqnt f) 3 s c act (fun j => (BitVec.ofInt 8 (quantise k (S1 j) (S2 j) mode (rnd j)).1).signExtend 32)
          (flags (fun j => (quantise k (S1 j) (S2 j) mode (rnd j)).2.1))
        ∧ (¬ clean → fmt (.vdqt f))
        ∧ (clean →
          let y (j : Nat) : FRes := fmul 24 mode (roundFrac 24 1 (decide (expandCode k ((S1 j).setWidth 8).toInt < 0))
            (expandCode k ((S1 j).setWidth 8).toInt).natAbs 1 0).bits (S2 j) (rnd j)
          VLands formBinary f (.vdqt f) 3 s c act (fun j => (y j).bits) (flags (fun j => (y j).flags))))
      ∧ puts (.vperm f) (fun j => S1 ((S2 j).toNat % 128)) ∧ puts (.vrot f) (fun j => S1 ((j + 128 - (S2 0).toNat % 128) % 128))
      ∧ puts (.vbcst f) (fun _ => S1 ((S2 0).toNat % 128)) ∧ puts (.vzip f) (fun j => if j % 2 = 0 then S1 (j / 2) else S2 (j / 2))
      ∧ puts (.vuzp f) (fun j => if j < 64 then S1 (2 * j) else S2 (2 * j - 128))
      ∧ puts (.vslide f) (fun j =>
          let k := (j : Int) + ((S2 0).setWidth 8).toInt
          if 0 ≤ k ∧ k < 128 then S1 k.toNat else 0)
      ∧ (ty = 4 → src ≤ 1 → puts (.vpack f) (fun j =>
          let x (k : Nat) : Lane := if (j / 64 = src) then S1 k else S2 k
          ((x (2 * (j % 64) + 1)).setWidth 16 ++ (x (2 * (j % 64))).setWidth 16 : BitVec 32)))
      ∧ (ty = 1 → src ≤ 1 → puts (.vpack f) (fun j =>
          let x (k : Nat) : Lane := if (j / 64 = src) then S1 k else S2 k
          ((x (2 * (j % 64) + 1)).extractLsb' 16 16 ++ (x (2 * (j % 64))).extractLsb' 16 16 : BitVec 32)))
      ∧ (ty = 5 → src ≤ 1 → ∃ half : BitVec 128, (∀ j, j < 128 → half.getLsbD j = (act.getLsbD j && j / 64 == src))
        ∧ VLands formBinary f (.vpack f) 3 s c half (fun j =>
          let x (k : Nat) : BitVec 8 := (if k < 128 then S1 k else S2 (k - 128)).setWidth 8
          (x (4 * (j % 64) + 3) ++ x (4 * (j % 64) + 2) ++ x (4 * (j % 64) + 1) ++ x (4 * (j % 64)) : BitVec 32)) 0)))
  ∧ (∀ (src ty mode : Nat) (a : Lane) (n : Nat), 2 ≤ ty → ty ≤ 6 →
    let lo : Int := if ty = 2 then -2147483648 else if ty = 3 then 0 else if ty = 4 then -32768 else if ty = 5 then -128 else -127
    let hi : Int := if ty = 2 then 2147483647 else if ty = 3 then 4294967295 else if ty = 4 then 32767 else 127
    let put (v : Int) : Lane := if ty = 4 then (BitVec.ofInt 16 v).signExtend 32 else if ty ≤ 3 then BitVec.ofInt 32 v else (BitVec.ofInt 8 v).signExtend 32
    let clamps (r : LRes) (v : Int) (fl : Flags) : Prop := r.val = put (max lo (min hi v)) ∧ r.flags = fl ||| (if v < lo ∨ hi < v then 0x14 else 0)
    let r := convert src ty mode a n
    (2 ≤ src → src ≤ 6 → clamps r (if src = 3 then a.toNat else if src = 2 then a.toInt else if src = 4 then (a.setWidth 16).toInt else (a.setWidth 8).toInt) 0)
    ∧ (src ≤ 1 → 1 ≤ mode → mode ≤ 5 →
      match fval (if src = 1 then a &&& 0xFFFF0000 else a) with
      | .nan _ => r.val = 0 ∧ r.flags = 1
      | .inf neg => r.val = put (if neg then lo else hi) ∧ r.flags = 1
      | .fin neg m e =>
        let x := m * 2 ^ e.toNat
        let d := 2 ^ (-e).toNat
        let signed (k : Nat) : Int := if neg then - (k : Int) else k
        let away : Prop := (mode = 1 ∧ (d < 2 * (x % d) ∨ (d = 2 * (x % d) ∧ x / d % 2 = 1))) ∨ (mode = 3 ∧ neg = true) ∨ (mode = 4 ∧ neg = false)
          ∨ (mode = 5 ∧ 2 ^ 32 ≤ x % d * 2 ^ 32 / d + n)
        (x % d = 0 → clamps r (signed (x / d)) 0) ∧ (x % d ≠ 0 → away → clamps r (signed (x / d + 1)) 16)
        ∧ (x % d ≠ 0 → ¬ away → clamps r (signed (x / d)) 16)))
  ∧ (∀ (src ty mode : Nat) (a : Lane) (n : Nat), ty ≤ 1 → let r := convert src ty mode a n
    (2 ≤ src → let v : Int := if src = 3 then a.toNat else if src = 2 then a.toInt else if src = 4 then (a.setWidth 16).toInt else (a.setWidth 8).toInt
      let y := roundFrac (if ty = 0 then 24 else 8) mode (decide (v < 0)) v.natAbs 1 n
      r.val = y.bits ∧ r.flags = y.flags)
    ∧ (src ≤ 1 → src ≠ ty → match fval (if src = 1 then a &&& 0xFFFF0000 else a) with
      | .nan q => r.val = 0x7FC00000 ∧ r.flags = (if q then 1 else 0)
      | .inf neg => r.val = (if neg then 0xFF800000 else 0x7F800000) ∧ r.flags = 0
      | .fin neg m e => (src = 1 → r.val = a &&& 0xFFFF0000 ∧ r.flags = 0)
        ∧ (src = 0 → let y := roundFrac 8 mode neg (m * 2 ^ e.toNat) (2 ^ (-e).toNat) n
            r.val = y.bits ∧ r.flags = y.flags)))
  ∧ (∀ (k : Curve) (x y : BitVec 32) (mode n : Nat), let q := quantise k x y mode n
    q.1 ≤ 127 ∧ -127 ≤ q.1 ∧ ((fval y).isZero = true ∨ (fval y).isInf = true ∨ (fval y).isNaN = true ∨ (fval x).isNaN = true → q = (0, 1, false)))
  ∧ (∀ (k : Curve) (v : Int), -2048 ≤ expandCode k v ∧ expandCode k v ≤ 2047)

/-- An M word that gets its operands with its guard true issues. mldb pops a 2048-byte entry and lands its trits in the enabled columns of the buffer 8 cycles later. mstep pops a 1024-byte block, reads a row of I in each cycle from its issue and lands it 7 cycles later with the exact sum added, subtracted, added to three times the old value or written over; the counters land with it, and it raises FMT past the limits of its entry. mfold takes each scale inline, from the entry or from an 8-byte entry it pops, whose upper bits are zero, and lands F with F + I x sA x sB rounded once, I with 0 and the flags of all its elements, 10 cycles later. A drain reserves an entry for each row, reads a row a cycle, the first at its issue, and pushes its converted elements 5 cycles later, with the flags; zero-after clears a row in the cycle after its read. A landing of the buffer leaves the columns of disabled groups as they were. mzero lands zeros in the enabled columns; with no column it writes nothing. Wrong sizes raise QSIZE, invalid entries, planes, codes and scales FMT. Where the rules leave a point open the statement takes the model's own choice: the landing STALL_SHORT speaks of (notes/assumptions/34.md), generators of drained columns (notes/assumptions/35.md), occupancy is an external wait (notes/assumptions/36.md), halves of vpack.i8 and the counters after a drain (notes/assumptions/65.md). (R158, R160, R161, R164, R166, R167, R168, R169, R170, R171, R157) -/
def Obligations.MatrixWordsIssueAndLand : Prop :=
  (∀ (f : MFields) (s : State),
    let c := s.cur
    let n := rowsOf f
    let a := f.acc.toNat
    let cols := colsOf f
    let trap (i : Instr) (code : FaultCode) : Prop := exec i s = .next (faultHere s .M code s.cur.M.pc)
    let timed (x : Cell) : List (Nat × LandKind) := x.landings.map (fun l => (l.due, l.what))
    let issues (i : Instr) (P : State → Prop) : Prop := ∃ t u, exec i s = .next t ∧ Issued .M 6 0 false u t ∧ Local s u ∧ P u
    (VGo .M f.pg [shFmt] 0 s →
      (∀ w, c.headAt f.bq.toNat 0 = .error w → exec (.mldb f) s = .next (setWait s .M w))
      ∧ (∀ w, c.headAt f.aq.toNat 0 = .error w → c.arrayFree ≤ s.cycle → exec (.mstep f) s = .next (setWait s .M w))
      ∧ (s.cycle < c.arrayFree → exec (.mstep f) s = .next (setWait s .M .external))
      ∧ (∀ e, c.headAt f.bq.toNat 0 = .ok e →
        (e.size ≠ 2048 → trap (.mldb f) .qsize)
        ∧ (e.size = 2048 → formatEntry c f = none → trap (.mldb f) .fmt)
        ∧ (∀ fe, e.size = 2048 → formatEntry c f = some fe →
          let rows := (List.range 64).map (tileRow (c.entryBytes e))
          let bad : Prop := ∃ k, k < 64 ∧ ∃ j, j < 128 ∧ cols.getLsbD j = true ∧ rowCode (tileRow (c.entryBytes e) k) j = 2
          (fmtPlanes fe ≤ f.plane.toNat ∨ bad → trap (.mldb f) .fmt)
          ∧ (f.plane.toNat < fmtPlanes fe → ¬ bad → issues (.mldb f) (fun u => timed u.cur = timed c ++ [(s.cycle + 8, .bbuf cols rows f.plane.toNat)]
              ∧ { u.cur with landings := c.landings, lastLand := c.lastLand } = c.popHead f.bq.toNat))))
      ∧ (c.arrayFree ≤ s.cycle → ∀ e fe, c.headAt f.aq.toNat 0 = .ok e → formatEntry c f = some fe → (c.engctlOf .M).getLsbD 0 = false →
        let cv := find? c.curves (fmtCurve fe)
        let val (r k : Nat) : Option Int := aval fe cv (byteAt (c.entryBytes e) (64 * r + k))
        let whole : Prop := f.amode = 3 ∧ f.rowsm1 = 15 ∧ f.cols = 255
        let steps := (c.tile a).steps + 1
        let horners := (c.tile a).horners + (if f.amode = 2 then 1 else 0)
        let fits : Prop := whole ∨ (steps ≤ fmtGroup fe * fmtPlanes fe ∧ horners ≤ fmtPlanes fe)
        let fine : Prop := f.plane.toNat < fmtPlanes fe ∧ f.plane.toNat = c.bBuffer.plane ∧ (fmtC8 fe = true → cv ≠ none)
        let known : Prop := ∀ r k, r < n → k < 64 → val r k ≠ none
        (e.size ≠ 1024 → trap (.mstep f) .qsize)
        ∧ (e.size = 1024 → ¬ (fine ∧ fits ∧ known) → trap (.mstep f) .fmt)
        ∧ (e.size = 1024 → fine → fits → known → ∃ (sums : Nat → List Int) (new : List (BitVec 48)),
          (∀ r j, r < n → j < 128 → cols.getLsbD j = true → (sums r).getD j 0 = ((List.range 64).map (fun k =>
              (val r k).getD 0 * tritOf (rowCode (lookup 0 c.bBuffer.rows k) j))).foldl (· + ·) 0)
          ∧ (∀ j, j < 128 → new.getD j 0 = BitVec.ofInt 48 (stepElem f.amode (colI (lookup [] (c.tile a).irows 0) j) ((sums 0).getD j 0)))
          ∧ issues (.mstep f) (fun u => timed u.cur = timed c ++ (s.cycle + 7, .irow a 0 cols new)
              :: (List.range (n - 1)).map (fun r => (s.cycle + (r + 1), .stepRead a (r + 1) f.amode cols (sums (r + 1))))
              ++ [(s.cycle + 7, .counters a (if f.amode = 3 ∧ f.rowsm1 = 15 ∧ f.cols = 255 then 1 else steps)
                    (if f.amode = 3 ∧ f.rowsm1 = 15 ∧ f.cols = 255 then 0 else horners))]
            ∧ { u.cur with landings := c.landings, lastLand := c.lastLand } = { c.popHead f.aq.toNat with arrayFree := s.cycle + n }))))
    ∧ (VGo .M f.pg [shFmt] 0 s → (c.engctlOf .M).getLsbD 0 = false → formatEntry c f = none → trap (.mfold f) .fmt)
    ∧ (VGo .M f.pg [shFmt, shVctl] 0 s → (c.engctlOf .M).getLsbD 0 = false →
      (∀ fe, formatEntry c f = some fe →
        let qa := f.aq.toNat
        let qb := f.bq.toNat
        let fromA : Prop := fmtSaSrc fe = 2
        let fromB : Prop := fmtSbSrc fe = 2
        let c1 := if fmtSaSrc fe = 2 then c.popHead qa else c
        let c2 := if fmtSbSrc fe = 2 then c1.popHead qb else c1
        let scale (src : Nat) (inl tab : BitVec 20) (e : QEntry) : Option Sys2Proof.Machine.Dyadic :=
          if src = 0 then scaleValue inl else if src = 1 then scaleValue tab
          else if (wordAt (c.entryBytes e) 0).extractLsb' 20 44 = 0 then scaleValue ((wordAt (c.entryBytes e) 0).setWidth 20) else none
        (∀ w, fromA → c.headAt qa 0 = .error w → exec (.mfold f) s = .next (setWait s .M w))
        ∧ (∀ w, fromB → (fromA → ∃ e, c.headAt qa 0 = .ok e) → c1.headAt qb 0 = .error w → exec (.mfold f) s = .next (setWait s .M w))
        ∧ (∀ ea eb, (fromA → c.headAt qa 0 = .ok ea) → (fromB → c1.headAt qb 0 = .ok eb) →
          let sa := scale (fmtSaSrc fe) f.sa (fmtSa fe) ea
          let sb := scale (fmtSbSrc fe) f.sb (fmtSb fe) eb
          let odd : Prop := (fromA ∧ ea.size ≠ 8) ∨ (fromB ∧ eb.size ≠ 8)
          (odd → trap (.mfold f) .qsize)
          ∧ (¬ odd → sa = none ∨ sb = none → trap (.mfold f) .fmt)
          ∧ ∀ x y, ¬ odd → sa = some x → sb = some y → ∃ vals : Nat → List (BitVec 32), ∃ fl : Flags,
            (fmtRnd fe ≠ 5 →
              let elem (r j : Nat) : LRes := foldElem (if fmtBf16 fe then 8 else 24) (fmtRnd fe)
                (colF (lookup [] (c.tile a).frows r) j) (colI (lookup [] (c.tile a).irows r) j) x y 0
              (∀ r j, r < n → j < 128 → cols.getLsbD j = true → laneOf (vals r) j = (elem r j).val)
              ∧ ∀ k, fl.getLsbD k = true ↔ ∃ r j, r < n ∧ j < 128 ∧ cols.getLsbD j = true ∧ (elem r j).flags.getLsbD k = true)
            ∧ issues (.mfold f) (fun u => timed u.cur = timed c
                ++ (List.range n).flatMap (fun r => [(s.cycle + 10, .frow a r cols (vals r)), (s.cycle + 10, .irow a r cols [])])
                ++ (if f.rowsm1 = 15 ∧ f.cols = 255 then [(s.cycle + 10, .counters a 0 0)] else [])
                ++ (if fl = 0 then [] else [(s.cycle + 10, .ast (astM fl))])
              ∧ (fmtRnd fe ≠ 5 → u.cur.gens = c.gens ∧ u.cur.epoch = c.epoch)
              ∧ { u.cur with landings := c.landings, lastLand := c.lastLand, gens := c.gens, epoch := c.epoch } = c2))))
    ∧ (VGo .M f.pg [shVctl] 0 s → (c.engctlOf .M).getLsbD 0 = false → c.drainFree ≤ s.cycle →
      let q := f.dq.toNat
      let mode : RMode := if f.drnd = 0 then (c.vctl.extractLsb' 0 3).toNat else f.drnd.toNat
      let drains (i : Instr) (fromI : Bool) : Prop :=
        (c.qcapOf q < 16 → trap i .qsize)
        ∧ (16 ≤ c.qcapOf q → c.canDraw q (16 * n) = false → exec i s = .next (setWait s .M .draw))
        ∧ (16 ≤ c.qcapOf q → c.canDraw q (16 * n) = true → f.dtype = 6 → find? c.curves f.curve.toNat = none → trap i .fmt)
        ∧ (16 ≤ c.qcapOf q → c.canDraw q (16 * n) = true → (f.dtype = 6 → find? c.curves f.curve.toNat ≠ none) →
          ∃ (bs : List Byte) (fl : Flags),
          (mode ≠ 5 →
            let elem (j : Nat) : LRes := if !cols.getLsbD j then ⟨0, 0, false⟩
              else if fromI then drainI f.dtype.toNat (find? c.curves f.curve.toNat) mode (colI (lookup [] (c.tile a).irows 0) j) 0
              else drainF f.dtype.toNat (find? c.curves f.curve.toNat) mode (colF (lookup [] (c.tile a).frows 0) j) 0
            bs.length = 512 ∧ (∀ j, j < 128 → ofLe ((bs.drop (4 * j)).take 4) = (elem j).val.toNat)
            ∧ ∀ k, fl.getLsbD k = true ↔ ∃ j, j < 128 ∧ (elem j).flags.getLsbD k = true)
          ∧ issues i (fun u => u.cur.drainFree = s.cycle + n ∧ u.cur.heat = c.heat ∧ u.cur.accs = c.accs
            ∧ u.cur.queue q = c.queue q ++ (List.range n).map (fun r => ⟨s.nextId + 1 + r, 512, c.heat, [], [0], false⟩)
            ∧ (∀ k, k ≠ q → u.cur.queue k = c.queue k)
            ∧ timed u.cur = timed c ++ [(s.cycle + 5, .push q (s.nextId + 1) bs)]
              ++ (if fl = 0 then [] else [(s.cycle + n + 4, .ast (astM fl))])
              ++ (if f.zero = 1 then [(s.cycle + 1, if fromI then .irow a 0 cols [] else .frow a 0 cols [])] else [])
              ++ (List.range (n - 1)).map (fun r => (s.cycle + (r + 1), .drainRead a (r + 1) fromI cols q (s.nextId + 1 + (r + 1)) f.dtype.toNat f.curve.toNat
                mode (f.zero == 1) c.epoch (c.vctl.extractLsb' 32 32) (s.cycle + n + 4)))
              ++ (if fromI = true ∧ f.zero = 1 ∧ f.rowsm1 = 15 ∧ f.cols = 255 then [(s.cycle + n, .counters a 0 0)] else [])))
      drains (.mdrain f) false ∧ drains (.mdraini f) true)
    ∧ (VGo .M f.pg [] 0 s →
      (f.cols = 0 → ∃ t, exec (.mzero f) s = .next t ∧ Issued .M 6 0 false s t)
      ∧ (f.cols ≠ 0 → issues (.mzero f) (fun u => timed u.cur = timed c ++ [(s.cycle + 2, .zeroTile a cols (f.cols == 255))]
          ∧ { u.cur with landings := c.landings, lastLand := c.lastLand } = c))))
  ∧ (∀ (f : MFields) (j : Nat), j < 128 → (colsOf f).getLsbD j = f.cols.getLsbD (j / 16))
  ∧ (∀ (c : Cell) (l : Landing),
    (∀ a r cols xs, l.what = .irow a r cols xs → ∀ j, j < 128 → colI (lookup [] ((applyLanding l c).tile a).irows r) j
        = if cols.getLsbD j then colI xs j else colI (lookup [] (c.tile a).irows r) j)
    ∧ (∀ a r cols xs, l.what = .frow a r cols xs → ∀ j, j < 128 → colF (lookup [] ((applyLanding l c).tile a).frows r) j
        = if cols.getLsbD j then colF xs j else colF (lookup [] (c.tile a).frows r) j)
    ∧ (∀ a cols z, l.what = .zeroTile a cols z → ∀ r j, j < 128 → cols.getLsbD j = true →
        colI (lookup [] ((applyLanding l c).tile a).irows r) j = 0 ∧ colF (lookup [] ((applyLanding l c).tile a).frows r) j = 0)
    ∧ (∀ a st h, l.what = .counters a st h → ((applyLanding l c).tile a).steps = st ∧ ((applyLanding l c).tile a).horners = h
        ∧ ((applyLanding l c).tile a).irows = (c.tile a).irows)
    ∧ (∀ cols rows plane, l.what = .bbuf cols rows plane → (applyLanding l c).bBuffer.plane = plane ∧ ∀ k j, k < 64 → j < 128 →
        rowCode (lookup 0 (applyLanding l c).bBuffer.rows k) j
          = if cols.getLsbD j then rowCode (rows.getD k 0) j else rowCode (lookup 0 c.bBuffer.rows k) j)
    ∧ (∀ a r fromI cols q id dt cu mode ep seed fa, l.what = .drainRead a r fromI cols q id dt cu mode true ep seed fa →
        (⟨l.due + 1, l.seq, if fromI then .irow a r cols [] else .frow a r cols []⟩ : Landing) ∈ (applyRead l c).landings)
    ∧ (∀ a r mode cols sums, l.what = .stepRead a r mode cols sums → ∃ new, applyRead l c = { c with
        landings := c.landings ++ [⟨l.due + 7, l.seq, .irow a r cols new⟩] } ∧ ∀ j, j < 128 → colI new j
          = (BitVec.ofInt 48 (stepElem mode (colI (lookup [] (c.tile a).irows r) j) (sums.getD j 0))).toInt)
    ∧ (∀ a r fromI cols q id dt cu mode zero ep seed fa, l.what = .drainRead a r fromI cols q id dt cu mode zero ep seed fa → mode ≠ 5 →
        ∃ bs, ⟨l.due + 5, l.seq, .push q id bs⟩ ∈ (applyRead l c).landings ∧ bs.length = 512 ∧ ∀ j, j < 128 →
          ofLe ((bs.drop (4 * j)).take 4) = if !cols.getLsbD j then 0
            else if fromI then (drainI dt (find? c.curves cu) mode (colI (lookup [] (c.tile a).irows r) j) 0).val.toNat
            else (drainF dt (find? c.curves cu) mode (colF (lookup [] (c.tile a).frows r) j) 0).val.toNat))
end

