-- ==== Sys2Proof/Laws/State.lean ====
section
/-! SUPPORT. What the accessors and updates of State read and leave alone. -/
namespace Sys2Proof.Machine
open Sys2Proof

/-! Keyed lists. -/

@[simp] theorem find?_nil {α : Type} (k : Nat) : find? ([] : SMap α) k = none := rfl

theorem find?_insertAt {α : Type} (m : SMap α) (k : Nat) (x : α) (j : Nat) :
    find? (insertAt m k x) j = if j = k then some x else find? m j := by
  induction m with
  | nil => by_cases h : k = j <;> simp [insertAt, find?, h, eq_comm]
  | cons e r ih =>
    obtain ⟨i, y⟩ := e
    simp only [insertAt]
    split
    · by_cases h : j = k
      · subst h; simp [find?]
      · have h' : ¬k = j := fun e => h e.symm
        simp [find?, h, h']
    · split
      · rename_i h1 h2
        subst h2
        by_cases h : j = k
        · subst h; simp [find?]
        · have h' : ¬k = j := fun e => h e.symm
          simp [find?, h, h']
      · rename_i h1 h2
        by_cases h : i = j
        · subst h
          have h' : ¬i = k := fun e => h2 e.symm
          simp [find?, h']
        · simp [find?, h, ih]

@[simp] theorem find?_insertAt_self {α : Type} (m : SMap α) (k : Nat) (x : α) : find? (insertAt m k x) k = some x := by
  simp [find?_insertAt]

theorem find?_insertAt_ne {α : Type} (m : SMap α) {k j : Nat} (x : α) (h : j ≠ k) : find? (insertAt m k x) j = find? m j := by
  simp [find?_insertAt, h]

@[simp] theorem lookup_insertAt_self {α : Type} (d : α) (m : SMap α) (k : Nat) (x : α) : lookup d (insertAt m k x) k = x := by
  simp [lookup]

theorem lookup_insertAt_ne {α : Type} (d : α) (m : SMap α) {k j : Nat} (x : α) (h : j ≠ k) :
    lookup d (insertAt m k x) j = lookup d m j := by
  simp [lookup, find?_insertAt_ne m x h]

theorem lookup_insertAt {α : Type} (d : α) (m : SMap α) (k j : Nat) (x : α) :
    lookup d (insertAt m k x) j = if j = k then x else lookup d m j := by
  by_cases h : j = k
  · subst h; simp
  · simp [h, lookup_insertAt_ne d m x h]

/-! `setCell`. -/

@[simp] theorem State.setCell_dies (s : State) (ix : Nat) (c : Cell) : (s.setCell ix c).dies = s.dies := rfl
@[simp] theorem State.setCell_pkgs (s : State) (ix : Nat) (c : Cell) : (s.setCell ix c).pkgs = s.pkgs := rfl
@[simp] theorem State.setCell_nodes (s : State) (ix : Nat) (c : Cell) : (s.setCell ix c).nodes = s.nodes := rfl
@[simp] theorem State.setCell_mem (s : State) (ix : Nat) (c : Cell) : (s.setCell ix c).mem = s.mem := rfl
@[simp] theorem State.setCell_heats (s : State) (ix : Nat) (c : Cell) : (s.setCell ix c).heats = s.heats := rfl
@[simp] theorem State.setCell_eccBad (s : State) (ix : Nat) (c : Cell) : (s.setCell ix c).eccBad = s.eccBad := rfl
@[simp] theorem State.setCell_eccOne (s : State) (ix : Nat) (c : Cell) : (s.setCell ix c).eccOne = s.eccOne := rfl
@[simp] theorem State.setCell_reqs (s : State) (ix : Nat) (c : Cell) : (s.setCell ix c).reqs = s.reqs := rfl
@[simp] theorem State.setCell_domKey (s : State) (ix : Nat) (c : Cell) : (s.setCell ix c).domKey = s.domKey := rfl
@[simp] theorem State.setCell_version (s : State) (ix : Nat) (c : Cell) : (s.setCell ix c).version = s.version := rfl
@[simp] theorem State.setCell_changing (s : State) (ix : Nat) (c : Cell) : (s.setCell ix c).changing = s.changing := rfl
@[simp] theorem State.setCell_again (s : State) (ix : Nat) (c : Cell) : (s.setCell ix c).again = s.again := rfl
@[simp] theorem State.setCell_topo (s : State) (ix : Nat) (c : Cell) : (s.setCell ix c).topo = s.topo := rfl
@[simp] theorem State.setCell_told (s : State) (ix : Nat) (c : Cell) : (s.setCell ix c).told = s.told := rfl
@[simp] theorem State.setCell_scTime (s : State) (ix : Nat) (c : Cell) : (s.setCell ix c).scTime = s.scTime := rfl
@[simp] theorem State.setCell_cycle (s : State) (ix : Nat) (c : Cell) : (s.setCell ix c).cycle = s.cycle := rfl
@[simp] theorem State.setCell_turns (s : State) (ix : Nat) (c : Cell) : (s.setCell ix c).turns = s.turns := rfl
@[simp] theorem State.setCell_focus (s : State) (ix : Nat) (c : Cell) : (s.setCell ix c).focus = s.focus := rfl
@[simp] theorem State.setCell_eng (s : State) (ix : Nat) (c : Cell) : (s.setCell ix c).eng = s.eng := rfl
@[simp] theorem State.setCell_nextId (s : State) (ix : Nat) (c : Cell) : (s.setCell ix c).nextId = s.nextId := rfl
@[simp] theorem State.setCell_free (s : State) (ix : Nat) (c : Cell) : (s.setCell ix c).free = s.free := rfl
@[simp] theorem State.setCell_die (s : State) (ix : Nat) (c : Cell) (j : Nat) : (s.setCell ix c).die j = s.die j := rfl
@[simp] theorem State.setCell_pkg (s : State) (ix : Nat) (c : Cell) (j : Nat) : (s.setCell ix c).pkg j = s.pkg j := rfl
@[simp] theorem State.setCell_node (s : State) (ix : Nat) (c : Cell) (j : Nat) : (s.setCell ix c).node j = s.node j := rfl
@[simp] theorem State.setCell_me (s : State) (ix : Nat) (c : Cell) : (s.setCell ix c).me = s.me := rfl
@[simp] theorem State.setCell_myDie (s : State) (ix : Nat) (c : Cell) : (s.setCell ix c).myDie = s.myDie := rfl

/-! `modCell`. -/

@[simp] theorem State.modCell_dies (s : State) (ix : Nat) (f : Cell → Cell) : (s.modCell ix f).dies = s.dies := rfl
@[simp] theorem State.modCell_pkgs (s : State) (ix : Nat) (f : Cell → Cell) : (s.modCell ix f).pkgs = s.pkgs := rfl
@[simp] theorem State.modCell_nodes (s : State) (ix : Nat) (f : Cell → Cell) : (s.modCell ix f).nodes = s.nodes := rfl
@[simp] theorem State.modCell_mem (s : State) (ix : Nat) (f : Cell → Cell) : (s.modCell ix f).mem = s.mem := rfl
@[simp] theorem State.modCell_heats (s : State) (ix : Nat) (f : Cell → Cell) : (s.modCell ix f).heats = s.heats := rfl
@[simp] theorem State.modCell_eccBad (s : State) (ix : Nat) (f : Cell → Cell) : (s.modCell ix f).eccBad = s.eccBad := rfl
@[simp] theorem State.modCell_eccOne (s : State) (ix : Nat) (f : Cell → Cell) : (s.modCell ix f).eccOne = s.eccOne := rfl
@[simp] theorem State.modCell_reqs (s : State) (ix : Nat) (f : Cell → Cell) : (s.modCell ix f).reqs = s.reqs := rfl
@[simp] theorem State.modCell_domKey (s : State) (ix : Nat) (f : Cell → Cell) : (s.modCell ix f).domKey = s.domKey := rfl
@[simp] theorem State.modCell_version (s : State) (ix : Nat) (f : Cell → Cell) : (s.modCell ix f).version = s.version := rfl
@[simp] theorem State.modCell_changing (s : State) (ix : Nat) (f : Cell → Cell) : (s.modCell ix f).changing = s.changing := rfl
@[simp] theorem State.modCell_again (s : State) (ix : Nat) (f : Cell → Cell) : (s.modCell ix f).again = s.again := rfl
@[simp] theorem State.modCell_topo (s : State) (ix : Nat) (f : Cell → Cell) : (s.modCell ix f).topo = s.topo := rfl
@[simp] theorem State.modCell_told (s : State) (ix : Nat) (f : Cell → Cell) : (s.modCell ix f).told = s.told := rfl
@[simp] theorem State.modCell_scTime (s : State) (ix : Nat) (f : Cell → Cell) : (s.modCell ix f).scTime = s.scTime := rfl
@[simp] theorem State.modCell_cycle (s : State) (ix : Nat) (f : Cell → Cell) : (s.modCell ix f).cycle = s.cycle := rfl
@[simp] theorem State.modCell_turns (s : State) (ix : Nat) (f : Cell → Cell) : (s.modCell ix f).turns = s.turns := rfl
@[simp] theorem State.modCell_focus (s : State) (ix : Nat) (f : Cell → Cell) : (s.modCell ix f).focus = s.focus := rfl
@[simp] theorem State.modCell_eng (s : State) (ix : Nat) (f : Cell → Cell) : (s.modCell ix f).eng = s.eng := rfl
@[simp] theorem State.modCell_nextId (s : State) (ix : Nat) (f : Cell → Cell) : (s.modCell ix f).nextId = s.nextId := rfl
@[simp] theorem State.modCell_free (s : State) (ix : Nat) (f : Cell → Cell) : (s.modCell ix f).free = s.free := rfl
@[simp] theorem State.modCell_die (s : State) (ix : Nat) (f : Cell → Cell) (j : Nat) : (s.modCell ix f).die j = s.die j := rfl
@[simp] theorem State.modCell_pkg (s : State) (ix : Nat) (f : Cell → Cell) (j : Nat) : (s.modCell ix f).pkg j = s.pkg j := rfl
@[simp] theorem State.modCell_node (s : State) (ix : Nat) (f : Cell → Cell) (j : Nat) : (s.modCell ix f).node j = s.node j := rfl
@[simp] theorem State.modCell_me (s : State) (ix : Nat) (f : Cell → Cell) : (s.modCell ix f).me = s.me := rfl
@[simp] theorem State.modCell_myDie (s : State) (ix : Nat) (f : Cell → Cell) : (s.modCell ix f).myDie = s.myDie := rfl

/-! `setDie`. -/

@[simp] theorem State.setDie_cells (s : State) (ix : Nat) (d : Die) : (s.setDie ix d).cells = s.cells := rfl
@[simp] theorem State.setDie_pkgs (s : State) (ix : Nat) (d : Die) : (s.setDie ix d).pkgs = s.pkgs := rfl
@[simp] theorem State.setDie_nodes (s : State) (ix : Nat) (d : Die) : (s.setDie ix d).nodes = s.nodes := rfl
@[simp] theorem State.setDie_mem (s : State) (ix : Nat) (d : Die) : (s.setDie ix d).mem = s.mem := rfl
@[simp] theorem State.setDie_heats (s : State) (ix : Nat) (d : Die) : (s.setDie ix d).heats = s.heats := rfl
@[simp] theorem State.setDie_eccBad (s : State) (ix : Nat) (d : Die) : (s.setDie ix d).eccBad = s.eccBad := rfl
@[simp] theorem State.setDie_eccOne (s : State) (ix : Nat) (d : Die) : (s.setDie ix d).eccOne = s.eccOne := rfl
@[simp] theorem State.setDie_reqs (s : State) (ix : Nat) (d : Die) : (s.setDie ix d).reqs = s.reqs := rfl
@[simp] theorem State.setDie_domKey (s : State) (ix : Nat) (d : Die) : (s.setDie ix d).domKey = s.domKey := rfl
@[simp] theorem State.setDie_version (s : State) (ix : Nat) (d : Die) : (s.setDie ix d).version = s.version := rfl
@[simp] theorem State.setDie_changing (s : State) (ix : Nat) (d : Die) : (s.setDie ix d).changing = s.changing := rfl
@[simp] theorem State.setDie_again (s : State) (ix : Nat) (d : Die) : (s.setDie ix d).again = s.again := rfl
@[simp] theorem State.setDie_topo (s : State) (ix : Nat) (d : Die) : (s.setDie ix d).topo = s.topo := rfl
@[simp] theorem State.setDie_told (s : State) (ix : Nat) (d : Die) : (s.setDie ix d).told = s.told := rfl
@[simp] theorem State.setDie_scTime (s : State) (ix : Nat) (d : Die) : (s.setDie ix d).scTime = s.scTime := rfl
@[simp] theorem State.setDie_cycle (s : State) (ix : Nat) (d : Die) : (s.setDie ix d).cycle = s.cycle := rfl
@[simp] theorem State.setDie_turns (s : State) (ix : Nat) (d : Die) : (s.setDie ix d).turns = s.turns := rfl
@[simp] theorem State.setDie_focus (s : State) (ix : Nat) (d : Die) : (s.setDie ix d).focus = s.focus := rfl
@[simp] theorem State.setDie_eng (s : State) (ix : Nat) (d : Die) : (s.setDie ix d).eng = s.eng := rfl
@[simp] theorem State.setDie_nextId (s : State) (ix : Nat) (d : Die) : (s.setDie ix d).nextId = s.nextId := rfl
@[simp] theorem State.setDie_free (s : State) (ix : Nat) (d : Die) : (s.setDie ix d).free = s.free := rfl
@[simp] theorem State.setDie_cell (s : State) (ix : Nat) (d : Die) (j : Nat) : (s.setDie ix d).cell j = s.cell j := rfl
@[simp] theorem State.setDie_pkg (s : State) (ix : Nat) (d : Die) (j : Nat) : (s.setDie ix d).pkg j = s.pkg j := rfl
@[simp] theorem State.setDie_node (s : State) (ix : Nat) (d : Die) (j : Nat) : (s.setDie ix d).node j = s.node j := rfl
@[simp] theorem State.setDie_cur (s : State) (ix : Nat) (d : Die) : (s.setDie ix d).cur = s.cur := rfl
@[simp] theorem State.setDie_me (s : State) (ix : Nat) (d : Die) : (s.setDie ix d).me = s.me := rfl
@[simp] theorem State.setDie_myDie (s : State) (ix : Nat) (d : Die) : (s.setDie ix d).myDie = s.myDie := rfl

/-! `modDie`. -/

@[simp] theorem State.modDie_cells (s : State) (ix : Nat) (f : Die → Die) : (s.modDie ix f).cells = s.cells := rfl
@[simp] theorem State.modDie_pkgs (s : State) (ix : Nat) (f : Die → Die) : (s.modDie ix f).pkgs = s.pkgs := rfl
@[simp] theorem State.modDie_nodes (s : State) (ix : Nat) (f : Die → Die) : (s.modDie ix f).nodes = s.nodes := rfl
@[simp] theorem State.modDie_mem (s : State) (ix : Nat) (f : Die → Die) : (s.modDie ix f).mem = s.mem := rfl
@[simp] theorem State.modDie_heats (s : State) (ix : Nat) (f : Die → Die) : (s.modDie ix f).heats = s.heats := rfl
@[simp] theorem State.modDie_eccBad (s : State) (ix : Nat) (f : Die → Die) : (s.modDie ix f).eccBad = s.eccBad := rfl
@[simp] theorem State.modDie_eccOne (s : State) (ix : Nat) (f : Die → Die) : (s.modDie ix f).eccOne = s.eccOne := rfl
@[simp] theorem State.modDie_reqs (s : State) (ix : Nat) (f : Die → Die) : (s.modDie ix f).reqs = s.reqs := rfl
@[simp] theorem State.modDie_domKey (s : State) (ix : Nat) (f : Die → Die) : (s.modDie ix f).domKey = s.domKey := rfl
@[simp] theorem State.modDie_version (s : State) (ix : Nat) (f : Die → Die) : (s.modDie ix f).version = s.version := rfl
@[simp] theorem State.modDie_changing (s : State) (ix : Nat) (f : Die → Die) : (s.modDie ix f).changing = s.changing := rfl
@[simp] theorem State.modDie_again (s : State) (ix : Nat) (f : Die → Die) : (s.modDie ix f).again = s.again := rfl
@[simp] theorem State.modDie_topo (s : State) (ix : Nat) (f : Die → Die) : (s.modDie ix f).topo = s.topo := rfl
@[simp] theorem State.modDie_told (s : State) (ix : Nat) (f : Die → Die) : (s.modDie ix f).told = s.told := rfl
@[simp] theorem State.modDie_scTime (s : State) (ix : Nat) (f : Die → Die) : (s.modDie ix f).scTime = s.scTime := rfl
@[simp] theorem State.modDie_cycle (s : State) (ix : Nat) (f : Die → Die) : (s.modDie ix f).cycle = s.cycle := rfl
@[simp] theorem State.modDie_turns (s : State) (ix : Nat) (f : Die → Die) : (s.modDie ix f).turns = s.turns := rfl
@[simp] theorem State.modDie_focus (s : State) (ix : Nat) (f : Die → Die) : (s.modDie ix f).focus = s.focus := rfl
@[simp] theorem State.modDie_eng (s : State) (ix : Nat) (f : Die → Die) : (s.modDie ix f).eng = s.eng := rfl
@[simp] theorem State.modDie_nextId (s : State) (ix : Nat) (f : Die → Die) : (s.modDie ix f).nextId = s.nextId := rfl
@[simp] theorem State.modDie_free (s : State) (ix : Nat) (f : Die → Die) : (s.modDie ix f).free = s.free := rfl
@[simp] theorem State.modDie_cell (s : State) (ix : Nat) (f : Die → Die) (j : Nat) : (s.modDie ix f).cell j = s.cell j := rfl
@[simp] theorem State.modDie_pkg (s : State) (ix : Nat) (f : Die → Die) (j : Nat) : (s.modDie ix f).pkg j = s.pkg j := rfl
@[simp] theorem State.modDie_node (s : State) (ix : Nat) (f : Die → Die) (j : Nat) : (s.modDie ix f).node j = s.node j := rfl
@[simp] theorem State.modDie_cur (s : State) (ix : Nat) (f : Die → Die) : (s.modDie ix f).cur = s.cur := rfl
@[simp] theorem State.modDie_me (s : State) (ix : Nat) (f : Die → Die) : (s.modDie ix f).me = s.me := rfl
@[simp] theorem State.modDie_myDie (s : State) (ix : Nat) (f : Die → Die) : (s.modDie ix f).myDie = s.myDie := rfl

/-! `setPkg`. -/

@[simp] theorem State.setPkg_cells (s : State) (ix : Nat) (p : Package) : (s.setPkg ix p).cells = s.cells := rfl
@[simp] theorem State.setPkg_dies (s : State) (ix : Nat) (p : Package) : (s.setPkg ix p).dies = s.dies := rfl
@[simp] theorem State.setPkg_nodes (s : State) (ix : Nat) (p : Package) : (s.setPkg ix p).nodes = s.nodes := rfl
@[simp] theorem State.setPkg_mem (s : State) (ix : Nat) (p : Package) : (s.setPkg ix p).mem = s.mem := rfl
@[simp] theorem State.setPkg_heats (s : State) (ix : Nat) (p : Package) : (s.setPkg ix p).heats = s.heats := rfl
@[simp] theorem State.setPkg_eccBad (s : State) (ix : Nat) (p : Package) : (s.setPkg ix p).eccBad = s.eccBad := rfl
@[simp] theorem State.setPkg_eccOne (s : State) (ix : Nat) (p : Package) : (s.setPkg ix p).eccOne = s.eccOne := rfl
@[simp] theorem State.setPkg_reqs (s : State) (ix : Nat) (p : Package) : (s.setPkg ix p).reqs = s.reqs := rfl
@[simp] theorem State.setPkg_domKey (s : State) (ix : Nat) (p : Package) : (s.setPkg ix p).domKey = s.domKey := rfl
@[simp] theorem State.setPkg_version (s : State) (ix : Nat) (p : Package) : (s.setPkg ix p).version = s.version := rfl
@[simp] theorem State.setPkg_changing (s : State) (ix : Nat) (p : Package) : (s.setPkg ix p).changing = s.changing := rfl
@[simp] theorem State.setPkg_again (s : State) (ix : Nat) (p : Package) : (s.setPkg ix p).again = s.again := rfl
@[simp] theorem State.setPkg_topo (s : State) (ix : Nat) (p : Package) : (s.setPkg ix p).topo = s.topo := rfl
@[simp] theorem State.setPkg_told (s : State) (ix : Nat) (p : Package) : (s.setPkg ix p).told = s.told := rfl
@[simp] theorem State.setPkg_scTime (s : State) (ix : Nat) (p : Package) : (s.setPkg ix p).scTime = s.scTime := rfl
@[simp] theorem State.setPkg_cycle (s : State) (ix : Nat) (p : Package) : (s.setPkg ix p).cycle = s.cycle := rfl
@[simp] theorem State.setPkg_turns (s : State) (ix : Nat) (p : Package) : (s.setPkg ix p).turns = s.turns := rfl
@[simp] theorem State.setPkg_focus (s : State) (ix : Nat) (p : Package) : (s.setPkg ix p).focus = s.focus := rfl
@[simp] theorem State.setPkg_eng (s : State) (ix : Nat) (p : Package) : (s.setPkg ix p).eng = s.eng := rfl
@[simp] theorem State.setPkg_nextId (s : State) (ix : Nat) (p : Package) : (s.setPkg ix p).nextId = s.nextId := rfl
@[simp] theorem State.setPkg_free (s : State) (ix : Nat) (p : Package) : (s.setPkg ix p).free = s.free := rfl
@[simp] theorem State.setPkg_cell (s : State) (ix : Nat) (p : Package) (j : Nat) : (s.setPkg ix p).cell j = s.cell j := rfl
@[simp] theorem State.setPkg_die (s : State) (ix : Nat) (p : Package) (j : Nat) : (s.setPkg ix p).die j = s.die j := rfl
@[simp] theorem State.setPkg_node (s : State) (ix : Nat) (p : Package) (j : Nat) : (s.setPkg ix p).node j = s.node j := rfl
@[simp] theorem State.setPkg_cur (s : State) (ix : Nat) (p : Package) : (s.setPkg ix p).cur = s.cur := rfl
@[simp] theorem State.setPkg_me (s : State) (ix : Nat) (p : Package) : (s.setPkg ix p).me = s.me := rfl
@[simp] theorem State.setPkg_myDie (s : State) (ix : Nat) (p : Package) : (s.setPkg ix p).myDie = s.myDie := rfl

/-! `modPkg`. -/

@[simp] theorem State.modPkg_cells (s : State) (ix : Nat) (f : Package → Package) : (s.modPkg ix f).cells = s.cells := rfl
@[simp] theorem State.modPkg_dies (s : State) (ix : Nat) (f : Package → Package) : (s.modPkg ix f).dies = s.dies := rfl
@[simp] theorem State.modPkg_nodes (s : State) (ix : Nat) (f : Package → Package) : (s.modPkg ix f).nodes = s.nodes := rfl
@[simp] theorem State.modPkg_mem (s : State) (ix : Nat) (f : Package → Package) : (s.modPkg ix f).mem = s.mem := rfl
@[simp] theorem State.modPkg_heats (s : State) (ix : Nat) (f : Package → Package) : (s.modPkg ix f).heats = s.heats := rfl
@[simp] theorem State.modPkg_eccBad (s : State) (ix : Nat) (f : Package → Package) : (s.modPkg ix f).eccBad = s.eccBad := rfl
@[simp] theorem State.modPkg_eccOne (s : State) (ix : Nat) (f : Package → Package) : (s.modPkg ix f).eccOne = s.eccOne := rfl
@[simp] theorem State.modPkg_reqs (s : State) (ix : Nat) (f : Package → Package) : (s.modPkg ix f).reqs = s.reqs := rfl
@[simp] theorem State.modPkg_domKey (s : State) (ix : Nat) (f : Package → Package) : (s.modPkg ix f).domKey = s.domKey := rfl
@[simp] theorem State.modPkg_version (s : State) (ix : Nat) (f : Package → Package) : (s.modPkg ix f).version = s.version := rfl
@[simp] theorem State.modPkg_changing (s : State) (ix : Nat) (f : Package → Package) : (s.modPkg ix f).changing = s.changing := rfl
@[simp] theorem State.modPkg_again (s : State) (ix : Nat) (f : Package → Package) : (s.modPkg ix f).again = s.again := rfl
@[simp] theorem State.modPkg_topo (s : State) (ix : Nat) (f : Package → Package) : (s.modPkg ix f).topo = s.topo := rfl
@[simp] theorem State.modPkg_told (s : State) (ix : Nat) (f : Package → Package) : (s.modPkg ix f).told = s.told := rfl
@[simp] theorem State.modPkg_scTime (s : State) (ix : Nat) (f : Package → Package) : (s.modPkg ix f).scTime = s.scTime := rfl
@[simp] theorem State.modPkg_cycle (s : State) (ix : Nat) (f : Package → Package) : (s.modPkg ix f).cycle = s.cycle := rfl
@[simp] theorem State.modPkg_turns (s : State) (ix : Nat) (f : Package → Package) : (s.modPkg ix f).turns = s.turns := rfl
@[simp] theorem State.modPkg_focus (s : State) (ix : Nat) (f : Package → Package) : (s.modPkg ix f).focus = s.focus := rfl
@[simp] theorem State.modPkg_eng (s : State) (ix : Nat) (f : Package → Package) : (s.modPkg ix f).eng = s.eng := rfl
@[simp] theorem State.modPkg_nextId (s : State) (ix : Nat) (f : Package → Package) : (s.modPkg ix f).nextId = s.nextId := rfl
@[simp] theorem State.modPkg_free (s : State) (ix : Nat) (f : Package → Package) : (s.modPkg ix f).free = s.free := rfl
@[simp] theorem State.modPkg_cell (s : State) (ix : Nat) (f : Package → Package) (j : Nat) : (s.modPkg ix f).cell j = s.cell j := rfl
@[simp] theorem State.modPkg_die (s : State) (ix : Nat) (f : Package → Package) (j : Nat) : (s.modPkg ix f).die j = s.die j := rfl
@[simp] theorem State.modPkg_node (s : State) (ix : Nat) (f : Package → Package) (j : Nat) : (s.modPkg ix f).node j = s.node j := rfl
@[simp] theorem State.modPkg_cur (s : State) (ix : Nat) (f : Package → Package) : (s.modPkg ix f).cur = s.cur := rfl
@[simp] theorem State.modPkg_me (s : State) (ix : Nat) (f : Package → Package) : (s.modPkg ix f).me = s.me := rfl
@[simp] theorem State.modPkg_myDie (s : State) (ix : Nat) (f : Package → Package) : (s.modPkg ix f).myDie = s.myDie := rfl

/-! `setNode`. -/

@[simp] theorem State.setNode_cells (s : State) (ix : Nat) (n : Node) : (s.setNode ix n).cells = s.cells := rfl
@[simp] theorem State.setNode_dies (s : State) (ix : Nat) (n : Node) : (s.setNode ix n).dies = s.dies := rfl
@[simp] theorem State.setNode_pkgs (s : State) (ix : Nat) (n : Node) : (s.setNode ix n).pkgs = s.pkgs := rfl
@[simp] theorem State.setNode_mem (s : State) (ix : Nat) (n : Node) : (s.setNode ix n).mem = s.mem := rfl
@[simp] theorem State.setNode_heats (s : State) (ix : Nat) (n : Node) : (s.setNode ix n).heats = s.heats := rfl
@[simp] theorem State.setNode_eccBad (s : State) (ix : Nat) (n : Node) : (s.setNode ix n).eccBad = s.eccBad := rfl
@[simp] theorem State.setNode_eccOne (s : State) (ix : Nat) (n : Node) : (s.setNode ix n).eccOne = s.eccOne := rfl
@[simp] theorem State.setNode_reqs (s : State) (ix : Nat) (n : Node) : (s.setNode ix n).reqs = s.reqs := rfl
@[simp] theorem State.setNode_domKey (s : State) (ix : Nat) (n : Node) : (s.setNode ix n).domKey = s.domKey := rfl
@[simp] theorem State.setNode_version (s : State) (ix : Nat) (n : Node) : (s.setNode ix n).version = s.version := rfl
@[simp] theorem State.setNode_changing (s : State) (ix : Nat) (n : Node) : (s.setNode ix n).changing = s.changing := rfl
@[simp] theorem State.setNode_again (s : State) (ix : Nat) (n : Node) : (s.setNode ix n).again = s.again := rfl
@[simp] theorem State.setNode_topo (s : State) (ix : Nat) (n : Node) : (s.setNode ix n).topo = s.topo := rfl
@[simp] theorem State.setNode_told (s : State) (ix : Nat) (n : Node) : (s.setNode ix n).told = s.told := rfl
@[simp] theorem State.setNode_scTime (s : State) (ix : Nat) (n : Node) : (s.setNode ix n).scTime = s.scTime := rfl
@[simp] theorem State.setNode_cycle (s : State) (ix : Nat) (n : Node) : (s.setNode ix n).cycle = s.cycle := rfl
@[simp] theorem State.setNode_turns (s : State) (ix : Nat) (n : Node) : (s.setNode ix n).turns = s.turns := rfl
@[simp] theorem State.setNode_focus (s : State) (ix : Nat) (n : Node) : (s.setNode ix n).focus = s.focus := rfl
@[simp] theorem State.setNode_eng (s : State) (ix : Nat) (n : Node) : (s.setNode ix n).eng = s.eng := rfl
@[simp] theorem State.setNode_nextId (s : State) (ix : Nat) (n : Node) : (s.setNode ix n).nextId = s.nextId := rfl
@[simp] theorem State.setNode_free (s : State) (ix : Nat) (n : Node) : (s.setNode ix n).free = s.free := rfl
@[simp] theorem State.setNode_cell (s : State) (ix : Nat) (n : Node) (j : Nat) : (s.setNode ix n).cell j = s.cell j := rfl
@[simp] theorem State.setNode_die (s : State) (ix : Nat) (n : Node) (j : Nat) : (s.setNode ix n).die j = s.die j := rfl
@[simp] theorem State.setNode_pkg (s : State) (ix : Nat) (n : Node) (j : Nat) : (s.setNode ix n).pkg j = s.pkg j := rfl
@[simp] theorem State.setNode_cur (s : State) (ix : Nat) (n : Node) : (s.setNode ix n).cur = s.cur := rfl
@[simp] theorem State.setNode_me (s : State) (ix : Nat) (n : Node) : (s.setNode ix n).me = s.me := rfl
@[simp] theorem State.setNode_myDie (s : State) (ix : Nat) (n : Node) : (s.setNode ix n).myDie = s.myDie := rfl

/-! `modNode`. -/

@[simp] theorem State.modNode_cells (s : State) (ix : Nat) (f : Node → Node) : (s.modNode ix f).cells = s.cells := rfl
@[simp] theorem State.modNode_dies (s : State) (ix : Nat) (f : Node → Node) : (s.modNode ix f).dies = s.dies := rfl
@[simp] theorem State.modNode_pkgs (s : State) (ix : Nat) (f : Node → Node) : (s.modNode ix f).pkgs = s.pkgs := rfl
@[simp] theorem State.modNode_mem (s : State) (ix : Nat) (f : Node → Node) : (s.modNode ix f).mem = s.mem := rfl
@[simp] theorem State.modNode_heats (s : State) (ix : Nat) (f : Node → Node) : (s.modNode ix f).heats = s.heats := rfl
@[simp] theorem State.modNode_eccBad (s : State) (ix : Nat) (f : Node → Node) : (s.modNode ix f).eccBad = s.eccBad := rfl
@[simp] theorem State.modNode_eccOne (s : State) (ix : Nat) (f : Node → Node) : (s.modNode ix f).eccOne = s.eccOne := rfl
@[simp] theorem State.modNode_reqs (s : State) (ix : Nat) (f : Node → Node) : (s.modNode ix f).reqs = s.reqs := rfl
@[simp] theorem State.modNode_domKey (s : State) (ix : Nat) (f : Node → Node) : (s.modNode ix f).domKey = s.domKey := rfl
@[simp] theorem State.modNode_version (s : State) (ix : Nat) (f : Node → Node) : (s.modNode ix f).version = s.version := rfl
@[simp] theorem State.modNode_changing (s : State) (ix : Nat) (f : Node → Node) : (s.modNode ix f).changing = s.changing := rfl
@[simp] theorem State.modNode_again (s : State) (ix : Nat) (f : Node → Node) : (s.modNode ix f).again = s.again := rfl
@[simp] theorem State.modNode_topo (s : State) (ix : Nat) (f : Node → Node) : (s.modNode ix f).topo = s.topo := rfl
@[simp] theorem State.modNode_told (s : State) (ix : Nat) (f : Node → Node) : (s.modNode ix f).told = s.told := rfl
@[simp] theorem State.modNode_scTime (s : State) (ix : Nat) (f : Node → Node) : (s.modNode ix f).scTime = s.scTime := rfl
@[simp] theorem State.modNode_cycle (s : State) (ix : Nat) (f : Node → Node) : (s.modNode ix f).cycle = s.cycle := rfl
@[simp] theorem State.modNode_turns (s : State) (ix : Nat) (f : Node → Node) : (s.modNode ix f).turns = s.turns := rfl
@[simp] theorem State.modNode_focus (s : State) (ix : Nat) (f : Node → Node) : (s.modNode ix f).focus = s.focus := rfl
@[simp] theorem State.modNode_eng (s : State) (ix : Nat) (f : Node → Node) : (s.modNode ix f).eng = s.eng := rfl
@[simp] theorem State.modNode_nextId (s : State) (ix : Nat) (f : Node → Node) : (s.modNode ix f).nextId = s.nextId := rfl
@[simp] theorem State.modNode_free (s : State) (ix : Nat) (f : Node → Node) : (s.modNode ix f).free = s.free := rfl
@[simp] theorem State.modNode_cell (s : State) (ix : Nat) (f : Node → Node) (j : Nat) : (s.modNode ix f).cell j = s.cell j := rfl
@[simp] theorem State.modNode_die (s : State) (ix : Nat) (f : Node → Node) (j : Nat) : (s.modNode ix f).die j = s.die j := rfl
@[simp] theorem State.modNode_pkg (s : State) (ix : Nat) (f : Node → Node) (j : Nat) : (s.modNode ix f).pkg j = s.pkg j := rfl
@[simp] theorem State.modNode_cur (s : State) (ix : Nat) (f : Node → Node) : (s.modNode ix f).cur = s.cur := rfl
@[simp] theorem State.modNode_me (s : State) (ix : Nat) (f : Node → Node) : (s.modNode ix f).me = s.me := rfl
@[simp] theorem State.modNode_myDie (s : State) (ix : Nat) (f : Node → Node) : (s.modNode ix f).myDie = s.myDie := rfl

/-! `upd`. -/

@[simp] theorem State.upd_dies (s : State) (f : Cell → Cell) : (s.upd f).dies = s.dies := rfl
@[simp] theorem State.upd_pkgs (s : State) (f : Cell → Cell) : (s.upd f).pkgs = s.pkgs := rfl
@[simp] theorem State.upd_nodes (s : State) (f : Cell → Cell) : (s.upd f).nodes = s.nodes := rfl
@[simp] theorem State.upd_mem (s : State) (f : Cell → Cell) : (s.upd f).mem = s.mem := rfl
@[simp] theorem State.upd_heats (s : State) (f : Cell → Cell) : (s.upd f).heats = s.heats := rfl
@[simp] theorem State.upd_eccBad (s : State) (f : Cell → Cell) : (s.upd f).eccBad = s.eccBad := rfl
@[simp] theorem State.upd_eccOne (s : State) (f : Cell → Cell) : (s.upd f).eccOne = s.eccOne := rfl
@[simp] theorem State.upd_reqs (s : State) (f : Cell → Cell) : (s.upd f).reqs = s.reqs := rfl
@[simp] theorem State.upd_domKey (s : State) (f : Cell → Cell) : (s.upd f).domKey = s.domKey := rfl
@[simp] theorem State.upd_version (s : State) (f : Cell → Cell) : (s.upd f).version = s.version := rfl
@[simp] theorem State.upd_changing (s : State) (f : Cell → Cell) : (s.upd f).changing = s.changing := rfl
@[simp] theorem State.upd_again (s : State) (f : Cell → Cell) : (s.upd f).again = s.again := rfl
@[simp] theorem State.upd_topo (s : State) (f : Cell → Cell) : (s.upd f).topo = s.topo := rfl
@[simp] theorem State.upd_told (s : State) (f : Cell → Cell) : (s.upd f).told = s.told := rfl
@[simp] theorem State.upd_scTime (s : State) (f : Cell → Cell) : (s.upd f).scTime = s.scTime := rfl
@[simp] theorem State.upd_cycle (s : State) (f : Cell → Cell) : (s.upd f).cycle = s.cycle := rfl
@[simp] theorem State.upd_turns (s : State) (f : Cell → Cell) : (s.upd f).turns = s.turns := rfl
@[simp] theorem State.upd_focus (s : State) (f : Cell → Cell) : (s.upd f).focus = s.focus := rfl
@[simp] theorem State.upd_eng (s : State) (f : Cell → Cell) : (s.upd f).eng = s.eng := rfl
@[simp] theorem State.upd_nextId (s : State) (f : Cell → Cell) : (s.upd f).nextId = s.nextId := rfl
@[simp] theorem State.upd_free (s : State) (f : Cell → Cell) : (s.upd f).free = s.free := rfl
@[simp] theorem State.upd_die (s : State) (f : Cell → Cell) (j : Nat) : (s.upd f).die j = s.die j := rfl
@[simp] theorem State.upd_pkg (s : State) (f : Cell → Cell) (j : Nat) : (s.upd f).pkg j = s.pkg j := rfl
@[simp] theorem State.upd_node (s : State) (f : Cell → Cell) (j : Nat) : (s.upd f).node j = s.node j := rfl
@[simp] theorem State.upd_me (s : State) (f : Cell → Cell) : (s.upd f).me = s.me := rfl
@[simp] theorem State.upd_myDie (s : State) (f : Cell → Cell) : (s.upd f).myDie = s.myDie := rfl

/-! `count`. -/

@[simp] theorem State.count_cells (s : State) (die k : Nat) : (s.count die k).cells = s.cells := rfl
@[simp] theorem State.count_pkgs (s : State) (die k : Nat) : (s.count die k).pkgs = s.pkgs := rfl
@[simp] theorem State.count_nodes (s : State) (die k : Nat) : (s.count die k).nodes = s.nodes := rfl
@[simp] theorem State.count_mem (s : State) (die k : Nat) : (s.count die k).mem = s.mem := rfl
@[simp] theorem State.count_heats (s : State) (die k : Nat) : (s.count die k).heats = s.heats := rfl
@[simp] theorem State.count_eccBad (s : State) (die k : Nat) : (s.count die k).eccBad = s.eccBad := rfl
@[simp] theorem State.count_eccOne (s : State) (die k : Nat) : (s.count die k).eccOne = s.eccOne := rfl
@[simp] theorem State.count_reqs (s : State) (die k : Nat) : (s.count die k).reqs = s.reqs := rfl
@[simp] theorem State.count_domKey (s : State) (die k : Nat) : (s.count die k).domKey = s.domKey := rfl
@[simp] theorem State.count_version (s : State) (die k : Nat) : (s.count die k).version = s.version := rfl
@[simp] theorem State.count_changing (s : State) (die k : Nat) : (s.count die k).changing = s.changing := rfl
@[simp] theorem State.count_again (s : State) (die k : Nat) : (s.count die k).again = s.again := rfl
@[simp] theorem State.count_topo (s : State) (die k : Nat) : (s.count die k).topo = s.topo := rfl
@[simp] theorem State.count_told (s : State) (die k : Nat) : (s.count die k).told = s.told := rfl
@[simp] theorem State.count_scTime (s : State) (die k : Nat) : (s.count die k).scTime = s.scTime := rfl
@[simp] theorem State.count_cycle (s : State) (die k : Nat) : (s.count die k).cycle = s.cycle := rfl
@[simp] theorem State.count_turns (s : State) (die k : Nat) : (s.count die k).turns = s.turns := rfl
@[simp] theorem State.count_focus (s : State) (die k : Nat) : (s.count die k).focus = s.focus := rfl
@[simp] theorem State.count_eng (s : State) (die k : Nat) : (s.count die k).eng = s.eng := rfl
@[simp] theorem State.count_nextId (s : State) (die k : Nat) : (s.count die k).nextId = s.nextId := rfl
@[simp] theorem State.count_free (s : State) (die k : Nat) : (s.count die k).free = s.free := rfl
@[simp] theorem State.count_cell (s : State) (die k : Nat) (j : Nat) : (s.count die k).cell j = s.cell j := rfl
@[simp] theorem State.count_pkg (s : State) (die k : Nat) (j : Nat) : (s.count die k).pkg j = s.pkg j := rfl
@[simp] theorem State.count_node (s : State) (die k : Nat) (j : Nat) : (s.count die k).node j = s.node j := rfl
@[simp] theorem State.count_cur (s : State) (die k : Nat) : (s.count die k).cur = s.cur := rfl
@[simp] theorem State.count_me (s : State) (die k : Nat) : (s.count die k).me = s.me := rfl
@[simp] theorem State.count_myDie (s : State) (die k : Nat) : (s.count die k).myDie = s.myDie := rfl

/-! What an update reads back as. -/

theorem State.setCell_cell (s : State) (ix : Nat) (c : Cell) (j : Nat) : (s.setCell ix c).cell j = if j = ix then c else s.cell j := by
  simp [State.setCell, State.cell, lookup_insertAt]

@[simp] theorem State.setCell_cell_self (s : State) (ix : Nat) (c : Cell) : (s.setCell ix c).cell ix = c := by
  simp [State.setCell_cell]

theorem State.modCell_cell (s : State) (ix : Nat) (f : Cell → Cell) (j : Nat) :
    (s.modCell ix f).cell j = if j = ix then f (s.cell ix) else s.cell j := by
  simp [State.modCell, State.setCell_cell]

@[simp] theorem State.modCell_cell_self (s : State) (ix : Nat) (f : Cell → Cell) : (s.modCell ix f).cell ix = f (s.cell ix) := by
  simp [State.modCell_cell]

@[simp] theorem State.upd_cur (s : State) (f : Cell → Cell) : (s.upd f).cur = f s.cur :=
  State.modCell_cell_self s s.me f

theorem State.upd_cell (s : State) (f : Cell → Cell) (j : Nat) : (s.upd f).cell j = if j = s.me then f s.cur else s.cell j :=
  State.modCell_cell s s.me f j

theorem State.setDie_die (s : State) (ix : Nat) (d : Die) (j : Nat) : (s.setDie ix d).die j = if j = ix then d else s.die j := by
  simp [State.setDie, State.die, lookup_insertAt]

@[simp] theorem State.setDie_die_self (s : State) (ix : Nat) (d : Die) : (s.setDie ix d).die ix = d := by
  simp [State.setDie_die]

theorem State.modDie_die (s : State) (ix : Nat) (f : Die → Die) (j : Nat) :
    (s.modDie ix f).die j = if j = ix then f (s.die ix) else s.die j := by
  simp [State.modDie, State.setDie_die]

@[simp] theorem State.modDie_die_self (s : State) (ix : Nat) (f : Die → Die) : (s.modDie ix f).die ix = f (s.die ix) := by
  simp [State.modDie_die]

theorem State.setPkg_pkg (s : State) (ix : Nat) (p : Package) (j : Nat) : (s.setPkg ix p).pkg j = if j = ix then p else s.pkg j := by
  simp [State.setPkg, State.pkg, lookup_insertAt]

@[simp] theorem State.modPkg_pkg_self (s : State) (ix : Nat) (f : Package → Package) : (s.modPkg ix f).pkg ix = f (s.pkg ix) := by
  simp [State.modPkg, State.setPkg_pkg]

theorem State.setNode_node (s : State) (ix : Nat) (n : Node) (j : Nat) :
    (s.setNode ix n).node j = if j = ix then n else s.node j := by
  simp [State.setNode, State.node, lookup_insertAt]

@[simp] theorem State.modNode_node_self (s : State) (ix : Nat) (f : Node → Node) : (s.modNode ix f).node ix = f (s.node ix) := by
  simp [State.modNode, State.setNode_node]

/-! `fresh`. -/

@[simp] theorem State.fresh_id (s : State) : s.fresh.1 = s.nextId := rfl
@[simp] theorem State.fresh_state (s : State) : s.fresh.2 = { s with nextId := s.nextId + 1 } := rfl

end Sys2Proof.Machine
end

