-- ==== Sys2Proof/Laws/Issue.lean ====
section
/-! SUPPORT. What the issue of a word does, said once for each kind of word. -/
namespace Sys2Proof.Machine
open Sys2Proof

/-! Engines of a cell. -/

@[simp] theorem Cell.setEngine_engine_self (c : Cell) (e : Engine) (x : EngineState) : (c.setEngine e x).engine e = x := by
  cases e <;> rfl

theorem Cell.setEngine_engine_ne (c : Cell) {e f : Engine} (x : EngineState) (h : f ≠ e) : (c.setEngine e x).engine f = c.engine f := by
  cases e <;> cases f <;> first | rfl | exact absurd rfl h

theorem Outside.refl (s : State) : Outside s s := ⟨rfl, fun _ _ => rfl, fun _ => rfl, fun _ => rfl⟩

theorem Outside.trans {s t u : State} (h : Outside s t) (k : Outside t u) (hm : t.me = s.me) : Outside s u where
  rest := by
    have a := h.rest
    have b := k.rest
    rw [← a, ← b]
  cells ix hx := by rw [k.cells ix (hm ▸ hx), h.cells ix hx]
  dies d := by
    have a := h.dies d
    have b := k.dies d
    rw [← a, ← b]
  memory a := (k.memory a).trans (h.memory a)

/-- A change of the cell in focus leaves everything outside it alone. -/
theorem Outside.upd (s : State) (f : Cell → Cell) : Outside s (s.upd f) where
  rest := rfl
  cells ix h := by rw [State.upd_cell, if_neg h]
  dies _ := rfl
  memory _ := rfl

/-- A count of an event leaves everything outside the cell alone but the counter. -/
theorem Outside.count (s : State) (d k : Nat) : Outside s (s.count d k) where
  rest := rfl
  cells _ _ := rfl
  dies j := by
    by_cases h : j = d
    · subst h; simp [State.count]
    · simp [State.count, State.modDie_die, h]
  memory _ := rfl

theorem Local.of_outside {s t : State} (h : Outside s t) : Local s t := by
  have a := h.rest
  have hn : t.nextId = s.nextId := by rw [← a]
  have hf : t.free = s.free := by rw [← a]
  unfold Local
  rw [hn, hf]
  exact h

theorem Local.refl (s : State) : Local s s := Outside.refl s

/-- A change of the cell in focus is local. -/
theorem Local.upd (s : State) (f : Cell → Cell) : Local s (s.upd f) := Outside.upd s f

/-! Landings. -/

theorem addLanding_cur (s : State) (lat : Nat) (k : LandKind) :
    (addLanding s lat k).cur = { s.cur with landings := s.cur.landings ++ [⟨s.cycle + lat, s.nextId, k⟩] } :=
  State.upd_cur { s with nextId := s.nextId + 1 } _

@[simp] theorem addLanding_me (s : State) (lat : Nat) (k : LandKind) : (addLanding s lat k).me = s.me := rfl
@[simp] theorem addLanding_cycle (s : State) (lat : Nat) (k : LandKind) : (addLanding s lat k).cycle = s.cycle := rfl

theorem addLanding_local (s : State) (lat : Nat) (k : LandKind) : Local s (addLanding s lat k) :=
  Outside.upd { s with nextId := s.nextId + 1 } _

/-- The same after another change of the cell. -/
theorem addLanding_upd_local (s : State) (f : Cell → Cell) (lat : Nat) (k : LandKind) : Local s (addLanding (s.upd f) lat k) :=
  (Outside.upd { s with nextId := s.nextId + 1 } f).trans (Outside.upd { s.upd f with nextId := s.nextId + 1 } _) rfl

/-! `passDest` and `retireWord`. -/

theorem passDest_cur (s : State) (e : Engine) (x : Nat) : (passDest s e x).cur = (s.cur.bump e x).publish e x :=
  State.upd_cur s _

@[simp] theorem passDest_me (s : State) (e : Engine) (x : Nat) : (passDest s e x).me = s.me := rfl
@[simp] theorem passDest_cycle (s : State) (e : Engine) (x : Nat) : (passDest s e x).cycle = s.cycle := rfl

/-- The cell once a word of engine e has issued. -/
theorem retireWord_cur (s : State) (e : Engine) (n stall : Nat) (move : Bool) :
    (retireWord s e n stall move).cur = s.cur.retire e s.cycle n stall move := by
  unfold retireWord
  split
  · exact State.upd_cur s _
  · exact (State.count_cur _ _ _).trans (State.upd_cur s _)

@[simp] theorem retireWord_me (s : State) (e : Engine) (n stall : Nat) (move : Bool) : (retireWord s e n stall move).me = s.me := by
  unfold retireWord; split <;> rfl

theorem retireWord_outside (s : State) (e : Engine) (n stall : Nat) (move : Bool) : Outside s (retireWord s e n stall move) := by
  unfold retireWord
  split
  · exact Outside.upd s _
  · exact (Outside.upd s _).trans (Outside.count _ _ _) rfl

/-- A cell with an engine's counts of shared registers and the version counts replaced. -/
def Cell.counted (c : Cell) (e : Engine) (ex vs : SMap Nat) : Cell :=
  { c.setEngine e { c.engine e with expect := ex } with versions := vs }

theorem Cell.bump_eq (c : Cell) (e : Engine) (x : Nat) :
    c.bump e x = c.counted e (if x = 0 then (c.engine e).expect else insertAt (c.engine e).expect x (lookup 0 (c.engine e).expect x + 1))
      c.versions := by
  unfold Cell.bump
  split <;> cases c <;> cases e <;> rfl

theorem Cell.publish_eq (c : Cell) (e : Engine) (x : Nat) :
    c.publish e x = c.counted e (c.engine e).expect (if x = 0 then c.versions else insertAt c.versions x (c.expects e x)) := by
  unfold Cell.publish
  split <;> cases c <;> cases e <;> rfl

theorem Cell.counted_counted (c : Cell) (e : Engine) (ex vs ex' vs' : SMap Nat) :
    (c.counted e ex vs).counted e ex' vs' = c.counted e ex' vs' := by
  cases c; cases e <;> rfl

theorem Cell.counted_retire_engine (c : Cell) (e : Engine) (ex vs : SMap Nat) (cycle n stall : Nat) (move : Bool) :
    ((c.counted e ex vs).retire e cycle n stall move).engine e =
      { c.engine e with pc := (if move then (c.engine e).pc + BitVec.ofNat 64 (4 * n) else (c.engine e).pc)
                        nextIssue := max (c.engine e).nextIssue (cycle + max 1 stall), wait := .none, expect := ex } := by
  cases c; cases e <;> rfl

theorem Cell.counted_retire_iret (c : Cell) (e : Engine) (ex vs : SMap Nat) (cycle n stall : Nat) (move : Bool) :
    ((c.counted e ex vs).retire e cycle n stall move).iret = c.iret + 1 := by
  cases c; cases e <;> rfl

theorem Cell.counted_retire_rest (c : Cell) (e : Engine) (ex vs : SMap Nat) (cycle n stall : Nat) (move : Bool) :
    { ((c.counted e ex vs).retire e cycle n stall move).setEngine e (c.engine e) with iret := c.iret, versions := c.versions } = c := by
  cases c; cases e <;> rfl

theorem Cell.counted_retire_versions (c : Cell) (e : Engine) (ex vs : SMap Nat) (cycle n stall : Nat) (move : Bool) :
    ((c.counted e ex vs).retire e cycle n stall move).versions = vs := by
  cases c; cases e <;> rfl

/-- A word of engine e whose effect is u, and which changes no more than the engine's counts and the versions, has issued. -/
theorem Issued.of_counted (u : State) (e : Engine) (n stall : Nat) (f : Cell → Cell) (ex vs : SMap Nat)
    {x : Nat} {late : Bool} (hf : f u.cur = u.cur.counted e ex vs)
    (hx : ∀ y, lookup 0 ex y = u.cur.expects e y + (if x ≠ 0 ∧ y = x then 1 else 0))
    (hv : ∀ y, lookup 0 vs y = if x ≠ 0 ∧ y = x ∧ late = false then u.cur.expects e x + 1 else u.cur.version y) :
    Issued e n x late u (retireWord (u.upd f) e n stall true) := by
  have hc : (retireWord (u.upd f) e n stall true).cur = (u.cur.counted e ex vs).retire e u.cycle n stall true := by
    rw [retireWord_cur, State.upd_cur, hf]; rfl
  have he := Cell.counted_retire_engine u.cur e ex vs u.cycle n stall true
  refine ⟨?_, ?_, ?_, ?_, ?_, ⟨fun y => ?_, fun y => ?_⟩, (Outside.upd u _).trans (retireWord_outside _ _ _ _ _) rfl⟩ <;> rw [hc]
  · rw [he]; rfl
  · exact Cell.counted_retire_iret ..
  · rw [he]; simp only; omega
  · rw [he]
  · exact Cell.counted_retire_rest ..
  · rw [Cell.expects, he]; exact hx y
  · rw [Cell.version, Cell.counted_retire_versions]; exact hv y

@[simp] theorem Cell.counted_expect (c : Cell) (e : Engine) (ex vs : SMap Nat) : ((c.counted e ex vs).engine e).expect = ex := by
  cases c; cases e <;> rfl

@[simp] theorem Cell.counted_versions (c : Cell) (e : Engine) (ex vs : SMap Nat) : (c.counted e ex vs).versions = vs := by
  cases c; cases e <;> rfl

theorem bumped_lookup (c : Cell) (e : Engine) (x y : Nat) :
    lookup 0 (if x = 0 then (c.engine e).expect else insertAt (c.engine e).expect x (lookup 0 (c.engine e).expect x + 1)) y
      = c.expects e y + (if x ≠ 0 ∧ y = x then 1 else 0) := by
  by_cases h : x = 0
  · simp [h, Cell.expects]
  · by_cases hy : y = x
    · simp [h, hy, Cell.expects]
    · simp [h, hy, lookup_insertAt_ne, Cell.expects]

/-- An issued word leaves the state described by `Issued`, whatever it bumps or publishes of the shared registers. -/
theorem Issued.bump (u : State) (e : Engine) (n stall x : Nat) :
    Issued e n x true u (retireWord (u.upd (fun c => c.bump e x)) e n stall true) :=
  Issued.of_counted u e n stall _ _ _ (Cell.bump_eq _ _ _) (bumped_lookup u.cur e x) (fun y => by simp [Cell.version])

theorem Issued.pass (u : State) (e : Engine) (n stall x : Nat) : Issued e n x false u (retireWord (passDest u e x) e n stall true) :=
  Issued.of_counted u e n stall _ _ _ (by rw [Cell.publish_eq, Cell.bump_eq, Cell.counted_counted])
    (fun y => by rw [Cell.counted_expect]; exact bumped_lookup u.cur e x y)
    (fun y => by
      rw [Cell.counted_versions]
      by_cases h : x = 0
      · simp [h, Cell.version]
      · by_cases hy : y = x
        · simp [h, hy, Cell.expects, Cell.counted_expect]
        · simp [h, hy, lookup_insertAt_ne, Cell.version])

/-- A word that has no effect but to issue. -/
theorem Issued.retire (u : State) (e : Engine) (n stall : Nat) (late : Bool) : Issued e n 0 late u (retireWord u e n stall true) := by
  have hc : (retireWord u e n stall true).cur = (u.cur.counted e (u.cur.engine e).expect u.cur.versions).retire e u.cycle n stall true := by
    rw [retireWord_cur, show u.cur.counted e (u.cur.engine e).expect u.cur.versions = u.cur by generalize u.cur = c; cases c; cases e <;> rfl]
  have he := Cell.counted_retire_engine u.cur e (u.cur.engine e).expect u.cur.versions u.cycle n stall true
  refine ⟨?_, ?_, ?_, ?_, ?_, ⟨fun y => ?_, fun y => ?_⟩, retireWord_outside _ _ _ _ _⟩ <;> rw [hc]
  · rw [he]; rfl
  · exact Cell.counted_retire_iret ..
  · rw [he]; simp only; omega
  · rw [he]
  · exact Cell.counted_retire_rest ..
  · rw [Cell.expects, he]; simp [Cell.expects]
  · rw [Cell.version, Cell.counted_retire_versions]; simp [Cell.version]

/-! A words. -/

/-- An A word that may issue comes to what its effect comes to. -/
theorem aWord_go {i : AInfo} {s : State} (h : AGo i s) (body : State → Res) : aWord i body s = .next (settle i s (body s)) := by
  have h1 : (i.cm && !isCmd s.me) = false := by
    cases hc : i.cm
    · rfl
    · simp [h.mode hc]
  have h2 : (i.pg.toNat :: i.reads).find? (fun x => !s.cur.mayRead .A x) = none := by
    rw [List.find?_eq_none]
    intro x hx
    simp [h.reads x hx]
  have h3 : (i.access && !s.cur.acquire.isEmpty) = false := by
    cases hc : i.access
    · rfl
    · simp [h.hold hc]
  simp only [aWord, aStep, h1, h2, h.dest, h.ready, h.guard, h3, Bool.not_true, Bool.false_eq_true, if_false]

/-- The same where the effect is done at once. -/
theorem aWord_done {i : AInfo} {s u : State} (h : AGo i s) {body : State → Res} (hb : body s = .done u) :
    ∃ t, aWord i body s = .next t ∧ AIssued i.dest false u t :=
  ⟨_, by rw [aWord_go h, hb]; rfl, Issued.pass u .A 1 1 i.dest⟩

/-- The same where the word's shared result lands later. -/
theorem aWord_later {i : AInfo} {s u : State} (h : AGo i s) {body : State → Res} (hb : body s = .later u) :
    ∃ t, aWord i body s = .next t ∧ AIssued i.dest true u t :=
  ⟨_, by rw [aWord_go h, hb]; rfl, Issued.bump u .A 1 1 i.dest⟩

/-- The same where the effect is a stopping fault at the word. -/
theorem aWord_trap {i : AInfo} {s : State} (h : AGo i s) {body : State → Res} {code : FaultCode} {v : Word} (hb : body s = .trap code v) :
    aWord i body s = .next (takeFault s s.me 0 code v) := by
  rw [aWord_go h, hb]; rfl

/-- A guard-false A word passes and does nothing (R41). -/
theorem aWord_not {i : AInfo} {s : State} (h : ANot i s) (body : State → Res) : ∃ t, aWord i body s = .next t ∧ AIssued i.dest false s t := by
  have h1 : (i.cm && !isCmd s.me) = false := by
    cases hc : i.cm
    · rfl
    · simp [h.mode hc]
  have h2 : (i.pg.toNat :: i.reads).find? (fun x => !s.cur.mayRead .A x) = none := by
    rw [List.find?_eq_none]
    intro x hx
    simp [h.reads x hx]
  refine ⟨retireWord (passDest s .A i.dest) .A 1 1 true, ?_, Issued.pass s .A 1 1 i.dest⟩
  simp only [aWord, aStep, h1, h2, h.dest, h.ready, h.guard, Bool.not_true, Bool.not_false, Bool.false_eq_true, if_false, if_true]

/-- An A word of command mode in a strand cell takes PRIV before anything else (R66 step 3). -/
theorem aWord_priv {i : AInfo} {s : State} (hm : i.cm = true) (hc : isCmd s.me = false) (body : State → Res) :
    aWord i body s = .next (faultHere s .A .priv s.cur.A.pc) := by
  simp [aWord, aStep, hm, hc]

/-! V and M words. -/

/-- A V or M word that may issue comes to what its effect comes to. -/
theorem vStep_go {e : Engine} {pg : BitVec 4} {reads : List Nat} {dest : Nat} {s : State} (h : VGo e pg reads dest s)
    (n stall : Nat) (body : State → VRes) :
    vStep e pg n stall reads dest body s =
      (match body s with
       | .done t => retireWord (t.upd (fun c => c.bump e dest)) e n stall true
       | .stay w => setWait s e w
       | .trap code => faultHere s e code (s.cur.engine e).pc) := by
  have h1 : s.cur.mayRead e pg.toNat = true := h.reads _ (.head _)
  have h2 : reads.find? (fun x => !s.cur.mayRead e x) = none := by
    rw [List.find?_eq_none]
    intro x hx
    simp [h.reads x (.tail _ hx)]
  simp only [vStep, h1, h2, h.dest, h.guard, Bool.not_true, Bool.false_eq_true, if_false]
  all_goals (cases body s <;> rfl)

theorem vStep_done {e : Engine} {pg : BitVec 4} {reads : List Nat} {dest : Nat} {s u : State} (h : VGo e pg reads dest s)
    (n stall : Nat) {body : State → VRes} (hb : body s = .done u) :
    Issued e n dest true u (vStep e pg n stall reads dest body s) := by
  rw [vStep_go h, hb]
  exact Issued.bump u e n stall dest

/-! Common words. -/

theorem Cell.common_engine (c : Cell) (e : Engine) (g : EngineState) (k : Nat) :
    ({ c.setEngine e g with iret := k } : Cell).engine e = g := by
  cases c; cases e <;> rfl

theorem Cell.common_rest (c : Cell) (e : Engine) (g : EngineState) (k : Nat) :
    { ({ c.setEngine e g with iret := k } : Cell).setEngine e (c.engine e) with iret := c.iret } = c := by
  cases c; cases e <;> rfl

theorem Cell.setEngine_iret (c : Cell) (e : Engine) (g : EngineState) : c.setEngine e g = { c.setEngine e g with iret := c.iret } := by
  cases c; cases e <;> rfl

/-- The cell an engine leaves when it has executed a common word. -/
theorem passCommon_cur (e : Engine) (move : Bool) (s : State) : ∃ k, (k = s.cur.iret ∨ k = s.cur.iret + 1) ∧
    (passCommon e move s).cur = { s.cur.setEngine e { s.cur.engine e with
      csn := (s.cur.engine e).csn + 1, pc := (if move then (s.cur.engine e).pc + 4 else (s.cur.engine e).pc)
      nextIssue := s.cycle + 1, wait := .none, park := .none, commons := (s.cur.engine e).commons + 1 } with iret := k } := by
  unfold passCommon
  rw [State.upd_cur]
  unfold Cell.tally
  simp only
  split
  · exact ⟨_, .inr rfl, by generalize s.cur = c; cases c; cases e <;> rfl⟩
  · exact ⟨_, .inl rfl, by generalize s.cur = c; cases c; cases e <;> rfl⟩

theorem CommonPassed.pass (u : State) (move : Bool) : CommonPassed (if move then 4 else 0) u (passCommon u.eng move u) := by
  obtain ⟨k, hk, hc⟩ := passCommon_cur u.eng move u
  refine ⟨?_, ?_, ?_, ?_, ?_, ?_, Outside.upd u _⟩ <;> rw [hc]
  · rw [Cell.common_engine]; cases move <;> simp
  · rw [Cell.common_engine]
  · rw [Cell.common_engine]
  · exact hk
  · rw [Cell.common_engine]
  · exact Cell.common_rest ..

/-- A common word that may execute comes to what its effect comes to. -/
theorem commonWord_go {reads : List Nat} {s : State} (h : CGo reads s) (body : Engine → State → CRes) :
    commonWord reads body s = .next (match body s.eng s with
      | .pass t => passCommon s.eng true t
      | .jump t => passCommon s.eng false t
      | .stay w => setWait s s.eng w
      | .keep w t => setWait t s.eng w
      | .illegal => faultHere s s.eng .illegal (s.pcOf s.eng)) := by
  have h2 : reads.find? (fun x => !s.cur.mayRead s.eng x) = none := by
    rw [List.find?_eq_none]
    intro x hx
    simp [h.reads x hx]
  simp only [commonWord, commonStep, h2, h.slip, Bool.not_true, Bool.false_eq_true, if_false]
  all_goals (cases body s.eng s <;> rfl)

theorem commonWord_pass {reads : List Nat} {s u : State} (h : CGo reads s) {body : Engine → State → CRes}
    (hb : body s.eng s = .pass u) (he : u.eng = s.eng) : ∃ t, commonWord reads body s = .next t ∧ CommonPassed 4 u t :=
  ⟨_, by rw [commonWord_go h, hb], by rw [← he]; exact CommonPassed.pass u true⟩

theorem commonWord_jump {reads : List Nat} {s u : State} (h : CGo reads s) {body : Engine → State → CRes}
    (hb : body s.eng s = .jump u) (he : u.eng = s.eng) : ∃ t, commonWord reads body s = .next t ∧ CommonPassed 0 u t :=
  ⟨_, by rw [commonWord_go h, hb], by rw [← he]; exact CommonPassed.pass u false⟩

end Sys2Proof.Machine
end

