-- ==== Sys2Proof/Laws/Access.lean ====
section
/-! SUPPORT. What the elements of an access do as they leave the cell, and when they may. -/
namespace Sys2Proof.Machine
open Sys2Proof

/-- The checks at issue depend on the memory side of the state alone. -/
theorem checkAt_congr (s u : State) (ix : Nat) (t : List TlbEntry) (w : Word) (n : Nat) (need : Need)
    (hd : ∀ d, u.die d = s.die d) (hm : u.mem = s.mem) (hh : u.heats = s.heats) (he : u.eccBad = s.eccBad) :
    checkAt u ix t w n need false = checkAt s ix t w n need false := by
  have hv : vaultCheck u w need = vaultCheck s w need := by simp [vaultCheck, hd]
  have ht (a b : Nat) : tableEntry u a b = tableEntry s a b := by simp [tableEntry, hm]
  have hw (a b : Nat) : walk u a b = walk s a b := by simp [walk, hd, ht]
  have hg (r : Region) : granuleFault u r w n need = granuleFault s r w n need := by simp [granuleFault, hh, he]
  simp [checkAt, hv, hg, translate, hw]

theorem checkPart_congr (s u : State) (ix : Nat) (t : List TlbEntry) (q : Part)
    (hd : ∀ d, u.die d = s.die d) (hm : u.mem = s.mem) (hh : u.heats = s.heats) (he : u.eccBad = s.eccBad) :
    checkPart u ix t q false = checkPart s ix t q false := by
  have ht (a b : Nat) : tableEntry u a b = tableEntry s a b := by simp [tableEntry, hm]
  have hw (a b : Nat) : walk u a b = walk s a b := by simp [walk, hd, ht]
  unfold checkPart
  simp only [checkAt_congr s u ix t q.addr q.len q.need hd hm hh he, translate, hw]

/-- The packets that wait at a die's station, and those that circulate refused, as the next packet of the die sees them. -/
def ringsAs (a b : List RingSlot) : Prop := ∀ src dst, a.any (slotBlocks src dst) = b.any (slotBlocks src dst)

theorem ringsAs_put (l : List RingSlot) (id src dst : Nat) :
    ringsAs (l ++ [⟨id, src, dst, 0, false, !l.any (slotBlocks src dst)⟩]) l := by
  intro a b
  by_cases h : l.any (slotBlocks a b) = true
  · simp [h]
  · rw [Bool.not_eq_true] at h
    rw [List.any_append, h, Bool.false_or]
    by_cases hs : src = a ∧ dst = b
    · obtain ⟨rfl, rfl⟩ := hs
      simp [slotBlocks, h]
    · simp only [List.any_cons, List.any_nil, Bool.or_false, slotBlocks]
      by_cases h1 : src = a
      · have h2 : dst ≠ b := fun e => hs ⟨h1, e⟩
        simp [h1, h2]
      · simp [h1]

/-- State u is s with the first elements of an access gone out as operations from number s.nextId on. -/
structure Going (word : Nat) (tlb : List TlbEntry) (parts : List Part) (sites : List (Option Site)) (s u : State) : Prop where
  cur  : u.cur = { s.cur with tlb := tlb, ops := s.cur.ops ++ opsFrom word (s.pkg s.myPkg).pts s.nextId parts sites }
  next : u.nextId = s.nextId + parts.length
  ring : (u.pkg s.myPkg).ringSlots = (s.pkg s.myPkg).ringSlots ++ slotsFrom s s.nextId parts
  pkgs : ∀ q, { u.pkg q with ringSlots := (s.pkg q).ringSlots } = s.pkg q
  away : ∀ q, q ≠ s.myPkg → u.pkg q = s.pkg q
  rest : Outside { s with nextId := u.nextId, pkgs := u.pkgs } u

/-! One operation leaves. -/

@[simp] theorem putSlot_cur (s : State) (pkg id src dst : Nat) : (putSlot s pkg id src dst).cur = s.cur := rfl
@[simp] theorem putSlot_cell (s : State) (pkg id src dst ix : Nat) : (putSlot s pkg id src dst).cell ix = s.cell ix := rfl
@[simp] theorem putSlot_nextId (s : State) (pkg id src dst : Nat) : (putSlot s pkg id src dst).nextId = s.nextId := rfl

section
variable (s : State) (word : Nat) (q : Part) (site : Option Site) (send : Bool)

theorem addOp_eq : addOp s word q site send =
    (let u : State := State.upd { s with nextId := s.nextId + 1 } (fun c : Cell => { c with
      ops := c.ops ++ [newOp s s.nextId word q site] })
     if send && !isLocal s.me q.addr then putSlot u s.myPkg s.nextId (dieStation (s.myDie % 8)) (routeOf s.me q.addr) else u) := rfl

theorem addOp_cur : (addOp s word q site send).cur = { s.cur with ops := s.cur.ops ++ [newOp s s.nextId word q site] } := by
  rw [addOp_eq]
  simp only
  split
  · rw [putSlot_cur]; exact State.upd_cur { s with nextId := s.nextId + 1 } _
  · exact State.upd_cur { s with nextId := s.nextId + 1 } _

@[simp] theorem addOp_focus : (addOp s word q site send).focus = s.focus := by rw [addOp_eq]; simp only; split <;> rfl
@[simp] theorem addOp_me : (addOp s word q site send).me = s.me := by rw [addOp_eq]; simp only; split <;> rfl
@[simp] theorem addOp_myDie : (addOp s word q site send).myDie = s.myDie := by rw [addOp_eq]; simp only; split <;> rfl
@[simp] theorem addOp_myPkg : (addOp s word q site send).myPkg = s.myPkg := by rw [addOp_eq]; simp only; split <;> rfl
@[simp] theorem addOp_nextId : (addOp s word q site send).nextId = s.nextId + 1 := by rw [addOp_eq]; simp only; split <;> rfl
@[simp] theorem addOp_die (d : Nat) : (addOp s word q site send).die d = s.die d := by rw [addOp_eq]; simp only; split <;> rfl
@[simp] theorem addOp_mem : (addOp s word q site send).mem = s.mem := by rw [addOp_eq]; simp only; split <;> rfl
@[simp] theorem addOp_heats : (addOp s word q site send).heats = s.heats := by rw [addOp_eq]; simp only; split <;> rfl
@[simp] theorem addOp_eccBad : (addOp s word q site send).eccBad = s.eccBad := by rw [addOp_eq]; simp only; split <;> rfl

theorem addOp_pkg (p : Nat) : (addOp s word q site true).pkg p =
    if isLocal s.me q.addr = false ∧ p = s.myPkg then
      { s.pkg p with ringSlots := (s.pkg p).ringSlots ++ [slotOf s s.nextId q.addr] }
    else s.pkg p := by
  rw [addOp_eq]
  simp only [Bool.true_and]
  split
  · next h =>
    simp only [putSlot, State.modPkg, State.setPkg_pkg]
    by_cases hq : p = s.myPkg
    · subst hq
      rw [if_pos rfl, if_pos ⟨by simpa using h, rfl⟩]
      rfl
    · rw [if_neg hq, if_neg (fun h => hq h.2)]
      rfl
  · next h => rw [if_neg (by simpa using fun a => absurd a (by simpa using h))]; rfl

theorem addOp_outside : Outside { s with nextId := (addOp s word q site send).nextId, pkgs := (addOp s word q site send).pkgs }
    (addOp s word q site send) := by
  rw [addOp_eq]
  simp only
  split
  · refine ⟨rfl, fun ix h => ?_, fun _ => rfl, fun _ => rfl⟩
    rw [putSlot_cell, State.upd_cell, if_neg]
    · rfl
    · exact h
  · exact Outside.upd { s with nextId := s.nextId + 1 } _

end

/-! All of them. -/

theorem accepted_congr (s u : State) (hme : u.me = s.me) (hd : ∀ d, u.die d = s.die d) (hm : u.mem = s.mem)
    (hh : u.heats = s.heats) (he : u.eccBad = s.eccBad) (parts : List Part) :
    ∀ t, accepted u false t parts = accepted s false t parts := by
  induction parts with
  | nil => intro t; rfl
  | cons q qs ih =>
    intro t
    simp only [accepted, hme, checkPart_congr s u s.me t q hd hm hh he, ih]

theorem slotsFrom_congr (s u : State) (hf : u.focus = s.focus)
    (hr : ringsAs (u.pkg s.myPkg).ringSlots (s.pkg s.myPkg).ringSlots) (parts : List Part) :
    ∀ id, slotsFrom u id parts = slotsFrom s id parts := by
  have hme : u.me = s.me := by rw [State.me, hf]; rfl
  have hd : u.myDie = s.myDie := by rw [State.myDie, hme]; rfl
  have hp : u.myPkg = s.myPkg := by rw [State.myPkg, hme]; rfl
  induction parts with
  | nil => intro id; rfl
  | cons q qs ih => intro id; simp only [slotsFrom, slotOf, hme, hd, hp, hr _ _, ih]

/-- Elements that the checks accept all leave. -/
theorem issueParts_go (word : Nat) (win : Bool) (parts : List Part) (hw : win = false ∨ parts.length ≤ 1) :
    ∀ (s : State) (sites : List (Option Site)) (tlb : List TlbEntry), accepted s win s.cur.tlb parts = some (sites, tlb) →
      ∃ t, issueParts word win s none parts = (t, none) ∧ Going word tlb parts sites s t := by
  induction parts with
  | nil =>
    intro s sites tlb h
    simp only [accepted, Option.some.injEq, Prod.mk.injEq] at h
    obtain ⟨rfl, rfl⟩ := h
    exact ⟨s, rfl, ⟨by simp [opsFrom], rfl, by simp [slotsFrom], fun _ => rfl, fun _ _ => rfl, Outside.refl s⟩⟩
  | cons q qs ih =>
    intro s sites tlb h
    unfold accepted at h
    split at h
    · next site t' hc =>
      split at h
      · next ss u ha =>
        simp only [Option.some.injEq, Prod.mk.injEq] at h
        obtain ⟨rfl, rfl⟩ := h
        let a := s.upd (fun c => { c with tlb := t' })
        have hac : a.cur = { s.cur with tlb := t' } := State.upd_cur s _
        let b := addOp a word q site true
        have hbc := addOp_cur a word q site true
        have hbt : b.cur.tlb = t' := by rw [hbc, hac]
        have hacc : accepted b win b.cur.tlb qs = some (ss, u) := by
          rw [hbt]
          rcases hw with rfl | hl
          · rw [accepted_congr s b (by simp [a, b]) (by intro d; simp [a, b]) (by simp [a, b]) (by simp [a, b]) (by simp [a, b])]
            exact ha
          · have : qs = [] := by cases qs with | nil => rfl | cons => simp at hl
            subst this; exact ha
        obtain ⟨t, ht, hg⟩ := ih (hw.imp id (by simp only [List.length_cons]; omega)) b ss u hacc
        refine ⟨t, ?_, ?_⟩
        · unfold issueParts; rw [hc]; exact ht
        · have hid : b.nextId = s.nextId + 1 := addOp_nextId ..
          have hpk : b.myPkg = s.myPkg := addOp_myPkg ..
          have hpts : (b.pkg s.myPkg).pts = (s.pkg s.myPkg).pts := by
            rw [addOp_pkg]; split <;> rfl
          refine ⟨?_, ?_, ?_, ?_, ?_, ?_⟩
          · rw [hg.cur, hpk, hpts, hid, hbc, hac]
            simp only [opsFrom, List.append_assoc, List.singleton_append]
            rfl
          · rw [hg.next, hid, List.length_cons]; omega
          · have := hg.ring
            rw [hpk] at this
            have hl : isLocal a.me q.addr = isLocal s.me q.addr := rfl
            have hbr : ringsAs (b.pkg s.myPkg).ringSlots (s.pkg s.myPkg).ringSlots := by
              rw [addOp_pkg]
              split
              · exact ringsAs_put _ _ _ _
              · exact fun _ _ => rfl
            rw [this, hid, slotsFrom_congr s b (addOp_focus ..) hbr, addOp_pkg]
            rw [show slotsFrom s s.nextId (q :: qs) = if isLocal s.me q.addr then slotsFrom s (s.nextId + 1) qs else
              slotOf s s.nextId q.addr :: slotsFrom s (s.nextId + 1) qs from rfl]
            by_cases hloc : isLocal s.me q.addr = true
            · rw [if_neg (by rw [hl, hloc]; simp), if_pos hloc]; rfl
            · rw [if_pos ⟨by rw [hl]; simpa using hloc, rfl⟩, if_neg hloc, List.append_assoc]
              rfl
          · intro x
            have := hg.pkgs x
            have hb : { b.pkg x with ringSlots := (s.pkg x).ringSlots } = s.pkg x := by
              rw [addOp_pkg]; split <;> rfl
            rw [← hb, ← this]
          · intro x hx
            rw [hg.away x (hpk ▸ hx), addOp_pkg, if_neg (fun h => hx h.2)]
            rfl
          · have h1 : Outside { s with nextId := t.nextId, pkgs := t.pkgs } { a with nextId := t.nextId, pkgs := t.pkgs } :=
              have h0 := Outside.upd s (fun c => { c with tlb := t' })
              ⟨rfl, h0.cells, h0.dies, h0.memory⟩
            have h2 : Outside { a with nextId := t.nextId, pkgs := t.pkgs } { b with nextId := t.nextId, pkgs := t.pkgs } := by
              have := addOp_outside a word q site true
              refine ⟨?_, this.cells, this.dies, this.memory⟩
              have hr := this.rest
              calc _ = { ({ b with cells := a.cells, dies := a.dies } : State) with nextId := t.nextId, pkgs := t.pkgs } := rfl
                _ = _ := by rw [hr]
            exact (h1.trans h2 rfl).trans hg.rest (addOp_me a word q site true)
      · simp at h
    · simp at h

/-- The checks at issue find no refusal among elements they accept. -/
theorem firstRefusal_none (s : State) (win : Bool) (parts : List Part) : ∀ (t : List TlbEntry) (r : List (Option Site) × List TlbEntry),
    accepted s win t parts = some r → firstRefusal s s.me win t parts = none := by
  induction parts with
  | nil => intro t r _; rfl
  | cons q qs ih =>
    intro t r h
    unfold accepted at h
    unfold firstRefusal
    split at h
    · next site t' hc =>
      rw [hc]
      split at h
      · next ha => exact ih _ _ ha
      · simp at h
    · simp at h

/-- The number that a word takes changes nothing the checks look at. -/
theorem accepted_fresh (s : State) (win : Bool) (parts : List Part) : ∀ t,
    accepted s.fresh.2 win t parts = accepted s win t parts := by
  induction parts with
  | nil => intro t; rfl
  | cons q qs ih =>
    intro t
    have hc : checkPart s.fresh.2 s.fresh.2.me t q win = checkPart s s.me t q win := rfl
    simp only [accepted, hc, ih]

/-- AN ACCESS LEAVES THE CELL: elements that may leave do, as `Sent` says, and then `done` completes the state. -/
theorem issueAccess_go {s : State} {win : Bool} {parts : List Part} {sites : List (Option Site)} {tlb : List TlbEntry}
    (hw : win = false ∨ parts.length ≤ 1) (h : MayAccess s win parts sites tlb) (done : State → State) :
    ∃ t, issueAccess s win parts done = .done (done t) ∧ Sent parts sites tlb id s t := by
  have h1 : parts.find? (fun q => !addrOk q.addr) = none := by
    rw [List.find?_eq_none]; intro q hq; simp [h.addr q hq]
  have h2 : parts.any (fun q => q.need != .wr && s.cur.writePending q.addr q.len) = false := by
    rw [List.any_eq_false]
    intro q hq
    by_cases hn : q.need = .wr
    · simp [hn]
    · simp [h.order q hq hn]
  obtain ⟨t, ht, g⟩ := issueParts_go s.nextId win parts hw s.fresh.2 sites tlb (by rw [accepted_fresh]; exact h.homes)
  refine ⟨t, ?_, ?_⟩
  · unfold issueAccess
    rw [h1]
    simp only [h2, Bool.false_eq_true, if_false, firstRefusal_none s win parts _ _ h.homes]
    have : issueParts s.fresh.1 win s.fresh.2 none parts = (t, none) := ht
    simp only [this]
  · refine ⟨g.cur, ?_, ?_, ?_, ?_⟩
    · have := g.ring
      rw [slotsFrom_congr s s.fresh.2 rfl (fun _ _ => rfl)] at this
      exact this
    · exact g.pkgs
    · exact g.away
    · exact g.rest

/-- A further change of the cell in focus joins what has been sent. -/
theorem Sent.upd {parts : List Part} {sites : List (Option Site)} {tlb : List TlbEntry} {s u : State} (h : Sent parts sites tlb id s u)
    (mark : Cell → Cell) : Sent parts sites tlb mark s (u.upd mark) where
  cell := by rw [State.upd_cur, h.cell]; rfl
  ring := h.ring
  pkgs := h.pkgs
  away := h.away
  rest := (h.rest.trans (Outside.upd u mark) (by
    have hf := congrArg State.focus h.rest.rest
    exact congrArg cellIx hf))

/-- An A word whose effect is an access, and a change of the cell once it has left. -/
theorem aWord_access {i : AInfo} {s : State} (h : AGo i s) {body : State → Res} {win : Bool} {parts : List Part}
    {sites : List (Option Site)} {tlb : List TlbEntry} (hw : win = false ∨ parts.length ≤ 1) (hm : MayAccess s win parts sites tlb)
    (mark : Cell → Cell) (hb : body s = issueAccess s win parts (fun t => t.upd mark)) :
    ∃ u, (∃ t, aWord i body s = .next t ∧ AIssued i.dest false u t) ∧ Sent parts sites tlb mark s u := by
  obtain ⟨t, ht, hs⟩ := issueAccess_go hw hm (fun t => t.upd mark)
  exact ⟨t.upd mark, aWord_done h (by rw [hb, ht]), hs.upd mark⟩

/-- The same where the cell changes no further. -/
theorem aWord_access_id {i : AInfo} {s : State} (h : AGo i s) {body : State → Res} {win : Bool} {parts : List Part}
    {sites : List (Option Site)} {tlb : List TlbEntry} (hw : win = false ∨ parts.length ≤ 1) (hm : MayAccess s win parts sites tlb)
    (hb : body s = issueAccess s win parts id) : ∃ u, (∃ t, aWord i body s = .next t ∧ AIssued i.dest false u t) ∧ Sent parts sites tlb id s u := by
  obtain ⟨t, ht, hs⟩ := issueAccess_go hw hm id
  exact ⟨t, aWord_done h (by rw [hb, ht]; rfl), hs⟩

theorem loadBody_go {kind : OpKind} {n : Nat} {w : Word} {s : State} (mark : Cell → Cell) (h0 : w.toNat % n = 0) (ha : addrOk w = true)
    (hl : s.cur.loads < 16) : loadBody kind n w mark s = issueAccess s (n == 8) [.plain kind w n .rd] (fun t => t.upd mark) := by
  simp [loadBody, h0, ha, Nat.not_le.2 hl]

theorem storeBody_go {data : List Byte} {n : Nat} {w : Word} {s : State} (h0 : w.toNat % n = 0) (ha : addrOk w = true)
    (hl : s.cur.stores < 64) : storeBody data n w s = issueAccess s (n == 8) [.plain (.store data 64) w n .wr] id := by
  simp [storeBody, h0, ha, Nat.not_le.2 hl]

/-- A misaligned load or store raises ALIGN. -/
theorem loadBody_bad {kind : OpKind} {n : Nat} {w : Word} {mark : Cell → Cell} {s : State} (h : w.toNat % n ≠ 0 ∨ addrOk w = false) :
    loadBody kind n w mark s = .trap .align w := by
  unfold loadBody; rw [if_pos]; simpa using h

theorem storeBody_bad {data : List Byte} {n : Nat} {w : Word} {s : State} (h : w.toNat % n ≠ 0 ∨ addrOk w = false) :
    storeBody data n w s = .trap .align w := by
  unfold storeBody; rw [if_pos]; simpa using h

end Sys2Proof.Machine
end

