-- ==== Sys2Proof/Laws/Caps.lean ====
section
/-! SUPPORT. Capabilities: the MAC stands above the 96 bits it covers, and a sealed capability verifies (R106, R107). -/
namespace Sys2Proof.Machine
open Sys2Proof

theorem leBytes_mod (n : Nat) : ∀ v : Nat, leBytes (v % 2 ^ (8 * n)) n = leBytes v n := by
  induction n with
  | zero => intro v; rfl
  | succ n ih =>
    intro v
    have e : 2 ^ (8 * (n + 1)) = 256 * 2 ^ (8 * n) := by rw [Nat.mul_add, Nat.pow_add, Nat.mul_comm]
    have h1 : BitVec.ofNat 8 (v % 2 ^ (8 * (n + 1))) = BitVec.ofNat 8 v := by
      apply BitVec.eq_of_toNat_eq
      rw [BitVec.toNat_ofNat, BitVec.toNat_ofNat, e]
      exact Nat.mod_mul_right_mod v 256 (2 ^ (8 * n))
    have h2 : v % 2 ^ (8 * (n + 1)) / 256 = v / 256 % 2 ^ (8 * n) := by
      rw [e]
      exact Nat.mod_mul_right_div_self v 256 (2 ^ (8 * n))
    simp only [leBytes, h1, h2, ih]

/-- A resealed capability as a number: the MAC above the low 96 bits, which are unchanged. -/
theorem reseal_toNat (k : BitVec 256) (c : Cap) :
    (reseal (some k) c).toNat = (capMac k c).toNat * 2 ^ 96 + c.toNat % 2 ^ 96 := by
  simp only [reseal]
  refine (BitVec.toNat_append ..).trans ?_
  rw [← Nat.shiftLeft_add_eq_or_of_lt (BitVec.isLt _), Nat.shiftLeft_eq]
  simp [BitVec.extractLsb'_toNat]

theorem reseal_mod (k : BitVec 256) (c : Cap) : (reseal (some k) c).toNat % 2 ^ 96 = c.toNat % 2 ^ 96 := by
  rw [reseal_toNat]
  omega

theorem capMac_reseal (k : BitVec 256) (c : Cap) : capMac k (reseal (some k) c) = capMac k c := by
  have l : leBytes (reseal (some k) c).toNat 12 = leBytes c.toNat 12 := by
    rw [← leBytes_mod 12 (reseal (some k) c).toNat, ← leBytes_mod 12 c.toNat]
    exact congrArg (fun n => leBytes n 12) (reseal_mod k c)
  simp only [capMac, l]

/-- A sealed capability verifies under its key (R107). -/
theorem macOk_reseal (k : BitVec 256) (c : Cap) : macOk (some k) (reseal (some k) c) = true := by
  have t : (reseal (some k) c).extractLsb' 96 32 = capMac k c := by
    apply BitVec.eq_of_toNat_eq
    rw [BitVec.extractLsb'_toNat, reseal_toNat, Nat.shiftRight_eq_div_pow]
    have := (capMac k c).isLt
    omega
  simp only [macOk, capMac_reseal, t, beq_self_eq_true]

/-- Sealing changes no field below the MAC. -/
theorem reseal_field (key : Option (BitVec 256)) (c : Cap) (lo n : Nat) (h : lo + n ≤ 96) :
    (reseal key c).extractLsb' lo n = c.extractLsb' lo n := by
  cases key with
  | none => rfl
  | some k =>
    apply BitVec.eq_of_toNat_eq
    simp only [BitVec.extractLsb'_toNat, Nat.shiftRight_eq_div_pow]
    have m := reseal_mod k c
    have d : ∀ x : Nat, x / 2 ^ lo % 2 ^ n = x % 2 ^ 96 / 2 ^ lo % 2 ^ n := by
      intro x
      have e : (2 : Nat) ^ 96 = 2 ^ lo * (2 ^ n * 2 ^ (96 - lo - n)) := by
        rw [← Nat.pow_add, ← Nat.pow_add]; congr 1; omega
      rw [e, Nat.mod_mul_right_div_self, Nat.mod_mul_right_mod]
    rw [d, m, ← d]

end Sys2Proof.Machine
end

