-- ==== Sys2Proof/Laws/Decode.lean ====
section
/-! SUPPORT. What the decoder sees of the fields the encoder places. -/
namespace Sys2Proof

theorem place_or (a b : Parcel) (l n : Nat) : (a ||| b).extractLsb' l n = a.extractLsb' l n ||| b.extractLsb' l n := by
  apply BitVec.eq_of_getLsbD_eq; intro i hi; simp [hi]

/-- A placed field reads back. -/
theorem place_same {n : Nat} (lo : Nat) (x : BitVec n) (h : lo + n ≤ 32) : (place lo x).extractLsb' lo n = x := by
  apply BitVec.eq_of_getLsbD_eq; intro i hi
  simp [place, hi, show lo + i < 32 by omega]

/-- A field below a placed one reads zero of it. -/
theorem place_below {n m : Nat} (lo l : Nat) (x : BitVec n) (h : l + m ≤ lo) : (place lo x).extractLsb' l m = 0#m := by
  apply BitVec.eq_of_getLsbD_eq; intro i hi
  simp [place, hi]; omega

/-- A field above a placed one reads zero of it. -/
theorem place_above {n m : Nat} (lo l : Nat) (x : BitVec n) (h : lo + n ≤ l) : (place lo x).extractLsb' l m = 0#m := by
  apply BitVec.eq_of_getLsbD_eq; intro i hi
  simp [place, hi]; intros; apply BitVec.getLsbD_of_ge; omega

theorem and_or_parcel (a b m : Parcel) : (a ||| b) &&& m = (a &&& m) ||| (b &&& m) := by
  apply BitVec.eq_of_getLsbD_eq; intro i _; simp [Bool.and_or_distrib_right]

/-- A placed field meets no mask outside it. -/
theorem place_and {n : Nat} (lo : Nat) (x : BitVec n) (m : Parcel) (h : m.extractLsb' lo n = 0#n) : place lo x &&& m = 0#32 := by
  apply BitVec.eq_of_getLsbD_eq; intro i hi
  have := congrArg (fun v => v.getLsbD (i - lo)) h
  simp only [BitVec.getLsbD_extractLsb', BitVec.getLsbD_zero, BitVec.getLsbD_and] at *
  by_cases hlo : lo ≤ i
  · by_cases hn : i - lo < n
    · simp [hn, show lo + (i - lo) = i by omega] at this
      simp [this]
    · simp [place]; intros; exact absurd (BitVec.getLsbD_of_ge x (i-lo) (by omega)) (by simp_all)
  · simp [place]; omega

theorem bytes_cat (p : BitVec 32) :
    (p.extractLsb' 24 8 ++ p.extractLsb' 16 8 ++ p.extractLsb' 8 8 ++ p.extractLsb' 0 8 : BitVec (8 + 8 + 8 + 8)) = p := by
  apply BitVec.eq_of_getLsbD_eq
  intro i hi
  simp only [BitVec.getLsbD_append, BitVec.getLsbD_extractLsb']
  split
  · simp_all
  · split
    · simp_all [show 8 + (i - 8) = i by omega]
    · split
      · simp_all [show 16 + (i - 8 - 8) = i by omega]
      · simp [show 24 + (i - 8 - 8 - 8) = i by omega, show i - 8 - 8 - 8 < 8 by omega]

/-- Four bytes of a parcel make it again. -/
theorem parcelsOfBytes_cons (p : Parcel) (bs : List Byte) : parcelsOfBytes (bytesOfParcel p ++ bs) = p :: parcelsOfBytes bs := by
  show parcelOfBytes _ _ _ _ :: parcelsOfBytes bs = _
  rw [show parcelOfBytes _ _ _ _ = p from bytes_cat p]

/-! V and M words. -/

theorem halves (x : BitVec 20) : (x.extractLsb' 12 8 ++ x.extractLsb' 0 12 : BitVec (8 + 12)) = x := by
  apply BitVec.eq_of_getLsbD_eq
  intro i hi
  simp only [BitVec.getLsbD_append, BitVec.getLsbD_extractLsb']
  split
  · simp_all
  · simp [show 12 + (i - 12) = i by omega, show i - 12 < 8 by omega]

/-- How a word of tag 1 is decoded. -/
theorem decodeParcels_v (p0 p1 p2 : Parcel) (rest : List Parcel) (h : p0.extractLsb' 0 2 = 1#2) (h2 : p2.extractLsb' 28 4 = 0#4) :
    decodeParcels (p0 :: p1 :: p2 :: rest) = decodeV (p0.extractLsb' 2 8) (vFieldsOf p0 p1 p2) := by
  simp [decodeParcels, h, h2]

/-- How a word of tag 2 is decoded. -/
theorem decodeParcels_m (p0 p1 p2 p3 p4 p5 : Parcel) (rest : List Parcel) (h : p0.extractLsb' 0 2 = 2#2)
    (h2 : mReservedClear p0 p1 p2 p3 p4 p5 = true) :
    decodeParcels (p0 :: p1 :: p2 :: p3 :: p4 :: p5 :: rest) = decodeM (p0.extractLsb' 2 6) (mFieldsOf p0 p1 p2 p3 p4) := by
  simp [decodeParcels, h, h2]

/-- The three parcels of a V word give its operation and fields back. -/
theorem decodeParcels_encodeV (op8 : Nat) (f : VFields) (rest : List Parcel) :
    decodeParcels (encodeV op8 f ++ rest) = decodeV (BitVec.ofNat 8 op8) f := by
  cases f with
  | mk pg aux stall rnd ty minv mask D S1 S2 =>
    refine (decodeParcels_v _ _ _ rest (by simp [place_or, place_below]) (by simp [place_or, place_above])).trans ?_
    simp [place_or, place_same, place_below, place_above, vFieldsOf]
    exact congrArg _ (congrArg (fun x => VFields.mk pg aux stall rnd ty minv mask D x S2) (halves S1))

/-- The six parcels of an M word give its operation and fields back. -/
theorem decodeParcels_encodeM (op6 : Nat) (f : MFields) (rest : List Parcel) :
    decodeParcels (encodeM op6 f ++ rest) = decodeM (BitVec.ofNat 6 op6) f := by
  cases f with
  | mk pg fmtl stall bq aq acc cols fmtb amode plane rowsm1 sa sb dq dtype curve drnd zero =>
    refine (decodeParcels_m _ _ _ _ _ _ rest (by simp [place_or, place_below])
      (by simp [mReservedClear, place_or, place_below, place_above])).trans ?_
    simp [place_or, place_same, place_below, place_above, mFieldsOf]

end Sys2Proof
end

