-- ==== Sys2Proof/Laws/Memory.lean ====
section
/-! SUPPORT. Memory: what a write leaves to be read, and that every memory operation keeps the canonical form. -/
namespace Sys2Proof.Machine
open Sys2Proof

/-! Rising keys. -/

theorem risingFrom_le {α : Type} {m : SMap α} {j k : Nat} (h : risingFrom k m = true) (hj : j ≤ k) : risingFrom j m = true := by
  cases m with
  | nil => rfl
  | cons e r => obtain ⟨i, x⟩ := e; simp [risingFrom] at *; exact ⟨by omega, h.2⟩

/-- No key below the bound is listed. -/
theorem find?_below {α : Type} {m : SMap α} {j k : Nat} (h : risingFrom k m = true) (hj : j < k) : find? m j = none := by
  induction m generalizing k with
  | nil => rfl
  | cons e r ih =>
    obtain ⟨i, x⟩ := e
    simp [risingFrom] at h
    have hi : ¬ i = j := by omega
    simp [find?, hi, ih h.2 (by omega)]

theorem risingFrom_insertAt {α : Type} {m : SMap α} {j k : Nat} (x : α) (h : risingFrom j m = true) (hk : j ≤ k) :
    risingFrom j (insertAt m k x) = true := by
  induction m generalizing j with
  | nil => simp [insertAt, risingFrom, hk]
  | cons e r ih =>
    obtain ⟨i, y⟩ := e
    simp [risingFrom] at h
    simp only [insertAt]
    split
    · rename_i hlt; simp [risingFrom, hk, h.2]; omega
    · split
      · rename_i _ he; subst he; simp [risingFrom, hk, h.2]
      · simp [risingFrom, h.1, ih h.2 (by omega)]

theorem risingFrom_dropKey {α : Type} {m : SMap α} {j : Nat} (k : Nat) (h : risingFrom j m = true) :
    risingFrom j (dropKey m k) = true := by
  induction m generalizing j with
  | nil => rfl
  | cons e r ih =>
    obtain ⟨i, y⟩ := e
    simp [risingFrom] at h
    simp only [dropKey]
    split
    · exact risingFrom_le (ih h.2) (by omega)
    · simp [risingFrom, h.1, ih h.2]

theorem find?_dropKey {α : Type} (m : SMap α) (k j : Nat) : find? (dropKey m k) j = if j = k then none else find? m j := by
  induction m with
  | nil => simp [dropKey]
  | cons e r ih =>
    obtain ⟨i, y⟩ := e
    simp only [dropKey]
    split
    · rename_i he; subst he
      by_cases hj : j = i
      · subst hj; simp [ih]
      · have : ¬ i = j := fun e => hj e.symm
        simp [find?, hj, this, ih]
    · rename_i hne
      by_cases hi : i = j
      · subst hi; simp [find?, hne]
      · simp [find?, hi, ih]

theorem all_insertAt {α : Type} {m : SMap α} {p : Nat × α → Bool} (k : Nat) (x : α) (h : m.all p = true) (hx : p (k, x) = true) :
    (insertAt m k x).all p = true := by
  induction m with
  | nil => simp [insertAt, hx]
  | cons e r ih =>
    obtain ⟨i, y⟩ := e
    simp only [List.all_cons, Bool.and_eq_true] at h
    simp only [insertAt]
    split
    · simp only [List.all_cons, hx, h.1, h.2, Bool.and_self]
    · split
      · simp only [List.all_cons, hx, h.2, Bool.and_self]
      · simp only [List.all_cons, h.1, ih h.2, Bool.and_self]

theorem all_dropKey {α : Type} {m : SMap α} {p : Nat × α → Bool} (k : Nat) (h : m.all p = true) : (dropKey m k).all p = true := by
  induction m with
  | nil => rfl
  | cons e r ih =>
    obtain ⟨i, y⟩ := e
    simp only [List.all_cons, Bool.and_eq_true] at h
    simp only [dropKey]
    split
    · exact ih h.2
    · simp only [List.all_cons, h.1, ih h.2, Bool.and_self]

/-! The operations of memory. -/

/-- Storing a byte keeps the canonical form. -/
theorem Memory.setByte_wf {m : Memory} (h : Memory.wf m = true) (a : Nat) (b : Byte) : Memory.wf (Memory.setByte m a b) = true := by
  unfold Memory.wf at *
  rw [Bool.and_eq_true] at *
  unfold Memory.setByte
  split
  · exact ⟨risingFrom_dropKey a h.1, all_dropKey a h.2⟩
  · rename_i hb
    exact ⟨risingFrom_insertAt b h.1 (Nat.zero_le a), all_insertAt a b h.2 (by simpa using hb)⟩

/-- Storing bytes keeps the canonical form. -/
theorem Memory.write_wf {m : Memory} (h : Memory.wf m = true) (a : Nat) (bs : List Byte) : Memory.wf (Memory.write m a bs) = true := by
  induction bs generalizing m a with
  | nil => exact h
  | cons b bs ih => exact ih (Memory.setByte_wf h a b) (a + 1)

/-- A byte read after a byte is stored. -/
theorem Memory.byte_setByte (m : Memory) (a : Nat) (b : Byte) (x : Nat) :
    Memory.byte (Memory.setByte m a b) x = if x = a then b else Memory.byte m x := by
  have hf : find? (Memory.setByte m a b) x = if x = a then (if b = Config.unlistedByte then none else some b) else find? m x := by
    unfold Memory.setByte
    by_cases hb : b = Config.unlistedByte
    · rw [if_pos hb, if_pos hb, find?_dropKey]
    · rw [if_neg hb, if_neg hb, find?_insertAt]
  unfold Memory.byte lookup
  rw [hf]
  by_cases hx : x = a
  · by_cases hb : b = Config.unlistedByte <;> simp [hx, hb]
  · simp [hx]

/-- A byte outside those stored reads as before. -/
theorem Memory.byte_write_out (m : Memory) (a : Nat) (bs : List Byte) (x : Nat)
    (hx : x < a ∨ a + bs.length ≤ x) : Memory.byte (Memory.write m a bs) x = Memory.byte m x := by
  induction bs generalizing m a with
  | nil => rfl
  | cons b bs ih =>
    simp only [List.length_cons] at hx
    rw [Memory.write, ih (Memory.setByte m a b) (a + 1) (by omega), Memory.byte_setByte, if_neg (by omega)]

end Sys2Proof.Machine
end

