-- ==== Sys2Proof/Laws/Queues.lean ====
section
/-! SUPPORT. Entries reserved for a load, and the shape of the stream words. -/
namespace Sys2Proof.Machine
open Sys2Proof

/-- An entry of a queue is reserved and the elements that fill it leave. -/
theorem fillBody_go {q size : Nat} {mk : Nat → List Part} {pieces : List Nat} {done : State → State} {s : State}
    {sites : List (Option Site)} {tlb : List TlbEntry} (hq : blocksOf size ≤ s.cur.qcapOf q) (hd : s.cur.canDraw q (blocksOf size) = true)
    (hm : MayAccess s.fresh.2 false (mk s.nextId) sites tlb) :
    ∃ u, fillBody q size mk pieces done s = .done (done u)
      ∧ Sent (mk s.nextId) sites tlb (fun c => c.reserve q (loadEntry c s.nextId size pieces)) s.fresh.2 u := by
  obtain ⟨t, ht, hs⟩ := issueAccess_go (.inl rfl) hm
    (fun t => done (t.upd (fun c => c.reserve q (loadEntry c s.nextId size pieces))))
  refine ⟨_, ?_, hs.upd _⟩
  unfold fillBody
  simp only [Nat.not_lt.2 hq, hd, if_false, Bool.not_true, Bool.false_eq_true]
  exact ht

/-- A stream word writes its stream, or raises ILLEGAL. -/
theorem streamWord_go {p : BitVec 4} {n : BitVec 3} {aregs : List Nat} {f : Cell → Stream → Option Stream} {s : State} {x : Stream}
    (h : AGo { pg := p, aregs := aregs } s) (hf : f s.cur (s.cur.readS n.toNat) = some x) :
    ∃ t, streamWord p n aregs f s = .next t ∧ AIssued 0 false (s.upd (fun c => c.writeS n.toNat x)) t :=
  aWord_done h (by simp only [hf])

theorem streamWord_bad {p : BitVec 4} {n : BitVec 3} {aregs : List Nat} {f : Cell → Stream → Option Stream} {s : State}
    (h : AGo { pg := p, aregs := aregs } s) (hf : f s.cur (s.cur.readS n.toNat) = none) :
    streamWord p n aregs f s = .next (takeFault s s.me 0 .illegal s.cur.A.pc) :=
  aWord_trap h (by simp only [hf])

end Sys2Proof.Machine
end

