-- ==== Sys2Proof/Laws/Scalar.lean ====
section
/-! SUPPORT. The shapes of the A engine's scalar words, each said once. -/
namespace Sys2Proof.Machine
open Sys2Proof

theorem aluWord_go {p : BitVec 4} {srcs : List Nat} {rd : Nat} {f : Cell → Word} {s : State} {v : Word}
    (h : AGo { pg := p, aregs := rd :: srcs } s) (hv : f s.cur = v) :
    ∃ t, aluWord p srcs rd f s = .next t ∧ AIssued 0 false (putA s rd v) t := by
  subst hv; exact aWord_done h rfl

theorem binWord_go {p : BitVec 4} {t s d : BitVec 5} {f : Word → Word → Word} {st : State} {v : Word}
    (h : AGo { pg := p, aregs := [d.toNat, t.toNat, s.toNat] } st) (hv : f (st.cur.readA s.toNat) (st.cur.readA t.toNat) = v) :
    ∃ u, binWord f p t s d st = .next u ∧ AIssued 0 false (putA st d.toNat v) u :=
  aluWord_go h hv

theorem unWord_go {p : BitVec 4} {s d : BitVec 5} {f : Word → Word} {st : State} {v : Word}
    (h : AGo { pg := p, aregs := [d.toNat, s.toNat] } st) (hv : f (st.cur.readA s.toNat) = v) :
    ∃ u, unWord f p s d st = .next u ∧ AIssued 0 false (putA st d.toNat v) u :=
  aluWord_go h hv

theorem predWord_go {p : BitVec 4} {reads aregs : List Nat} {e : BitVec 4} {f : Cell → Bool} {st : State} {v : Bool}
    (h : AGo { pg := p, reads := reads, dest := e.toNat, aregs := aregs } st) (hv : f st.cur = v) :
    ∃ u, predWord p reads aregs e f st = .next u ∧ AIssued e.toNat false (putP st e.toNat v) u := by
  subst hv; exact aWord_done h rfl

end Sys2Proof.Machine
end

