-- ==== Sys2Proof/Laws/Vector.lean ====
section
/-! SUPPORT. What issuing a V word does, said once: its operands taken, its result under way (R133 to R140). -/
namespace Sys2Proof.Machine
open Sys2Proof

theorem Cell.popHead_heat (c : Cell) (q : Nat) : (c.popHead q).heat = c.heat := rfl

/-- A popped cell differs in its queues only. -/
theorem popOpt_cell {c d : Cell} {q : Option Nat} {e : Option QEntry} (h : popOpt c q = .ok (e, d)) :
    d = { c with queues := d.queues } := by
  cases q with
  | none => simp only [popOpt, Except.ok.injEq, Prod.mk.injEq] at h; rw [← h.2]
  | some q =>
    simp only [popOpt] at h
    split at h
    · simp only [Except.ok.injEq, Prod.mk.injEq] at h
      rw [← h.2]; rfl
    · exact absurd h (by simp)

theorem VTakes.cell {m : VForm} {f : VFields} {s : State} {e1 e2 : Option QEntry} {c : Cell} (h : VTakes m f s e1 e2 c) :
    c = { s.cur with queues := c.queues } := by
  obtain ⟨c1, h1, h2⟩ := h.pops
  have k1 := popOpt_cell h1
  have k2 := popOpt_cell h2
  rw [k1] at k2
  exact k2

/-- A V word that gets its operands and meets its own checks computes on them. -/
theorem vBody_takes {m : VForm} {f : VFields} {s : State} {e1 e2 : Option QEntry} {c : Cell} (h : VTakes m f s e1 e2 c)
    (lat : Nat) {fmtOk : VIn → Bool} {run : VIn → VOut} (hf : fmtOk (vInput s.cur m f e1 e2) = true) :
    vBody m lat fmtOk run f s =
      (let o := run (vInput s.cur m f e1 e2)
       let s1 := stepGens (writeResult (s.setCell s.me c) m f lat o) o.gens
       .done (if o.flags = 0 then s1 else addLanding s1 lat (.ast (astV o.flags)))) := by
  obtain ⟨c1, h1, h2⟩ := h.pops
  have hr : ¬ (pushBlocks m f ≠ 0 ∧ s.cur.qcapOf (vEff s.cur f.D 16) < pushBlocks m f) := fun k => by
    have := (h.room k.1).1; omega
  have hd : ¬ (pushBlocks m f ≠ 0 ∧ ¬ (pushBlocks m f ≠ 0 ∧ s.cur.qcapOf (vEff s.cur f.D 16) < pushBlocks m f)
      ∧ (!c.canDraw (vEff s.cur f.D 16) (pushBlocks m f)) = true) := fun k => by
    have := (h.room k.1).2
    rw [this] at k; exact absurd k.2.2 (by simp)
  have he : (vKeys s.cur m f).any (fun k => earlyRead s.cur .V k s.cycle) = false := by
    rw [List.any_eq_false]; intro k hk; simp [h.late k hk]
  simp only [vBody, h1, h2, if_neg hd, he, Bool.false_eq_true, if_false, h.sizes.1, h.sizes.2, h.imms, hf, Bool.not_true, or_false,
    if_neg hr]

/-- A word that fails its own FMT check raises FMT and changes nothing (R136). -/
theorem vBody_fmt {m : VForm} {f : VFields} {s : State} {e1 e2 : Option QEntry} {c : Cell} (h : VTakes m f s e1 e2 c)
    (lat : Nat) {fmtOk : VIn → Bool} {run : VIn → VOut} (hf : fmtOk (vInput s.cur m f e1 e2) = false) :
    vBody m lat fmtOk run f s = .trap .fmt := by
  obtain ⟨c1, h1, h2⟩ := h.pops
  have hr : ¬ (pushBlocks m f ≠ 0 ∧ s.cur.qcapOf (vEff s.cur f.D 16) < pushBlocks m f) := fun k => by
    have := (h.room k.1).1; omega
  have hd : ¬ (pushBlocks m f ≠ 0 ∧ ¬ (pushBlocks m f ≠ 0 ∧ s.cur.qcapOf (vEff s.cur f.D 16) < pushBlocks m f)
      ∧ (!c.canDraw (vEff s.cur f.D 16) (pushBlocks m f)) = true) := fun k => by
    have := (h.room k.1).2
    rw [this] at k; exact absurd k.2.2 (by simp)
  have he : (vKeys s.cur m f).any (fun k => earlyRead s.cur .V k s.cycle) = false := by
    rw [List.any_eq_false]; intro k hk; simp [h.late k hk]
  simp only [vBody, h1, h2, if_neg hd, he, Bool.false_eq_true, if_false, h.sizes.1, h.sizes.2, h.imms, hf, Bool.not_true, or_false,
    if_neg hr, Bool.not_false, or_true, if_true]

/-- The state in which a V word has taken its effect: its results, then its flags, are under way. -/
def vDone (m : VForm) (f : VFields) (lat : Nat) (o : VOut) (s : State) (c : Cell) : State :=
  let s1 := stepGens (writeResult (s.setCell s.me c) m f lat o) o.gens
  if o.flags = 0 then s1 else addLanding s1 lat (.ast (astV o.flags))

/-- A V word whose guard is true and that gets its operands issues. -/
theorem vWord_takes {m : VForm} {f : VFields} {s : State} {e1 e2 : Option QEntry} {c : Cell} {dest : Nat}
    (g : VGo .V f.pg (vReads f) dest s) (h : VTakes m f s e1 e2 c) (lat : Nat) {fmtOk : VIn → Bool} {run : VIn → VOut}
    (hf : fmtOk (vInput s.cur m f e1 e2) = true) :
    ∃ t, vWord m lat dest fmtOk run f s = .next t ∧ Issued .V 3 dest true (vDone m f lat (run (vInput s.cur m f e1 e2)) s c) t :=
  ⟨_, rfl, vStep_done g 3 f.stall.toNat (vBody_takes h lat hf)⟩

/-- A V word that fails its own FMT check. -/
theorem vWord_fmt {m : VForm} {f : VFields} {s : State} {e1 e2 : Option QEntry} {c : Cell} {dest : Nat}
    (g : VGo .V f.pg (vReads f) dest s) (h : VTakes m f s e1 e2 c) (lat : Nat) {fmtOk : VIn → Bool} {run : VIn → VOut}
    (hf : fmtOk (vInput s.cur m f e1 e2) = false) :
    vWord m lat dest fmtOk run f s = .next (faultHere s .V .fmt s.cur.V.pc) := by
  show Host.Outcome.next (vStep .V f.pg 3 f.stall.toNat (vReads f) dest (vBody m lat fmtOk run f) s) = _
  rw [vStep_go g, vBody_fmt h lat hf]
  rfl

/-- A local change after a local change is local. -/
theorem Local.trans {s t u : State} (h : Local s t) (k : Local t u) (hm : t.me = s.me) : Local s u where
  rest := by
    have h1 := h.rest
    have k1 := k.rest
    simp only [State.mk.injEq] at *
    simp_all
  cells := fun ix hx => (k.cells ix (by rw [show State.me { t with nextId := u.nextId, free := u.free } = t.me from rfl, hm]; exact hx)).trans
    (h.cells ix hx)
  dies := fun d => by
    have h1 := h.dies d
    have k1 := k.dies d
    simp only [State.die] at *
    rw [← h1]
    rw [← k1]
  memory := fun a => (k.memory a).trans (h.memory a)

/-- The change of the cell in focus that a V word's results make. -/
theorem setCell_local (s : State) (c : Cell) : Local s (s.setCell s.me c) := Local.upd s (fun _ => c)

theorem setCell_cur (s : State) (c : Cell) : (s.setCell s.me c).cur = c := State.upd_cur s (fun _ => c)

theorem noteLands_local (s : State) (ks : List Nat) (due : Nat) : Local s (noteLands s ks due) := Local.upd s _

theorem noteLands_cur (s : State) (ks : List Nat) (due : Nat) :
    (noteLands s ks due).cur = { s.cur with lastLand := ks.foldl (fun m k => insertAt m k due) s.cur.lastLand } := State.upd_cur s _

theorem stepGens_cur (s : State) (gs : List (Nat × BitVec 32)) :
    (stepGens s gs).cur = { s.cur with gens := gs.foldl (fun m g => insertAt m (256 * s.cur.epoch + g.1) g.2) s.cur.gens } :=
  State.upd_cur s _

theorem reserveLater_cur (s : State) (q size lat : Nat) (bs : List Byte) :
    (reserveLater s q size lat bs).cur = { s.cur.reserve q ⟨s.nextId, size, s.cur.heat, [], [0], false⟩ with
      landings := s.cur.landings ++ [⟨s.cycle + lat, s.nextId + 1, .push q s.nextId bs⟩] } := by
  show (addLanding (State.upd { s with nextId := s.nextId + 1 } _) lat (.push q s.nextId bs)).cur = _
  rw [addLanding_cur, State.upd_cur]
  rfl

theorem reserveLater_local (s : State) (q size lat : Nat) (bs : List Byte) : Local s (reserveLater s q size lat bs) :=
  Local.trans (t := State.upd { s with nextId := s.nextId + 1 } (fun c => c.reserve q ⟨s.nextId, size, c.heat, [], [0], false⟩))
    (Outside.upd { s with nextId := s.nextId + 1 } _) (addLanding_local _ _ _) rfl

theorem stepGens_local (s : State) (gs : List (Nat × BitVec 32)) : Local s (stepGens s gs) := Local.upd s _

@[simp] theorem writeResult_me (s : State) (m : VForm) (f : VFields) (lat : Nat) (o : VOut) : (writeResult s m f lat o).me = s.me := by
  simp only [writeResult]
  split
  · rfl
  · split <;> rfl
  · split
    · split <;> rfl
    · rfl

@[simp] theorem writeResult_cycle (s : State) (m : VForm) (f : VFields) (lat : Nat) (o : VOut) :
    (writeResult s m f lat o).cycle = s.cycle := by
  simp only [writeResult]
  split
  · rfl
  · split <;> rfl
  · split
    · split <;> rfl
    · rfl

/-- The state once a word's results and flags are under way, from that of its result. -/
theorem VLeft.finish {lat : Nat} {s u : State} {c : Cell} {qs : SMap (List QEntry)} {ks : List LandKind} (h : VLeft lat s c qs ks u)
    (hm : u.me = s.me) (hy : u.cycle = s.cycle) (gs : List (Nat × BitVec 32)) (fl : Flags) :
    let v := if fl = 0 then stepGens u gs else addLanding (stepGens u gs) lat (.ast (astV fl))
    VLeft lat s c qs (ks ++ flagKinds fl) v ∧ (gs = [] → u.cur.gens = c.gens → v.cur.gens = c.gens) := by
  have hl : Local s (stepGens u gs) := h.outside.trans (stepGens_local u gs) hm
  have hg : VLeft lat s c qs ks (stepGens u gs) := by
    constructor
    · rw [stepGens_cur]; exact h.lands
    · rw [stepGens_cur]; exact h.queues
    · rw [stepGens_cur]; exact h.cell
    · exact hl
  by_cases hf : fl = 0
  · simp only [hf, if_true, flagKinds, List.append_nil]
    exact ⟨hg, fun hn hu => by rw [stepGens_cur, hn]; exact hu⟩
  · simp only [hf, if_false, flagKinds]
    refine ⟨⟨?_, ?_, ?_, ?_⟩, fun hn hu => ?_⟩
    · rw [addLanding_cur]
      simp only [List.map_append, List.map_cons, List.map_nil, hg.lands, List.append_assoc]
      rw [show (stepGens u gs).cycle = s.cycle from hy]
    · rw [addLanding_cur]; exact hg.queues
    · rw [addLanding_cur]; exact hg.cell
    · exact hl.trans (addLanding_local _ _ _) hm
    · rw [addLanding_cur, stepGens_cur, hn]; exact hu

/-- A result of lanes, under way. -/
theorem writeResult_lanes (m : VForm) (f : VFields) (lat : Nat) (w : BitVec 128) (xs : List Lane) (fl : Flags) (gs : List (Nat × BitVec 32))
    (s : State) {c : Cell} (hc : c = { s.cur with queues := c.queues }) :
    VLeft lat s c
      (if dKind f.D = 1 then (c.reserve (vEff s.cur f.D 16) ⟨s.nextId, if dExt f.D = 1 then 8 else 512, c.heat, [], [0], false⟩).queues
        else c.queues)
      [if dKind f.D = 1 then .push (vEff s.cur f.D 16) s.nextId
          (if dExt f.D = 1 then scalarBytes (if m.S1 = .msk then 2 else f.ty.toNat) w xs else bytesOfLanes (maskLanes w xs))
        else .vreg (vEff s.cur f.D 64) w xs]
      (writeResult (s.setCell s.me c) m f lat ⟨w, .lanes xs, fl, gs⟩)
    ∧ (writeResult (s.setCell s.me c) m f lat ⟨w, .lanes xs, fl, gs⟩).cur.gens = c.gens := by
  have hv : ∀ n, vEff (s.setCell s.me c).cur f.D n = vEff s.cur f.D n := fun n => by rw [setCell_cur, hc]; rfl
  by_cases hk : dKind f.D = 1
  · by_cases he : dExt f.D = 1
    · simp only [writeResult, hk, he, if_true, hv]
      refine ⟨⟨?_, ?_, ?_, ?_⟩, ?_⟩
      · rw [reserveLater_cur, setCell_cur]; simp only [List.map_append, List.map_cons, List.map_nil]; rfl
      · rw [reserveLater_cur, setCell_cur]; rfl
      · rw [reserveLater_cur, setCell_cur]; rfl
      · exact (setCell_local s c).trans (reserveLater_local _ _ _ _ _) rfl
      · rw [reserveLater_cur, setCell_cur]; rfl
    · simp only [writeResult, hk, he, if_true, if_false, hv]
      refine ⟨⟨?_, ?_, ?_, ?_⟩, ?_⟩
      · rw [reserveLater_cur, setCell_cur]; simp only [List.map_append, List.map_cons, List.map_nil]; rfl
      · rw [reserveLater_cur, setCell_cur]; rfl
      · rw [reserveLater_cur, setCell_cur]; rfl
      · exact (setCell_local s c).trans (reserveLater_local _ _ _ _ _) rfl
      · rw [reserveLater_cur, setCell_cur]; rfl
  · simp only [writeResult, hk, if_false, hv]
    refine ⟨⟨?_, ?_, ?_, ?_⟩, ?_⟩
    · rw [noteLands_cur, addLanding_cur, setCell_cur]; simp only [List.map_append, List.map_cons, List.map_nil]; rfl
    · rw [noteLands_cur, addLanding_cur, setCell_cur]
    · rw [noteLands_cur, addLanding_cur, setCell_cur]
    · exact ((setCell_local s c).trans (addLanding_local _ _ _) rfl).trans (noteLands_local _ _ _) rfl
    · rw [noteLands_cur, addLanding_cur, setCell_cur]

/-- A V WORD WITH A RESULT OF LANES (R133 to R140): guard true, operands taken, its own check met. -/
theorem vWord_lands {m : VForm} {f : VFields} {s : State} {e1 e2 : Option QEntry} {c : Cell} {i : Instr} {lat : Nat}
    {fmtOk : VIn → Bool} {run : VIn → VOut} {w : BitVec 128} {xs : List Lane} {v : Nat → Lane} {fl : Flags} {gs : List (Nat × BitVec 32)}
    (g : VGo .V f.pg (vReads f) 0 s) (h : VTakes m f s e1 e2 c) (hd : destOf i = 0) (hi : exec i s = vWord m lat 0 fmtOk run f s)
    (hf : fmtOk (vInput s.cur m f e1 e2) = true) (hr : run (vInput s.cur m f e1 e2) = ⟨w, .lanes xs, fl, gs⟩)
    (hx : ∀ j, j < 128 → w.getLsbD j = true → laneOf xs j = v j) (hg : vMode s.cur f.rnd ≠ 5 → gs = []) :
    VLands m f i lat s c w v fl := by
  obtain ⟨t, ht, hiss⟩ := vWord_takes g h lat (run := run) hf
  rw [hr] at hiss
  have hw := writeResult_lanes m f lat w xs fl gs s h.cell
  have hz := hw.1.finish (by rw [writeResult_me]; rfl) (by rw [writeResult_cycle]; rfl) gs fl
  exact ⟨xs, hx, t, _, hi.trans ht, hd ▸ hiss, hz.1, fun hn => hz.2 (hg hn) hw.2⟩

/-- A result of mask bits, under way. -/
theorem writeResult_bits (m : VForm) (f : VFields) (w bits : BitVec 128) (fl : Flags) (gs : List (Nat × BitVec 32))
    (s : State) {c : Cell} (hc : c = { s.cur with queues := c.queues }) :
    VLeft 2 s c c.queues (if vEff s.cur f.D 8 = 0 then [] else [.mreg (vEff s.cur f.D 8) w bits])
      (writeResult (s.setCell s.me c) m f 2 ⟨w, .bits bits, fl, gs⟩)
    ∧ (writeResult (s.setCell s.me c) m f 2 ⟨w, .bits bits, fl, gs⟩).cur.gens = c.gens := by
  have hv : vEff (s.setCell s.me c).cur f.D 8 = vEff s.cur f.D 8 := by rw [setCell_cur, hc]; rfl
  by_cases hr : vEff s.cur f.D 8 = 0
  · simp only [writeResult, hv, hr, if_true]
    refine ⟨⟨?_, ?_, ?_, ?_⟩, ?_⟩
    · rw [setCell_cur]; simp
    · rw [setCell_cur]
    · rw [setCell_cur]
    · exact setCell_local s c
    · rw [setCell_cur]
  · simp only [writeResult, hv, hr, if_false]
    refine ⟨⟨?_, ?_, ?_, ?_⟩, ?_⟩
    · rw [noteLands_cur, addLanding_cur, setCell_cur]; simp only [List.map_append, List.map_cons, List.map_nil]; rfl
    · rw [noteLands_cur, addLanding_cur, setCell_cur]
    · rw [noteLands_cur, addLanding_cur, setCell_cur]
    · exact ((setCell_local s c).trans (addLanding_local _ _ _) rfl).trans (noteLands_local _ _ _) rfl
    · rw [noteLands_cur, addLanding_cur, setCell_cur]

/-- A V WORD WITH A MASK RESULT (R147, R148). -/
theorem vWord_masks {m : VForm} {f : VFields} {s : State} {e1 e2 : Option QEntry} {c : Cell} {i : Instr}
    {fmtOk : VIn → Bool} {run : VIn → VOut} {w bits : BitVec 128} {k : Nat → Bool} {fl : Flags}
    (g : VGo .V f.pg (vReads f) 0 s) (h : VTakes m f s e1 e2 c) (hd : destOf i = 0) (hi : exec i s = vWord m 2 0 fmtOk run f s)
    (hf : fmtOk (vInput s.cur m f e1 e2) = true) (hr : run (vInput s.cur m f e1 e2) = ⟨w, .bits bits, fl, []⟩)
    (hx : ∀ j, j < 128 → w.getLsbD j = true → bits.getLsbD j = k j) : VMasks f i s c w k fl := by
  obtain ⟨t, ht, hiss⟩ := vWord_takes g h 2 (run := run) hf
  rw [hr] at hiss
  have hw := writeResult_bits m f w bits fl [] s h.cell
  have hz := hw.1.finish (by rw [writeResult_me]; rfl) (by rw [writeResult_cycle]; rfl) [] fl
  exact ⟨bits, hx, t, _, hi.trans ht, hd ▸ hiss, hz.1, fun _ => hz.2 rfl hw.2⟩

/-! Lanes of lists. -/

theorem laneOf_range (g : Nat → Lane) {j : Nat} (h : j < 128) : laneOf ((List.range 128).map g) j = g j := by
  simp [laneOf, List.getD, h]

theorem getLsbD_maskOf (g : Nat → Bool) {j : Nat} (h : j < 128) : (maskOf g).getLsbD j = g j := by
  have key : ∀ n j, ((List.range n).foldl (fun a i => if g i then a + 2 ^ i else a) 0) < 2 ^ n
      ∧ ((List.range n).foldl (fun a i => if g i then a + 2 ^ i else a) 0).testBit j = (decide (j < n) && g j) := by
    intro n
    induction n with
    | zero => intro j; simp
    | succ n ih =>
      intro j
      rw [List.range_succ, List.foldl_append]
      simp only [List.foldl_cons, List.foldl_nil]
      have hlt := (ih 0).1
      have hb := fun k => (ih k).2
      generalize (List.range n).foldl (fun a i => if g i then a + 2 ^ i else a) 0 = x at hlt hb ⊢
      by_cases hg : g n = true
      · simp only [hg, if_true]
        refine ⟨by rw [Nat.pow_succ]; omega, ?_⟩
        rw [Nat.add_comm x]
        by_cases hj : j = n
        · subst hj
          rw [Nat.testBit_two_pow_add_eq, hb]
          simp [hg]
        · by_cases hl : j < n
          · rw [Nat.testBit_two_pow_add_gt hl, hb]; simp [hl, Nat.lt_succ_of_lt hl]
          · have h1 : 2 ^ n + x < 2 ^ j := by
              have : 2 ^ (n + 1) ≤ 2 ^ j := Nat.pow_le_pow_right (by omega) (by omega)
              rw [Nat.pow_succ] at this; omega
            rw [Nat.testBit_lt_two_pow h1]
            have h2 : ¬ j < n + 1 := by omega
            simp [h2]
      · simp only [hg, Bool.false_eq_true, if_false]
        refine ⟨by rw [Nat.pow_succ]; omega, ?_⟩
        rw [hb]
        by_cases hj : j = n
        · subst hj; simp [hg]
        · have : decide (j < n + 1) = decide (j < n) := by
            by_cases hl : j < n
            · simp [hl, Nat.lt_succ_of_lt hl]
            · have : ¬ j < n + 1 := by omega
              simp [hl, this]
          rw [this]
  rw [maskOf, BitVec.getLsbD_ofNat, (key 128 j).2]
  simp [h]

/-- What a per-lane result is, by lane. -/
theorem perLane_run (x : VIn) (g : Nat → Lane → Lane → Lane → Nat → LRes) :
    perLane x g = ⟨x.act,
      .lanes ((List.range 128).map (fun i =>
        if x.act.getLsbD i then (g i (laneOf x.a i) (laneOf x.b i) (laneOf x.d i) (x.next i).toNat).val else 0)),
      (List.range 128).foldl (fun z j =>
        if x.act.getLsbD j then z ||| (g j (laneOf x.a j) (laneOf x.b j) (laneOf x.d j) (x.next j).toNat).flags else z) 0,
      (perLane x g).gens⟩ := by
  simp only [perLane, List.map_map, Function.comp_def, VOut.mk.injEq, VVal.lanes.injEq, true_and, and_true]
  constructor
  · apply List.map_congr_left; intro i _; split <;> rfl
  · rw [List.foldl_map]
    congr 1
    funext z j
    split <;> simp

theorem perLane_gens (x : VIn) (g : Nat → Lane → Lane → Lane → Nat → LRes) (h : x.mode ≠ 5) : (perLane x g).gens = [] := by
  simp [perLane, h]

/-- Results that agree in the lanes written, with equal flags, land alike. -/
theorem VLands.congr {m : VForm} {f : VFields} {i : Instr} {lat : Nat} {s : State} {c : Cell} {w : BitVec 128} {v v' : Nat → Lane} {fl fl' : Flags}
    (h : VLands m f i lat s c w v fl) (hv : ∀ j, j < 128 → w.getLsbD j = true → v j = v' j) (hf : fl = fl') :
    VLands m f i lat s c w v' fl' := by
  obtain ⟨xs, hx, hi⟩ := h
  subst hf
  exact ⟨xs, fun j hj hw => (hx j hj hw).trans (hv j hj hw), hi⟩

/-- A V word that computes lane by lane. -/
theorem vWord_perLane {m : VForm} {f : VFields} {s : State} {e1 e2 : Option QEntry} {c : Cell} {i : Instr} {lat : Nat}
    {fmtOk : VIn → Bool} {run : VIn → VOut} (gr : Nat → Lane → Lane → Lane → Nat → LRes)
    (g : VGo .V f.pg (vReads f) 0 s) (h : VTakes m f s e1 e2 c) (hd : destOf i = 0) (hi : exec i s = vWord m lat 0 fmtOk run f s)
    (hf : fmtOk (vInput s.cur m f e1 e2) = true) (hr : run (vInput s.cur m f e1 e2) = perLane (vInput s.cur m f e1 e2) gr) :
    let x := vInput s.cur m f e1 e2
    let r (j : Nat) : LRes := gr j (laneOf x.a j) (laneOf x.b j) (laneOf x.d j) (x.next j).toNat
    VLands m f i lat s c x.act (fun j => (r j).val) ((List.range 128).foldl (fun z j => if x.act.getLsbD j then z ||| (r j).flags else z) 0) := by
  refine vWord_lands g h hd hi hf (hr.trans (perLane_run _ gr)) (fun j hj hw => ?_) (fun hn => perLane_gens _ _ hn)
  rw [laneOf_range _ hj, if_pos hw]

/-- A V word that moves lanes. -/
theorem vWord_moves {m : VForm} {f : VFields} {s : State} {e1 e2 : Option QEntry} {c : Cell} {i : Instr} {lat : Nat}
    {fmtOk : VIn → Bool} (gr : VIn → Nat → Lane)
    (g : VGo .V f.pg (vReads f) 0 s) (h : VTakes m f s e1 e2 c) (hd : destOf i = 0) (hi : exec i s = vWord m lat 0 fmtOk (moveLanes gr) f s)
    (hf : fmtOk (vInput s.cur m f e1 e2) = true) :
    VLands m f i lat s c (vInput s.cur m f e1 e2).act (gr (vInput s.cur m f e1 e2)) 0 :=
  vWord_lands g h hd hi hf rfl (fun _ hj _ => laneOf_range _ hj) (fun _ => rfl)

/-- Flags that no lane raises. -/
theorem foldl_flags_zero (act : BitVec 128) (g : Nat → Flags) (h : ∀ j, g j = 0) :
    (List.range 128).foldl (fun z j => if act.getLsbD j then z ||| g j else z) 0 = 0 := by
  have : (fun (z : Flags) j => if act.getLsbD j then z ||| g j else z) = fun z _ => z := by
    funext z j; simp [h]
  rw [this]
  induction List.range 128 with
  | nil => rfl
  | cons a l ih => exact ih

end Sys2Proof.Machine
end

