-- ==== Sys2Proof/Tests/Slice0.lean ====
section
/-! SUPPORT. Tests: words the decoder reads, ill-formed words, single steps whose results the spec writes out, and for every
statement with premises a state and operands that meet them. -/
namespace Sys2Proof.Tests
open Sys2Proof Sys2Proof.Machine

/-! Small states. -/

/-- The state right after reset with package 0 ready, the die 0 it is given, and one cell in focus. -/
def stateOf (n : Fin 144) (d : Die) (c : Cell) : State :=
  { State.reset with pkgs := [(0, { Package.reset with phase := .ready, lit := true })], dies := [(0, d)], cells := [(n.val, c)], focus := ⟨0, 0, n⟩ }

/-- A die with a region of 4 KiB at the base of vault 0, under heat 5. -/
def die0 : Die := { Die.reset 0 with regions := [(0, ⟨0, 4, 5, false, 6, true, true, true, false, false, 0⟩)], heatCtr := 5, live := [5] }

/-- An engine at the start of a text. -/
def eng0 : EngineState := { EngineState.reset with pc := 0x1000 }

/-- A running cell under heat 5 with 64 parcels of text. -/
def cell0 : Cell :=
  { Cell.reset with status := .running, heat := 5, entry := 0x1000, parcels := 64, A := eng0, V := eng0, M := eng0 }

/-- Strand cell 1 of die 0, or its command cell, in focus. -/
def strand (c : Cell) : State := stateOf 1 die0 c
def command (c : Cell) : State := stateOf 0 die0 c

/-- V and M have walked past the next write of shared register x (R27). -/
def walked (c : Cell) (x : Nat) : Cell := { c with V := { c.V with expect := [(x, 1)] }, M := { c.M with expect := [(x, 1)] } }

/-- Address of a byte of vault 0 of die 0. -/
def va (n : Nat) : Word := vaultAddr 0 0 n

/-! The conditions under which words issue, as tests. -/

def agoB (i : AInfo) (s : State) : Bool :=
  (!i.cm || isCmd s.me) && (i.pg.toNat :: i.reads).all (fun x => s.cur.mayRead .A x) && s.cur.mayWrite .A i.dest && aReady s.cur i
    && s.cur.readP i.pg.toNat && (!i.access || s.cur.acquire == [])

theorem ago {i : AInfo} {s : State} (h : agoB i s = true) : AGo i s := by
  simp only [agoB, Bool.and_eq_true, Bool.or_eq_true, Bool.not_eq_true', List.all_eq_true, beq_iff_eq] at h
  obtain ⟨⟨⟨⟨⟨h1, h2⟩, h3⟩, h4⟩, h5⟩, h6⟩ := h
  exact ⟨fun k => h1.resolve_left (by simp [k]), h2, h3, h4, h5, fun k => h6.resolve_left (by simp [k])⟩

def anotB (i : AInfo) (s : State) : Bool :=
  (!i.cm || isCmd s.me) && (i.pg.toNat :: i.reads).all (fun x => s.cur.mayRead .A x) && s.cur.mayWrite .A i.dest && aReady s.cur i
    && !s.cur.readP i.pg.toNat

theorem anot {i : AInfo} {s : State} (h : anotB i s = true) : ANot i s := by
  simp only [anotB, Bool.and_eq_true, Bool.or_eq_true, Bool.not_eq_true', List.all_eq_true] at h
  obtain ⟨⟨⟨⟨h1, h2⟩, h3⟩, h4⟩, h5⟩ := h
  exact ⟨fun k => h1.resolve_left (by simp [k]), h2, h3, h4, h5⟩

theorem vgo {e : Engine} {pg : BitVec 4} {reads : List Nat} {dest : Nat} {s : State}
    (h : ((pg.toNat :: reads).all (fun x => s.cur.mayRead e x) && s.cur.mayWrite e dest && s.cur.readP pg.toNat) = true) :
    VGo e pg reads dest s := by
  simp only [Bool.and_eq_true, List.all_eq_true] at h
  exact ⟨h.1.1, h.1.2, h.2⟩

theorem cgo {reads : List Nat} {s : State} (h : (reads.all (fun x => s.cur.mayRead s.eng x) && slipOk s.cur s.eng) = true) : CGo reads s := by
  simp only [Bool.and_eq_true, List.all_eq_true] at h
  exact ⟨h.1, h.2⟩

theorem mayAccess {s : State} {win : Bool} {parts : List Part} {sites : List (Option Site)} {tlb : List TlbEntry}
    (h1 : parts.all (fun q => addrOk q.addr) = true)
    (h2 : parts.all (fun q => decide (q.need = .wr) || !s.cur.writePending q.addr q.len) = true)
    (h3 : accepted s win s.cur.tlb parts = some (sites, tlb)) : MayAccess s win parts sites tlb := by
  simp only [List.all_eq_true, Bool.or_eq_true, decide_eq_true_eq, Bool.not_eq_true'] at h1 h2
  exact ⟨h1, fun q hq hn => (h2 q hq).resolve_left hn, h3⟩

theorem agoAll {α : Type} {L : List α} {i : α → AInfo} {s : α → State} (h : L.all (fun x => agoB (i x) (s x)) = true) :
    ∀ x ∈ L, AGo (i x) (s x) := fun x hx => ago (List.all_eq_true.mp h x hx)

/-- Words the spec writes out, with the operands it names (R42, R54, and the worked encodings of spec/04, 05, 09 to 14, 16, 17). -/
theorem test_decode_written_1 :
    decodeWord [0x02468518] = .ok (.lui 0x1234 5)
    ∧ decodeWord [0x0048A514] = .ok (.slli 0 18 5 5)
    ∧ decodeWord [0x0014A50C] = .ok (.ori 0 5 5 5)
    ∧ decodeWord [0x00A0E600] = .ok (.sub 0 8 7 6)
    ∧ decodeWord [0x062D4900] = .ok (.divn 0 11 10 9)
    ∧ decodeWord [0x0A80C500] = .ok (.clz 0 6 5)
    ∧ decodeWord [0x020CC514] = .ok (.srai 0 3 6 5)
    ∧ decodeWord [0x0000651C] = .ok (.addpc 3 5)
    ∧ decodeWord [0x0062A220] = .ok (.cmp 0 6 5 2 2)
    ∧ decodeWord [0x0062C120] = .ok (.cmp 0 6 5 4 1)
    ∧ decodeWord [0x0272A120] = .ok (.cmpAnd 0 7 5 2 1)
    ∧ decodeWord [0x04628220] = .ok (.cmpOr 0 6 5 0 2)
    ∧ decodeWord [0x0FD2C224] = .ok (.cmpi 0 (-3) 5 4 2)
    ∧ decodeWord [0x00054328] = .ok (.pand 0 5 4 3)
    ∧ decodeWord [0x00801328] = .ok (.pset 0 1 3)
    ∧ decodeWord [0x0080A894] = .ok (.sel 0 0 1 0 5 8)
    ∧ decodeWord [0x0800A22C] = .ok (.mtb 0 5 2)
    ∧ decodeWord [0x0034052C] = .ok (.mfsr 0 0x0D 5)
    ∧ decodeWord [0x0010052C] = .ok (.mfsr 0 0x04 5)
    ∧ decodeWord [0x00009254] = .ok (.kld 0 9 2)
    ∧ decodeWord [0x00409254] = .ok (.kst 0 9 2)
    ∧ decodeWord [0x008C5054] = .ok (.kbnd 0 6 5 0)
    ∧ decodeWord [0x00C06254] = .ok (.krgt 0 6 2)
    ∧ decodeWord [0x010A6254] = .ok (.kinf 0 5 6 2) := by
  repeat' apply And.intro
  all_goals rfl

/-- Words the spec writes out, with the operands it names (R42, R54, and the worked encodings of spec/04, 05, 09 to 14, 16, 17). -/
theorem test_decode_written_2 :
    decodeWord [0x014A0354] = .ok (.kmov 0 5 3)
    ∧ decodeWord [0x00004590] = .ok (.qpop 0 2 5)
    ∧ decodeWord [0x0080A290] = .ok (.qpush 0 5 2)
    ∧ decodeWord [0x00000003] = .ok (.nop)
    ∧ decodeWord [0x0000190B] = .ok (.br 0 0 3 1)
    ∧ decodeWord [0x0001990B] = .ok (.br 1 1 3 1)
    ∧ decodeWord [0x0000020F] = .ok (.call 2)
    ∧ decodeWord [0x00000013] = .ok (.ret)
    ∧ decodeWord [0x00002817] = .ok (.loop 5 0)
    ∧ decodeWord [0x00014217] = .ok (.loop 40 2)
    ∧ decodeWord [0x0000001B] = .ok (.lbrk)
    ∧ decodeWord [0x0000001F] = .ok (.endWord)
    ∧ decodeWord [0x00010523] = .ok (.barSync 0 5)
    ∧ decodeWord [0x00000027] = .ok (.beat)
    ∧ decodeWord [0x0000002B] = .ok (.yield)
    ∧ decodeWord [0x0000002F] = .ok (.halt)
    ∧ decodeWord [0x001C007C] = .ok (.trap 0 7)
    ∧ decodeWord [0x0080007C] = .ok (.eret 0)
    ∧ decodeWord [0x0100057C] = .ok (.heatq 0 5)
    ∧ decodeWord [0x0180007C] = .ok (.brk 0)
    ∧ decodeWord [0x0200007C] = .ok (.wfe 0)
    ∧ decodeWord [0x00130038] = .ok (.ldq 0 0 4 24 0)
    ∧ decodeWord [0x00452238] = .ok (.ldq 0 2 1 9 2)
    ∧ decodeWord [0x0005233C] = .ok (.stq 0 0 1 9 3) := by
  repeat' apply And.intro
  all_goals rfl

/-- Words the spec writes out, with the operands it names (R42, R54, and the worked encodings of spec/04, 05, 09 to 14, 16, 17). -/
theorem test_decode_written_3 :
    decodeWord [0x00030140] = .ok (.sbase 0 24 1)
    ∧ decodeWord [0x0098A940] = .ok (.sdim 0 6 5 1 1)
    ∧ decodeWord [0x0118A140] = .ok (.sunf 0 6 5 1)
    ∧ decodeWord [0x0180A140] = .ok (.spage 0 5 1)
    ∧ decodeWord [0x01054448] = .ok (.gathG 0 1 10 4)
    ∧ decodeWord [0x0505254C] = .ok (.scatAddF 0 1 9 5)
    ∧ decodeWord [0x0098A080] = .ok (.tdep 0 6 5)
    ∧ decodeWord [0x0100A780] = .ok (.tqry 0 5 7)
    ∧ decodeWord [0x0180A080] = .ok (.tkill 0 5)
    ∧ decodeWord [0x001CC584] = .ok (.valloc 0 7 6 5)
    ∧ decodeWord [0x0080C588] = .ok (.pgprobe 0 6 5)
    ∧ decodeWord [0x00392630] = .ok (.ld 0 1 6 9 6)
    ∧ decodeWord [0x0FD92534] = .ok (.st 0 (-2) 6 9 5)
    ∧ decodeWord [0x00130534] = .ok (.st 0 0 4 24 5)
    ∧ decodeWord [0x000C9260] = .ok (.patAdd 0 0 0 6 9 2)
    ∧ decodeWord [0x0E4C9260] = .ok (.patCas 0 1 1 6 9 2)
    ∧ decodeWord [0x000C0264] = .ok (.ppush 0 6 2)
    ∧ decodeWord [0x004E0264] = .ok (.ppop 0 7 2)
    ∧ decodeWord [0x008C0464] = .ok (.pgive 0 6 4)
    ∧ decodeWord [0x00CE0464] = .ok (.ptake 0 7 4)
    ∧ decodeWord [0x00100378] = .ok (.wlacq 0 8 3)
    ∧ decodeWord [0x00408378] = .ok (.wlrenew 0 8 3)
    ∧ decodeWord [0x00808378] = .ok (.wlrel 0 8 3)
    ∧ decodeWord [0x00D28378] = .ok (.wlchk 0 9 8 3) := by
  repeat' apply And.intro
  all_goals rfl

/-- Words the spec writes out, with the operands it names (R42, R54, and the worked encodings of spec/04, 05, 09 to 14, 16, 17). -/
theorem test_decode_written_4 :
    decodeWord [0x00152068] = .ok (.pour 0 5 9)
    ∧ decodeWord [0x0A000074] = .ok (.fenceRel 0 5)
    ∧ decodeWord [0x06800074] = .ok (.fenceAcq 0 3)
    ∧ decodeWord [0x05000074] = .ok (.fenceSc 0 2)
    ∧ decodeWord [0x0000A08C] = .ok (.schpub 0 5)
    ∧ decodeWord [0x0080A08C] = .ok (.schadv 0 5)
    ∧ decodeWord [0x0000C56C] = .ok (.ctwany 0 6 5)
    ∧ decodeWord [0x0080C06C] = .ok (.ctwall 0 6)
    ∧ decodeWord [0x0100C56C] = .ok (.ctffr 0 6 5)
    ∧ decodeWord [0x0200C06C] = .ok (.ctclr 0 6)
    ∧ decodeWord [0x001CC570] = .ok (.rclaim 0 7 6 5)
    ∧ decodeWord [0x009CC570] = .ok (.rpubl 0 7 6 5)
    ∧ decodeWord [0x011CC570] = .ok (.rwaitf 0 7 6 5)
    ∧ decodeWord [0x019CC570] = .ok (.rwaite 0 7 6 5)
    ∧ decodeWord [0x021CC570] = .ok (.rfree 0 7 6 5)
    ∧ decodeWord [0x0280C570] = .ok (.rpeek 0 6 5)
    ∧ decodeWord [0x00106500] = .ok (.add 0 4 3 5)
    ∧ decodeWord [0x3FF8E704] = .ok (.addi 3 (-2) 7 7)
    ∧ decodeWord [0x00006107] = .ok (.ptb 12 1)
    ∧ decodeWord [0x0D0C9260] = .ok (.patMin 0 1 1 6 9 2)
    ∧ decodeWord [0x0420C02C] = .ok (.mtsr 0 0x08 6)
    ∧ decodeWord [0x00552530] = .ok (.ld 0 2 5 9 5)
    ∧ decodeWord [0x0033013C] = .ok (.stq 0 1 4 24 1)
    ∧ decodeWord [0x00012580] = .ok (.tlaunch 0 9 5) := by
  repeat' apply And.intro
  all_goals rfl

/-- Words the spec writes out, with the operands it names (R42, R54, and the worked encodings of spec/04, 05, 09 to 14, 16, 17). -/
theorem test_decode_written_5 :
    decodeWord [0x0181076C] = .ok (.ctstat 0 8 7)
    ∧ decodeWord [0x001C8523] = .ok (.barWait 7 5) := by
  repeat' apply And.intro
  all_goals rfl

/-- The other words of one parcel, each field at a value of its own placed where R42 and spec/opcode_table.json place it. -/
theorem test_decode_table_1 :
    decodeWord [0x91457600] = .ok (.and 9 17 11 22)
    ∧ decodeWord [0x91C57600] = .ok (.or 9 17 11 22)
    ∧ decodeWord [0x92457600] = .ok (.xor 9 17 11 22)
    ∧ decodeWord [0x92C57600] = .ok (.sll 9 17 11 22)
    ∧ decodeWord [0x93457600] = .ok (.srl 9 17 11 22)
    ∧ decodeWord [0x93C57600] = .ok (.sra 9 17 11 22)
    ∧ decodeWord [0x94457600] = .ok (.mul 9 17 11 22)
    ∧ decodeWord [0x94C57600] = .ok (.mulh 9 17 11 22)
    ∧ decodeWord [0x95457600] = .ok (.mulhn 9 17 11 22)
    ∧ decodeWord [0x95C57600] = .ok (.div 9 17 11 22)
    ∧ decodeWord [0x96C57600] = .ok (.rem 9 17 11 22)
    ∧ decodeWord [0x97457600] = .ok (.remn 9 17 11 22)
    ∧ decodeWord [0x97C57600] = .ok (.min 9 17 11 22)
    ∧ decodeWord [0x98457600] = .ok (.max 9 17 11 22)
    ∧ decodeWord [0x98C57600] = .ok (.minn 9 17 11 22)
    ∧ decodeWord [0x99457600] = .ok (.maxn 9 17 11 22)
    ∧ decodeWord [0x99C57600] = .ok (.addw 9 17 11 22)
    ∧ decodeWord [0x9A457600] = .ok (.subw 9 17 11 22)
    ∧ decodeWord [0x9B017600] = .ok (.ctz 9 11 22)
    ∧ decodeWord [0x9B817600] = .ok (.popc 9 11 22)
    ∧ decodeWord [0x9C457600] = .ok (.andn 9 17 11 22)
    ∧ decodeWord [0x9CC57600] = .ok (.rol 9 17 11 22)
    ∧ decodeWord [0x9D457600] = .ok (.ror 9 17 11 22)
    ∧ decodeWord [0x9FED7608] = .ok (.andi 9 1019 11 22) := by
  repeat' apply And.intro
  all_goals rfl

/-- The other words of one parcel, each field at a value of its own placed where R42 and spec/opcode_table.json place it. -/
theorem test_decode_table_2 :
    decodeWord [0x9FED7610] = .ok (.xori 9 1019 11 22)
    ∧ decodeWord [0x91957614] = .ok (.srli 9 37 11 22)
    ∧ decodeWord [0x9023C628] = .ok (.por 9 3 12 6)
    ∧ decodeWord [0x9043C628] = .ok (.pxor 9 3 12 6)
    ∧ decodeWord [0x9063C628] = .ok (.pandn 9 3 12 6)
    ∧ decodeWord [0x900C2D44] = .ok (.sgo 9 3 1 13)
    ∧ decodeWord [0x901D6D48] = .ok (.gathW 9 7 11 13)
    ∧ decodeWord [0x909D6D48] = .ok (.gathD 9 7 11 13)
    ∧ decodeWord [0x901D6D4C] = .ok (.scatW 9 7 11 13)
    ∧ decodeWord [0x909D6D4C] = .ok (.scatD 9 7 11 13)
    ∧ decodeWord [0x911D6D4C] = .ok (.scatG 9 7 11 13)
    ∧ decodeWord [0x941D6D4C] = .ok (.scatAddW 9 7 11 13)
    ∧ decodeWord [0x949D6D4C] = .ok (.scatAddD 9 7 11 13)
    ∧ decodeWord [0x98457650] = .ok (.atomAdd 9 1 17 11 22)
    ∧ decodeWord [0x98C57650] = .ok (.atomAnd 9 1 17 11 22)
    ∧ decodeWord [0x99457650] = .ok (.atomOr 9 1 17 11 22)
    ∧ decodeWord [0x99C57650] = .ok (.atomXor 9 1 17 11 22)
    ∧ decodeWord [0x9A457650] = .ok (.atomMin 9 1 17 11 22)
    ∧ decodeWord [0x9AC57650] = .ok (.atomMax 9 1 17 11 22)
    ∧ decodeWord [0x9B457650] = .ok (.atomMinn 9 1 17 11 22)
    ∧ decodeWord [0x9BC57650] = .ok (.atomMaxn 9 1 17 11 22)
    ∧ decodeWord [0x9C457650] = .ok (.atomSwap 9 1 17 11 22)
    ∧ decodeWord [0x9CC57650] = .ok (.atomCas 9 1 17 11 22)
    ∧ decodeWord [0x95457650] = .ok (.atomFadd 9 17 11 22) := by
  repeat' apply And.intro
  all_goals rfl

/-- The other words of one parcel, each field at a value of its own placed where R42 and spec/opcode_table.json place it. -/
theorem test_decode_table_3 :
    decodeWord [0x90DABA58] = .ok (.pld 9 3 13 11 10)
    ∧ decodeWord [0x90DABA5C] = .ok (.pst 9 3 13 11 10)
    ∧ decodeWord [0x9C6CBA60] = .ok (.patAnd 9 1 1 22 11 10)
    ∧ decodeWord [0x9CACBA60] = .ok (.patOr 9 1 1 22 11 10)
    ∧ decodeWord [0x9CECBA60] = .ok (.patXor 9 1 1 22 11 10)
    ∧ decodeWord [0x9D6CBA60] = .ok (.patMax 9 1 1 22 11 10)
    ∧ decodeWord [0x9DACBA60] = .ok (.patMinn 9 1 1 22 11 10)
    ∧ decodeWord [0x9DECBA60] = .ok (.patMaxn 9 1 1 22 11 10)
    ∧ decodeWord [0x9E2CBA60] = .ok (.patSwap 9 1 1 22 11 10)
    ∧ decodeWord [0x9AACBA60] = .ok (.patFadd 9 1 22 11 10)
    ∧ decodeWord [0x91456068] = .ok (.hpour 9 17 11)
    ∧ decodeWord [0x90816084] = .ok (.vfree 9 11)
    ∧ decodeWord [0x90016088] = .ok (.tlbinv 9 11)
    ∧ decodeWord [0x90016498] = .ok (.ltrip 9 11 4)
    ∧ decodeWord [0x00300123] = .ok (.barArrive 12 1) := by
  repeat' apply And.intro
  all_goals rfl

/-- V words: op8 from R72 Table 5, the first parcel laid out by R45 Table 3, the descriptors by R46; `vqnt`, `vrsum`, `mpany` and
`vcvt` as spec/07 writes them. -/
theorem test_decode_vector_1 :
    decodeWord [0x9050B801, 0x0C12A520, 0x0E9A604D] = .ok (.vadd ⟨9, 0, 5, 0, 2, 1, 6, 0x2A520, 0x4D0C1, 0xE9A60⟩)
    ∧ decodeWord [0x9050B805, 0x0C12A520, 0x0E9A604D] = .ok (.vsub ⟨9, 0, 5, 0, 2, 1, 6, 0x2A520, 0x4D0C1, 0xE9A60⟩)
    ∧ decodeWord [0x9050B809, 0x0C12A520, 0x0E9A604D] = .ok (.vmul ⟨9, 0, 5, 0, 2, 1, 6, 0x2A520, 0x4D0C1, 0xE9A60⟩)
    ∧ decodeWord [0x9050B80D, 0x0C12A520, 0x0E9A604D] = .ok (.vmulh ⟨9, 0, 5, 0, 2, 1, 6, 0x2A520, 0x4D0C1, 0xE9A60⟩)
    ∧ decodeWord [0x00400011, 0x0C008100, 0x0C30A042] = .ok (.vfma ⟨0, 0, 4, 0, 0, 0, 0, 0x08100, 0x420C0, 0xC30A0⟩)
    ∧ decodeWord [0x90543815, 0x0C12A520, 0x0E9A604D] = .ok (.vfms ⟨9, 0, 5, 2, 0, 1, 6, 0x2A520, 0x4D0C1, 0xE9A60⟩)
    ∧ decodeWord [0x90567819, 0x0C12A520, 0x0E9A604D] = .ok (.vfnm ⟨9, 0, 5, 3, 1, 1, 6, 0x2A520, 0x4D0C1, 0xE9A60⟩)
    ∧ decodeWord [0x9050B81D, 0x0C12A520, 0x0E9A604D] = .ok (.vmin ⟨9, 0, 5, 0, 2, 1, 6, 0x2A520, 0x4D0C1, 0xE9A60⟩)
    ∧ decodeWord [0x9050B821, 0x0C12A520, 0x0E9A604D] = .ok (.vmax ⟨9, 0, 5, 0, 2, 1, 6, 0x2A520, 0x4D0C1, 0xE9A60⟩)
    ∧ decodeWord [0x90517825, 0x0C12A520, 0x0000004D] = .ok (.vabs ⟨9, 0, 5, 0, 5, 1, 6, 0x2A520, 0x4D0C1, 0x00000⟩)
    ∧ decodeWord [0x90513829, 0x0C12A520, 0x0000004D] = .ok (.vneg ⟨9, 0, 5, 0, 4, 1, 6, 0x2A520, 0x4D0C1, 0x00000⟩)
    ∧ decodeWord [0x9050B82D, 0x0C12A520, 0x0E9A604D] = .ok (.vabsd ⟨9, 0, 5, 0, 2, 1, 6, 0x2A520, 0x4D0C1, 0xE9A60⟩)
    ∧ decodeWord [0x90523831, 0x0C12A520, 0x0000004D] = .ok (.vrcpe ⟨9, 0, 5, 1, 0, 1, 6, 0x2A520, 0x4D0C1, 0x00000⟩)
    ∧ decodeWord [0x90503835, 0x0C12A520, 0x0000004D] = .ok (.vrsqe ⟨9, 0, 5, 0, 0, 1, 6, 0x2A520, 0x4D0C1, 0x00000⟩)
    ∧ decodeWord [0x90503839, 0x0C12A520, 0x0000004D] = .ok (.vexpe ⟨9, 0, 5, 0, 0, 1, 6, 0x2A520, 0x4D0C1, 0x00000⟩)
    ∧ decodeWord [0x905A383D, 0x0C12A520, 0x0000004D] = .ok (.vfrx ⟨9, 0, 5, 5, 0, 1, 6, 0x2A520, 0x4D0C1, 0x00000⟩)
    ∧ decodeWord [0x9050B841, 0x0C12A520, 0x0E9A604D] = .ok (.vand ⟨9, 0, 5, 0, 2, 1, 6, 0x2A520, 0x4D0C1, 0xE9A60⟩)
    ∧ decodeWord [0x9050B845, 0x0C12A520, 0x0E9A604D] = .ok (.vor ⟨9, 0, 5, 0, 2, 1, 6, 0x2A520, 0x4D0C1, 0xE9A60⟩)
    ∧ decodeWord [0x9050B849, 0x0C12A520, 0x0E9A604D] = .ok (.vxor ⟨9, 0, 5, 0, 2, 1, 6, 0x2A520, 0x4D0C1, 0xE9A60⟩)
    ∧ decodeWord [0x9050B84D, 0x0C12A520, 0x0E9A604D] = .ok (.vandn ⟨9, 0, 5, 0, 2, 1, 6, 0x2A520, 0x4D0C1, 0xE9A60⟩)
    ∧ decodeWord [0x9050B851, 0x0C12A520, 0x0E9A604D] = .ok (.vshl ⟨9, 0, 5, 0, 2, 1, 6, 0x2A520, 0x4D0C1, 0xE9A60⟩)
    ∧ decodeWord [0x9050B855, 0x0C12A520, 0x0E9A604D] = .ok (.vshr ⟨9, 0, 5, 0, 2, 1, 6, 0x2A520, 0x4D0C1, 0xE9A60⟩)
    ∧ decodeWord [0x9050B859, 0x0C12A520, 0x0E9A604D] = .ok (.vsra ⟨9, 0, 5, 0, 2, 1, 6, 0x2A520, 0x4D0C1, 0xE9A60⟩)
    ∧ decodeWord [0x9050B85D, 0x0C12A520, 0x0000004D] = .ok (.vpopc ⟨9, 0, 5, 0, 2, 1, 6, 0x2A520, 0x4D0C1, 0x00000⟩) := by
  repeat' apply And.intro
  all_goals rfl

/-- V words: op8 from R72 Table 5, the first parcel laid out by R45 Table 3, the descriptors by R46; `vqnt`, `vrsum`, `mpany` and
`vcvt` as spec/07 writes them. -/
theorem test_decode_vector_2 :
    decodeWord [0x9050B861, 0x0C12A520, 0x0000004D] = .ok (.vclz ⟨9, 0, 5, 0, 2, 1, 6, 0x2A520, 0x4D0C1, 0x00000⟩)
    ∧ decodeWord [0x9050B865, 0x0C12A520, 0x0E9A604D] = .ok (.vsel ⟨9, 0, 5, 0, 2, 1, 6, 0x2A520, 0x4D0C1, 0xE9A60⟩)
    ∧ decodeWord [0x9050B869, 0x0C12A520, 0x0000004D] = .ok (.vmov ⟨9, 0, 5, 0, 2, 1, 6, 0x2A520, 0x4D0C1, 0x00000⟩)
    ∧ decodeWord [0x9050B86D, 0x0002A520, 0x00000000] = .ok (.vidx ⟨9, 0, 5, 0, 2, 1, 6, 0x2A520, 0x00000, 0x00000⟩)
    ∧ decodeWord [0x90507871, 0x0C12A520, 0x0000004D] = .ok (.vclass ⟨9, 0, 5, 0, 1, 1, 6, 0x2A520, 0x4D0C1, 0x00000⟩)
    ∧ decodeWord [0x9050B881, 0x0C1050C0, 0x0E9A604D] = .ok (.vceq ⟨9, 0, 5, 0, 2, 1, 6, 0x050C0, 0x4D0C1, 0xE9A60⟩)
    ∧ decodeWord [0x9050B885, 0x0C1050C0, 0x0E9A604D] = .ok (.vcne ⟨9, 0, 5, 0, 2, 1, 6, 0x050C0, 0x4D0C1, 0xE9A60⟩)
    ∧ decodeWord [0x9050B889, 0x0C1050C0, 0x0E9A604D] = .ok (.vclt ⟨9, 0, 5, 0, 2, 1, 6, 0x050C0, 0x4D0C1, 0xE9A60⟩)
    ∧ decodeWord [0x9050B88D, 0x0C1050C0, 0x0E9A604D] = .ok (.vcle ⟨9, 0, 5, 0, 2, 1, 6, 0x050C0, 0x4D0C1, 0xE9A60⟩)
    ∧ decodeWord [0x00000091, 0x0C0020C0, 0x08FC0001] = .ok (.vcgt ⟨0, 0, 0, 0, 0, 0, 0, 0x020C0, 0x010C0, 0x8FC00⟩)
    ∧ decodeWord [0x90507895, 0x0C1050C0, 0x0E9A604D] = .ok (.vcun ⟨9, 0, 5, 0, 1, 1, 6, 0x050C0, 0x4D0C1, 0xE9A60⟩)
    ∧ decodeWord [0x905038A1, 0x0C0050C0, 0x0020C003] = .ok (.mand ⟨9, 0, 5, 0, 0, 1, 6, 0x050C0, 0x030C0, 0x020C0⟩)
    ∧ decodeWord [0x905038A5, 0x0C0050C0, 0x0020C003] = .ok (.mor ⟨9, 0, 5, 0, 0, 1, 6, 0x050C0, 0x030C0, 0x020C0⟩)
    ∧ decodeWord [0x905038A9, 0x0C0050C0, 0x0020C003] = .ok (.mxor ⟨9, 0, 5, 0, 0, 1, 6, 0x050C0, 0x030C0, 0x020C0⟩)
    ∧ decodeWord [0x905038AD, 0x0C0050C0, 0x00000003] = .ok (.mnot ⟨9, 0, 5, 0, 0, 1, 6, 0x050C0, 0x030C0, 0x00000⟩)
    ∧ decodeWord [0x905038B1, 0x0C02A520, 0x00000003] = .ok (.mcnt ⟨9, 0, 5, 0, 0, 1, 6, 0x2A520, 0x030C0, 0x00000⟩)
    ∧ decodeWord [0x000000B5, 0x0C0020C0, 0x00000003] = .ok (.mpany ⟨0, 0, 0, 0, 0, 0, 0, 0x020C0, 0x030C0, 0⟩)
    ∧ decodeWord [0x905038B9, 0x0C00B0C0, 0x00000003] = .ok (.mpall ⟨9, 0, 5, 0, 0, 1, 6, 0x0B0C0, 0x030C0, 0x00000⟩)
    ∧ decodeWord [0x905038BD, 0x0C02A520, 0x00000003] = .ok (.mffs ⟨9, 0, 5, 0, 0, 1, 6, 0x2A520, 0x030C0, 0x00000⟩)
    ∧ decodeWord [0x003480C1, 0x0C0050C0, 0x00000004] = .ok (.vcvt ⟨0, 0, 3, 2, 2, 0, 0, 0x050C0, 0x040C0, 0⟩)
    ∧ decodeWord [0x023180C5, 0x0C0050C0, 0x0C900004] = .ok (.vqnt ⟨0, 2, 3, 0, 6, 0, 0, 0x050C0, 0x040C0, 0xC9000⟩)
    ∧ decodeWord [0x935838C9, 0x0C12A520, 0x0E9A604D] = .ok (.vdqt ⟨9, 3, 5, 4, 0, 1, 6, 0x2A520, 0x4D0C1, 0xE9A60⟩)
    ∧ decodeWord [0x9551F8CD, 0x0C12A520, 0x0000004D] = .ok (.vtpl ⟨9, 5, 5, 0, 7, 1, 6, 0x2A520, 0x4D0C1, 0x00000⟩)
    ∧ decodeWord [0x915138D1, 0x0C12A520, 0x0E9A604D] = .ok (.vpack ⟨9, 1, 5, 0, 4, 1, 6, 0x2A520, 0x4D0C1, 0xE9A60⟩) := by
  repeat' apply And.intro
  all_goals rfl

/-- V words: op8 from R72 Table 5, the first parcel laid out by R45 Table 3, the descriptors by R46; `vqnt`, `vrsum`, `mpany` and
`vcvt` as spec/07 writes them. -/
theorem test_decode_vector_3 :
    decodeWord [0x915178D5, 0x0C12A520, 0x0800014D] = .ok (.vunpk ⟨9, 1, 5, 0, 5, 1, 6, 0x2A520, 0x4D0C1, 0x80001⟩)
    ∧ decodeWord [0x905478D9, 0x0C12A520, 0x0000004D] = .ok (.vbfNarrow ⟨9, 0, 5, 2, 1, 1, 6, 0x2A520, 0x4D0C1, 0x00000⟩)
    ∧ decodeWord [0x915078D9, 0x0C12A520, 0x0000004D] = .ok (.vbfWiden ⟨9, 1, 5, 0, 1, 1, 6, 0x2A520, 0x4D0C1, 0x00000⟩)
    ∧ decodeWord [0x00800101, 0x0C0430C1, 0x00000007] = .ok (.vrsum ⟨0, 0, 8, 0, 0, 0, 0, 0x430C1, 0x070C0, 0⟩)
    ∧ decodeWord [0x90503905, 0x0C12A520, 0x0000004D] = .ok (.vrmax ⟨9, 0, 5, 0, 0, 1, 6, 0x2A520, 0x4D0C1, 0x00000⟩)
    ∧ decodeWord [0x9050B909, 0x0C12A520, 0x0000004D] = .ok (.vrmin ⟨9, 0, 5, 0, 2, 1, 6, 0x2A520, 0x4D0C1, 0x00000⟩)
    ∧ decodeWord [0x9050B90D, 0x0C12A520, 0x0000004D] = .ok (.vscan ⟨9, 0, 5, 0, 2, 1, 6, 0x2A520, 0x4D0C1, 0x00000⟩)
    ∧ decodeWord [0x90513911, 0x0C12A520, 0x0000004D] = .ok (.vrsumi ⟨9, 0, 5, 0, 4, 1, 6, 0x2A520, 0x4D0C1, 0x00000⟩)
    ∧ decodeWord [0x90523915, 0x0C12A520, 0x0020C04D] = .ok (.vsegsum ⟨9, 0, 5, 1, 0, 1, 6, 0x2A520, 0x4D0C1, 0x020C0⟩)
    ∧ decodeWord [0x9050B941, 0x0C12A520, 0x0E9A604D] = .ok (.vperm ⟨9, 0, 5, 0, 2, 1, 6, 0x2A520, 0x4D0C1, 0xE9A60⟩)
    ∧ decodeWord [0x9050B945, 0x0C12A520, 0x0E9A604D] = .ok (.vrot ⟨9, 0, 5, 0, 2, 1, 6, 0x2A520, 0x4D0C1, 0xE9A60⟩)
    ∧ decodeWord [0x9050B949, 0x0C12A520, 0x0E9A604D] = .ok (.vbcst ⟨9, 0, 5, 0, 2, 1, 6, 0x2A520, 0x4D0C1, 0xE9A60⟩)
    ∧ decodeWord [0x9050B94D, 0x0C12A520, 0x0E9A604D] = .ok (.vzip ⟨9, 0, 5, 0, 2, 1, 6, 0x2A520, 0x4D0C1, 0xE9A60⟩)
    ∧ decodeWord [0x9050B951, 0x0C12A520, 0x0E9A604D] = .ok (.vuzp ⟨9, 0, 5, 0, 2, 1, 6, 0x2A520, 0x4D0C1, 0xE9A60⟩)
    ∧ decodeWord [0x9050B955, 0x0C12A520, 0x0E9A604D] = .ok (.vslide ⟨9, 0, 5, 0, 2, 1, 6, 0x2A520, 0x4D0C1, 0xE9A60⟩)
    ∧ decodeWord [0x9050B959, 0x0C12A520, 0x0020C04D] = .ok (.vcomp ⟨9, 0, 5, 0, 2, 1, 6, 0x2A520, 0x4D0C1, 0x020C0⟩)
    ∧ decodeWord [0x9050B95D, 0x0C12A520, 0x0020C04D] = .ok (.vexpd ⟨9, 0, 5, 0, 2, 1, 6, 0x2A520, 0x4D0C1, 0x020C0⟩) := by
  repeat' apply And.intro
  all_goals rfl

/-- M words laid out by R52 and R53; `mldb` to `mdrain` as spec/03 and spec/08 write them. -/
theorem test_decode_matrix :
    decodeWord [0x01A04002, 0x003FC000, 0, 0, 0, 0] = .ok (.mldb ⟨0, 6, 8, 1, 0, 0, 255, 0, 0, 0, 0, 0, 0, 0, 0, 0, 0, 0⟩)
    ∧ decodeWord [0x007C0906, 0x003FCAAF, 0, 0, 0, 0] = .ok (.mstep ⟨0, 1, 15, 0, 2, 1, 255, 2, 2, 5, 15, 0, 0, 0, 0, 0, 0, 0⟩)
    ∧ decodeWord [0x01A8000A, 0x003FC000, 0x0007E000, 0x0007D000, 0, 0] = .ok (.mfold ⟨0, 6, 10, 0, 0, 0, 255, 0, 0, 0, 0, 0x7E000, 0x7D000, 0, 0, 0, 0, 0⟩)
    ∧ decodeWord [0x0004000E, 0x003FC000, 0, 0, 4, 0] = .ok (.mdrain ⟨0, 0, 1, 0, 0, 0, 255, 0, 0, 0, 0, 0, 0, 4, 0, 0, 0, 0⟩)
    ∧ decodeWord [0x90140312, 0x00294000, 0, 0, 0, 0] = .ok (.mzero ⟨9, 0, 5, 0, 0, 3, 0xA5, 0, 0, 0, 0, 0, 0, 0, 0, 0, 0, 0⟩)
    ∧ decodeWord [0x90140316, 0x0029400C, 0, 0, 0x000036ED, 0] = .ok (.mdraini ⟨9, 0, 5, 0, 0, 3, 0xA5, 0, 0, 0, 12, 0, 0, 13, 6, 5, 5, 1⟩) := by
  repeat' apply And.intro
  all_goals rfl


/-! Ill-formed words, one for each check (R49, R55, R69, R72 to R75, R134, R135, R138, R165). -/

theorem test_wf_conditions : (Instr.cmp 0 4 3 6 1).wf = false ∧ (Instr.cmpAnd 0 4 3 6 1).wf = false ∧ (Instr.cmpOr 0 4 3 7 1).wf = false
    ∧ (Instr.cmpi 0 4 3 6 1).wf = false := by decide

theorem test_wf_registers : (Instr.mfsr 0 0x0F 5).wf = false ∧ (Instr.mfsr 0 0x16 5).wf = false ∧ (Instr.mfsr 0 0x44 5).wf = false
    ∧ (Instr.mtsr 0 0x44 5).wf = false ∧ (Instr.mtsr 0 0x02 5).wf = false ∧ (Instr.mtsr 0 0x0D 5).wf = false ∧ (Instr.mtsr 0 0x15 5).wf = false := by
  decide

theorem test_wf_sizes : (Instr.ld 0 0 7 3 5).wf = false ∧ (Instr.st 0 0 1 3 5).wf = false ∧ (Instr.st 0 0 7 3 5).wf = false
    ∧ (Instr.ldq 0 0 5 3 5).wf = false ∧ (Instr.stq 0 0 5 3 5).wf = false ∧ (Instr.sgo 0 5 1 5).wf = false ∧ (Instr.pld 0 5 1 3 2).wf = false
    ∧ (Instr.pst 0 5 1 3 2).wf = false := by decide

theorem test_wf_scopes : (Instr.fenceRel 0 6).wf = false ∧ (Instr.fenceAcq 0 6).wf = false ∧ (Instr.fenceSc 0 7).wf = false := by decide

theorem test_wf_pairs_and_loops : (Instr.patCas 0 0 1 7 9 2).wf = false ∧ (Instr.ltrip 0 3 6).wf = false ∧ (Instr.loop 0 2).wf = false
    ∧ (Instr.loop 5 6).wf = false := by decide

/-- A V word on v1, v2 and v3 of type i32. -/
def v0 : VFields := ⟨0, 0, 0, 0, 2, 0, 0, 0x010C0, 0x020C0, 0x030C0⟩

theorem test_wf_vector_type : (Instr.vadd { v0 with ty := 6 }).wf = false ∧ (Instr.vmulh { v0 with ty := 0 }).wf = false
    ∧ (Instr.vfma { v0 with ty := 2 }).wf = false ∧ (Instr.vand { v0 with ty := 1 }).wf = false := by decide

theorem test_wf_vector_rnd : (Instr.vand { v0 with rnd := 1 }).wf = false ∧ (Instr.vadd { v0 with rnd := 1 }).wf = false
    ∧ (Instr.vadd { v0 with ty := 0, rnd := 6 }).wf = false ∧ (Instr.vrsum { v0 with ty := 0, rnd := 2, S2 := 0 }).wf = false
    ∧ (Instr.vrsum { v0 with rnd := 1, S2 := 0 }).wf = false ∧ (Instr.vrcpe { v0 with ty := 0, rnd := 2, S2 := 0 }).wf = false
    ∧ (Instr.vfrx { v0 with ty := 0, rnd := 6, S2 := 0 }).wf = false ∧ (Instr.vcvt { v0 with aux := 4, rnd := 1, S2 := 0 }).wf = false
    ∧ (Instr.vbfNarrow { v0 with ty := 1, rnd := 7, S2 := 0 }).wf = false := by decide

theorem test_wf_vector_aux : (Instr.vadd { v0 with aux := 1 }).wf = false ∧ (Instr.vcvt { v0 with aux := 2, S2 := 0 }).wf = false
    ∧ (Instr.vcvt { v0 with aux := 7, S2 := 0 }).wf = false ∧ (Instr.vqnt { v0 with ty := 6, aux := 8 }).wf = false
    ∧ (Instr.vtpl { v0 with ty := 7, aux := 6, S2 := 0 }).wf = false ∧ (Instr.vpack { v0 with ty := 4, aux := 2 }).wf = false
    ∧ (Instr.vbfNarrow { v0 with ty := 1, aux := 1, S2 := 0 }).wf = false ∧ (Instr.vbfWiden { v0 with ty := 1, S2 := 0 }).wf = false := by decide

theorem test_wf_vector_destination : (Instr.vadd { v0 with D := 0x80005 }).wf = false ∧ (Instr.vadd { v0 with D := 0xC10A0 }).wf = false
    ∧ (Instr.vfma { v0 with ty := 0, D := 0x410C0 }).wf = false ∧ (Instr.vceq { v0 with D := 0x080C0 }).wf = false
    ∧ (Instr.vceq { v0 with D := 0x410C0 }).wf = false ∧ (Instr.mpany { v0 with ty := 0, D := 0x100C0, S2 := 0 }).wf = false
    ∧ (Instr.mpany { v0 with ty := 0, D := 0x021C0, S2 := 0 }).wf = false := by decide

theorem test_wf_vector_descriptors : (Instr.vadd { v0 with S1 := 0x020E0 }).wf = false ∧ (Instr.vadd { v0 with S1 := 0x021C0 }).wf = false
    ∧ (Instr.vadd { v0 with S1 := 0x020C1 }).wf = false ∧ (Instr.vadd { v0 with S1 := 0x500C0 }).wf = false
    ∧ (Instr.vadd { v0 with S1 := 0x420C2 }).wf = false ∧ (Instr.vadd { v0 with S2 := 0xC3001 }).wf = false
    ∧ (Instr.vmov { v0 with S2 := 0x00001 }).wf = false ∧ (Instr.mand { v0 with ty := 0, S1 := 0x080C0 }).wf = false
    ∧ (Instr.vunpk { v0 with ty := 4 }).wf = false ∧ (Instr.vunpk { v0 with ty := 5, S2 := 0x80002 }).wf = false := by decide

/-- An M word that names no field. -/
def m0 : MFields := ⟨0, 0, 0, 0, 0, 0, 0, 0, 0, 0, 0, 0, 0, 0, 0, 0, 0, 0⟩

theorem test_wf_matrix_unread : (Instr.mldb { m0 with acc := 1 }).wf = false ∧ (Instr.mldb { m0 with aq := 1 }).wf = false
    ∧ (Instr.mstep { m0 with bq := 1 }).wf = false ∧ (Instr.mldb { m0 with rowsm1 := 1 }).wf = false ∧ (Instr.mfold { m0 with plane := 1 }).wf = false
    ∧ (Instr.mldb { m0 with amode := 1 }).wf = false ∧ (Instr.mdrain { m0 with fmtl := 1 }).wf = false ∧ (Instr.mzero { m0 with fmtb := 1 }).wf = false
    ∧ (Instr.mstep { m0 with sa := 1 }).wf = false ∧ (Instr.mstep { m0 with sb := 1 }).wf = false ∧ (Instr.mfold { m0 with dq := 1 }).wf = false
    ∧ (Instr.mstep { m0 with zero := 1 }).wf = false := by decide

theorem test_wf_matrix_limits : (Instr.mstep { m0 with rowsm1 := 16 }).wf = false ∧ (Instr.mstep { m0 with fmtl := 7 }).wf = false
    ∧ (Instr.mldb { m0 with plane := 6 }).wf = false ∧ (Instr.mdrain { m0 with dtype := 3 }).wf = false ∧ (Instr.mdrain { m0 with dtype := 7 }).wf = false
    ∧ (Instr.mdrain { m0 with drnd := 6 }).wf = false ∧ (Instr.mdrain { m0 with curve := 1 }).wf = false := by decide


/-! Premises of the statements are met: the machine, decoding and scalar words. Each theorem names a statement and shows, for
each of its clauses, a state and operands that meet the premises of that clause. -/

theorem witness_EncodedWordsDecode : (Instr.add 15 31 0 31).wf = true ∧ encode (.add 15 31 0 31) = some [0xF07C1F00]
    ∧ encode (.vcgt ⟨0, 0, 0, 0, 0, 0, 0, 0x020C0, 0x010C0, 0x8FC00⟩) = some [0x00000091, 0x0C0020C0, 0x08FC0001]
    ∧ (Instr.mzero m0).wf = true ∧ encode (.mzero m0) = some [0x00000012, 0, 0, 0, 0, 0] := by
  repeat' apply And.intro
  all_goals rfl

/-- R55: the first and last reserved codes of each range are rejected, and so is a word that runs past the bytes given. -/
theorem test_reserved_words : decodeWord [0x0000009C] = .error (.reserved 0) ∧ decodeWord [0x000000FC] = .error (.reserved 0)
    ∧ decodeWord [0x00000033] = .error (.reserved 3) ∧ decodeWord [0x000000FF] = .error (.reserved 3)
    ∧ decodeWord [0x00000075, 0, 0] = .error (.reserved 1) ∧ decodeWord [0x0000007D, 0, 0] = .error (.reserved 1)
    ∧ decodeWord [0x00000099, 0, 0] = .error (.reserved 1) ∧ decodeWord [0x0000009D, 0, 0] = .error (.reserved 1)
    ∧ decodeWord [0x000000DD, 0, 0] = .error (.reserved 1) ∧ decodeWord [0x000000FD, 0, 0] = .error (.reserved 1)
    ∧ decodeWord [0x00000119, 0, 0] = .error (.reserved 1) ∧ decodeWord [0x0000013D, 0, 0] = .error (.reserved 1)
    ∧ decodeWord [0x00000161, 0, 0] = .error (.reserved 1) ∧ decodeWord [0x000003FD, 0, 0] = .error (.reserved 1)
    ∧ decodeWord [0x00000001, 0x0C0010C0, 0x10000000] = .error (.reserved 1) ∧ decodeWord [0x0000001A, 0, 0, 0, 0, 0] = .error (.reserved 2)
    ∧ decodeWord [0x02000012, 0, 0, 0, 0, 0] = .error (.reserved 2) ∧ decodeWord [0x00000012, 0x00400000, 0, 0, 0, 0] = .error (.reserved 2)
    ∧ decodeWord [0x00000012, 0, 0x00100000, 0, 0, 0] = .error (.reserved 2) ∧ decodeWord [0x00000012, 0, 0, 0, 0, 1] = .error (.reserved 2)
    ∧ decodeWord [0x00000001, 0] = .error .truncated ∧ decodeWord [0x00000002, 0, 0, 0, 0] = .error .truncated := by
  repeat' apply And.intro
  all_goals rfl

/-- A state whose text is one word and no more. -/
def textOf (w : Nat) : State := State.reset.withFetchWord 32 w

theorem witness_StepRunsFetchedWord :
    let s := textOf 0x00106500
    s.turns = [] ∧ (s.pkg s.myPkg).phase ≠ .inReset ∧ s.cur.status = .running ∧ (s.cur.engine s.eng).park = .none
    ∧ (s.cur.engine s.eng).nextIssue ≤ s.cycle ∧ (s.eng = .A ∧ s.cur.reports = [] ∧ s.cur.fault = none) ∧ atBodyEnd (s.cur.engine s.eng) = false
    ∧ inText s.cur (s.cur.engine s.eng).pc = true ∧ cachedByte s.cur (s.cur.engine s.eng).pc.toNat = some 0x00
    ∧ (s.cur.engine s.eng).pc.toNat + 4 * wordLen 0x00 ≤ textEnd s.cur ∧ passesBody (s.cur.engine s.eng) (wordLen 0x00) = false
    ∧ cachedText s.cur (s.cur.engine s.eng).pc.toNat (4 * wordLen 0x00) = .ok [0x00, 0x65, 0x10, 0x00]
    ∧ decode [0x00, 0x65, 0x10, 0x00] = .ok (.add 0 4 3 5, []) ∧ ownWord .A 0x00 = true ∧ ownWord .V 0x00 = false := by
  repeat' apply And.intro
  all_goals first | rfl | decide

theorem witness_StepRunsFetchedWord_refused :
    (let s := textOf 0x0000009C
     cachedText s.cur (s.cur.engine s.eng).pc.toNat 4 = .ok [0x9C, 0x00, 0x00, 0x00] ∧ decode [0x9C, 0x00, 0x00, 0x00] = .error (.reserved 0)
     ∧ ownWord s.eng 0x9C = true)
    ∧ (let s := strand (cell0.modEngine .A (fun g => { g with pc := 0x1100 }))
       inText s.cur (s.cur.engine .A).pc = false ∧ s.turns = [] ∧ (s.pkg s.myPkg).phase ≠ .inReset ∧ s.cur.status = .running) := by
  repeat' apply And.intro
  all_goals first | rfl | decide

theorem witness_QueuedTurnsComeFirst :
    { State.reset with turns := [Turn.event .nop] }.turns = [.event .nop] ∧ { State.reset with turns := [Turn.engine ⟨0, 0, 1⟩ .V] }.turns = [.engine ⟨0, 0, 1⟩ .V]
    ∧ { State.reset with turns := [Turn.due (.quench 0)] }.turns = [.due (.quench 0)] := ⟨rfl, rfl, rfl⟩

theorem witness_StepsKeepMemoryForm : MemOk State.reset ∧ MemOk { State.reset with mem := [(0, 1), (7, 255)] }
    ∧ (∃ t, step { State.reset with mem := [(0, 1), (7, 255)], turns := [.event (.unitWake ⟨0, 0⟩ 0)] } = .next t) ∧ Memory.wf [(0, 1), (7, 255)] = true
    ∧ (∀ a, Memory.byte [(3, 1)] a = Memory.byte [(3, 1)] a) := ⟨rfl, rfl, ⟨_, rfl⟩, rfl, fun _ => rfl⟩

theorem witness_MemoryReadsBack : Memory.wf [(4, 9), (5, 8)] = true ∧ 1 < [(1 : Byte), 2].length ∧ (3 < 4 ∨ 4 + [(1 : Byte), 2].length ≤ 3)
    ∧ (6 < 4 ∨ 4 + [(1 : Byte), 2].length ≤ 6) := by decide

/-- a3 holds 7, a4 holds the most negative number, p1 holds 1, p2 holds 0. -/
def scalars : Cell := (((cell0.writeA 3 7).writeA 4 (BitVec.intMin 64)).writeP 1 true).writeP 2 false

theorem witness_ScalarArithmeticWritesItsResult :
    AGo { pg := 0, aregs := [5, 4, 3] } (strand scalars) ∧ AGo { pg := 1, aregs := [0, 31, 31] } (strand scalars)
    ∧ AGo { pg := 0, aregs := [5, 3] } (strand scalars)
    ∧ (strand scalars).cur.readA 0 = 0 ∧ ((strand scalars).cur.readA 4).getLsbD 63 = true ∧ (∀ j, j < 63 → ((strand scalars).cur.readA 4).getLsbD j = false) := by
  refine ⟨ago (by decide), ago (by decide), ago (by decide), rfl, rfl, by decide⟩

theorem witness_DivisionResultLands : AGo { pg := 0, aregs := [5, 4, 3] } (strand scalars) ∧ AGo { pg := 0, aregs := [0, 0, 3] } (strand scalars)
    ∧ (strand scalars).cur.divFree ≤ (strand scalars).cycle ∧ (walked cell0 1).heat = (strand scalars).cur.heat := by
  refine ⟨ago (by decide), ago (by decide), by decide, rfl⟩

theorem witness_ImmediateWordsWriteTheirResult : AGo { pg := 1, aregs := [5, 3] } (strand scalars) ∧ AGo { pg := 0, aregs := [5] } (strand scalars)
    ∧ AGo { pg := 0, aregs := [0, 0] } (strand scalars) := ⟨ago (by decide), ago (by decide), ago (by decide)⟩

theorem witness_ComparesAndPredicateWordsWriteThePredicate :
    AGo { pg := 1, dest := 2, aregs := [4, 3] } (strand (walked scalars 2)) ∧ AGo { pg := 0, reads := [2], dest := 2, aregs := [4, 3] } (strand
      { walked scalars 2 with V := eng0, M := eng0 }) = False
    ∧ AGo { pg := 0, reads := [1, 2], dest := 15 } (strand (walked scalars 15)) ∧ AGo { pg := 0, dest := 0 } (strand scalars)
    ∧ AGo { pg := 0, reads := [2], aregs := [4, 3, 5] } (strand scalars) ∧ (5 : BitVec 3).toNat < 6 := by
  refine ⟨ago (by decide), ?_, ago (by decide), ago (by decide), ago (by decide), by decide⟩
  exact eq_false (fun h => absurd h.dest (by decide))

theorem witness_CompareCombines : AGo { pg := 0, reads := [2], dest := 2, aregs := [4, 3] } (strand (walked scalars 2))
    ∧ AGo { pg := 0, dest := 2, aregs := [3] } (strand (walked scalars 2)) := ⟨ago (by decide), ago (by decide)⟩

theorem witness_RegistersAreTaggedAndZerosHardWired : (31 : Nat) ≠ 0 ∧ (6 : Heat) ≠ cell0.heat ∧ (1 : Nat) ≠ 31
    ∧ ({ cell0.writeA 31 9 with heat := 6 }.readA 31 = 0) ∧ (cell0.writeA 31 9).readA 31 = 9 := by decide

/-- Every control register that a word may name can be read in a command cell, and those not marked CM in a strand cell. -/
theorem witness_ControlRegisterReads :
    (∀ r ∈ (List.range 0x44).map (BitVec.ofNat 8), AGo { pg := 0, cm := srCommand r.toNat, aregs := [31] } (command cell0))
    ∧ (∀ r ∈ [(0x00 : BitVec 8), 0x0E, 0x10, 0x15], AGo { pg := 0, cm := srCommand r.toNat, aregs := [31] } (strand cell0))
    ∧ srCommand 0x20 = true ∧ srCommand 0x43 = true := by
  refine ⟨agoAll (by decide +kernel), agoAll (by decide +kernel), by decide, by decide⟩

/-- A command cell in which the write of control register r can issue, a3 holding v. -/
def sets (r : BitVec 8) (v : Word) : State := command ({ walked cell0 (srShared r) with qmin := [(1, 1)] }.writeA 3 v)

/-- Values at the bounds that R84 sets for each register. -/
def offers : List (BitVec 8 × Word) := [(0x00, 7), (0x00, 8), (0x01, 1), (0x01, 64), (0x01, 0), (0x01, 65), (0x05, 2047), (0x06, 0), (0x07, 1), (0x07, 5),
  (0x07, 0), (0x07, 6), (0x08, 4095), (0x08, 4096), (0x0A, 65535), (0x0B, 15), (0x0C, 4294967296), (0x20, 8191), (0x20, 8192), (0x2F, 8193),
  (0x30, 1), (0x30, 8192), (0x3F, 0), (0x3F, 8193), (0x31, 0), (0x40, 1023), (0x40, 1024), (0x43, 4294967295), (0x43, 4294967296)]

theorem witness_ControlRegisterWrites :
    (∀ x ∈ offers, AGo { pg := 0, cm := srCommand x.1.toNat, dest := srShared x.1, aregs := [3] } (sets x.1 x.2))
    ∧ offers.all (fun x => (sets x.1 x.2).cur.readA 3 == x.2) = true
    ∧ (sets 0x20 8191).cur.qcapOf 0 = 8192 ∧ (sets 0x20 8191).cur.qminOf 0 = 0 ∧ (sets 0x31 0).cur.qminOf 1 = 1
    ∧ sumQ (fun k => if k = 0x20 - 0x20 then 8191 else (sets 0x20 8191).cur.qminOf k) ≤ 8192
    ∧ 8192 < sumQ (fun k => if k = 0x20 - 0x20 then 8192 else (sets 0x20 8192).cur.qminOf k) := by
  refine ⟨agoAll (by decide +kernel), by decide +kernel, by decide, by decide, by decide, by decide, by decide⟩

theorem witness_ControlRegisterEvents : (7 : BitVec 8).toNat < 16 ∧ (0x1F : BitVec 8).toNat < 0x20 ∧ 0x40 ≤ (0x40 : BitVec 8).toNat
    ∧ srReadOnly 0x15 = true ∧ (0x43 : BitVec 8).toNat ≤ 0x43 := by decide

/-- A complete 8-byte entry, and one of 32 bytes. -/
def entry8 : QEntry := ⟨3, 8, 5, [1, 2, 3, 4, 5, 6, 7, 8], [], false⟩
def entry32 : QEntry := ⟨4, 32, 5, [], [], false⟩

theorem witness_BranchTargetTripAndQueueWords :
    (∀ v ∈ [(0x1000 : Word), 0x10FC, 0x1100, 0x1002, 0], AGo { pg := 0, dest := shB 7, aregs := [3] } (strand ((walked cell0 (shB 7)).writeA 3 v)))
    ∧ inText cell0 0x10FC = true ∧ inText cell0 0x1100 = false ∧ inText cell0 0 = false
    ∧ (∀ v ∈ [(65535 : Word), 65536], AGo { pg := 0, dest := shTrip 5, aregs := [3] } (strand ({ walked cell0 (shTrip 5) with levelKinds := [(5, 1)] }.writeA 3 v)))
    ∧ isTemporal { cell0 with levelKinds := [(5, 1)] } 5 = true ∧ isTemporal cell0 5 = false
    ∧ AGo { pg := 0, aregs := [5] } (strand (cell0.setQueue 15 [entry8])) ∧ (cell0.setQueue 15 [entry8]).headAt 15 0 = .ok entry8
    ∧ (cell0.setQueue 15 [entry32]).headAt 15 0 = .ok entry32 ∧ entry8.size = 8 ∧ entry32.size ≠ 8
    ∧ AGo { pg := 0, aregs := [3] } (strand cell0) ∧ cell0.canDraw 15 1 = true := by
  refine ⟨agoAll (by decide), by decide, by decide, by decide, agoAll (by decide), by decide, by decide, ago (by decide), rfl, rfl, rfl, by decide,
    ago (by decide), by decide⟩

/-! Premises of the statements are met: accesses, queues and streams. -/

/-- A strand whose a3 holds an address, a4 a value. -/
def at3 (w : Word) : Cell := (cell0.writeA 3 w).writeA 4 9

/-- The address of the last granule of the region, of its last byte, and of a granule in a vault of another die. -/
theorem witness_ScalarAccessesLeaveTheCell :
    AGo { pg := 0, aregs := [3, 5], access := true } (strand (at3 (va 0xFF8))) ∧ (va 0xFF8 + (0 : BitVec 7).signExtend 64 * BitVec.ofNat 64 8).toNat % 8 = 0
    ∧ MayAccess (strand (at3 (va 0xFF8))) true [.plain (.load 5 6) (va 0xFF8) 8 .rd] [some ⟨(va 0xFF8).toNat, some 5⟩] []
    ∧ MayAccess (strand (at3 (va 0xFF8))) true [.plain (.store (leBytes 9 8) 64) (va 0xFF8) 8 .wr] [some ⟨(va 0xFF8).toNat, some 5⟩] []
    ∧ MayAccess (strand (at3 (va 0xFFF))) false [.plain (.load 5 0) (va 0xFFF) 1 .rd] [some ⟨(va 0xFFF).toNat, some 5⟩] []
    ∧ MayAccess (strand (at3 (vaultAddr 1 0 64))) true [.plain (.load 5 6) (vaultAddr 1 0 64) 8 .rd] [none] []
    ∧ (strand cell0).cur.loads < 16 ∧ (strand cell0).cur.stores < 64
    ∧ AGo { pg := 0, aregs := [3], kregs := [2], access := true } (strand (at3 (va 16))) ∧ (strand (at3 (va 16))).cur.readK 2 = 0
    ∧ MayAccess (strand (at3 (va 16))) false [.plain (.kload 2) (va 16) 16 .rd] [some ⟨(va 16).toNat, some 5⟩] []
    ∧ MayAccess (strand (at3 (va 16))) false [.plain (.store (leBytes 0 16) 64) (va 16) 16 .wr] [some ⟨(va 16).toNat, some 5⟩] []
    ∧ (capRights (0x40 <<< 56 : Cap)).getLsbD 6 = true ∧ (capRights (0x20 <<< 56 : Cap)).getLsbD 6 = false
    ∧ AGo { pg := 0, aregs := [3, 4, 5], access := true } (strand (at3 (va 8)))
    ∧ MayAccess (strand (at3 (va 8))) false [.plain (.rmw .add 5 9 0) (va 8) 8 .atom] [some ⟨(va 8).toNat, some 5⟩] [] := by
  repeat' apply And.intro
  all_goals first | exact ago (by decide) | exact mayAccess (by decide) (by decide) rfl | decide | rfl

theorem witness_MisalignedAccesses : AGo { pg := 0, aregs := [3, 5], access := true } (strand (at3 (va 0xFF9))) ∧ (va 0xFF9).toNat % 8 ≠ 0
    ∧ AGo { pg := 0, aregs := [3, 5], access := true } (strand (at3 (BitVec.intMin 64))) ∧ addrOk (BitVec.intMin 64) = false
    ∧ (va 0xFF8).toNat % 16 ≠ 0 ∧ AGo { pg := 0, aregs := [3], kregs := [2], access := true } (strand (at3 (va 0xFF8)))
    ∧ AGo { pg := 0, aregs := [3, 4, 5], access := true } (strand (at3 (va 2))) ∧ (va 2).toNat % 4 ≠ 0 := by
  repeat' apply And.intro
  all_goals first | exact ago (by decide) | exact mayAccess (by decide) (by decide) rfl | decide | rfl

/-- A complete entry of 512 bytes, all zero, and one whose first index is -1. -/
def entry512 : QEntry := ⟨6, 512, 5, [], [], false⟩
def entryMinus : QEntry := ⟨7, 512, 5, [255, 255, 255, 255], [], false⟩

theorem witness_QueueLoadsAndStores :
    AGo { pg := 0, aregs := [3], access := true } (strand (at3 (va 0xE00))) ∧ (va 0xE00).toNat % 32 = 0 ∧ (va 0xE01).toNat % 32 ≠ 0
    ∧ blocksOf 512 ≤ (strand (at3 (va 0xE00))).cur.qcapOf 15 ∧ (strand (at3 (va 0xE00))).cur.canDraw 15 (blocksOf 512) = true
    ∧ (∃ sites tlb, MayAccess (strand (at3 (va 0xE00))).fresh.2 false
        (granuleParts (va 0xE00) 16 .rd (fun k => .fill (strand (at3 (va 0xE00))).nextId k (32 * k) 32)) sites tlb)
    ∧ (strand ((at3 (va 0xE00)).setQueue 15 [entry512])).cur.headAt 15 0 = .ok entry512 ∧ entry512.size = 32 * 2 ^ (4 : BitVec 3).toNat
    ∧ entry512.size ≠ 32 * 2 ^ (0 : BitVec 3).toNat
    ∧ (∃ sites tlb, MayAccess (strand ((at3 (va 0xE00)).setQueue 15 [entry512])) false
        (granuleParts (va 0xE00) 16 .wr (fun k => .store (fitBytes 32 (((strand (at3 (va 0xE00))).cur.entryBytes entry512).drop (32 * k))) k)) sites tlb) := by
  refine ⟨ago (by decide), by decide, by decide, by decide, by decide, ⟨_, _, mayAccess (by decide) (by decide) rfl⟩, rfl, rfl, by decide,
    ⟨_, _, mayAccess (by decide) (by decide) rfl⟩⟩

/-- A gather and a scatter with all indices 0, also where values and indices come from one queue; with oobtrap an index of -1, and the
first byte behind the region and the last word in it. -/
theorem witness_QueueAccessesLeaveTheCell :
    let st := strand ((at3 (va 0)).setQueue 1 [entry512, entry512])
    let tr := strand ({ at3 (va 0) with engctl := 4 }.setQueue 1 [entryMinus])
    AGo { pg := 0, aregs := [3], access := true } st ∧ st.cur.headAt 1 0 = .ok entry512 ∧ st.cur.headAt 1 1 = .ok entry512 ∧ entry512.size = 512
    ∧ st.cur.engctl.getLsbD 2 = false ∧ (va 0).toNat % 4 = 0
    ∧ (AGo { pg := 0, aregs := [3], access := true } tr ∧ tr.cur.engctl.getLsbD 2 = true ∧ tr.cur.headAt 1 0 = .ok entryMinus
      ∧ idxAt (tr.cur.entryBytes entryMinus) 0 < 0 ∧ aVault (va 0) = true ∧ addrOk (va 0) = true ∧ isLocal tr.me (va 0) = true
      ∧ outsideRegion tr (va 0) (va 0x1000) 4 = true ∧ outsideRegion tr (va 0) (va 0xFFC) 4 = false)
    ∧ MayAccess st false ((List.range 16).map (fun k => elemPart st (.fill 1 k (k * 32) 32) (va 0) (idxAt (st.cur.entryBytes entry512) k) 32 .rd))
        (List.replicate 16 (some ⟨(va 0).toNat, some 5⟩)) []
    ∧ MayAccess st false ((List.range 16).map (fun k => elemPart st (.store [] k) (va 0) (idxAt (st.cur.entryBytes entry512) k) 32 .wr))
        (List.replicate 16 (some ⟨(va 0).toNat, some 5⟩)) []
    ∧ MayAccess st false ((List.range 64).map (fun k => elemPart st (.scatAdd .add 0 k) (va 0) (idxAt (st.cur.entryBytes entry512) k) 8 .atom))
        (List.replicate 64 (some ⟨(va 0).toNat, some 5⟩)) [] := by
  repeat' apply And.intro
  all_goals first
    | exact ago (by decide)
    | exact mayAccess (by decide +kernel) (by decide +kernel) (by decide +kernel)
    | decide +kernel
    | rfl

/-- Streams: exhausted, counting no access, linear at the base of the region, and unfolding a 4 x 4 x 1 image by a 1 x 1 kernel. -/
def linear : Stream := { Stream.zero with base := va 0, str := [32], cnt := [2, 1, 1, 1] }
def unfolding : Stream := { Stream.zero with base := va 0, cnt := [1, 1, 1, 1], mode := 1, geom := 0x0000111001004004 }
def streams (x : Stream) : State := strand (((cell0.writeS 2 x).writeA 3 65535).writeA 4 32768)

theorem witness_StreamWords :
    AGo { pg := 0, aregs := [3] } (streams linear) ∧ AGo { pg := 0, aregs := [4, 3] } (streams linear)
    ∧ ((streams linear).cur.readA 3).toNat < 65536 ∧ 65536 ≤ (65536 : Word).toNat
    ∧ (-2147483648 ≤ (65535 : Word).toInt ∧ (65535 : Word).toInt < 2147483648) ∧ 1 ≤ (32768 : Word).toNat ∧ (32768 : Word).toNat ≤ 32768
    ∧ ¬ ((2147483648 : Word).toInt < 2147483648) ∧ ¬ (1 ≤ (0 : Word).toNat) ∧ ¬ ((32769 : Word).toNat ≤ 32768)
    ∧ modeOk 0x18 0 = true ∧ modeOk 0x1C 0 = false ∧ modeOk 2 0 = false := by
  repeat' apply And.intro
  all_goals first | exact ago (by decide) | exact mayAccess (by decide) (by decide) rfl | decide | rfl

theorem witness_StreamWordsAndTheirEntries :
    AGo { pg := 0, access := true } (streams linear) ∧ ((streams { linear with done := true }).cur.readS 2).done = true
    ∧ ((streams { linear with cnt := [0, 1, 1, 1] }).cur.readS 2).total = 0
    ∧ ((streams linear).cur.readS 2).done = false ∧ ((streams linear).cur.readS 2).total ≠ 0 ∧ linear.mode.toNat % 4 ≠ 1
    ∧ linearAddrs linear 1 = [va 0] ∧ (va 0).toNat % 32 = 0 ∧ waitsForFill (streams linear) (streams linear).me (streams linear).cur linear (va 0) = false
    ∧ (pageWalk (streams linear) (streams linear).me (streams linear).cur linear [va 0]).2 = [none]
    ∧ blocksOf 32 ≤ (streams linear).cur.qcapOf 3 ∧ (streams linear).cur.canDraw 3 (blocksOf 32) = true
    ∧ MayAccess (streams linear).fresh.2 false [.plain (.fill (streams linear).nextId 0 0 32) (va 0) 32 .rd] [some ⟨(va 0).toNat, some 5⟩] []
    ∧ ((streams unfolding).cur.readS 2).done = false ∧ ((streams unfolding).cur.readS 2).total ≠ 0 ∧ unfolding.mode.toNat % 4 = 1
    ∧ aVault unfolding.tensor = true ∧ modeOk 1 unfolding.geom = true
    ∧ unfoldRuns unfolding.geom unfolding.tensor 0 0 = (List.range 16).map (fun k => (va k, 64 * k, 1)) := by
  repeat' apply And.intro
  all_goals first | exact ago (by decide) | exact mayAccess (by decide) (by decide) rfl | decide +kernel | rfl

/-! Premises of the statements are met: faults, heats, vaults, translations and memory. -/

/-- A command cell in its handler, and one with a trap's state saved. -/
def handling : Cell := { cell0 with inHandler := true }
def trapped : Cell := { cell0 with saved := some ⟨eng0, eng0, eng0, [(2, 1)], 0, none, [], none, [], none, []⟩ }

theorem witness_CommandCellTrapAndReturn : isCmd (command cell0).me = true ∧ (leaveRing (command cell0) 0).cur.inHandler = false
    ∧ (leaveRing (command handling) 0).cur.inHandler = true ∧ AGo { pg := 0, cm := true } (command cell0) ∧ (command cell0).cur.saved = none
    ∧ AGo { pg := 0, cm := true } (command trapped) ∧ (command trapped).cur.saved = some ⟨eng0, eng0, eng0, [(2, 1)], 0, none, [], none, [], none, []⟩
    ∧ isCmd (strand cell0).me = false := by
  refine ⟨rfl, by decide, by decide, ago (by decide), rfl, ago (by decide), rfl, rfl⟩

theorem witness_TrapBreakAndEventWait : AGo { pg := 0 } (strand cell0) ∧ AGo { pg := 0 } (command cell0) ∧ ANot { pg := 1 } (strand cell0)
    ∧ isCmd (command cell0).me = true ∧ isCmd (strand cell0).me = false ∧ (strand { cell0 with latch := true }).cur.latch = true
    ∧ AGo { pg := 0 } (strand { cell0 with latch := true }) ∧ (strand cell0).cur.latch = false := by
  refine ⟨ago (by decide), ago (by decide), anot (by decide), rfl, rfl, rfl, ago (by decide), rfl⟩

/-- A fault record, and a die whose record queue is full. -/
def record0 : FaultRecord := ⟨0, 0, 0, 0, 0, 0, 0, 0, 0⟩
def crowded : State := stateOf 1 { die0 with faultWait := List.replicate 16 record0 } cell0
/-- A die with a stow slot that is free, and one where it is reserved for cell 1. -/
def slotDie : Die := { die0 with
  regions := [(0, ⟨0, 384, 5, false, 6, true, true, true, true, false, 0⟩)], slots := [(0, va 0)] }
def reservedDie : Die := { slotDie with reserved := [(1, 0)] }

theorem witness_StrandStopsOnAFault : isCmd 1 = false ∧ recordRoom crowded (recordDie crowded 1) = false
    ∧ recordRoom (strand cell0) (recordDie (strand cell0) 1) = true
    ∧ (taskOf (stateOf 1 { die0 with tasks := [(0, { Task.reset with state := .running })] } cell0) cell0.handle).isSome = true
    ∧ freeSlots ((appendRecord (stateOf 1 slotDie cell0) 0 record0).die 0) 0 0 ≠ []
    ∧ ((appendRecord (stateOf 1 reservedDie cell0) 0 record0).die 0).reserved.any (fun x => x.1 == 1) = true
    ∧ freeSlots ((appendRecord (strand cell0) 0 record0).die 0) 0 0 = [] ∧ ((appendRecord (strand cell0) 0 record0).die 0).reserved.any (fun x => x.1 == 1) = false
    ∧ cellIx ⟨0, 0, 1⟩ = 1 ∧ ((strand cell0).cell 1).status = .running ∧ (State.reset.cell 1).status ≠ .running := by
  repeat' apply And.intro
  all_goals decide

theorem witness_HeatStateIsRead : AGo { pg := 0, aregs := [5] } (stateOf 1 { die0 with retired := [(3, 0), (4, 0)] } cell0)
    ∧ ((stateOf 1 { die0 with retired := [(3, 0), (4, 0)] } cell0).die 0).retired = [(3, 0), (4, 0)] := ⟨ago (by decide), rfl⟩

theorem witness_CommandWordsTakePriv : isCmd (strand cell0).me = false ∧ srCommand (0x05 : BitVec 8).toNat = true ∧ srCommand (0x43 : BitVec 8).toNat = true := by
  decide

theorem witness_FalseGuardPasses : ANot { pg := 2, aregs := [5, 4, 3] } (strand scalars) ∧ ANot { pg := 2, aregs := [3, 5], access := true } (strand scalars)
    ∧ ANot { pg := 2, aregs := [3, 4, 5], access := true } (strand scalars) ∧ ANot { pg := 2, aregs := [3] } (strand scalars)
    ∧ ANot { pg := 2 } (strand scalars) ∧ ANot { pg := 2, kregs := [1, 2] } (strand scalars) := by
  refine ⟨anot (by decide), anot (by decide), anot (by decide), anot (by decide), anot (by decide), anot (by decide)⟩

/-- A die whose domain key is armed, and a capability for object 9 that its MAC verifies, with all rights. -/
def keyDie : Die := { die0 with keys := [(0, { KeyEntry.reset with armed := true, kind := 2, key := 7 })] }
def cap9 : Cap := reseal (some 7) (BitVec.ofNat 128 (255 * 2 ^ 56 + 9))
def holds (c : Cap) : State := stateOf 1 keyDie (((cell0.writeK 2 c).writeA 3 1).writeA 4 16383)

theorem witness_CapabilityWords : AGo { pg := 0, kregs := [2, 3] } (holds 0) ∧ AGo { pg := 0, aregs := [4, 3], kregs := [2] } (holds 0)
    ∧ AGo { pg := 0, aregs := [3], kregs := [2] } (holds 0) ∧ capUsable (holds 0) ((holds 0).cur.readK 2) = false
    ∧ ((holds 0).cur.readA 4).toNat = 16383 ∧ 0 < 16382 ∧ 16382 < 2 ^ 14 ∧ 0 + 1 + 16382 ≤ 2 ^ 14 ∧ ¬ 0 + 2 + 16383 ≤ 2 ^ 14 := by
  refine ⟨ago (by decide), ago (by decide), ago (by decide), by decide, by decide, by decide, by decide, by decide, by decide⟩

theorem witness_UsableCapability : capUsable (holds cap9) cap9 = true := by
  have o : capOid cap9 = 9 := (reseal_field (some 7) _ 0 32 (by decide)).trans (by decide)
  have d : dieKey (holds cap9) (holds cap9).myDie = some 7 := rfl
  simp only [capUsable, o, d, Bool.and_eq_true]
  exact ⟨rfl, macOk_reseal 7 _⟩

/-- valloc: the whole vault less the region that is there, too much, no size, attributes above bit 15 and with a mode of 7; a region to free. -/
def asks (size attr : Word) : State := command ((cell0.writeA 3 size).writeA 4 attr)

theorem witness_VaultAllocation : AGo { pg := 0, cm := true, aregs := [4, 3, 5] } (asks 4190208 0x6000) ∧ wf64 0x0700 10 8 = 7 ∧ wf64 0x0600 10 8 ≠ 7
    ∧ attrBad 4190208 0x0600 = false ∧ lowestExtent (vaultRegions die0 0) 4092 = some 4 ∧ lowestExtent (vaultRegions die0 0) 4093 = none
    ∧ attrBad 0 0x0600 = true ∧ attrBad 1023 0x0600 = true ∧ attrBad 1024 0x10600 = true ∧ lowestExtent (vaultRegions die0 1) 4096 = some 0
    ∧ lowest 64 (fun i => !(vaultRegions die0 0).any (fun e => e.1 % 64 == i)) = some 1
    ∧ (∃ h d, drawHeat die0 = some (h, d)) ∧ AGo { pg := 0, cm := true, aregs := [3] } (asks (va 0) 0)
    ∧ (∃ r, regionBased (asks (va 0) 0) (va 0) = some (0, r) ∧ (r.stow && r.sheld) = false ∧ acceptedIn (asks (va 0) 0) 0 0 r = false)
    ∧ regionBased (asks (va 0) 0) (va 1024) = none ∧ isLocal (asks (va 0) 0).me (va 0) = true := by
  repeat' apply And.intro
  all_goals first | exact ago (by decide) | exact ⟨_, _, rfl⟩ | exact ⟨_, rfl, by decide, by decide⟩ | decide

theorem witness_TranslationWords : AGo { pg := 0, cm := true, aregs := [3] } (asks 0x10001 0) ∧ AGo { pg := 0, cm := true, aregs := [3, 5] } (asks 0x10000 0)
    ∧ 2 ≤ (2 : Word).toNat % 4 ∧ (0x10001 : Word).toNat % 4 = 1 ∧ (0x10000 : Word).toNat % 4 = 0 ∧ isLocal (asks 0 0).me 0x10000 = true
    ∧ (0x10000 : Word).getLsbD 63 = false ∧ (BitVec.intMin 64).getLsbD 63 = true
    ∧ aVault 0x10000 = false ∧ aVault (va 0) = true ∧ isLocal (asks 0 0).me (vaultAddr 1 0 0) = false ∧ walk (asks 0 0) 0 0x10000 = none
    ∧ (asks 0 0).me / 144 = (asks 0 0).myDie := by
  repeat' apply And.intro
  all_goals first | exact ago (by decide) | decide

theorem witness_SweepQuenchesRetiredHeats : passLen ≤ { die0 with sweepPos := 131072 }.sweepPos ∧ { die0 with sweepPos := 131071 }.sweepPos < passLen
    ∧ die0.retired = [] ∧ find? [(32, (5 : Heat))] 32 = some 5 ∧ (find? { die0 with retired := [(5, 0)] }.retired (5 : Heat).toNat).isSome = true := by
  decide

theorem witness_VaultGranulesAreHeatTagged : MemOk { State.reset with mem := [(32, 7)], heats := [(1, 5)], eccBad := [1] } ∧ 32 % 32 + 32 ≤ 32 ∧ 63 % 32 + 1 ≤ 32
    ∧ (List.replicate 32 (1 : Byte)).length = 32 ∧ lookup 0 { State.reset with heats := [(1, (5 : Heat))] }.heats (32 / 32) = 5 ∧ (lookup 0 [(1, (5 : Heat))] 2 ≠ 5)
    ∧ [1].contains (63 / 32) = true := by
  refine ⟨rfl, by decide, by decide, by decide, by decide, by decide, by decide⟩

/-- Operations in flight: one of the own die whose home has accepted it, and one of another die. -/
def op (id : Nat) (k : OpKind) (n : Nat) : MemOp :=
  ⟨id, id, k, va 0, n, 0, some ⟨(va 0).toNat, some 5⟩, false, false, .none, 0, 0, none, .out, none, false⟩
def far (id : Nat) (k : OpKind) (n : Nat) : MemOp := ⟨id, id, k, vaultAddr 1 0 0, n, 0, none, false, false, .none, 0, 0, none, .out, none, false⟩
def flying (o : MemOp) : State := strand { cell0 with ops := [o] }

/-- The same with a region of die 1 at the address of the other die's operation. -/
def flyingFar (o : MemOp) : State := { flying o with dies := [(0, die0), (1, { die0 with live := [5] })] }

/-- An operation whose response has come back to its die. -/
def backAgain (o : MemOp) (r : Reply) : MemOp := { o with reply := some r, leg := .returned, performed := true }

theorem witness_ReadsDeliverTheirData :
    let o := op 4 (.load 5 6) 8
    let k := far 4 (.kload 2) 16
    ((flying o).cell 1).op? 4 = some o ∧ isReg (OpKind.load 5 6) = true ∧ isFill (OpKind.fill 4 0 0 32) = true
    ∧ mayPerform (flying o) 1 ((flying o).cell 1) o = true
    ∧ ({ o with performed := true }.reply = none ∧ atHome (flying o) 1 { o with performed := true } = true
        ∧ mayPerform (flying o) 1 cell0 { o with performed := true } = false)
    ∧ arrive (flying o) 1 ((flying o).cell 1) o = .ok (some ⟨(va 0).toNat, some 5⟩) []
    ∧ (∃ t, readHome (flying o) o ⟨(va 0).toNat, some 5⟩ = .ok (List.replicate 8 0, t))
    ∧ ((∃ e v, arrive (flying k) 1 ((flying k).cell 1) k = .fault e v) ∧ k.reissue = false ∧ mayPerform (flying k) 1 ((flying k).cell 1) k = true)
    ∧ arrive (flying { o with bound := .out }) 1 cell0 { o with bound := .out } = .outside
    ∧ ((backAgain k (.data [] 0)).reply = some (.data [] 0) ∧ (backAgain k (.data [] 0)).leg = .returned
        ∧ onRing (flying (backAgain k (.data [] 0))) (pkgOfCell 1) 4 = false) := by
  repeat' apply And.intro
  all_goals first | exact ⟨_, rfl⟩ | exact ⟨_, _, rfl⟩ | rfl | decide

theorem witness_WritesAndAtomicsArePerformedAtTheirHome :
    let o := op 4 (.store [1, 2, 3, 4, 5, 6, 7, 8] 64) 8
    let f := far 4 (.store [1, 2, 3, 4, 5, 6, 7, 8] 64) 8
    let a := op 4 (.rmw .add 5 1 0) 8
    (flying o).cur.op? 4 = some o ∧ mayPerform (flying o) 1 ((flying o).cell 1) o = true ∧ o.bound = .none ∧ o.reissue = false
    ∧ inWindow o.addr = false ∧ o.site = some ⟨(va 0).toNat, some 5⟩
    ∧ (∃ t, writeSite (flying o) ⟨(va 0).toNat, some 5⟩ [1, 2, 3, 4, 5, 6, 7, 8] = .ok t) ∧ isCmd 1 = false ∧ isLocal 1 o.addr = true
    ∧ (isLocal 1 f.addr = false ∧ f.site = none ∧ openPart ((flyingFar f).cell 1) f = [f] ∧ mayPerform (flyingFar f) 1 ((flyingFar f).cell 1) f = true
        ∧ (∃ p tlb, judge (flyingFar f) 1 ((flyingFar f).cell 1) f = .ok (some p) tlb)
        ∧ (∃ e v, judge (flying f) 1 ((flying f).cell 1) f = .fault e v) ∧ partFate (flying f) 1 ((flying f).cell 1) f = .refused)
    ∧ ((backAgain f (.done 0)).leg = .returned ∧ onRing (flying (backAgain f (.done 0))) (pkgOfCell 1) 4 = false)
    ∧ mayPerform (flying a) 1 ((flying a).cell 1) a = true ∧ arrive (flying a) 1 ((flying a).cell 1) a = .ok (some ⟨(va 0).toNat, some 5⟩) []
    ∧ readSite (flying a) a.addr ⟨(va 0).toNat, some 5⟩ 8 = .ok (List.replicate 8 0)
    ∧ (∃ t, writeSite (flying a) ⟨(va 0).toNat, some 5⟩ (leBytes (rmwApply .add 8 0 1 0) 8) = .ok t)
    ∧ (∃ e v, arrive (flying (far 4 (.rmw .add 5 1 0) 8)) 1 ((flying (far 4 (.rmw .add 5 1 0) 8)).cell 1) (far 4 (.rmw .add 5 1 0) 8) = .fault e v ∧ e ≠ .none)
    ∧ 2 ^ 64 - 1 < 2 ^ (8 * 8) ∧ 2 ^ 32 - 1 < 2 ^ (8 * 4) := by
  repeat' apply And.intro
  all_goals first | exact ⟨_, rfl⟩ | exact ⟨_, _, rfl⟩ | exact ⟨_, _, rfl, by decide⟩ | rfl | decide

/-! Premises of the statements are met: engines, landings, records, barriers, rings and fences. -/

/-- A reissued load of a page that is not mapped, and one of another die that came back refused. -/
def missing : MemOp := { far 4 (.load 5 6) 8 with addr := 0x10000, reissue := true }
def returned : MemOp := backAgain { far 4 (.load 5 6) 8 with reissue := true } (.refused .rxlate 9)

/-- The link to the memory of die 0 is paused. -/
def hushed : State := { strand cell0 with pkgs := [(0, { Package.reset with phase := .ready, ports := [(16, { Port.reset with pausedTill := 5 })] })] }

theorem witness_TextAndPageFills : (find? { cell0 with icache := [(128, [])] }.icache ((0x1000 : Nat) / 32 * 32 / 32)).isSome = true
    ∧ find? cell0.icache 128 = none
    ∧ (∃ e v, fetchGranule (strand cell0) 1 0x1000 = .error (e, v)) ∧ (∃ bs t u, fetchGranule (strand cell0) 1 (va 0) = .ok (bs, t, u))
    ∧ mayLeave (strand cell0) 0 (va 0) = true ∧ mayLeave hushed 0 0x10000 = false
    ∧ (cell0.readS 1).nextpg ≠ pagePending ∧ ((cell0.writeS 1 { Stream.zero with nextpg := pagePending }).readS 1).nextpg = pagePending
    ∧ cell0.tlb.find? (·.covers 0) = none ∧ walk (strand cell0) 0 0 = none ∧ [(⟨0, 0, 3, 7⟩ : TlbEntry)].find? (·.covers 0) = some ⟨0, 0, 3, 7⟩
    ∧ (op 4 (.load 5 6) 8).reissue = false ∧ missing.reissue = true ∧ cell0.fault = none ∧ arrive (strand cell0) 1 cell0 missing = .miss
    ∧ (∃ e v, arrive (strand cell0) 1 cell0 { op 4 (.load 5 6) 8 with addr := va 8192, reissue := true } = .fault e v)
    ∧ (isLocal 1 returned.addr = false ∧ returned.reply = some (.refused .rxlate 9) ∧ returned.leg = .returned ∧ onRing (strand cell0) 0 4 = false) := by
  repeat' apply And.intro
  all_goals first | exact ⟨_, _, rfl⟩ | exact ⟨_, _, _, rfl⟩ | decide | rfl

/-- A loop of level 2 that goes round once more, one that ends, and one whose end the engine has not reached. -/
def looping (trip : Nat) (stop : Word) : EngineState := { eng0 with loops := [⟨0x0F00, stop, 2, 0, trip⟩] }

theorem witness_LandingsAndBackEdges :
    [(⟨1, 4, .areg 5 7 0⟩ : Landing)].all (fun l => decide (0 < l.due)) = true ∧ (⟨0, 4, .areg 5 7 0⟩ : Landing).due ≤ (strand cell0).cycle
    ∧ cell0.saved = none ∧ (3 : Word).toNat < 8 ∧ 64 ≤ (64 : Word).toNat
    ∧ (looping 2 0x1000).loops = ⟨0x0F00, 0x1000, 2, 0, 2⟩ :: [] ∧ 0 = (looping 2 0x1000).rets.length ∧ (looping 2 0x1000).pc = 0x1000
    ∧ (lookup 0 (looping 2 0x1000).lcnt 2).toNat + 1 < 2 ∧ 1 ≤ (lookup 0 (looping 1 0x1000).lcnt 2).toNat + 1 ∧ (looping 2 0x1004).pc ≠ 0x1004
    ∧ slipOk { cell0 with A := looping 2 0x1000 } .A = true
    ∧ slipOk { cell0 with slip := 1, A := { looping 2 0x1000 with csn := 1 } } .A = false := by
  repeat' apply And.intro
  all_goals decide

theorem witness_WatchdogSlipAndQuiescence :
    isCmd 1 = false ∧ cell0.status = .running ∧ 0 < { cell0 with wdogCount := 268435456 }.wdogLimit
    ∧ cell0.wdogLimit ≤ { cell0 with wdogCount := 268435456 }.wdogCount
    ∧ ¬ cell0.wdogLimit ≤ { cell0 with wdogCount := 268435455 }.wdogCount ∧ cell0.internalFor < 64 ∧ 64 ≤ { cell0 with internalFor := 64 }.internalFor
    ∧ (∀ g, 0 ≤ ((cell0.engine g).csn - (cell0.engine .A).csn).toInt)
    ∧ (let s := stateOf 0 { die0 with quiet := 268435456 } cell0
       (s.die 0).quietReported = false ∧ 0 < (s.cell 0).wdogLimit ∧ (s.cell 0).wdogLimit ≤ (s.die 0).quiet ∧ dieQuiet s 0 = true)
    ∧ ¬ ((command cell0).cell 0).wdogLimit ≤ ((command cell0).die 0).quiet := by
  repeat' apply And.intro
  case right.right.right.right.right.right.right.left => intro g; cases g <;> decide
  all_goals decide

/-- A die with a fault queue that holds one record of a held XLATE in slot 3, one of task control in slot 4; the cell that holds the fault, stopped by fault number 2. -/
def holdRecord : FaultRecord := { record0 with cause := BitVec.ofNat 15 (1024 + codeNum .xlate), value := 0x10000, strand := strandReg 1 cell0, fault := 2 }
def queueDie : Die := { die0 with
  fqbase := va 0, fqRecords := [(3, holdRecord), (4, { record0 with cause := 0x4000 })] }
def heldFault : Held := ⟨0x10000, 0x1000, 4, 2, [], none⟩
def holding : Cell := { cell0 with fault := some heldFault }
def stowed0 : Stowed := ⟨0, .fault, true, true, holdRecord.strand, 0, 1, 0, holding⟩

theorem witness_DeferredFaultsAndRecords :
    ({ cell0 with reports := [(⟨.perm, 1⟩ : Report), ⟨.ecc, 2⟩] }).reports = ⟨.perm, 1⟩ :: [⟨.ecc, 2⟩] ∧ cell0.status = .running
    ∧ Cell.reset.status ≠ .running ∧ fqOpen (strand cell0) 0 = false ∧ fqOpen (stateOf 1 queueDie cell0) 0 = true ∧ fqRoom (stateOf 1 queueDie cell0) 0 = true ∧ queueDie.faultWait = []
    ∧ fqRoom (strand cell0) 0 = false ∧ { die0 with faultWait := [record0] }.faultWait ≠ [] := by
  repeat' apply And.intro
  all_goals decide

theorem witness_DispositionsAct :
    let b := va 0
    let stored (v : Nat) (s : State) : State := putRegion s (b + BitVec.ofNat 64 (dispOff 3)) (leBytes v 8)
    let cell := stateOf 1 queueDie holding
    let slot := stateOf 1 { queueDie with stowed := [stowed0] } cell0
    fqOpen (strand cell0) 0 = false ∧ fqOpen cell 0 = true ∧ 255 < 256 ∧ find? queueDie.fqRecords 2 = none ∧ (0x4000 : Nat) ≥ 4096
    ∧ find? queueDie.fqRecords 4 = some { record0 with cause := 0x4000 }
    ∧ find? queueDie.fqRecords 3 = some holdRecord ∧ holdRecord.cause.toNat < 4096
    ∧ (∀ v, v = 1 ∨ v = 2 → strandCell (stored v cell) 0 holdRecord (fun _ c => c.holds holdRecord) = some 1 ∧ ((stored v cell).cell 1).fault = some heldFault
        ∧ strandCell (stored v slot) 0 holdRecord (fun _ c => c.holds holdRecord) = none
        ∧ stowedOf (stored v slot) 0 holdRecord (fun x => x.held && x.ctx.holds holdRecord) = some (0, stowed0)
        ∧ strandCell (stored v (strand cell0)) 0 holdRecord (fun _ c => c.holds holdRecord) = none
        ∧ stowedOf (stored v (strand cell0)) 0 holdRecord (fun x => x.held && x.ctx.holds holdRecord) = none)
    ∧ (stowedOf (stored 3 slot) 0 holdRecord (fun x => x.cause == .fault && x.done && samePoint x.strand holdRecord.strand
        && decide (x.ctx.stopped ≤ holdRecord.fault)) = some (0, stowed0)
      ∧ (((stored 3 slot).die 0).ready ++ ((stored 3 slot).die 0).restoring).any (fun e => e.restore.contains stowed0.slot) = false
      ∧ stowedOf (stored 3 cell) 0 holdRecord (fun x => x.cause == .fault && x.done && samePoint x.strand holdRecord.strand
        && decide (x.ctx.stopped ≤ holdRecord.fault)) = none)
    ∧ (strandCell (stored 4 cell) 0 holdRecord (fun ix c => (c.fault.isSome || c.status == .held) && samePoint (strandReg ix c) holdRecord.strand) = some 1
      ∧ stowedOf (stored 4 slot) 0 holdRecord (fun x => samePoint x.strand holdRecord.strand) = some (0, stowed0)
      ∧ strandCell (stored 4 (strand cell0)) 0 holdRecord (fun ix c => (c.fault.isSome || c.status == .held) && samePoint (strandReg ix c) holdRecord.strand) = none) := by
  intro b stored cell slot
  repeat' apply And.intro
  case right.right.right.right.right.right.right.right.left => rintro v (rfl | rfl) <;> (repeat' apply And.intro) <;> decide +kernel
  all_goals decide +kernel

/-- V's turn in a strand, with a target in b3, a return address, and an active loop. -/
def common (c : Cell) : State := { strand c with eng := .V }
def deep : Cell := { cell0 with V := { eng0 with rets := [0x1010, 0x1020, 0x1030, 0x1040, 0x1050, 0x1060, 0x1070, 0x1080] } }

theorem witness_CommonWordsMoveEachEngine : CGo [] (common cell0) ∧ CGo [shB 3] (common (cell0.writeB .V 3 0x1040)) ∧ CGo [1, shB 3] (common (cell0.writeP 1 true))
    ∧ CGo [shTrip 2] (common cell0) ∧ (∀ f, (((common cell0).cur.engine f).csn - ((common cell0).cur.engine .V).csn).toInt ≤ 0)
    ∧ ¬ (∀ f, (((common { cell0 with A := { eng0 with csn := 1 } }).cur.engine f).csn - ((common cell0).cur.engine .V).csn).toInt ≤ 0)
    ∧ (common cell0).cur.V.rets = [] ∧ (common deep).cur.V.rets.length = 8 ∧ (cell0.writeB .V 3 0x1040).readB .V 3 = 0x1040 ∧ cell0.readB .V 3 = 0
    ∧ inText cell0 0x10FC = true ∧ inText cell0 0x1100 = false ∧ loopOk { cell0 with levelKinds := [(2, 1)] } cell0.V 2 0x1100 = true
    ∧ loopOk { cell0 with levelKinds := [(2, 1)] } cell0.V 2 0x1104 = false ∧ lookup 0 { cell0 with trips := [(2, 3)] }.trips 2 = 3
    ∧ lookup 0 cell0.trips 2 = 0 := by
  refine ⟨cgo (by decide), cgo (by decide), cgo (by decide), cgo (by decide), ?_, ?_, rfl, rfl, by decide, by decide, by decide, by decide, by decide,
    by decide, rfl, rfl⟩
  · intro f; cases f <;> decide
  · intro h; exact absurd (h .A) (by decide)

/-- A and M wait at `end`, `yield` or `halt`, and it is V's turn. -/
def meeting (p : Park) : Cell := { cell0 with A := { eng0 with park := p }, M := { eng0 with park := p } }

theorem witness_EnginesMeetAtEndYieldAndHalt : (∀ p f, f ≠ (common (meeting p)).eng → ((common (meeting p)).cur.engine f).park = p)
    ∧ slipOk (common (meeting .yield)).cur .V = true ∧ slipOk { cell0 with slip := 1, V := { eng0 with csn := 1 } } .V = false
    ∧ ¬ (∀ f, f ≠ Engine.V → ((common cell0).cur.engine f).park = .yield) ∧ higherWaits (strand cell0) 0 3 = false
    ∧ higherWaits (stateOf 1 { die0 with ready := [⟨0, 0, 0, 0, 0, 144, []⟩] } cell0) 0 3 = true
    ∧ (∃ u, beginStow (stateOf 1 slotDie cell0) 1 .yield = some u) ∧ beginStow (strand cell0) 1 .yield = none := by
  refine ⟨?_, by decide, by decide, ?_, by decide +kernel, by decide +kernel, ⟨_, rfl⟩, rfl⟩
  · intro p f h; cases f <;> first | rfl | exact absurd rfl h
  · intro h; exact absurd (h .A (by decide)) (by decide)

/-- A barrier that expects two participants, with one counted. -/
def barrier (n : Nat) : Barrier := ⟨4294967295, 2, (List.range n), []⟩

theorem witness_BarriersCountArrivals : (barrier 1).expected ≠ 0 ∧ (barrier 1).counted.length + 1 = (barrier 1).expected
    ∧ (barrier 0).counted.length + 1 ≠ (barrier 0).expected ∧ CGo [] (strand cell0) ∧ regPending (strand { cell0 with pendA := [7] }) .A 7 = true
    ∧ regPending (strand cell0) .A 7 = false ∧ arrivalOpen (strand cell0) 5 = false
    ∧ arrivalOpen (strand { cell0 with A := { eng0 with arrives := [(5, 1)] }, V := { eng0 with arrives := [(5, 1)] }, M := { eng0 with arrives := [(5, 1)] } }) 5 = true
    ∧ (strand cell0).cur.barWait = none ∧ (strand cell0).eng = .A ∧ (strand cell0).cur.mayRead .A 15 = true
    ∧ (let w : BarWait := ⟨5, none, true, some 1⟩
       let s := strand { walked cell0 15 with barWait := some w, A := { eng0 with inBar := some 5 } }
       s.cur.barWait = some w ∧ waitDone s w = some 1 ∧ s.cur.mayWrite .A 15 = true ∧ s.cur.expects .A 15 = s.cur.expects s.eng 15
       ∧ (s.cur.engine s.eng).inBar = some 5 ∧ w.sync = true)
    ∧ waitDone (strand cell0) ⟨5, some 0, false, none⟩ = none ∧ ({ cell0 with tokenRegs := [(⟨5, 7, 9, false, false⟩ : TokenReg)] }.tokenRegs.find? (fun t : TokenReg => t.name == 5)) = some ⟨5, 7, 9, false, false⟩
    ∧ (∃ u, releaseOf (strand cell0) 1 (barScope 5) (fun o => decide (o.id < 9)) = .done u)
    ∧ releaseOf (flying (op 4 (.store [1] 64) 1)) 1 (barScope 5) (fun o => decide (o.id < 9)) = .wait := by
  refine ⟨by decide, by decide, by decide, cgo (by decide), by decide, by decide, by decide, by decide, rfl, rfl, by decide, by decide, by decide, by decide,
    ⟨_, rfl⟩, rfl⟩

/-- A ring of four slots, two of them claimed by a producer and one of those published. -/
def ring0 : Ring := ⟨va 1024, 3, 2, 0, 2, 1, 0, 0, [], [], [], [], 0, []⟩
def ringState (r : Ring) (c : Cell) : State := stateOf 1 { die0 with rings := [((va 64).toNat, r)] } c

theorem witness_RingWordsActOnTheRecord :
    let st := ringState ring0 (((cell0.writeA 3 (va 64)).writeA 4 1).writeA 5 1)
    AGo { pg := 0, aregs := [3, 4, 5], access := true } st ∧ AGo { pg := 0, aregs := [3, 5], access := true } st ∧ (va 64).toNat % 64 = 0 ∧ addrOk (va 64) = true
    ∧ (va 32).toNat % 64 ≠ 0 ∧ addrOk (BitVec.intMin 64) = false ∧ ringAt st (va 64) = .ok ring0 st ∧ ringAt st (BitVec.ofNat 64 (2 ^ 57)) = .refused
    ∧ countOk ring0 1 = true ∧ countOk ring0 0 = false ∧ countOk ring0 5 = false ∧ ring0.producers = [] ∧ (2 : Word).toNat ≤ ring0.free ∧ ring0.free < (3 : Word).toNat
    ∧ st.cur.granted = none ∧ st.cur.ringAt = none ∧ ring0.refuses true 1 1 = false ∧ ring0.refuses true 3 1 = true ∧ ring0.refuses false 0 1 = true
    ∧ (∃ u, releaseOf st st.me ring0.scope (fun _ => true) = .done u) ∧ lruRing (st.die 0).rings = some (va 64).toNat
    ∧ (st.die 0).rings.drop 0 = ((va 64).toNat, ring0) :: [] := by
  refine ⟨ago (by decide), ago (by decide), by decide, by decide, by decide, by decide, rfl, rfl, by decide, by decide, by decide, rfl, by decide, by decide,
    rfl, rfl, by decide, by decide, by decide, ⟨_, rfl⟩, by decide, rfl⟩

theorem witness_FencesWaitForAccesses :
    AGo { pg := 0 } (flying (op 4 (.load 5 6) 8)) ∧ isDead (flying (op 4 (.load 5 6) 8)) (op 4 (.load 5 6) 8) = false
    ∧ performedAt 1 5 (op 4 (.load 5 6) 8) = false ∧ isWrite (flying (op 4 (.load 5 6) 8)) (op 4 (.load 5 6) 8) = false
    ∧ performedAt 1 4 { far 4 (.store [1] 64) 1 with performed := true } = true ∧ performedAt 1 3 { far 4 (.store [1] 64) 1 with performed := true } = true
    ∧ performedAt 1 2 { far 4 (.store [1] 64) 1 with performed := true } = false ∧ isWrite (strand cell0) (far 4 (.store [1] 64) 1) = true
    ∧ AGo { pg := 0 } (strand cell0) ∧ (strand cell0).cur.ops = [] ∧ 4 ≤ (4 : BitVec 3).toNat ∧ ¬ 4 ≤ (3 : BitVec 3).toNat
    ∧ (let o : MemOp := { far 4 (.store [1] 64) 1 with addr := vaultAddr 8 0 0, dead := true }
       let s : State := { flying o with topo := { Topology.reset with severed := [1] } }
       AGo { pg := 0 } s ∧ s.cur.ops.filter (fun o => isDead s o) = [o] ∧ s.cur.engctl.getLsbD 1 = false) := by
  repeat' apply And.intro
  all_goals first | exact ago (by decide) | decide

/-! Premises of the statements are met: pool, copies, fabric. -/

/-- A node that holds a stack as object 9, a fifo as 10 and an array as 12, guarded, under a domain key. -/
def obj (kind : Nat) : PoolObj := ⟨kind, 4096, 0, 0, false, 10, 4, none, 0, none, 8, 5, [], [], [], []⟩
def node0 : Node := { Node.reset with objects := [(9, obj 2), (10, obj 3), (12, { obj 0 with guarded := true })] }
def poolPkg : Package := { Package.reset with phase := .ready, lit := true, topo := { Topology.reset with nodesPresent := [9] } }
def capOf (oid kind : Nat) : Cap := reseal (some 7) (BitVec.ofNat 128 (kind * 2 ^ 64 + 255 * 2 ^ 56 + oid))
/-- A strand with a pool capability in k2 and data in a3, a4. -/
def pooled (c : Cap) (c0 : Cell) : State :=
  { strand (((c0.writeK 2 c).writeA 3 8).writeA 4 1) with nodes := [(9, node0)], pkgs := [(0, poolPkg)], domKey := some 7 }

/-- A pool access in flight. -/
def poolOp : MemOp := ⟨4, 3, .pool, 0, 0, 0, none, false, false, .none, 0, 0, none, .out, none, false⟩

/-- A request of cell 1 for an object, at its node. -/
def request (opn : PoolOp) (c : Cap) : PoolReq := ⟨4, 1, opn, c, 0, 0, 0, 9, 0, 0, .atNode, 0, 0, 0, 0, .none, false, false⟩

/-- A read of sector 0 of object 9 on its way, and a kinf whose answer has come back to the cell. -/
def pendingRead : PoolReq := request (.read 3 0 1 []) 9
def returnedField : PoolReq := { request (.field 21 7) 9 with stage := .returning, answer := .ok 3 false 7 8 }

theorem witness_PoolWordsSendTheirRequests :
    AGo { pg := 0, aregs := [3, 4], kregs := [2], access := true } (pooled 9 cell0) ∧ (pooled 9 cell0).cur.readK 2 = 9 ∧ (9 : Cap) ≠ 0
    ∧ (pooled 0 cell0).cur.readK 2 = 0 ∧ AGo { pg := 0, aregs := [3, 4], kregs := [2], access := true } (pooled 0 cell0) ∧ ((pooled 9 cell0).cur.readA 3).toNat % 8 = 0
    ∧ ((pooled 9 cell0).cur.readA 4).toNat % 4 ≠ 0 ∧ AGo { pg := 0, aregs := [3, 4, 5], kregs := [2], access := true } (pooled 9 cell0)
    ∧ AGo { pg := 0, aregs := [4], kregs := [2], access := true } (pooled 9 cell0)
    ∧ AGo { pg := 0, dest := 15, aregs := [4], kregs := [2], access := true } (pooled 9 (walked cell0 15))
    ∧ AGo { pg := 0, aregs := [3], kregs := [2], access := true } (pooled 9 cell0) ∧ (∃ x, releaseOf (pooled 9 cell0) 1 4 (fun _ => true) = .done x)
    ∧ blocksOf 32 ≤ (pooled 9 cell0).cur.qcapOf 6 ∧ (pooled 9 cell0).cur.canDraw 6 (blocksOf 32) = true ∧ (0 : Word).toNat % 32 = 0
    ∧ (pooled 9 (cell0.setQueue 6 [entry32])).cur.headAt 6 0 = .ok entry32 ∧ entry32.size = 32 * 2 ^ (0 : BitVec 3).toNat
    ∧ (pooled 9 cell0).cur.joined = none ∧ readsPending (pooled 9 cell0) 9 0 32 = false
    ∧ readsPending { pooled 9 { cell0 with ops := [poolOp] } with reqs := [pendingRead] } 9 0 32 = true ∧ req? { pooled 9 cell0 with reqs := [returnedField] } 4 = some returnedField
    ∧ hasReturned { pooled 9 cell0 with reqs := [returnedField] } returnedField = true ∧ (8 : Word).toNat < 16 ∧ 16 ≤ (16 : Word).toNat ∧ (23 : Word).toNat < 24 ∧ 24 ≤ (24 : Word).toNat := by
  repeat' apply And.intro
  all_goals first | exact ago (by decide) | exact ⟨_, rfl⟩ | decide | rfl

/-- A strand whose one access in flight is the request. -/
def asked (r : PoolReq) : State := { pooled 9 { cell0 with ops := [poolOp] } with reqs := [r] }

/-- An earlier push of the same strand on the same stack, and a port of node 9's plane that shows a new version. -/
def earlier : PoolReq := { request (.push 1) 9 with id := 3 }
def behind : State := { pooled 9 { cell0 with ops := [{ poolOp with id := 3 }, poolOp] } with reqs := [earlier, request (.pop 5) 9] }
def hushedPort : State := { asked (request (.pop 5) 9) with pkgs := [(0, { poolPkg with ports := [(1, { Port.reset with announced := true })] })] }

theorem witness_NodesServeRequests :
    let r := request (.pop 5) 9
    let s := asked r
    req? s 4 = some r ∧ r.node = 9 ∧ r.answer = .none ∧ r.stage = .atNode ∧ r.discarded = false ∧ mustFollow s r = false
    ∧ r.version = (s.node 9).version ∧ { r with version := 1 }.version ≠ (s.node 9).version ∧ req? s 5 = none ∧ { request (.pop 5) 9 with stage := .atBridge }.stage = .atBridge
    ∧ onRing s (pkgOfCell r.cell) 4 = false ∧ nodePresent s (pkgOfCell r.cell) 9 = true ∧ mayIssue s r = true
    ∧ nodeOpen s (pkgOfCell r.cell) 9 = true ∧ mustFollow behind r = true ∧ mayIssue hushedPort r = false := by
  repeat' apply And.intro
  all_goals first | decide | rfl

theorem witness_NodeIsPresent : nodePresent (asked (request (.pop 5) 9)) (pkgOfCell 1) 9 = true ∧ quarantined (asked (request (.pop 5) 9)) 9 0 = false
    ∧ (obj 2).capacity = 512 ∧ (obj 2).elems = [] ∧ { obj 3 with elems := [1, 2] }.elems = 1 :: [2] ∧ { obj 2 with elems := [1, 2] }.elems = [1] ++ [2]
    ∧ (obj 4).count + (1 : Word).toNat < 2 ^ 64 ∧ (obj 0).leased 0 = false ∧ { obj 0 with holder := some 1, expiry := 9 }.leased 8 = true
    ∧ (3 : BitVec 64) < (obj 0).token ∧ (obj 0).token < (5 : BitVec 64) ∧ { obj 0 with holder := some 1, expiry := 9 }.holder.isSome = true
    ∧ objOf (asked (request (.pop 5) 9)) 9 10 = some (obj 3) ∧ objOf (asked (request (.pop 5) 9)) 9 11 = none := by
  repeat' apply And.intro
  all_goals decide

/-- The capability checks of the node pass for a capability that verifies and has the object's number, heat and rights. -/
theorem capChecks_pass (c : Cap) (o : capOid c = 9) (h : capHeat c = 0) (r : capRights c = 255) (m : macOk (some 7) c = true) :
    capChecks (asked (request (.pop 5) c)) 9 (request (.pop 5) c) = some (obj 2) := by
  have i : (request (.pop 5) c).oid = 9 := by
    show (capOid c).toNat = 9
    rw [o]; rfl
  unfold capChecks
  rw [i]
  have g : rightOk (request (.pop 5) c) = true := by
    show (capRights c).getLsbD _ = true
    rw [r]; rfl
  exact if_pos ⟨rfl, m, h, g, rfl⟩

theorem witness_CapabilityChecks : capChecks (asked (request (.pop 5) (capOf 9 2))) 9 (request (.pop 5) (capOf 9 2)) = some (obj 2)
    ∧ ∀ c, boundsOk (request (.pop 5) c) (obj 2) = true :=
  ⟨capChecks_pass _ ((reseal_field (some 7) _ 0 32 (by decide)).trans (by decide)) ((reseal_field (some 7) _ 32 24 (by decide)).trans (by decide))
    ((reseal_field (some 7) _ 56 8 (by decide)).trans (by decide)) (macOk_reseal 7 _), fun _ => rfl⟩

/-- The answer of a pop: still at the node, and back at its strand. -/
def popped : PoolReq := { request (.pop 5) 9 with stage := .answered, answer := .ok 3 false 7 8 }
def home (r : PoolReq) : PoolReq := { r with stage := .returning }

theorem witness_PoolResponsesReachTheStrand :
    let s := asked popped
    let sector : ReqAnswer := .data [(List.replicate 32 1, 2, 3)] 4
    let reading : PoolReq := { popped with op := .read 4 0 1 [], answer := sector }
    (s.cell 1).op? 4 = some poolOp ∧ poolOp.kind = .pool ∧ req? s 4 = some popped ∧ popped.id = 4
    ∧ (canReturn s popped = true ∧ popped.veto = false ∧ popped.op.isFill = false)
    ∧ (hasReturned (asked (home popped)) (home popped) = true ∧ answersRmw (home popped) = true ∧ popped.op.reg ≠ 0)
    ∧ (canReturn s (request (.pop 5) 9) = false ∧ hasReturned s (request (.pop 5) 9) = false)
    ∧ answersRmw { home popped with answer := .refused .perm } = true
    ∧ (canReturn s reading = true ∧ reading.op.isFill = true ∧ reading.op ≠ .fill ∧ askedSectors reading = [0]
        ∧ (∀ y, sector? s 0 reading.oid 0 = some y → y.pending = false) ∧ (s.pkg 0).sectors.length < cachePages { s with dies := [(1, { Die.reset 1 with local_ := 47 })] } 0 (nodeOf s reading.oid % 8))
    ∧ hasReturned (asked (home reading)) (home reading) = true ∧ canReturn s { reading with answer := .refused .perm } = true
    ∧ canReturn s { reading with op := .fill } = true
    ∧ (canReturn s { popped with op := .write [1] } = true ∧ hasReturned s { home popped with op := .write [1] } = true ∧ ((s.cell 1).op? 4).isSome = true)
    ∧ ({ popped with veto := true }.node = 9 ∧ canReturn s { popped with veto := true } = true)
    ∧ (orphaned { s with cells := [] } (home popped) = true ∧ hasReturned { s with cells := [] } (home popped) = true) := by
  repeat' apply And.intro
  all_goals first | decide | (intro y h; cases h) | rfl

/-- A descriptor of 64 bytes at va 64: 32 bytes copied within the vault by the die's Ladle, no pool operand. -/
def copier (c : Cell) : State := strand (((c.writeA 3 (va 64)).writeA 4 1))

theorem witness_CopyAndTagWords :
    AGo { pg := 0, aregs := [3], access := true } (copier cell0) ∧ (va 64).toNat % 64 = 0 ∧ (va 65).toNat % 64 ≠ 0
    ∧ (∃ bs x, readNow (copier cell0) (va 64) 4 = .ok bs x ∧ tagPending x x.me 5 = false ∧ x.cur.pendK = [] ∧ copiesOf x x.me < 64
        ∧ (∃ u, releaseOf x x.me (min 5 ((wordAt bs 0x18).toNat % 8)) (fun _ => true) = .done u) ∧ (wordAt bs 0x18).getLsbD 3 = false)
    ∧ (∃ e v, readNow (copier cell0) (va 4096) 4 = .fault e v) ∧ (∃ x, readNow (flying (op 4 (.store [1] 64) 1)) (va 0) 4 = .wait x)
    ∧ anyPending (copier cell0) 255 = false ∧ AGo { pg := 0, cm := true, aregs := [3], access := true } (command (cell0.writeA 3 (va 64)))
    ∧ AGo { pg := 0, aregs := [3, 5], access := true } (copier { cell0 with tags := [(63, ⟨true, 1, 5, 9, 0⟩)] })
    ∧ lowestReady { cell0 with tags := [(63, ⟨true, 1, 5, 9, 0⟩)] } (BitVec.allOnes 64) = some 63 ∧ lowestReady cell0 (BitVec.allOnes 64) = none
    ∧ (63 : Word).toNat < 64 ∧ 64 ≤ (64 : Word).toNat := by
  repeat' apply And.intro
  all_goals first | exact ⟨_, _, rfl, by decide, rfl, by decide, ⟨_, rfl⟩, by decide⟩ |
    exact ago (by decide) | decide | exact ⟨_, rfl⟩ | exact ⟨_, _, rfl⟩

/-- A copy of 32 bytes from va 0 to va 1024, by cell 1. -/
def copy0 : Copy := ⟨4, 1, 1, 5, false, true, [va 0, va 1024, 32, 0, 0, 0, 0, 0], 0, 0, [], [], 0, 0, none, 0, false, 0xFFFFFFFF, false, false, none, []⟩
def copying (k : Copy) : State := stateOf 1 { die0 with copies := [k] } cell0

/-- A copy whose source is a page that does not translate, of a home that may still resolve it. -/
def lostCopy : Copy := { copy0 with words := [0x10000, va 1024, 32, 0, 0, 0, 0, 0] }

theorem witness_CopyStepsMoveGranules :
    copy? (copying copy0) 0 4 = some copy0 ∧ copy0.id = 4 ∧ (copy0.running = true ∧ copy0.code = none ∧ copy0.host = false)
    ∧ copy? (copying copy0) 0 5 = none
    ∧ inProgress (copying { copy0 with running := false }) 0 0 < 8 ∧ (die0.reassign = none ∧ nextCopy ((copying { copy0 with running := false }).die 0) 0 0 = some { copy0 with running := false })
    ∧ nextCopy ((copying copy0).die 0) 0 0 = none ∧ (copy0.head = none ∧ copy0.readAt < copy0.inLen ∧ copy0.doneBytes < copy0.outLen ∧ copy0.spool = false)
    ∧ { copy0 with output := List.replicate 32 1 }.head = some (List.replicate 32 1) ∧ copy0.dpool = false
    ∧ (∃ bs t, ladleRead (copying copy0) 0 (copy0.srcAt 0) = .ok (bs, t)) ∧ (∃ t, ladleWrite (copying copy0) 0 (copy0.dstAt 0) (List.replicate 32 1) = .ok t)
    ∧ ({ copy0 with doneBytes := 32 }.ended = true ∧ copy0.ended = false) ∧ (reqOfCopy (copying copy0) 4 = none ∧ copy0.cell < 1000000)
    ∧ (∃ e, ladleRead (copying copy0) 0 (va 4096) = .error e)
    ∧ (ladleWaits (copying copy0) 0 copy0 (copy0.srcAt 0) .rd = false ∧ ladleWaits (copying copy0) 0 copy0 (copy0.dstAt 0) .wr = false)
    ∧ ladleWaits (copying lostCopy) 0 lostCopy 0x10000 .wr = true := by
  repeat' apply And.intro
  all_goals first | decide | exact ⟨_, rfl⟩ | exact ⟨_, _, rfl⟩ | rfl

/-- An encrypted transfer of 32 bytes from host address 64 to va 1024 with key 3 and counter 8. -/
def hostKey : KeyEntry := ⟨0xABCD, 0, true, 1, 7, 1⟩
def hostCopy : Copy :=
  { copy0 with host := true, words := [64, va 1024, 0x0000030000000020, 0xABCD, 8, 0, 0, 0] }
def hosting : State := stateOf 0 { die0 with keys := [(3, hostKey)], copies := [hostCopy] } cell0

theorem witness_HostCopies :
    hostCopy.hostIllegal = false ∧ { hostCopy with words := [64, va 1024, 0x0000030000000021, 0xABCD, 8, 0, 0, 0] }.hostIllegal = true
    ∧ (hostCopy.word 0).toNat % 32 = 0 ∧ (hostCopy.word 1).toNat % 32 = 0 ∧ addrOk (hostCopy.word 1) = true ∧ homeDie (hostCopy.word 1) = 0
    ∧ keyOf hosting 0 hostCopy.keyIx = hostKey ∧ hostKey.fixed.toNat = (hostCopy.word 3).toNat % 2 ^ 32 ∧ hostKey.counter < hostCopy.word 4
    ∧ hostCopy.hostDir = false ∧ stagedBytes hosting 0 + 32 ≤ 67108864 ∧ (hosting.die 0).world = 0 ∧ hostFails (hosting.pkg 0) 64 48 = false
    ∧ (hostCopy.staged = false ∧ hostCopy.begun = false ∧ onRing hosting 0 hostCopy.id = false ∧ (hosting.die 0).reassign = none)
    ∧ { hostCopy with words := [64, va 1024, 0x0000030100000020, 0xABCD, 8, 0, 0, 0] }.hostDir = true
    ∧ hostCopy.readAt < hostCopy.inLen ∧ hostCopy.inLen ≤ { hostCopy with readAt := 32 }.readAt := by
  repeat' apply And.intro
  all_goals first | rfl | decide

theorem witness_RingSlotsAndSplices :
    let x : RingSlot := ⟨4, 1, dieStation 3, 0, false, true⟩
    let P : Package := { poolPkg with ringSlots := [x] }
    P.ringSlots.find? (·.id == 4) = some x ∧ slotBehind x P.ringSlots = false ∧ slotBehind { x with id := 5 } [x, { x with id := 5 }] = true
    ∧ P.ringSlots.find? (·.id == 9) = none ∧ x.dst ≠ bridgeStation 3 ∧ x.dst ≠ dieStation 2
    ∧ stationOf 3 x.dst = true ∧ stationOf 2 x.dst = false
    ∧ (ringLinks x.src x.dst).all (fun k => linkClear { State.reset with pkgs := [(0, P)] } 0 k) = true
    ∧ (ringLinks x.src x.dst).all (fun k => linkClear { State.reset with pkgs := [(0, { P with ports := (ringLinks x.src x.dst).map (fun k => (k, { Port.reset with pausedTill := 5 })) })] } 0 k) = false
    ∧ { x with entered := false }.entered = false := by
  repeat' apply And.intro
  all_goals first | rfl | decide

/-- A push at the ring station of die 0, and a pop of the same object held there. -/
def pushing : PoolReq := { request (.push 77) 9 with id := 5, stage := .atRing }
def popping : PoolReq := { request (.pop 5) 9 with stage := .heldRing, cell := 2 }
def station : HoldPoint := .ringStation ⟨0, 0⟩
def splicing (rs : List PoolReq) : State := { asked pushing with reqs := rs }

/-- Two pops of one strand, the earlier one held at the station. -/
def ownPair : State :=
  { splicing [{ popping with cell := 1 }, { pushing with op := .pop 6 }] with cells := [(1, { cell0 with ops := [poolOp, { poolOp with id := 5 }] })] }

theorem witness_Splices :
    let s := splicing [popping, pushing]
    req? s 5 = some pushing ∧ pushing.id = 5 ∧ pushing.stage = atStage station ∧ pointOf pushing station = true ∧ pushing.op.isObject = true
    ∧ firstStage s pushing.cap pushing.op = .atRing ∧ pushing.discarded = false ∧ versionOk s station pushing = true ∧ onRing s (pkgOfCell pushing.cell) 5 = false
    ∧ partnerOf s station pushing = some popping ∧ req? s popping.id = some popping ∧ popping.stage = heldStage station
    ∧ partnerOf (splicing [pushing]) station pushing = none ∧ windowAt (splicing [pushing]) station pushing ≠ 0 ∧ heldCount (splicing [pushing]) station < 32
    ∧ heldAt station popping = true ∧ popping.expiry ≤ { s with cycle := 64 }.cycle ∧ oldestOwn s station popping = true
    ∧ mayAdvance s station popping = true ∧ ownHeld (splicing [pushing]) station pushing = []
    ∧ ownHeld ownPair station { pushing with op := .pop 6 } ≠ [] ∧ sameStrand { ownPair with cells := [(1, { cell0 with ops := [poolOp] })] } { popping with cell := 1 } pushing = false := by
  repeat' apply And.intro
  all_goals first | rfl | decide

/-- A package whose port 1 has been down for 90 000 cycles, and node 9 of its domain with its port down as long. -/
def lost : State :=
  { State.reset with cycle := 90000, topo := { Topology.reset with nodesPresent := [9] }
                     nodes := [(9, { node0 with ports := (List.range 8).map (fun i => (i, { Port.reset with width := 3, downSince := some 0 })) })]
                     pkgs := [(0, { poolPkg with ports := [(1, { Port.reset with width := 3, downSince := some 0 })] })] }
/-- A change under way that port 1 of package 0 and node 9 have been shown. -/
def shown : State :=
  { asked (request (.pop 5) 9) with
    changing := true, version := 1, nodes := [(9, { node0 with announced := true })]
    pkgs := [(0, { poolPkg with announced := 1, ports := [(1, { Port.reset with announced := true })] })] }

theorem witness_TopologyLinksAndSevering :
    ({ State.reset with changing := true }.changing = true ∧ State.reset.changing = false)
    ∧ (portVersion shown 0 1 ≠ shown.version ∧ portVersion State.reset 0 1 = State.reset.version ∧ (shown.node 9).version ≠ shown.version)
    ∧ (issuing shown 0 1 = false ∧ issuing (strand cell0) 0 1 = true)
    ∧ (unanswered (strand cell0) 0 1 = false ∧ unanswered shown 0 1 = true ∧ unanswered { shown with reqs := [] } 0 1 = false)
    ∧ (portVeto { shown with reqs := [] } 0 1 = false ∧ nodeVeto shown 9 = false ∧ (shown.node 9).announced = true)
    ∧ (pkgOfCell (request (.pop 5) 9).cell = 0 ∧ (request (.pop 5) 9).node % 8 = 1)
    ∧ mayIssue (asked { request (.pop 5) 9 with stage := .refusedStale }) { request (.pop 5) 9 with stage := .refusedStale } = true
    ∧ (olderVersion 15 0 = true ∧ olderVersion 0 0 = false ∧ (request (.pop 5) 9).tries < 3 ∧ 3 ≤ { request (.pop 5) 9 with tries := 3 }.tries)
    ∧ (Port.reset.width < 3 ∧ Port.reset.width < 2 ∧ 2 ≤ { Port.reset with width := 2 }.width ∧ 3 ≤ { Port.reset with width := 3 }.width)
    ∧ (opticalLink ⟨.pkg 0, 1⟩ = true ∧ opticalLink ⟨.pkg 0, 8⟩ = false)
    ∧ (poolPkg.rekey = [] ∧ { poolPkg with rekey := [1] }.rekey.contains 1 = true)
    ∧ ((0 : Nat) < { Port.reset with pausedTill := 3600 }.pausedTill ∧ Port.reset.pausedTill ≤ 0)
    ∧ ((⟨0, 0, true⟩ : SealedFrame).tagOk = true ∧ (⟨0, 1, true⟩ : SealedFrame).counter ≠ lookup 0 Port.reset.expects 0)
    ∧ (downLong lost 0 = true ∧ (lost.pkg 0).severSelf = false ∧ downLong { lost with cycle := 89999 } 0 = false)
    ∧ (nodeInDomain lost 9 = true ∧ nodeLost lost 9 = true ∧ nodeLost { lost with cycle := 89999 } 9 = false ∧ nodeInDomain lost 8 = false) := by
  repeat' apply And.intro
  all_goals first | decide | rfl

theorem witness_NodesAndReductions : createOk (asked (request (.pop 5) 9)) 9 11 2 1 1 8 (some 1024) = true
    ∧ createOk (asked (request (.pop 5) 9)) 9 11 2 1 1 8 (some 1025) = false ∧ createOk (asked (request (.pop 5) 9)) 9 9 2 1 1 8 none = false
    ∧ createOk (asked (request (.pop 5) 9)) 9 11 0 1 1 8 none = false ∧ createOk (asked (request (.pop 5) 9)) 9 0 2 1 1 8 none = false
    ∧ objOf (asked (request (.pop 5) 9)) 9 11 = none ∧ 1024 < 1025 ∧ objOf (asked (request (.pop 5) 9)) 9 10 = some (obj 3)
    ∧ inDomain State.reset 0 = false ∧ inDomain (strand cell0) 0 = true := by
  repeat' apply And.intro
  all_goals decide

/-! Premises of the statements are met: tasks, dispatch, stows, the window, the host and worlds. -/

/-- Task records 0 (running) and 1 (waiting for one predecessor) of die 0. -/
def task (st : TaskState) (n : Nat) : Task := { Task.reset with state := st, gen := 1, control := 1, count := n, left := [(0, 1)], levels := [(2, 4)] }
def h0 : Word := mkHandle 0 0 1
def h1 : Word := mkHandle 0 1 1
def taskDie : Die := { die0 with tasks := [(0, task .running 0), (1, task .waiting 1)] }
def tasks (d : Die) : State := stateOf 1 d ((cell0.writeA 3 h0).writeA 4 h1)
def taskCmd (d : Die) : State := stateOf 0 d ((cell0.writeA 3 h0).writeA 4 h1)

theorem witness_TaskWords :
    AGo { pg := 0, aregs := [3, 5], access := true } (copier cell0) ∧ ((copier cell0).cur.readA 3).toNat % 64 = 0 ∧ (va 65).toNat % 64 ≠ 0
    ∧ (match releaseOf (copier cell0) 1 3 (fun _ => true) with
       | .done x =>
         (match readNow x (va 64) 12 with
          | .ok desc y => decide ((wordAt desc 0).toNat % 16 = 0) && wordAt desc 16 == 0 && freeRecord (y.die y.myDie) == some 0
          | _ => false)
       | _ => false) = true
    ∧ releaseOf (flying (op 4 (.store [1] 64) 1)) 1 3 (fun _ => true) = .wait
    ∧ AGo { pg := 0, aregs := [3, 4] } (tasks taskDie) ∧ taskOf (tasks taskDie) h0 = some (task .running 0) ∧ taskOf (tasks taskDie) h1 = some (task .waiting 1)
    ∧ depFault (tasks taskDie) h0 h1 = none ∧ depFault (tasks taskDie) h0 h0 = some h0 ∧ taskSeen (tasks taskDie) h0 = some (task .running 0)
    ∧ taskSeen (tasks taskDie) (mkHandle 0 2 1) = none
    ∧ (let d : Die := { taskDie with tasks := [(0, task .complete 0), (1, task .waiting 2)] }
       depFault (tasks d) h0 h1 = none ∧ (task .complete 0).state = .complete ∧ 2 ≤ (task .waiting 2).count)
    ∧ AGo { pg := 0, aregs := [3, 5], access := true } (tasks taskDie) ∧ AGo { pg := 0, cm := true, aregs := [3] } (taskCmd taskDie) ∧ (task .waiting 1).count < 2 ^ 16 := by
  repeat' apply And.intro
  all_goals first | exact ago (by decide +kernel) | decide +kernel | rfl

/-- A published schedule of two steps. -/
def sched0 : Schedule := ⟨va 256, 2, 1, 0, [], []⟩
def schedDie : Die := { die0 with schedule := some sched0 }
/-- A header of 64 bytes at va 64: list at va 256, two steps, distance 1. -/
def header0 : List Byte := leBytes (va 256).toNat 8 ++ leBytes 0x1002 8 ++ List.replicate 48 0
def headed (a3 : Word) : State := { command (cell0.writeA 3 a3) with mem := Memory.write [] (va 64).toNat header0, heats := [((va 64).toNat / 32, 5), ((va 64).toNat / 32 + 1, 5)] }

theorem witness_ScheduleWordsAndFills :
    AGo { pg := 0, cm := true, aregs := [3], access := true } (headed 0) ∧ AGo { pg := 0, cm := true, aregs := [3], access := true } (headed (va 64))
    ∧ (∃ x, readNow (headed (va 64)) (va 64) 4 = .ok header0 x) ∧ (wordAt header0 0).toNat % 256 = 0 ∧ addrOk (wordAt header0 0) = true ∧ homeDie (wordAt header0 0) = 0
    ∧ (wordAt header0 8).extractLsb' 15 49 = 0 ∧ (wordAt header0 8).extractLsb' 9 3 = 0 ∧ (wordAt header0 8).extractLsb' 0 9 = 2 ∧ (wordAt header0 8).extractLsb' 12 3 = 1
    ∧ (∃ e v, readNow (headed (va 4096)) (va 4096) 4 = .fault e v)
    ∧ AGo { pg := 0, cm := true, aregs := [3] } (stateOf 0 schedDie cell0) ∧ ((stateOf 0 schedDie cell0).die 0).schedule = some sched0
    ∧ (∀ k, k < 8 → ((command cell0).die (0 + k)).schedule = none) ∧ sched0.walk.find? (fun k => !sched0.entered.contains (0, k)) = some 0
    ∧ { sched0 with entered := [(0, 0), (0, 1)] }.walk.find? (fun k => !({ sched0 with entered := [(0, 0), (0, 1)] }.entered.contains (0, k))) = none := by
  repeat' apply And.intro
  all_goals first | exact ago (by decide +kernel) | exact ⟨_, rfl⟩ | exact ⟨_, _, rfl⟩ | decide +kernel

theorem witness_ScheduleSectors :
    let j : FillJob := ⟨1, 0, BitVec.ofNat 128 (255 * 2 ^ 56 + 9), 0, 4096⟩
    let x : Schedule := { sched0 with entered := [(1, 0), (1, 1)], queued := [j] }
    let s : State := { stateOf 0 { die0 with schedule := some x } cell0 with pkgs := [(0, poolPkg)], nodes := [(9, node0)] }
    x.walk.find? (fun k => !x.entered.contains (1, k)) = none ∧ x.queued.find? (fun j => j.bridge == 1) = some j ∧ nodeOf s (capOid j.cap).toNat % 8 = 1
    ∧ j.next < j.stop ∧ issuing s 0 1 = true ∧ nodeOpen s 0 9 = true ∧ sector? s 0 9 0 = none ∧ nodePresent s 0 9 = true ∧ s.reqs = []
    ∧ (s.die 0).schedule = some x ∧ { j with next := 4096 }.stop ≤ { j with next := 4096 }.next := by
  repeat' apply And.intro
  all_goals first | rfl | decide

theorem witness_DispatcherMovesTasksToReady :
    let d : Die := { taskDie with tasks := [(0, { task .complete 0 with succs := [h1] }), (1, task .waiting 1)] }
    let e : ReadyEntry := ⟨h0, 3, 0, 0, 0, 1, []⟩
    handleDie h1 = 0 ∧ pendingEdge (tasks d) 0 h1 = some (0, 0, { task .complete 0 with succs := [h1] }) ∧ pendingEdge (tasks taskDie) 0 h1 = none
    ∧ taskOf ((tasks d).modDie 0 (fun k => { k with tasks := insertAt k.tasks 0 { task .complete 0 with succs := [].erase h1 } })) h1 = some (task .waiting 1)
    ∧ (task .waiting 1).count ≤ 1 ∧ spatialPoints (task .waiting 1).levels 3 = 1
    ∧ { taskDie with grants := [e] }.grants = e :: [] ∧ e.dpoint = 0 ∧ { taskDie with grants := [e] }.ready.length < 4096
    ∧ taskOf (tasks { taskDie with grants := [e] }) e.handle = some (task .running 0) ∧ taskDie.world = (task .running 0).world
    ∧ { taskDie with world := 1 }.world ≠ (task .running 0).world ∧ (task .running 0).state.isFinal = false
    ∧ 0 < { taskDie with ready := [e] }.ready.length ∧ 1 ≤ e.cls ∧ lookup 1048576 taskDie.ages 3 ≤ 1048576 - e.since ∧ 1048575 - e.since < lookup 1048576 taskDie.ages 3
    ∧ find? taskDie.tasks 4095 = none ∧ (task .complete 0).final + 2 ^ 20 ≤ 2 ^ 20 ∧ (task .complete 0).succs = [] := by
  repeat' apply And.intro
  all_goals decide

/-- A ready task of four points in class 1 and the same share as a restore. -/
def share : ReadyEntry := ⟨h0, 1, 0, 0, 0, 4, []⟩
def readyDie : Die := { taskDie with tasks := [(0, { task .ready 0 with left := [] })], ready := [share] }
def starting : Cell := { cell0 with status := .starting, startAt := 12 }
def parked : Cell := { meeting .atEnd with V := { eng0 with park := .atEnd }, handle := h0 }

theorem witness_DispatcherStartsAndEndsStrands :
    headEntry (stateOf 0 readyDie cell0) 0 = some share ∧ requests (stateOf 0 readyDie cell0) 0 = [] ∧ share.strands ≤ roomFor (stateOf 0 readyDie cell0) 0
    ∧ share.restore = [] ∧ taskOf (stateOf 0 readyDie cell0) share.handle = some { task .ready 0 with left := [] } ∧ (∃ h k, drawHeat readyDie = some (h, k))
    ∧ headEntry (command cell0) 0 = none ∧ requests (command cell0) 0 = []
    ∧ (let d : Die := { readyDie with ready := [{ share with strands := 143 }], restoring := [{ share with strands := 1 }] }
       headEntry (stateOf 0 d cell0) 0 = none ∨ roomFor (stateOf 0 d cell0) 0 < 143)
    ∧ starting.status = .starting ∧ (strand starting).cycle < starting.startAt ∧ starting.startAt ≤ { strand starting with cycle := 12 }.cycle
    ∧ isCmd 1 = false ∧ atRest (stateOf 1 taskDie parked) parked = true ∧ atRest (strand cell0) cell0 = false
    ∧ (∃ u, releaseOf (stateOf 1 taskDie parked) 1 (taskScope (stateOf 1 taskDie parked) h0) (fun _ => true) = .done u) ∧ taskDie.copies = []
    ∧ lookup 0 (task .running 0).left 0 = 0 + 1 ∧ (task .running 0).left.all (fun e => e.1 == 0) = true := by
  repeat' apply And.intro
  all_goals first | exact ⟨_, rfl⟩ | exact ⟨_, _, rfl⟩ | exact Or.inr (by decide +kernel) | decide +kernel | rfl

/-- A strand asked to halt for a system request with a load in flight, one at end, and one whose stow can complete. -/
def halting : Cell := { cell0 with status := .halting, preempt := some .systemRequest, ops := [op 4 (.load 5 6) 8] }
def stowing : Cell := { cell0 with status := .stowing, preempt := some .systemRequest }
def stowedAway : Stowed := ⟨0, .systemRequest, false, true, 0, h0, 1, 0, { stowing with handle := h0, ops := [{ op 4 (.store [1] 64) 1 with performed := true }] }⟩
def restoreDie : Die := { slotDie with stowed := [stowedAway], restoring := [⟨h0, 0, 0, 0, 0, 1, [0]⟩] }

theorem witness_PreemptionStowsAndRestores :
    isCmd 1 = false ∧ halting.status = .halting ∧ halting.preempt = some .systemRequest ∧ ended halting = false ∧ ended { parked with status := .halting } = true
    ∧ halting.granted = none ∧ halting.ringAt = none ∧ halting.joined = none ∧ abandons 1 halting (op 4 (.load 5 6) 8) = true ∧ abandons 1 halting (op 4 (.store [1] 64) 1) = false
    ∧ stowing.status = .stowing ∧ stowing.landings = [] ∧ stowing.reports = []
    ∧ { stowing with reports := [(⟨.perm, 1⟩ : Report)] }.reports = ⟨.perm, 1⟩ :: [] ∧ recordRoom (strand cell0) (recordDie (strand cell0) 1) = true
    ∧ find? ((stateOf 1 reservedDie stowing).die 0).reserved 1 = some 0 ∧ stowing.preempt = some .systemRequest
    ∧ 0 < restoreDie.restoring.length ∧ restoreDie.stowed.filter (fun x => [0].contains x.slot) = [stowedAway]
    ∧ stowedAway.ctx.fault = none ∧ strandAt (stateOf 0 restoreDie cell0) 0 5 = none
    ∧ strandAt (stateOf 0 restoreDie cell0) 0 4 = some (1, stowedAway.ctx) ∧ stowedAway.ctx.op? 4 = some { op 4 (.store [1] 64) 1 with performed := true }
    ∧ (backAgain (op 4 (.store [1] 64) 1) (.done 0)).reply = some (.done 0) ∧ (stateOf 0 restoreDie cell0).eccBad = []
    ∧ atHome (strand cell0) 1 (op 4 (.store [1] 64) 1) = true ∧ mayPerform (strand cell0) 1 cell0 { op 4 (.store [1] 64) 1 with performed := true } = false := by
  repeat' apply And.intro
  all_goals first | rfl | decide

theorem witness_RestoreHasACell : stowedAway.cell % 144 ∈ idleNumbers (stateOf 0 restoreDie cell0) 0 ∧ 1 ≤ (idleNumbers (stateOf 0 restoreDie cell0) 0).length := by
  decide +kernel

theorem witness_WindowStoresObeyTheirFields :
    quietDie (command cell0) 0 = true ∧ quietDie (strand cell0) 0 = false ∧ (48 : Word).toNat ≤ 48 ∧ ¬ (49 : Word).toNat ≤ 48 ∧ (512 : Word).toNat % 512 = 0
    ∧ (1024 : Word).toNat ≤ 1024 ∧ ¬ (1025 : Word).toNat ≤ 1024 ∧ ¬ 1 ≤ (0 : Word).toNat ∧ (4 : Word).toNat ≤ 4 ∧ (12 : Word).toNat ≤ 12 ∧ ¬ (13 : Word).toNat ≤ 12
    ∧ die0.lrbase = 0 ∧ die0.fqbase = 0 ∧ die0.faultWait = []
    ∧ (let d : Die := { die0 with regions := [(0, ⟨0, 32, 5, false, 6, true, true, true, false, false, 0⟩)] }
       ∃ k r, regionAt d 0 (vaultByte (va 0)) = some (k, r) ∧ r.rd = true ∧ r.wr = true ∧ vaultByte (va 0) + 16416 ≤ (r.base + r.size) * 1024)
    ∧ lookup 0 die0.slots 511 = 0 ∧ slotHeld slotDie 0 (va 0) = false ∧ portVersion (command cell0) 0 0 = (command cell0).version ∧ listenOk (command cell0) 0 (standardListen 0) = true ∧ listenOk (command cell0) 0 0x4000000000000000 = false
    ∧ (lookup KeyEntry.reset die0.keys 63).armed = false ∧ (lookup KeyEntry.reset keyDie.keys 0).armed = true
    ∧ find? taskDie.tasks 0 = some (task .running 0) ∧ (task .complete 0).state.isFinal = true ∧ shareRuns (stateOf 1 taskDie { cell0 with handle := h0 }) h0 0 = true
    ∧ shareRuns (stateOf 1 taskDie cell0) h0 0 = false
    ∧ (keyDie.keys.any (fun e => e.1 == 0 && dieKey (stateOf 0 keyDie cell0) 0 == some 7) = true ∧ dieKey (command cell0) 0 = none) := by
  repeat' apply And.intro
  all_goals first | exact ⟨_, _, rfl, rfl, rfl, by decide⟩ | decide | rfl

/-- A launch ring of 16 entries at address 0x20000 of die 0, holding nothing. -/
def launchDie : Die := { die0 with lrbase := 0x20000 }

theorem witness_HostRequestsAreAnswered :
    ((command cell0).pkg 0).phase = .ready ∧ ¬ ((State.reset.pkg 0).phase = .released ∨ (State.reset.pkg 0).phase = .ready)
    ∧ launchDie.tdi = .configUnlocked ∧ launchDie.reassign = none ∧ launchDie.lrbase ≠ 0 ∧ lrIndex (stateOf 0 launchDie cell0) 0 8 < 2 ^ launchDie.lrm
    ∧ lrIndex (stateOf 0 launchDie cell0) 0 0 < 2 ^ launchDie.lrm ∧ (15 : Word).toNat % 4096 < 2 ^ launchDie.lrm ∧ 2 ^ launchDie.lrm ≤ (16 : Word).toNat % 4096
    ∧ 256 ≤ (256 : Word).toNat ∧ (4344 : Word).toNat + 8 ≤ 256 + 2 ^ launchDie.lrm * 256 ∧ 256 + 2 ^ launchDie.lrm * 256 < (4345 : Word).toNat + 8
    ∧ { die0 with tdi := .configLocked }.tdi = .configLocked ∧ { die0 with reassign := some ⟨2, 1, .run, none, true⟩ }.reassign.isSome = true
    ∧ lookup 0 (command cell0).heats ((dieBase 0 + 2 ^ 53 + 0 % 2 ^ 30 / 32 * 32) / 32) = 0 ∧ (0 : BitVec 16) = die0.world
    ∧ (∀ i, i < 8 → ((command cell0).die (0 * 8 + i)).world ≠ 5) ∧ (State.reset.pkg 0).phase = .inReset ∧ ((command cell0).pkg 0).phase ≠ .inReset
    ∧ (launchDie.tdi = .configUnlocked ∧ { die0 with tdi := .configLocked, stream := some 3 }.stream = some 3
        ∧ (find? { Package.reset with ideKeys := [(3, 7)] }.ideKeys 3).isSome = true ∧ ¬ die0.stream = some 3)
    ∧ (find? die0.retired 5 = none ∧ (find? { die0 with retired := [(5, 0)] }.retired 5).isSome = true)
    ∧ ({ Package.reset with session := .secure }.session = .secure ∧ Package.reset.session ≠ .secure) := by
  repeat' apply And.intro
  all_goals decide

theorem witness_WorldsChangeAndPackagesComeUp :
    let r : Reassign := ⟨2, 1, .configLocked, none, true⟩
    let s := stateOf 0 { die0 with reassign := some r } cell0
    (s.die 0).reassign = some r ∧ r.step ≠ 1 ∧ { r with step := 1 }.step = 1 ∧ s.reqs = [] ∧ (s.cell 0).ops = []
    ∧ { Package.reset with severSelf := true }.severSelf = true ∧ Package.reset.severSelf = false ∧ Package.reset.faulty = none
    ∧ (∃ o ∈ (flying (op 4 (.load 5 6) 8)).cur.ops, o.kind ≠ .pool ∧ o.dead = false) ∧ (s.die 0).waiting = [] ∧ MemOk s ∧ (s.pkg 0).image = [] ∧ die0.reassign = none
    ∧ die0.tdi = .configUnlocked ∧ { die0 with tdi := .configLocked }.tdi = .configLocked ∧ (State.reset.pkg 0).phase = .inReset
    ∧ { Package.reset with phase := .released, meas := List.replicate 8 0 }.phase = .released ∧ 4 ≤ { Package.reset with meas := List.replicate 8 0 }.meas.length
    ∧ (1 : Word).getLsbD 0 = true ∧ (2 : Word).getLsbD 0 = false ∧ { Package.reset with phase := .safeTalkative }.phase = .safeTalkative := by
  repeat' apply And.intro
  all_goals first | decide | exact ⟨_, .head _, by decide, by decide⟩ | rfl

theorem witness_NextSerial : nextSerial Package.reset = some 1 := by decide +kernel

/-! Premises of the statements are met: vector and matrix words. -/

theorem vtakes {m : VForm} {f : VFields} {s : State} {e1 e2 : Option QEntry} {c c1 : Cell}
    (p1 : popOpt s.cur (popQueue s.cur m.S1 f.S1) = .ok (e1, c1)) (p2 : popOpt c1 (popQueue s.cur m.S2 f.S2) = .ok (e2, c))
    (h : ((pushBlocks m f == 0 || (decide (pushBlocks m f ≤ s.cur.qcapOf (vEff s.cur f.D 16)) && c.canDraw (vEff s.cur f.D 16) (pushBlocks m f)))
      && (vKeys s.cur m f).all (fun k => !earlyRead s.cur .V k s.cycle) && entrySizeOk f.S1 e1 && entrySizeOk f.S2 e2 && immsOk m f) = true) :
    VTakes m f s e1 e2 c := by
  simp only [Bool.and_eq_true, Bool.or_eq_true, beq_iff_eq, decide_eq_true_eq, List.all_eq_true, Bool.not_eq_true'] at h
  exact ⟨⟨c1, p1, p2⟩, fun k => h.1.1.1.1.resolve_left k, h.1.1.1.2, ⟨h.1.1.2, h.1.2⟩, h.2⟩

/-- V's turn in a strand whose queue 2 holds an entry of 512 bytes. -/
def lanesOf : State := { strand (cell0.setQueue 2 [entry512]) with eng := .V }
/-- Queue 2 plus an immediate to queue 3; the same on floating types; v2 alone; masks m1 and m2. -/
def vq (ty : BitVec 3) : VFields := ⟨0, 0, 1, 0, ty, 0, 0, 0x430C0, 0x420C0, 0x80001⟩
def vr (ty : BitVec 3) : VFields := ⟨0, 0, 1, 1, ty, 1, 2, 0x010C0, 0x020C0, 0x030C0⟩
def poppedCell : Cell := lanesOf.cur.popHead 2

theorem witness_VectorArithmeticLandsInItsLanes :
    VGo .V 0 (vReads (vq 2)) 0 lanesOf ∧ VTakes formBinary (vq 2) lanesOf (some entry512) none poppedCell ∧ VTakes formBinary (vr 1) lanesOf none none lanesOf.cur
    ∧ VGo .V 0 (vReads (vr 0)) 0 lanesOf ∧ VTakes formAcc (vr 0) lanesOf none none lanesOf.cur ∧ VTakes formUnary (vr 5) lanesOf none none lanesOf.cur
    ∧ VTakes formNone (vr 2) lanesOf none none lanesOf.cur ∧ 2 ≤ (vq 2).ty.toNat ∧ (vr 1).ty.toNat ≤ 1 ∧ (vr 5).ty.toNat = 5 := by
  refine ⟨vgo (by decide), vtakes rfl rfl (by decide), vtakes rfl rfl (by decide), vgo (by decide), vtakes rfl rfl (by decide), vtakes rfl rfl (by decide),
    vtakes rfl rfl (by decide), by decide, by decide, by decide⟩

theorem witness_ComparesAndMaskWordsLand :
    VGo .V 0 (vReads (vr 2)) 0 lanesOf ∧ VTakes formCompare (vr 3) lanesOf none none lanesOf.cur ∧ VTakes formMask2 (vr 0) lanesOf none none lanesOf.cur
    ∧ VTakes formMask1 (vr 0) lanesOf none none lanesOf.cur ∧ VTakes formOfMask (vr 0) lanesOf none none lanesOf.cur
    ∧ (let s : State := { strand { cell0 with A := { eng0 with expect := [(2, 1)] }, M := { eng0 with expect := [(2, 1)] } } with eng := .V }
       let f : VFields := { vr 0 with D := 0x020C0 }
       VGo .V f.pg (vReads f) (dIndex f.D) s ∧ dIndex f.D = 2 ∧ dKind f.D = 0 ∧ VTakes formOfMask f s none none s.cur)
    ∧ (fval 0x7FC00000).isNaN = true ∧ (5 : Nat) < 6 := by
  refine ⟨vgo (by decide), vtakes rfl rfl (by decide), vtakes rfl rfl (by decide), vtakes rfl rfl (by decide), vtakes rfl rfl (by decide),
    ⟨vgo (by decide), by decide, by decide, vtakes rfl rfl (by decide)⟩, by decide, by decide⟩

theorem witness_ConversionsReductionsAndPermutesLand :
    VTakes formUnary { vr 2 with aux := 6 } lanesOf none none lanesOf.cur ∧ VTakes formVecMask (vr 2) lanesOf none none lanesOf.cur
    ∧ VTakes formBinary { vr 6 with aux := 1 } lanesOf none none lanesOf.cur ∧ find? lanesOf.cur.curves 1 = none
    ∧ (let s : State := { strand (cell0.writeV 2 (BitVec.allOnes 128) [0x80]) with eng := .V }
       (laneOf (readVec s.cur 6 0x020C0 none) 0).setWidth 8 = 0x80#8) ∧ (laneOf (readVec lanesOf.cur 6 0x020C0 none) 0).setWidth 8 ≠ 0x80#8
    ∧ VGo .V 0 (vReads (vr 2)) 0 lanesOf := by
  refine ⟨vtakes rfl rfl (by decide), vtakes rfl rfl (by decide), vtakes rfl rfl (by decide), by decide, by decide, by decide, vgo (by decide)⟩

/-- M's turn in a strand with a B entry in queue 1, an A block in queue 2, and format 0: one plane, groups of one, inline scales. -/
def entry2048 : QEntry := ⟨6, 2048, 5, List.replicate 2048 0, [], false⟩
def entry1024 : QEntry := ⟨7, 1024, 5, List.replicate 1024 1, [], false⟩
def format0 : BitVec 128 := BitVec.ofNat 128 (1 * 2 ^ 6 + 2 ^ 26 + 2 ^ 31)
def mcell : Cell := { (cell0.setQueue 1 [entry2048]).setQueue 2 [entry1024] with formats := [(0, format0)] }
def mstate (c : Cell) : State := { strand c with eng := .M }
def mstep0 : MFields := { m0 with fmtl := 6, aq := 2, cols := 255, rowsm1 := 15, amode := 3 }
def mldb0 : MFields := { m0 with fmtl := 6, bq := 1, cols := 255 }

theorem witness_MatrixLoads :
    VGo .M 0 [shFmt] 0 (mstate mcell) ∧ mcell.headAt 1 0 = .ok entry2048 ∧ entry2048.size = 2048 ∧ entry1024.size ≠ 2048 ∧ formatEntry mcell mldb0 = some format0
    ∧ formatEntry mcell { mldb0 with fmtb := 1 } = none ∧ mldb0.plane.toNat < fmtPlanes format0 ∧ fmtPlanes format0 ≤ { mldb0 with plane := 1 }.plane.toNat
    ∧ ((List.range 64).all fun k => (List.range 128).all fun j => rowCode (tileRow (mcell.entryBytes entry2048) k) j != 2) = true := by
  refine ⟨vgo (by decide), rfl, rfl, by decide, by decide, by decide, by decide, by decide, by decide +kernel⟩

theorem witness_MatrixSteps :
    mcell.arrayFree ≤ (mstate mcell).cycle ∧ mcell.headAt 2 0 = .ok entry1024 ∧ formatEntry mcell mstep0 = some format0 ∧ mcell.engctl.getLsbD 0 = false
    ∧ (mstep0.amode = 3 ∧ mstep0.rowsm1 = 15 ∧ mstep0.cols = 255) ∧ mstep0.plane.toNat < fmtPlanes format0 ∧ mstep0.plane.toNat = mcell.bBuffer.plane
    ∧ fmtC8 format0 = false ∧ ((List.range 16).all fun r => (List.range 64).all fun k =>
        (aval format0 none (byteAt (mcell.entryBytes entry1024) (64 * r + k))).isSome) = true
    ∧ ¬ ({ m0 with plane := 1 }.plane.toNat < fmtPlanes format0) ∧ entry2048.size ≠ 1024 := by
  refine ⟨by decide, rfl, by decide, by decide, by decide, by decide, by decide, by decide, by decide +kernel, by decide, by decide⟩

theorem witness_MatrixWordsIssueAndLand :
    VGo .M 0 [shFmt, shVctl] 0 (mstate mcell) ∧ fmtSaSrc format0 ≤ 1 ∧ fmtSbSrc format0 ≤ 1 ∧ (∃ x, scaleValue 0x7F000 = some x) ∧ scaleValue 0xFF000 = none
    ∧ fmtRnd format0 ≠ 5 ∧ VGo .M 0 [shVctl] 0 (mstate mcell) ∧ mcell.drainFree ≤ (mstate mcell).cycle ∧ 16 ≤ mcell.qcapOf 4 ∧ mcell.canDraw 4 (16 * 16) = true
    ∧ { mcell with qcap := [(4, 15)] }.qcapOf 4 < 16 ∧ { mcell with qcap := [(4, 16)] }.canDraw 4 32 = false ∧ find? mcell.curves 2 = none
    ∧ VGo .M 0 [] 0 (mstate mcell) ∧ { m0 with cols := 1 }.cols ≠ 0 ∧ (⟨0, 0, .irow 0 0 1 [3]⟩ : Landing).what = .irow 0 0 1 [3] := by
  refine ⟨vgo (by decide), by decide, by decide, ⟨_, rfl⟩, by decide, by decide, vgo (by decide), by decide, by decide, by decide, by decide, by decide, by decide, vgo (by decide),
    by decide, rfl⟩

/-! Results, each expected value from a worked example of the spec. -/

def afterStep (o : Host.Outcome State Fault Refusal) : State :=
  match o with
  | .next t => t
  | _ => State.reset

/-- `lui a5, 0x1234` gives 0x48_D000 (after R97). -/
theorem test_lui : (afterStep (exec (.lui 0x1234 5) (strand cell0))).cur.readA 5 = 0x48D000 := by decide +kernel
/-- `addi a5, a5, -16` then gives 0x48_CFF0 (after R97). -/
theorem test_addi_extends_its_sign :
    (afterStep (exec (.addi 0 (-16) 5 5) (strand (cell0.writeA 5 0x48D000)))).cur.readA 5 = 0x48CFF0 := by decide +kernel
/-- `ori a5, a5, 5` on 0x123_4000_0000 gives 0x123_4000_0005 (after R97). -/
theorem test_ori : (afterStep (exec (.ori 0 5 5 5) (strand (cell0.writeA 5 0x12340000000)))).cur.readA 5 = 0x12340000005 := by decide +kernel
/-- Byte 0x1_2340 of vault 37 on die 5 of package 3 (after R260). -/
theorem test_vault_address : vaultAddr (8 * 3 + 5) 37 0x12340 = 0x0760000009412340 := by decide
/-- The byte 221 stands for 221 - 121 = 100, whose trits from the lowest are +1, 0, -1, +1, +1 (example after R123). -/
theorem test_balanced_trits : (List.range 5).map (balancedTrit 100) = [1, 0, -1, 1, 1] := by decide
/-- Generator 0 under seed 1 starts at 1 and steps to 0x8020_0003 (after R128). -/
theorem test_generator : genSeed 1 0 = 1 ∧ genStep 1 = 0x80200003 := by decide
/-- `vrcpe.f32` of 3.0 is 0x3EAA_B000 (after R144). -/
theorem test_reciprocal_estimate : (vrcpe 0x40400000).bits = 0x3EAAB000 := by decide +kernel
/-- `vfrx` of -2^-30 is 1.0 under rne and rup and 0x3F7F_FFFF under rtz and rdn (after R144). -/
theorem test_fraction_rounds :
    [1, 4, 2, 3].map (fun m => (vfrx m 0xB0800000 0).bits) = [0x3F800000, 0x3F800000, 0x3F7FFFFF, 0x3F7FFFFF] := by decide +kernel

/-- Curve 2 of the worked example after R131. -/
def curve2 : Curve where
  bp := [0, 0xC2800000, 0x42800000, 0x43000000, 0x43400000, 0x43800000, 0x43A00000, 0x43C00000, 0x43E00000, 0x44000000, 0x44100000,
    0x44200000, 0x44300000, 0x44400000, 0x44500000, 0x44600000]
  k := [0x3D800000, 0x3F800000] ++ List.replicate 14 0x3D800000
  o := [0xC2700000, 0] ++ List.replicate 14 0x42700000

theorem test_curve_is_valid : curveValid curve2 = true := by decide +kernel
/-- Table 2 after R131. -/
theorem test_curve_inverse : [127, 100, 98, 65, 30, -127].map (expandCode curve2) = [1072, 640, 608, 80, 30, -1072] := by decide +kernel
/-- x = 300.0 at scale 0.5: 98 under rne and rup, 97 under rtz, each inexact (after R131). -/
theorem test_quantise :
    [1, 4, 2].map (fun m => quantise curve2 0x43960000 0x3F000000 m 0) = [(98, fNX, true), (98, fNX, true), (97, fNX, true)] := by decide +kernel
/-- x = 1000.0 at that scale saturates to 127 with vof and vnx (after R131). -/
theorem test_quantise_saturates : (quantise curve2 0x447A0000 0x3F000000 1 0).1 = 127
    ∧ (quantise curve2 0x447A0000 0x3F000000 1 0).2.1 = fOF ||| fNX := by decide +kernel

/-- The queues of the example after R211: minima 64 and 32, uses 10, 40 and 8080 blocks; the free pool is 62. -/
def drawCell : Cell :=
  { cell0 with qmin := [(0, 64), (1, 32)], queues := [(0, [⟨1, 320, 5, [], [], false⟩]), (1, [⟨2, 1280, 5, [], [], false⟩]), (2, [⟨3, 258560, 5, [], [], false⟩])] }
theorem test_draws : drawCell.freeBlocks = 62 ∧ [0, 1, 2].map (fun q => drawCell.canDraw q 16) = [true, false, false] := by decide
theorem test_t5_byte : t5Trits 221 = some [1, 0, -1, 1, 1] := by decide
/-- Lanes 0 to 3 of 2^24, 1.0, 1.0, 1.0 and zeros sum to 16 777 218 in the pairwise order (after R132). -/
theorem test_pairwise_sum :
    (treeSteps (fadd 24 1 · · 0) 7 ([0x4B800000, 0x3F800000, 0x3F800000, 0x3F800000] ++ List.replicate 124 0)).1.head? = some 0x4B800001 := by decide +kernel

/-! Premises of the clauses on waits, stops and what is not yet due are met. -/

/-- The text of this strand is homed on its own die and not yet cached. -/
def unread : State := { strand cell0 with pkgs := [(0, { Package.reset with phase := .ready, ports := [(16, { Port.reset with pausedTill := 5 })] })] }

theorem witness_TextIsFetchedOrWaitedFor :
    (strand cell0).turns = [] ∧ ((strand cell0).pkg (strand cell0).myPkg).phase ≠ .inReset ∧ (strand cell0).cur.status = .running
    ∧ inText cell0 0x1000 = true ∧ cachedByte (strand cell0).cur 0x1000 = none
    ∧ mayLeave (strand cell0) (strand cell0).myDie 0x1000 = true ∧ mayLeave unread unread.myDie 0x1000 = false ∧ cachedByte unread.cur 0x1000 = none := by
  repeat' apply And.intro
  all_goals decide

/-- A load past its region, one of a page that does not translate, and a block load whose second granule is past its region. -/
def outward (w : Word) : State := strand (at3 w)

theorem witness_AccessesStopAtTheWord :
    let part (w : Word) : Part := .plain (.load 5 6) w 8 .rd
    let two := granuleParts (va 0xFE0) 2 .rd (fun k => .fill 4 k (32 * k) 32)
    AGo { pg := 0, aregs := [3, 5], access := true } (outward (va 4096)) ∧ addrOk (va 4096) = true ∧ (outward (va 4096)).cur.writePending (va 4096) 8 = false
    ∧ accepted (outward (va 4096)) true (outward (va 4096)).cur.tlb [] = some ([], [])
    ∧ checkPart (outward (va 4096)) 1 [] (part (va 4096)) true = .fault .perm (va 4096)
    ∧ AGo { pg := 0, aregs := [3, 5], access := true } (outward 0x10000) ∧ checkPart (outward 0x10000) 1 [] (part 0x10000) true = .miss
    ∧ two = two.take 1 ++ [.plain (.fill 4 1 32 32) (va 4096) 32 .rd] ∧ accepted (outward (va 0xFE0)) false [] (two.take 1) = some ([some ⟨(va 0xFE0).toNat, some 5⟩], [])
    ∧ checkPart (outward (va 0xFE0)) 1 [] (.plain (.fill 4 1 32 32) (va 4096) 32 .rd) false = .fault .perm (va 4096) := by
  repeat' apply And.intro
  all_goals first | exact ago (by decide) | rfl | decide

/-- A die with a trap-mode region under heat 6 whose tags are of heat 5, and one whose granule 2^53 / 32 is uncorrectable. -/
def trapDie : Die := { die0 with regions := [(0, ⟨0, 4, 6, true, 6, true, true, true, false, false, 0⟩)] }
def marred : State := { strand cell0 with eccBad := [(va 0).toNat / 32], heats := [((va 0).toNat / 32, 5)] }

theorem witness_ChecksAtIssue :
    let w : Word := 0x001F000000000000
    addrOk w = true ∧ inWindow w = true ∧ isLocal 0 w = true ∧ isCmd (command cell0).me = true ∧ (windowLoad (command cell0) 0 (wf64 w 47 0)).isSome = true
    ∧ isLocal 1 (vaultAddr 1 0 0) = false ∧ aVault (va 4096) = true ∧ regionAt die0 0 4096 = none
    ∧ (∃ k r, regionAt die0 (vaultOf (va 0)) (vaultByte (va 0)) = some (k, r) ∧ r.stow = false ∧ r.rd = true ∧ lookup 0 marred.heats ((va 0).toNat / 32) = r.heat)
    ∧ marred.eccBad.contains ((va 0).toNat / 32) = true
    ∧ (∃ k r, regionAt trapDie 0 0 = some (k, r) ∧ r.mode = true ∧ (5 : Heat) ≠ r.heat)
    ∧ (∃ k r, regionAt slotDie 0 0 = some (k, r) ∧ r.stow = true)
    ∧ translate (strand cell0) 0 [] 0x10000 .rd = none ∧ (∃ a t, translate (strand cell0) 0 [⟨0, 0, 3, 7⟩] 0 .rd = some (a, t)) := by
  repeat' apply And.intro
  all_goals first | decide | exact ⟨_, _, rfl, by decide, by decide, by decide⟩ | exact ⟨_, _, rfl, by decide, by decide⟩ | exact ⟨_, _, rfl, by decide⟩ | exact ⟨_, _, rfl⟩

/-- A handler with an mpany of its own under way. -/
def handled : Saved := ⟨eng0, eng0, eng0, [(2, 1)], 3, none, [], none, [], none, []⟩
theorem witness_EretWaitsForItsResults :
    let s := command { trapped with saved := some handled, landings := [⟨9, 4, .pred 2 (some true)⟩] }
    AGo { pg := 0, cm := true } s ∧ s.cur.saved = some handled ∧ handlerOpen s handled = true ∧ handlerOpen (command trapped) handled = false := by
  refine ⟨ago (by decide), rfl, by decide, by decide⟩

/-- V or M words whose guard p2 is false, and V words that find their queue empty, unfilled, or of another size, and no room to push. -/
theorem witness_VectorAndMatrixWordsPassWaitAndTrap :
    let e : QEntry := { entry512 with missing := [0], fills := true }
    VNot .V 2 0 (common scalars) ∧ VNot .M 2 0 { strand scalars with eng := .M }
    ∧ vFormOf (.vadd (vq 2)) = some (formBinary, vq 2) ∧ mGuardOf (.mzero { m0 with pg := 2 }) = some (2, 0)
    ∧ popQueue cell0 formBinary.S1 (vq 2).S1 = some 2 ∧ popOpt cell0 (some 2) = .error (.empty false)
    ∧ (cell0.setQueue 2 [e]).queue 2 = [e] ∧ e.full = false ∧ entry512.full = true ∧ (lanesOf.cur.queue 2) = [entry512]
    ∧ VGo .V 0 (vReads (vq 2)) 0 lanesOf
    ∧ pushBlocks formBinary (vq 2) = 16 ∧ { poppedCell with qcap := [(3, 16)] }.qcapOf 3 = 16 ∧ { poppedCell with qcap := [(3, 15)] }.qcapOf 3 < 16
    ∧ { poppedCell with queues := [(0, [⟨3, 8192 * 32, 5, [], [], false⟩])] }.canDraw 3 16 = false ∧ poppedCell.canDraw 3 16 = true
    ∧ entrySizeOk (vq 2).S1 (some entry8) = false ∧ entrySizeOk (vq 2).S1 (some entry512) = true
    ∧ earlyRead { cell0 with engctl := 1, lastLand := [(7, 5)] } .V 7 4 = true ∧ earlyRead { cell0 with engctl := 1, lastLand := [(7, 5)] } .V 7 5 = false := by
  repeat' apply And.intro
  all_goals first | exact vgo (by decide) | rfl | decide

theorem witness_SlotsThatMayNotBeFreed :
    (∃ r, regionBased (stateOf 0 reservedDie (cell0.writeA 3 (va 0))) (va 0) = some (0, r) ∧ r.stow = true)
    ∧ (∃ x ∈ reservedDie.reserved, x.2 = 0) ∧ slotDie.reserved = [] := by
  refine ⟨⟨_, rfl, rfl⟩, ⟨_, .head _, rfl⟩, rfl⟩

/-- A cell that holds an XLATE of a stream whose page is one that goes. -/
def pageStream : Stream := { Stream.zero with curpg := 0x8000000000000001, curva := 0x10000 }
theorem witness_TranslationsAreRemoved :
    let c : Cell := { cell0.writeS 1 pageStream with fault := some { heldFault with stream := some (1, pageStream) }, tlb := [⟨0x10000, 0, 3, 7⟩] }
    1 / 144 = (strand c).myDie ∧ c.fault = some { heldFault with stream := some (1, pageStream) } ∧ c.tlb.filter (fun e => !(e.covers 0x10000)) = []
    ∧ (∃ h', (invalCell true 0 c).fault = some h' ∧ h'.stream.isSome = true) := by
  refine ⟨rfl, rfl, by decide, ⟨_, rfl, by decide⟩⟩

/-- A die whose heat 5 is retired while a granule of vault 0 and registers of idle cell 7 still carry it. -/
def sweeping : State :=
  { stateOf 1 { die0 with retired := [(5, 0)], sweepPos := 7 } cell0 with
    heats := [((va 224).toNat / 32, 5), (3, 5)], cells := [(7, { Cell.reset with aregs := [(3, ⟨5, 9⟩)], residue := [5, 6] })] }
theorem witness_SweepTakesTheGranuleAndTheCell :
    (sweeping.die 0).sweepPos < passLen ∧ (sweeping.die 0).sweepPos < 144 ∧ (sweeping.cell 7).status = .idle ∧ find? sweeping.cells 7 ≠ none
    ∧ (find? (sweeping.die 0).retired (5 : Heat).toNat).isSome = true ∧ (find? (sweeping.die 0).retired (6 : Heat).toNat).isSome = false
    ∧ (va 224).toNat / 32 = (vaultAddr 0 0 (32 * 7)).toNat / 32 ∧ find? sweeping.heats ((vaultAddr 0 0 (32 * 7)).toNat / 32) = some 5
    ∧ find? sweeping.heats 3 = some 5 := by
  repeat' apply And.intro
  all_goals decide

theorem witness_FillsAndLandings :
    let e : QEntry := { entry512 with id := 4, missing := [0, 1], fills := true }
    ((cell0.setQueue 2 [e]).queue 2 = [e] ∧ 32 + (List.replicate 32 (1 : Byte)).length ≤ max 32 e.size)
    ∧ (∃ sv, trapped.saved = some sv ∧ sv.before ≤ 4) ∧ (∃ sv, { trapped with saved := some handled }.saved = some sv ∧ 2 < sv.before)
    ∧ (cell0.saved = none ∧ (2047 : Word).toNat < 2048 ∧ ¬ (2048 : Word).toNat < 2048 ∧ (65535 : Word).toNat < 65536 ∧ 0x20 ≤ 0x2F ∧ 0x2F < 0x30
        ∧ (8192 : Word).toNat ≤ cell0.qcapOf 15 ∧ sumQ (fun j => if j = 15 then 8192 else cell0.qminOf j) ≤ 8192 ∧ cell0.qminOf 0 ≤ 1)
    ∧ (∀ l ∈ [(⟨1, 4, .areg 5 7 0⟩ : Landing), ⟨1, 5, .ctrl 0x41 3 0⟩], l.due ≤ 1) ∧ isRowRead (.stepRead 0 0 0 0 []) = true ∧ isRowRead (.areg 5 7 0) = false := by
  repeat' apply And.intro
  all_goals first | exact ⟨_, rfl, by decide⟩ | rfl | decide

theorem witness_BarriersWaitAndFences :
    let w : BarWait := ⟨5, none, true, some 1⟩
    let s := strand { cell0 with barWait := some w, A := { eng0 with expect := [(15, 1)] } }
    s.cur.barWait = some w ∧ waitDone s w = some 1 ∧ s.eng = .A ∧ s.cur.mayWrite .A 15 = false
    ∧ (∃ u v, releaseUnder true (flying { far 4 (.store [1] 64) 1 with dead := true }) 1 (barScope 5) (fun o => decide (o.id < 9)) = .severed u v)
    ∧ (∀ o ∈ (flying { far 4 (.store [1] 64) 1 with performed := true }).cur.ops,
        isDead (flying { far 4 (.store [1] 64) 1 with performed := true }) o = false
        ∧ performedAt (flying { far 4 (.store [1] 64) 1 with performed := true }).me 3 o = true) := by
  repeat' apply And.intro
  all_goals first | exact ⟨_, _, rfl⟩ | rfl | decide

/-! Premises of the clauses on copies, the fabric, nodes, dispatch, restores and the host are met. -/

/-- An encrypted copy out with all its bytes staged, its packets delivered; and one whose earlier copy has still to be checked. -/
def outCopy : Copy :=
  { hostCopy with words := [64, va 1024, 0x0000030100000020, 0xABCD, 8, 0, 0, 0], begun := true, staged := true, packets := [9], output := List.replicate 48 1 }
theorem witness_HostCopiesWaitAndWrite :
    let s := stateOf 0 { die0 with keys := [(3, hostKey)], copies := [outCopy] } cell0
    copy? s 0 4 = some outCopy ∧ outCopy.host = true ∧ outCopy.hostDir = true ∧ outCopy.packets.any (onRing s 0) = false
    ∧ outCopy.head = some (List.replicate 32 1) ∧ (s.pkg 0).hostErr.contains 2 = false ∧ { poolPkg with hostErr := [2] }.hostErr.contains 2 = true
    ∧ outCopy.packets.any (onRing { s with pkgs := [(0, { poolPkg with ringSlots := [⟨9, dieStation 0, 0, 0, true, true⟩] })] } 0) = true
    ∧ checkedLater 5 hostCopy.keyIx [hostCopy, { hostCopy with id := 5 }] = true ∧ checkedLater 4 hostCopy.keyIx [hostCopy, { hostCopy with id := 5 }] = false
    ∧ (pooled 9 cell0).cur.readK 2 = 9 ∧ (4 : Word).toNat % 8 ≠ 0 := by
  repeat' apply And.intro
  all_goals first | rfl | decide

theorem witness_HoldPointsForwardWhatDoesNotSplice :
    let s := { splicing [pushing] with nodes := [(9, { node0 with objects := [(9, { obj 2 with guarded := true })] })] }
    firstStage s pushing.cap pushing.op = .atBridge ∧ pushing.stage = atStage station ∧ versionOk s station pushing = true
    ∧ (∀ q ∈ s.reqs, q.id < pushing.id → orderedWith s q pushing = true → q.discarded = false → (heldStage station).rank ≤ q.stage.rank)
    ∧ ¬ (∀ q ∈ ownPair.reqs ++ [{ popping with cell := 1, id := 4, stage := .atRing }], q.id < 5 → orderedWith ownPair q { pushing with op := .pop 6 } = true →
        q.discarded = false → (heldStage station).rank ≤ q.stage.rank)
    ∧ (∀ k ∈ ringLinks (dieStation 0) (dieStation 3), linkClear s 0 k = true) := by
  repeat' apply And.intro
  all_goals first | rfl | decide

/-- A store of cell 1 to memory of package 1, which goes down; two packages of the domain, the second of which hears colour 0. -/
def twoPkgs : State :=
  { strand cell0 with topo := { Topology.reset with present := [0, 1] }
                      dies := [(0, { die0 with listen := standardListen 0 }), (8, { Die.reset 8 with listen := standardListen 0 })]
                      pkgs := [(0, poolPkg), (1, poolPkg)] }
theorem witness_SeveringAndReductions :
    let o : MemOp := { far 4 (.store [1] 64) 1 with addr := vaultAddr 8 0 0 }
    o ∈ (flying o).cur.ops ∧ o.kind.writes = true ∧ o.leg ≠ .returned ∧ pkgOfCell 1 ≠ o.homePkg ∧ o.homePkg = 1
    ∧ contentsOk 2 1 8 (.elems [0x31, 0x32]) = true ∧ contentsOk 0 1 8 (.bytes [1, 0, 0, 0]) = true ∧ contentsOk 4 1 8 (.count 5) = true
    ∧ contentsOk 2 1 8 (.bytes []) = false ∧ (∀ x, (none : Option Nat) = some x → x ≤ 1024)
    ∧ inDomain twoPkgs 0 = true ∧ inDomain twoPkgs 1 = true ∧ hears twoPkgs 1 0 0 = true
    ∧ (∀ q, q < 32 → q ≠ 0 → (inDomain twoPkgs q = true ∧ (q = 0 ∨ hears twoPkgs q 0 0 = true)) → requestOpen twoPkgs 0 q = true)
    ∧ requestOpen { twoPkgs with pkgs := [(0, poolPkg), (1, { poolPkg with ports := [(0, { Port.reset with width := 3 })] })] } 0 1 = false
    ∧ (∀ x, x < 32 → inDomain twoPkgs x = true → find? [(0, ([] : List Byte)), (1, [])] x ≠ none) := by
  repeat' apply And.intro
  all_goals first | decide | (intro x h; cases h) | (intro x h; revert h; revert x; decide +kernel)

/-- A class-0 head that needs three cells where two are idle, and a victim of class 2. -/
def contested : State :=
  stateOf 1 { slotDie with tasks := [(0, { task .ready 0 with left := [] }), (1, task .running 0)], ready := [⟨h0, 0, 0, 0, 0, 143, []⟩] }
    { cell0 with handle := h1, cls := 2, dispatched := 3 }
theorem witness_ClassZeroPreempts :
    headEntry contested 0 = some ⟨h0, 0, 0, 0, 0, 143, []⟩ ∧ requests contested 0 = [] ∧ roomFor contested 0 < 143 ∧ leavingCells contested 0 = 0
    ∧ roomFor contested 0 = 142 ∧ prefixFor 1 (victims contested 0) = some [⟨h1, 2, 3, 1⟩] ∧ prefixFor 2 (victims contested 0) = none
    ∧ slotsNeeded contested 0 h1 = 1 ∧ (freeSlots (contested.die 0) 0 0).length = 1 ∧ (freeSlots ((strand cell0).die 0) 0 0).length = 0
    ∧ shareCells contested 0 h1 = [1] ∧ canHalt (contested.cell 1) = true := by
  repeat' apply And.intro
  all_goals decide +kernel

theorem witness_CompletionMeetsASeveredHome :
    let s := stateOf 1 taskDie { parked with ops := [{ far 4 (.store [1] 64) 1 with addr := vaultAddr 8 0 0, dead := true }], engctl := 2 }
    isCmd 1 = false ∧ atRest s (s.cell 1) = true ∧ (∃ t v, releaseOf s 1 (taskScope s h0) (fun o => !isRead s o) = .severed t v ∧ recordRoom t (recordDie t 1) = true) := by
  refine ⟨rfl, by decide, ⟨_, _, rfl, by decide⟩⟩

/-- Cell 1 is taken and the entry in slot 0 names it. -/
def movedDie : Die := { restoreDie with
  regions := restoreDie.regions ++ [(1, ⟨384, 4, 5, false, 6, true, true, true, false, false, 0⟩)], stowed := [{ stowedAway with cell := 1, ctx := { stowedAway.ctx with kernel := va 393216 } }] }
theorem witness_RestoreToAnotherCell :
    let s := stateOf 1 movedDie cell0
    1 % 144 ∉ idleNumbers s 0 ∧ idleNumbers s 0 ≠ [] ∧ stowedAway.ctx.cpoint < 144 ∧ stowedAway.ctx.fault = none ∧ s.eccBad = []
    ∧ (s.die 0).stowed.filter (fun x => [0].contains x.slot) = [{ stowedAway with cell := 1, ctx := { stowedAway.ctx with kernel := va 393216 } }]
    ∧ (stowedAway.ctx.aregs.map Prod.fst).Nodup ∧ (stowedAway.ctx.vregs.map Prod.fst).Nodup ∧ (stowedAway.ctx.accs.map Prod.fst).Nodup
    ∧ (readRun 0 (va 393216 + 0xC0) 8 s).isSome = true := by
  repeat' apply And.intro
  all_goals decide +kernel

theorem witness_PackagesThatDoNotServe :
    (State.reset.pkg 0).phase ≠ .released ∧ (State.reset.pkg 0).phase ≠ .ready ∧ ((command cell0).pkg 0).phase = .ready
    ∧ (⟨0, [], 1⟩ : Reload).control.getLsbD 0 = true ∧ (⟨16777215, [1, 2], 2⟩ : Reload).control.getLsbD 0 = false
    ∧ { Package.reset with phase := .safeTalkative }.phase = .safeTalkative ∧ ((command cell0).pkg 0).severSelf = false
    ∧ Package.reset.faulty = none ∧ { Package.reset with faulty := some 3 }.faulty = some 3 ∧ Package.reset.image.length ≤ 2 ^ 24
    ∧ (∀ e ∈ (strand cell0).dies, dieKey (strand cell0) e.1 = none) := by
  repeat' apply And.intro
  all_goals first | decide | rfl

/-- M finds an 8-byte scale in queue 3 with its upper bits zero, one with a bit there, and an empty queue. -/
def scaleEntry (w : Nat) : QEntry := ⟨8, 8, 5, leBytes w 8, [], false⟩
def formatQ : BitVec 128 := BitVec.ofNat 128 (1 * 2 ^ 6 + 2 * 2 ^ 21 + 2 ^ 26 + 2 ^ 31)
theorem witness_MatrixScalesAndWaits :
    fmtSaSrc formatQ = 2 ∧ fmtSbSrc formatQ ≠ 2 ∧ formatEntry { mcell with formats := [(0, formatQ)] } mldb0 = some formatQ
    ∧ mcell.headAt 3 0 = .error (.empty false) ∧ (mcell.setQueue 3 [scaleEntry 0x7F000]).headAt 3 0 = .ok (scaleEntry 0x7F000)
    ∧ (wordAt ((mcell.setQueue 3 [scaleEntry 0x7F000]).entryBytes (scaleEntry 0x7F000)) 0).extractLsb' 20 44 = 0 ∧ (scaleEntry 0x7F000).size = 8
    ∧ entry1024.size ≠ 8 ∧ (3 : Nat) < { mcell with arrayFree := 5 }.arrayFree
    ∧ (⟨1, 2, .bbuf 1 [] 0⟩ : Landing).what = .bbuf 1 [] 0 ∧ (⟨1, 2, .drainRead 0 1 true 1 4 9 6 0 1 true 0 0 9⟩ : Landing).what = .drainRead 0 1 true 1 4 9 6 0 1 true 0 0 9 := by
  repeat' apply And.intro
  all_goals first | rfl | decide +kernel

/-- Operands that the floating and conversion laws speak of: a signalling and a quiet NaN, an infinity, 1.5 and a subnormal. -/
theorem witness_FloatingLaws :
    (0x7F800001 : BitVec 32).extractLsb' 23 8 = 255 ∧ (0x7F800001 : BitVec 32).extractLsb' 0 23 ≠ 0 ∧ (0x7F800001 : BitVec 32).getLsbD 22 = false
    ∧ (0x7FC00000 : BitVec 32).getLsbD 22 = true ∧ (0x7F800000 : BitVec 32).extractLsb' 0 31 = 0x7F800000 ∧ (0x3FC00000 : BitVec 32).extractLsb' 23 8 ≠ 255
    ∧ (0x00000001 : BitVec 32).extractLsb' 23 8 ≠ 255 ∧ 0 < 2 ^ 149 ∧ fval 0x7FC00000 = .nan false ∧ fval 0x7F800000 = .inf false
    ∧ (∃ m e, fval 0x3FC00000 = .fin false m e) ∧ (∃ m e, fval 0x80000001 = .fin true m e) ∧ (fval 0).isZero = true
    ∧ (5 : BitVec 3).toNat = 5 ∧ (dImm 0x80001).toNat ≤ 1 := by
  repeat' apply And.intro
  all_goals first | exact ⟨_, _, rfl⟩ | rfl | decide

end Sys2Proof.Tests
end

namespace Sys2Proof.Machine
open Sys2Proof

/-! What a step comes to when no turn is queued (R23, R38, R40). -/

/-- The engine whose turn it is may take its next word: its cell runs, it is neither parked nor stalled, no deferred or held fault stops
the A engine, and it stands at no body end. -/
structure EngineReady (s : State) : Prop where
  status : s.cur.status = .running
  park   : (s.cur.engine s.eng).park = .none
  issue  : (s.cur.engine s.eng).nextIssue ≤ s.cycle
  defer  : s.eng = .A → s.cur.reports = [] ∧ s.cur.fault = none
  body   : atBodyEnd (s.cur.engine s.eng) = false

/-- What the engine in focus does with what it has found at its pc. -/
def runFetched (s : State) : Fetched → Out
  | .illegal => .next (rotate (faultHere s s.eng .illegal (s.cur.engine s.eng).pc))
  | .absent a =>
    if mayLeave s s.myDie a then execTextFetch s.focus s.eng a s
    else .next (rotate (s.upd (fun c => c.modEngine s.eng (fun g => { g with wait := .external }))))
  | .skip n x => .next (s.upd (fun c => (c.bump s.eng x).modEngine s.eng (fun g =>
      { g with pc := g.pc + BitVec.ofNat 64 (4 * n), wait := .none })))
  | .word i => mapNext rotate (exec i s)

theorem engineStep_ready {s : State} (h : EngineReady s) : engineStep s = runFetched s (fetchWord s.cur s.eng) := by
  have h1 : ¬ (s.cur.status ≠ .running ∨ (s.cur.engine s.eng).park ≠ .none ∨ s.cycle < (s.cur.engine s.eng).nextIssue) := by
    simp [h.status, h.park, h.issue]
  have h2 : ¬ (s.eng = .A ∧ (!s.cur.reports.isEmpty) = true) := fun ⟨ha, hr⟩ => by simp [(h.defer ha).1] at hr
  have h3 : ¬ (s.eng = .A ∧ s.cur.fault.isSome = true) := fun ⟨ha, hr⟩ => by simp [(h.defer ha).2] at hr
  unfold engineStep
  simp only [if_neg h1, if_neg h2, if_neg h3, h.body, Bool.false_eq_true, if_false]
  cases fetchWord s.cur s.eng <;> rfl

theorem step_ready {s : State} (ht : s.turns = []) (hp : (s.pkg s.myPkg).phase ≠ .inReset) (h : EngineReady s) :
    step s = runFetched s (fetchWord s.cur s.eng) := by
  simp only [step, ht, idleStep, if_neg hp, engineStep_ready h]

section
variable {c : Cell} {e : Engine}

theorem fetchWord_outside (h : inText c (c.engine e).pc = false) : fetchWord c e = .illegal := by
  simp [fetchWord, h]

theorem fetchWord_absent (h : inText c (c.engine e).pc = true) (hb : cachedByte c (c.engine e).pc.toNat = none) :
    fetchWord c e = .absent (BitVec.ofNat 64 ((c.engine e).pc.toNat / 32 * 32)) := by
  simp [fetchWord, h, hb]

/-- The word at an engine's pc is whole: its bytes are in the text, cached, and pass no body end. -/
structure WholeWord (c : Cell) (e : Engine) (b : Byte) (bs : List Byte) : Prop where
  text  : inText c (c.engine e).pc = true
  first : cachedByte c (c.engine e).pc.toNat = some b
  fits  : (c.engine e).pc.toNat + 4 * wordLen b ≤ textEnd c
  body  : passesBody (c.engine e) (wordLen b) = false
  bytes : cachedText c (c.engine e).pc.toNat (4 * wordLen b) = .ok bs

theorem fetchWord_ok {b : Byte} {bs rest : List Byte} {i : Instr} (h : WholeWord c e b bs) (hd : decode bs = .ok (i, rest)) :
    fetchWord c e = if ownWord e b then .word i else .skip (wordLen b) (destOf i) := by
  simp [fetchWord, h.text, h.first, Nat.not_lt.2 h.fits, h.body, h.bytes, hd]

theorem fetchWord_error {b : Byte} {bs : List Byte} {x : DecodeError} (h : WholeWord c e b bs) (hd : decode bs = .error x) :
    fetchWord c e = if ownWord e b then .illegal else .skip (wordLen b) 0 := by
  simp [fetchWord, h.text, h.first, Nat.not_lt.2 h.fits, h.body, h.bytes, hd]
end

/-- Settles O4: with no turn queued the step is the turn of the engine in focus, which is ready and does what it fetches. -/
theorem stepRunsFetchedWord : Obligations.StepRunsFetchedWord := by
  unfold Obligations.StepRunsFetchedWord
  intro s ht hp c g hs hk hi hf hb
  rw [step_ready ht hp ⟨hs, hk, hi, hf, hb⟩]
  refine ⟨fun b bs rest i h1 h2 h3 h4 h5 hd => ?_, fun b bs x h1 h2 h3 h4 h5 hd ho => ?_, fun h => ?_, fun h h0 => ?_⟩
  · rw [fetchWord_ok ⟨h1, h2, h3, h4, h5⟩ hd]
    exact ⟨fun ho => by rw [if_pos ho]; rfl, fun ho => by rw [ho]; rfl⟩
  · rw [fetchWord_error ⟨h1, h2, h3, h4, h5⟩ hd, if_pos ho]; rfl
  · rw [fetchWord_outside h]; rfl
  · rw [fetchWord_absent h h0]
    exact ⟨fun hl => if_pos hl, fun hl => if_neg (by rw [hl]; exact Bool.false_ne_true)⟩

/-! Every step goes on (R29, R191, R199). -/

/-- An outcome that is a next state. -/
def Goes (o : Out) : Prop := ∃ t, o = .next t

theorem Goes.next (s : State) : Goes (.next s) := ⟨s, rfl⟩

theorem Goes.mapNext {f : State → State} {o : Out} (h : Goes o) : Goes (mapNext f o) := by
  obtain ⟨t, rfl⟩ := h
  exact .next (f t)

/-- Every row of the table goes on. A word's outcome is one next state; an event's is one at the end of each of its branches. -/
theorem exec_goes (i : Instr) (s : State) : Goes (exec i s) := by
  cases i
  case loopBackEdge | slipdead | writeSlip | writeAst | writeVctl | writeQcap | writeControlRegister | textFetch | blockFill |
      storePerformed | rmwResponse | pageAheadFill | faultQueueHeadWrite | dispatchDecision | strandStart | ageingPromotion |
      shareTransfer | successorDecrement | preemption | stowComplete | restore | reissueRefused | resultDelivery | strandComplete |
      watchdogFire | dieQuiescent | taskRecordFree | launchDoorbell | hostRingWrite | copyStart | copyGranuleWrite | copyComplete |
      hpourStart | hpourStaged | quenchSweep | quenchPassEnd | renewalResponse | poolWriteAck | poolRequest | leaseExpiry |
      holdArrival | holdWindowExpiry | ringSlotArrival | topologyAnnounce | topologyAdopt | staleRefusal | vetoRelease |
      laneFailure | retrainDone | packageSevered | sealedFrameReceive | domainReduction | scheduleFill | barrierArrival |
      ringRecordEvict | getDeviceInterfaceReport | getDeviceInterfaceState | reassignmentComplete | getMeasurements |
      debuggerRead | counterRead | hostLogHeadWrite | reloadStart | packageReset | firmwareReady | ideKmRequest |
      nodeManagementRequest | serialConfirmation | poolNodeRestart | retuneComplete =>
    dsimp only [exec, execLoopBackEdge, execSlipdead, execWriteSlip, execWriteAst, execWriteVctl, execWriteQcap,
      execWriteControlRegister, srEvent, execTextFetch, execBlockFill, execStorePerformed, execRmwResponse, execPageAheadFill,
      execFaultQueueHeadWrite, execDispatchDecision, execStrandStart, execAgeingPromotion, execShareTransfer,
      execSuccessorDecrement, execPreemption, execStowComplete, execRestore, execReissueRefused, execResultDelivery,
      execStrandComplete, execWatchdogFire, execDieQuiescent, execTaskRecordFree, execLaunchDoorbell, execHostRingWrite,
      execCopyStart, execCopyGranuleWrite, execCopyComplete, execHpourStart, execHpourStaged, execQuenchSweep,
      execQuenchPassEnd, execRenewalResponse, execPoolWriteAck, execPoolRequest, execLeaseExpiry, execHoldArrival,
      execHoldWindowExpiry, execRingSlotArrival, execTopologyAnnounce, execTopologyAdopt, execStaleRefusal, execVetoRelease,
      execLaneFailure, execRetrainDone, execPackageSevered, execSealedFrameReceive, execDomainReduction, execScheduleFill,
      execBarrierArrival, execRingRecordEvict, execGetDeviceInterfaceReport, execGetDeviceInterfaceState,
      execReassignmentComplete, execGetMeasurements, execDebuggerRead, execCounterRead, execHostLogHeadWrite, execReloadStart,
      execPackageReset, execFirmwareReady, execIdeKmRequest, execNodeManagementRequest, execSerialConfirmation,
      execPoolNodeRestart, execRetuneComplete]
    repeat' split
    all_goals exact .next _
  all_goals exact .next _

theorem engineStep_goes (s : State) : Goes (engineStep s) := by
  dsimp only [engineStep]
  split
  · exact .next _
  split
  · exact .next _
  split
  · exact .next _
  split
  · exact (exec_goes (.loopBackEdge s.focus s.eng) s).mapNext
  split
  · exact .next _
  case h_2 a _ =>
    split
    · exact exec_goes (.textFetch s.focus s.eng a) s
    · exact .next _
  · exact .next _
  case h_4 i _ => exact (exec_goes i s).mapNext

theorem responseStep_goes (s : State) (r : PoolReq) : Goes (responseStep s r) := by
  dsimp only [responseStep]
  split
  · split
    · exact exec_goes (.renewalResponse _ _) s
    · exact exec_goes (.blockFill _ _) s
  · exact exec_goes (.renewalResponse _ _) s
  · split
    · exact exec_goes (.renewalResponse _ _) s
    · exact .next s
  · exact .next s
  · exact exec_goes (.poolWriteAck _ _) s
  · split
    · exact exec_goes (.vetoRelease _ _) s
    · split
      · exact exec_goes (.rmwResponse _ _) s
      · exact exec_goes (.resultDelivery _ _) s

theorem requestStep_goes (s : State) (r : PoolReq) : Goes (requestStep s r) := by
  have atBridge (n : NodeId) (b : HoldPoint) (p : Prop) [Decidable p] :
      Goes (if p then execHoldArrival b r.id s else execPoolRequest n r.id s) := by
    split
    · exact exec_goes (.holdArrival _ _) s
    · exact exec_goes (.poolRequest _ _) s
  dsimp only [requestStep]
  cases r.stage with
  | atRing => exact exec_goes (.holdArrival _ _) s
  | heldRing | heldBridge | heldFront => exact exec_goes (.holdWindowExpiry _ _) s
  | atBridge =>
    dsimp only
    split
    · exact exec_goes (.blockFill _ _) s
    · split <;> exact .next _
    · exact atBridge _ _ _
  | atFront =>
    dsimp only
    split
    · exact exec_goes (.staleRefusal _ _) s
    · exact exec_goes (.holdArrival _ _) s
  | atNode =>
    dsimp only
    split
    · exact exec_goes (.staleRefusal _ _) s
    · exact exec_goes (.poolRequest _ _) s
  | refusedStale => exact exec_goes (.staleRefusal _ _) s
  | parked => exact .next s
  | answered | returning => exact responseStep_goes s r

theorem opStep_goes (s : State) (ix id : Nat) : Goes (opStep s ix id) := by
  dsimp only [opStep]
  split
  · exact exec_goes (.blockFill _ _) s
  split
  · exact exec_goes (.reissueRefused _ _) s
  split
  · exact exec_goes (.staleRefusal _ _) s
  split
  · exact exec_goes (.loadDataReturn _ _) s
  · exact exec_goes (.loadDataReturn _ _) s
  · exact exec_goes (.blockFill _ _) s
  · exact exec_goes (.storePerformed _ _) s
  · exact exec_goes (.storePerformed _ _) s
  · exact exec_goes (.rmwResponse _ _) s
  · exact .next s
  · exact .next s

theorem deliverStep_goes (s : State) (d : DieId) (id : Nat) : Goes (deliverStep s d id) := by
  unfold deliverStep
  split
  · split
    · exact exec_goes (.staleRefusal _ _) s
    · exact exec_goes (.resultDelivery _ _) s
  · exact exec_goes (.resultDelivery _ _) s

theorem adoptStep_goes (s : State) (f : Fabric) (told : Bool) : Goes (adoptStep s f told) := by
  unfold adoptStep
  split
  · exact exec_goes (.topologyAdopt _) s
  · exact exec_goes (.topologyAnnounce _) s

theorem ageStep_goes (s : State) (d : Nat) : Goes (ageStep s d) := by
  unfold ageStep
  split
  · exact exec_goes (.ageingPromotion _ _) s
  · exact .next s

theorem runDue_goes (u : Due) (s : State) : Goes (runDue u s) := by
  cases u with
  | landing c => exact exec_goes (.resultLanding _) s
  | slipdead c => exact exec_goes (.slipdead _) s
  | strandStart c => exact exec_goes (.strandStart _) s
  | strandComplete c => exact exec_goes (.strandComplete _) s
  | halt c =>
    dsimp only [runDue]
    split
    · exact exec_goes (.preemption _ _) s
    · exact .next s
  | stow c => exact exec_goes (.stowComplete _) s
  | watchdog c => exact exec_goes (.watchdogFire _) s
  | retry c => exact .next _
  | report c => exact exec_goes (.deferredFaultTaken _) s
  | op c id => exact opStep_goes s c id
  | pageAhead c n => exact exec_goes (.pageAheadFill _ _) s
  | arrival c bar => exact exec_goes (.barrierArrival _ _) s
  | dispatch d => exact exec_goes (.dispatchDecision _) s
  | ageing d _ => exact ageStep_goes s d
  | share d task p => exact exec_goes (.shareTransfer _ _ _) s
  | successor d task => exact exec_goes (.successorDecrement _ _) s
  | restore d ix => exact exec_goes (.restore _ _) s
  | deliver d id => exact deliverStep_goes s _ id
  | quench d => exact exec_goes (.quenchSweep _) s
  | passEnd d => exact exec_goes (.quenchPassEnd _) s
  | quiescent d => exact exec_goes (.dieQuiescent _) s
  | recordFree d r => exact exec_goes (.taskRecordFree _ _) s
  | copyStart d cl => exact exec_goes (.copyStart _ _) s
  | copyWrite d id => exact exec_goes (.copyGranuleWrite _ _) s
  | copyDone d id => exact exec_goes (.copyComplete _ _) s
  | hpourStart d id => exact exec_goes (.hpourStart _ _) s
  | hpourStaged d id => exact exec_goes (.hpourStaged _ _) s
  | fill d => exact exec_goes (.scheduleFill _) s
  | reassign d => exact exec_goes (.reassignmentComplete _) s
  | pts p => exact exec_goes (.ptsTick _) s
  | request id =>
    dsimp only [runDue]
    split
    · exact requestStep_goes s _
    · exact .next s
  | lease n oid => exact exec_goes (.leaseExpiry _ _) s
  | ringSlot d slot => exact exec_goes (.ringSlotArrival _ _) s
  | adoptPort p i => exact adoptStep_goes s _ _
  | adoptNode n => exact adoptStep_goes s _ _
  | retune p i f => exact exec_goes (.retuneComplete _ _) s
  | retrain l => exact exec_goes (.retrainDone _ _) s
  | pkgReset p => exact exec_goes (.packageReset _) s

theorem takeTurn_goes (t : Turn) (s : State) : Goes (takeTurn t s) := by
  cases t with
  | engine c e => exact engineStep_goes _
  | event i => exact exec_goes i s
  | due u => exact runDue_goes u s

theorem idleStep_goes (s : State) : Goes (idleStep s) := by
  unfold idleStep
  split
  · exact exec_goes (.packageReset _) s
  · exact engineStep_goes s

theorem step_goes (s : State) : SafeStep s := by
  unfold SafeStep step
  split
  · exact idleStep_goes s
  · exact takeTurn_goes _ _

/-- Settles O5: the step takes the head of the queue, and the turns of engines, events and due steps all go on. -/
theorem turnsComeFirstAndEveryStepGoesOn : Obligations.TurnsComeFirstAndEveryStepGoesOn := by
  unfold Obligations.TurnsComeFirstAndEveryStepGoesOn
  have head (s : State) (t : Turn) (ts : List Turn) (h : s.turns = t :: ts) : step s = takeTurn t { s with turns := ts } := by
    simp only [step, h]
  exact ⟨fun s ts => ⟨fun i h => head s _ ts h, fun c e h => head s _ ts h, fun u h => head s _ ts h⟩, exec_goes, step_goes⟩

end Sys2Proof.Machine

namespace Sys2Proof.Machine
open Sys2Proof

/-! The engine that SLIPDEAD names (R28). -/

/-- A distance that is not behind one way is not ahead the other way. -/
theorem csn_sub_nonpos {a b : BitVec 32} (h : 0 ≤ (a - b).toInt) : (b - a).toInt ≤ 0 := by
  simp only [BitVec.toInt_eq_toNat_cond, BitVec.toNat_sub] at *
  omega

/-- Two counts neither of which is ahead of the other are equal, where one distance is not behind. -/
theorem csn_eq_of_sub {a b : BitVec 32} (h : 0 ≤ (a - b).toInt) (k : (a - b).toInt ≤ 0) : a = b := by
  apply BitVec.eq_of_toNat_eq
  simp only [BitVec.toInt_eq_toNat_cond, BitVec.toNat_sub] at *
  omega

/-- Engine e has no CSN behind its own. -/
def csnLeast (c : Cell) (e : Engine) : Bool :=
  [Engine.A, .V, .M].all (fun f => decide (((c.engine e).csn - (c.engine f).csn).toInt ≤ 0))

theorem csnLeast_iff {c : Cell} {e : Engine} : csnLeast c e = true ↔ ∀ f, ((c.engine e).csn - (c.engine f).csn).toInt ≤ 0 := by
  simp only [csnLeast, List.all_cons, List.all_nil, Bool.and_true, Bool.and_eq_true, decide_eq_true_eq]
  exact ⟨fun ⟨ha, hv, hm⟩ f => by cases f <;> assumption, fun h => ⟨h .A, h .V, h .M⟩⟩

/-- An engine without a CSN behind its own is named only where no earlier engine is such a one. -/
theorem slipdeadEngine_first {c : Cell} {f : Engine} (h : csnLeast c f = true) :
    csnLeast c (slipdeadEngine c) = true ∧ (engNo (slipdeadEngine c)).toNat ≤ (engNo f).toNat := by
  have hs : slipdeadEngine c = (match [Engine.A, .V, .M].find? (csnLeast c) with | some e => e | none => .A) := rfl
  rw [hs]
  cases ha : csnLeast c .A with
  | true => simp [List.find?, ha, engNo]
  | false =>
    cases hv : csnLeast c .V with
    | true => cases f <;> simp_all [List.find?, engNo]
    | false => cases f <;> simp_all [List.find?, engNo]

/-- The engine that SLIPDEAD names has the smallest CSN, and is the first in the order A, V, M of those that have it. -/
theorem slipdeadEngine_least {c : Cell} {f : Engine} (h : ∀ g, 0 ≤ ((c.engine g).csn - (c.engine f).csn).toInt) :
    (∀ g, 0 ≤ ((c.engine g).csn - (c.engine (slipdeadEngine c)).csn).toInt)
      ∧ (engNo (slipdeadEngine c)).toNat ≤ (engNo f).toNat := by
  obtain ⟨hl, hn⟩ := slipdeadEngine_first (csnLeast_iff.2 (fun g => csn_sub_nonpos (h g)))
  have he : (c.engine (slipdeadEngine c)).csn = (c.engine f).csn := csn_eq_of_sub (h _) (csnLeast_iff.1 hl f)
  exact ⟨fun g => he ▸ h g, hn⟩

/-- WATCHDOG_FIRE of a cell counts when the cell is a running strand's and its count has reached a limit other than 0. -/
theorem execWatchdogFire_eq (cid : CellId) (s : State) : execWatchdogFire cid s =
    if isCmd (cellIx cid) = false ∧ (s.cell (cellIx cid)).status = .running ∧ 0 < (s.cell (cellIx cid)).wdogLimit
      ∧ (s.cell (cellIx cid)).wdogLimit ≤ (s.cell (cellIx cid)).wdogCount
    then .next (failTask (appendRecord ((s.count (dieOfCell (cellIx cid)) 19).count (dieOfCell (cellIx cid)) 18) (recordDie s (cellIx cid))
      (recordOf s (cellIx cid) 1 (faultWord 3 15 false) (BitVec.ofNat 64 (s.cell (cellIx cid)).wdogCount) 0)) (s.cell (cellIx cid)).handle)
    else .next s := by
  rw [← ite_not]
  simp only [Classical.not_and_iff_not_or_not, Bool.not_eq_false, Nat.not_lt, Nat.not_le, Nat.le_zero]
  rfl

/-- DIE_QUIESCENT of a die counts when the die has been quiescent for its limit and has not been reported. -/
theorem execDieQuiescent_eq (d : DieId) (s : State) : execDieQuiescent d s =
    if (s.die (dieIx d)).quietReported = false ∧ 0 < (s.cell (dieIx d * 144)).wdogLimit
      ∧ (s.cell (dieIx d * 144)).wdogLimit ≤ (s.die (dieIx d)).quiet ∧ dieQuiet s (dieIx d) = true
    then .next (appendRecord (s.setDie (dieIx d) { s.die (dieIx d) with quietReported := true }) (dieIx d)
      (recordTask s (dieIx d) 5 0 0 (s.die (dieIx d)).world))
    else .next s := by
  rw [← ite_not]
  simp only [execDieQuiescent, Classical.not_and_iff_not_or_not, Bool.not_eq_false, Bool.not_eq_true, Bool.not_eq_true', Nat.not_lt,
    Nat.not_le, Nat.le_zero]

/-- Settles O33: each of the three events has one condition, under which it does what is said. -/
theorem watchdogSlipAndQuiescence : Obligations.WatchdogSlipAndQuiescence := by
  unfold Obligations.WatchdogSlipAndQuiescence
  intro cid d s ix c die D limit fires quiet
  refine ⟨fun h => ?_, fun h => ?_, fun h => ?_, fun h => ?_, fun h => ?_, fun h => ?_⟩
  · exact (execWatchdogFire_eq cid s).trans (if_pos h)
  · exact (execWatchdogFire_eq cid s).trans (if_neg h)
  · exact if_pos h
  · exact ⟨slipdeadEngine c, if_neg (Nat.not_lt.2 h), fun f hf => slipdeadEngine_least hf⟩
  · exact ⟨recordTask s die 5 0 0 D.world, rfl, rfl, (execDieQuiescent_eq d s).trans (if_pos h)⟩
  · exact (execDieQuiescent_eq d s).trans (if_neg h)
end Sys2Proof.Machine

namespace Sys2Proof.Machine
open Sys2Proof

/-! Reads by hardware count corrected errors, and change nothing else (R268, R382). -/

/-- State t is s but for the event counters of dies. -/
structure Counts (s t : State) : Prop where
  rest : { t with dies := s.dies } = s
  dies : ∀ j, { t.die j with counters := (s.die j).counters } = s.die j

namespace Counts
variable {s t u : State}

theorem refl (s : State) : Counts s s := ⟨rfl, fun _ => rfl⟩

theorem trans (h : Counts s t) (k : Counts t u) : Counts s u where
  rest := by
    have a := h.rest
    have b := k.rest
    rw [← a, ← b]
  dies j := by
    have a := h.dies j
    have b := k.dies j
    rw [← a, ← b]

theorem mem (h : Counts s t) : t.mem = s.mem := (congrArg State.mem h.rest :)
theorem cells (h : Counts s t) : t.cells = s.cells := (congrArg State.cells h.rest :)
theorem cell (h : Counts s t) (j : Nat) : t.cell j = s.cell j := by rw [State.cell, h.cells]; rfl

theorem count (s : State) (d k : Nat) : Counts s (s.count d k) := ⟨rfl, (Outside.count s d k).dies⟩

theorem noteEcc (s : State) (w : Word) (p : Site) : Counts s (noteEcc s w p) := by
  unfold Machine.noteEcc
  split
  · split
    · exact count ..
    · exact refl s
  · exact refl s

end Counts

/-! Stores at a home (R268, R319): what hardware stores and the stores of strands leave alone. -/

/-- State t is s but for memory, its heats and error marks, and the counters and write times of dies. -/
structure Stores (s t : State) : Prop where
  rest : { t with mem := s.mem, heats := s.heats, eccBad := s.eccBad, eccOne := s.eccOne, dies := s.dies } = s
  dies : ∀ j, { t.die j with counters := (s.die j).counters, hmax := (s.die j).hmax } = s.die j

namespace Stores
variable {s t u : State}

theorem refl (s : State) : Stores s s := ⟨rfl, fun _ => rfl⟩

theorem trans (h : Stores s t) (k : Stores t u) : Stores s u where
  rest := by
    have a := h.rest
    have b := k.rest
    rw [← a, ← b]
  dies j := by
    have a := h.dies j
    have b := k.dies j
    rw [← a, ← b]

theorem cells (h : Stores s t) : t.cells = s.cells := (congrArg State.cells h.rest :)
theorem pkgs (h : Stores s t) : t.pkgs = s.pkgs := (congrArg State.pkgs h.rest :)
theorem reqs (h : Stores s t) : t.reqs = s.reqs := (congrArg State.reqs h.rest :)
theorem cycle (h : Stores s t) : t.cycle = s.cycle := (congrArg State.cycle h.rest :)
theorem nextId (h : Stores s t) : t.nextId = s.nextId := (congrArg State.nextId h.rest :)
theorem tasks (h : Stores s t) (j : Nat) : (t.die j).tasks = (s.die j).tasks := (congrArg Die.tasks (h.dies j) :)

theorem cell (h : Stores s t) (j : Nat) : t.cell j = s.cell j := by rw [State.cell, h.cells]; rfl

theorem of_counts (h : Counts s t) : Stores s t where
  rest := by
    have a := h.rest
    rw [← a]
  dies j := by
    have a := h.dies j
    rw [← a]

theorem raiseTime (s : State) (w : Word) (t : Nat) : Stores s (raiseTime s w t) where
  rest := rfl
  dies j := by
    rw [Machine.raiseTime, State.modDie_die]
    split
    next h => subst h; rfl
    next => rfl

theorem noteEcc (s : State) (w : Word) (p : Site) : Stores s (noteEcc s w p) := of_counts (.noteEcc s w p)

theorem of_writeVault {h : Heat} {a : Nat} {bs : List Byte} (hw : writeVault s h a bs = .ok t) : Stores s t := by
  unfold writeVault at hw
  dsimp only at hw
  split at hw
  · cases hw; exact ⟨rfl, fun _ => rfl⟩
  split at hw
  · cases hw
  · cases hw; exact ⟨rfl, fun _ => rfl⟩

theorem of_writeSite {p : Site} {bs : List Byte} (hw : writeSite s p bs = .ok t) : Stores s t := by
  unfold writeSite at hw
  split at hw
  · exact of_writeVault hw
  · cases hw; exact ⟨rfl, fun _ => rfl⟩

theorem putVault (s : State) (h : Heat) (w : Word) (bs : List Byte) : Stores s (putVault s h w bs) := by
  unfold Machine.putVault
  split
  next hw => exact of_writeVault hw
  next => exact .refl s

theorem putRegion (s : State) (w : Word) (bs : List Byte) : Stores s (putRegion s w bs) := by
  unfold Machine.putRegion
  split
  · split
    · exact (noteEcc ..).trans (putVault ..)
    · exact putVault ..
  · exact .refl s

theorem of_rmwSite {w : Word} {p : Site} {op : RmwOp} {n b x v : Nat} (h : rmwSite s w p op n b x = .ok (v, t)) : Stores s t := by
  unfold rmwSite at h
  split at h
  · cases h
  split at h
  · cases h
  next hw => cases h; exact (noteEcc ..).trans (of_writeSite hw)

theorem of_performStore {ix v : Nat} {o : MemOp} (h : performStore s ix o = .ok (v, t)) : Stores s t := by
  unfold performStore at h
  split at h
  · split at h
    · cases h
    split at h
    · cases h
    next hw =>
      cases h
      split at hw
      · exact (noteEcc ..).trans (of_writeSite hw)
      · exact of_writeSite hw
  · split at h
    · cases h
    · exact of_rmwSite h
  · split at h
    · cases h
    · exact of_rmwSite h
  · cases h; exact .refl s

theorem drainStores (s : State) (ix : Nat) (ops l : List MemOp) : Stores s (drainStores s ix ops l) := by
  induction l generalizing s with
  | nil => exact .refl s
  | cons o os ih =>
    refine Stores.trans ?_ (ih _)
    split
    · exact .refl s
    split
    next hp =>
      split
      · exact (of_performStore hp).trans (raiseTime ..)
      · exact of_performStore hp
    next => exact .refl s

end Stores

/-! Fault records (R255, R394). -/

/-- State t is s once a record of a die has gone its way: but for what a store changes, the die's records, the latch of its command cell
and the host's logs, nothing differs. -/
structure Records (die : Nat) (s t : State) : Prop where
  rest : { t with
    mem := s.mem, heats := s.heats, eccBad := s.eccBad, eccOne := s.eccOne, dies := s.dies, cells := s.cells, pkgs := s.pkgs } = s
  latch : ∀ j, { t.cell j with latch := (s.cell j).latch } = s.cell j
  cells : ∀ j, j ≠ die * 144 → t.cell j = s.cell j
  dies  : ∀ j, { t.die j with counters := (s.die j).counters, hmax := (s.die j).hmax, fqRecords := (s.die j).fqRecords
                              faultWait := (s.die j).faultWait } = s.die j

namespace Records
variable {die : Nat} {s t u : State}

theorem of_stores (h : Stores s t) : Records die s t where
  rest := by
    have a := h.rest
    have b := h.cells
    have c := h.pkgs
    rw [← b, ← c]; exact a
  latch j := by rw [h.cell]
  cells j _ := h.cell j
  dies j := by
    have a := h.dies j
    rw [← a]

theorem trans (h : Records die s t) (k : Records die t u) : Records die s u where
  rest := by
    have a := h.rest
    have b := k.rest
    rw [← a, ← b]
  latch j := by
    have a := h.latch j
    have b := k.latch j
    rw [← a, ← b]
  cells j hj := (k.cells j hj).trans (h.cells j hj)
  dies j := by
    have a := h.dies j
    have b := k.dies j
    rw [← a, ← b]

theorem cycle (h : Records die s t) : t.cycle = s.cycle := (congrArg State.cycle h.rest :)
theorem tasks (h : Records die s t) (j : Nat) : (t.die j).tasks = (s.die j).tasks := (congrArg Die.tasks (h.dies j) :)
theorem status (h : Records die s t) (j : Nat) : (t.cell j).status = (s.cell j).status := (congrArg Cell.status (h.latch j) :)

/-- The cell of a strand is as it was. -/
theorem strandCell (h : Records die s t) {j : Nat} (hj : isCmd j = false) : t.cell j = s.cell j :=
  h.cells j (fun e => by simp [e, isCmd] at hj)

theorem keepRecord (s : State) (die i : Nat) (r : FaultRecord) :
    Records die s (s.modDie die (fun d => { d with fqRecords := insertAt d.fqRecords i r })) where
  rest := rfl
  latch _ := rfl
  cells _ _ := rfl
  dies j := by
    rw [State.modDie_die]
    split
    next h => subst h; rfl
    next => rfl

theorem letWait (s : State) (die : Nat) (rs : List FaultRecord) : Records die s (s.modDie die (fun d => { d with faultWait := d.faultWait ++ rs })) where
  rest := rfl
  latch _ := rfl
  cells _ _ := rfl
  dies j := by
    rw [State.modDie_die]
    split
    next h => subst h; rfl
    next => rfl

theorem setLatch (s : State) (die : Nat) : Records die s (setLatch s (die * 144)) where
  rest := rfl
  latch j := by
    rw [Machine.setLatch, State.modCell_cell]
    split
    next h => subst h; rfl
    next => rfl
  cells j hj := by rw [Machine.setLatch, State.modCell_cell, if_neg hj]
  dies _ := rfl

theorem appendLog (s : State) (die pkg : Nat) (r : FaultRecord) : Records die s (appendLog s pkg r) := ⟨rfl, fun _ => rfl, fun _ _ => rfl, fun _ => rfl⟩

theorem fqStore (s : State) (die : Nat) (r : FaultRecord) : Records die s (fqStore s die r) :=
  (of_stores (((Stores.putRegion ..).trans (.putRegion ..)).trans (.putRegion ..))).trans
    ((keepRecord ..).trans ((setLatch ..).trans (appendLog ..)))

theorem appendRecord (s : State) (die : Nat) (r : FaultRecord) : Records die s (appendRecord s die r) := by
  unfold Machine.appendRecord
  split
  · exact fqStore s die r
  · exact letWait s die [r]

end Records

/-! A stopping fault of a strand (R29, R199, R205, R255). -/

theorem recordDie_of_task {s : State} {ix : Nat} (h : (taskOf s (s.cell ix).handle).isSome = true) :
    recordDie s ix = handleDie (s.cell ix).handle := by
  simp [recordDie, h]

theorem recordDie_fresh (s : State) (n ix : Nat) : recordDie { s with nextId := n } ix = recordDie s ix := rfl

/-- The strand's cell once its record has been made: halting for a fault stow. -/
def stopCell (x : FaultRecord) (c : Cell) : Cell :=
  { c with status := .halting, faultc := x.cause.setWidth 11, faultv := x.value, preempt := some .fault, stuck := none, stopped := x.fault }

/-- Where a strand goes once its record has been made: to the slot reserved for it, to a free one, or from its cell with its task. -/
theorem stopWith_reserved {s : State} {ix : Nat} {x : FaultRecord}
    (h : ((appendRecord s (recordDie s ix) x).die (dieOfCell ix)).reserved.any (fun y => y.1 == ix) = true) :
    stopWith s ix x = (appendRecord s (recordDie s ix) x).modCell ix (stopCell x) := if_pos h

/-- A die with a slot that is free and unreserved can reserve one. -/
theorem reserveSlot_of_free {d : Die} {ix cycle : Nat} (h : freeSlots d (dieOfCell ix) cycle ≠ []) :
    ∃ k, reserveSlot d ix cycle = some { d with reserved := insertAt d.reserved ix k } := by
  unfold reserveSlot
  change freeSlots d (ix / 144) cycle ≠ [] at h
  cases hf : freeSlots d (ix / 144) cycle with
  | nil => exact absurd hf h
  | cons k ks => exact ⟨k, rfl⟩

theorem reserveSlot_of_full {d : Die} {ix cycle : Nat} (h : freeSlots d (dieOfCell ix) cycle = []) : reserveSlot d ix cycle = none := by
  unfold reserveSlot
  change freeSlots d (ix / 144) cycle = [] at h
  rw [h]

theorem any_key_insertAt {α : Type} (m : SMap α) (k : Nat) (x : α) : (insertAt m k x).any (fun e => e.1 == k) = true := by
  induction m with
  | nil => simp [insertAt]
  | cons e r ih =>
    obtain ⟨j, y⟩ := e
    simp only [insertAt]
    split
    · simp
    split
    · simp
    · simp [ih]

theorem stopWith_free {s : State} {ix : Nat} {x : FaultRecord}
    (h : ((appendRecord s (recordDie s ix) x).die (dieOfCell ix)).reserved.any (fun y => y.1 == ix) = false)
    (hf : freeSlots ((appendRecord s (recordDie s ix) x).die (dieOfCell ix)) (dieOfCell ix) s.cycle ≠ []) :
    ∃ k, stopWith s ix x = ((appendRecord s (recordDie s ix) x).modCell ix (stopCell x)).setDie (dieOfCell ix)
      { (appendRecord s (recordDie s ix) x).die (dieOfCell ix) with
        reserved := insertAt ((appendRecord s (recordDie s ix) x).die (dieOfCell ix)).reserved ix k } := by
  obtain ⟨k, hk⟩ := reserveSlot_of_free hf
  refine ⟨k, (if_neg (by rw [State.modCell_die, h]; exact Bool.false_ne_true)).trans ?_⟩
  rw [State.modCell_die, hk]
  rfl

theorem stopWith_full {s : State} {ix : Nat} {x : FaultRecord}
    (h : ((appendRecord s (recordDie s ix) x).die (dieOfCell ix)).reserved.any (fun y => y.1 == ix) = false)
    (hf : freeSlots ((appendRecord s (recordDie s ix) x).die (dieOfCell ix)) (dieOfCell ix) s.cycle = []) :
    stopWith s ix x = freeCell (failTask ((appendRecord s (recordDie s ix) x).modCell ix (stopCell x))
      (((appendRecord s (recordDie s ix) x).modCell ix (stopCell x)).cell ix).handle) ix := by
  refine (if_neg (by rw [State.modCell_die, h]; exact Bool.false_ne_true)).trans ?_
  rw [State.modCell_die, reserveSlot_of_full hf]
  rfl

/-- The cell that a strand has left is idle. -/
theorem freeCell_idle (s : State) (ix : Nat) : ((freeCell s ix).cell ix).status = .idle := by
  dsimp only [freeCell]
  split
  · rw [State.setCell_cell_self]; rfl
  · rw [State.modDie_cell, State.setCell_cell_self]; rfl

/-- FAULTC of the record of a stopping fault. -/
theorem recordOf_cause (s : State) (ix : Nat) (fc : BitVec 11) (v off : Word) : (recordOf s ix 0 fc v off).cause.setWidth 11 = fc := by
  apply BitVec.eq_of_toNat_eq
  have := fc.isLt
  simp only [recordOf, BitVec.toNat_setWidth, BitVec.toNat_ofNat]
  omega

/-- A stopping fault of a strand cell. -/
theorem takeFault_strand {s : State} {ix : Nat} (h : isCmd ix = false) (e : BitVec 2) (code : FaultCode) (v : Word) :
    takeFault s ix e code v = stopStrand s ix e code v (offsetOf (s.cell ix) e) := by
  simp [takeFault, takeFaultAt, h]

theorem stopStrand_room {s : State} {ix : Nat} (h : recordRoom s (recordDie s ix) = true) (e : BitVec 2) (code : FaultCode) (v off : Word) :
    stopStrand s ix e code v off = stopWith { s with nextId := s.nextId + 1 } ix (recordOf s ix 0 (faultWord e (codeNum code) false) v off) :=
  if_pos h

theorem stopStrand_noRoom {s : State} {ix : Nat} (h : recordRoom s (recordDie s ix) = false) (e : BitVec 2) (code : FaultCode) (v off : Word) :
    stopStrand s ix e code v off = awaitRoom { s with nextId := s.nextId + 1 } ix ⟨recordOf s ix 0 (faultWord e (codeNum code) false) v off, none, false⟩ :=
  if_neg (by rw [h]; exact Bool.false_ne_true)

/-- The strand whose fault has its record and whose cell has a slot. -/
theorem stopWith_halts {s : State} {ix : Nat} {x : FaultRecord} (h : isCmd ix = false)
    (hs : ((appendRecord s (recordDie s ix) x).die (dieOfCell ix)).reserved.any (fun y => y.1 == ix) = true
      ∨ freeSlots ((appendRecord s (recordDie s ix) x).die (dieOfCell ix)) (dieOfCell ix) s.cycle ≠ []) :
    (stopWith s ix x).cell ix = stopCell x (s.cell ix)
      ∧ (∀ j, j ≠ ix → (stopWith s ix x).cell j = (appendRecord s (recordDie s ix) x).cell j)
      ∧ (stopWith s ix x).mem = (appendRecord s (recordDie s ix) x).mem
      ∧ ((stopWith s ix x).die (dieOfCell ix)).reserved.any (fun y => y.1 == ix) = true := by
  have hc : (appendRecord s (recordDie s ix) x).cell ix = s.cell ix := (Records.appendRecord ..).strandCell h
  cases hr : ((appendRecord s (recordDie s ix) x).die (dieOfCell ix)).reserved.any (fun y => y.1 == ix) with
  | true =>
    rw [stopWith_reserved hr]
    exact ⟨by rw [State.modCell_cell_self, hc], fun j hj => by rw [State.modCell_cell, if_neg hj], rfl, hr⟩
  | false =>
    obtain ⟨k, hk⟩ := stopWith_free hr (hs.resolve_left (by rw [hr]; exact Bool.false_ne_true))
    rw [hk]
    refine ⟨by rw [State.setDie_cell, State.modCell_cell_self, hc], fun j hj => by rw [State.setDie_cell, State.modCell_cell, if_neg hj], rfl, ?_⟩
    rw [State.setDie_die_self]
    exact any_key_insertAt ..

/-- Settles O21: where the record has room, by the slot that the strand has, finds or lacks. -/
theorem strandStopsOnAFault : Obligations.StrandStopsOnAFault := by
  unfold Obligations.StrandStopsOnAFault
  intro s ix e code v hx die c off fc r t x
  have ht : t = stopStrand s ix e code v off := takeFault_strand hx e code v
  refine ⟨recordDie_of_task, fun h => ?_, fun h => ?_, fun cid hc => by subst hc; rfl⟩
  · rw [ht, stopStrand_noRoom h]; rfl
  · rw [ht, stopStrand_room h]
    refine ⟨fun hs => ?_, fun hr hf => ?_⟩
    · obtain ⟨hcell, hrest⟩ := stopWith_halts (s := x) (x := r) hx hs
      refine ⟨hcell.trans ?_, hrest⟩
      rw [stopCell, recordOf_cause]
      rfl
    · rw [stopWith_full (s := x) hr hf]
      exact freeCell_idle _ ix

end Sys2Proof.Machine

namespace Sys2Proof.Machine
open Sys2Proof

/-! Task records (R238, R359). -/

theorem taskOf_congr {s t : State} (h : ∀ j, (t.die j).tasks = (s.die j).tasks) (w : Word) : taskOf t w = taskOf s w := by
  unfold taskOf
  rw [h]

/-- A record that a handle names is not free and bears the handle's generation. -/
theorem taskOf_some {s : State} {h : Word} {T : Task} (ht : taskOf s h = some T) :
    T.state ≠ .free ∧ h = mkHandle (handleDie h) (hIndex h) T.gen := by
  unfold taskOf at ht
  split at ht
  · cases ht
  split at ht
  next hc => cases ht; exact hc
  next => cases ht

/-- A record that is stored under a handle of its own generation is the one that the handle names. -/
theorem taskOf_setTask {s : State} {h : Word} {V : Task} (hf : V.state ≠ .free) (hg : h = mkHandle (handleDie h) (hIndex h) V.gen) :
    taskOf (setTask s h V) h = some V := by
  unfold taskOf setTask
  rw [State.modDie_die_self]
  dsimp only
  rw [find?_insertAt_self]
  exact if_pos ⟨hf, hg⟩

/-! A strand leaves its cell (R22, R34, R379): its own cell becomes idle, no other changes its status, and no task record changes. -/

theorem giveGrants_dies (s : State) (gs : List (Nat × Grant)) : (giveGrants s gs).dies = s.dies := by
  induction gs generalizing s with
  | nil => rfl
  | cons g gs ih => exact ih _

theorem giveGrants_status (s : State) (gs : List (Nat × Grant)) (j : Nat) : ((giveGrants s gs).cell j).status = (s.cell j).status := by
  induction gs generalizing s with
  | nil => rfl
  | cons g gs ih =>
    refine (ih _).trans ?_
    rw [State.modCell_cell]
    split
    next h => subst h; rfl
    next => rfl

theorem leaveRing_status (s : State) (ix j : Nat) : ((leaveRing s ix).cell j).status = (s.cell j).status := by
  have h : ((s.modCell ix (fun c => { c with ringAt := none })).cell j).status = (s.cell j).status := by
    rw [State.modCell_cell]
    split
    next h => subst h; rfl
    next => rfl
  unfold leaveRing
  split
  · rfl
  dsimp only
  split
  · exact h
  · exact (giveGrants_status _ _ j).trans h

theorem leaveRing_tasks (s : State) (ix j : Nat) : ((leaveRing s ix).die j).tasks = (s.die j).tasks := by
  unfold leaveRing
  split
  · rfl
  dsimp only
  split
  · rfl
  · unfold settleRing State.die
    dsimp only
    rw [giveGrants_dies]
    change ((putRing _ _ _).die j).tasks = _
    rw [putRing, State.modDie_die]
    split
    next h => subst h; rfl
    next => rfl

/-- A change of values that keeps the keys. -/
theorem find?_map_keys {α : Type} (m : SMap α) (g : Nat × α → Nat × α) (hg : ∀ e, (g e).1 = e.1) (j : Nat) :
    find? (m.map g) j = (find? m j).map (fun x => (g (j, x)).2) := by
  induction m with
  | nil => rfl
  | cons e r ih =>
    obtain ⟨i, x⟩ := e
    have h1 : g (i, x) = (i, (g (i, x)).2) := Prod.ext (hg _) rfl
    rw [List.map_cons, h1]
    by_cases h : i = j
    · subst h; simp [find?]
    · simp [find?, h, ih]

theorem moveClaims_tasks (s : State) (pkg old : Nat) (new : Option Nat) (j : Nat) :
    ((moveClaims s pkg old new).die j).tasks = (s.die j).tasks := by
  unfold moveClaims State.die lookup
  dsimp only
  rw [find?_map_keys _ _ (fun e => by split <;> rfl)]
  cases find? s.dies j with
  | none => rfl
  | some d => dsimp only [Option.map]; split <;> rfl

theorem freeCell_status (s : State) {ix j : Nat} (h : j ≠ ix) : ((freeCell s ix).cell j).status = (s.cell j).status := by
  unfold freeCell
  extract_lets die c s1 s2 s3
  have h1 : (s1.cell j).status = (s.cell j).status := (leaveRing_status _ ix j).trans (by rw [(Stores.drainStores ..).cell])
  have h3 : (s3.cell j).status = (s.cell j).status := by rw [State.setCell_cell, if_neg h]; exact h1
  split <;> exact h3

theorem modDie_tasks (s : State) (die : Nat) {f : Die → Die} (hf : ∀ d, (f d).tasks = d.tasks) (j : Nat) :
    ((s.modDie die f).die j).tasks = (s.die j).tasks := by
  rw [State.modDie_die]
  split
  next h => subst h; exact hf _
  next => rfl

theorem freeCell_tasks (s : State) (ix j : Nat) : ((freeCell s ix).die j).tasks = (s.die j).tasks := by
  unfold freeCell
  extract_lets die c s1 s2 s3
  have h1 : (s1.die j).tasks = (s.die j).tasks :=
    (moveClaims_tasks ..).trans ((leaveRing_tasks ..).trans ((Stores.drainStores ..).tasks j))
  have h2 : (s2.die j).tasks = (s1.die j).tasks := modDie_tasks s1 die (by intro d; rfl) j
  have h3 : (s3.die j).tasks = (s.die j).tasks := h2.trans h1
  split
  · exact h3
  · exact Eq.trans (modDie_tasks s3 die (by intro d; rfl) j) h3

/-! The end of a task (R36, R242, R244). -/

/-- No cell but one that has become idle has another status. -/
structure Frees (s t : State) : Prop where
  cell : ∀ j, (t.cell j).status = (s.cell j).status ∨ (t.cell j).status = .idle

namespace Frees
variable {s t u : State}

theorem of_status (h : ∀ j, (t.cell j).status = (s.cell j).status) : Frees s t := ⟨fun j => .inl (h j)⟩

theorem trans (h : Frees s t) (k : Frees t u) : Frees s u := ⟨fun j => (k.cell j).elim (fun e => e ▸ h.cell j) .inr⟩

/-- A cell that does not run is not set running. -/
theorem not_running (h : Frees s t) {j : Nat} (hj : (s.cell j).status ≠ .running) : (t.cell j).status ≠ .running := by
  rcases h.cell j with e | e
  · rw [e]; exact hj
  · rw [e]; decide

theorem freeCell (s : State) (ix : Nat) : Frees s (freeCell s ix) := by
  refine ⟨fun j => ?_⟩
  by_cases h : j = ix
  · subst h; exact .inr (freeCell_idle s j)
  · exact .inl (freeCell_status s h)

theorem freeCells (s : State) (l : List Nat) : Frees s (freeCells s l) := by
  induction l generalizing s with
  | nil => exact .of_status fun _ => rfl
  | cons ix l ih => exact (freeCell s ix).trans (ih _)

theorem dropStowed (s : State) (l : List Stowed) : Frees s (dropStowed s l) := by
  induction l generalizing s with
  | nil => exact .of_status fun _ => rfl
  | cons x l ih =>
    refine trans ?_ (ih _)
    exact .of_status fun j => congrArg Cell.status ((Stores.drainStores s x.cell x.ctx.ops x.ctx.ops).cell j)

theorem purgeDies (s : State) (h : Word) (T : Task) (n : Nat) : Frees s (purgeDies s h T n) := by
  induction n generalizing s with
  | zero => exact .of_status fun _ => rfl
  | succ n ih =>
    refine trans ?_ (ih _)
    exact ⟨(dropStowed s _).cell⟩

theorem setTask (s : State) (h : Word) (T : Task) : Frees s (setTask s h T) := .of_status fun _ => rfl

theorem endTask (s : State) (h : Word) (T : Task) (st : TaskState) : Frees s (endTask s h T st) := by
  dsimp only [Machine.endTask]
  exact trans ((freeCells s _).trans (purgeDies _ h T 8)) (setTask ..)

theorem failAll (s : State) (n : Nat) (l : List (Word × Word)) : Frees s (failAll s n l) := by
  induction n generalizing s l with
  | zero => cases l <;> exact .of_status fun _ => rfl
  | succ n ih =>
    cases l with
    | nil => exact .of_status fun _ => rfl
    | cons x rest =>
      obtain ⟨h, cause⟩ := x
      unfold Machine.failAll
      split
      · split
        · exact trans (trans (endTask s h _ _) (of_status (Records.appendRecord ..).status)) (ih _ _)
        · exact ih _ _
      · exact ih _ _

theorem failTask (s : State) (h : Word) : Frees s (failTask s h) := by
  unfold Machine.failTask
  split
  · split
    · exact .of_status fun _ => rfl
    · exact trans (endTask ..) (failAll ..)
  · exact .of_status fun _ => rfl

end Frees

/-- A task that has ended does not fail. -/
theorem failTask_final {s : State} {h : Word} {T : Task} (ht : taskOf s h = some T) (hf : T.state.isFinal = true) : failTask s h = s := by
  simp [failTask, ht, hf]

/-- A task without successors that fails has its record failed. -/
theorem failTask_failed {s : State} {h : Word} {T : Task} (ht : taskOf s h = some T) (hf : T.state.isFinal = false) (hs : T.succs = []) :
    ∃ V, taskOf (failTask s h) h = some V ∧ V.state = .failed := by
  have he : failTask s h = endTask s h T .failed := by simp [failTask, ht, hf, hs, failAll]
  rw [he]
  exact ⟨_, taskOf_setTask TaskState.noConfusion (taskOf_some ht).2, rfl⟩

/-! A severed home at `end` (R33, R255, R312). -/

theorem Cell.discardAll_handle (c : Cell) (cycle : Nat) (l : List MemOp) : (c.discardAll cycle l).handle = c.handle := by
  have hf (c : Cell) (l : List MemOp) : (l.foldl (fun c o => c.discard o) c).handle = c.handle := by
    induction l generalizing c with
    | nil => rfl
    | cons o l ih =>
      refine (ih _).trans ?_
      dsimp only [Cell.discard, Cell.finishWord]
      repeat' split
      all_goals rfl
  unfold Cell.discardAll
  split
  · rfl
  · exact hf _ _

/-- A release that finds a severed home leaves the strand's handle. -/
theorem releaseOf_severed_handle {s t : State} {ix scope : Nat} {covers : MemOp → Bool} {v : Word}
    (h : releaseOf s ix scope covers = .severed t v) : (t.cell ix).handle = (s.cell ix).handle := by
  unfold releaseOf releaseUnder at h
  split at h
  · cases h
  · cases h
  next o os _ =>
    dsimp only at h
    split at h
    · cases h
      change ((s.modCell ix (fun c => c.discardAll s.cycle (o :: os))).cell ix).handle = _
      rw [State.modCell_cell_self]
      exact Cell.discardAll_handle ..
    · cases h

/-- A strand whose fault has its record and whose cell has a slot keeps its task. -/
theorem stopWith_tasks {s : State} {ix : Nat} {x : FaultRecord}
    (hs : ((appendRecord s (recordDie s ix) x).die (dieOfCell ix)).reserved.any (fun y => y.1 == ix) = true
      ∨ freeSlots ((appendRecord s (recordDie s ix) x).die (dieOfCell ix)) (dieOfCell ix) s.cycle ≠ []) (j : Nat) :
    ((stopWith s ix x).die j).tasks = (s.die j).tasks := by
  refine Eq.trans ?_ ((Records.appendRecord s (recordDie s ix) x).tasks j)
  cases hr : ((appendRecord s (recordDie s ix) x).die (dieOfCell ix)).reserved.any (fun y => y.1 == ix) with
  | true => rw [stopWith_reserved hr]; rfl
  | false =>
    obtain ⟨k, hk⟩ := stopWith_free hr (hs.resolve_left (by rw [hr]; exact Bool.false_ne_true))
    rw [hk, State.setDie_die]
    split
    next h => subst h; rfl
    next => rfl

/-- A strand that has stopped does not run. -/
theorem stopWith_not_running {s : State} {ix : Nat} (h : isCmd ix = false) (x : FaultRecord) :
    ((stopWith s ix x).cell ix).status ≠ .running := by
  by_cases hs : ((appendRecord s (recordDie s ix) x).die (dieOfCell ix)).reserved.any (fun y => y.1 == ix) = true
      ∨ freeSlots ((appendRecord s (recordDie s ix) x).die (dieOfCell ix)) (dieOfCell ix) s.cycle ≠ []
  · rw [(stopWith_halts h hs).1]
    exact CellStatus.noConfusion
  · simp only [not_or, Bool.not_eq_true, Classical.not_not] at hs
    rw [stopWith_full hs.1 hs.2, freeCell_idle]
    exact CellStatus.noConfusion

/-- The task of a strand that has stopped fails, whether or not it had to leave its cell. -/
theorem stopWith_failTask {s : State} {ix : Nat} (hx : isCmd ix = false) (x : FaultRecord) {T : Task}
    (ht : taskOf s (s.cell ix).handle = some T) (hf : T.state.isFinal = false) (hn : T.succs = []) :
    ∃ V, taskOf (failTask (stopWith s ix x) (s.cell ix).handle) (s.cell ix).handle = some V ∧ V.state = .failed := by
  have hr := Records.appendRecord s (recordDie s ix) x
  by_cases hs : ((appendRecord s (recordDie s ix) x).die (dieOfCell ix)).reserved.any (fun y => y.1 == ix) = true
      ∨ freeSlots ((appendRecord s (recordDie s ix) x).die (dieOfCell ix)) (dieOfCell ix) s.cycle ≠ []
  · exact failTask_failed ((taskOf_congr (stopWith_tasks hs) _).trans ht) hf hn
  · simp only [not_or, Bool.not_eq_true, Classical.not_not] at hs
    have hh : (((appendRecord s (recordDie s ix) x).modCell ix (stopCell x)).cell ix).handle = (s.cell ix).handle := by
      rw [State.modCell_cell_self, hr.strandCell hx]; rfl
    rw [stopWith_full hs.1 hs.2, hh]
    obtain ⟨V, hV, hVs⟩ := failTask_failed (s := (appendRecord s (recordDie s ix) x).modCell ix (stopCell x))
      ((taskOf_congr hr.tasks _).trans ht) hf hn
    have hV' := (taskOf_congr (freeCell_tasks _ ix) _).trans hV
    exact ⟨V, by rw [failTask_final hV' (by rw [hVs]; rfl)]; exact hV', hVs⟩

theorem stopAtEnd_room {s : State} {ix : Nat} (h : recordRoom s (recordDie s ix) = true) (v : Word) :
    stopAtEnd s ix v = failTask (stopWith { s with nextId := s.nextId + 1 } ix
      (recordOf s ix 0 (faultWord 0 (codeNum .severed) false) v (offsetOf (s.cell ix) 0))) (s.cell ix).handle := if_pos h

theorem stopAtEnd_noRoom {s : State} {ix : Nat} (h : recordRoom s (recordDie s ix) = false) (v : Word) :
    stopAtEnd s ix v = awaitRoom { s with nextId := s.nextId + 1 } ix
      ⟨recordOf s ix 0 (faultWord 0 (codeNum .severed) false) v (offsetOf (s.cell ix) 0), none, true⟩ :=
  if_neg (by rw [h]; exact Bool.false_ne_true)

end Sys2Proof.Machine

namespace Sys2Proof.Machine
open Sys2Proof

/-! The strands of a share that complete (R21, R33, R35). -/

section
variable {u : State} {h : Word} {T : Task} (die p : Nat)

/-- A strand that is not the last of its point leaves the count of the others. -/
theorem countDone_more {n : Nat} (ht : taskOf u h = some T) (hn : lookup 0 T.left p = n + 1) (hp : n ≠ 0) :
    taskOf (countDone u die h p) h = some { T with left := insertAt T.left p n } := by
  obtain ⟨hf, hg⟩ := taskOf_some ht
  have hc : countDone u die h p = setTask u h { T with left := insertAt T.left p n } := by
    simp [countDone, ht, hn, hp]
  rw [hc]
  exact taskOf_setTask hf hg

/-- The last strand of the last point completes the task. -/
theorem countDone_last (ht : taskOf u h = some T) (hn : lookup 0 T.left p = 1) (hl : (insertAt T.left p 0).any (fun e => e.2 != 0) = false) :
    ∃ V, taskOf (countDone u die h p) h = some V ∧ V.state = .complete ∧ V.final = u.cycle
      ∧ V.dcomp = T.dcomp ||| BitVec.ofNat 8 (2 ^ (die % 8)) ∧ V.count = T.count := by
  have hg := (taskOf_some ht).2
  refine ⟨{ T with
    left := insertAt T.left p 0, dcomp := T.dcomp ||| BitVec.ofNat 8 (2 ^ (die % 8)), state := .complete, final := u.cycle
    request := 0, stowed := false }, ?_, rfl, rfl, rfl, rfl⟩
  simp only [countDone, ht, hn, Nat.sub_self, lookup_insertAt_self, hl, ne_eq, not_true_eq_false, if_false, Bool.false_eq_true]
  exact taskOf_setTask TaskState.noConfusion hg

/-- The last strand of a point, while another has strands left, completes that share alone. -/
theorem countDone_share (ht : taskOf u h = some T) (hn : lookup 0 T.left p = 1) (hl : (insertAt T.left p 0).any (fun e => e.2 != 0) = true) :
    ∃ V, taskOf (countDone u die h p) h = some V ∧ V.state = T.state ∧ V.dcomp = T.dcomp ||| BitVec.ofNat 8 (2 ^ (die % 8)) := by
  obtain ⟨hf, hg⟩ := taskOf_some ht
  refine ⟨{ T with left := insertAt T.left p 0, dcomp := T.dcomp ||| BitVec.ofNat 8 (2 ^ (die % 8)) }, ?_, rfl, rfl⟩
  simp only [countDone, ht, hn, Nat.sub_self, lookup_insertAt_self, hl, ne_eq, not_true_eq_false, if_false, if_true]
  exact taskOf_setTask hf hg
end

/-! Victims of a class-0 head (R250). -/

/-- The cells of a list of victims. -/
abbrev victimCells (vs : List Victim) : Nat := (vs.map (·.cells)).sum

theorem prefixFor_none_iff (n : Nat) (l : List Victim) : prefixFor n l = none ↔ victimCells l < n := by
  induction l generalizing n with
  | nil => cases n <;> simp [prefixFor, victimCells]
  | cons v vs ih =>
    have hv := ih (n - v.cells)
    simp only [prefixFor, victimCells, List.map_cons, List.sum_cons] at *
    split
    next h => simp [h]
    next h =>
      cases hp : prefixFor (n - v.cells) vs with
      | none => simp [hp] at hv ⊢; omega
      | some r => simp [hp] at hv ⊢; omega

theorem prefixFor_some {n : Nat} {l vs : List Victim} (h : prefixFor n l = some vs) :
    vs <+: l ∧ n ≤ victimCells vs ∧ ∀ ws, ws <+: l → n ≤ victimCells ws → vs.length ≤ ws.length := by
  induction l generalizing n vs with
  | nil =>
    simp only [prefixFor] at h
    split at h
    next hn => cases h; exact ⟨List.prefix_refl _, by omega, fun _ _ _ => Nat.zero_le _⟩
    next => cases h
  | cons v l ih =>
    simp only [prefixFor] at h
    split at h
    next hn => cases h; exact ⟨List.nil_prefix, by omega, fun _ _ _ => Nat.zero_le _⟩
    next hn =>
      split at h
      next r hr =>
        cases h
        obtain ⟨hp, hc, hm⟩ := ih hr
        refine ⟨List.cons_prefix_cons.2 ⟨rfl, hp⟩, by simp only [victimCells, List.map_cons, List.sum_cons] at *; omega, ?_⟩
        intro ws hws hn'
        cases ws with
        | nil => simp only [victimCells, List.map_nil, List.sum_nil] at hn'; omega
        | cons w ws =>
          obtain ⟨rfl, hws'⟩ := List.cons_prefix_cons.1 hws
          have := hm ws hws' (by simp only [victimCells, List.map_cons, List.sum_cons] at *; omega)
          simpa using this
      next => cases h

/-- Victim v is pre-empted no later than w: by class from 3 down, then the latest dispatch first. -/
def Victim.leads (v w : Victim) : Prop := w.cls < v.cls ∨ (w.cls = v.cls ∧ w.since ≤ v.since)

theorem mem_insertVictim {v x : Victim} {l : List Victim} (h : x ∈ insertVictim v l) : x = v ∨ x ∈ l := by
  induction l with
  | nil => exact .inl (List.mem_singleton.1 h)
  | cons w ws ih =>
    simp only [insertVictim] at h
    split at h
    · exact List.mem_cons.1 h
    · cases h with
      | head => exact .inr (.head _)
      | tail _ h => exact (ih h).imp_right (.tail _)

theorem insertVictim_ordered {v : Victim} {l : List Victim} (h : l.Pairwise Victim.leads) : (insertVictim v l).Pairwise Victim.leads := by
  induction l with
  | nil => exact List.pairwise_singleton _ v
  | cons w ws ih =>
    obtain ⟨hw, hs⟩ := List.pairwise_cons.1 h
    simp only [insertVictim]
    split
    next hv =>
      have hvw : v.leads w := hv.imp_right (fun ⟨a, b⟩ => ⟨a, Nat.le_of_lt b⟩)
      refine List.pairwise_cons.2 ⟨fun x hx => ?_, h⟩
      cases hx with
      | head => exact hvw
      | tail _ hx => have := hw x hx; unfold Victim.leads at *; omega
    next hv =>
      refine List.pairwise_cons.2 ⟨fun x hx => ?_, ih hs⟩
      rcases mem_insertVictim hx with rfl | hx
      · unfold Victim.leads; omega
      · exact hw x hx

/-- The victims of a die stand in their order, are of class 1 or more, and none of their shares leaves already. -/
theorem victims_spec (s : State) (die : Nat) : (victims s die).Pairwise Victim.leads
    ∧ ∀ v ∈ victims s die, 1 ≤ v.cls ∧ shareLeaving s die v.handle = false := by
  unfold victims
  extract_lets here handles
  refine List.foldlRecOn (motive := fun (vs : List Victim) => vs.Pairwise Victim.leads ∧ ∀ v ∈ vs, 1 ≤ v.cls ∧ shareLeaving s die v.handle = false)
    handles _ ⟨List.Pairwise.nil, fun _ h => by cases h⟩ (fun vs ⟨ho, hv⟩ h _ => ?_)
  dsimp only
  split
  · exact ⟨ho, hv⟩
  next e es hes =>
    refine ⟨insertVictim_ordered ho, fun v hm => ?_⟩
    rcases mem_insertVictim hm with rfl | hm
    · have he : e ∈ here.filter (fun e => e.2.handle == h) := hes ▸ List.mem_cons_self
      obtain ⟨hh, hn⟩ := List.mem_filter.1 he
      obtain ⟨-, hq⟩ := List.mem_filter.1 hh
      have hn : e.2.handle = h := eq_of_beq hn
      simp only [Bool.and_eq_true, decide_eq_true_eq, Bool.not_eq_true'] at hq
      exact ⟨hq.1.2, hn ▸ hq.2⟩
    · exact hv v hm

/-! The head of the ready pool (R246, R247). -/

/-- The better of the best entry so far and the next. -/
def betterEntry (s : State) (die : Nat) (best : Option ReadyEntry) (e : ReadyEntry) : Option ReadyEntry :=
  if passedOver s die e then best
  else match best with
    | none => some e
    | some b => if entryBefore e b then some e else some b

theorem headEntry_eq (s : State) (die : Nat) : headEntry s die = (s.die die).ready.foldl (betterEntry s die) none := rfl

theorem entryBefore_iff (a b : ReadyEntry) : entryBefore a b = true ↔ a.cls < b.cls ∨ (a.cls = b.cls ∧ (a.time < b.time ∨ (a.time = b.time ∧
    (handleDie a.handle < handleDie b.handle ∨ (handleDie a.handle = handleDie b.handle ∧ hIndex a.handle < hIndex b.handle))))) := by
  simp [entryBefore]

theorem entryBefore_irrefl (a : ReadyEntry) : entryBefore a a = false := by
  rw [← Bool.not_eq_true, entryBefore_iff]; omega

/-- What is not before an entry is not before one that comes before it, or with it. -/
theorem entryBefore_false_trans {a b c : ReadyEntry} (h : entryBefore a b = false) (k : entryBefore b c = false) : entryBefore a c = false := by
  rw [← Bool.not_eq_true, entryBefore_iff] at *; omega

theorem entryBefore_asymm {a b : ReadyEntry} (h : entryBefore a b = true) : entryBefore b a = false := by
  rw [← Bool.not_eq_true]; rw [entryBefore_iff] at *; omega

/-- What the better of two entries is, where the next entry is not passed over. -/
theorem betterEntry_open {s : State} {die : Nat} {y : ReadyEntry} (h : passedOver s die y = false) (best : Option ReadyEntry) :
    ∃ b, betterEntry s die best y = some b ∧ (b = y ∨ best = some b) ∧ entryBefore y b = false
      ∧ ∀ a, best = some a → entryBefore a b = false := by
  unfold betterEntry
  rw [h]
  cases best with
  | none => exact ⟨y, rfl, .inl rfl, entryBefore_irrefl y, fun _ ha => by cases ha⟩
  | some a =>
    cases ha : entryBefore y a with
    | true => exact ⟨y, by simp [ha], .inl rfl, entryBefore_irrefl y, fun _ e => by cases e; exact entryBefore_asymm ha⟩
    | false => exact ⟨a, by simp [ha], .inr rfl, ha, fun _ e => by cases e; exact entryBefore_irrefl a⟩

/-- The best of a list of entries and of the best so far. -/
theorem foldl_betterEntry {s : State} {die : Nat} {l : List ReadyEntry} {best : Option ReadyEntry} {e : ReadyEntry}
    (h : l.foldl (betterEntry s die) best = some e) :
    (best = some e ∨ (e ∈ l ∧ passedOver s die e = false)) ∧ (∀ a, best = some a → entryBefore a e = false)
      ∧ ∀ x ∈ l, passedOver s die x = false → entryBefore x e = false := by
  induction l generalizing best with
  | nil => exact ⟨.inl h, fun b hb => by cases hb.symm.trans h; exact entryBefore_irrefl _, fun _ hx => by cases hx⟩
  | cons y l ih =>
    obtain ⟨hm, hb, hl⟩ := ih h
    cases hy : passedOver s die y with
    | true =>
      have hbest : betterEntry s die best y = best := if_pos hy
      rw [hbest] at hm hb
      refine ⟨hm.imp_right (fun ⟨a, b⟩ => ⟨.tail _ a, b⟩), hb, fun x hx hp => ?_⟩
      cases hx with
      | head => exact absurd (hy.symm.trans hp) (by decide)
      | tail _ hx => exact hl x hx hp
    | false =>
      obtain ⟨b, hby, hor, hyb, hab⟩ := betterEntry_open hy best
      have hbe := hb b hby
      refine ⟨?_, fun a ha => entryBefore_false_trans (hab a ha) hbe, fun x hx hp => ?_⟩
      · rcases hm with hm | ⟨hm, hp⟩
        · cases hby.symm.trans hm
          exact hor.elim (fun e => .inr ⟨e ▸ .head _, e ▸ hy⟩) .inl
        · exact .inr ⟨.tail _ hm, hp⟩
      · cases hx with
        | head => exact entryBefore_false_trans hyb hbe
        | tail _ hx => exact hl x hx hp

/-- The head of the ready pool is one of its entries, not passed over, and no other such entry comes before it. -/
theorem headEntry_first {s : State} {die : Nat} {e : ReadyEntry} (h : headEntry s die = some e) :
    e ∈ (s.die die).ready ∧ passedOver s die e = false
      ∧ ∀ x ∈ (s.die die).ready, passedOver s die x = false → entryBefore x e = false := by
  obtain ⟨hm, -, hl⟩ := foldl_betterEntry h
  obtain ⟨hr, hp⟩ := hm.resolve_left (fun hn => by cases hn)
  exact ⟨hr, hp, hl⟩

/-! The tables of a strand that starts (R348, R349). -/

namespace Counts
variable {s t u : State}

theorem of_ladleRead {die : Nat} {w : Word} {bs : List Byte} (h : ladleRead s die w = .ok (bs, t)) : Counts s t := by
  unfold ladleRead at h
  split at h
  · cases h
  split at h
  · cases h
  · cases h; exact noteEcc ..

theorem of_readRun {die : Nat} {w : Word} {n : Nat} {bs : List Byte} (h : readRun die w n s = some (bs, t)) : Counts s t := by
  induction n generalizing s w bs with
  | zero => cases h; exact refl _
  | succ n ih =>
    simp only [readRun] at h
    split at h
    next hr =>
      obtain ⟨x, hx, he⟩ := Option.map_eq_some_iff.1 h
      cases he
      exact (of_ladleRead hr).trans (ih hx)
    next => cases h

theorem kernelBytes (die : Nat) (w : Word) (n : Nat) (s : State) : Counts s (kernelBytes die w n s).2 := by
  unfold Machine.kernelBytes
  split
  next h => exact of_readRun h
  next => exact refl s

theorem loadCurves (die : Nat) (k : Word) (present : Byte) (s : State) (l : List Nat) : Counts s (loadCurves die k present s l).2 := by
  induction l generalizing s with
  | nil => exact refl s
  | cons n l ih =>
    unfold Machine.loadCurves
    split
    · exact (kernelBytes ..).trans (ih _)
    · exact ih s

end Counts

theorem find?_map_pair {α : Type} (f : Nat → α) {l : List Nat} {n : Nat} (h : n ∈ l) : find? (l.map (fun k => (k, f k))) n = some (f n) := by
  induction l with
  | nil => cases h
  | cons k l ih =>
    by_cases hk : k = n
    · subst hk; simp [find?]
    · simp [find?, hk, ih ((List.mem_cons.1 h).resolve_left (Ne.symm hk))]

/-- Loading the tables of a strand changes its cell's tables alone, and event counters. -/
theorem loadTables_eq (s : State) (ix : Nat) : ∃ t curves, Counts s t ∧ loadTables s ix = t.modCell ix (fun c => { c with
    formats := (List.range 16).map (fun n => (n, (capAt (kernelBytes (dieOfCell ix) ((s.cell ix).kernel + 0xC0) 8 s).1 (16 * n) : BitVec 128)))
    curves := curves }) := by
  let a := kernelBytes (dieOfCell ix) ((s.cell ix).kernel + 0xC0) 8 s
  let b := kernelBytes (dieOfCell ix) (s.cell ix).kernel 1 a.2
  let c := loadCurves (dieOfCell ix) (s.cell ix).kernel (byteAt b.1 0x10) b.2 (List.range 8)
  exact ⟨c.2, c.1, ((Counts.kernelBytes ..).trans (.kernelBytes ..)).trans (.loadCurves ..), rfl⟩

/-- A strand starts once its cycle has come: its cell runs, with the tables of its kernel. -/
theorem execStrandStart_starts {cid : CellId} {s : State} (hs : (s.cell (cellIx cid)).status = .starting)
    (hc : (s.cell (cellIx cid)).startAt ≤ s.cycle) :
    ∃ t, exec (.strandStart cid) s = .next t ∧ t.mem = s.mem ∧ (∀ j, j ≠ cellIx cid → t.cell j = s.cell j)
      ∧ { t.cell (cellIx cid) with formats := (s.cell (cellIx cid)).formats, curves := (s.cell (cellIx cid)).curves }
          = { s.cell (cellIx cid) with status := .running }
      ∧ ∀ fb, readRun (dieOfCell (cellIx cid)) ((s.cell (cellIx cid)).kernel + 0xC0) 8
            (s.setCell (cellIx cid) { s.cell (cellIx cid) with status := .running }) = some fb →
          ∀ n, n < 16 → lookup 0 (t.cell (cellIx cid)).formats n = capAt fb.1 (16 * n) := by
  generalize hix : cellIx cid = ix at *
  obtain ⟨t, curves, ht, he⟩ := loadTables_eq (s.setCell ix { s.cell ix with status := .running }) ix
  have hx : exec (.strandStart cid) s = .next (loadTables (s.setCell ix { s.cell ix with status := .running }) ix) := by
    subst hix
    exact if_neg (by simp [hs, hc])
  refine ⟨_, hx, ?_, fun j hj => ?_, ?_, fun fb hfb n hn => ?_⟩
  all_goals rw [he]
  · exact ht.mem
  · rw [State.modCell_cell, if_neg hj, ht.cell, State.setCell_cell, if_neg hj]
  · rw [State.modCell_cell_self, ht.cell, State.setCell_cell_self]
  · rw [State.modCell_cell_self, State.setCell_cell_self, kernelBytes, hfb]
    exact congrArg (Option.getD · 0) (find?_map_pair _ (List.mem_range.2 hn))

/-! The completion of a strand (R33, R34, R312). -/

/-- A strand whose release finds a severed home stops, and its task fails, once its record has room. -/
theorem stopAtEnd_spec {t : State} {ix : Nat} (hx : isCmd ix = false) (v : Word) :
    (recordRoom t (recordDie t ix) = false → ∃ x, ((stopAtEnd t ix v).cell ix).status = .held
      ∧ ((stopAtEnd t ix v).cell ix).stuck = some ⟨x, none, true⟩ ∧ x.value = v ∧ ∀ j, j ≠ ix → (stopAtEnd t ix v).cell j = t.cell j)
    ∧ (recordRoom t (recordDie t ix) = true → ((stopAtEnd t ix v).cell ix).status ≠ .running
      ∧ ∀ T, taskOf t (t.cell ix).handle = some T → T.state.isFinal = false → T.succs = [] →
          ∃ V, taskOf (stopAtEnd t ix v) (t.cell ix).handle = some V ∧ V.state = .failed) := by
  constructor
  · intro h
    rw [stopAtEnd_noRoom h]
    refine ⟨recordOf t ix 0 (faultWord 0 (codeNum .severed) false) v (offsetOf (t.cell ix) 0), ?_, ?_, rfl, fun j hj => ?_⟩
    · rw [awaitRoom, State.modCell_cell_self]
    · rw [awaitRoom, State.modCell_cell_self]
    · rw [awaitRoom, State.modCell_cell, if_neg hj]; rfl
  · intro h
    rw [stopAtEnd_room h]
    exact ⟨(Frees.failTask ..).not_running (stopWith_not_running hx _),
      fun T ht hf hn => stopWith_failTask (s := { t with nextId := t.nextId + 1 }) hx _ ht hf hn⟩

/-- STRAND_COMPLETE does nothing while the strand is not at rest or a copy of it is under way. -/
theorem execStrandComplete_waits {cid : CellId} {s : State} (h : isCmd (cellIx cid) = true ∨ atRest s (s.cell (cellIx cid)) = false
      ∨ ∃ k ∈ (s.die (dieOfCell (cellIx cid))).copies, k.cell = cellIx cid ∧ k.orphan = false) :
    exec (.strandComplete cid) s = .next s := by
  refine if_pos ?_
  simp only [Bool.or_eq_true, Bool.not_eq_true', List.any_eq_true, Bool.and_eq_true, beq_iff_eq]
  exact or_assoc.2 h

/-- Once it is at rest and no copy of it is under way, its release decides. -/
theorem execStrandComplete_release {cid : CellId} {s : State} (hx : isCmd (cellIx cid) = false)
    (hr : atRest s (s.cell (cellIx cid)) = true)
    (hk : ∀ k ∈ (s.die (dieOfCell (cellIx cid))).copies, k.cell = cellIx cid → k.orphan = true) :
    execStrandComplete cid s =
      match releaseOf s (cellIx cid) (taskScope s (s.cell (cellIx cid)).handle) (fun o => !isRead s o) with
      | .wait => .next s
      | .severed t p => .next (stopAtEnd t (cellIx cid) p)
      | .done t => .next (finishStrand t (cellIx cid)) := by
  refine (if_neg ?_).trans ?_
  · simp only [Bool.or_eq_true, Bool.not_eq_true', List.any_eq_true, Bool.and_eq_true, beq_iff_eq, hx, hr]
    rintro ((h | h) | ⟨k, hm, hc, ho⟩)
    · cases h
    · cases h
    · rw [hk k hm hc] at ho; cases ho
  · cases releaseOf s (cellIx cid) (taskScope s (s.cell (cellIx cid)).handle) (fun o => !isRead s o) <;> rfl

end Sys2Proof.Machine

namespace Sys2Proof.Machine
open Sys2Proof

/-! What a put changes among the entries of a keyed list. -/

section
variable {α : Type} {m : SMap α} {k : Nat} {x : α}

theorem find?_mem {y : α} (h : find? m k = some y) : (k, y) ∈ m := by
  induction m with
  | nil => cases h
  | cons e r ih =>
    obtain ⟨j, z⟩ := e
    simp only [find?] at h
    split at h
    next hj => cases h; subst hj; exact .head _
    next => exact .tail _ (ih h)

theorem mem_insertAt_self (m : SMap α) (k : Nat) (x : α) : (k, x) ∈ insertAt m k x :=
  find?_mem (find?_insertAt_self m k x)

theorem mem_of_mem_insertAt {e : Nat × α} (h : e ∈ insertAt m k x) : e = (k, x) ∨ e ∈ m := by
  induction m with
  | nil => exact .inl (List.mem_singleton.1 h)
  | cons f r ih =>
    obtain ⟨j, y⟩ := f
    simp only [insertAt] at h
    split at h
    · exact List.mem_cons.1 h
    split at h
    · exact (List.mem_cons.1 h).imp_right (.tail _)
    · cases h with
      | head => exact .inr (.head _)
      | tail _ h => exact (ih h).imp_right (.tail _)

/-- An entry of another key stays where a value is put. -/
theorem mem_insertAt_of_ne {e : Nat × α} (x : α) (he : e ∈ m) (hk : e.1 ≠ k) : e ∈ insertAt m k x := by
  induction m with
  | nil => cases he
  | cons f r ih =>
    obtain ⟨j, y⟩ := f
    simp only [insertAt]
    split
    · exact .tail _ he
    split
    next hj =>
      cases he with
      | head => exact absurd hj.symm hk
      | tail _ hr => exact .tail _ hr
    next =>
      cases he with
      | head => exact .head _
      | tail _ hr => exact .tail _ (ih hr)

/-- In a map whose keys rise, what a value is put beside has another key. -/
theorem mem_insertAt_rising {e : Nat × α} (hm : m.Pairwise (fun a b => a.1 < b.1))
    (he : e ∈ insertAt m k x) : e = (k, x) ∨ (e ∈ m ∧ e.1 ≠ k) := by
  induction m with
  | nil => exact .inl (List.mem_singleton.1 he)
  | cons f r ih =>
    obtain ⟨j, y⟩ := f
    obtain ⟨hj, hr⟩ := List.pairwise_cons.1 hm
    simp only [insertAt] at he
    split at he
    next hlt =>
      cases he with
      | head => exact .inl rfl
      | tail _ hr' =>
        refine .inr ⟨hr', ?_⟩
        cases hr' with
        | head => exact Nat.ne_of_gt hlt
        | tail _ hr' => exact Nat.ne_of_gt (Nat.lt_trans hlt (hj _ hr'))
    next hlt =>
      split at he
      next hk =>
        cases he with
        | head => exact .inl rfl
        | tail _ hr' => exact .inr ⟨.tail _ hr', Nat.ne_of_gt (hk ▸ hj _ hr')⟩
      next hk =>
        cases he with
        | head => exact .inr ⟨.head _, fun e => hk e.symm⟩
        | tail _ hr' => exact (ih hr hr').imp_right (fun ⟨a, b⟩ => ⟨.tail _ a, b⟩)

/-- A put replaces no entry but the one that a lookup finds. -/
theorem mem_insertAt_of_mem {y : α} {e : Nat × α} (hf : find? m k = some y) (h : e ∈ m) : e ∈ insertAt m k x ∨ e = (k, y) := by
  induction m with
  | nil => cases h
  | cons f r ih =>
    obtain ⟨j, z⟩ := f
    simp only [insertAt]
    split
    · exact .inl (.tail _ h)
    split
    next hk =>
      subst hk
      simp only [find?, if_true] at hf
      cases hf
      exact (List.mem_cons.1 h).symm.imp (.tail _) id
    next hk =>
      have hj : ¬ j = k := fun e => hk e.symm
      simp only [find?, if_neg hj] at hf
      cases h with
      | head => exact .inl (.head _)
      | tail _ h => exact (ih hf h).imp_left (.tail _)

/-- Replacing the value that a lookup finds by one of the same kind keeps which keys have a value of that kind. -/
theorem exists_insertAt_iff {y : α} {p : Nat × α → Prop} (hf : find? m k = some y) (hp : p (k, x) ↔ p (k, y)) (j : Nat) :
    (∃ e ∈ insertAt m k x, p e ∧ e.1 = j) ↔ ∃ e ∈ m, p e ∧ e.1 = j := by
  constructor
  · rintro ⟨e, he, hpe, rfl⟩
    rcases mem_of_mem_insertAt he with rfl | he
    · exact ⟨_, find?_mem hf, hp.1 hpe, rfl⟩
    · exact ⟨e, he, hpe, rfl⟩
  · rintro ⟨e, he, hpe, rfl⟩
    rcases mem_insertAt_of_mem (x := x) hf he with he | rfl
    · exact ⟨e, he, hpe, rfl⟩
    · exact ⟨_, mem_insertAt_self m k x, hp.2 hpe, rfl⟩

theorem countP_insertAt_le {p : Nat × α → Bool} (hp : p (k, x) = false) : (insertAt m k x).countP p ≤ m.countP p := by
  induction m with
  | nil => simp [insertAt, hp]
  | cons f r ih =>
    obtain ⟨j, y⟩ := f
    simp only [insertAt]
    split
    · simp [hp]
    split
    · simp only [List.countP_cons, hp, Bool.false_eq_true, if_false]; omega
    · simp only [List.countP_cons]; omega
end

/-! Stow slots (R205, R353). -/

theorem mem_freeSlots {d : Die} {die cycle k : Nat} : k ∈ freeSlots d die cycle ↔
    (∃ e ∈ d.slotsSeen cycle, ∃ r, slotRegion d die e.2 = some (k, r) ∧ r.sheld = false) ∧ ∀ x ∈ d.reserved, x.2 ≠ k := by
  simp only [freeSlots, List.mem_eraseDups, List.mem_filterMap]
  constructor
  · rintro ⟨e, he, h⟩
    split at h
    next j r hr =>
      split at h
      next hc =>
        cases h
        simp only [Bool.and_eq_true, Bool.not_eq_true', List.any_eq_false, beq_iff_eq] at hc
        exact ⟨⟨e, he, r, hr, hc.1⟩, hc.2⟩
      next => cases h
    next => cases h
  · rintro ⟨⟨e, he, r, hr, hs⟩, hn⟩
    refine ⟨e, he, ?_⟩
    have : (!r.sheld && !(d.reserved.any (fun x => x.2 == k))) = true := by
      simp only [hs, Bool.not_false, Bool.true_and, Bool.not_eq_true', List.any_eq_false, beq_iff_eq]
      exact hn
    rw [hr]
    exact if_pos this

theorem nodup_eraseDups (l : List Nat) : l.eraseDups.Nodup := by
  induction hn : l.length using Nat.strongRecOn generalizing l with
  | ind n ih =>
    cases l with
    | nil => exact List.nodup_nil
    | cons a l =>
      rw [List.eraseDups_cons]
      refine List.nodup_cons.2 ⟨fun h => ?_, ih _ ?_ _ rfl⟩
      · have := (List.mem_filter.1 (List.mem_eraseDups.1 h)).2
        simp at this
      · have := List.length_filter_le (fun b => !b == a) l
        simp only [List.length_cons] at hn
        omega

/-- A reservation takes one free slot at the most. -/
theorem freeSlots_reserved (d : Die) (die cycle ix k : Nat) :
    (freeSlots d die cycle).length ≤ (freeSlots { d with reserved := insertAt d.reserved ix k } die cycle).length + 1 := by
  have hsub : (freeSlots d die cycle).erase k ⊆ freeSlots { d with reserved := insertAt d.reserved ix k } die cycle := by
    intro j hj
    have hnd : (freeSlots d die cycle).Nodup := nodup_eraseDups _
    obtain ⟨hjk, hj⟩ := (List.Nodup.mem_erase_iff hnd).1 hj
    obtain ⟨hs, hr⟩ := mem_freeSlots.1 hj
    refine mem_freeSlots.2 ⟨hs, fun x hx => ?_⟩
    rcases mem_of_mem_insertAt hx with rfl | hx
    · exact hjk.symm
    · exact hr x hx
  have hle : ((freeSlots d die cycle).erase k).length ≤ _ := ((nodup_eraseDups _).erase k).length_le_of_subset hsub
  have := List.le_length_erase (a := k) (l := freeSlots d die cycle)
  omega

/-! Halting the strands of shares (R205, R250). -/

/-- A strand's cell once it has been asked to halt. -/
def haltCell (why : StowCause) (c : Cell) : Cell :=
  { c with status := if c.status = .held then .held else .halting, preempt := some why }

theorem canHalt_haltCell (why : StowCause) (c : Cell) : canHalt (haltCell why c) = false := by
  simp [canHalt, haltCell]

theorem canHalt_status {c : Cell} (h : canHalt c = true) : c.status = .running ∨ c.status = .starting ∨ c.status = .held := by
  simp only [canHalt, Bool.and_eq_true, Bool.or_eq_true, beq_iff_eq] at h
  obtain ⟨⟨h, -⟩, -⟩ := h
  exact or_assoc.1 h

/-- A cell that a pre-emption would halt is listed. -/
theorem find?_of_canHalt {s : State} {ix : Nat} (h : canHalt (s.cell ix) = true) : find? s.cells ix = some (s.cell ix) := by
  unfold State.cell lookup at *
  cases hf : find? s.cells ix with
  | some c => rfl
  | none => rw [hf] at h; exact absurd h (by decide)

/-- An entry of the list of cells is one of a share on a die. -/
def inShare (die : Nat) (h : Word) (e : Nat × Cell) : Bool :=
  e.1 / 144 == die && !isCmd e.1 && e.2.status != .idle && e.2.handle == h

theorem mem_shareCells {s : State} {die ix : Nat} {h : Word} :
    ix ∈ shareCells s die h ↔ ∃ e ∈ s.cells, inShare die h e = true ∧ e.1 = ix := by
  simp only [shareCells, List.mem_map, List.mem_filter, and_assoc]
  rfl

theorem die_of_mem_shareCells {s : State} {die ix : Nat} {h : Word} (hm : ix ∈ shareCells s die h) : dieOfCell ix = die := by
  obtain ⟨e, -, he, rfl⟩ := mem_shareCells.1 hm
  simp only [inShare, Bool.and_eq_true, beq_iff_eq] at he
  exact he.1.1.1

theorem slotsNeeded_eq (s : State) (die : Nat) (h : Word) :
    slotsNeeded s die h = s.cells.countP (fun e => canHalt (s.cell e.1) && inShare die h e) := by
  unfold slotsNeeded shareCells
  rw [← List.countP_eq_length_filter, List.countP_map, List.countP_filter]
  rfl

/-- State t is s once the strands of a die that P names, and that could be halted, have been asked to halt, each with a slot reserved for
it. -/
structure Halts (die : Nat) (why : StowCause) (P : Nat → Prop) (s t : State) : Prop where
  mem    : t.mem = s.mem
  cycle  : t.cycle = s.cycle
  rest   : { t.die die with reserved := (s.die die).reserved } = s.die die
  halted : ∀ ix, P ix → canHalt (s.cell ix) = true → t.cell ix = haltCell why (s.cell ix) ∧ (find? (t.die die).reserved ix).isSome = true
  others : ∀ ix, ¬ P ix ∨ canHalt (s.cell ix) = false → t.cell ix = s.cell ix
  kept   : ∀ ix, (find? (s.die die).reserved ix).isSome = true → (find? (t.die die).reserved ix).isSome = true
  shares : ∀ h ix, ix ∈ shareCells t die h ↔ ix ∈ shareCells s die h
  needed : ∀ h, slotsNeeded t die h ≤ slotsNeeded s die h

namespace Halts
variable {die : Nat} {why : StowCause} {P Q : Nat → Prop} {s t u : State}

theorem refl (h : ∀ ix, P ix → canHalt (s.cell ix) = false) : Halts die why P s s where
  mem := rfl
  cycle := rfl
  rest := rfl
  halted ix hp hc := absurd (hc.symm.trans (h ix hp)) Bool.noConfusion
  others _ _ := rfl
  kept _ h := h
  shares _ _ := Iff.rfl
  needed _ := Nat.le_refl _

/-- A strand that cannot be halted cannot be halted later. -/
theorem canHalt_of (h : Halts die why P s t) {ix : Nat} (hc : canHalt (t.cell ix) = true) : canHalt (s.cell ix) = true ∧ ¬ P ix := by
  by_cases hp : P ix
  · cases hs : canHalt (s.cell ix) with
    | true => rw [(h.halted ix hp hs).1, canHalt_haltCell] at hc; cases hc
    | false => rw [h.others ix (.inr hs), hs] at hc; cases hc
  · exact ⟨h.others ix (.inl hp) ▸ hc, hp⟩

theorem trans (h : Halts die why P s t) (k : Halts die why Q t u) : Halts die why (fun ix => P ix ∨ Q ix) s u where
  mem := k.mem.trans h.mem
  cycle := k.cycle.trans h.cycle
  rest := by
    have a := h.rest
    have b := k.rest
    rw [← a, ← b]
  halted ix hpq hc := by
    by_cases hp : P ix
    · obtain ⟨hcell, hres⟩ := h.halted ix hp hc
      have hn : canHalt (t.cell ix) = false := by rw [hcell]; exact canHalt_haltCell ..
      exact ⟨(k.others ix (.inr hn)).trans hcell, k.kept ix hres⟩
    · have hcell := h.others ix (.inl hp)
      obtain ⟨hcell', hres⟩ := k.halted ix (hpq.resolve_left hp) (hcell ▸ hc)
      exact ⟨hcell ▸ hcell', hres⟩
  others ix ho := by
    have hcell : t.cell ix = s.cell ix := h.others ix (ho.imp_left fun hn hp => hn (.inl hp))
    exact (k.others ix (ho.imp (fun hn hq => hn (.inr hq)) (fun hc => hcell ▸ hc))).trans hcell
  kept ix hr := k.kept ix (h.kept ix hr)
  shares w ix := (k.shares w ix).trans (h.shares w ix)
  needed w := Nat.le_trans (k.needed w) (h.needed w)

theorem congr (h : Halts die why P s t) (hpq : ∀ ix, P ix ↔ Q ix) : Halts die why Q s t :=
  (funext fun ix => propext (hpq ix) : P = Q) ▸ h

end Halts

/-- A strand that has been asked to halt still counts to its share. -/
theorem inShare_haltCell {c : Cell} (hc : canHalt c = true) (why : StowCause) (die ix : Nat) (h : Word) :
    inShare die h (ix, haltCell why c) = inShare die h (ix, c) := by
  have h1 : (haltCell why c).status ≠ .idle := by unfold haltCell; dsimp only; split <;> exact CellStatus.noConfusion
  have h2 : c.status ≠ .idle := fun h => by rcases canHalt_status hc with hs | hs | hs <;> cases h.symm.trans hs
  simp only [inShare, bne_iff_ne.2 h1, bne_iff_ne.2 h2]
  rfl

theorem haltStrand_eq {s : State} {ix : Nat} (why : StowCause) (hc : canHalt (s.cell ix) = true)
    (hf : freeSlots (s.die (dieOfCell ix)) (dieOfCell ix) s.cycle ≠ []) :
    ∃ k, haltStrand s ix why = (s.setDie (dieOfCell ix) { s.die (dieOfCell ix) with
      reserved := insertAt (s.die (dieOfCell ix)).reserved ix k }).modCell ix (haltCell why) := by
  obtain ⟨k, hk⟩ := reserveSlot_of_free hf
  refine ⟨k, ?_⟩
  simp only [haltStrand, hc, if_true, beginStow, hk]
  rfl

/-- One strand is asked to halt, and takes one slot of its die at the most. -/
theorem haltStrand_halts {s : State} {die ix : Nat} (why : StowCause) (hd : dieOfCell ix = die) (hc : canHalt (s.cell ix) = true)
    (hf : freeSlots (s.die die) die s.cycle ≠ []) :
    Halts die why (· = ix) s (haltStrand s ix why)
      ∧ (freeSlots (s.die die) die s.cycle).length ≤ (freeSlots ((haltStrand s ix why).die die) die s.cycle).length + 1 := by
  subst hd
  obtain ⟨k, hk⟩ := haltStrand_eq why hc hf
  generalize haltStrand s ix why = t at *
  have hcell (j : Nat) : t.cell j = if j = ix then haltCell why (s.cell ix) else s.cell j := by
    rw [hk, State.modCell_cell]; rfl
  have hcells : t.cells = insertAt s.cells ix (haltCell why (s.cell ix)) := by rw [hk]; rfl
  have hdie : t.die (dieOfCell ix) = { s.die (dieOfCell ix) with reserved := insertAt (s.die (dieOfCell ix)).reserved ix k } := by
    rw [hk]; exact State.setDie_die_self ..
  refine ⟨⟨by rw [hk]; rfl, by rw [hk]; rfl, by rw [hdie], fun j hj _ => ?_, fun j hj => ?_, fun j hj => ?_, fun h j => ?_, fun h => ?_⟩, ?_⟩
  · subst hj
    exact ⟨(hcell j).trans (if_pos rfl), by rw [hdie]; simp⟩
  · refine (hcell j).trans (if_neg fun e => ?_)
    subst e
    exact hj.elim (fun hn => hn rfl) (fun hn => by rw [hc] at hn; cases hn)
  · rw [hdie]
    dsimp only
    rw [find?_insertAt]
    split
    · rfl
    · exact hj
  · rw [mem_shareCells, mem_shareCells, hcells]
    exact exists_insertAt_iff (p := fun e => inShare (dieOfCell ix) h e = true) (find?_of_canHalt hc) (by rw [inShare_haltCell hc]) j
  · rw [slotsNeeded_eq, slotsNeeded_eq, hcells]
    refine Nat.le_trans (countP_insertAt_le ?_) (List.countP_mono_left fun e _ he => ?_)
    · rw [hcell, if_pos rfl, canHalt_haltCell, Bool.false_and]
    · rw [hcell] at he
      split at he
      · rw [canHalt_haltCell, Bool.false_and] at he; cases he
      · exact he
  · rw [hdie]
    exact freeSlots_reserved ..

/-- The strands of a list are asked to halt where slots are free for all of them. -/
theorem haltStrands_halts {s : State} {die : Nat} (why : StowCause) {l : List Nat} (hd : ∀ ix ∈ l, dieOfCell ix = die)
    (hf : l.countP (fun ix => canHalt (s.cell ix)) ≤ (freeSlots (s.die die) die s.cycle).length) :
    Halts die why (· ∈ l) s (haltStrands s why l)
      ∧ (freeSlots (s.die die) die s.cycle).length
          ≤ (freeSlots ((haltStrands s why l).die die) die s.cycle).length + l.countP (fun ix => canHalt (s.cell ix)) := by
  induction l generalizing s with
  | nil => exact ⟨.refl fun _ h => (by cases h), Nat.le_add_right _ _⟩
  | cons ix l ih =>
    have hl : ∀ ix ∈ l, dieOfCell ix = die := fun j hj => hd j (.tail _ hj)
    rw [List.countP_cons] at hf ⊢
    cases hc : canHalt (s.cell ix) with
    | false =>
      rw [hc] at hf
      have hs : haltStrands s why (ix :: l) = haltStrands s why l := by simp only [haltStrands, haltStrand, hc]; rfl
      obtain ⟨hh, hn⟩ := ih hl (by simpa using hf)
      rw [hs]
      exact ⟨((Halts.refl (P := (· = ix)) fun j hj => hj ▸ hc).trans hh).congr fun j => List.mem_cons.symm, by simpa using hn⟩
    | true =>
      simp only [hc, if_true] at hf ⊢
      have h0 : freeSlots (s.die die) die s.cycle ≠ [] := fun e => by rw [e] at hf; simp at hf
      obtain ⟨h1, n1⟩ := haltStrand_halts why (hd ix (.head _)) hc h0
      have hle : l.countP (fun j => canHalt ((haltStrand s ix why).cell j)) ≤ l.countP (fun j => canHalt (s.cell j)) :=
        List.countP_mono_left fun j _ hj => (h1.canHalt_of hj).1
      obtain ⟨h2, n2⟩ := ih hl (s := haltStrand s ix why) (by rw [h1.cycle]; omega)
      rw [h1.cycle] at n2
      exact ⟨(h1.trans h2).congr fun j => List.mem_cons.symm, by simp only [haltStrands]; omega⟩

/-- The shares of a list of victims are pre-empted. -/
def haltVictims (s : State) (die : Nat) (vs : List Victim) : State :=
  vs.foldl (fun s v => haltStrands s .classPreemption (shareCells s die v.handle)) s

/-- The slots that pre-empting a list of victims needs. -/
abbrev victimSlots (s : State) (die : Nat) (vs : List Victim) : Nat := (vs.map (fun v => slotsNeeded s die v.handle)).sum

theorem sum_map_le {α : Type} {f g : α → Nat} (l : List α) (h : ∀ a, f a ≤ g a) : (l.map f).sum ≤ (l.map g).sum := by
  induction l with
  | nil => exact Nat.le_refl _
  | cons a l ih => simpa only [List.map_cons, List.sum_cons] using Nat.add_le_add (h a) ih

/-- The shares of a list of victims are asked to halt where slots are free for all their strands. -/
theorem haltVictims_halts {s : State} {die : Nat} {vs : List Victim}
    (hf : victimSlots s die vs ≤ (freeSlots (s.die die) die s.cycle).length) :
    Halts die .classPreemption (fun ix => ∃ v ∈ vs, ix ∈ shareCells s die v.handle) s (haltVictims s die vs) := by
  induction vs generalizing s with
  | nil => exact .refl fun _ ⟨_, h, _⟩ => (by cases h)
  | cons v vs ih =>
    have hn : slotsNeeded s die v.handle = (shareCells s die v.handle).countP (fun ix => canHalt (s.cell ix)) :=
      List.countP_eq_length_filter.symm
    simp only [victimSlots, List.map_cons, List.sum_cons] at hf
    obtain ⟨h1, n1⟩ := haltStrands_halts .classPreemption (fun ix => die_of_mem_shareCells) (s := s) (l := shareCells s die v.handle) (by omega)
    have hle := sum_map_le vs fun w => h1.needed w.handle
    have h2 := ih (s := haltStrands s .classPreemption (shareCells s die v.handle)) (by rw [h1.cycle]; unfold victimSlots; omega)
    refine (h1.trans h2).congr fun ix => ?_
    simp only [h1.shares, List.mem_cons, or_and_right, exists_or, exists_eq_left]

/-! A class-0 head that lacks cells (R250). -/

theorem classPreempt_other {s : State} {die : Nat} {e : ReadyEntry} (h : e.cls ≠ 0 ∨ e.strands ≤ roomFor s die + leavingCells s die) :
    classPreempt s die e = s := if_pos h

theorem classPreempt_short {s : State} {die : Nat} {e : ReadyEntry} (h0 : e.cls = 0) (hs : roomFor s die + leavingCells s die < e.strands)
    (hp : prefixFor (e.strands - (roomFor s die + leavingCells s die)) (victims s die) = none) : classPreempt s die e = s := by
  refine (if_neg (by omega)).trans ?_
  rw [hp]

theorem classPreempt_prefix {s : State} {die : Nat} {e : ReadyEntry} {vs : List Victim} (h0 : e.cls = 0)
    (hs : roomFor s die + leavingCells s die < e.strands)
    (hp : prefixFor (e.strands - (roomFor s die + leavingCells s die)) (victims s die) = some vs) :
    classPreempt s die e = if (freeSlots (s.die die) die s.cycle).length < victimSlots s die vs then s else haltVictims s die vs := by
  refine (if_neg (by omega)).trans ?_
  rw [hp]
  have hn : vs.foldl (fun n v => n + slotsNeeded s die v.handle) 0 = victimSlots s die vs := by
    rw [victimSlots, List.sum_eq_foldl, List.foldl_map]
  simp only [hn]
  rfl

end Sys2Proof.Machine

namespace Sys2Proof.Machine
open Sys2Proof

/-! Idle cells and the candidates among them (R248). -/

theorem mem_idleNumbers {s : State} {die i : Nat} : i ∈ idleNumbers s die ↔ 1 ≤ i ∧ i < 144 ∧ (s.cell (die * 144 + i)).status = .idle := by
  simp only [idleNumbers, idleCells, List.mem_map, List.mem_filterMap, List.mem_range]
  constructor
  · rintro ⟨ix, ⟨k, hk, h⟩, rfl⟩
    obtain ⟨hi, rfl⟩ := Option.ite_none_right_eq_some.1 h |>.imp_right Option.some.inj
    have hm : (die * 144 + 1 + k) % 144 = 1 + k := by omega
    rw [hm, ← Nat.add_assoc]
    exact ⟨by omega, by omega, beq_iff_eq.1 hi⟩
  · rintro ⟨h1, h2, hi⟩
    have he : die * 144 + 1 + (i - 1) = die * 144 + i := by omega
    exact ⟨die * 144 + i, ⟨i - 1, by omega, by rw [he, if_pos (beq_iff_eq.2 hi)]⟩, by omega⟩

theorem idleNumbers_nodup (s : State) (die : Nat) : (idleNumbers s die).Nodup := by
  have hidle (i ix : Nat) (h : (if (s.cell (die * 144 + 1 + i)).status == .idle then some (die * 144 + 1 + i) else none) = some ix) :
      ix = die * 144 + 1 + i :=
    (Option.some.inj (Option.ite_none_right_eq_some.1 h).2).symm
  refine List.pairwise_map.2 (List.pairwise_filterMap.2 (List.pairwise_lt_range.imp_of_mem fun {i j} hi hj hij a ha b hb => ?_))
  have := hidle i a ha
  have := hidle j b hb
  rw [List.mem_range] at hi hj
  omega

theorem roomFor_le (s : State) (die : Nat) : roomFor s die ≤ (idleNumbers s die).length :=
  Nat.le_trans (Nat.sub_le ..) (Nat.le_of_eq (List.length_map _).symm)

theorem clusterFrom_mem {idle : List Nat} (h : ∀ i ∈ idle, i < 144) (h0 : idle ≠ []) (cluster : Nat) : clusterFrom idle cluster ∈ idle := by
  unfold clusterFrom
  split
  next i hi =>
    obtain ⟨k, -, hk⟩ := List.exists_of_findSome?_eq_some hi
    exact List.mem_of_find?_eq_some hk
  next hn =>
    obtain ⟨i, hi⟩ := List.exists_mem_of_ne_nil _ h0
    have hk := List.findSome?_eq_none_iff.1 hn ((i / 24 + (6 - cluster % 6)) % 6) (List.mem_range.2 (Nat.mod_lt _ (by decide)))
    have hne := List.find?_eq_none.1 hk i hi
    have := h i hi
    exact absurd (beq_iff_eq.2 (by omega)) hne

theorem headD_mem {l : List Nat} (h : l ≠ []) (d : Nat) : l.headD d ∈ l := by
  cases l with
  | nil => exact absurd rfl h
  | cons a l => exact .head _

/-- The anchor is an idle cell where there is one. -/
theorem anchorOf_mem (t : Task) (die : Nat) {idle : List Nat} (h : ∀ i ∈ idle, i < 144) (h0 : idle ≠ []) : anchorOf t die idle ∈ idle := by
  unfold anchorOf
  extract_lets lowestIdle base
  split
  · exact clusterFrom_mem h h0 _
  split
  · split
    next hv => exact List.contains_iff_mem.1 hv.2
    next => exact clusterFrom_mem h h0 _
  split
  · split
    next hv => exact List.contains_iff_mem.1 hv
    next => exact headD_mem h0 0
  · exact headD_mem h0 0

/-- The candidates are the idle cells, each once. -/
theorem candidates_perm {idle : List Nat} {anchor : Nat} (h : ∀ i ∈ idle, i < 144) (hn : idle.Nodup) (ha : anchor ∈ idle) :
    (candidates idle anchor).Perm idle := by
  have hmem (i : Nat) : (i ∈ (List.range 6).flatMap (fun k => idle.filter (fun i => i / 24 == (anchor / 24 + k) % 6 && i != anchor)))
      ↔ i ∈ idle ∧ i ≠ anchor := by
    simp only [List.mem_flatMap, List.mem_range, List.mem_filter, Bool.and_eq_true, beq_iff_eq, bne_iff_ne]
    constructor
    · rintro ⟨k, -, hi, -, hne⟩; exact ⟨hi, hne⟩
    · rintro ⟨hi, hne⟩
      have := h i hi
      have := h anchor ha
      exact ⟨(i / 24 + (6 - anchor / 24)) % 6, by omega, hi, by omega, hne⟩
  have hnd : (candidates idle anchor).Nodup := by
    refine List.nodup_cons.2 ⟨fun hm => ((hmem anchor).1 hm).2 rfl, List.pairwise_flatMap.2 ⟨fun k _ => hn.filter _, ?_⟩⟩
    refine List.pairwise_lt_range.imp_of_mem fun {a b} ha' hb' hab i hi j hj e => ?_
    simp only [List.mem_filter, Bool.and_eq_true, beq_iff_eq, List.mem_range] at ha' hb' hi hj
    omega
  refine (List.perm_ext_iff_of_nodup hnd hn).2 fun i => ?_
  rw [candidates, List.mem_cons, hmem]
  exact ⟨fun hi => hi.elim (fun e => e ▸ ha) And.left, fun hi => (Decidable.em (i = anchor)).imp_right fun hne => ⟨hi, hne⟩⟩

/-- A share that has room gets as many cells as it has strands, each idle and each once. -/
theorem candidates_take {s : State} {die n : Nat} (t : Task) (hr : n ≤ roomFor s die) :
    let cells := (candidates (idleNumbers s die) (anchorOf t die (idleNumbers s die))).take n
    cells.length = n ∧ cells.Nodup ∧ ∀ i ∈ cells, (s.cell (die * 144 + i)).status = .idle := by
  have hl := Nat.le_trans hr (roomFor_le s die)
  have hlt : ∀ i ∈ idleNumbers s die, i < 144 := fun i hi => (mem_idleNumbers.1 hi).2.1
  by_cases h0 : idleNumbers s die = []
  · rw [h0] at hl
    cases Nat.le_zero.1 hl
    exact ⟨rfl, List.nodup_nil, fun i hi => by cases hi⟩
  · have hp := candidates_perm hlt (idleNumbers_nodup s die) (anchorOf_mem t die hlt h0)
    exact ⟨List.length_take_of_le (hp.length_eq ▸ hl), (hp.nodup_iff.2 (idleNumbers_nodup s die)).sublist (List.take_sublist ..),
      fun i hi => (mem_idleNumbers.1 (hp.subset (List.mem_of_mem_take hi))).2.2⟩

/-! A dispatched strand (R22, R249). -/

theorem placeOperands_eq (t : Task) (c : Cell) : ∃ a k, placeOperands t c = { c with aregs := a, kregs := k } := by
  refine List.foldlRecOn (motive := fun x : Cell => ∃ a k, x = { c with aregs := a, kregs := k }) (List.range 8) _ ⟨c.aregs, c.kregs, rfl⟩ ?_
  rintro _ ⟨a, k, rfl⟩ j -
  dsimp only
  split
  · unfold Cell.writeA
    split <;> exact ⟨_, _, rfl⟩
  split
  · exact ⟨_, _, rfl⟩
  · exact ⟨_, _, rfl⟩

/-- A strand that has been placed waits for its first cycle, with every engine at the entry. -/
theorem startCell_spec (s : State) (die ix : Nat) (h : Word) (t : Task) (dpoint cpoint : Nat) (heat : Heat) :
    let x := startCell s die ix h t dpoint cpoint heat
    x.status = .starting ∧ x.cpoint = cpoint ∧ x.dpoint = dpoint ∧ x.handle = h ∧ x.heat = heat ∧ x.A.pc = t.entry ∧ x.V.pc = t.entry
      ∧ x.M.pc = t.entry ∧ x.startAt = s.cycle + 12 + cpoint := by
  dsimp only [startCell]
  obtain ⟨a, k, h⟩ := placeOperands_eq t _
  rw [h]
  exact ⟨rfl, rfl, rfl, rfl, rfl, rfl, rfl, rfl, rfl⟩

section
variable (die : Nat) (h : Word) (t : Task) (dpoint : Nat) (heat : Heat)

theorem startStrands_frame (s : State) (c : Nat) (l : List Nat) :
    let u := startStrands s die h t dpoint heat c l
    u.mem = s.mem ∧ u.dies = s.dies ∧ ∀ ix, (∀ i ∈ l, ix ≠ die * 144 + i) → u.cell ix = s.cell ix := by
  induction l generalizing s c with
  | nil => exact ⟨rfl, rfl, fun _ _ => rfl⟩
  | cons i l ih =>
    obtain ⟨hm, hd, hc⟩ := ih (s.setCell (die * 144 + i) (startCell s die (die * 144 + i) h t dpoint c heat)) (c + 1)
    refine ⟨hm, hd, fun ix hix => (hc ix fun j hj => hix j (.tail _ hj)).trans ?_⟩
    rw [State.setCell_cell, if_neg (hix i (.head _))]

/-- Point c + k of a share is placed on the k-th of its cells. -/
theorem startStrands_cell {s : State} {l : List Nat} (hl : l.Nodup) (c k : Nat) (g : k < l.length) :
    ∃ u, u.cycle = s.cycle
      ∧ (startStrands s die h t dpoint heat c l).cell (die * 144 + l[k]) = startCell u die (die * 144 + l[k]) h t dpoint (c + k) heat := by
  induction l generalizing s c k with
  | nil => cases g
  | cons i l ih =>
    obtain ⟨hi, hl⟩ := List.nodup_cons.1 hl
    cases k with
    | zero =>
      refine ⟨s, rfl, ((startStrands_frame die h t dpoint heat _ (c + 1) l).2.2 _ fun j hj e => ?_).trans (State.setCell_cell_self ..)⟩
      have e' : i = j := Nat.add_left_cancel e
      exact hi (e' ▸ hj)
    | succ k =>
      obtain ⟨u, hu, he⟩ := ih (s := s.setCell (die * 144 + i) (startCell s die (die * 144 + i) h t dpoint c heat)) hl (c + 1) k
        (Nat.lt_of_succ_lt_succ g)
      exact ⟨u, hu, he.trans (by rw [Nat.add_right_comm, Nat.add_assoc]; rfl)⟩
end

/-! The dispatch of a head (R20, R21, R248). -/

theorem drawHeat_ready {d k : Die} {h : Heat} (hd : drawHeat d = some (h, k)) : k.ready = d.ready := by
  unfold drawHeat at hd
  split at hd
  · cases hd
  · cases hd; rfl

theorem takeRoute_ready (d : Die) (h : Word) : (takeRoute d h).ready = d.ready := by
  unfold takeRoute
  split <;> rfl

/-- The record of a task once a share of it has been dispatched to a die. -/
def dispatchedTask (T : Task) (die : Nat) (heat : Heat) : Task :=
  { T with state := .running, ddisp := T.ddisp ||| BitVec.ofNat 8 (2 ^ (die % 8)), heats := insertAt T.heats (die % 8) heat }

theorem dispatchHead_restore {s : State} {die : Nat} {e : ReadyEntry} (hr : e.restore ≠ []) :
    dispatchHead s die e = s.modDie die (fun d => { d with ready := d.ready.erase e, restoring := d.restoring ++ [e] }) :=
  if_neg (by rwa [List.isEmpty_iff])

theorem dispatchHead_share {s : State} {die : Nat} {e : ReadyEntry} {T : Task} {heat : Heat} {k : Die} (hr : e.restore = [])
    (ht : taskOf s e.handle = some T) (hd : drawHeat (s.die die) = some (heat, k)) :
    dispatchHead s die e = startStrands
      (setTask (s.setDie die (takeRoute { k with ready := k.ready.erase e } e.handle)) e.handle (dispatchedTask T die heat)) die e.handle
      (dispatchedTask T die heat) e.dpoint heat 0 ((candidates (idleNumbers s die) (anchorOf T die (idleNumbers s die))).take e.strands) := by
  simp only [dispatchHead, hr, ht, hd]
  rfl

theorem setTask_ready (s : State) (h : Word) (T : Task) (j : Nat) : ((setTask s h T).die j).ready = (s.die j).ready := by
  rw [setTask, State.modDie_die]
  split
  next e => subst e; rfl
  next => rfl

/-- A share is dispatched: it leaves the pool, its task runs, and its points start on the candidates in order. -/
theorem dispatchHead_spec {s : State} {die : Nat} {e : ReadyEntry} {T : Task} {heat : Heat} {k : Die} (hr : e.restore = [])
    (hf : e.strands ≤ roomFor s die) (ht : taskOf s e.handle = some T) (hd : drawHeat (s.die die) = some (heat, k)) :
    let cells := (candidates (idleNumbers s die) (anchorOf T die (idleNumbers s die))).take e.strands
    let t := dispatchHead s die e
    cells.length = e.strands ∧ t.mem = s.mem ∧ (t.die die).ready = (s.die die).ready.erase e
      ∧ taskOf t e.handle = some (dispatchedTask T die heat)
      ∧ (∀ ix, (∀ i ∈ cells, ix ≠ die * 144 + i) → t.cell ix = s.cell ix)
      ∧ ∀ c (g : c < cells.length), let x := t.cell (die * 144 + cells[c])
        (s.cell (die * 144 + cells[c])).status = .idle ∧ x.status = .starting ∧ x.cpoint = c ∧ x.dpoint = e.dpoint ∧ x.handle = e.handle
        ∧ x.heat = heat ∧ x.A.pc = T.entry ∧ x.V.pc = T.entry ∧ x.M.pc = T.entry ∧ x.startAt = s.cycle + 12 + c := by
  obtain ⟨hlen, hnd, hidle⟩ := candidates_take T hf
  intro cells t
  have heq : t = _ := dispatchHead_share hr ht hd
  obtain ⟨hm, hdies, hcell⟩ := startStrands_frame die e.handle (dispatchedTask T die heat) e.dpoint heat
    (setTask (s.setDie die (takeRoute { k with ready := k.ready.erase e } e.handle)) e.handle (dispatchedTask T die heat)) 0 cells
  have hdie (j : Nat) : t.die j = _ := (congrArg (lookup (Die.reset j) · j) (heq ▸ hdies))
  refine ⟨hlen, heq ▸ hm, ?_, ?_, heq ▸ hcell, fun c g => ⟨hidle _ (List.getElem_mem g), ?_⟩⟩
  · refine (congrArg Die.ready (hdie die)).trans ((setTask_ready ..).trans ?_)
    rw [State.setDie_die_self, takeRoute_ready, drawHeat_ready hd]
  · refine (taskOf_congr (fun j => congrArg Die.tasks (hdie j)) _).trans (taskOf_setTask TaskState.noConfusion (taskOf_some ht).2)
  · obtain ⟨u, hu, hx⟩ := startStrands_cell die e.handle (dispatchedTask T die heat) e.dpoint heat
      (s := setTask (s.setDie die (takeRoute { k with ready := k.ready.erase e } e.handle)) e.handle (dispatchedTask T die heat)) hnd 0 c g
    have hsp := startCell_spec u die (die * 144 + cells[c]) e.handle (dispatchedTask T die heat) e.dpoint (0 + c) heat
    rw [← hx, ← heq, hu, Nat.zero_add] at hsp
    exact hsp

/-! DISPATCH_DECISION (R247, R250). -/

section
variable {d : DieId} {s : State} (hq : requests s (dieIx d) = [])
include hq

theorem execDispatchDecision_none (hn : headEntry s (dieIx d) = none) : exec (.dispatchDecision d) s = .next s := by
  change execDispatchDecision d s = _
  simp only [execDispatchDecision, hq, List.foldl_nil, hn]

theorem execDispatchDecision_some {e : ReadyEntry} (he : headEntry s (dieIx d) = some e) : exec (.dispatchDecision d) s =
    if e.strands ≤ roomFor s (dieIx d) then .next (dispatchHead s (dieIx d) e) else .next (classPreempt s (dieIx d) e) := by
  change execDispatchDecision d s = _
  simp only [execDispatchDecision, hq, List.foldl_nil, he]

theorem execDispatchDecision_fits {e : ReadyEntry} (he : headEntry s (dieIx d) = some e) (hr : e.strands ≤ roomFor s (dieIx d)) :
    exec (.dispatchDecision d) s = .next (dispatchHead s (dieIx d) e) :=
  (execDispatchDecision_some hq he).trans (if_pos hr)

theorem execDispatchDecision_lacks {e : ReadyEntry} (he : headEntry s (dieIx d) = some e) (hr : roomFor s (dieIx d) < e.strands) :
    exec (.dispatchDecision d) s = .next (classPreempt s (dieIx d) e) :=
  (execDispatchDecision_some hq he).trans (if_neg (Nat.not_le_of_lt hr))
end

end Sys2Proof.Machine

namespace Sys2Proof.Machine
open Sys2Proof

/-! The clauses of O52. -/

/-- A class-0 head that lacks cells pre-empts the prefix where slots are free for all its strands, and nothing else (R250). -/
theorem dispatchDecision_preempts {d : DieId} {s : State} {e : ReadyEntry} (hq : requests s (dieIx d) = [])
    (he : headEntry s (dieIx d) = some e) (hr : roomFor s (dieIx d) < e.strands) (h0 : e.cls = 0) :
    let die := dieIx d
    let free := roomFor s die + leavingCells s die
    (e.strands ≤ free → exec (.dispatchDecision d) s = .next s)
    ∧ (free < e.strands → prefixFor (e.strands - free) (victims s die) = none → exec (.dispatchDecision d) s = .next s)
    ∧ (∀ vs, free < e.strands → prefixFor (e.strands - free) (victims s die) = some vs →
      ((freeSlots (s.die die) die s.cycle).length < victimSlots s die vs → exec (.dispatchDecision d) s = .next s)
      ∧ (victimSlots s die vs ≤ (freeSlots (s.die die) die s.cycle).length → ∃ t, exec (.dispatchDecision d) s = .next t ∧ t.mem = s.mem
        ∧ (t.die die).ready = (s.die die).ready
        ∧ (∀ v ∈ vs, ∀ ix ∈ shareCells s die v.handle, canHalt (s.cell ix) = true → (t.cell ix).preempt = some .classPreemption
            ∧ (t.cell ix).status = (if (s.cell ix).status = .held then .held else .halting) ∧ (find? (t.die die).reserved ix).isSome = true)
        ∧ (∀ ix, (∀ v ∈ vs, ix ∉ shareCells s die v.handle) ∨ canHalt (s.cell ix) = false → t.cell ix = s.cell ix))) := by
  intro die free
  have hx := execDispatchDecision_lacks hq he hr
  refine ⟨fun hf => by rw [hx, classPreempt_other (.inr hf)], fun hf hp => by rw [hx, classPreempt_short h0 hf hp], fun vs hf hp => ?_⟩
  rw [classPreempt_prefix h0 hf hp] at hx
  refine ⟨fun hs => by rw [hx, if_pos hs], fun hs => ?_⟩
  rw [if_neg (Nat.not_lt_of_le hs)] at hx
  have hv := haltVictims_halts hs
  have hready : ((haltVictims s die vs).die die).ready = (s.die die).ready := (congrArg Die.ready hv.rest :)
  refine ⟨_, hx, hv.mem, hready, fun v hm ix hix hc => ?_, fun ix ho => hv.others ix (ho.imp_left ?_)⟩
  · obtain ⟨hcell, hres⟩ := hv.halted ix ⟨v, hm, hix⟩ hc
    rw [hcell]
    exact ⟨rfl, rfl, hres⟩
  · rintro hn ⟨v, hm, hix⟩
    exact hn v hm hix

/-- STRAND_COMPLETE as its release decides (R33, R34, R312). -/
theorem strandComplete_spec {cid : CellId} {s : State} (hx : isCmd (cellIx cid) = false) (hr : atRest s (s.cell (cellIx cid)) = true)
    (hk : ∀ k ∈ (s.die (dieOfCell (cellIx cid))).copies, k.cell = cellIx cid → k.orphan = true) :
    let ix := cellIx cid
    let c := s.cell ix
    let r := releaseOf s ix (taskScope s c.handle) (fun o => !isRead s o)
    (r = .wait → exec (.strandComplete cid) s = .next s)
    ∧ (∀ t v, r = .severed t v →
      (recordRoom t (recordDie t ix) = false → ∃ u x, exec (.strandComplete cid) s = .next u ∧ (u.cell ix).status = .held
          ∧ (u.cell ix).stuck = some ⟨x, none, true⟩ ∧ x.value = v ∧ (∀ j, j ≠ ix → u.cell j = t.cell j))
      ∧ (recordRoom t (recordDie t ix) = true → ∃ u, exec (.strandComplete cid) s = .next u ∧ (u.cell ix).status ≠ .running
          ∧ ∀ T, taskOf t c.handle = some T → T.state.isFinal = false → T.succs = [] → ∃ V, taskOf u c.handle = some V ∧ V.state = .failed))
    ∧ (∀ t, r = .done t → ∃ u, exec (.strandComplete cid) s = .next u ∧ (u.cell ix).status = .idle
        ∧ u = freeCell (countDone (withdrawStrand t ix) (dieOfCell ix) (t.cell ix).handle (t.cell ix).dpoint) ix) := by
  intro ix c r
  have he : exec (.strandComplete cid) s = _ := execStrandComplete_release hx hr hk
  refine ⟨fun hw => ?_, fun t v hv => ?_, fun t ht => ?_⟩
  · rw [he, show releaseOf s (cellIx cid) _ _ = _ from hw]
  · rw [show releaseOf s (cellIx cid) _ _ = _ from hv] at he
    obtain ⟨hno, hyes⟩ := stopAtEnd_spec (t := t) hx v
    rw [releaseOf_severed_handle hv] at hyes
    refine ⟨fun h => ?_, fun h => ⟨_, he, hyes h⟩⟩
    obtain ⟨x, hx⟩ := hno h
    exact ⟨_, x, he, hx⟩
  · rw [show releaseOf s (cellIx cid) _ _ = _ from ht] at he
    exact ⟨_, he, freeCell_idle .., rfl⟩

/-- The strands of a share are counted, and the last one of the last share completes the task (R35). -/
theorem countDone_spec {u : State} {h : Word} {T : Task} {n : Nat} (die p : Nat) (ht : taskOf u h = some T) (hn : lookup 0 T.left p = n + 1) :
    (n ≠ 0 → taskOf (countDone u die h p) h = some { T with left := insertAt T.left p n })
    ∧ (n = 0 → (∀ e ∈ T.left, e.1 ≠ p → e.2 = 0) → T.left.Pairwise (fun a b => a.1 < b.1) → ∃ V, taskOf (countDone u die h p) h = some V
        ∧ V.state = .complete ∧ V.final = u.cycle ∧ V.dcomp = T.dcomp ||| BitVec.ofNat 8 (2 ^ (die % 8)) ∧ V.count = T.count)
    ∧ (n = 0 → (∃ e ∈ T.left, e.1 ≠ p ∧ e.2 ≠ 0) → ∃ V, taskOf (countDone u die h p) h = some V
        ∧ V.state = T.state ∧ V.dcomp = T.dcomp ||| BitVec.ofNat 8 (2 ^ (die % 8))) := by
  refine ⟨countDone_more die p ht hn, ?_, ?_⟩
  · rintro rfl hl hp
    refine countDone_last die p ht hn (List.any_eq_false.2 fun e he => ?_)
    rcases mem_insertAt_rising hp he with rfl | ⟨hm, hne⟩
    · simp
    · simp [hl e hm hne]
  · rintro rfl ⟨e, hm, hne, h0⟩
    exact countDone_share die p ht hn (List.any_eq_true.2 ⟨e, mem_insertAt_of_ne 0 hm hne, bne_iff_ne.2 h0⟩)

/-- Settles O52: the order of the ready pool and of the victims by folds and insertions, a dispatch by the permutation of the idle cells
that the candidates are, a pre-emption by the relation `Halts`, and a completion as its release decides. -/
theorem dispatcherStartsAndEndsStrands : Obligations.DispatcherStartsAndEndsStrands := by
  unfold Obligations.DispatcherStartsAndEndsStrands
  refine ⟨fun n l => ⟨prefixFor_none_iff n l, fun vs => prefixFor_some⟩, victims_spec, fun d s => ⟨fun e => headEntry_first, fun hq =>
    ⟨execDispatchDecision_none hq, fun e he => ⟨fun hr hc => ?_, dispatchDecision_preempts hq he, fun hf hr => ?_, ?_⟩⟩⟩,
    fun cid s => ⟨fun h => if_pos h, execStrandStart_starts⟩, fun cid s => ⟨execStrandComplete_waits, strandComplete_spec⟩,
    fun u die p n h T => countDone_spec die p⟩
  · rw [execDispatchDecision_lacks hq he hr, classPreempt_other (.inl hc)]
  · rw [execDispatchDecision_fits hq he hf, dispatchHead_restore hr]
  · intro hf hr T h k ht hd
    obtain ⟨hlen, hspec⟩ := dispatchHead_spec hr hf ht hd
    exact ⟨hlen, _, execDispatchDecision_fits hq he hf, hspec⟩

end Sys2Proof.Machine

namespace Sys2Proof

/-! Reading back what the encoder writes (R37, R42, R45, R52 to R54). -/

/-- How a word of tag 0 is decoded. -/
theorem decodeParcels_a {p : Parcel} (rest : List Parcel) (h : p.extractLsb' 0 2 = 0#2) : decodeParcels (p :: rest) = decodeA p := by
  simp [decodeParcels, h]

/-- How a word of tag 3 is decoded. -/
theorem decodeParcels_common {p : Parcel} (rest : List Parcel) (h : p.extractLsb' 0 2 = 3#2) :
    decodeParcels (p :: rest) = decodeCommon p := by
  simp [decodeParcels, h]

/-- The parcel of an A or common word gives its instruction back: its constant carries the tag, the operation and the zero bits, each
field stands where the decoder reads it, and none reaches into another. The common words have tag 3, all others tag 0. -/
theorem decodeParcels_encodeParcel {i : Instr} {p : Parcel} (h : encodeParcel i = some p) (rest : List Parcel) :
    decodeParcels (p :: rest) = some i := by
  cases i <;> cases h
  case nop | ptb | br | call | ret | loop | lbrk | endWord | barArrive | barWait | barSync | beat | yield | halt =>
    simp only [decodeParcels_common, decodeCommon, place_or, place_same, place_below, place_above, and_or_parcel, place_and,
      BitVec.reduceExtractLsb', BitVec.reduceAnd, BitVec.reduceEq, BitVec.zero_or, BitVec.or_zero, BitVec.or_self, Nat.reduceAdd,
      Nat.reduceLeDiff, Std.le_refl, ↓reduceIte]
  all_goals simp only [decodeParcels_a, decodeA, place_or, place_same, place_below, place_above, and_or_parcel, place_and,
    BitVec.reduceExtractLsb', BitVec.reduceAnd, BitVec.reduceEq, BitVec.zero_or, BitVec.or_zero, BitVec.or_self, Nat.reduceAdd,
    Nat.reduceLeDiff, Std.le_refl, ↓reduceIte,
    decodeMajor00, decodeMajor01, decodeMajor02, decodeMajor03, decodeMajor04, decodeMajor05, decodeMajor06, decodeMajor07,
    decodeMajor08, decodeMajor09, decodeMajor0A, decodeMajor0B, decodeMajor0C, decodeMajor0D, decodeMajor0E, decodeMajor0F,
    decodeMajor10, decodeMajor11, decodeMajor12, decodeMajor13, decodeMajor14, decodeMajor15, decodeMajor16, decodeMajor17,
    decodeMajor18, decodeMajor19, decodeMajor1A, decodeMajor1B, decodeMajor1C, decodeMajor1D, decodeMajor1E, decodeMajor1F,
    decodeMajor20, decodeMajor21, decodeMajor22, decodeMajor23, decodeMajor24, decodeMajor25, decodeMajor26]

/-- The two directions of `vbf` share an op8, and aux tells them apart (R153). -/
theorem vbf_aux {f : VFields} :
    ((Instr.vbfNarrow f).wf = true → f.aux = 0#4) ∧ ((Instr.vbfWiden f).wf = true → f.aux = 1#4) := by
  have aux {h : VShape} (hw : h.ok f = true) : auxOk h.aux f.ty.toNat f.aux.toNat = true := by
    simp only [VShape.ok, Bool.and_eq_true] at hw
    exact hw.1.1.1.2
  exact ⟨fun h => BitVec.eq_of_toNat_eq (beq_iff_eq.1 (aux h)), fun h => BitVec.eq_of_toNat_eq (beq_iff_eq.1 (aux h))⟩

/-- The op8 of a V operation names it. -/
theorem decodeV_vShape {i : Instr} {h : VShape} {f : VFields} (hs : i.vShape = some (h, f)) (hw : i.wf = true) :
    decodeV (BitVec.ofNat 8 h.op8) f = some i := by
  cases i <;> cases hs
  case vbfNarrow => simp [decodeV, vbf_aux.1 hw]
  case vbfWiden => simp [decodeV, vbf_aux.2 hw]
  all_goals rfl

/-- The op6 of an M operation names it. -/
theorem decodeM_mShape {i : Instr} {op6 : Nat} {f : MFields} (hs : i.mShape = some (op6, f)) :
    decodeM (BitVec.ofNat 6 op6) f = some i := by
  cases i <;> cases hs <;> rfl

/-- What has words is a word of one parcel, a V word or an M word. -/
theorem encode_cases {i : Instr} {ps : List Parcel} (h : encode i = some ps) :
    (∃ p, encodeParcel i = some p ∧ ps = [p])
    ∨ (∃ v f, i.vShape = some (v, f) ∧ ps = encodeV v.op8 f)
    ∨ (∃ o f, i.mShape = some (o, f) ∧ ps = encodeM o f) := by
  unfold encode at h
  split at h <;> cases h
  · exact .inl ⟨_, ‹_›, rfl⟩
  · exact .inr (.inl ⟨_, _, ‹_›, rfl⟩)
  · exact .inr (.inr ⟨_, _, ‹_›, rfl⟩)

/-- The parcels of a well-formed instruction give it back, whatever follows them. -/
theorem decodeParcels_encode {i : Instr} {ps : List Parcel} (hw : i.wf = true) (h : encode i = some ps) (rest : List Parcel) :
    decodeParcels (ps ++ rest) = some i := by
  obtain ⟨p, hp, rfl⟩ | ⟨v, f, hs, rfl⟩ | ⟨o, f, hs, rfl⟩ := encode_cases h
  · exact decodeParcels_encodeParcel hp rest
  · rw [decodeParcels_encodeV, decodeV_vShape hs hw]
  · rw [decodeParcels_encodeM, decodeM_mShape hs]

/-- A parcel that is a word by itself has the tag of such a word. -/
theorem wordParcels_of_decodeParcels_single {p : Parcel} {i : Instr} (h : decodeParcels [p] = some i) :
    wordParcels (p.extractLsb' 0 2) = 1 := by
  have tags : ∀ t : BitVec 2, t = 0 ∨ t = 1 ∨ t = 2 ∨ t = 3 := by decide
  rcases tags (p.extractLsb' 0 2) with ht | ht | ht | ht
  · rw [ht]; rfl
  · simp [decodeParcels, ht] at h
  · simp [decodeParcels, ht] at h
  · rw [ht]; rfl

/-- The tag of the first parcel says how many parcels a word has (R37 Table 1). -/
theorem encode_length {i : Instr} {ps : List Parcel} (h : encode i = some ps) :
    ∃ p qs, ps = p :: qs ∧ ps.length = wordParcels (p.extractLsb' 0 2) := by
  obtain ⟨p, hp, rfl⟩ | ⟨v, f, -, rfl⟩ | ⟨o, f, -, rfl⟩ := encode_cases h
  · exact ⟨p, [], rfl, (wordParcels_of_decodeParcels_single (decodeParcels_encodeParcel hp [])).symm⟩
  · exact ⟨_, _, rfl, by simp [encodeV, wordParcels, place_or, place_below]⟩
  · exact ⟨_, _, rfl, by simp [encodeM, wordParcels, place_or, place_below]⟩

/-- Whole parcels read back from their bytes, and the bytes after them are read on. -/
theorem parcelsOfBytes_flatMap (ps : List Parcel) (bs : List Byte) :
    parcelsOfBytes (ps.flatMap bytesOfParcel ++ bs) = ps ++ parcelsOfBytes bs := by
  induction ps with
  | nil => rfl
  | cons p ps ih => rw [List.flatMap_cons, List.append_assoc, parcelsOfBytes_cons, ih, List.cons_append]

theorem length_flatMap_bytesOfParcel (ps : List Parcel) : (ps.flatMap bytesOfParcel).length = 4 * ps.length := by
  induction ps with
  | nil => rfl
  | cons p ps ih =>
    have hp : (bytesOfParcel p).length = 4 := rfl
    rw [List.flatMap_cons, List.length_append, ih, hp, List.length_cons]
    omega

/-- A well-formed word that is there in full decodes. -/
theorem decodeWord_ok {p : Parcel} {ps : List Parcel} {i : Instr} (hl : wordParcels (p.extractLsb' 0 2) ≤ (p :: ps).length)
    (h : decodeParcels (p :: ps) = some i) (hw : i.wf = true) : decodeWord (p :: ps) = .ok i := by
  simp only [decodeWord, Nat.not_lt.2 hl, h, hw, if_false, if_true]

/-- Settles O2: the parcels give the instruction back, in their bytes as well, and the tag says how many bytes they are. -/
theorem encodedWordsDecode : Obligations.EncodedWordsDecode := by
  unfold Obligations.EncodedWordsDecode
  intro i ps rest hw h
  have hd := decodeParcels_encode hw h (parcelsOfBytes rest)
  obtain ⟨p, qs, rfl, hl⟩ := encode_length h
  have hword : decodeWord (p :: qs ++ parcelsOfBytes rest) = .ok i :=
    decodeWord_ok (hl ▸ List.length_append (as := p :: qs) ▸ Nat.le_add_right _ _) hd hw
  simp only [decode, parcelsOfBytes_flatMap, hword]
  simp only [List.cons_append, ← hl, ← length_flatMap_bytesOfParcel, List.drop_left]

/-! What the decoder rejects (R55). -/

/-- A word that is there in full and names no instruction is reserved in the engine of its tag. -/
theorem decodeWord_reserved {p : Parcel} {ps : List Parcel} (hl : wordParcels (p.extractLsb' 0 2) ≤ (p :: ps).length)
    (h : decodeParcels (p :: ps) = none) : decodeWord (p :: ps) = .error (.reserved (p.extractLsb' 0 2)) := by
  simp only [decodeWord, Nat.not_lt.2 hl, h, if_false]

/-- Majors above 0x26 are reserved (R68). -/
theorem decodeA_reserved {p : Parcel} (h : 0x26 < (p.extractLsb' 2 6).toNat) : decodeA p = none := by
  have ne (k : BitVec 6) (hk : k.toNat ≤ 0x26) : p.extractLsb' 2 6 ≠ k := by rintro rfl; omega
  simp [decodeA, ne]

/-- Common operations above 0x0B are reserved (R54). -/
theorem decodeCommon_reserved {p : Parcel} (h : 0x0B < (p.extractLsb' 2 6).toNat) : decodeCommon p = none := by
  have ne (k : BitVec 6) (hk : k.toNat ≤ 0x0B) : p.extractLsb' 2 6 ≠ k := by rintro rfl; omega
  simp [decodeCommon, ne]

/-- The codes between the groups of V operations are reserved (R72). -/
theorem decodeV_reserved {op : BitVec 8} (f : VFields) (h : (0x1C < op.toNat ∧ op.toNat < 0x20) ∨ op.toNat = 0x26 ∨ op.toNat = 0x27
    ∨ (0x36 < op.toNat ∧ op.toNat < 0x40) ∨ (0x45 < op.toNat ∧ op.toNat < 0x50) ∨ 0x57 < op.toNat) : decodeV op f = none := by
  have ne (k : BitVec 8) (hk : k.toNat ≤ 0x1C ∨ (0x20 ≤ k.toNat ∧ k.toNat ≤ 0x25) ∨ (0x28 ≤ k.toNat ∧ k.toNat ≤ 0x36)
      ∨ (0x40 ≤ k.toNat ∧ k.toNat ≤ 0x45) ∨ (0x50 ≤ k.toNat ∧ k.toNat ≤ 0x57)) : op ≠ k := by rintro rfl; omega
  simp [decodeV, ne]

/-- M operations above 5 are reserved (R74). -/
theorem decodeM_reserved {op : BitVec 6} (f : MFields) (h : 5 < op.toNat) : decodeM op f = none := by
  have ne (k : BitVec 6) (hk : k.toNat ≤ 5) : op ≠ k := by rintro rfl; omega
  simp [decodeM, ne]

/-- A reserved bit of an M word that is set is seen (R52, R53). -/
theorem mReservedClear_eq_false {p0 p1 p2 p3 p4 p5 : Parcel} (h : p0.extractLsb' 25 3 ≠ 0 ∨ p1.extractLsb' 22 10 ≠ 0
    ∨ p2.extractLsb' 20 12 ≠ 0 ∨ p3.extractLsb' 20 12 ≠ 0 ∨ p4.extractLsb' 14 18 ≠ 0 ∨ p5 ≠ 0) :
    mReservedClear p0 p1 p2 p3 p4 p5 = false := by
  refine Bool.eq_false_iff.2 fun hc => ?_
  simp only [mReservedClear, Bool.and_eq_true, beq_iff_eq] at hc
  obtain ⟨⟨⟨⟨⟨h0, h1⟩, h2⟩, h3⟩, h4⟩, h5⟩ := hc
  rcases h with h | h | h | h | h | h <;> exact h ‹_›

/-- What decodes is well formed. -/
theorem wf_of_decodeWord {ps : List Parcel} {i : Instr} (h : decodeWord ps = .ok i) : i.wf = true := by
  unfold decodeWord at h
  split at h
  · cases h
  · dsimp only at h
    split at h
    · cases h
    · split at h
      · cases h
      · split at h <;> cases h
        assumption

/-- A V word with a reserved bit or operation is no instruction. -/
theorem decodeParcels_v_reserved {p q r : Parcel} (ps : List Parcel) (ht : p.extractLsb' 0 2 = 1#2)
    (h : r.extractLsb' 28 4 ≠ 0#4 ∨ decodeV (p.extractLsb' 2 8) (vFieldsOf p q r) = none) :
    decodeParcels (p :: q :: r :: ps) = none := by
  rcases h with h | h <;> simp [decodeParcels, ht, h]

/-- An M word with a reserved bit or operation is no instruction. -/
theorem decodeParcels_m_reserved {p0 p1 p2 p3 p4 p5 : Parcel} (ps : List Parcel) (ht : p0.extractLsb' 0 2 = 2#2)
    (h : mReservedClear p0 p1 p2 p3 p4 p5 = false ∨ decodeM (p0.extractLsb' 2 6) (mFieldsOf p0 p1 p2 p3 p4) = none) :
    decodeParcels (p0 :: p1 :: p2 :: p3 :: p4 :: p5 :: ps) = none := by
  rcases h with h | h <;> simp [decodeParcels, ht, h]

/-- Settles O3: each kind of word by the codes that its decoder does not list, and the rest by the checks that `decodeWord` makes. -/
theorem reservedWordsAreRejected : Obligations.ReservedWordsAreRejected := by
  unfold Obligations.ReservedWordsAreRejected
  refine ⟨fun p ps ht h => ?_, fun p ps ht h => ?_, fun p q r ps ht h => ?_, fun p0 p1 p2 p3 p4 p5 ps ht h => ?_, fun p ps h => ?_,
    fun ps i => wf_of_decodeWord⟩
  · rw [decodeWord_reserved (by simp [ht, wordParcels]) ((decodeParcels_a ps ht).trans (decodeA_reserved h)), ht]
  · rw [decodeWord_reserved (by simp [ht, wordParcels]) ((decodeParcels_common ps ht).trans (decodeCommon_reserved h)), ht]
  · rw [decodeWord_reserved (by simp [ht, wordParcels]) (decodeParcels_v_reserved ps ht (h.imp_right (decodeV_reserved _))), ht]
  · have hr := h.symm.imp mReservedClear_eq_false (decodeM_reserved (mFieldsOf p0 p1 p2 p3 p4))
    rw [decodeWord_reserved (by simp [ht, wordParcels]) (decodeParcels_m_reserved ps ht hr), ht]
  · exact if_pos h

/-- Settles O1: the decoder evaluates on each of the words. -/
theorem writtenWordsDecode : Obligations.WrittenWordsDecode := by
  unfold Obligations.WrittenWordsDecode
  exact ⟨rfl, rfl, rfl, rfl, rfl, rfl, rfl, rfl, rfl, rfl, rfl, rfl, rfl, rfl⟩

end Sys2Proof

namespace Sys2Proof.Machine
open Sys2Proof

/-! Text, pages fetched ahead and reissued loads (R40, R223, R439, R441). -/

/-- The fetch of a granule counts a corrected error at most. -/
theorem Counts.of_fetchGranule {s u : State} {ix : Nat} {w : Word} {bs : List Byte} {tlb : List TlbEntry}
    (h : fetchGranule s ix w = .ok (bs, tlb, u)) : Counts s u := by
  unfold fetchGranule at h
  dsimp only at h
  split at h
  · cases h
  · cases h
  · cases h
  · cases h; exact .refl s
  · split at h <;> cases h
    exact .noteEcc ..

/-- The translation of a page: an entry of the TLB that covers it, or else the leaf that a walk finds (R223, R358). -/
theorem findPage_eq_some {s : State} {ix : Nat} {tlb : List TlbEntry} {off : Nat} {e : TlbEntry}
    (h : tlb.find? (·.covers off) = some e ∨ (tlb.find? (·.covers off) = none ∧ ∃ l, walk s (dieOfCell ix) off = some l ∧ e = tlbOf off l)) :
    findPage s ix tlb off = some e := by
  rcases h with h | ⟨h, l, hw, rfl⟩
  · simp only [findPage, h]
  · simp only [findPage, h, hw, Option.map_some]

theorem findPage_eq_none {s : State} {ix : Nat} {tlb : List TlbEntry} {off : Nat} (h : tlb.find? (·.covers off) = none)
    (hw : walk s (dieOfCell ix) off = none) : findPage s ix tlb off = none := by
  simp only [findPage, h, hw, Option.map_none]

section
variable {cid : CellId} {id : Nat} {s : State} {o : MemOp} (ho : (s.cell (cellIx cid)).op? id = some o)
include ho

/-- REISSUE_REFUSED is about a reissued load of a running strand only. -/
theorem execReissueRefused_idle (h : o.reissue = false ∨ (s.cell (cellIx cid)).status ≠ .running) :
    execReissueRefused cid id s = .next s := by
  simp only [execReissueRefused, ho, Bool.not_eq_true', if_pos h]

variable (hr : o.reissue = true) (hs : (s.cell (cellIx cid)).status = .running)
include hr hs

/-- A local miss holds an XLATE (R198). -/
theorem execReissueRefused_miss (hl : isLocal (cellIx cid) o.addr = true) (ha : arrive s (cellIx cid) (s.cell (cellIx cid)) o = .miss)
    (hn : (s.cell (cellIx cid)).fault = none) : execReissueRefused cid id s = .next (holdFault s (cellIx cid)
      ⟨o.addr, (s.cell (cellIx cid)).A.pc, o.word, 0, [], none⟩ (offsetOf (s.cell (cellIx cid)) 0)) := by
  simp [execReissueRefused, ho, hr, hs, hl, ha, hn]

/-- Any other local refusal is a deferred report (R439). -/
theorem execReissueRefused_fault (hl : isLocal (cellIx cid) o.addr = true) {e : FaultCode} {v : Word}
    (ha : arrive s (cellIx cid) (s.cell (cellIx cid)) o = .fault e v) :
    execReissueRefused cid id s = .next (s.setCell (cellIx cid) ((s.cell (cellIx cid)).refuse o e v)) := by
  simp [execReissueRefused, ho, hr, hs, hl, ha]

/-- So is the refusal of a home on another die, once it is back (R439). -/
theorem execReissueRefused_returned (hl : isLocal (cellIx cid) o.addr = false) {e : FaultCode} {v : Word} (hv : o.reply = some (.refused e v))
    (hb : o.leg = .returned) (hq : onRing s (pkgOfCell (cellIx cid)) id = false) :
    execReissueRefused cid id s = .next (s.setCell (cellIx cid) ((s.cell (cellIx cid)).refuse o e v)) := by
  simp [execReissueRefused, ho, hr, hs, hl, hv, hb, hq]

end

/-- Settles O30: each event waits for its condition, and then ends as the fetch, the translation or the answer of the home says. -/
theorem textAndPageFills : Obligations.TextAndPageFills := by
  unfold Obligations.TextAndPageFills
  intro cid s ix c
  refine ⟨fun e g => ?text, fun n => ?page, fun id o ho => ⟨execReissueRefused_idle ho, fun hr hs => ⟨fun hl =>
    ⟨execReissueRefused_miss ho hr hs hl, fun _ _ => execReissueRefused_fault ho hr hs hl⟩,
    fun _ _ hl => execReissueRefused_returned ho hr hs hl⟩⟩⟩
  case text =>
    intro w
    refine ⟨fun h => if_pos (Bool.or_eq_true_iff.2 (.inl h)), fun h => if_pos (Bool.or_eq_true_iff.2 (.inr (congrArg not h))),
      fun h hl => ?_⟩
    have fetches : ¬((find? c.icache (w.toNat / 32)).isSome || !mayLeave s (dieOfCell ix) w) = true := by
      rw [h, hl]; exact Bool.false_ne_true
    refine ⟨fun bs tlb u hf => ?_, fun code v hf => (if_neg fetches).trans ?_⟩
    · have hc := Counts.of_fetchGranule hf
      refine ⟨hc.cells, hc.mem, (if_neg fetches).trans ?_⟩
      rw [show fetchGranule s (cellIx cid) _ = _ from hf]
      show Host.Outcome.next (u.setCell ix { u.cell ix with icache := _, tlb := _ }) = _
      rw [hc.cell]
    · rw [show fetchGranule s (cellIx cid) _ = _ from hf]
  case page =>
    intro x
    refine ⟨fun h => if_pos h, fun h => ⟨fun ht hw => (if_neg (not_not_intro h)).trans ?_,
      fun e he => (if_neg (not_not_intro h)).trans ?_⟩⟩
    · rw [show findPage s (cellIx cid) _ _ = _ from findPage_eq_none ht hw]
    · rw [show findPage s (cellIx cid) _ _ = _ from findPage_eq_some he]

/-! Common words (R54, R174 to R188). -/

/-- A common word whose effect is ILLEGAL raises it in the engine that executes it. -/
theorem commonWord_illegal {reads : List Nat} {s : State} (h : CGo reads s) {body : Engine → State → CRes} (hb : body s.eng s = .illegal) :
    commonWord reads body s = .next (takeFault s s.me (engNo s.eng) .illegal (s.cur.engine s.eng).pc) := by
  rw [commonWord_go h, hb]; rfl

/-- Settles O36: each word by the branches of its effect, a branch by what the word finds in its registers, its stacks or the text. -/
theorem commonWordsMoveEachEngine : Obligations.CommonWordsMoveEachEngine := by
  unfold Obligations.CommonWordsMoveEachEngine
  intro s e g passes goes illegal eng
  have nopPasses (h : CGo [] s) : passes .nop s := commonWord_pass h rfl rfl
  have beatPasses (h : CGo [] s) : passes .beat (resetWdog s) := commonWord_pass h rfl rfl
  refine ⟨fun h => ⟨nopPasses h, beatPasses h, fun hr => ?ret, fun a rs hr => ?retTo, fun hl => ?lbrk, fun l ls hl => ?lbrkTo⟩,
    fun i b h => ?ptb, fun b h => ?call, fun _ n p b h => ?br, fun l v h => ?loop⟩
  case ret => exact commonWord_illegal h (by rw [show (s.cur.engine s.eng).rets = [] from hr])
  case retTo => exact commonWord_jump (u := resetWdog (eng _)) h (by rw [show (s.cur.engine s.eng).rets = _ from hr]) rfl
  case lbrk => exact commonWord_illegal h (by rw [show (s.cur.engine s.eng).loops = [] from hl])
  case lbrkTo => exact commonWord_jump (u := eng _) h (by rw [show (s.cur.engine s.eng).loops = _ from hl]) rfl
  case ptb =>
    intro a
    exact ⟨fun hi => commonWord_pass h (if_pos hi) rfl, fun hi => commonWord_illegal h (if_neg (Bool.eq_false_iff.1 hi))⟩
  case call =>
    intro a
    exact ⟨fun h0 hd => commonWord_jump (u := resetWdog (eng _)) h (if_neg (not_or.2 ⟨h0, Nat.not_le.2 hd⟩)) rfl,
      fun hi => commonWord_illegal h (if_pos hi)⟩
  case br =>
    intro a taken
    have same : (s.cur.readP p.toNat == (n == 1)) = !taken := (Bool.not_not _).symm
    have differ (ht : taken = true) := Bool.eq_false_iff.1 (same.trans (congrArg not ht))
    exact ⟨fun ht => commonWord_pass h (if_pos (same.trans (congrArg not ht))) rfl,
      fun ht h0 => commonWord_illegal h ((if_neg (differ ht)).trans (if_pos h0)),
      fun ht h0 => commonWord_jump (u := branchTo s s.eng a) h ((if_neg (differ ht)).trans (if_neg h0)) rfl⟩
  case loop =>
    intro start stop trip ends
    refine ⟨fun hi => commonWord_illegal h (if_pos (hi.imp (congrArg not) (congrArg not))), fun hok hends => ?_⟩
    have enters : ¬((!loopOk s.cur g v.toNat stop.toNat) = true ∨ (!ends) = true) := by simp [hok, hends]
    exact ⟨fun ht => commonWord_jump (u := eng _) h ((if_neg enters).trans (if_pos ht)) rfl,
      fun ht => commonWord_jump (u := eng _) h ((if_neg enters).trans (if_neg ht)) rfl⟩

end Sys2Proof.Machine

namespace Sys2Proof.Machine
open Sys2Proof

/-! The decoded words of tags 0, 1 and 2 (R37, R68, R72, R74). -/

/-- A branch of a decoder gives instructions of a kind where both its arms do. -/
theorem all_ite {p : Instr → Bool} {c : Prop} [Decidable c] {a b : Option Instr} (ha : a.all p = true) (hb : b.all p = true) :
    (if c then a else b).all p = true := by
  split
  · exact ha
  · exact hb

/-- Every word of the opcode table of the A engine has its guard, registers and mode named (R68). -/
theorem decodeA_aInfoOf (w : Parcel) : (decodeA w).all (fun i => (aInfoOf i).isSome) = true := by
  unfold decodeA
  repeat' apply all_ite
  all_goals rfl

/-- Every V operation has its form named (R72). -/
theorem decodeV_vFormOf (op : BitVec 8) (f : VFields) : (decodeV op f).all (fun i => (vFormOf i).isSome) = true := by
  unfold decodeV
  repeat' apply all_ite
  all_goals rfl

/-- Every M operation has its guard named (R74). -/
theorem decodeM_mGuardOf (op : BitVec 6) (f : MFields) : (decodeM op f).all (fun i => (mGuardOf i).isSome) = true := by
  unfold decodeM
  repeat' apply all_ite
  all_goals rfl

/-- What parcels of tag 0 decode to is an A word (R37). -/
theorem decodeParcels_aInfoOf {x : Parcel} (xs : List Parcel) (h : x.extractLsb' 0 2 = 0#2) :
    (decodeParcels (x :: xs)).all (fun i => (aInfoOf i).isSome) = true := by
  rw [decodeParcels_a xs h]
  exact decodeA_aInfoOf x

/-- What parcels of tag 1 decode to is a V word (R37). -/
theorem decodeParcels_vFormOf {x : Parcel} (xs : List Parcel) (h : x.extractLsb' 0 2 = 1#2) :
    (decodeParcels (x :: xs)).all (fun i => (vFormOf i).isSome) = true := by
  simp only [decodeParcels, h]
  split
  case h_3 => exact all_ite (decodeV_vFormOf _ _) rfl
  case h_5 => rfl
  all_goals contradiction

/-- What parcels of tag 2 decode to is an M word (R37). -/
theorem decodeParcels_mGuardOf {x : Parcel} (xs : List Parcel) (h : x.extractLsb' 0 2 = 2#2) :
    (decodeParcels (x :: xs)).all (fun i => (mGuardOf i).isSome) = true := by
  simp only [decodeParcels, h]
  split
  case h_4 => exact all_ite (decodeM_mGuardOf _ _) rfl
  case h_5 => rfl
  all_goals contradiction

/-- What decodes is what its parcels name. -/
theorem decodeParcels_of_decodeWord {ps : List Parcel} {i : Instr} (h : decodeWord ps = .ok i) : decodeParcels ps = some i := by
  unfold decodeWord at h
  split at h
  · cases h
  · dsimp only at h
    split at h
    · cases h
    · split at h
      · cases h
      · split at h <;> cases h
        assumption

/-! What issues each named word. -/

/-- Each A word issues by `aWord`, under the conditions that `aInfoOf` names. -/
theorem exec_aWord {i : Instr} {info : AInfo} (h : aInfoOf i = some info) (s : State) :
    info.dest = destOf i ∧ ∃ body, exec i s = aWord info body s := by
  cases i <;> cases h
  all_goals exact ⟨rfl, _, rfl⟩

/-- Each V word issues by `vWord`, in the form that `vFormOf` names. -/
theorem exec_vWord {i : Instr} {m : VForm} {f : VFields} (h : vFormOf i = some (m, f)) (s : State) :
    ∃ lat fmtOk run, exec i s = vWord m lat (destOf i) fmtOk run f s := by
  cases i <;> cases h
  all_goals exact ⟨_, _, _, rfl⟩

/-- Each M word issues by `vStep`, under the guard that `mGuardOf` names; none has a shared destination. -/
theorem exec_mWord {i : Instr} {g : BitVec 4} {stall : Nat} (h : mGuardOf i = some (g, stall)) (s : State) :
    destOf i = 0 ∧ ∃ reads body, exec i s = .next (vStep .M g 6 stall reads 0 body s) := by
  cases i <;> cases h
  all_goals exact ⟨rfl, _, _, rfl⟩

/-! A false guard (R27, R41, R51). -/

/-- A V or M word that passes keeps its stall count. -/
theorem passDest_retire_nextIssue (s : State) (e : Engine) (x n stall : Nat) :
    ((retireWord (passDest s e x) e n stall true).cur.engine e).nextIssue = max (s.cur.engine e).nextIssue (s.cycle + max 1 stall) := by
  rw [retireWord_cur, passDest_cur, passDest_cycle, Cell.publish_eq, Cell.bump_eq, Cell.counted_counted, Cell.counted_retire_engine]

/-- A guard-false V or M word passes and does nothing. -/
theorem vStep_not {e : Engine} {pg : BitVec 4} {dest : Nat} {s : State} (h : VNot e pg dest s) (n stall : Nat) (reads : List Nat)
    (body : State → VRes) : vStep e pg n stall reads dest body s = retireWord (passDest s e dest) e n stall true := by
  obtain ⟨hread, hwrite, hguard⟩ := h
  simp only [vStep, hread, hwrite, hguard, Bool.not_true, Bool.not_false, Bool.false_eq_true, if_false, if_true]

theorem VPasses.of_vStep {e : Engine} {pg : BitVec 4} {i : Instr} {s : State} (h : VNot e pg (destOf i) s) {n stall : Nat}
    {reads : List Nat} {body : State → VRes} (hi : exec i s = .next (vStep e pg n stall reads (destOf i) body s)) :
    VPasses e n stall i s :=
  ⟨_, by rw [hi, vStep_not h], Issued.pass s e n stall (destOf i), passDest_retire_nextIssue s e (destOf i) n stall⟩

/-- A word of command mode takes PRIV in a strand cell, whatever its guard (R66 step 3). -/
theorem traps_priv {i : Instr} {info : AInfo} {s : State} (h : aInfoOf i = some info) (hm : info.cm = true) (hc : isCmd s.me = false) :
    Traps i s .priv s.cur.A.pc := by
  obtain ⟨-, body, hi⟩ := exec_aWord h s
  exact hi.trans (aWord_priv hm hc body)

/-! Popping (R136, R164). -/

section
variable {c : Cell} {q : Nat}

theorem popOpt_nil (h : c.queue q = []) : popOpt c (some q) = .error (.empty false) := by
  simp [popOpt, Cell.headAt, h]

variable {e : QEntry} {es : List QEntry} (h : c.queue q = e :: es)
include h

theorem popOpt_filling (he : e.full = false) : popOpt c (some q) = .error (.empty e.fills) := by
  simp [popOpt, Cell.headAt, h, he]

theorem popOpt_full (he : e.full = true) : popOpt c (some q) = .ok (some e, c.popHead q) := by
  simp [popOpt, Cell.headAt, h, he]

end

/-! The waits and faults of a V word, in their order (R46, R135, R136, R194, R211). -/

/-- The push of a V word would exceed QCAP, or an entry it pops has another size than it asks for (R135, R136). -/
abbrev VMissized (m : VForm) (f : VFields) (c : Cell) (e1 e2 : Option QEntry) : Prop :=
  (pushBlocks m f ≠ 0 ∧ c.qcapOf (vEff c f.D 16) < pushBlocks m f) ∨ entrySizeOk f.S1 e1 = false ∨ entrySizeOk f.S2 e2 = false

/-- A push waits only where it fits in QCAP and finds no room. -/
theorem not_waits_draw {nb cap : Nat} {room : Bool} (h : nb ≠ 0 → nb ≤ cap → room = true) :
    ¬(nb ≠ 0 ∧ ¬(nb ≠ 0 ∧ cap < nb) ∧ (!room) = true) := by
  rintro ⟨hnb, hfits, hroom⟩
  rw [h hnb (Nat.not_lt.1 fun hlt => hfits ⟨hnb, hlt⟩)] at hroom
  cases hroom

section
variable {m : VForm} {f : VFields} {s : State} (lat : Nat) (fmtOk : VIn → Bool) (run : VIn → VOut)

theorem vBody_waits_S1 {w : WaitKind} (h : popOpt s.cur (popQueue s.cur m.S1 f.S1) = .error w) :
    vBody m lat fmtOk run f s = .stay w := by
  simp only [vBody, h]

variable {e1 e2 : Option QEntry} {c1 c2 : Cell} (h1 : popOpt s.cur (popQueue s.cur m.S1 f.S1) = .ok (e1, c1))
include h1

theorem vBody_waits_S2 {w : WaitKind} (h : popOpt c1 (popQueue s.cur m.S2 f.S2) = .error w) :
    vBody m lat fmtOk run f s = .stay w := by
  simp only [vBody, h1, h]

variable (h2 : popOpt c1 (popQueue s.cur m.S2 f.S2) = .ok (e2, c2))
include h2

theorem vBody_waits_draw (hp : pushBlocks m f ≠ 0) (hq : pushBlocks m f ≤ s.cur.qcapOf (vEff s.cur f.D 16))
    (hd : c2.canDraw (vEff s.cur f.D 16) (pushBlocks m f) = false) : vBody m lat fmtOk run f s = .stay .draw := by
  simp only [vBody, h1, h2]
  exact if_pos ⟨hp, fun k => Nat.not_lt.2 hq k.2, congrArg not hd⟩

variable (hroom : pushBlocks m f ≠ 0 → pushBlocks m f ≤ s.cur.qcapOf (vEff s.cur f.D 16) →
  c2.canDraw (vEff s.cur f.D 16) (pushBlocks m f) = true)
include hroom

theorem vBody_early (he : ∃ k ∈ vKeys s.cur m f, earlyRead s.cur .V k s.cycle = true) :
    vBody m lat fmtOk run f s = .trap .stallShort := by
  simp only [vBody, h1, h2, if_neg (not_waits_draw hroom)]
  exact if_pos (List.any_eq_true.2 he)

variable (hlate : ¬ ∃ k ∈ vKeys s.cur m f, earlyRead s.cur .V k s.cycle = true)
include hlate

theorem vBody_qsize (hs : VMissized m f s.cur e1 e2) : vBody m lat fmtOk run f s = .trap .qsize := by
  simp only [vBody, h1, h2, if_neg (not_waits_draw hroom), if_neg (mt List.any_eq_true.1 hlate)]
  exact if_pos (hs.imp_right (Or.imp (congrArg not) (congrArg not)))

theorem vBody_imms (hs : ¬ VMissized m f s.cur e1 e2) (hi : immsOk m f = false) : vBody m lat fmtOk run f s = .trap .fmt := by
  simp only [vBody, h1, h2, if_neg (not_waits_draw hroom), if_neg (mt List.any_eq_true.1 hlate)]
  simp only [VMissized, ← Bool.not_eq_true'] at hs
  rw [if_neg hs]
  exact if_pos (.inl (congrArg not hi))

end

/-- A V word whose body waits does no more. -/
theorem vWord_stay {m : VForm} {f : VFields} {s : State} {lat dest : Nat} {fmtOk : VIn → Bool} {run : VIn → VOut} {w : WaitKind}
    (g : VGo .V f.pg (vReads f) dest s) (h : vBody m lat fmtOk run f s = .stay w) :
    vWord m lat dest fmtOk run f s = .next (setWait s .V w) := by
  refine congrArg Host.Outcome.next ((vStep_go g 3 f.stall.toNat _).trans ?_)
  rw [h]

/-- A V word whose body faults does no more. -/
theorem vWord_trap {m : VForm} {f : VFields} {s : State} {lat dest : Nat} {fmtOk : VIn → Bool} {run : VIn → VOut} {code : FaultCode}
    (g : VGo .V f.pg (vReads f) dest s) (h : vBody m lat fmtOk run f s = .trap code) :
    vWord m lat dest fmtOk run f s = .next (faultHere s .V code s.cur.V.pc) := by
  refine congrArg Host.Outcome.next ((vStep_go g 3 f.stall.toNat _).trans ?_)
  rw [h]
  rfl

/-- Settles O23: each named word issues by the one operation of its engine, and the decoder gives named words only. -/
theorem modeAndGuardComeBeforeTheEffect : Obligations.ModeAndGuardComeBeforeTheEffect := by
  unfold Obligations.ModeAndGuardComeBeforeTheEffect
  refine ⟨fun p s t d h r st hc => ?priv, fun i info s hi hn => ?passA, fun i m f s hi => ?v, fun i g stall s hi hn => ?passM,
    fun c q e es => ⟨popOpt_nil, popOpt_filling, popOpt_full⟩, fun x xs i hd => ?decoded⟩
  case priv =>
    have priv {i : Instr} {info : AInfo} (h : aInfoOf i = some info) (hm : info.cm = true) := traps_priv h hm hc
    exact ⟨priv rfl rfl, priv rfl rfl, priv rfl rfl, priv rfl rfl, priv rfl rfl, priv rfl rfl, priv rfl rfl, priv rfl rfl,
      priv rfl rfl, fun hr => ⟨priv rfl hr, priv rfl hr⟩⟩
  case passA =>
    obtain ⟨hdest, body, he⟩ := exec_aWord hi s
    obtain ⟨t, ht, hiss⟩ := aWord_not hn body
    exact ⟨t, he.trans ht, hdest ▸ hiss⟩
  case passM =>
    obtain ⟨hdest, reads, body, he⟩ := exec_mWord hi s
    rw [← hdest] at he hn
    exact .of_vStep hn he
  case v =>
    obtain ⟨lat, fmtOk, run, he⟩ := exec_vWord hi s
    intro c q nb traps
    have stays {w : WaitKind} (g) (h : vBody m lat fmtOk run f s = .stay w) := he.trans (vWord_stay g h)
    have faults {code : FaultCode} (g) (h : vBody m lat fmtOk run f s = .trap code) := he.trans (vWord_trap g h)
    exact ⟨fun hn => .of_vStep hn he, fun g => ⟨fun w h => stays g (vBody_waits_S1 _ _ _ h), fun e1 c1 h1 =>
      ⟨fun w h => stays g (vBody_waits_S2 _ _ _ h1 h), fun e2 c2 h2 =>
        ⟨fun hp hq hd => stays g (vBody_waits_draw _ _ _ h1 h2 hp hq hd), fun hroom =>
          ⟨fun h => faults g (vBody_early _ _ _ h1 h2 hroom h), fun hl h => faults g (vBody_qsize _ _ _ h1 h2 hroom hl h),
            fun hl hs h => faults g (vBody_imms _ _ _ h1 h2 hroom hl hs h)⟩⟩⟩⟩⟩
  case decoded =>
    have named {p : Instr → Bool} (h : (decodeParcels (x :: xs)).all p = true) : p i = true :=
      (Option.all_eq_true _ _).1 h i (decodeParcels_of_decodeWord hd)
    exact ⟨fun h => named (decodeParcels_aInfoOf xs h), fun h => named (decodeParcels_vFormOf xs h),
      fun h => named (decodeParcels_mGuardOf xs h)⟩

end Sys2Proof.Machine

namespace Sys2Proof.Machine
open Sys2Proof

/-! The machine at reset (R83, R397). -/

theorem cell_reset (ix : Nat) : State.reset.cell ix = Cell.reset := rfl

/-- An engine at reset has walked past nothing and may issue at once. -/
theorem Cell.reset_engine (e : Engine) : Cell.reset.engine e = EngineState.reset := by
  cases e <;> rfl

/-- A cell whose register files are empty reads 0 from every register but a0, p0 and m0, under every heat (R80). -/
theorem reads_of_empty_files {c : Cell} (ha : c.aregs = []) (hp : c.pregs = []) (hm : c.mregs = []) (hk : c.kregs = []) (hv : c.vregs = [])
    {r : Nat} (hr : 1 ≤ r) : c.readA r = 0 ∧ c.readP r = false ∧ c.readM r = 0 ∧ c.readK r = 0 ∧ c.readV r = [] := by
  have hr0 : r ≠ 0 := by omega
  simp [Cell.readA, Cell.readP, Cell.readM, Cell.readK, Cell.readV, readTag, ha, hp, hm, hk, hv, hr0]

/-- Settles O6: a cell that no map lists is `Cell.reset`, whose files, engines and queues are empty. -/
theorem resetState : Obligations.ResetState := by
  unfold Obligations.ResetState
  refine ⟨rfl, rfl, rfl, rfl, fun ix => ?_⟩
  rw [cell_reset]
  refine ⟨rfl, rfl, rfl, rfl, rfl, rfl, rfl, rfl, rfl, rfl, rfl, rfl, rfl, fun h r hr => reads_of_empty_files rfl rfl rfl rfl rfl hr,
    fun e => ?engines, rfl, rfl, rfl, rfl, rfl, fun q => ⟨rfl, rfl, rfl⟩⟩
  case engines =>
    rw [Cell.reset_engine]
    exact ⟨rfl, rfl, rfl, rfl⟩

end Sys2Proof.Machine

namespace Sys2Proof.Machine
open Sys2Proof

/-! Reading a control register (R83 Table 3, R103). -/

section
variable (s : State) (ix : Nat) {r : Nat}

theorem srRead_level (lo : 0x10 ≤ r) (hi : r ≤ 0x15) : srRead s ix r = BitVec.ofNat 64 ((s.cell ix).A.level (r - 0x10)) := by
  simp (disch := omega) only [srRead, if_neg, if_pos]

theorem srRead_qmin (lo : 0x20 ≤ r) (hi : r ≤ 0x2F) : srRead s ix r = BitVec.ofNat 64 ((s.cell ix).qminOf (r - 0x20)) := by
  simp (disch := omega) only [srRead, if_neg, if_pos]

theorem srRead_qcap (lo : 0x30 ≤ r) (hi : r ≤ 0x3F) : srRead s ix r = BitVec.ofNat 64 ((s.cell ix).qcapOf (r - 0x30)) := by
  simp (disch := omega) only [srRead, if_neg, if_pos]

theorem srRead_age (lo : 0x40 ≤ r) : srRead s ix r = BitVec.ofNat 64 (lookup 1048576 (s.die (dieOfCell ix)).ages (r - 0x40)) := by
  simp (disch := omega) only [srRead, if_neg]

end

/-- An mfsr that issues writes rd with what the register reads as in this cycle. -/
theorem mfsr_writes {p : BitVec 4} {r : BitVec 8} {d : BitVec 5} {st : State} {v : Word}
    (g : AGo { pg := p, cm := srCommand r.toNat, aregs := [d.toNat] } st) (hv : srRead st st.me r.toNat = v) :
    WritesA (.mfsr p r d) st d v :=
  aWord_done g (congrArg (fun x => Res.done (putA st d.toNat x)) hv)

/-- Settles O13: the word writes what `srRead` gives, which is Table 3 row by row. -/
theorem controlRegisterReads : Obligations.ControlRegisterReads := by
  unfold Obligations.ControlRegisterReads
  intro p r d st g c k reads
  have gives {n : BitVec 8} {v : Word} (h : r = n) (hv : srRead st st.me n.toNat = v) : reads v := mfsr_writes g (h ▸ hv)
  exact ⟨(gives · rfl), (gives · rfl), (gives · rfl), (gives · rfl), (gives · rfl), (gives · rfl),
    (gives · rfl), (gives · rfl), (gives · rfl), (gives · rfl), (gives · rfl), (gives · rfl),
    (gives · rfl), (gives · rfl), (gives · rfl),
    fun lo hi => mfsr_writes g (srRead_level st st.me lo hi), fun lo hi => mfsr_writes g (srRead_qmin st st.me lo hi),
    fun lo hi => mfsr_writes g (srRead_qcap st st.me lo hi), fun lo _ => mfsr_writes g (srRead_age st st.me lo)⟩

end Sys2Proof.Machine

namespace Sys2Proof.Machine
open Sys2Proof

/-! Which values each control register accepts, and what one leaves in the cell (R84). -/

section
variable (c : Cell) (cycle : Nat) (v : Word) (n : Nat)

theorem srCell_engctl : srCell c cycle 0x00 v n = if v.toNat < 8 then some (c.setEngctl n (v.setWidth 3)) else none := rfl

theorem srCell_slip : srCell c cycle 0x01 v n = if 1 ≤ v.toNat ∧ v.toNat ≤ 64 then some { c with slip := v.toNat } else none := rfl

theorem srCell_faultc : srCell c cycle 0x05 v n = if v.toNat < 2048 then some { c with faultc := v.setWidth 11 } else none := rfl

theorem srCell_faultv : srCell c cycle 0x06 v n = some { c with faultv := v } := rfl

theorem srCell_vctl : srCell c cycle 0x07 v n =
    if v.toNat / 8 % 2 ^ 29 = 0 ∧ 1 ≤ v.toNat % 8 ∧ v.toNat % 8 ≤ 5 then some (c.reseed v) else none := rfl

theorem srCell_ast : srCell c cycle 0x08 v n = if v.toNat < 4096 then some (c.clearAst cycle (v.setWidth 12)) else none := rfl

theorem srCell_pgahead : srCell c cycle 0x0A v n = if v.toNat < 65536 then some { c with pgahead := v.setWidth 16 } else none := rfl

theorem srCell_fmtbase : srCell c cycle 0x0B v n = if v.toNat < 16 then some { c with fmtbase := v.setWidth 4 } else none := rfl

theorem srCell_wdog : srCell c cycle 0x0C v n = some { c with wdogLimit := v.toNat % 2 ^ 32 } := rfl

variable {r q : Nat}

/-- QMINn keeps within its QCAP, and all minimums within the pool. -/
theorem srCell_qmin (hr : r = 0x20 + q) (hq : q < 16) : srCell c cycle r v n =
    if v.toNat ≤ c.qcapOf q ∧ sumQ (fun k => if k = q then v.toNat else c.qminOf k) ≤ 8192
    then some { c with qmin := insertAt c.qmin q v.toNat } else none := by
  subst hr
  simp (disch := omega) only [srCell, if_neg, if_pos, Nat.add_sub_cancel_left]

/-- QCAPn is 1 to 8192 and at least its QMIN. -/
theorem srCell_qcap (hr : r = 0x30 + q) (hq : q < 16) : srCell c cycle r v n =
    if 1 ≤ v.toNat ∧ v.toNat ≤ 8192 ∧ c.qminOf q ≤ v.toNat then some { c with qcap := insertAt c.qcap q v.toNat } else none := by
  subst hr
  simp (disch := omega) only [srCell, if_neg, if_pos, Nat.add_sub_cancel_left]

/-- AGEn lies in the die: of the cell nothing changes. -/
theorem srCell_age (lo : 0x40 ≤ r) (hi : r ≤ 0x43) :
    srCell c cycle r v n = if 1024 ≤ v.toNat ∧ v.toNat < 2 ^ 32 then some c else none := by
  simp (disch := omega) only [srCell, if_neg, if_pos]

/-- A register that is only read accepts no value (R69, R84). -/
theorem srCell_readOnly {r : BitVec 8} (hr : srReadOnly r = true) : srCell c cycle r.toNat v n = none := by
  have cases : (r = 0x02 ∨ r = 0x03 ∨ r = 0x04 ∨ r = 0x09 ∨ r = 0x0D ∨ r = 0x0E) ∨ (0x10 ≤ r.toNat ∧ r.toNat ≤ 0x15) := by
    simpa [srReadOnly, BitVec.le_def, or_assoc] using hr
  obtain single | ⟨lo, hi⟩ := cases
  · rcases single with rfl | rfl | rfl | rfl | rfl | rfl
    all_goals rfl
  · simp (disch := omega) only [srCell, if_neg, if_pos]

end

/-- A write of a register of the cell leaves the die's AGE registers alone. -/
theorem setAge_cell (s : State) (ix : Nat) {r : Nat} (v : Word) (hr : r < 0x40) : setAge s ix r v = s :=
  if_neg (by omega)

theorem setAge_age (s : State) (ix : Nat) {r : Nat} (v : Word) (lo : 0x40 ≤ r) (hi : r ≤ 0x43) :
    setAge s ix r v = s.modDie (dieOfCell ix) (fun d => { d with ages := insertAt d.ages (r - 0x40) v.toNat }) :=
  if_pos (by omega)

/-! The events that write a control register. -/

section
variable {cid : CellId} {r : Nat} {v : Word} {s : State} {c : Cell}

theorem srEvent_accepted (h : srCell (s.cell (cellIx cid)) s.cycle r v 0 = some c) :
    srEvent cid r v s = .next (setAge (s.setCell (cellIx cid) c) (cellIx cid) r v) := by
  simp only [srEvent, srWrite, h]

theorem srEvent_refused (h : srCell (s.cell (cellIx cid)) s.cycle r v 0 = none) : srEvent cid r v s = .next s := by
  simp only [srEvent, srWrite, h]

/-- An event writes a register of the cell where R84 accepts the value, and otherwise changes nothing. -/
theorem srEvent_judged {ok : Prop} [Decidable ok] (hr : r < 0x40)
    (h : srCell (s.cell (cellIx cid)) s.cycle r v 0 = if ok then some c else none) :
    (ok → srEvent cid r v s = .next (s.setCell (cellIx cid) c)) ∧ (¬ ok → srEvent cid r v s = .next s) :=
  ⟨fun k => by rw [srEvent_accepted (h.trans (if_pos k)), setAge_cell _ _ _ hr], fun k => srEvent_refused (h.trans (if_neg k))⟩

/-- WRITE_QCAP is the write of a QMINn or QCAPn, and of no other register. -/
theorem execWriteQcap_queue {r : BitVec 8} (lo : 0x20 ≤ r.toNat) (hi : r.toNat < 0x40) :
    exec (.writeQcap cid r v) s = srEvent cid r.toNat v s :=
  if_pos ⟨lo, hi⟩

theorem execWriteQcap_other {r : BitVec 8} (h : r.toNat < 0x20 ∨ 0x40 ≤ r.toNat) : exec (.writeQcap cid r v) s = .next s :=
  if_neg (by omega)

end

/-- Settles O31: each event is `srEvent` of its register, which does what R84 makes of the value. -/
theorem controlRegisterEvents : Obligations.ControlRegisterEvents := by
  unfold Obligations.ControlRegisterEvents
  intro cid v s ix c n becomes slip ast vctl qmin qcap
  have judge {r : Nat} (hr : r < 0x40) {i : Instr} (hi : exec i s = srEvent cid r v s) {ok : Prop} [Decidable ok] {c' : Cell}
      (h : srCell c s.cycle r v 0 = if ok then some c' else none) : becomes i ok c' := by
    have judged := srEvent_judged hr h
    rwa [← hi] at judged
  have always {r : Nat} (hr : r < 0x40) {i : Instr} (hi : exec i s = srEvent cid r v s) {c' : Cell}
      (h : srCell c s.cycle r v 0 = some c') : becomes i True c' := judge hr hi (h.trans (if_pos trivial).symm)
  refine ⟨judge (by decide) rfl (srCell_slip ..), judge (by decide) rfl (srCell_ast ..), judge (by decide) rfl (srCell_vctl ..),
    judge (by decide) rfl (srCell_slip ..), judge (by decide) rfl (srCell_ast ..), judge (by decide) rfl (srCell_vctl ..),
    fun q hq => ?queues, fun r hr => execWriteQcap_other hr, judge (by decide) rfl (srCell_engctl ..),
    judge (by decide) rfl (srCell_faultc ..), always (by decide) rfl (srCell_faultv ..), judge (by decide) rfl (srCell_pgahead ..),
    judge (by decide) rfl (srCell_fmtbase ..), always (by decide) rfl (srCell_wdog ..),
    fun r hr => srEvent_refused (srCell_readOnly _ _ _ _ hr), fun r lo hi => ?ages⟩
  case queues =>
    have hmin : (0x20 + q).toNat = 0x20 + q.toNat := by bv_omega
    have hcap : (0x30 + q).toNat = 0x30 + q.toNat := by bv_omega
    exact ⟨judge (by omega) (execWriteQcap_queue (by omega) (by omega)) (srCell_qmin _ _ _ _ hmin hq),
      judge (by omega) rfl (srCell_qmin _ _ _ _ hmin hq),
      judge (by omega) (execWriteQcap_queue (by omega) (by omega)) (srCell_qcap _ _ _ _ hcap hq),
      judge (by omega) rfl (srCell_qcap _ _ _ _ hcap hq)⟩
  case ages =>
    have h := srCell_age c s.cycle v 0 lo hi
    split
    · next ok => exact (srEvent_accepted (h.trans (if_pos ok))).trans (by rw [setAge_age _ _ _ lo hi])
    · next bad => exact srEvent_refused (h.trans (if_neg bad))

/-! The issue of an mtsr (R102, R104). -/

theorem Cell.qminOf_congr {c d : Cell} (h : c.qmin = d.qmin) : c.qminOf = d.qminOf :=
  funext fun q => congrArg (lookup 0 · q) h

theorem Cell.qcapOf_congr {c d : Cell} (h : c.qcap = d.qcap) : c.qcapOf = d.qcapOf :=
  funext fun q => congrArg (lookup 8192 · q) h

/-- The registers of queues and the AGE registers change in the next cycle (R102). -/
theorem srAtOnce_late {r : Nat} (lo : 0x20 ≤ r) : srAtOnce r = false := by
  simp only [srAtOnce, Bool.or_eq_false_iff, beq_eq_false_iff_ne]
  omega

/-- The write of a control register lands, where no trap stands between, as R84 judges the value then (R102). -/
theorem applyLanding_ctrl {l : Landing} {r n : Nat} {v : Word} {c : Cell} (h : l.what = .ctrl r v n) (hs : c.saved = none) :
    applyLanding l c = (srCell c l.due r v n).getD c := by
  simp only [applyLanding, h, landCtrl, hs]

/-- The landing that an mtsr leaves for the next cycle; ENGCTL lands under the number of the word among those that write it (R86, R102). -/
def srLanding (st : State) (r : Nat) (v : Word) : Landing := ⟨st.cycle + 1, st.nextId, .ctrl r v (st.cur.expects .A shEng + 1)⟩

/-- A due landing of an AGE register writes it in the cell's die (R84, R102). -/
theorem resultLanding_age {x : State} {cid : CellId} {l : Landing} {r n : Nat} {v : Word} (hw : l.what = .ctrl r v n) (lo : 0x40 ≤ r)
    (hi : r ≤ 0x43) (hl : (x.cell (cellIx cid)).landings = [l]) (hd : l.due ≤ x.cycle) :
    ∃ t, exec (.resultLanding cid) x = .next t ∧ t.die (dieOfCell (cellIx cid)) =
      { x.die (dieOfCell (cellIx cid)) with ages := insertAt (x.die (dieOfCell (cellIx cid))).ages (r - 0x40) v.toNat } := by
  refine ⟨_, rfl, ?_⟩
  simp only [hl, landAges, hw, if_pos hd, setAge_age _ _ _ lo hi, State.modCell_die, State.modDie_die_self]

section
variable {p : BitVec 4} {r : BitVec 8} {s : BitVec 5} {st : State}
  (g : AGo { pg := p, cm := srCommand r.toNat, dest := srShared r, aregs := [s.toNat] } st)
include g

theorem mtsr_refused (h : srCell st.cur st.cycle r.toNat (st.cur.readA s.toNat) 0 = none) :
    Traps (.mtsr p r s) st .illegal st.cur.A.pc :=
  aWord_trap g (by simp only [srSend, h])

theorem mtsr_sets {c : Cell} (hr : srAtOnce r.toNat = true) (h : srCell st.cur st.cycle r.toNat (st.cur.readA s.toNat) 0 = some c) :
    Issues (.mtsr p r s) st (st.upd (fun _ => c)) :=
  aWord_done g (by simp only [srSend, h, hr, if_true])

theorem mtsr_leaves {c : Cell} (hr : srAtOnce r.toNat = false) (h : srCell st.cur st.cycle r.toNat (st.cur.readA s.toNat) 0 = some c) :
    ∃ u, Issues (.mtsr p r s) st u ∧ Local st u
      ∧ (srLanding st r.toNat (st.cur.readA s.toNat)).due = st.cycle + 1
      ∧ u.cur = { st.cur with landings := st.cur.landings ++ [srLanding st r.toNat (st.cur.readA s.toNat)] } :=
  ⟨_, aWord_done g (by simp only [srSend, h, hr, Bool.false_eq_true, if_false]), addLanding_local .., rfl, addLanding_cur ..⟩

/-- A word that writes at its issue (R85, R104) sets the register where R84 accepts the value, and otherwise raises ILLEGAL. -/
theorem mtsr_judged_now {ok : Prop} [Decidable ok] {f : Cell → Cell} (hr : srAtOnce r.toNat = true)
    (h : ∀ c, srCell c st.cycle r.toNat (st.cur.readA s.toNat) 0 = if ok then some (f c) else none) :
    (ok → Issues (.mtsr p r s) st (st.upd f)) ∧ (¬ ok → Traps (.mtsr p r s) st .illegal st.cur.A.pc) :=
  ⟨fun k => mtsr_sets g hr ((h st.cur).trans (if_pos k)), fun k => mtsr_refused g ((h st.cur).trans (if_neg k))⟩

/-- Any other word leaves a landing, which sets the register in the next cycle where R84 accepts the value, and otherwise raises ILLEGAL.
R84 judges a value by the bounds of the queues at most, so the landing is accepted where these are as the word found them. -/
theorem mtsr_judged_later {ok : Cell → Prop} [DecidablePred ok] {f : Nat → Cell → Cell} (hr : srAtOnce r.toNat = false)
    (h : ∀ c cycle n, srCell c cycle r.toNat (st.cur.readA s.toNat) n = if ok c then some (f n c) else none)
    (bounds : ∀ c, c.qmin = st.cur.qmin → c.qcap = st.cur.qcap → (ok c ↔ ok st.cur)) :
    (ok st.cur → ∃ l : Landing, (∃ u, Issues (.mtsr p r s) st u ∧ Local st u ∧ l.due = st.cycle + 1
        ∧ u.cur = { st.cur with landings := st.cur.landings ++ [l] })
      ∧ ∀ c : Cell, c.saved = none → c.qmin = st.cur.qmin → c.qcap = st.cur.qcap → applyLanding l c = f (st.cur.expects .A shEng + 1) c)
    ∧ (¬ ok st.cur → Traps (.mtsr p r s) st .illegal st.cur.A.pc) := by
  refine ⟨fun k => ⟨srLanding st r.toNat (st.cur.readA s.toNat), mtsr_leaves g hr ((h ..).trans (if_pos k)), fun c hs hmin hcap => ?_⟩,
    fun k => mtsr_refused g ((h ..).trans (if_neg k))⟩
  rw [applyLanding_ctrl rfl hs, h, if_pos ((bounds c hmin hcap).2 k)]
  rfl

end

/-- Settles O14: each register by what R84 makes of the value, now or at the landing. -/
theorem controlRegisterWrites : Obligations.ControlRegisterWrites := by
  unfold Obligations.ControlRegisterWrites
  intro p r s st g v n q sets leaves lands refused
  refine ⟨?engctl, ?slip, ?faultc, ?faultv, ?vctl, ?ast, ?pgahead, ?fmtbase, ?wdog, ?qmin, ?qcap, ?age,
    fun hr => mtsr_refused g (srCell_readOnly _ _ _ _ hr)⟩
  case engctl =>
    rintro rfl
    exact (mtsr_judged_later g rfl (srCell_engctl · · v) (fun _ _ _ => .rfl)).imp_right fun no h => no (by omega)
  case slip =>
    rintro rfl
    have ⟨yes, no⟩ := mtsr_judged_later g rfl (srCell_slip · · v) (fun _ _ _ => .rfl)
    exact ⟨fun lo hi => yes ⟨lo, hi⟩, fun h => no (by omega)⟩
  case faultc =>
    rintro rfl
    exact (mtsr_judged_later g rfl (srCell_faultc · · v) (fun _ _ _ => .rfl)).imp_right fun no h => no (by omega)
  case faultv =>
    rintro rfl
    exact (mtsr_judged_later g rfl (fun c cycle k => (srCell_faultv c cycle v k).trans (if_pos trivial).symm)
      (fun _ _ _ => .rfl)).1 trivial
  case vctl =>
    rintro rfl
    have ⟨yes, no⟩ := mtsr_judged_now g rfl (srCell_vctl · st.cycle v 0)
    exact ⟨fun h lo hi => yes ⟨h, lo, hi⟩, fun h => no (by omega)⟩
  case ast =>
    rintro rfl
    exact (mtsr_judged_now g rfl (srCell_ast · st.cycle v 0)).imp_right fun no h => no (by omega)
  case pgahead =>
    rintro rfl
    exact (mtsr_judged_later g rfl (srCell_pgahead · · v) (fun _ _ _ => .rfl)).imp_right fun no h => no (by omega)
  case fmtbase =>
    rintro rfl
    exact (mtsr_judged_now g rfl (srCell_fmtbase · st.cycle v 0)).imp_right fun no h => no (by omega)
  case wdog =>
    rintro rfl
    exact (mtsr_judged_later g rfl (fun c cycle k => (srCell_wdog c cycle v k).trans (if_pos trivial).symm)
      (fun _ _ _ => .rfl)).1 trivial
  case qmin =>
    intro lo hi ok
    exact mtsr_judged_later g (srAtOnce_late lo) (srCell_qmin · · v · (q := q) (by omega) (by omega))
      (fun c hmin hcap => by rw [Cell.qminOf_congr hmin, Cell.qcapOf_congr hcap])
  case qcap =>
    intro lo hi ok
    exact mtsr_judged_later g (srAtOnce_late (by omega)) (srCell_qcap · · v · (q := q) (by omega) (by omega))
      (fun c hmin _ => by rw [Cell.qminOf_congr hmin])
  case age =>
    intro lo hi
    have judged := srCell_age st.cur st.cycle v 0 lo hi
    refine ⟨fun h => mtsr_refused g (judged.trans (if_neg (by omega))), fun h1 h2 =>
      ⟨srLanding st r.toNat v, mtsr_leaves g (srAtOnce_late (by omega)) (judged.trans (if_pos ⟨h1, h2⟩)), ?_⟩⟩
    intro x cid die hl hd
    rw [show q = r.toNat - 0x40 by omega]
    exact resultLanding_age rfl lo hi hl hd

end Sys2Proof.Machine

namespace Sys2Proof.Machine
open Sys2Proof

/-! The counts of bits (R93). -/

/-- Below its highest one bit a number of n bits has as many leading zeros as places stand above that bit. -/
theorem clzN_of_highest {v k : Nat} (n : Nat) (hk : v.testBit k = true) (above : ∀ j, k < j → v.testBit j = false) :
    clzN v n = n - (k + 1) := by
  have lo : 2 ^ k ≤ v := Nat.ge_two_pow_of_testBit hk
  have hi : v < 2 ^ (k + 1) := Nat.lt_pow_two_of_testBit v fun j hj => above j hj
  have hv : v ≠ 0 := by
    rintro rfl
    simp at hk
  rw [clzN, if_neg hv, (Nat.log2_eq_iff hv).2 ⟨lo, hi⟩]

theorem ctzN_zero (n : Nat) : ctzN 0 n = n := by
  induction n with
  | zero => rfl
  | succ n ih => simp [ctzN, ih, Nat.add_comm]

/-- The trailing zeros of a number end at its lowest one bit. -/
theorem ctzN_of_lowest {n : Nat} : ∀ {v k : Nat}, k < n → v.testBit k = true → (∀ j, j < k → v.testBit j = false) → ctzN v n = k := by
  induction n with
  | zero => intro v k hk; omega
  | succ n ih =>
    intro v k hk hbit below
    cases k with
    | zero => simpa [ctzN] using hbit
    | succ k =>
      have even : ¬ v % 2 = 1 := by simpa using below 0 (Nat.succ_pos k)
      have rest : ctzN (v / 2) n = k := ih (by omega) (by rwa [← Nat.testBit_succ]) fun j hj => by
        rw [← Nat.testBit_succ]
        exact below (j + 1) (by omega)
      rw [ctzN, if_neg even, rest, Nat.add_comm]

/-- The count of the ones among the low n bits counts the places that hold a one. -/
theorem popCount_eq_countP (n : Nat) : ∀ v : Nat, popCount v n = (List.range n).countP (fun k => v.testBit k) := by
  induction n with
  | zero => intro v; rfl
  | succ n ih =>
    intro v
    have low : v % 2 = if v.testBit 0 then 1 else 0 := by
      simp only [Nat.testBit_zero, decide_eq_true_eq]
      split <;> omega
    rw [popCount, ih, low, List.range_succ_eq_map, List.countP_cons, List.countP_map, Nat.add_comm]
    simp only [Function.comp_def, Nat.testBit_succ]

theorem popCount_toNat (a : Word) : popCount a.toNat 64 = (List.range 64).countP (fun k => a.getLsbD k) :=
  popCount_eq_countP 64 a.toNat

/-! The values of Table 2 (R93). -/

theorem mul_eq_ofNat (a b : Word) : a * b = BitVec.ofNat 64 (a.toNat * b.toNat) := by
  rw [BitVec.ofNat_mul, BitVec.ofNat_toNat, BitVec.ofNat_toNat, BitVec.setWidth_eq, BitVec.setWidth_eq]

theorem low32_eq (x : Word) : low32 x = (x.setWidth 32).signExtend 64 := by
  rw [low32, sx, BitVec.setWidth_eq_extractLsb' (by omega)]

/-- A choice by the signed order of words is one by their signed values. -/
theorem ite_slt (a b x y : Word) : (if a.slt b then x else y) = if a.toInt < b.toInt then x else y := by
  simp only [BitVec.slt_iff_toInt_lt]

theorem ite_ult (a b x y : Word) : (if a.ult b then x else y) = if a.toNat < b.toNat then x else y := by
  simp only [BitVec.ult_iff_toNat_lt]

/-- Settles O9: a word with two operands is `binWord`, one with one operand `unWord`, and each value is that of Table 2. -/
theorem scalarArithmeticWritesItsResult : Obligations.ScalarArithmeticWritesItsResult := by
  unfold Obligations.ScalarArithmeticWritesItsResult
  refine ⟨fun p t s d st g => ?binary, fun p s d st g =>
    ⟨⟨_, unWord_go (f := fun a => BitVec.ofNat 64 (clzN a.toNat 64)) g rfl, ?clz0, ?clz⟩,
      ⟨_, unWord_go (f := fun a => BitVec.ofNat 64 (ctzN a.toNat 64)) g rfl, ?ctz0, ?ctz⟩, ?popc⟩⟩
  case binary =>
    exact ⟨binWord_go g rfl, binWord_go g rfl, binWord_go g rfl, binWord_go g rfl, binWord_go g rfl,
      binWord_go (f := fun a b => a <<< sh6 b) g rfl, binWord_go (f := fun a b => a >>> sh6 b) g rfl,
      binWord_go (f := fun a b => a.sshiftRight (sh6 b)) g rfl, binWord_go g (mul_eq_ofNat ..), binWord_go (f := mulHigh) g rfl,
      binWord_go (f := mulHighN) g rfl, binWord_go (f := fun a b => if a.slt b then a else b) g (ite_slt ..),
      binWord_go (f := fun a b => if b.slt a then a else b) g (ite_slt ..),
      binWord_go (f := fun a b => if a.ult b then a else b) g (ite_ult ..),
      binWord_go (f := fun a b => if b.ult a then a else b) g (ite_ult ..), binWord_go (f := fun a b => low32 (a + b)) g (low32_eq _),
      binWord_go (f := fun a b => low32 (a - b)) g (low32_eq _), binWord_go (f := fun a b => a &&& ~~~b) g rfl,
      binWord_go (f := fun a b => a.rotateLeft (sh6 b)) g rfl, binWord_go (f := fun a b => a.rotateRight (sh6 b)) g rfl⟩
  case clz0 =>
    intro h
    rw [h]
    rfl
  case clz =>
    intro k hk hbit above
    refine (clzN_of_highest 64 hbit fun j hj => ?_).trans (by omega)
    by_cases hj64 : j < 64
    · exact above j hj hj64
    · exact BitVec.getLsbD_of_ge _ _ (by omega)
  case ctz0 =>
    intro h
    rw [h]
    exact ctzN_zero 64
  case ctz => exact fun _ => ctzN_of_lowest
  case popc =>
    rw [← popCount_toNat]
    exact unWord_go (f := fun a => BitVec.ofNat 64 (popCount a.toNat 64)) g rfl

/-- The immediate of lui stands at bit 10 (R97). -/
theorem shiftLeft_ten (x : Word) : x <<< 10 = x * 1024 := by
  rw [BitVec.shiftLeft_eq_mul_twoPow]
  rfl

/-- Settles O11: each word writes the sum, the bits or the shift of its operand and its immediate. -/
theorem immediateWordsWriteTheirResult : Obligations.ImmediateWordsWriteTheirResult := by
  unfold Obligations.ImmediateWordsWriteTheirResult
  refine ⟨fun p s d i h st g => ?immediates, fun d i st g => ⟨aluWord_go (f := fun _ => sx i <<< 10) g (shiftLeft_ten _),
    aluWord_go (f := fun c => c.A.pc + sx i * 4) g rfl⟩⟩
  case immediates =>
    exact ⟨unWord_go (f := (· + sx i)) g rfl, unWord_go (f := (· &&& sx i)) g rfl, unWord_go (f := (· ||| sx i)) g rfl,
      unWord_go (f := (· ^^^ sx i)) g rfl, unWord_go (f := (· <<< h.toNat)) g rfl, unWord_go (f := (· >>> h.toNat)) g rfl,
      unWord_go (f := (·.sshiftRight h.toNat)) g rfl⟩

end Sys2Proof.Machine

namespace Sys2Proof.Machine
open Sys2Proof

/-! Conditions of compares and the choice of sel (R98, R101). -/

/-- The conditions of Table 4 by their codes. -/
theorem condHolds_eq {c : BitVec 3} (hc : c.toNat < 6) (a v : Word) : condHolds c a v =
    if c = 0 then a == v else if c = 1 then a != v else if c = 2 then decide (a.toInt < v.toInt)
    else if c = 3 then decide (a.toNat < v.toNat) else if c = 4 then decide (v.toInt ≤ a.toInt) else decide (v.toNat ≤ a.toNat) := by
  have codes : c = 0 ∨ c = 1 ∨ c = 2 ∨ c = 3 ∨ c = 4 ∨ c = 5 := by bv_omega
  rcases codes with rfl | rfl | rfl | rfl | rfl | rfl
  · rfl
  · rfl
  · rfl
  · rfl
  · exact BitVec.sle_eq_not_slt.symm
  · exact (BitVec.ule_eq_not_ult v a).symm

/-- sel takes rs1 where the predicate differs from the negation bit. -/
theorem sel_picks (x : Bool) (n : BitVec 1) (a b : Word) :
    (if x != (n == 1) then a else b) = if (if n = 1 then x = false else x = true) then a else b := by
  by_cases hn : n = 1
  · subst hn
    cases x <;> rfl
  · cases x <;> simp

/-- Settles O12: each word writes what it makes of its operands. -/
theorem comparesAndPredicateWordsWriteThePredicate : Obligations.ComparesAndPredicateWordsWriteThePredicate := by
  unfold Obligations.ComparesAndPredicateWordsWriteThePredicate
  refine ⟨fun p e t s c st hc => ?compare, fun p a b e st g => ?predicates, fun p e v st g => predWord_go (f := fun _ => v == 1) g rfl,
    fun p e n t s d st g => ?sel⟩
  case compare =>
    intro a b holds
    have table4 (v : Word) : condHolds c a v = holds v := condHolds_eq hc a v
    exact ⟨fun g => predWord_go (f := fun k => condHolds c (k.readA s.toNat) (k.readA t.toNat)) g (table4 b),
      fun g => ⟨predWord_go (f := fun k => k.readP e.toNat && condHolds c (k.readA s.toNat) (k.readA t.toNat)) g
          (congrArg (st.cur.readP e.toNat && ·) (table4 b)),
        predWord_go (f := fun k => k.readP e.toNat || condHolds c (k.readA s.toNat) (k.readA t.toNat)) g
          (congrArg (st.cur.readP e.toNat || ·) (table4 b))⟩,
      fun i g => predWord_go (f := fun k => condHolds c (k.readA s.toNat) (sx i)) g (table4 (sx i))⟩
  case predicates =>
    exact ⟨predWord_go (f := fun k => k.readP a.toNat && k.readP b.toNat) g rfl,
      predWord_go (f := fun k => k.readP a.toNat || k.readP b.toNat) g rfl,
      predWord_go (f := fun k => k.readP a.toNat != k.readP b.toNat) g rfl,
      predWord_go (f := fun k => k.readP a.toNat && !k.readP b.toNat) g rfl⟩
  case sel =>
    exact aWord_done g (body := fun st => .done (putA st d.toNat
      (if st.cur.readP e.toNat != (n == 1) then st.cur.readA s.toNat else st.cur.readA t.toNat)))
      (congrArg (fun x => Res.done (putA st d.toNat x)) (sel_picks ..))

end Sys2Proof.Machine

namespace Sys2Proof.Machine
open Sys2Proof

/-! Divisions (R94). -/

theorem Cell.readA_writeA_self (c : Cell) (r : Nat) (v : Word) : (c.writeA r v).readA r = if r = 0 then 0 else v := by
  by_cases h : r = 0 <;> simp [Cell.readA, Cell.writeA, readTag, writeTag, h]

@[simp] theorem Cell.writeA_ast (c : Cell) (r : Nat) (v : Word) : (c.writeA r v).ast = c.ast := by
  unfold Cell.writeA
  split <;> rfl

@[simp] theorem Cell.writeA_pendA (c : Cell) (r : Nat) (v : Word) : (c.writeA r v).pendA = c.pendA := by
  unfold Cell.writeA
  split <;> rfl

section
variable {l : Landing} {r : Nat} {v : Word} {b : BitVec 12} (h : l.what = .areg r v b) (c : Cell)
include h

theorem applyLanding_areg :
    applyLanding l c = if b = 0 then (c.writeA r v).unpend r else ((c.writeA r v).unpend r).raiseAst l.due b := by
  simp only [applyLanding, h]

theorem applyLanding_areg_readA : (applyLanding l c).readA r = if r = 0 then 0 else v := by
  rw [applyLanding_areg h, ← Cell.readA_writeA_self c r v]
  split <;> rfl

theorem applyLanding_areg_pendA : (applyLanding l c).pendA = c.pendA.erase r := by
  rw [applyLanding_areg h, ← Cell.writeA_pendA c r v]
  split <;> rfl

theorem applyLanding_areg_ast : (applyLanding l c).ast = c.ast ||| b := by
  rw [applyLanding_areg h, ← Cell.writeA_ast c r v]
  split
  · next hb => exact hb ▸ (BitVec.or_zero).symm
  · rfl

end

/-- A division leaves a flag exactly where its divisor is zero. -/
theorem or_divFlag (x : BitVec 12) (b : Word) : x ||| divFlag b = if b = 0 then x ||| 0x004 else x := by
  unfold divFlag
  split
  · rfl
  · exact BitVec.or_zero

/-- The landing of a division: the value of R94 for rd, and AST.adz where the divisor is zero. -/
def divLanding (st : State) (d : BitVec 5) (v b : Word) : Landing := ⟨st.cycle + 34, st.nextId, .areg d.toNat v (divFlag b)⟩

section
variable {p : BitVec 4} {t s d : BitVec 5} {st : State} (g : AGo { pg := p, aregs := [d.toNat, t.toNat, s.toNat] } st)
  (hfree : st.cur.divFree ≤ st.cycle)
include g hfree

/-- With the divider free a division makes rd pending, takes the divider for 34 cycles and leaves its landing. -/
theorem divWord_go (f : Word → Word → Word) : ∃ u, (∃ w, divWord f p t s d st = .next w ∧ AIssued 0 false u w) ∧ Local st u
    ∧ u.cur = { st.cur.pend d.toNat with
        divFree := st.cycle + 34
        landings := st.cur.landings ++ [divLanding st d (f (st.cur.readA s.toNat) (st.cur.readA t.toNat)) (st.cur.readA t.toNat)] } := by
  refine ⟨_, aWord_done g (if_neg (Nat.not_lt.2 hfree)), addLanding_upd_local .., ?_⟩
  rw [addLanding_cur, State.upd_cur]
  unfold Cell.pend
  split <;> rfl

end

/-- Settles O10: each division is `divWord` of its function, and its landing writes rd, ends its wait and raises the flag. -/
theorem divisionResultLands : Obligations.DivisionResultLands := by
  unfold Obligations.DivisionResultLands
  intro p t s d st g hfree a b lands
  have land {i : Instr} (f : Word → Word → Word) (hi : exec i st = divWord f p t s d st) (hd : destOf i = 0)
      (hl : landsLater i = false) : lands i (f a b) := by
    obtain ⟨u, issued, hlocal, hcur⟩ := divWord_go g hfree f
    refine ⟨u, divLanding st d (f a b) b, ?_, hlocal, hcur, rfl, fun c _ =>
      ⟨?_, applyLanding_areg_pendA rfl c, (applyLanding_areg_ast rfl c).trans (or_divFlag ..)⟩⟩
    · unfold Issues
      rwa [hi, hd, hl]
    · rw [applyLanding_areg_readA rfl c]
      exact ite_congr (propext (BitVec.toNat_inj (y := 0))) (fun _ => rfl) (fun _ => rfl)
  exact ⟨land divSigned rfl rfl rfl, land remSigned rfl rfl rfl, land divUnsigned rfl rfl rfl, land remUnsigned rfl rfl rfl⟩

end Sys2Proof.Machine

namespace Sys2Proof.Machine
open Sys2Proof

/-! Branch targets, trip counts and scalar queue access (R105, R114, R182). -/

section
variable {p : BitVec 4} {b : BitVec 3} {s : BitVec 5} {st : State} (g : AGo { pg := p, dest := shB b.toNat, aregs := [s.toNat] } st)
include g

theorem mtb_issues (ht : inText st.cur (st.cur.readA s.toNat) = true) (h0 : st.cur.readA s.toNat ≠ 0) :
    Issues (.mtb p s b) st (st.upd (fun c => ((c.writeB .A b.toNat (st.cur.readA s.toNat)).writeB .V b.toNat
      (st.cur.readA s.toNat)).writeB .M b.toNat (st.cur.readA s.toNat))) :=
  aWord_done g (if_pos (Bool.and_eq_true_iff.2 ⟨ht, bne_iff_ne.2 h0⟩))

theorem mtb_refused (h : inText st.cur (st.cur.readA s.toNat) = false ∨ st.cur.readA s.toNat = 0) :
    Traps (.mtb p s b) st .illegal st.cur.A.pc :=
  aWord_trap g (if_neg (by rcases h with h | h <;> simp [h]))

end

section
variable {p : BitVec 4} {l : BitVec 3} {s : BitVec 5} {st : State} (hl : l.toNat < 6)
  (g : AGo { pg := p, dest := shTrip l.toNat, aregs := [s.toNat] } st)
include hl g

/-- The trip count of a level that exists is the shared register that ltrip writes. -/
theorem ltrip_go : AGo { pg := p, dest := if l.toNat < 6 then shTrip l.toNat else 0, aregs := [s.toNat] } st := by
  rwa [if_pos hl]

theorem ltrip_issues (hn : (st.cur.readA s.toNat).toNat ≤ 65535) (ht : isTemporal st.cur l.toNat = true) :
    Issues (.ltrip p s l) st (st.upd (fun c => { c with trips := insertAt c.trips l.toNat (st.cur.readA s.toNat).toNat })) :=
  aWord_done (ltrip_go hl g) (if_neg (by simp [ht]; omega))

theorem ltrip_refused (h : 65535 < (st.cur.readA s.toNat).toNat ∨ isTemporal st.cur l.toNat = false) :
    Traps (.ltrip p s l) st .illegal st.cur.A.pc :=
  aWord_trap (ltrip_go hl g) (if_pos (by simpa using h.imp_right .inr))

end

section
variable {p q : BitVec 4} {d : BitVec 5} {st : State} {e : QEntry} (g : AGo { pg := p, aregs := [d.toNat] } st)
  (h : st.cur.headAt q.toNat 0 = .ok e)
include g h

theorem qpop_issues (he : e.size = 8) :
    Issues (.qpop p q d) st (putA (st.upd (fun c => c.popHead q.toNat)) d.toNat (wordAt (st.cur.entryBytes e) 0)) :=
  aWord_done g (by simp only [h, he, ne_eq, not_true_eq_false, if_false])

theorem qpop_missized (he : e.size ≠ 8) : Traps (.qpop p q d) st .qsize st.cur.A.pc :=
  aWord_trap g (by simp only [h, ne_eq, he, not_false_eq_true, if_true])

end

/-- The first bytes of a list cut to no fewer are its own. -/
theorem take_fitBytes {n m : Nat} {bs : List Byte} (h : bs.length = n) (hm : n ≤ m) : (fitBytes m bs).take n = bs := by
  subst h
  simp [fitBytes, List.take_of_length_le hm]

/-- The entry that qpush reserves: complete, of 8 bytes, with the value of rs1. -/
def pushedEntry (st : State) (v : Word) : QEntry := ⟨st.nextId, 8, st.cur.heat, fitBytes 32 (leBytes v.toNat 8), [], false⟩

theorem qpush_issues {p q : BitVec 4} {s : BitVec 5} {st : State} (g : AGo { pg := p, aregs := [s.toNat] } st)
    (h : st.cur.canDraw q.toNat 1 = true) : Issues (.qpush p s q) st
      (State.upd { st with nextId := st.nextId + 1 } (fun c => c.reserve q.toNat (pushedEntry st (st.cur.readA s.toNat)))) :=
  aWord_done g (if_neg (by simp [h]))

/-- Settles O15: each word by what it finds in its operand or its queue. -/
theorem branchTargetTripAndQueueWords : Obligations.BranchTargetTripAndQueueWords := by
  unfold Obligations.BranchTargetTripAndQueueWords
  refine ⟨fun p b s st g => ⟨mtb_issues g, mtb_refused g⟩, fun p l s st hl g => ⟨ltrip_issues hl g, ltrip_refused hl g⟩,
    fun p q d st e g h => ⟨qpop_issues g h, qpop_missized g h⟩, fun p q s st g h => ?push⟩
  case push =>
    exact ⟨_, _, qpush_issues g h, Outside.upd { st with nextId := st.nextId + 1 } _, State.upd_cur _ _, rfl, rfl, rfl,
      take_fitBytes rfl (by decide)⟩

end Sys2Proof.Machine

namespace Sys2Proof.Machine
open Sys2Proof

/-! Capabilities: windows and rights (R109, R110). -/

/-- The start from which kbnd counts: the whole object where the capability has no window (R109). -/
def windowBase (c : Cap) : Nat := if capWlen c = 0 then 0 else capWstart c

/-- kbnd accepts a start and a length: both have 14 bits, the length is not 0, and the new window lies in the old one (R109). -/
abbrev KbndFits (c : Cap) (a n : Nat) : Prop :=
  0 < n ∧ n < 2 ^ 14 ∧ a < 2 ^ 14 ∧ (capWlen c ≠ 0 → a + n ≤ capWlen c) ∧ windowBase c + a + n ≤ 2 ^ 14

theorem kbndStart_eq (c : Cap) (a n : Nat) : kbndStart c a n = if KbndFits c a n then some (windowBase c + a) else none := by
  have start : (if capWlen c = 0 then a else capWstart c + a) = windowBase c + a := by
    unfold windowBase
    split <;> omega
  unfold kbndStart
  simp only [start]
  by_cases h : KbndFits c a n
  · obtain ⟨hn, hn14, ha14, hlen, hend⟩ := h
    rw [if_neg (by omega), if_neg (by omega), if_pos ⟨hn, hn14, ha14, hlen, hend⟩]
  · rw [if_neg h]
    split
    · rfl
    · next h14 =>
      refine if_pos (Decidable.by_contra fun hin => h ?_)
      refine ⟨?_, ?_, ?_, ?_, ?_⟩ <;> omega

section
variable {p k : BitVec 4} {d s : BitVec 5} {st : State}
  (g : AGo { pg := p, aregs := [d.toNat, s.toNat], kregs := [k.toNat] } st)
include g

theorem kbnd_issues (hu : capUsable st (st.cur.readK k.toNat) = true)
    (hf : KbndFits (st.cur.readK k.toNat) (st.cur.readA s.toNat).toNat (st.cur.readA d.toNat).toNat) :
    WritesK (.kbnd p d s k) st k (reseal (dieKey st st.myDie) (setWindow (st.cur.readK k.toNat)
      (windowBase (st.cur.readK k.toNat) + (st.cur.readA s.toNat).toNat) (st.cur.readA d.toNat).toNat)) :=
  aWord_done g (by simp only [hu, kbndStart_eq, if_pos hf, Bool.not_true, Bool.false_eq_true, if_false])

theorem kbnd_refused (h : capUsable st (st.cur.readK k.toNat) = false
      ∨ ¬ KbndFits (st.cur.readK k.toNat) (st.cur.readA s.toNat).toNat (st.cur.readA d.toNat).toNat) :
    Traps (.kbnd p d s k) st .capfail ((capOid (st.cur.readK k.toNat)).setWidth 64) := by
  refine aWord_trap g ?_
  cases hu : capUsable st (st.cur.readK k.toNat)
  · exact if_pos (by rw [hu]; rfl)
  · simp only [hu, kbndStart_eq, if_neg (h.resolve_left (by simp [hu])), Bool.not_true, Bool.false_eq_true, if_false]
    rfl

end

section
variable {p k : BitVec 4} {s : BitVec 5} {st : State} (g : AGo { pg := p, aregs := [s.toNat], kregs := [k.toNat] } st)
include g

theorem krgt_issues (hu : capUsable st (st.cur.readK k.toNat) = true) :
    WritesK (.krgt p s k) st k (reseal (dieKey st st.myDie) (clearRights (st.cur.readK k.toNat) ((st.cur.readA s.toNat).extractLsb' 0 8))) :=
  aWord_done g (if_neg (by simp [hu]))

theorem krgt_refused (hu : capUsable st (st.cur.readK k.toNat) = false) :
    Traps (.krgt p s k) st .capfail ((capOid (st.cur.readK k.toNat)).setWidth 64) :=
  aWord_trap g (if_pos (by simp [hu]))

end

/-! The fields of a derived capability (R106). -/

/-- A field of a field is one of the whole. -/
theorem extractLsb'_of_extractLsb' {m lo n k w : Nat} (c : BitVec m) (h : k + w ≤ n) :
    (c.extractLsb' lo n).extractLsb' k w = c.extractLsb' (lo + k) w := by
  apply BitVec.eq_of_getLsbD_eq
  intro i hi
  simp [hi, show k + i < n by omega, Nat.add_assoc]

section
variable (c : Cap) (b n : Nat)

/-- A field below the window is as it was. -/
theorem setWindow_below {lo w : Nat} (h : lo + w ≤ 68) : (setWindow c b n).extractLsb' lo w = c.extractLsb' lo w :=
  (BitVec.extractLsb'_append_eq_of_add_le (v := 60) (w := 68) h).trans (BitVec.extractLsb'_extractLsb'_of_le h)

theorem capWlen_setWindow (h : n < 2 ^ 14) : capWlen (setWindow c b n) = n := by
  have field : (setWindow c b n).extractLsb' 68 14 = BitVec.ofNat 14 n :=
    (BitVec.extractLsb'_append_eq_of_le (v := 60) (w := 68) (by omega)).trans
      (BitVec.extractLsb'_append_eq_right (w := 46) (w' := 14))
  rw [capWlen, field, BitVec.toNat_ofNat, Nat.mod_eq_of_lt h]

theorem capWstart_setWindow (h : b < 2 ^ 14) : capWstart (setWindow c b n) = b := by
  have field : (setWindow c b n).extractLsb' 82 14 = BitVec.ofNat 14 b :=
    calc (setWindow c b n).extractLsb' 82 14
      _ = (c.extractLsb' 96 32 ++ BitVec.ofNat 14 b ++ BitVec.ofNat 14 n).extractLsb' 14 14 :=
        BitVec.extractLsb'_append_eq_of_le (v := 60) (w := 68) (by omega)
      _ = (c.extractLsb' 96 32 ++ BitVec.ofNat 14 b).extractLsb' 0 14 := BitVec.extractLsb'_append_eq_of_le (by omega)
      _ = BitVec.ofNat 14 b := BitVec.extractLsb'_append_eq_right
  rw [capWstart, field, BitVec.toNat_ofNat, Nat.mod_eq_of_lt h]

end

section
variable (c : Cap) (m : BitVec 8)

/-- A field below the rights is as it was. -/
theorem clearRights_below {lo w : Nat} (h : lo + w ≤ 56) : (clearRights c m).extractLsb' lo w = c.extractLsb' lo w :=
  (BitVec.extractLsb'_append_eq_of_add_le (v := 72) (w := 56) h).trans (BitVec.extractLsb'_extractLsb'_of_le h)

/-- A field above the rights is as it was. -/
theorem clearRights_above {k w : Nat} (h : k + w ≤ 64) : (clearRights c m).extractLsb' (64 + k) w = c.extractLsb' (64 + k) w :=
  calc (clearRights c m).extractLsb' (64 + k) w
    _ = (c.extractLsb' 64 64 ++ (capRights c &&& ~~~m)).extractLsb' (64 + k - 56) w :=
      BitVec.extractLsb'_append_eq_of_le (v := 72) (w := 56) (by omega)
    _ = (c.extractLsb' 64 64).extractLsb' (64 + k - 56 - 8) w := BitVec.extractLsb'_append_eq_of_le (by omega)
    _ = c.extractLsb' (64 + k) w := by rw [show 64 + k - 56 - 8 = k by omega, extractLsb'_of_extractLsb' c h]

theorem capRights_clearRights : capRights (clearRights c m) = capRights c &&& ~~~m :=
  (BitVec.extractLsb'_append_eq_of_le (v := 72) (w := 56) (by omega)).trans
    (BitVec.extractLsb'_append_eq_right (w := 64) (w' := 8))

end

/-- Settles O24: each word by what it finds of its capability; sealing keeps the fields, which stand apart in the 96 bits it covers. -/
theorem capabilityWords : Obligations.CapabilityWords := by
  unfold Obligations.CapabilityWords
  intro p j k d s st c key
  refine ⟨fun g => aWord_done g rfl, fun g => ⟨kbnd_issues g, kbnd_refused g⟩, fun g => ⟨krgt_issues g, krgt_refused g⟩,
    fun x m b n hb hn => ?fields⟩
  case fields =>
    have sealed (y : Cap) {lo w : Nat} (h : lo + w ≤ 96) : (reseal key y).extractLsb' lo w = y.extractLsb' lo w :=
      reseal_field key y lo w h
    have window {lo w : Nat} (h : lo + w ≤ 68) : (reseal key (setWindow x b n)).extractLsb' lo w = x.extractLsb' lo w :=
      (sealed _ (by omega)).trans (setWindow_below x b n h)
    have rights {lo w : Nat} (h : lo + w ≤ 56) : (reseal key (clearRights x m)).extractLsb' lo w = x.extractLsb' lo w :=
      (sealed _ (by omega)).trans (clearRights_below x m h)
    have above {i w : Nat} (h : i + w ≤ 32) : (reseal key (clearRights x m)).extractLsb' (64 + i) w = x.extractLsb' (64 + i) w :=
      (sealed _ (by omega)).trans (clearRights_above x m (by omega))
    exact ⟨(congrArg BitVec.toNat (sealed _ (by decide))).trans (capWstart_setWindow x b n hb),
      (congrArg BitVec.toNat (sealed _ (by decide))).trans (capWlen_setWindow x b n hn),
      window (by decide), window (by decide), window (by decide), congrArg BitVec.toNat (window (by decide)),
      (window (by decide)).trans (rights (by decide)).symm, (sealed _ (by decide)).trans (capRights_clearRights x m),
      rights (by decide), congrArg BitVec.toNat (above (i := 18) (by decide)), congrArg BitVec.toNat (above (i := 4) (by decide))⟩

end Sys2Proof.Machine

namespace Sys2Proof.Machine
open Sys2Proof

/-! An access that stops at an element (R198, R230, R262). -/

theorem Outside.renumber {s t : State} (h : Outside s t) (n : Nat) (p : SMap Package) :
    Outside { s with nextId := n, pkgs := p } { t with nextId := n, pkgs := p } :=
  ⟨congrArg (fun x : State => { x with nextId := n, pkgs := p }) h.rest, h.cells, h.dies, h.memory⟩

theorem accepted_length {s : State} {win : Bool} {parts : List Part} : ∀ {t tlb : List TlbEntry} {sites : List (Option Site)},
    accepted s win t parts = some (sites, tlb) → sites.length = parts.length := by
  induction parts with
  | nil =>
    intro t tlb sites h
    obtain ⟨rfl, rfl⟩ := Prod.mk.inj (Option.some.inj h)
    rfl
  | cons q qs ih =>
    intro t tlb sites h
    unfold accepted at h
    split at h
    · next site t' _ =>
      split at h
      · next ss u ha =>
        obtain ⟨rfl, rfl⟩ := Prod.mk.inj (Option.some.inj h)
        exact congrArg (· + 1) (ih ha)
      · cases h
    · cases h

theorem opsFrom_append (word pts : Nat) (rest : List Part) (others : List (Option Site)) {parts : List Part} :
    ∀ {id : Nat} {sites : List (Option Site)}, sites.length = parts.length → opsFrom word pts id (parts ++ rest) (sites ++ others) =
      opsFrom word pts id parts sites ++ opsFrom word pts (id + parts.length) rest others := by
  induction parts with
  | nil =>
    intro id sites h
    obtain rfl := List.eq_nil_of_length_eq_zero h
    rfl
  | cons q qs ih =>
    intro id sites h
    obtain ⟨site, ss, rfl⟩ := List.exists_cons_of_length_eq_add_one h
    have hn : id + 1 + qs.length = id + (q :: qs).length := by
      rw [List.length_cons]
      omega
    simp only [List.cons_append, opsFrom, ih (Nat.succ.inj h), hn]

/-- Elements after a refusal are not looked at, and those before it are accepted. -/
theorem firstRefusal_append {s : State} {win : Bool} {parts rest : List Part} : ∀ {t tlb : List TlbEntry} {sites : List (Option Site)},
    accepted s win t parts = some (sites, tlb) → firstRefusal s s.me win t (parts ++ rest) = firstRefusal s s.me win tlb rest := by
  induction parts with
  | nil =>
    intro t tlb sites h
    obtain ⟨rfl, rfl⟩ := Prod.mk.inj (Option.some.inj h)
    rfl
  | cons q qs ih =>
    intro t tlb sites h
    unfold accepted at h
    split at h
    · next site t' hc =>
      split at h
      · next ss u ha =>
        obtain ⟨rfl, rfl⟩ := Prod.mk.inj (Option.some.inj h)
        rw [List.cons_append, firstRefusal, hc]
        exact ih ha
      · cases h
    · cases h

theorem issueParts_append (word : Nat) (win : Bool) (rest : List Part) (parts : List Part) : ∀ (s : State) (missed : Option Word),
    issueParts word win s missed (parts ++ rest) =
      issueParts word win (issueParts word win s missed parts).1 (issueParts word win s missed parts).2 rest := by
  induction parts with
  | nil => intro s missed; cases missed <;> rfl
  | cons q qs ih =>
    intro s missed
    cases missed with
    | some a => exact ih _ _
    | none =>
      simp only [List.cons_append, issueParts]
      split
      · exact ih _ _
      · exact ih _ _

theorem issueParts_die (word : Nat) (win : Bool) (d : Nat) (parts : List Part) : ∀ (s : State) (missed : Option Word),
    (issueParts word win s missed parts).1.die d = s.die d := by
  induction parts with
  | nil => intro s missed; cases missed <;> rfl
  | cons q qs ih =>
    intro s missed
    cases missed with
    | some a => exact (ih _ _).trans (addOp_die ..)
    | none =>
      simp only [issueParts]
      split
      · exact (ih _ _).trans (addOp_die ..)
      · exact (ih _ _).trans (addOp_die ..)

/-- State u is s with elements of an access kept in the cell as operations without a site, from number s.nextId on. -/
structure Kept (word : Nat) (parts : List Part) (s u : State) : Prop where
  cur  : u.cur = { s.cur with
    ops := s.cur.ops ++ opsFrom word (s.pkg s.myPkg).pts s.nextId parts (List.replicate parts.length none) }
  pkgs : u.pkgs = s.pkgs
  rest : Outside { s with nextId := u.nextId } u

/-- After an element that does not translate the others are kept. -/
theorem issueParts_missed (word : Nat) (win : Bool) (a : Word) (parts : List Part) : ∀ s : State,
    ∃ t, issueParts word win s (some a) parts = (t, some a) ∧ Kept word parts s t := by
  induction parts with
  | nil => exact fun s => ⟨s, rfl, by simp [opsFrom], rfl, Outside.refl s⟩
  | cons q qs ih =>
    intro s
    obtain ⟨t, ht, k⟩ := ih (addOp s word q none false)
    refine ⟨t, ht, ?_, k.pkgs, ?_⟩
    · rw [k.cur, addOp_cur, addOp_nextId, List.append_assoc]
      rfl
    · exact ((addOp_outside s word q none false).renumber t.nextId s.pkgs).trans k.rest rfl

section
variable {word : Nat} {win : Bool} {pre post : List Part} {q : Part} {s : State} {sites : List (Option Site)} {tlb : List TlbEntry}

/-- What the next element's check says is not changed by the elements that have left before it. -/
theorem checkPart_sent {t : State} (hw : win = false ∨ pre = []) (ht : issueParts word win s none pre = (t, none))
    (g : Going word tlb pre sites s t) : checkPart t t.me t.cur.tlb q win = checkPart s s.me tlb q win := by
  have htlb : t.cur.tlb = tlb := congrArg Cell.tlb g.cur
  rcases hw with rfl | rfl
  · have hme : t.me = s.me := (congrArg State.me g.rest.rest :)
    have hdie (d : Nat) : t.die d = s.die d := by
      rw [← issueParts_die word false d pre s none, ht]
    rw [htlb, hme]
    exact checkPart_congr s t s.me tlb q hdie (congrArg State.mem g.rest.rest :) (congrArg State.heats g.rest.rest :)
      (congrArg State.eccBad g.rest.rest :)
  · obtain rfl : s = t := (Prod.mk.inj ht).1
    rw [htlb]

/-- Elements up to one that does not translate: those before it leave, it and the others are kept. -/
theorem issueParts_holds (hw : win = false ∨ pre = []) (h : accepted s win s.cur.tlb pre = some (sites, tlb))
    (hm : checkPart s s.me tlb q win = .miss) :
    ∃ t u, issueParts word win s none (pre ++ q :: post) = (u, some q.addr) ∧ Going word tlb pre sites s t ∧ Kept word (q :: post) t u := by
  obtain ⟨t, ht, g⟩ := issueParts_go word win pre (hw.imp_right (by rintro rfl; exact Nat.zero_le 1)) s sites tlb h
  obtain ⟨u, hu, k⟩ := issueParts_missed word win q.addr (q :: post) t
  refine ⟨t, u, ?_, g, k⟩
  rw [issueParts_append, ht, ← hu]
  simp only [issueParts, checkPart_sent hw ht g, hm]

/-- The elements before the one that is kept have left. -/
theorem Leaves.of_going {t u : State} (g : Going s.nextId tlb pre sites s.fresh.2 t) (k : Kept s.nextId post t u)
    (h : sites.length = pre.length) :
    Leaves pre (pre ++ post) (sites ++ List.replicate post.length none) tlb id s u where
  cell := by
    have hpkg : t.myPkg = s.myPkg := (congrArg State.myPkg g.rest.rest :)
    have hpts : (t.pkg s.myPkg).pts = (s.pkg s.myPkg).pts := (congrArg Package.pts (g.pkgs s.myPkg) :)
    rw [k.cur, g.cur, g.next, hpkg, hpts, opsFrom_append _ _ _ _ h, ← List.append_assoc]
    rfl
  ring := by
    rw [State.pkg, k.pkgs]
    exact g.ring.trans (by rw [slotsFrom_congr s s.fresh.2 rfl (fun _ _ => rfl)]; rfl)
  pkgs p := by
    rw [State.pkg, k.pkgs]
    exact g.pkgs p
  away p hp := by
    rw [State.pkg, k.pkgs]
    exact g.away p hp
  rest := by
    have hrest : Outside { t with nextId := u.nextId, pkgs := u.pkgs } u := by
      rw [k.pkgs]
      exact k.rest
    exact (g.rest.renumber u.nextId u.pkgs).trans hrest (congrArg State.me g.rest.rest :)

/-- A further change of the cell in focus joins what has left. -/
theorem Leaves.upd {sent parts : List Part} {u : State} (h : Leaves sent parts sites tlb id s u) (mark : Cell → Cell) :
    Leaves sent parts sites tlb mark s (u.upd mark) where
  cell := by rw [State.upd_cur, h.cell]; rfl
  ring := h.ring
  pkgs := h.pkgs
  away := h.away
  rest := h.rest.trans (Outside.upd u mark) (congrArg State.me h.rest.rest :)

/-- The checks that come before any element leaves find nothing: the addresses exist, and no earlier write to bytes they read is
outstanding. -/
theorem issueAccess_checks {parts : List Part} (ha : ∀ q ∈ parts, addrOk q.addr = true)
    (ho : ∀ q ∈ parts, q.need ≠ .wr → s.cur.writePending q.addr q.len = false) (done : State → State) :
    issueAccess s win parts done =
      match firstRefusal s s.me win s.cur.tlb parts with
      | some (e, v) => .trap e v
      | none =>
        match issueParts s.nextId win s.fresh.2 none parts with
        | (t, none) => .done (done t)
        | (t, some a) => .hold a s.nextId (done t) := by
  have haddr : parts.find? (fun q => !addrOk q.addr) = none := by
    rw [List.find?_eq_none]
    intro q hq
    simp [ha q hq]
  have horder : parts.any (fun q => q.need != .wr && s.cur.writePending q.addr q.len) = false := by
    rw [List.any_eq_false]
    intro q hq
    by_cases hn : q.need = .wr
    · simp [hn]
    · simp [ho q hq hn]
  rw [issueAccess, haddr]
  simp only [horder, Bool.false_eq_true, if_false]
  rfl

section
variable {done : State → State} (ha : ∀ x ∈ pre ++ q :: post, addrOk x.addr = true)
  (ho : ∀ x ∈ pre ++ q :: post, x.need ≠ .wr → s.cur.writePending x.addr x.len = false)
  (h : accepted s win s.cur.tlb pre = some (sites, tlb))
include ha ho h

/-- The own die's refusal of an element is the word's, before anything has left (R262). -/
theorem issueAccess_refused {code : FaultCode} {v : Word} (hf : checkPart s s.me tlb q win = .fault code v) :
    issueAccess s win (pre ++ q :: post) done = .trap code v := by
  rw [issueAccess_checks ha ho, firstRefusal_append h]
  simp only [firstRefusal, hf]

/-- An element that does not translate is held, and those before it have left (R198, R230). -/
theorem issueAccess_held (hw : win = false ∨ pre = []) (hm : checkPart s s.me tlb q win = .miss) :
    ∃ t, issueAccess s win (pre ++ q :: post) done = .hold q.addr s.nextId (done t)
      ∧ Leaves pre (pre ++ q :: post) (sites ++ List.replicate (post.length + 1) none) tlb id s t := by
  obtain ⟨t, u, hu, g, k⟩ := issueParts_holds (s := s.fresh.2) (word := s.nextId) (post := post) hw
    ((accepted_fresh s win pre _).trans h) hm
  refine ⟨u, ?_, .of_going g k (accepted_length h)⟩
  rw [issueAccess_checks ha ho, firstRefusal_append h]
  simp only [firstRefusal, hm, hu]

end

end

/-! The A words whose effect is an access. -/

/-- An A word whose effect ends in a translation miss holds it (R198). -/
theorem aWord_hold {i : AInfo} {s t : State} (g : AGo i s) {body : State → Res} {a : Word} {w : Nat} (hb : body s = .hold a w t) :
    ∃ v, AIssued i.dest false t v ∧ ∃ h : Held, h.addr = a ∧ h.pc = s.cur.A.pc ∧ h.word = w ∧ (h.popped, h.stream) = undoOf s.cur t.cur
      ∧ aWord i body s = .next (holdFault v s.me h (offsetOf s.cur 0)) :=
  ⟨_, Issued.pass t .A 1 1 i.dest, ⟨a, s.cur.A.pc, w, 0, (undoOf s.cur t.cur).1, (undoOf s.cur t.cur).2⟩, rfl, rfl, rfl, rfl, by
    rw [aWord_go g, hb]
    rfl⟩

/-- What a word comes to, b, follows how its access ends, r: it is done, is refused, or holds a miss with a change f of its own. -/
structure Follows (f : State → State) (b r : Res) : Prop where
  done : ∀ t, r = .done t → b = .done t
  trap : ∀ code v, r = .trap code v → b = .trap code v
  hold : ∀ a w t, r = .hold a w t → b = .hold a w (f t)

theorem Follows.of_eq {b r : Res} (h : b = r) : Follows id b r :=
  h ▸ ⟨fun _ k => k, fun _ _ k => k, fun _ _ _ k => k⟩

/-- The word i in state s, whose access is ready in state x: where every element may leave it issues, completed by `done`, and otherwise it
stops at the first that does not pass, completed by `held`. -/
def LeavesOrStops (i : Instr) (s x : State) (win : Bool) (parts : List Part) (sites : List (Option Site)) (tlb : List TlbEntry)
    (mark : Cell → Cell) (done held : State → State) : Prop :=
  (MayAccess x win parts sites tlb → ∃ u, Issues i s (done u) ∧ Sent parts sites tlb mark x u) ∧ Stops i s x win parts mark held

/-- The word i in state s, ready in state x, reserves an entry of n bytes at the tail of a queue that can draw its blocks, and sends the
elements that fill its pieces (R211, R216). -/
def FillsEntry (i : Instr) (s x : State) (q n : Nat) (pieces : List Nat) (parts : Nat → List Part) (sites : List (Option Site))
    (tlb : List TlbEntry) (done held : State → State) : Prop :=
  blocksOf n ≤ x.cur.qcapOf q → x.cur.canDraw q (blocksOf n) = true →
    LeavesOrStops i s x.fresh.2 false (parts x.nextId) sites tlb (fun c => c.reserve q (loadEntry c x.nextId n pieces)) done held

/-- A queue that can draw the blocks takes the entry, and what is left is the access that fills it. -/
theorem fillBody_draws {q size : Nat} {s : State} (hq : blocksOf size ≤ s.cur.qcapOf q) (hd : s.cur.canDraw q (blocksOf size) = true)
    (mk : Nat → List Part) (pieces : List Nat) (done : State → State) :
    fillBody q size mk pieces done s = issueAccess s.fresh.2 false (mk s.nextId)
      (fun t => done (t.upd (fun c => c.reserve q (loadEntry c s.nextId size pieces)))) := by
  simp only [fillBody, Nat.not_lt.2 hq, hd, if_false, Bool.not_true, Bool.false_eq_true]
  rfl

/-- The A word i, whose destination is no shared register, issues in s with its guard true, and `body` is its effect. -/
structure WordReady (i : Instr) (info : AInfo) (body : State → Res) (s : State) : Prop where
  go   : AGo info s
  exec : exec i s = aWord info body s
  info : info.dest = 0
  dest : destOf i = 0
  now  : landsLater i = false

section
variable {i : Instr} {info : AInfo} {s x : State} {body : State → Res} {f done : State → State} (w : WordReady i info body s)
include w

theorem WordReady.issues {u : State} (hb : body s = .done u) : Issues i s u := by
  rw [Issues, w.exec, w.dest, w.now, ← w.info]
  exact aWord_done w.go hb

theorem WordReady.traps {code : FaultCode} {v : Word} (hb : body s = .trap code v) : Traps i s code v :=
  w.exec.trans (aWord_trap w.go hb)

/-- A word whose effect follows an access leaves or stops as the access does. -/
theorem WordReady.leavesOrStops {win : Bool} {parts : List Part} {mark : Cell → Cell} (hw : win = false ∨ parts.length ≤ 1)
    (hb : Follows f (body s) (issueAccess x win parts (fun t => done (t.upd mark)))) (sites : List (Option Site)) (tlb : List TlbEntry) :
    LeavesOrStops i s x win parts sites tlb mark done (f ∘ done) := by
  refine ⟨fun h => ?leaves, ?stops⟩
  case leaves =>
    obtain ⟨t, ht, hs⟩ := issueAccess_go hw h (fun t => done (t.upd mark))
    exact ⟨t.upd mark, w.issues (hb.done _ ht), hs.upd mark⟩
  case stops =>
    rintro ha ho pre post q sites tlb rfl h
    refine ⟨fun code v hf => w.traps (hb.trap _ _ (issueAccess_refused ha ho h hf)), fun hm => ?_⟩
    have hpre : win = false ∨ pre = [] := hw.imp_right fun hn => by
      rw [List.length_append, List.length_cons] at hn
      exact List.eq_nil_of_length_eq_zero (by omega)
    obtain ⟨t, ht, hs⟩ := issueAccess_held ha ho h hpre hm
    obtain ⟨v, issued, held⟩ := aWord_hold w.go (hb.hold _ _ _ ht)
    rw [w.info] at issued
    rw [← w.exec] at held
    exact ⟨t.upd mark, v, hs.upd mark, issued, held⟩

theorem WordReady.fillsEntry {q n : Nat} {pieces : List Nat} {parts : Nat → List Part}
    (hb : Follows f (body s) (fillBody q n parts pieces done x)) (sites : List (Option Site)) (tlb : List TlbEntry) :
    FillsEntry i s x q n pieces parts sites tlb done (f ∘ done) := by
  intro hq hd
  rw [fillBody_draws hq hd] at hb
  exact w.leavesOrStops (.inl rfl) hb sites tlb

end

/-- The word's effect is the access itself. -/
theorem WordReady.accesses {i : Instr} {info : AInfo} {s : State} {body : State → Res} (w : WordReady i info body s) {parts : List Part}
    {mark : Cell → Cell} (hb : body s = issueAccess s false parts (fun t => t.upd mark)) (sites : List (Option Site)) (tlb : List TlbEntry) :
    LeavesOrStops i s s false parts sites tlb mark id id :=
  w.leavesOrStops (f := id) (done := id) (.inl rfl) (.of_eq hb) sites tlb

end Sys2Proof.Machine

namespace Sys2Proof.Machine
open Sys2Proof

/-! Gathers and scatters (R226 to R229). -/

/-- The elements that are judged out of bounds at issue (R227). -/
theorem elemBound_eq_out {s : State} {base : Word} {i : Int} {size : Nat} : elemBound s base i size = .out ↔ i < 0 ∨
    (aVault base = true ∧ addrOk base = true ∧ isLocal s.me base = true ∧ outsideRegion s base (elemAddr base i size) size = true) := by
  unfold elemBound
  split
  · next negative => exact iff_of_true rfl (.inl negative)
  · next hi =>
    rw [or_iff_right hi]
    split
    · next outside =>
      have bad (hv : aVault base = true) : addrOk base = false := by simpa only [hv, Bool.not_true, Bool.false_or, Bool.not_eq_true'] using outside
      exact iff_of_false nofun fun ⟨hv, ha, _⟩ => absurd ha (by simp [bad hv])
    · next vault =>
      obtain ⟨hv, ha⟩ : aVault base = true ∧ addrOk base = true := by simpa using vault
      split
      · next own => simp [hv, ha, own]
      · next other => exact iff_of_false nofun fun ⟨_, _, hl, _⟩ => other hl

section
variable {s : State} {base : Word} {bs : List Byte} {n size : Nat}

theorem oobTrap_none (h : s.cur.engctl.getLsbD 2 = true → ∀ k, k < n → elemBound s base (idxAt bs k) size ≠ .out) :
    oobTrap s base bs n size = none := by
  unfold oobTrap
  split
  · next ht => simpa using h ht
  · rfl

/-- With oobtrap the first element out of bounds is the one that traps. -/
theorem oobTrap_first {k : Nat} (ht : s.cur.engctl.getLsbD 2 = true) (hk : k < n) (ho : elemBound s base (idxAt bs k) size = .out)
    (hf : ∀ l, l < k → elemBound s base (idxAt bs l) size ≠ .out) : oobTrap s base bs n size = some (elemAddr base (idxAt bs k) size) := by
  have first : (List.range n).find? (fun k => elemBound s base (idxAt bs k) size == .out) = some k :=
    List.find?_range_eq_some.2 ⟨by simpa using ho, List.mem_range.2 hk, by simpa using hf⟩
  rw [oobTrap, if_pos ht, first]
  rfl

end

section
variable {i : Instr} {p j q : BitVec 4} {r : BitVec 5} {st : State} {n size : Nat}

section
variable (hi : exec i st = gathWord p j r q n size st) (hdest : destOf i = 0) (hl : landsLater i = false)
  (g : AGo { pg := p, aregs := [r.toNat], access := true } st) (h0 : (st.cur.readA r.toNat).toNat % size = 0)
  {e : QEntry} (he : st.cur.headAt j.toNat 0 = .ok e) (hsz : e.size = 512)
include hi hdest hl g h0 he hsz

theorem gathWord_traps {w : Word} (ht : oobTrap st (st.cur.readA r.toNat) (st.cur.entryBytes e) n size = some w) :
    Traps i st .perm w := by
  have ready : WordReady i _ _ st := ⟨g, hi, rfl, hdest, hl⟩
  exact ready.traps (by simp only [h0, he, hsz, ht, ne_eq, not_true_eq_false, if_false])

theorem gathWord_fills (ht : oobTrap st (st.cur.readA r.toNat) (st.cur.entryBytes e) n size = none) (sites : List (Option Site))
    (tlb : List TlbEntry) :
    FillsEntry i st (st.upd (fun c => c.popHead j.toNat)) q.toNat 512 (List.range n) (fun id => (List.range n).map (fun k =>
      elemPart st (.fill id k (k * size) size) (st.cur.readA r.toNat) (idxAt (st.cur.entryBytes e) k) size .rd)) sites tlb id id := by
  have ready : WordReady i _ _ st := ⟨g, hi, rfl, hdest, hl⟩
  refine ready.fillsEntry (f := id) (done := id) ⟨fun t h => ?_, fun code v h => ?_, fun a w t h => ?_⟩ sites tlb
  all_goals simp only [h0, he, hsz, ht, h, ne_eq, not_true_eq_false, if_false, id]

end

section
variable {need : Need} {kind : List Byte → Nat → OpKind} (hi : exec i st = scatWord p j r q n size need kind st) (hdest : destOf i = 0)
  (hl : landsLater i = false) (g : AGo { pg := p, aregs := [r.toNat], access := true } st)
  (h0 : (st.cur.readA r.toNat).toNat % size = 0) {ve ie : QEntry} (hv : st.cur.headAt q.toNat 0 = .ok ve)
  (he : st.cur.headAt j.toNat (if j = q then 1 else 0) = .ok ie) (hvs : ve.size = 512) (hes : ie.size = 512)
include hi hdest hl g h0 hv he hvs hes

theorem scatWord_traps {w : Word} (ht : oobTrap st (st.cur.readA r.toNat) (st.cur.entryBytes ie) n size = some w) :
    Traps i st .perm w := by
  have ready : WordReady i _ _ st := ⟨g, hi, rfl, hdest, hl⟩
  exact ready.traps (by simp only [h0, hv, he, hvs, hes, ht, ne_eq, not_true_eq_false, or_self, if_false])

theorem scatWord_stores (ht : oobTrap st (st.cur.readA r.toNat) (st.cur.entryBytes ie) n size = none) (sites : List (Option Site))
    (tlb : List TlbEntry) :
    LeavesOrStops i st st false ((List.range n).map (fun k =>
        elemPart st (kind (fitBytes size ((st.cur.entryBytes ve).drop (k * size))) (k * size / 32)) (st.cur.readA r.toNat)
          (idxAt (st.cur.entryBytes ie) k) size need))
      sites tlb (fun c => (c.popHead q.toNat).popHead j.toNat) id id := by
  have ready : WordReady i _ _ st := ⟨g, hi, rfl, hdest, hl⟩
  exact ready.accesses (by simp only [h0, hv, he, hvs, hes, ht, ne_eq, not_true_eq_false, or_self, if_false]) sites tlb

end

end

/-- Settles O17: a queue load and a gather end as the access that fills their entry, a queue store and a scatter as the access that
takes what they pop; which elements are out of bounds the word judges before any of them leaves. -/
theorem queueAccessesLeaveTheCell : Obligations.QueueAccessesLeaveTheCell := by
  unfold Obligations.QueueAccessesLeaveTheCell
  intro p q j r st sites tlb g a fills addr out noTrap traps
  have inside {e : QEntry} {n size : Nat} (h : noTrap e n size) : oobTrap st a (st.cur.entryBytes e) n size = none :=
    oobTrap_none fun ht k hk ho => h ht k hk (elemBound_eq_out.1 ho)
  have outside {i : Instr} {e : QEntry} {n size : Nat}
      (h : ∀ w, oobTrap st a (st.cur.entryBytes e) n size = some w → Traps i st .perm w) : traps i e n size :=
    fun k hk ht ho hf => h _ (oobTrap_first ht hk (elemBound_eq_out.2 ho) fun l hl hlo => hf l hl (elemBound_eq_out.1 hlo))
  refine ⟨fun i z => ?blocks, fun e he hsz => ?gathers, fun ve ie hv he hvs hes => ?scatters⟩
  case blocks =>
    intro n w
    have load : WordReady (.ldq p i z r q) _ _ st := ⟨g, rfl, rfl, rfl, rfl⟩
    have store : WordReady (.stq p i z r q) _ _ st := ⟨g, rfl, rfl, rfl, rfl⟩
    refine ⟨fun h0 => load.fillsEntry (f := id) (done := id) (.of_eq (if_neg (not_not_intro h0))) sites tlb,
      fun h0 => ⟨load.traps (if_pos h0), store.traps (if_pos h0)⟩, fun e he h0 => ⟨fun hsz => ?_, fun hsz => ?_⟩⟩
    · exact store.accesses ((if_neg (not_not_intro h0)).trans (by simp only [he]; exact if_neg (not_not_intro hsz))) sites tlb
    · exact store.traps ((if_neg (not_not_intro h0)).trans (by simp only [he]; exact if_pos hsz))
  case gathers =>
    intro gathers
    have gather (i : Instr) {n size : Nat} (hi : exec i st = gathWord p j r q n size st) (hdest : destOf i = 0)
        (hl : landsLater i = false) : gathers i n size := fun h0 =>
      ⟨fun h => gathWord_fills hi hdest hl g h0 he hsz (inside h) sites tlb,
        outside fun w hw => gathWord_traps hi hdest hl g h0 he hsz hw⟩
    exact ⟨gather (.gathW p j r q) rfl rfl rfl, gather (.gathD p j r q) rfl rfl rfl, gather (.gathG p j r q) rfl rfl rfl⟩
  case scatters =>
    intro scatters
    have scatter (i : Instr) {n size : Nat} {need : Need} {kind : List Byte → Nat → OpKind}
        (hi : exec i st = scatWord p j r q n size need kind st) (hdest : destOf i = 0) (hl : landsLater i = false) :
        scatters i n size need kind := fun h0 =>
      ⟨fun h => scatWord_stores hi hdest hl g h0 hv he hvs hes (inside h) sites tlb,
        outside fun w hw => scatWord_traps hi hdest hl g h0 hv he hvs hes hw⟩
    exact ⟨scatter (.scatW p j r q) rfl rfl rfl, scatter (.scatD p j r q) rfl rfl rfl, scatter (.scatG p j r q) rfl rfl rfl,
      scatter (.scatAddW p j r q) rfl rfl rfl, scatter (.scatAddD p j r q) rfl rfl rfl, scatter (.scatAddF p j r q) rfl rfl rfl⟩

end Sys2Proof.Machine

namespace Sys2Proof.Machine
open Sys2Proof

/-! The set-up of streams (R218, R219). -/

theorem toInt_low32 (a : Word) : (a.extractLsb' 0 32).toInt = a.toInt.bmod (2 ^ 32) := by
  rw [← BitVec.setWidth_eq_extractLsb' (by decide), BitVec.toInt_setWidth, BitVec.toInt_eq_toNat_bmod a,
    Int.bmod_bmod_of_dvd (Nat.pow_dvd_pow 2 (by decide))]

/-- A word is the extension of its low half where it is a number of 32 bits. -/
theorem sx_low32_eq_iff (a : Word) : sx (a.extractLsb' 0 32) = a ↔ -2147483648 ≤ a.toInt ∧ a.toInt < 2147483648 := by
  rw [← BitVec.toInt_inj, sx, BitVec.toInt_signExtend_of_le (by decide), toInt_low32]
  constructor
  · intro h
    have lo := Int.le_bmod (x := a.toInt) (m := 2 ^ 32) (by decide)
    have hi := Int.bmod_lt (x := a.toInt) (m := 2 ^ 32) (by decide)
    omega
  · rintro ⟨lo, hi⟩
    exact Int.bmod_eq_of_le (by omega) (by omega)

theorem dimLimit_eq (k : BitVec 2) : dimLimit k.toNat = if k = 3 then 32768 else 65535 :=
  ite_congr (propext (BitVec.toNat_inj (y := 3))) (fun _ => rfl) (fun _ => rfl)

/-- The stride and the count that sdim accepts for dimension k (R219). -/
def DimFits (k : BitVec 2) (a b : Word) : Prop :=
  (-2147483648 ≤ a.toInt ∧ a.toInt < 2147483648) ∧ 1 ≤ b.toNat ∧ b.toNat ≤ (if k = 3 then 32768 else 65535)

theorem dimFits_iff {k : BitVec 2} {a b : Word} :
    DimFits k a b ↔ ¬ (sx (a.extractLsb' 0 32) ≠ a ∨ b.toNat = 0 ∨ dimLimit k.toNat < b.toNat) := by
  rw [DimFits, ← sx_low32_eq_iff, ← dimLimit_eq]
  simp only [not_or, Decidable.not_not, Nat.not_lt, Nat.one_le_iff_ne_zero, ne_eq]

section
variable {p : BitVec 4} {t s : BitVec 5} {n : BitVec 3} {st : State}

theorem spage_issues (g : AGo { pg := p, aregs := [s.toNat] } st) (h : (st.cur.readA s.toNat).toNat < 65536) :
    Issues (.spage p s n) st (st.upd (fun c => c.writeS n.toNat
      { st.cur.readS n.toNat with dist := (st.cur.readA s.toNat).setWidth 16 })) :=
  have ready : WordReady (.spage p s n) _ _ st := ⟨g, rfl, rfl, rfl, rfl⟩
  ready.issues (by simp only [if_pos h])

theorem spage_refused (g : AGo { pg := p, aregs := [s.toNat] } st) (h : 65536 ≤ (st.cur.readA s.toNat).toNat) :
    Traps (.spage p s n) st .illegal st.cur.A.pc :=
  have ready : WordReady (.spage p s n) _ _ st := ⟨g, rfl, rfl, rfl, rfl⟩
  ready.traps (by simp only [if_neg (Nat.not_lt.2 h)])

variable (g : AGo { pg := p, aregs := [t.toNat, s.toNat] } st)
include g

theorem sdim_issues {k : BitVec 2} (h : DimFits k (st.cur.readA s.toNat) (st.cur.readA t.toNat)) :
    Issues (.sdim p t s k n) st (st.upd (fun c => c.writeS n.toNat { st.cur.readS n.toNat with
      str := setAt 0 (st.cur.readS n.toNat).str k.toNat ((st.cur.readA s.toNat).setWidth 32)
      cnt := setAt 0 (st.cur.readS n.toNat).cnt k.toNat ((st.cur.readA t.toNat).setWidth 16), pos := [], done := false })) := by
  have ready : WordReady (.sdim p t s k n) _ _ st := ⟨g, rfl, rfl, rfl, rfl⟩
  refine ready.issues ?_
  rw [BitVec.setWidth_eq_extractLsb' (w := 32) (by decide), ← BitVec.ofNat_toNat]
  simp only [if_neg (dimFits_iff.1 h), Stream.restart]

theorem sdim_refused {k : BitVec 2} (h : ¬ DimFits k (st.cur.readA s.toNat) (st.cur.readA t.toNat)) :
    Traps (.sdim p t s k n) st .illegal st.cur.A.pc :=
  have ready : WordReady (.sdim p t s k n) _ _ st := ⟨g, rfl, rfl, rfl, rfl⟩
  ready.traps (by simp only [if_pos (Decidable.not_not.1 (mt dimFits_iff.2 h))])

theorem sunf_issues (h : modeOk (st.cur.readA s.toNat) (st.cur.readA t.toNat) = true) :
    Issues (.sunf p t s n) st (st.upd (fun c => c.writeS n.toNat { st.cur.readS n.toNat with
      mode := (st.cur.readA s.toNat).setWidth 32, geom := st.cur.readA t.toNat, pos := [], done := false })) :=
  have ready : WordReady (.sunf p t s n) _ _ st := ⟨g, rfl, rfl, rfl, rfl⟩
  ready.issues (by simp only [if_pos h, Stream.restart])

theorem sunf_refused (h : modeOk (st.cur.readA s.toNat) (st.cur.readA t.toNat) = false) :
    Traps (.sunf p t s n) st .illegal st.cur.A.pc :=
  have ready : WordReady (.sunf p t s n) _ _ st := ⟨g, rfl, rfl, rfl, rfl⟩
  ready.traps (by simp only [h, Bool.false_eq_true, if_false])

end

/-! The entries of streams (R220 to R223). -/

/-- The granules that a linear entry of blocks of `size` bytes is filled from, in order (R220, R222). -/
def linearGranules (x : Stream) (size : Nat) : List Word :=
  (linearAddrs x (2 ^ (x.mode.toNat / 4 % 8))).flatMap (fun w => (List.range (size / 32)).map (fun j => w + BitVec.ofNat 64 (32 * j)))

/-- The elements that fill an entry with granules, each with the page register that translates it (R223). -/
def granuleFills (grans : List Word) (pages : List (Option TlbEntry)) (id : Nat) : List Part :=
  (List.range grans.length).map (fun k =>
    { Part.plain (.fill id k (32 * k) 32) (grans.getD k 0) 32 .rd with page := pages.getD k none })

/-- The elements that fill an entry with runs of bytes (R221). -/
def runFills (runs : List (Word × Nat × Nat)) (id : Nat) : List Part :=
  (List.range runs.length).map (fun k =>
    let r := runs.getD k (0, 0, 0)
    .plain (.fill id k r.2.1 r.2.2) r.1 r.2.2 .rd)

/-- The stream has no page in use. -/
def dropPage (n : Nat) (u : State) : State := u.upd (fun c => c.writeS n { c.readS n with curpg := 0 })

/-- A word that holds a miss has no page in use (R223). -/
def heldWithoutPage (n : Nat) : Res → Res
  | .hold a w t => .hold a w (dropPage n t)
  | r => r

theorem follows_heldWithoutPage (n : Nat) (r : Res) : Follows (dropPage n) (heldWithoutPage n r) r := by
  constructor
  all_goals
    intros
    subst r
    rfl

section
variable {n q size : Nat} {x y : Stream} {pages : List (Option TlbEntry)} {s : State}

/-- The entry of a linear stream has the packed accesses, at aligned addresses; each granule has the page register that the walk gives it
(R222, R223). -/
theorem sgoLinear_fills (hsize : size * 2 ^ (x.mode.toNat / 4 % 8) ≤ 2048)
    (halign : ∀ w ∈ linearAddrs x (2 ^ (x.mode.toNat / 4 % 8)), w.toNat % 32 = 0)
    (hfill : ∀ w ∈ linearGranules x size, waitsForFill s s.me s.cur x w = false)
    (hwalk : pageWalk s s.me s.cur x (linearGranules x size) = (y, pages)) :
    sgoLinear n q size x s = heldWithoutPage n (fillBody q (size * 2 ^ (x.mode.toNat / 4 % 8)) (granuleFills (linearGranules x size) pages)
      (List.range (linearGranules x size).length)
      (sgoDone n (y.advance (2 ^ (x.mode.toNat / 4 % 8))) (2 ^ (x.mode.toNat / 4 % 8))) s) := by
  have aligned : (linearAddrs x (2 ^ (x.mode.toNat / 4 % 8))).find? (fun w => w.toNat % 32 ≠ 0) = none := by
    simpa using halign
  have filled : ¬ (linearGranules x size).any (waitsForFill s s.me s.cur x) = true := by
    simpa using hfill
  rw [linearGranules] at hwalk filled
  rw [sgoLinear]
  simp only [Nat.not_lt.2 hsize, if_false, aligned, hwalk]
  exact if_neg filled

/-- The entry of an unfold stream has 1024 bytes, and its tensor lies in a vault (R221, R222). -/
theorem sgoUnfold_fills (hsize : size = 64) (hv : aVault x.tensor = true) {runs : List (Word × Nat × Nat)}
    (hr : unfoldRuns x.geom x.tensor (x.pos.getD 1 0).toNat (x.pos.getD 0 0).toNat = runs) :
    sgoUnfold n q size x s = fillBody q 1024 (runFills runs) (List.range runs.length) (sgoDone n (x.advance 1) 16) s := by
  subst hr
  rw [sgoUnfold, if_neg (not_not_intro hsize)]
  simp only [hv, Bool.not_true, Bool.false_eq_true, if_false]
  rfl

end

section
variable {p q : BitVec 4} {z n : BitVec 3} {st : State} (g : AGo { pg := p, access := true } st)
include g

/-- A stream that is exhausted or counts no access fills nothing. -/
theorem sgo_exhausted (h : (st.cur.readS n.toNat).done = true ∨ (st.cur.readS n.toNat).total = 0) : Issues (.sgo p z n q) st st :=
  have ready : WordReady (.sgo p z n q) _ _ st := ⟨g, rfl, rfl, rfl, rfl⟩
  ready.issues (if_pos h)

variable {x : Stream} (hx : st.cur.readS n.toNat = x) (hdone : x.done = false) (htotal : x.total ≠ 0)
  {b : Nat} {pieces : List Nat} {parts : Nat → List Part} {done : State → State} (sites : List (Option Site)) (tlb : List TlbEntry)
include hx hdone htotal

theorem sgo_linear (hm : x.mode.toNat % 4 ≠ 1)
    (h : sgoLinear n.toNat q.toNat (blockSize z) x st = heldWithoutPage n.toNat (fillBody q.toNat b parts pieces done st)) :
    FillsEntry (.sgo p z n q) st st q.toNat b pieces parts sites tlb done (dropPage n.toNat ∘ done) := by
  subst hx
  have ready : WordReady (.sgo p z n q) _ _ st := ⟨g, rfl, rfl, rfl, rfl⟩
  refine ready.fillsEntry ?_ sites tlb
  simp only [hdone, htotal, hm, Bool.false_eq_true, or_self, if_false, h]
  exact follows_heldWithoutPage ..

theorem sgo_unfold (hm : x.mode.toNat % 4 = 1)
    (h : sgoUnfold n.toNat q.toNat (blockSize z) x st = fillBody q.toNat b parts pieces done st) :
    FillsEntry (.sgo p z n q) st st q.toNat b pieces parts sites tlb done done := by
  subst hx
  have ready : WordReady (.sgo p z n q) _ _ st := ⟨g, rfl, rfl, rfl, rfl⟩
  refine ready.fillsEntry (f := id) (.of_eq ?_) sites tlb
  simp only [hdone, htotal, hm, Bool.false_eq_true, or_self, if_false, if_true, h]

end

/-- An entry that is sent also issues. -/
theorem LeavesOrStops.sentFirst {i : Instr} {s x : State} {win : Bool} {parts : List Part} {sites : List (Option Site)}
    {tlb : List TlbEntry} {mark : Cell → Cell} {done held : State → State} (h : LeavesOrStops i s x win parts sites tlb mark done held) :
    (MayAccess x win parts sites tlb → ∃ u, Sent parts sites tlb mark x u ∧ Issues i s (done u)) ∧ Stops i s x win parts mark held :=
  h.imp_left fun leaves may => (leaves may).imp fun _ => And.symm

/-- Settles O18: a set-up word is what it writes; the sgo of either kind of stream ends as the access that fills its entry. -/
theorem streamWordsAndTheirEntries : Obligations.StreamWordsAndTheirEntries := by
  unfold Obligations.StreamWordsAndTheirEntries
  refine ⟨fun p n t s st => ?setUp, fun p q z n st sites tlb g => ?entries⟩
  case setUp =>
    intro a b x sets refused
    have base (g : AGo { pg := p, aregs := [s.toNat] } st) : WordReady (.sbase p s n) _ _ st := ⟨g, rfl, rfl, rfl, rfl⟩
    exact ⟨fun g => ⟨(base g).issues rfl, spage_issues g, spage_refused g⟩,
      fun g => ⟨fun k => ⟨sdim_issues g, sdim_refused g⟩, sunf_issues g, sunf_refused g⟩⟩
  case entries =>
    intro x size fills
    refine ⟨sgo_exhausted g, fun hdone htotal hm => ?linear, fun hdone htotal hm hz hv => ?unfolds⟩
    case linear =>
      intro pack addrs grans walked hsize halign hfill hq hd
      have entry := sgo_linear (q := q) g rfl hdone htotal sites tlb hm (sgoLinear_fills hsize halign hfill rfl)
      exact (entry hq hd).sentFirst
    case unfolds =>
      intro runs hq hd
      subst hz
      have entry := sgo_unfold (q := q) (z := 1) (x := x) g rfl hdone htotal sites tlb hm (sgoUnfold_fills (runs := runs) rfl hv rfl)
      exact (entry hq hd).sentFirst

end Sys2Proof.Machine

namespace Sys2Proof.Machine
open Sys2Proof

/-! Shares of a task that becomes ready (R242, R245). -/

/-- State t is s but for the ready pools of dies and the shares that wait there for an entry. -/
structure Asks (s t : State) : Prop where
  rest : { t with dies := s.dies } = s
  dies : ∀ j, { t.die j with ready := (s.die j).ready, grants := (s.die j).grants } = s.die j

namespace Asks
variable {s t u : State}

theorem refl (s : State) : Asks s s := ⟨rfl, fun _ => rfl⟩

theorem trans (h : Asks s t) (k : Asks t u) : Asks s u where
  rest := by
    have a := h.rest
    have b := k.rest
    rw [← a, ← b]
  dies j := by
    have a := h.dies j
    have b := k.dies j
    rw [← a, ← b]

theorem mem (h : Asks s t) : t.mem = s.mem := (congrArg State.mem h.rest :)
theorem cells (h : Asks s t) : t.cells = s.cells := (congrArg State.cells h.rest :)
theorem tasks (h : Asks s t) (j : Nat) : (t.die j).tasks = (s.die j).tasks := (congrArg Die.tasks (h.dies j) :)

theorem requestShare (s : State) (h : Word) (T : Task) (p : Nat) : Asks s (requestShare s h T p) where
  rest := rfl
  dies j := by
    rw [Machine.requestShare, State.modDie_die]
    split
    next hj => subst hj; split <;> rfl
    next => rfl

theorem requestShares (s : State) (h : Word) (T : Task) (ps : List Nat) : Asks s (requestShares s h T ps) := by
  induction ps generalizing s with
  | nil => exact refl s
  | cons p ps ih => exact (requestShare s h T p).trans (ih _)

end Asks

theorem hDie_lt (h : Word) : hDie h < 8 := Nat.mod_lt _ (by decide)

/-- The first point of a task goes to the die that launched it (R15). -/
theorem shareDie_zero (h : Word) : shareDie h 0 = handleDie h := by
  rw [shareDie, handleDie, Nat.add_zero, Nat.mod_eq_of_lt (hDie_lt h)]

section
variable {s : State} {h : Word} {T : Task}

theorem makeReady_mem : (makeReady s h T).mem = s.mem := (Asks.requestShares ..).mem

theorem makeReady_cells : (makeReady s h T).cells = s.cells := (Asks.requestShares ..).cells

/-- The record of a task that becomes ready changes in its state alone. -/
theorem taskOf_makeReady (hg : h = mkHandle (handleDie h) (hIndex h) T.gen) :
    taskOf (makeReady s h T) h = some { T with state := .ready } :=
  (taskOf_congr (Asks.requestShares ..).tasks h).trans (taskOf_setTask TaskState.noConfusion hg)

/-- The one share of a task of one die enters the launching die's pool where none waits before it and the pool has room. -/
theorem makeReady_ready (hp : spatialPoints T.levels 3 = 1) (hw : (s.die (handleDie h)).grants = [])
    (hr : (s.die (handleDie h)).ready.length < 4096) :
    ((makeReady s h T).die (handleDie h)).ready = (s.die (handleDie h)).ready ++ [shareEntry s h T 0] := by
  have hone : makeReady s h T = requestShare (setTask s h { T with state := .ready }) h T 0 := by
    rw [makeReady, hp]; rfl
  have hroom : (0 = 0 ∧ (s.die (handleDie h)).grants.isEmpty = true ∧ (s.die (handleDie h)).ready.length < 4096) := ⟨rfl, by rw [hw]; rfl, hr⟩
  rw [hone, requestShare, shareDie_zero, State.modDie_die_self, setTask, State.modDie_die_self, if_pos hroom]
  rfl
end

/-! An edge that is satisfied (R241, R242). -/

section
variable {s : State} {h : Word} {T : Task}

theorem satisfyEdge_stale (ht : taskOf s h = none) : satisfyEdge s h = s := by
  rw [satisfyEdge, ht]

theorem satisfyEdge_started (ht : taskOf s h = some T) (hs : T.state ≠ .waiting) : satisfyEdge s h = s := by
  rw [satisfyEdge, ht]
  exact if_pos hs

theorem satisfyEdge_more (ht : taskOf s h = some T) (hs : T.state = .waiting) (hc : 2 ≤ T.count) :
    satisfyEdge s h = setTask s h { T with count := T.count - 1 } := by
  rw [satisfyEdge, ht]
  exact (if_neg (not_not_intro hs)).trans (if_neg (by dsimp only; omega))

theorem satisfyEdge_last (ht : taskOf s h = some T) (hs : T.state = .waiting) (hc : T.count ≤ 1) :
    satisfyEdge s h = makeReady s h { T with count := T.count - 1 } := by
  rw [satisfyEdge, ht]
  exact (if_neg (not_not_intro hs)).trans (if_pos (by dsimp only; omega))

/-- The last edge makes the task ready: its share enters the pool of the die that launched it. -/
theorem satisfyEdge_readies (ht : taskOf s h = some T) (hs : T.state = .waiting) (hc : T.count ≤ 1) :
    taskOf (satisfyEdge s h) h = some { T with count := 0, state := .ready } ∧ (satisfyEdge s h).mem = s.mem ∧ (satisfyEdge s h).cells = s.cells
      ∧ (spatialPoints T.levels 3 = 1 → (s.die (handleDie h)).grants = [] → (s.die (handleDie h)).ready.length < 4096 →
        ((satisfyEdge s h).die (handleDie h)).ready = (s.die (handleDie h)).ready
          ++ [⟨h, ctlClass T.control, s.cycle, s.cycle, 0, spatialPoints T.levels 2, []⟩]) := by
  have hzero : T.count - 1 = 0 := by omega
  rw [satisfyEdge_last ht hs hc, hzero]
  exact ⟨taskOf_makeReady (T := { T with count := 0 }) (taskOf_some ht).2, makeReady_mem, makeReady_cells,
    makeReady_ready (T := { T with count := 0 })⟩
end

/-! SUCCESSOR_DECREMENT (R242). -/

/-- A pending edge is one of a completed task to its successor. -/
theorem pendingEdge_some {s : State} {pkg e i : Nat} {h : Word} {P : Task} (hp : pendingEdge s pkg h = some (e, i, P)) :
    P.state = .complete ∧ h ∈ P.succs := by
  obtain ⟨k, -, hk⟩ := List.exists_of_findSome?_eq_some hp
  dsimp only at hk
  split at hk
  next r hr =>
    cases hk
    have := List.find?_some hr
    simpa using this
  next => cases hk

section
variable {d : DieId} {s : State} {task : Word}

theorem successorDecrement_idle (h : handleDie task ≠ dieIx d ∨ pendingEdge s d.pkg.val task = none) :
    exec (.successorDecrement d task) s = .next s := by
  show execSuccessorDecrement d task s = _
  unfold execSuccessorDecrement
  split
  · rfl
  next hd => rw [h.resolve_left hd]

/-- The edge leaves its predecessor and is satisfied. -/
theorem successorDecrement_edge {e i : Nat} {P : Task} (hd : handleDie task = dieIx d) (hp : pendingEdge s d.pkg.val task = some (e, i, P)) :
    exec (.successorDecrement d task) s = .next (satisfyEdge (s.modDie e (fun k => { k with
      tasks := insertAt k.tasks i { P with succs := P.succs.erase task } })) task) := by
  show execSuccessorDecrement d task s = _
  rw [execSuccessorDecrement, if_neg (not_not_intro hd), hp]
end

/-! SHARE_TRANSFER (R245). -/

/-- The shares that wait at a die are no part of its records. -/
theorem taskOf_setGrants (s : State) (die : Nat) (es : List ReadyEntry) (h : Word) :
    taskOf (s.setDie die { s.die die with grants := es }) h = taskOf s h := by
  refine taskOf_congr (fun j => ?_) h
  rw [State.setDie_die]
  split
  next hj => rw [hj]
  next => rfl

section
variable {d : DieId} {s : State} {e : ReadyEntry} {es : List ReadyEntry} {p : Fin 8} {T : Task}

theorem shareTransfer_idle {task : Word} (h : (s.die (dieIx d)).grants = [] ∨ (∃ e es, (s.die (dieIx d)).grants = e :: es ∧
    (e.handle ≠ task ∨ e.dpoint ≠ p.val)) ∨ 4096 ≤ (s.die (dieIx d)).ready.length) : exec (.shareTransfer d task p) s = .next s := by
  show execShareTransfer d task p s = _
  unfold execShareTransfer
  dsimp only
  split
  · rfl
  next e es hg =>
    refine if_pos ?_
    rcases h with h | ⟨e', es', h, hne⟩ | h
    · rw [h] at hg; cases hg
    · rw [h] at hg; cases hg
      exact hne.elim .inl (.inr ∘ .inl)
    · exact .inr (.inr h)

variable (hg : (s.die (dieIx d)).grants = e :: es) (hp : e.dpoint = p.val) (hr : (s.die (dieIx d)).ready.length < 4096)
  (ht : taskOf s e.handle = some T)
include hg hp hr ht

/-- The share whose request is first leaves the requests, with an entry where its die runs the task's world, and else with its task. -/
theorem shareTransfer_first : exec (.shareTransfer d e.handle p) s = .next (if (s.die (dieIx d)).world ≠ T.world
    then refusePoint (s.setDie (dieIx d) { s.die (dieIx d) with grants := es }) e.handle T
    else (s.setDie (dieIx d) { s.die (dieIx d) with grants := es }).setDie (dieIx d) { s.die (dieIx d) with
      grants := es, ready := (s.die (dieIx d)).ready ++ [{ e with since := s.cycle, time := s.cycle }] }) := by
  have ht1 : taskOf (s.setDie (dieIx d) { s.die (dieIx d) with grants := es }) e.handle = some T := (taskOf_setGrants ..).trans ht
  have hgo : ¬ (e.handle ≠ e.handle ∨ e.dpoint ≠ p.val ∨ 4096 ≤ (s.die (dieIx d)).ready.length) := by simp [hp, hr]
  show execShareTransfer d e.handle p s = _
  unfold execShareTransfer
  dsimp only
  rw [hg]
  dsimp only
  rw [if_neg hgo, ht1]
  dsimp only
  split <;> rfl
end

/-- A task that fails because a point of it is refused. -/
theorem refusePoint_fails {s : State} {h : Word} {T : Task} (ht : taskOf s h = some T) (hf : T.state.isFinal = false) (hs : T.succs = []) :
    ∃ U, taskOf (refusePoint s h T) h = some U ∧ U.state = .failed :=
  failTask_failed ((taskOf_congr (Records.appendRecord ..).tasks h).trans ht) hf hs

/-! AGEING_PROMOTION (R246). -/

section
variable {d : DieId} {s : State} {ix : Nat}

theorem ageingPromotion_beyond (h : (s.die (dieIx d)).ready.length ≤ ix) : exec (.ageingPromotion d ix) s = .next s := by
  show execAgeingPromotion d ix s = _
  rw [execAgeingPromotion, List.drop_eq_nil_of_le h]

variable {e : ReadyEntry} (h : ix < (s.die (dieIx d)).ready.length) (he : (s.die (dieIx d)).ready[ix] = e)
include h he

/-- An entry below class 0 that has waited its period moves one class up. -/
theorem ageingPromotion_due (hc : 1 ≤ e.cls) (hw : lookup 1048576 (s.die (dieIx d)).ages e.cls ≤ s.cycle - e.since) :
    exec (.ageingPromotion d ix) s = .next (s.setDie (dieIx d) { s.die (dieIx d) with
      ready := (s.die (dieIx d)).ready.set ix { e with cls := e.cls - 1, since := s.cycle } }) := by
  show execAgeingPromotion d ix s = _
  rw [execAgeingPromotion, List.drop_eq_getElem_cons h, he, List.set_eq_take_append_cons_drop, if_pos h]
  exact if_pos ⟨hc, hw⟩

theorem ageingPromotion_early (hw : e.cls = 0 ∨ s.cycle - e.since < lookup 1048576 (s.die (dieIx d)).ages e.cls) :
    exec (.ageingPromotion d ix) s = .next s := by
  show execAgeingPromotion d ix s = _
  rw [execAgeingPromotion, List.drop_eq_getElem_cons h, he]
  refine if_neg (fun hn => ?_)
  rw [agePeriod] at hn
  omega
end

/-! TASK_RECORD_FREE (R238). -/

/-- A record may be free again: its task ended 2^20 cycles ago and no successor waits for it. -/
def RecordOld (T : Task) (cycle : Nat) : Prop :=
  (T.state = .complete ∨ T.state = .failed ∨ T.state = .killed) ∧ T.succs = [] ∧ T.final + 2 ^ 20 ≤ cycle

theorem recordOld_iff {T : Task} {cycle : Nat} :
    (T.state.isFinal = true ∧ T.state ≠ .free ∧ T.succs.isEmpty = true ∧ T.final + 2 ^ 20 ≤ cycle) ↔ RecordOld T cycle := by
  have ended : (T.state.isFinal = true ∧ T.state ≠ .free) ↔ (T.state = .complete ∨ T.state = .failed ∨ T.state = .killed) := by
    cases T.state <;> simp [TaskState.isFinal]
  rw [RecordOld, ← ended, List.isEmpty_iff, and_assoc]

section
variable {d : DieId} {r : Fin 4096} {s : State} {T : Task}

theorem taskRecordFree_unused (h : find? (s.die (dieIx d)).tasks r.val = none) : exec (.taskRecordFree d r) s = .next s := by
  show execTaskRecordFree d r s = _
  rw [execTaskRecordFree, h]

theorem taskRecordFree_old (h : find? (s.die (dieIx d)).tasks r.val = some T) (ho : RecordOld T s.cycle) :
    exec (.taskRecordFree d r) s = .next (s.modDie (dieIx d) (fun k => { k with tasks := insertAt k.tasks r.val { T with state := .free } })) := by
  show execTaskRecordFree d r s = _
  rw [execTaskRecordFree, h]
  exact if_pos (recordOld_iff.2 ho)

theorem taskRecordFree_kept (h : find? (s.die (dieIx d)).tasks r.val = some T) (ho : ¬ RecordOld T s.cycle) :
    exec (.taskRecordFree d r) s = .next s := by
  show execTaskRecordFree d r s = _
  rw [execTaskRecordFree, h]
  exact if_neg (fun k => ho (recordOld_iff.1 k))
end

/-- Settles O51: an edge by `satisfyEdge`, a share by the world of its die, an entry by its age and a record by its task's end. -/
theorem dispatcherMovesTasksToReady : Obligations.DispatcherMovesTasksToReady := by
  unfold Obligations.DispatcherMovesTasksToReady
  intro d s die D
  refine ⟨fun task => successorDecrement_idle, fun task e i P hd hp => ?edge, fun task p => shareTransfer_idle,
    fun p e es T hg hp hr ht => ⟨fun hw => ?granted, fun hw hf hs => ?refused⟩, fun ix => ageingPromotion_beyond,
    fun ix h => ⟨ageingPromotion_due h rfl, ageingPromotion_early h rfl⟩, fun r => taskRecordFree_unused,
    fun r T ht => ⟨taskRecordFree_old ht, taskRecordFree_kept ht⟩⟩
  case edge =>
    intro s1
    rw [successorDecrement_edge hd hp]
    obtain ⟨hcomplete, hmem⟩ := pendingEdge_some hp
    refine ⟨hcomplete, hmem, fun h => by rw [satisfyEdge_stale h], fun S hS => ⟨fun h => by rw [satisfyEdge_started hS h],
      fun h hc => by rw [satisfyEdge_more hS h hc], fun h hc => ⟨_, rfl, ?_⟩⟩⟩
    rw [← show handleDie task = die from hd]
    exact satisfyEdge_readies hS h hc
  case granted =>
    rw [shareTransfer_first hg hp hr ht, if_neg (not_not_intro hw)]
    exact ⟨_, rfl, rfl, State.setDie_die_self .., fun j hj => by rw [State.setDie_die, if_neg hj, State.setDie_die, if_neg hj]⟩
  case refused =>
    rw [shareTransfer_first hg hp hr ht, if_pos hw]
    exact ⟨_, (refusePoint_fails ((taskOf_setGrants ..).trans ht) hf hs).imp fun U hU => ⟨rfl, hU⟩⟩

end Sys2Proof.Machine

namespace Sys2Proof.Machine
open Sys2Proof

/-! Reads and releases that a word makes before it acts (R240, R298, R315). -/

section
variable {s : State} {w : Word} {n : Nat} {go : List Byte → State → Res}

theorem withRead_ok {bs : List Byte} {t : State} (h : readNow s w n = .ok bs t) : withRead s w n go = go bs t := by
  rw [withRead, h]

theorem withRead_fault {e : FaultCode} {v : Word} (h : readNow s w n = .fault e v) :
    withRead s w n go = .trapWith (s.upd (fun c => { c with refer := none })) e v := by
  rw [withRead, h]
end

section
variable {s : State} {scope : Nat} {go : State → Res}

theorem release_wait (h : releaseOf s s.me scope (fun _ => true) = .wait) : release s scope go = .stay .external s := by
  rw [release, h]

theorem release_done {t : State} (h : releaseOf s s.me scope (fun _ => true) = .done t) : release s scope go = go t := by
  rw [release, h]
end

section
variable {i : Instr} {info : AInfo} {s : State} {body : State → Res} (w : WordReady i info body s)
include w

/-- A word whose effect waits. -/
theorem WordReady.waits {k : WaitKind} (hb : body s = .stay k s) : Machine.exec i s = .next (setWait s .A k) := by
  rw [w.exec, aWord_go w.go, hb]; rfl

/-- A word whose read is refused stops after what it did before. -/
theorem WordReady.trapsAfter {u : State} {code : FaultCode} {v : Word}
    (hb : body s = .trapWith (u.upd (fun c => { c with refer := none })) code v) : TrapsAfter i s u code v := by
  rw [TrapsAfter, w.exec, aWord_go w.go, hb]; rfl
end

/-! Handles (R238 Table 3). -/

section
variable {die i : Nat} (hd : die < 256) (hi : i < 4096) (g : BitVec 24)
include hd hi

theorem mkHandle_toNat : (mkHandle die i g).toNat = g.toNat * 2 ^ 24 + die / 8 * 2 ^ 19 + die % 8 * 2 ^ 16 + i := by
  have := g.isLt
  rw [mkHandle, BitVec.toNat_ofNat]
  omega

theorem mkHandle_lt : (mkHandle die i g).toNat < 2 ^ 48 := by
  have := g.isLt
  rw [mkHandle_toNat hd hi]
  omega

theorem hIndex_mkHandle : hIndex (mkHandle die i g) = i := by
  rw [hIndex, wf64, fieldOf, mkHandle_toNat hd hi]
  omega

theorem handleDie_mkHandle : handleDie (mkHandle die i g) = die := by
  rw [handleDie, hPkg, hDie, wf64, wf64, fieldOf, fieldOf, mkHandle_toNat hd hi]
  omega
end

theorem myDie_lt (s : State) : s.myDie < 256 := by
  have := s.focus.pkg.isLt
  have := s.focus.die.isLt
  have := s.focus.cell.isLt
  simp only [State.myDie, State.me, dieOfCell, cellIx, dieIx, CellId.home]
  omega

theorem lowest_lt {n k : Nat} {f : Nat → Bool} (h : lowest n f = some k) : k < n :=
  List.mem_range.1 (List.mem_of_find?_eq_some h)

theorem freeRecord_lt {d : Die} {r : Nat} (h : freeRecord d = some r) : r < 4096 := lowest_lt h

/-! `tlaunch` (R240). -/

section
variable {s : State} {desc kb qb : List Byte}

theorem launch_refused {n : Nat} (h : launchCode s desc kb qb = some n) : launch s desc kb qb = (refuse n, s) := by
  rw [launch, h]

theorem launch_full (h : launchCode s desc kb qb = none) (hf : freeRecord (s.die s.myDie) = none) : launch s desc kb qb = (refuse 6, s) := by
  rw [launch, h]
  dsimp only
  rw [hf]

/-- The handle and the record of a launch that takes record r. -/
def launchHandle (s : State) (r : Nat) : Word := mkHandle s.myDie r (nextGen (s.die s.myDie) r)
def launched (s : State) (desc kb qb : List Byte) (r : Nat) : Task :=
  { launchTask desc kb qb (s.die s.myDie).world (nextGen (s.die s.myDie) r) with
    state := if ctlPcount (wordAt desc 8) = 0 then .ready else .waiting }

theorem launch_creates {r : Nat} (h : launchCode s desc kb qb = none) (hf : freeRecord (s.die s.myDie) = some r) :
    ∃ t, launch s desc kb qb = (launchHandle s r, t) ∧ taskOf t (launchHandle s r) = some (launched s desc kb qb r) ∧ t.mem = s.mem := by
  have hdie := handleDie_mkHandle (myDie_lt s) (freeRecord_lt hf) (nextGen (s.die s.myDie) r)
  have hix := hIndex_mkHandle (myDie_lt s) (freeRecord_lt hf) (nextGen (s.die s.myDie) r)
  have hg : launchHandle s r = mkHandle (handleDie (launchHandle s r)) (hIndex (launchHandle s r))
      (launchTask desc kb qb (s.die s.myDie).world (nextGen (s.die s.myDie) r)).gen := by
    rw [launchHandle, hdie, hix]; rfl
  rw [launch, h]
  dsimp only
  rw [hf]
  dsimp only
  split
  next hc =>
    refine ⟨_, rfl, (taskOf_makeReady hg).trans ?_, makeReady_mem⟩
    rw [launched, if_pos (show ctlPcount (wordAt desc 8) = 0 from hc)]
  next hc =>
    refine ⟨_, rfl, (taskOf_setTask (by exact TaskState.noConfusion) hg).trans ?_, rfl⟩
    rw [launched, if_neg (show ctlPcount (wordAt desc 8) ≠ 0 from hc)]
    rfl
end

section
variable {desc kb : List Byte} {go : List Byte → List Byte → State → Res} {y z : State}

theorem launchReads_misaligned (hk : (wordAt desc 0).toNat % 16 ≠ 0) : launchReads desc go y = .trap .align (wordAt desc 0) := if_pos hk

variable (hk : (wordAt desc 0).toNat % 16 = 0)
include hk

theorem launchReads_kernelFault {e : FaultCode} {v : Word} (hr : readNow y (wordAt desc 0) 12 = .fault e v) :
    launchReads desc go y = .trapWith (y.upd (fun c => { c with refer := none })) e v :=
  (if_neg (not_not_intro hk)).trans (withRead_fault hr)

variable (hr : readNow y (wordAt desc 0) 12 = .ok kb z)
include hr

/-- With its kernel descriptor read, a launch without a queue-limit table goes on, and one with a table reads it (R237). -/
theorem launchReads_noTable (hq : wordAt desc 16 = 0) : launchReads desc go y = go kb [] z :=
  (if_neg (not_not_intro hk)).trans ((withRead_ok hr).trans (if_pos hq))

theorem launchReads_badTable (hq : wordAt desc 16 ≠ 0) (ha : (wordAt desc 16).toNat % 16 ≠ 0) :
    launchReads desc go y = .trap .align (wordAt desc 16) :=
  (if_neg (not_not_intro hk)).trans ((withRead_ok hr).trans ((if_neg hq).trans (if_pos ha)))

theorem launchReads_table (hq : wordAt desc 16 ≠ 0) (ha : (wordAt desc 16).toNat % 16 = 0) :
    launchReads desc go y = withRead z (wordAt desc 16) 4 (fun qb v => go kb qb v) :=
  (if_neg (not_not_intro hk)).trans ((withRead_ok hr).trans ((if_neg hq).trans (if_neg (not_not_intro ha))))
end

/-- What a tlaunch does once it has read its structures, and what it does in all. -/
def launchDone (d : BitVec 5) (desc kb qb : List Byte) (z : State) : Res := .done (putA (launch z desc kb qb).2 d.toNat (launch z desc kb qb).1)
def launchBody (s d : BitVec 5) (st : State) : Res :=
  if (st.cur.readA s.toNat).toNat % 64 ≠ 0 then .trap .align (st.cur.readA s.toNat)
  else release st 3 (fun x => withRead x (st.cur.readA s.toNat) 12 (fun desc y => launchReads desc (launchDone d desc) y))

section
variable {p : BitVec 4} {s d : BitVec 5} {st : State} (g : AGo { pg := p, aregs := [s.toNat, d.toNat], access := true } st)
include g

theorem tlaunch_ready : WordReady (.tlaunch p s d) { pg := p, aregs := [s.toNat, d.toNat], access := true } (launchBody s d) st :=
  ⟨g, rfl, rfl, rfl, rfl⟩

/-- The launch is refused with the code of its first failing check or for want of a record, or it creates the task. -/
theorem tlaunch_completes {desc kb qb : List Byte} {z : State} (hb : launchBody s d st = launchDone d desc kb qb z) :
    (∀ n, launchCode z desc kb qb = some n → Issues (.tlaunch p s d) st (putA z d.toNat (refuse n)))
    ∧ (launchCode z desc kb qb = none → freeRecord (z.die z.myDie) = none → Issues (.tlaunch p s d) st (putA z d.toNat (refuse 6)))
    ∧ (∀ r, launchCode z desc kb qb = none → freeRecord (z.die z.myDie) = some r → ∃ u, Issues (.tlaunch p s d) st u
        ∧ (d ≠ 0 → u.cur.readA d.toNat = launchHandle z r) ∧ taskOf u (launchHandle z r) = some (launched z desc kb qb r)
        ∧ u.mem = z.mem) := by
  have issues {w : Word} {t : State} (hl : launch z desc kb qb = (w, t)) : Issues (.tlaunch p s d) st (putA t d.toNat w) :=
    (tlaunch_ready g).issues (hb.trans (by rw [launchDone, hl]))
  refine ⟨fun n h => issues (launch_refused h), fun h hf => issues (launch_full h hf), fun r h hf => ?_⟩
  obtain ⟨t, hl, ht, hm⟩ := launch_creates h hf
  refine ⟨_, issues hl, fun hd => ?_, ht, hm⟩
  rw [putA, State.upd_cur, Cell.readA_writeA_self, if_neg (fun h0 : d.toNat = 0 => hd (BitVec.eq_of_toNat_eq h0))]
end

section
variable {s d : BitVec 5} {st x : State}

theorem launchBody_misaligned (ha : (st.cur.readA s.toNat).toNat % 64 ≠ 0) : launchBody s d st = .trap .align (st.cur.readA s.toNat) := if_pos ha

variable (ha : (st.cur.readA s.toNat).toNat % 64 = 0)
include ha

theorem launchBody_waits (hw : releaseOf st st.me 3 (fun _ => true) = .wait) : launchBody s d st = .stay .external st :=
  (if_neg (not_not_intro ha)).trans (release_wait hw)

/-- Once the release has been made the descriptor is read. -/
theorem launchBody_released (hx : releaseOf st st.me 3 (fun _ => true) = .done x) :
    launchBody s d st = withRead x (st.cur.readA s.toNat) 12 (fun desc y => launchReads desc (launchDone d desc) y) :=
  (if_neg (not_not_intro ha)).trans (release_done hx)
end

theorem getD_map_range {α : Type} (f : Nat → α) (x : α) {n j : Nat} (h : j < n) : ((List.range n).map f).getD j x = f j := by
  simp [List.getD, h]

/-- The words that the record of a launch keeps (R236, R238). -/
theorem launched_spec {z : State} {desc kb qb : List Byte} {r : Nat} :
    let T := launched z desc kb qb r
    T.state = (if ctlPcount (wordAt desc 8) = 0 then .ready else .waiting) ∧ T.kernel = wordAt desc 0 ∧ T.control = wordAt desc 8
      ∧ T.qlim = wordAt desc 16 ∧ T.count = ctlPcount (wordAt desc 8) ∧ T.entry = wordAt kb 0 ∧ T.world = (z.die z.myDie).world
      ∧ T.succs = [] ∧ T.named = 0 ∧ (∀ o, find? (z.die z.myDie).tasks r = some o → T.gen = o.gen + 1)
      ∧ (∀ j, j < 8 → T.operands.getD j 0 = capAt desc (64 + 16 * j)) := by
  refine ⟨rfl, rfl, rfl, rfl, rfl, rfl, rfl, rfl, rfl, fun o ho => ?_, fun j hj => ?_⟩
  · show nextGen _ _ = _
    rw [nextGen, ho]
  · exact getD_map_range (fun k => capAt desc (0x40 + 16 * k)) 0 hj

/-! `tdep` (R241). -/

section
variable {s : State} {h : Word} {T : Task}

theorem taskSeen_some (hs : taskSeen s h = some T) : taskOf s h = some T := by
  unfold taskSeen at hs
  split at hs
  next ht =>
    split at hs
    · rw [ht, hs]
    · cases hs
  next => cases hs
end

section
variable {s : State} {a b : Word} {P S : Task}

theorem depFault_stale (ha : taskSeen s a = none) : depFault s a b = some a := by
  rw [depFault, ha]

theorem depFault_staleSuccessor (ha : taskSeen s a = some P) (hb : taskSeen s b = none) : depFault s a b = some b := by
  rw [depFault, ha, hb]

/-- The checks of a tdep between two tasks of the world. -/
theorem depFault_none_iff (ha : taskSeen s a = some P) (hb : taskSeen s b = some S) : depFault s a b = none ↔
    hPkg a = s.myPkg ∧ hPkg b = s.myPkg ∧ a ≠ b ∧ S.state = .waiting ∧ S.named < ctlPcount S.control ∧ P.succs.length < 32 := by
  rw [depFault, ha, hb]
  dsimp only
  by_cases h1 : hPkg a ≠ s.myPkg
  · simp [h1]
  by_cases h2 : hPkg b ≠ s.myPkg ∨ a = b ∨ S.state ≠ .waiting ∨ ctlPcount S.control ≤ S.named
  · rw [if_neg h1, if_pos h2]
    refine iff_of_false nofun fun ⟨_, h3, h4, h5, h6, _⟩ => ?_
    exact h2.elim (· h3) (·.elim h4 (·.elim (· h5) (by omega)))
  by_cases h3 : 32 ≤ P.succs.length
  · rw [if_neg h1, if_neg h2, if_pos h3]
    exact iff_of_false nofun (by omega)
  · rw [if_neg h1, if_neg h2, if_neg h3]
    simp only [not_or, Classical.not_not, Nat.not_le] at h1 h2 h3
    obtain ⟨hb, hab, hw, hn⟩ := h2
    exact iff_of_true rfl ⟨h1, hb, hab, hw, hn, h3⟩

/-- A tdep that is not refused names two tasks of the world, the second of which waits. -/
theorem depFault_none (hd : depFault s a b = none) (hb : taskOf s b = some S) : S.state = .waiting := by
  cases hp : taskSeen s a with
  | none => rw [depFault_stale hp] at hd; cases hd
  | some P' =>
    cases hq : taskSeen s b with
    | none => rw [depFault_staleSuccessor hp hq] at hd; cases hd
    | some S' =>
      obtain ⟨_, _, _, hw, _⟩ := (depFault_none_iff hp hq).1 hd
      obtain rfl : S' = S := Option.some.inj ((taskSeen_some hq).symm.trans hb)
      exact hw
end

section
variable {s : State} {a b : Word} {P S : Task} (ha : taskOf s a = some P) (hb : taskOf s b = some S)
include ha hb

/-- The edge counts at its successor, and is kept, satisfied or failed by the state of its predecessor. -/
theorem addEdge_open (h : P.state = .waiting ∨ P.state = .ready ∨ P.state = .running) :
    addEdge s a b = setTask (setTask s b { S with named := S.named + 1 }) a { P with succs := P.succs ++ [b] } := by
  rw [addEdge, ha, hb]
  rcases h with h | h | h <;> simp [h]

theorem addEdge_complete (h : P.state = .complete) : addEdge s a b = satisfyEdge (setTask s b { S with named := S.named + 1 }) b := by
  rw [addEdge, ha, hb]
  simp [h]

theorem addEdge_ended (h : P.state = .failed ∨ P.state = .killed) :
    addEdge s a b = failAll (setTask s b { S with named := S.named + 1 }) cascadeFuel [(b, a)] := by
  rw [addEdge, ha, hb]
  rcases h with h | h <;> simp [h]
end

/-- A waiting task without successors fails by its predecessor alone. -/
theorem failAll_one {s : State} {h cause : Word} {T : Task} (ht : taskOf s h = some T) (hw : T.state = .waiting) (hs : T.succs = []) :
    ∃ V, taskOf (failAll s cascadeFuel [(h, cause)]) h = some V ∧ V.state = .failed := by
  have he : failAll s cascadeFuel [(h, cause)] = appendRecord (endTask s h T .failed) (handleDie h)
      (recordTask s (handleDie h) 3 cause h T.world) := by
    rw [show cascadeFuel = 3999999 + 1 from rfl, failAll, ht]
    simp [hw, hs, failAll]
  rw [he]
  exact ⟨_, (taskOf_congr (Records.appendRecord ..).tasks h).trans (taskOf_setTask TaskState.noConfusion (taskOf_some ht).2), rfl⟩

section
variable {p : BitVec 4} {s t : BitVec 5} {st : State} (g : AGo { pg := p, aregs := [s.toNat, t.toNat] } st)
include g

theorem tdep_refused {h : Word} (hd : depFault st (st.cur.readA s.toNat) (st.cur.readA t.toNat) = some h) : Traps (.tdep p t s) st .perm h := by
  have ready : WordReady (.tdep p t s) _ _ st := ⟨g, rfl, rfl, rfl, rfl⟩
  exact ready.traps (by dsimp only; rw [hd])

theorem tdep_issues (hd : depFault st (st.cur.readA s.toNat) (st.cur.readA t.toNat) = none) :
    Issues (.tdep p t s) st (addEdge st (st.cur.readA s.toNat) (st.cur.readA t.toNat)) := by
  have ready : WordReady (.tdep p t s) _ _ st := ⟨g, rfl, rfl, rfl, rfl⟩
  exact ready.issues (by dsimp only; rw [hd])
end

/-! `tqry` (R243 Table 6). -/

theorem stateCode_lt (x : TaskState) : stateCode x < 8 := by
  cases x <;> decide

/-- The fields of a task's word stand side by side. -/
theorem taskWord_toNat {T : Task} (hc : T.count < 2 ^ 16) : (taskWord (some T)).toNat =
    T.dcomp.toNat * 2 ^ 28 + T.ddisp.toNat * 2 ^ 20 + T.stowed.toNat * 2 ^ 19 + stateCode T.state * 2 ^ 16 + T.count := by
  have hflag : (if T.stowed then 2 ^ 19 else 0) = T.stowed.toNat * 2 ^ 19 := by cases T.stowed <;> rfl
  have := T.dcomp.isLt
  have := T.ddisp.isLt
  have := stateCode_lt T.state
  have := T.stowed.toNat_lt
  rw [taskWord, BitVec.toNat_ofNat, hflag]
  exact Nat.mod_eq_of_lt (by omega)

theorem toNat_field (w : Word) (lo n : Nat) : (w.extractLsb' lo n).toNat = w.toNat / 2 ^ lo % 2 ^ n := by
  rw [BitVec.extractLsb'_toNat, Nat.shiftRight_eq_div_pow]

theorem taskWord_fields {T : Task} (hc : T.count < 2 ^ 16) : ((taskWord (some T)).extractLsb' 0 16).toNat = T.count
    ∧ ((taskWord (some T)).extractLsb' 16 3).toNat = stateCode T.state ∧ (taskWord (some T)).getLsbD 19 = T.stowed
    ∧ (taskWord (some T)).extractLsb' 20 8 = T.ddisp ∧ (taskWord (some T)).extractLsb' 28 8 = T.dcomp
    ∧ (taskWord (some T)).extractLsb' 36 28 = 0 := by
  have hw := taskWord_toNat hc
  have := T.dcomp.isLt
  have := T.ddisp.isLt
  have := stateCode_lt T.state
  have hflag := T.stowed.toNat_lt
  have hbit : (taskWord (some T)).toNat / 2 ^ 19 % 2 = T.stowed.toNat := by omega
  refine ⟨?count, ?state, ?stowed, BitVec.eq_of_toNat_eq ?ddisp, BitVec.eq_of_toNat_eq ?dcomp, BitVec.eq_of_toNat_eq ?rest⟩
  case count => rw [toNat_field]; omega
  case state => rw [toNat_field]; omega
  case stowed =>
    rw [BitVec.getLsbD, Nat.testBit_eq_decide_div_mod_eq, hbit]
    cases T.stowed <;> rfl
  case ddisp => rw [toNat_field]; omega
  case dcomp => rw [toNat_field]; omega
  case rest =>
    rw [toNat_field, show (0 : BitVec 28).toNat = 0 from rfl]
    omega

/-! `tkill` (R244). -/

section
variable {s : State} {h : Word} {T : Task} (ht : taskOf s h = some T)
include ht

theorem killTask_final (hf : T.state.isFinal = true) (record : Bool) : killTask s h record = s := by
  simp [killTask, ht, hf]

theorem killTask_killed (hf : T.state.isFinal = false) (hs : T.succs = []) :
    taskOf (killTask s h true) h = some { T with state := .killed, final := s.cycle, stowed := false, request := 0, succs := [] } := by
  have he : killTask s h true = appendRecord (endTask s h T .killed) (handleDie h) (recordTask s (handleDie h) 2 h h T.world) := by
    simp [killTask, ht, hf, hs, failAll]
  rw [he]
  exact (taskOf_congr (Records.appendRecord ..).tasks h).trans (taskOf_setTask TaskState.noConfusion (taskOf_some ht).2)
end

section
variable {p : BitVec 4} {s : BitVec 5} {st : State} (g : AGo { pg := p, cm := true, aregs := [s.toNat] } st)
include g

theorem tkill_stale (ht : taskSeen st (st.cur.readA s.toNat) = none) : Issues (.tkill p s) st st := by
  have ready : WordReady (.tkill p s) _ _ st := ⟨g, rfl, rfl, rfl, rfl⟩
  exact ready.issues (by dsimp only; rw [ht])

theorem tkill_live {T : Task} (ht : taskSeen st (st.cur.readA s.toNat) = some T) :
    Issues (.tkill p s) st (killTask st (st.cur.readA s.toNat) true) := by
  have ready : WordReady (.tkill p s) _ _ st := ⟨g, rfl, rfl, rfl, rfl⟩
  exact ready.issues (by dsimp only; rw [ht])
end

/-- Settles O49: a launch by what each of its reads finds, an edge by the state of its predecessor, a query and a kill by what the handle names. -/
theorem taskWords : Obligations.TaskWords := by
  unfold Obligations.TaskWords
  intro p t s d st a b
  refine ⟨fun g => ?launch, fun g => ⟨fun h => tdep_refused g, fun P S hd hP hS => ?edge, ?checks⟩, fun g => ?query,
    fun g => ⟨tkill_stale g, fun T hT => ?kill⟩⟩
  case launch =>
    intro i
    have w := tlaunch_ready g
    refine ⟨fun ha => w.traps (launchBody_misaligned ha), fun ha => ⟨fun hw => w.waits (launchBody_waits ha hw), fun x hx => ?_⟩⟩
    have released : launchBody s d st = _ := launchBody_released ha hx
    refine ⟨fun e v hf => w.trapsAfter (released.trans (withRead_fault hf)), ?_⟩
    intro desc y hy k c q completes
    have reads : launchBody s d st = launchReads desc (launchDone d desc) y := released.trans (withRead_ok hy)
    have done (kb qb : List Byte) (z : State) (hb : launchBody s d st = launchDone d desc kb qb z) : completes kb qb z := by
      obtain ⟨hrefused, hfull, hmade⟩ := tlaunch_completes g hb
      refine ⟨hrefused, hfull, fun r hc hr => ?_⟩
      obtain ⟨u, hu, hread, ht, hm⟩ := hmade r hc hr
      have hdie := myDie_lt z
      have hrec := freeRecord_lt hr
      exact ⟨u, launchHandle z r, launched z desc kb qb r, hu, hread, ht, hm, handleDie_mkHandle hdie hrec _, hIndex_mkHandle hdie hrec _,
        mkHandle_lt hdie hrec _, launched_spec⟩
    refine ⟨fun hk => w.traps (reads.trans (launchReads_misaligned hk)), fun hk =>
      ⟨fun e v hf => w.trapsAfter (reads.trans (launchReads_kernelFault hk hf)), fun kb z hz =>
        ⟨fun hq => done _ _ _ (reads.trans (launchReads_noTable hk hz hq)),
          fun hq ha => w.traps (reads.trans (launchReads_badTable hk hz hq ha)), fun hq ha => ?_⟩⟩⟩
    have table := reads.trans (launchReads_table hk hz hq ha)
    exact ⟨fun e v hf => w.trapsAfter (table.trans (withRead_fault hf)), fun qb v hv => done _ _ _ (table.trans (withRead_ok hv))⟩
  case edge =>
    intro S1 S2
    have hw : S.state = .waiting := depFault_none hd hS
    have hS1 : taskOf (setTask st b S1) b = some S1 := taskOf_setTask (taskOf_some hS).1 (taskOf_some hS).2
    have issues := tdep_issues g hd
    refine ⟨fun h => ?_, fun h hc => ?_, fun h hc => ?_, fun h hs => ?_⟩
    · rwa [addEdge_open hP hS h] at issues
    · rwa [addEdge_complete hP hS h, satisfyEdge_more hS1 hw hc] at issues
    · rwa [addEdge_complete hP hS h, satisfyEdge_last hS1 hw hc] at issues
    · rw [addEdge_ended hP hS h] at issues
      obtain ⟨V, hV⟩ := failAll_one (cause := a) hS1 hw hs
      exact ⟨_, V, issues, hV⟩
  case checks => exact ⟨fun P S => depFault_none_iff, depFault_stale, fun P => depFault_staleSuccessor⟩
  case query =>
    have writes : WritesA (.tqry p s d) st d (taskWord (taskSeen st a)) := WordReady.issues ⟨g, rfl, rfl, rfl, rfl⟩ rfl
    refine ⟨fun h => ?_, fun T h => ?_⟩
    · rwa [h] at writes
    · rw [h] at writes
      exact ⟨_, writes, taskWord_fields⟩
  case kill =>
    have issues := tkill_live g hT
    refine ⟨fun hf => ?_, fun hf hs => ⟨_, issues, killTask_killed (taskSeen_some hT) hf hs⟩⟩
    rwa [killTask_final (taskSeen_some hT) hf] at issues

end Sys2Proof.Machine

namespace Sys2Proof.Machine
open Sys2Proof

/-! Whether a package answers a request of the host, and a die function takes one (R389, R390, R397). -/

theorem hostUp_iff {s : State} {p : Nat} : hostUp s p = true ↔ (s.pkg p).phase = .released ∨ (s.pkg p).phase = .ready := by
  simp [hostUp]

theorem pkgOfDie_dieIx (d : DieId) : pkgOfDie (dieIx d) = d.pkg.val := by
  have := d.die.isLt
  simp only [pkgOfDie, dieIx]
  omega

/-- A die function that is locked or runs takes the requests of the IDE stream that it is bound to, under a key that has been set. -/
theorem onStream_iff {s : State} {d : DieId} {z : Option (Fin 9)} : onStream s (dieIx d) (z.map (·.val)) = true ↔
    (s.die (dieIx d)).tdi = .configUnlocked ∨ (s.die (dieIx d)).tdi = .error
      ∨ ∃ k, z = some k ∧ (s.die (dieIx d)).stream = some k.val ∧ (find? (s.pkg d.pkg.val).ideKeys k.val).isSome = true := by
  unfold onStream
  dsimp only
  rw [pkgOfDie_dieIx]
  cases z <;> cases (s.die (dieIx d)).tdi <;> simp

/-! Stores of the host (R319). -/

section
variable (s : State) (p : Nat) (w : Word) (bs : List Byte)

theorem hostStore_mem : (hostStore s p w bs).mem = Memory.write s.mem w.toNat bs := rfl

theorem hostStore_rest : { hostStore s p w bs with mem := s.mem, dies := s.dies } = s := rfl

theorem hostStore_cell (j : Nat) : (hostStore s p w bs).cell j = s.cell j := rfl

/-- Of a die only the write times that it keeps change. -/
theorem hostStore_die (j : Nat) : { (hostStore s p w bs).die j with hmax := (s.die j).hmax } = s.die j := by
  rw [hostStore, raiseTime, State.modDie_die]
  split
  next h => subst h; rfl
  next => rfl

/-- The home of a host's write reaches the pts of the package. -/
theorem hostStore_time : lookup 0 ((hostStore s p w bs).die (homeDie w)).hmax (homePart w)
    = max (s.pkg p).pts (lookup 0 (s.die (homeDie w)).hmax (homePart w)) := by
  rw [hostStore, raiseTime, State.modDie_die_self]
  exact lookup_insertAt_self ..
end

/-! LAUNCH_DOORBELL (R257). -/

/-- The status of a doorbell with tail t, as it is left behind. -/
def rung (s : State) (die : Nat) (b : BitVec 3) : State := s.modDie die (fun k => { k with lastDoorbell := b })

section
variable {d : DieId} {z : Option (Fin 9)} {s : State} {x : Word}

theorem launchDoorbell_closed (h : hostUp s d.pkg.val = false ∨ onStream s (dieIx d) (z.map (·.val)) = false) :
    exec (.launchDoorbell d ⟨z, x⟩) s = .next s :=
  if_pos (by simpa using h)

variable (hu : hostUp s d.pkg.val = true) (ho : onStream s (dieIx d) (z.map (·.val)) = true)
include hu ho

/-- A doorbell that is refused, and one with the tail in force, leaves its status. -/
theorem launchDoorbell_refused {b : BitVec 3} (hb : doorbellStatus s (dieIx d) (x.toNat % 4096) = b)
    (h : b ≠ 0 ∨ x.toNat % 4096 = lrIndex s (dieIx d) 0) : exec (.launchDoorbell d ⟨z, x⟩) s = .next (rung s (dieIx d) b) := by
  subst hb
  exact (if_neg (by simp [hu, ho])).trans (if_pos h)

/-- One that is accepted stores its tail in the ring's header and sets the latch of the command cell. -/
theorem launchDoorbell_accepted (hb : doorbellStatus s (dieIx d) (x.toNat % 4096) = 0) (h : x.toNat % 4096 ≠ lrIndex s (dieIx d) 0) :
    exec (.launchDoorbell d ⟨z, x⟩) s = .next (setLatch (hostStore (rung s (dieIx d) 0) d.pkg.val (s.die (dieIx d)).lrbase
      (leBytes (x.toNat % 4096) 8)) (dieIx d * 144)) := by
  refine (if_neg (by simp [hu, ho])).trans ((if_neg (by simp [hb, h])).trans ?_)
  rw [hb, State.modDie_die_self]
  rfl
end

section
variable {s : State} {die t : Nat}

theorem doorbellStatus_locked (h : (s.die die).tdi = .configLocked) : doorbellStatus s die t = 5 := if_pos h

theorem doorbellStatus_error (h : (s.die die).tdi = .error) : doorbellStatus s die t = 1 := by
  simp [doorbellStatus, h]

theorem doorbellStatus_reassigned (hl : (s.die die).tdi ≠ .configLocked) (h : (s.die die).reassign.isSome = true) : doorbellStatus s die t = 1 := by
  simp [doorbellStatus, hl, h]

variable (ht : (s.die die).tdi = .run ∨ (s.die die).tdi = .configUnlocked) (hr : (s.die die).reassign = none)
include ht hr

theorem doorbellStatus_unregistered (h : (s.die die).lrbase = 0) : doorbellStatus s die t = 3 := by
  rcases ht with ht | ht <;> simp [doorbellStatus, ht, hr, h]

/-- On a die that serves, a tail is refused beyond the ring and behind the tail in force. -/
theorem doorbellStatus_serves (h : (s.die die).lrbase ≠ 0) (hh : lrIndex s die 8 < 2 ^ (s.die die).lrm) : doorbellStatus s die t =
    if 2 ^ (s.die die).lrm ≤ t ∨ (t + 2 ^ (s.die die).lrm - lrIndex s die 8) % 2 ^ (s.die die).lrm
      < (lrIndex s die 0 + 2 ^ (s.die die).lrm - lrIndex s die 8) % 2 ^ (s.die die).lrm then 1 else 0 := by
  rcases ht with ht | ht <;> simp only [doorbellStatus, ht, hr, h, Nat.mod_eq_of_lt hh] <;> simp
end

section
variable {d : DieId} {z : Option (Fin 9)} {s : State} {x : Word}

/-- What an accepted doorbell leaves (R193, R257, R319). -/
theorem accepted_spec (s : State) (p die : Nat) (bs : List Byte) :
    let w := (s.die die).lrbase
    let u := setLatch (hostStore (rung s die 0) p w bs) (die * 144)
    u.mem = Memory.write s.mem w.toNat bs ∧ (u.cell (die * 144)).latch = true
      ∧ { u.die die with hmax := (s.die die).hmax } = { s.die die with lastDoorbell := 0 }
      ∧ lookup 0 (u.die (homeDie w)).hmax (homePart w) = max (s.pkg p).pts (lookup 0 (s.die (homeDie w)).hmax (homePart w))
      ∧ ∀ j, j ≠ die * 144 → u.cell j = s.cell j := by
  intro w u
  have hkeeps (j : Nat) : ((rung s die 0).die j).hmax = (s.die j).hmax := by
    rw [rung, State.modDie_die]
    split
    next h => subst h; rfl
    next => rfl
  refine ⟨rfl, ?latch, ?kept, ?time, fun j hj => ?cells⟩
  case latch => exact congrArg Cell.latch (State.modCell_cell_self ..)
  case kept =>
    have h := hostStore_die (rung s die 0) p w bs die
    rw [hkeeps] at h
    exact h.trans (State.modDie_die_self ..)
  case time =>
    rw [← hkeeps]
    exact hostStore_time (rung s die 0) p w bs
  case cells => exact (State.modCell_cell ..).trans (if_neg hj)

/-- The doorbells of a die that serves and whose ring is registered, by their tail (R257). -/
theorem launchDoorbell_serves (hu : hostUp s d.pkg.val = true) (ho : onStream s (dieIx d) (z.map (·.val)) = true)
    (ht : (s.die (dieIx d)).tdi = .run ∨ (s.die (dieIx d)).tdi = .configUnlocked) (hr : (s.die (dieIx d)).reassign = none)
    (hb : (s.die (dieIx d)).lrbase ≠ 0) (hh : lrIndex s (dieIx d) 8 < 2 ^ (s.die (dieIx d)).lrm)
    (hn : lrIndex s (dieIx d) 0 < 2 ^ (s.die (dieIx d)).lrm) :
    let t := x.toNat % 4096
    let head := lrIndex s (dieIx d) 8
    let tail := lrIndex s (dieIx d) 0
    let n := 2 ^ (s.die (dieIx d)).lrm
    (n ≤ t ∨ (t + n - head) % n < (tail + n - head) % n → exec (.launchDoorbell d ⟨z, x⟩) s = .next (rung s (dieIx d) 1))
    ∧ (t < n → t = tail → exec (.launchDoorbell d ⟨z, x⟩) s = .next (rung s (dieIx d) 0))
    ∧ (t < n → t ≠ tail → (tail + n - head) % n ≤ (t + n - head) % n → exec (.launchDoorbell d ⟨z, x⟩) s
        = .next (setLatch (hostStore (rung s (dieIx d) 0) d.pkg.val (s.die (dieIx d)).lrbase (leBytes t 8)) (dieIx d * 144))) := by
  intro t head tail n
  have status : doorbellStatus s (dieIx d) t = if n ≤ t ∨ (t + n - head) % n < (tail + n - head) % n then 1 else 0 :=
    doorbellStatus_serves ht hr hb hh
  refine ⟨fun h => ?_, fun hlt h => ?_, fun hlt hne hle => ?_⟩
  · rw [if_pos h] at status
    exact launchDoorbell_refused hu ho status (.inl (by decide))
  · rw [if_neg (by rw [h]; omega)] at status
    exact launchDoorbell_refused hu ho status (.inr h)
  · rw [if_neg (by omega)] at status
    exact launchDoorbell_accepted hu ho status hne
end

/-! HOST_RING_WRITE (R390). -/

section
variable {d : DieId} {z : Option (Fin 9)} {s : State} {x y : Word}

theorem hostRingWrite_closed (h : hostUp s d.pkg.val = false ∨ onStream s (dieIx d) (z.map (·.val)) = false) :
    exec (.hostRingWrite d x ⟨z, y⟩) s = .next s :=
  if_pos (by rcases h with h | h <;> simp [h])

/-- A die without a ring, and bytes outside the ring's entries, take nothing. -/
theorem hostRingWrite_outside (h : (s.die (dieIx d)).lrbase = 0 ∨ x.toNat < 256 ∨ 256 + 2 ^ (s.die (dieIx d)).lrm * 256 < x.toNat + 8) :
    exec (.hostRingWrite d x ⟨z, y⟩) s = .next s :=
  if_pos (by rcases h with h | h | h <;> simp [h])

theorem hostRingWrite_inside (hu : hostUp s d.pkg.val = true) (ho : onStream s (dieIx d) (z.map (·.val)) = true)
    (ht : (s.die (dieIx d)).tdi = .run ∨ (s.die (dieIx d)).tdi = .configUnlocked) (hr : (s.die (dieIx d)).reassign = none)
    (hb : (s.die (dieIx d)).lrbase ≠ 0) (hlo : 256 ≤ x.toNat) (hhi : x.toNat + 8 ≤ 256 + 2 ^ (s.die (dieIx d)).lrm * 256) :
    exec (.hostRingWrite d x ⟨z, y⟩) s = .next (hostStore s d.pkg.val ((s.die (dieIx d)).lrbase + x) (leBytes y.toNat 8)) :=
  if_neg (by rcases ht with ht | ht <;> simpa [hu, ho, ht, hr, hlo, hhi] using hb)
end

/-! The management window (R267, R269, R382, R395). -/

/-- A granule answers a debugger's read: the request's world is the die's, and its heat, neither cold nor retired, is the granule's. -/
def debuggerMatches (s : State) (die a : Nat) (w : BitVec 16) (h : Heat) : Bool :=
  (s.die die).reassign.isNone && w == (s.die die).world && h != 0 && (find? (s.die die).retired h.toNat).isNone && lookup 0 s.heats (a / 32) == h

theorem debuggerMatches_iff {s : State} {die a : Nat} {w : BitVec 16} {h : Heat} : debuggerMatches s die a w h = true ↔
    (s.die die).reassign = none ∧ w = (s.die die).world ∧ h ≠ 0 ∧ find? (s.die die).retired h.toNat = none
      ∧ lookup 0 s.heats (a / 32) = h := by
  simp [debuggerMatches, and_assoc]

theorem debuggerMatches_eq_false {s : State} {die a : Nat} {w : BitVec 16} {h : Heat}
    (hn : (s.die die).reassign.isSome = true ∨ w ≠ (s.die die).world ∨ h = 0 ∨ (find? (s.die die).retired h.toNat).isSome = true
      ∨ lookup 0 s.heats (a / 32) ≠ h) : debuggerMatches s die a w h = false := by
  rw [← Bool.not_eq_true, debuggerMatches_iff]
  rintro ⟨hr, hw, h0, ht, hh⟩
  rcases hn with hn | hn | hn | hn | hn
  · rw [hr] at hn; cases hn
  · exact hn hw
  · exact h0 hn
  · rw [ht] at hn; cases hn
  · exact hn hh

/-- The bytes that a debugger reads of the granule at a. -/
def debuggerBytes (s : State) (die a : Nat) (w : BitVec 16) (h : Heat) : List Byte :=
  if debuggerMatches s die a w h then Memory.read s.mem a 32 else List.replicate 32 0

section
variable {d : DieId} {s : State} {x : Word} {w : BitVec 16} {h : Heat} {k : Nat}

theorem debuggerRead_down (hu : hostUp s d.pkg.val = false) :
    exec (.debuggerRead d x w h) s = .next (s.modPkg d.pkg.val (fun q => { q with debugger := .unsupported })) :=
  if_pos (by rw [hu]; rfl)

theorem debuggerRead_up (hu : hostUp s d.pkg.val = true) : exec (.debuggerRead d x w h) s = .next (s.modPkg d.pkg.val (fun q => { q with
    debugger := .bytes (debuggerBytes s (dieIx d) (dieBase (dieIx d) + 2 ^ 53 + x.toNat % 2 ^ 30 / 32 * 32) w h) })) :=
  if_neg (by rw [hu]; exact Bool.false_ne_true)

theorem counterRead_known (hu : hostUp s d.pkg.val = true) (hk : k < 20) : exec (.counterRead d k) s = .next (s.modPkg d.pkg.val (fun q => { q with
    counterBox := .value ((lookup 0 (s.die (dieIx d)).counters k).setWidth 64) })) :=
  if_neg (by simp [hu, hk])

theorem counterRead_unknown (h : hostUp s d.pkg.val = false ∨ 20 ≤ k) :
    exec (.counterRead d k) s = .next (s.modPkg d.pkg.val (fun q => { q with counterBox := .unsupported })) :=
  if_pos (by simpa using h)
end

/-! Serials of worlds (R383). -/

section
variable {p : PkgId} {s : State} {n : BitVec 15}

/-- A serial is free again where no die has its world or is being given it. -/
theorem serialConfirmation_unused (h : ∀ i, i < 8 → (s.die (p.val * 8 + i)).world ≠ worldOf p.val n.toNat
      ∧ ∀ r, (s.die (p.val * 8 + i)).reassign = some r → r.world ≠ worldOf p.val n.toNat) :
    exec (.serialConfirmation p n) s = .next (s.modPkg p.val (fun q => { q with serials := q.serials.filter (· != n.toNat) })) := by
  refine if_neg ?_
  simp only [List.any_eq_true, List.mem_range, Bool.or_eq_true, beq_iff_eq, not_exists, not_and, not_or]
  intro i hi
  refine ⟨(h i hi).1, ?_⟩
  split
  next r hr => simpa using (h i hi).2 r hr
  next => exact Bool.false_ne_true

theorem serialConfirmation_used {i : Nat} (hi : i < 8) (h : (s.die (p.val * 8 + i)).world = worldOf p.val n.toNat) :
    exec (.serialConfirmation p n) s = .next s :=
  if_pos (List.any_eq_true.2 ⟨i, List.mem_range.2 hi, by simp [h]⟩)
end

/-! SPDM (R389, R397). -/

/-- An SPDM request puts one message in the mailbox once its package is out of reset, and moves the session by f. -/
theorem spdm_answers (p : PkgId) (f : Session → Session) (s : State) : ((s.pkg p.val).phase = .inReset → spdm p f s = s)
    ∧ ((s.pkg p.val).phase ≠ .inReset → ∃ bs, spdm p f s
      = { s with free := s.free + 1 }.modPkg p.val (fun q => { q with doe := .bytes bs, session := f q.session })) :=
  ⟨fun h => if_pos h, fun h => ⟨_, if_neg h⟩⟩

/-- Settles O55: a doorbell and a ring write by what the die takes, a read of the host by its package, an SPDM request by its phase. -/
theorem hostRequestsAreAnswered : Obligations.HostRequestsAreAnswered := by
  unfold Obligations.HostRequestsAreAnswered
  refine ⟨fun d z s x y => ?memory, fun p s v => ?mailboxes⟩
  case memory =>
    intro die D p up bound timed
    have hup : up ↔ hostUp s p = true := hostUp_iff.symm
    have hbound : bound ↔ onStream s die (z.map (·.val)) = true := onStream_iff.symm
    refine ⟨fun h => ?closed, fun hu hb => ?taken, fun w h => ⟨fun hu => ?down, fun hu => ?debugger⟩,
      fun k => ⟨fun hu hk => counterRead_known (hup.1 hu) hk, fun h => counterRead_unknown ?counter⟩⟩
    case closed =>
      rw [hup, hbound, Bool.not_eq_true, Bool.not_eq_true] at h
      exact ⟨launchDoorbell_closed h, hostRingWrite_closed h⟩
    case down => exact debuggerRead_down (by rwa [hup, Bool.not_eq_true] at hu)
    case debugger =>
      refine ⟨_, debuggerRead_up (hup.1 hu), fun h1 h2 h3 h4 h5 => if_pos (debuggerMatches_iff.2 ⟨h1, h2, h3, h4, h5⟩), fun h => if_neg ?_⟩
      rw [debuggerMatches_eq_false h]
      exact Bool.false_ne_true
    case counter => rwa [hup, Bool.not_eq_true] at h
    case taken =>
      intro t head tail n refused
      rw [hup] at hu
      rw [hbound] at hb
      refine ⟨fun h => ?_, fun h => ?_, fun hl he h => ?_, fun ht hr => ⟨fun h => ?_, fun hl hh hn => ?_, fun hl hlo hhi => ?_, fun h => ?_⟩⟩
      · exact launchDoorbell_refused hu hb (doorbellStatus_locked h) (.inl (by decide))
      · exact launchDoorbell_refused hu hb (doorbellStatus_error h) (.inl (by decide))
      · exact launchDoorbell_refused hu hb (doorbellStatus_reassigned hl h) (.inl (by decide))
      · exact launchDoorbell_refused hu hb (doorbellStatus_unregistered ht hr h) (.inl (by decide))
      · obtain ⟨hrefused, hforce, haccepted⟩ := launchDoorbell_serves (x := x) hu hb ht hr hl hh hn
        exact ⟨fun h => hrefused (.inl h), fun _ h => hrefused (.inr h), hforce,
          fun h1 h2 h3 => ⟨_, haccepted h1 h2 h3, accepted_spec s p die _⟩⟩
      · exact ⟨_, hostRingWrite_inside hu hb ht hr hl hlo hhi, hostStore_mem .., hostStore_rest .., hostStore_time .., hostStore_die _ _ _ _⟩
      · exact hostRingWrite_outside h
  case mailboxes =>
    intro K up answers
    have hup : up ↔ hostUp s p.val = true := hostUp_iff.symm
    have spdm (i : Instr) (f : Session → Session) (hi : exec i s = .next (spdm p f s)) : answers i f := by
      obtain ⟨hreset, hanswers⟩ := spdm_answers p f s
      exact ⟨fun h => by rw [hi, hreset h], fun h => (hanswers h).imp fun bs hbs => by rw [hi, hbs]⟩
    refine ⟨fun hu => if_pos (hup.1 hu), fun hu => if_neg (fun h => hu (hup.2 h)),
      fun n => ⟨serialConfirmation_unused, fun i => serialConfirmation_used⟩,
      spdm _ id rfl, spdm _ id rfl, spdm _ id rfl, spdm _ id rfl, spdm _ id rfl, spdm _ id rfl, spdm _ id rfl,
      spdm _ (fun _ => .handshake) rfl, spdm _ (fun x => if x = .none then .none else .secure) rfl, spdm _ (fun _ => .none) rfl,
      fun h k => if_pos h, fun h => if_pos h, fun h => ⟨fun k hk => ?one, fun k hk => ?all, fun hs => ?key⟩⟩
    case one => exact (if_neg h).trans (if_pos (by omega))
    case all => exact ⟨_, (if_neg h).trans (if_neg (by omega)), rfl, fun j hj => getD_map_range _ _ hj⟩
    case key => exact ⟨_, if_neg (fun h' => h'.elim h (fun hn => hn hs))⟩

end Sys2Proof.Machine

namespace Sys2Proof.Machine
open Sys2Proof

/-! Memory below the image that a slot takes (R204). -/

section
variable {s t : State} {h : Heat} {b : Nat}

theorem writeVault_byte_below {a : Nat} {bs : List Byte} (hw : writeVault s h a bs = .ok t) (hb : b < a / 32 * 32) :
    Memory.byte t.mem b = Memory.byte s.mem b := by
  have ha : b < a := by omega
  unfold writeVault at hw
  dsimp only at hw
  split at hw
  · cases hw
    exact (Memory.byte_write_out _ _ _ _ (.inl ha)).trans (Memory.byte_write_out _ _ _ _ (.inl hb))
  split at hw
  · cases hw
  · cases hw
    exact Memory.byte_write_out _ _ _ _ (.inl ha)

theorem putVault_byte_below {w : Word} {bs : List Byte} (hb : b < w.toNat / 32 * 32) :
    Memory.byte (putVault s h w bs).mem b = Memory.byte s.mem b := by
  unfold putVault
  split
  next hw => exact writeVault_byte_below hw hb
  next => rfl

/-- Granules stored upwards, short of the last address, leave what lies below the first. -/
theorem putVaultMany_byte_below {w : Word} {gs : List (List Byte)} (hn : w.toNat + 32 * gs.length < 2 ^ 64) (hb : b < w.toNat / 32 * 32) :
    Memory.byte (putVaultMany s h w gs).mem b = Memory.byte s.mem b := by
  induction gs generalizing s w with
  | nil => rfl
  | cons g gs ih =>
    rw [List.length_cons] at hn
    have hnext : (w + 32).toNat = w.toNat + 32 := by
      rw [BitVec.toNat_add, show (32 : Word).toNat = 32 from rfl]
      omega
    refine (ih (by rw [hnext]; omega) (by rw [hnext]; omega)).trans (putVault_byte_below hb)

theorem granules_length (n : Nat) (bs : List Byte) : (granules n bs).length = n := by
  induction n generalizing bs with
  | zero => rfl
  | succ n ih => rw [granules, List.length_cons, ih]

theorem writeParts_cons (s : State) (h : Heat) (base : Word) (p : Part8) (ps : List Part8) :
    writeParts s h base (p :: ps) = writeParts (writeParts s h base [p]) h base ps := rfl

/-- Parts of an image, each of which lies above an address and short of the last, leave the byte there. -/
theorem writeParts_byte_below {base : Word} {ps : List Part8}
    (hp : ∀ p ∈ ps, (base + BitVec.ofNat 64 p.1).toNat + 32 * ((p.2.length + 31) / 32) < 2 ^ 64
      ∧ b < (base + BitVec.ofNat 64 p.1).toNat / 32 * 32) :
    Memory.byte (writeParts s h base ps).mem b = Memory.byte s.mem b := by
  induction ps generalizing s with
  | nil => rfl
  | cons p ps ih =>
    obtain ⟨hn, hb⟩ := hp p (.head _)
    exact (ih fun q hq => hp q (.tail _ hq)).trans (putVaultMany_byte_below (by rwa [granules_length]) hb)
end

/-! COPY_COMPLETE of a copy whose strand is stowed (R205, R303). -/

/-- The cell, or the stowed context, of a strand that is told the end of its copy. -/
def toldCell (k : Copy) (cycle : Nat) (c : Cell) : Cell :=
  { c with tags := insertAt c.tags k.tag ⟨true, k.status true, if k.host then 5 else k.scopeCode, k.wtime, cycle⟩, latch := true }

theorem copyComplete_stowed {d : DieId} {id : Nat} {s : State} {k : Copy} (hk : copy? s (dieIx d) id = some k) (he : k.ended = true)
    (hr : reqOfCopy s id = none) (ho : k.orphan = false) (hc : 1000000 ≤ k.cell) : exec (.copyComplete d id) s = .next (modStowed
      (s.modDie (dieIx d) (fun d => { d with copies := d.copies.filter (·.id != id) })) (dieIx d) (fun x => stowKey x.slot == k.cell)
      (fun x => { x with ctx := toldCell k s.cycle x.ctx })) := by
  show execCopyComplete d id s = _
  unfold execCopyComplete
  dsimp only
  rw [hk]
  dsimp only
  rw [if_neg (by simp [he, hr]), if_neg (by simp [ho]), if_pos hc]
  rfl

/-- A change of the one stowed strand that a test picks is stored in its slot. -/
theorem modStowed_one {s : State} {die : Nat} {pick : Stowed → Bool} {f : Stowed → Stowed} {x : Stowed}
    (hx : (s.die die).stowed.filter pick = [x]) :
    let t := s.modDie die (fun d => { d with stowed := d.stowed.map (fun x => if pick x then f x else x) })
    modStowed s die pick f = writeSlot t die x (liveParts t (f x)) := by
  intro t
  unfold modStowed
  rw [hx]
  rfl

theorem writeSlot_region {s : State} {die : Nat} {x : Stowed} {r : Region} (hr : find? (s.die die).regions x.slot = some r) (ps : List Part8) :
    writeSlot s die x ps = writeParts s x.ctx.heat (vaultAddr die (x.slot / 64) (r.base * 1024)) ps := by
  rw [writeSlot, slotBase, hr]
  rfl

/-! A strand that is stowed in slot 0 of die 0, with a copy that has ended for want of alignment, and no byte of memory set. -/

def stowedCopy : Copy := {
  id := 0, cell := stowKey 0, home := 1, tag := 0, host := false, running := true, words := [], src := 0, dst := 0, bytesIn := [], output := []
  readAt := 0, doneBytes := 0, code := some .align, wtime := 0, orphan := false, crc := 0, begun := false, staged := false, missed := none
  packets := [] }

def stowedStrand : Stowed := ⟨0, .systemRequest, false, true, 0, 0, 1, 0, { Cell.reset with heat := 5 }⟩

def stowedState : State := { State.reset with dies := [(0, { Die.reset 0 with
  regions := [(0, ⟨0, 128, 5, false, 6, true, true, true, true, true, 0⟩)], copies := [stowedCopy], stowed := [stowedStrand] })] }

/-- The strand once it has been told, and the state whose slot takes its image. -/
def toldStrand : Stowed := { stowedStrand with ctx := toldCell stowedCopy 0 stowedStrand.ctx }
def toldState : State :=
  (stowedState.modDie 0 (fun d => { d with copies := d.copies.filter (·.id != 0) })).modDie 0 (fun d => { d with
    stowed := d.stowed.map (fun x => if stowKey x.slot == stowedCopy.cell then { x with ctx := toldCell stowedCopy 0 x.ctx } else x) })

/-- The byte of the header that holds the event latch. -/
def latchByte : Nat := (vaultAddr 0 0 0).toNat + 56

theorem stowedCopy_completes : exec (.copyComplete ⟨0, 0⟩ 0) stowedState
    = .next (writeParts toldState 5 (vaultAddr 0 0 0) (liveParts toldState toldStrand)) := by
  rw [copyComplete_stowed (k := stowedCopy) rfl rfl rfl rfl (Nat.le_refl _), modStowed_one (x := stowedStrand) rfl, writeSlot_region rfl]
  rfl

/-- The parts behind the header lie above the latch. -/
theorem liveParts_above_latch : ∀ p ∈ (liveParts toldState toldStrand).tail,
    (vaultAddr 0 0 0 + BitVec.ofNat 64 p.1).toNat + 32 * ((p.2.length + 31) / 32) < 2 ^ 64
      ∧ latchByte < (vaultAddr 0 0 0 + BitVec.ofNat 64 p.1).toNat / 32 * 32 := by
  decide +kernel

theorem header_sets_latch :
    Memory.byte (writeParts toldState 5 (vaultAddr 0 0 0) [headerPart toldState toldStrand]).mem latchByte = 1 := by
  decide +kernel

theorem stowedCopy_sets_latch :
    Memory.byte (writeParts toldState 5 (vaultAddr 0 0 0) (liveParts toldState toldStrand)).mem latchByte = 1 := by
  rw [show liveParts toldState toldStrand = headerPart toldState toldStrand :: (liveParts toldState toldStrand).tail from rfl, writeParts_cons,
    writeParts_byte_below liveParts_above_latch, header_sets_latch]

/-- Refutes O45: where the strand of an ended copy is stowed, COPY_COMPLETE stores the tag and the latch in the image in its slot (R205), so
memory does not stay as it was; the event latch of the image becomes set. -/
theorem not_copyStepsMoveGranules : ¬ Obligations.CopyStepsMoveGranules := by
  unfold Obligations.CopyStepsMoveGranules
  intro h
  obtain ⟨-, -, -, copies⟩ := h ⟨0, 0⟩ 0 0 stowedState
  obtain ⟨-, -, -, -, -, -, completes, -⟩ := copies stowedCopy rfl rfl
  obtain ⟨t, ht, -, hmem, -⟩ := completes rfl rfl
  have stored := Host.Outcome.next.inj (stowedCopy_completes.symm.trans ht)
  have hlatch := stowedCopy_sets_latch
  rw [stored, hmem] at hlatch
  exact absurd hlatch (by decide)

end Sys2Proof.Machine

namespace Sys2Proof.Machine
open Sys2Proof

/-! Memory keeps its canonical form (R268): rings, records and the ends of tasks. -/

/-- The records of rings lie outside memory. -/
theorem giveGrants_mem (s : State) (gs : List (Nat × Grant)) : (giveGrants s gs).mem = s.mem := by
  induction gs generalizing s with
  | nil => rfl
  | cons g gs ih => exact ih _

theorem settleRing_mem (s : State) (w : Word) (r : Ring) : (settleRing s w r).mem = s.mem := giveGrants_mem _ _

theorem leaveRing_mem (s : State) (ix : Nat) : (leaveRing s ix).mem = s.mem := by
  unfold leaveRing
  split
  · rfl
  dsimp only
  split
  · rfl
  · exact settleRing_mem ..

namespace MemOk
variable {s t : State}

theorem of_mem (h : MemOk s) (hm : t.mem = s.mem) : MemOk t := by
  unfold MemOk
  rw [hm]
  exact h

/-- A choice of which both branches have the form. -/
theorem ite {c : Prop} [Decidable c] (h : MemOk s) (k : MemOk t) : MemOk (if c then s else t) := by split <;> assumption

theorem modDie (h : MemOk s) (d : Nat) (f : Die → Die) : MemOk (s.modDie d f) := h

theorem noteEcc (h : MemOk s) (w : Word) (p : Site) : MemOk (noteEcc s w p) := h.of_mem (Counts.noteEcc ..).mem

theorem of_writeVault {ht : Heat} {a : Nat} {bs : List Byte} (h : MemOk s) (hw : writeVault s ht a bs = .ok t) : MemOk t := by
  unfold writeVault at hw
  dsimp only at hw
  split at hw
  · cases hw; exact Memory.write_wf (Memory.write_wf h _ _) _ _
  split at hw
  · cases hw
  · cases hw; exact Memory.write_wf h _ _

theorem of_writeSite {p : Site} {bs : List Byte} (h : MemOk s) (hw : writeSite s p bs = .ok t) : MemOk t := by
  unfold writeSite at hw
  split at hw
  · exact h.of_writeVault hw
  · cases hw; exact Memory.write_wf h _ _

theorem putVault (h : MemOk s) (ht : Heat) (w : Word) (bs : List Byte) : MemOk (putVault s ht w bs) := by
  unfold Machine.putVault
  split
  next hw => exact h.of_writeVault hw
  next => exact h

theorem putRegion (h : MemOk s) (w : Word) (bs : List Byte) : MemOk (putRegion s w bs) := by
  unfold Machine.putRegion
  split
  · split
    · exact (h.noteEcc ..).putVault ..
    · exact h.putVault ..
  · exact h

theorem putVaultMany (h : MemOk s) (ht : Heat) (w : Word) (gs : List (List Byte)) : MemOk (putVaultMany s ht w gs) := by
  induction gs generalizing s w with
  | nil => exact h
  | cons g gs ih => exact ih (h.putVault ..) _

theorem of_rmwSite {w : Word} {p : Site} {op : RmwOp} {n b x v : Nat} (h : MemOk s) (hr : rmwSite s w p op n b x = .ok (v, t)) : MemOk t := by
  unfold rmwSite at hr
  split at hr
  · cases hr
  split at hr
  · cases hr
  next hw => cases hr; exact (h.noteEcc ..).of_writeSite hw

theorem of_performStore {ix v : Nat} {o : MemOp} (h : MemOk s) (hp : performStore s ix o = .ok (v, t)) : MemOk t := by
  unfold performStore at hp
  split at hp
  · split at hp
    · cases hp
    split at hp
    · cases hp
    next hw =>
      cases hp
      split at hw
      · exact (h.noteEcc ..).of_writeSite hw
      · exact h.of_writeSite hw
  · split at hp
    · cases hp
    · exact h.of_rmwSite hp
  · split at hp
    · cases hp
    · exact h.of_rmwSite hp
  · cases hp; exact h

theorem drainStores (h : MemOk s) (ix : Nat) (ops l : List MemOp) : MemOk (drainStores s ix ops l) := by
  induction l generalizing s with
  | nil => exact h
  | cons o os ih =>
    refine ih ?_
    split
    · exact h
    split
    next hp =>
      have ht := h.of_performStore hp
      split <;> exact ht
    next => exact h

theorem fqStore (h : MemOk s) (die : Nat) (r : FaultRecord) : MemOk (fqStore s die r) :=
  ((h.putRegion ..).putRegion ..).putRegion ..

theorem appendRecord (h : MemOk s) (die : Nat) (r : FaultRecord) : MemOk (appendRecord s die r) := by
  unfold Machine.appendRecord
  split
  · exact h.fqStore ..
  · exact h

theorem flushRecords (h : MemOk s) (die n : Nat) : MemOk (flushRecords s die n) := by
  induction n generalizing s with
  | zero => exact h
  | succ n ih =>
    unfold Machine.flushRecords
    split
    · exact h
    split
    · exact ih (MemOk.fqStore (s := s.modDie die _) h ..)
    · exact h

theorem leaveRing (h : MemOk s) (ix : Nat) : MemOk (leaveRing s ix) := h.of_mem (leaveRing_mem s ix)

theorem freeCell (h : MemOk s) (ix : Nat) : MemOk (freeCell s ix) := by
  have h1 := (h.drainStores ix (s.cell ix).ops (s.cell ix).ops).leaveRing ix
  unfold Machine.freeCell
  dsimp only
  split <;> exact h1

theorem freeCells (h : MemOk s) (l : List Nat) : MemOk (freeCells s l) := by
  induction l generalizing s with
  | nil => exact h
  | cons ix l ih => exact ih (h.freeCell ix)

theorem dropStowed (h : MemOk s) (l : List Stowed) : MemOk (dropStowed s l) := by
  induction l generalizing s with
  | nil => exact h
  | cons x l ih => exact ih (h.drainStores x.cell x.ctx.ops x.ctx.ops)

theorem purgeDies (h : MemOk s) (w : Word) (T : Task) (n : Nat) : MemOk (purgeDies s w T n) := by
  induction n generalizing s with
  | zero => exact h
  | succ n ih => exact ih (h.dropStowed _)

theorem setTask (h : MemOk s) (w : Word) (T : Task) : MemOk (setTask s w T) := h

theorem endTask (h : MemOk s) (w : Word) (T : Task) (st : TaskState) : MemOk (endTask s w T st) := by
  unfold Machine.endTask
  exact ((h.freeCells _).purgeDies w T 8).setTask ..

theorem failAll (h : MemOk s) (n : Nat) (l : List (Word × Word)) : MemOk (failAll s n l) := by
  induction n generalizing s l with
  | zero => cases l <;> exact h
  | succ n ih =>
    cases l with
    | nil => exact h
    | cons x rest =>
      unfold Machine.failAll
      split
      · split
        · exact ih ((h.endTask ..).appendRecord ..) _
        · exact ih h _
      · exact ih h _

theorem failTask (h : MemOk s) (w : Word) : MemOk (failTask s w) := by
  unfold Machine.failTask
  split
  · split
    · exact h
    · exact (h.endTask ..).failAll ..
  · exact h

theorem killTask (h : MemOk s) (w : Word) (record : Bool) : MemOk (killTask s w record) := by
  unfold Machine.killTask
  split
  · split
    · exact h
    refine MemOk.failAll ?_ _ _
    split
    · exact (h.endTask ..).appendRecord ..
    · exact h.endTask ..
  · exact h

/-! Faults and the issue of words (R29, R191, R198, R199). -/

theorem commandTrap (h : MemOk s) (ix : Nat) (fc : BitVec 11) (v : Word) : MemOk (commandTrap s ix fc v) := by
  have h1 := h.leaveRing ix
  unfold Machine.commandTrap
  dsimp only
  split <;> exact h1

theorem stopWith (h : MemOk s) (ix : Nat) (x : FaultRecord) : MemOk (stopWith s ix x) := by
  have h1 := h.appendRecord (recordDie s ix) x
  unfold Machine.stopWith
  dsimp only
  split
  · exact h1
  split
  · exact h1
  · exact MemOk.freeCell (MemOk.failTask (by exact h1) _) _

theorem stopStrand (h : MemOk s) (ix : Nat) (e : BitVec 2) (code : FaultCode) (v off : Word) : MemOk (stopStrand s ix e code v off) := by
  unfold Machine.stopStrand
  dsimp only
  split
  · exact MemOk.stopWith (by exact h) ..
  · exact h

theorem takeFaultAt (h : MemOk s) (ix : Nat) (e : BitVec 2) (code : FaultCode) (v off : Word) : MemOk (takeFaultAt s ix e code v off) := by
  unfold Machine.takeFaultAt
  split
  · exact h.commandTrap ..
  · exact h.stopStrand ..

theorem takeFault (h : MemOk s) (ix : Nat) (e : BitVec 2) (code : FaultCode) (v : Word) : MemOk (takeFault s ix e code v) := h.takeFaultAt ..

theorem faultHere (h : MemOk s) (e : Engine) (code : FaultCode) (v : Word) : MemOk (faultHere s e code v) := h.takeFault ..

theorem holdWith (h : MemOk s) (ix : Nat) (x : FaultRecord) (k : Held) : MemOk (holdWith s ix x k) := by
  have h1 := h.appendRecord (recordDie s ix) x
  exact h1

theorem holdFault (h : MemOk s) (ix : Nat) (k : Held) (off : Word) : MemOk (holdFault s ix k off) := by
  unfold Machine.holdFault
  dsimp only
  split
  · exact MemOk.commandTrap (by exact h) ..
  split
  · exact MemOk.holdWith (by exact h) ..
  · exact h

theorem retireWord (h : MemOk s) (e : Engine) (n stall : Nat) (move : Bool) : MemOk (retireWord s e n stall move) := by
  unfold Machine.retireWord
  dsimp only
  split <;> exact h

end MemOk

/-- The states that the effect of an A word comes to. -/
def Res.MemOk : Res → Prop
  | .done t | .later t | .jump t | .stay _ t | .hold _ _ t | .trapWith t _ _ => Machine.MemOk t
  | .trap _ _ | .trapNext _ _ => True

/-- The states that the effect of a V or M word comes to. -/
def VRes.MemOk : VRes → Prop
  | .done t => Machine.MemOk t
  | .stay _ | .trap _ => True

/-- The states that the effect of a common word comes to. -/
def CRes.MemOk : CRes → Prop
  | .pass t | .jump t | .keep _ t => Machine.MemOk t
  | .stay _ | .illegal => True

theorem Res.MemOk.ite {c : Prop} [Decidable c] {a b : Res} (ha : a.MemOk) (hb : b.MemOk) : (if c then a else b).MemOk := by
  split <;> assumption

/-- The next state of an outcome. -/
structure OutOk (o : Out) : Prop where
  keeps : ∀ t, o = .next t → MemOk t

namespace OutOk
variable {s : State}

theorem ite {c : Prop} [Decidable c] {a b : Out} (ha : OutOk a) (hb : OutOk b) : OutOk (if c then a else b) := by split <;> assumption

theorem next (h : MemOk s) : OutOk (.next s) := ⟨fun t ht => by cases ht; exact h⟩

theorem mapNext {f : State → State} {o : Out} (ho : OutOk o) (hf : ∀ t, MemOk t → MemOk (f t)) : OutOk (mapNext f o) := by
  refine ⟨fun t ht => ?_⟩
  cases o with
  | next u => cases ht; exact hf u (ho.keeps u rfl)
  | fault r => cases ht
  | refused r => cases ht

end OutOk

namespace MemOk
variable {s : State}

theorem settle (h : MemOk s) (i : AInfo) {r : Res} (hr : r.MemOk) : MemOk (settle i s r) := by
  cases r with
  | done t => exact MemOk.retireWord (by exact hr) ..
  | later t => exact MemOk.retireWord (by exact hr) ..
  | jump t => exact MemOk.retireWord hr ..
  | stay w t => exact hr
  | trap code v => exact h.faultHere ..
  | trapNext code v =>
    dsimp only [Machine.settle]
    split
    · exact (h.retireWord ..).commandTrap ..
    · exact (h.retireWord ..).stopStrand ..
  | hold a w t => exact MemOk.holdFault (MemOk.retireWord (by exact hr) ..) ..
  | trapWith t code v => exact MemOk.faultHere hr ..

/-- An A word keeps the form where its effect does. -/
theorem aWord (h : MemOk s) (i : AInfo) {body : State → Res} (hb : (body s).MemOk) : OutOk (aWord i body s) := by
  refine .next ?_
  unfold aStep
  dsimp only
  split
  · exact h.faultHere ..
  split
  · exact h
  split
  · exact h
  split
  · exact h
  split
  · exact MemOk.retireWord (by exact h) ..
  split
  · exact h
  · exact h.settle i hb

/-- A V or M word keeps the form where its effect does. -/
theorem vStep (h : MemOk s) (e : Engine) (pg : BitVec 4) (n stall : Nat) (reads : List Nat) (dest : Nat) {body : State → VRes}
    (hb : (body s).MemOk) : MemOk (vStep e pg n stall reads dest body s) := by
  unfold Machine.vStep
  dsimp only
  split
  · exact h
  split
  · exact h
  split
  · exact MemOk.retireWord (by exact h) ..
  split
  · exact h
  split
  next hv => rw [hv] at hb; exact MemOk.retireWord (by exact hb) ..
  next => exact h
  next => exact h.faultHere ..

/-- A common word keeps the form where its effect does. -/
theorem commonWord (h : MemOk s) (reads : List Nat) {body : Engine → State → CRes} (hb : (body s.eng s).MemOk) :
    OutOk (commonWord reads body s) := by
  refine .next ?_
  unfold commonStep
  dsimp only
  split
  · exact h
  split
  · exact h
  split
  next hv => rw [hv] at hb; exact hb
  next hv => rw [hv] at hb; exact hb
  next => exact h
  next hv => rw [hv] at hb; exact hb
  next => exact h.faultHere ..

end MemOk
end Sys2Proof.Machine

namespace Sys2Proof.Machine
open Sys2Proof

/-! Memory keeps its canonical form: common words, scalar words and the die window (R54, R83, R174 to R188, R343, R352 to R355). -/

namespace MemOk
variable {s t : State}

/-- Steps taken one after another keep the form where each does. -/
theorem foldl {α : Type} (h : MemOk s) {f : State → α → State} (hf : ∀ u x, MemOk u → MemOk (f u x)) (l : List α) : MemOk (l.foldl f s) := by
  induction l generalizing s with
  | nil => exact h
  | cons x l ih => exact ih (hf s x h)

theorem execPtb (h : MemOk s) (i : BitVec 21) (b : BitVec 3) : OutOk (execPtb i b s) := by
  refine h.commonWord _ ?_
  dsimp only
  split
  · exact h
  · trivial

theorem execBr (h : MemOk s) (x n : BitVec 1) (e : BitVec 4) (b : BitVec 3) : OutOk (execBr x n e b s) := by
  refine h.commonWord _ ?_
  dsimp only
  split
  · exact h
  split
  · trivial
  · exact h

theorem execCall (h : MemOk s) (b : BitVec 3) : OutOk (execCall b s) := by
  refine h.commonWord _ ?_
  dsimp only
  split
  · trivial
  · exact h

theorem execRet (h : MemOk s) : OutOk (execRet s) := by
  refine h.commonWord _ ?_
  split
  · trivial
  · exact h

theorem execLoop (h : MemOk s) (l : BitVec 20) (v : BitVec 3) : OutOk (execLoop l v s) := by
  refine h.commonWord _ ?_
  dsimp only
  split
  · trivial
  split <;> exact h

theorem execLbrk (h : MemOk s) : OutOk (execLbrk s) := by
  refine h.commonWord _ ?_
  split
  · trivial
  · exact h

theorem meet (h : MemOk s) (p : Park) {done : State → State} (hd : ∀ t, MemOk t → MemOk (done t)) : MemOk (meet p done s) := by
  unfold Machine.meet
  dsimp only
  split
  · exact h
  split
  · exact hd _ h
  · exact h

theorem of_beginStow {ix : Nat} {why : StowCause} (h : MemOk s) (hb : beginStow s ix why = some t) : MemOk t := by
  unfold beginStow at hb
  split at hb
  · cases hb; exact h
  · cases hb

theorem execYield (h : MemOk s) : OutOk (execYield s) := by
  refine .next (h.meet _ fun t ht => ?_)
  split
  · exact ht
  split
  next hb => exact ht.of_beginStow hb
  next => exact ht

theorem execHalt (h : MemOk s) : OutOk (execHalt s) := .next (h.meet _ fun _ ht => ht.takeFaultAt ..)

theorem execLoopBackEdge (h : MemOk s) (c : CellId) (e : Engine) : OutOk (execLoopBackEdge c e s) := by
  unfold Machine.execLoopBackEdge
  dsimp only
  repeat' split
  all_goals exact .next h

theorem of_srWrite {ix r : Nat} {v : Word} (h : MemOk s) (hw : srWrite s ix r v = some t) : MemOk t := by
  unfold srWrite at hw
  split at hw
  · cases hw
    unfold setAge
    split <;> exact h
  · cases hw

theorem srEvent (h : MemOk s) (c : CellId) (r : Nat) (v : Word) : OutOk (srEvent c r v s) := by
  unfold Machine.srEvent
  split
  next hw => exact .next (h.of_srWrite hw)
  next => exact .next h

theorem execMtsr (h : MemOk s) (p : BitVec 4) (r : BitVec 8) (x : BitVec 5) : OutOk (execMtsr p r x s) := by
  refine h.aWord _ ?_
  unfold srSend
  cases srCell s.cur s.cycle r.toNat (s.cur.readA x.toNat) 0 with
  | none => trivial
  | some c =>
    dsimp only
    split <;> exact h

theorem execMtb (h : MemOk s) (p : BitVec 4) (x : BitVec 5) (b : BitVec 3) : OutOk (execMtb p x b s) := by
  refine h.aWord _ ?_
  dsimp only
  split
  · exact h
  · trivial

theorem execLtrip (h : MemOk s) (p : BitVec 4) (x : BitVec 5) (l : BitVec 3) : OutOk (execLtrip p x l s) := by
  refine h.aWord _ ?_
  dsimp only
  split
  · trivial
  · exact h

theorem execQpop (h : MemOk s) (p q : BitVec 4) (d : BitVec 5) : OutOk (execQpop p q d s) := by
  refine h.aWord _ ?_
  split
  · exact h
  split
  · trivial
  · exact h

theorem execQpush (h : MemOk s) (p : BitVec 4) (x : BitVec 5) (q : BitVec 4) : OutOk (execQpush p x q s) := by
  refine h.aWord _ ?_
  dsimp only
  split <;> exact h

theorem execEret (h : MemOk s) (p : BitVec 4) : OutOk (execEret p s) := by
  refine h.aWord _ ?_
  split
  · trivial
  split <;> exact h

/-! The die window. -/

theorem startChange (h : MemOk s) : MemOk (startChange s) := by
  unfold Machine.startChange
  split <;> exact h

theorem setLocal (h : MemOk s) (die : Nat) (v : Word) : MemOk (setLocal s die v) := by
  unfold Machine.setLocal
  split <;> exact h

theorem setPtroot (h : MemOk s) (die : Nat) (v : Word) : MemOk (setPtroot s die v) := by
  unfold Machine.setPtroot
  split <;> exact h

theorem setRwin (h : MemOk s) (die : Nat) (v : Word) : MemOk (setRwin s die v) := by
  unfold Machine.setRwin
  split <;> exact h

theorem setBwin (h : MemOk s) (die : Nat) (v : Word) : MemOk (setBwin s die v) := by
  unfold Machine.setBwin
  split <;> exact h

theorem setPfdist (h : MemOk s) (die : Nat) (v : Word) : MemOk (setPfdist s die v) := by
  unfold Machine.setPfdist
  split <;> exact h

theorem setFqbase (h : MemOk s) (die : Nat) (v : Word) : MemOk (setFqbase s die v) := by
  unfold Machine.setFqbase
  split
  · exact MemOk.flushRecords (by exact h) ..
  · exact h

theorem setLrbase (h : MemOk s) (die : Nat) (v : Word) : MemOk (setLrbase s die v) := by
  unfold Machine.setLrbase
  split <;> exact h

theorem setLrm (h : MemOk s) (die : Nat) (v : Word) : MemOk (setLrm s die v) := by
  unfold Machine.setLrm
  split <;> exact h

theorem setSlot (h : MemOk s) (die ix : Nat) (v : Word) : MemOk (setSlot s die ix v) := by
  unfold Machine.setSlot
  dsimp only
  split <;> exact h

theorem setListen (h : MemOk s) (die : Nat) (v : Word) : MemOk (setListen s die v) := by
  unfold Machine.setListen
  dsimp only
  split
  · split
    · exact h
    · exact MemOk.startChange (by exact h)
  · exact h

theorem setKeyWord (h : MemOk s) (die ix word : Nat) (v : Word) : MemOk (setKeyWord s die ix word v) := by
  unfold Machine.setKeyWord
  dsimp only
  split <;> exact h

theorem keyGone (h : MemOk s) : MemOk (keyGone s) := by
  unfold Machine.keyGone
  split <;> exact h

theorem armKey (h : MemOk s) (die ix : Nat) (v : Word) : MemOk (armKey s die ix v) := by
  unfold Machine.armKey
  dsimp only
  split
  · exact h
  split
  · exact h
  · exact MemOk.keyGone (by exact h)

theorem disarmKey (h : MemOk s) (die ix : Nat) (v : Word) : MemOk (disarmKey s die ix v) := MemOk.keyGone (by exact h)

theorem setKeyControl (h : MemOk s) (die ix : Nat) (v : Word) : MemOk (setKeyControl s die ix v) := by
  unfold Machine.setKeyControl
  split
  · exact h.disarmKey ..
  · exact h.armKey ..

theorem setRequest (h : MemOk s) (die index : Nat) (v : Word) : MemOk (setRequest s die index v) := by
  unfold Machine.setRequest
  split
  · exact h
  split <;> exact h

theorem windowStore (h : MemOk s) (die off : Nat) (v : Word) : MemOk (windowStore s die off v) := by
  unfold Machine.windowStore
  dsimp only
  split
  · exact h
  split
  · split
    · exact h.setLocal ..
    · exact h.setPtroot ..
    · exact h.setRwin ..
    · exact h.setBwin ..
    · exact h.setPfdist ..
    · exact h.setFqbase ..
    · exact h.setLrbase ..
    · exact h.setLrm ..
  split
  · exact h.setSlot ..
  split
  · exact h.setListen ..
  split
  · split
    · exact h.setKeyControl ..
    · exact h.setKeyWord ..
    · exact h.setKeyWord ..
    · exact h.setKeyWord ..
    · exact h.setKeyWord ..
    · exact h
  split
  · exact h.setRequest ..
  · exact h

/-! Accesses as they leave the cell, and stow images (R204, R216, R284, R285). -/

theorem addOp (h : MemOk s) (word : Nat) (q : Part) (site : Option Site) (send : Bool) : MemOk (addOp s word q site send) := by
  unfold Machine.addOp
  dsimp only
  split <;> exact h

theorem issueParts (h : MemOk s) (word : Nat) (win : Bool) (missed : Option Word) (parts : List Part) :
    MemOk (issueParts word win s missed parts).1 := by
  induction parts generalizing s missed with
  | nil => cases missed <;> exact h
  | cons q qs ih =>
    cases missed with
    | some a => exact ih (h.addOp ..) _
    | none =>
      unfold Machine.issueParts
      split
      · exact ih (MemOk.addOp (by exact h) ..) _
      · exact ih (h.addOp ..) _

theorem issueAccess (h : MemOk s) (win : Bool) (parts : List Part) {done : State → State} (hd : ∀ t, MemOk t → MemOk (done t)) :
    (issueAccess s win parts done).MemOk := by
  have hp : MemOk (Machine.issueParts s.nextId win { s with nextId := s.nextId + 1 } none parts).1 := MemOk.issueParts (by exact h) ..
  unfold Machine.issueAccess
  split
  · trivial
  split
  · exact h
  split
  · trivial
  dsimp only [State.fresh]
  split
  next ht => rw [ht] at hp; exact hd _ hp
  next ht => rw [ht] at hp; exact hd _ hp

theorem loadBody (h : MemOk s) (kind : OpKind) (n : Nat) (w : Word) (mark : Cell → Cell) : (loadBody kind n w mark s).MemOk := by
  unfold Machine.loadBody
  split
  · trivial
  split
  · exact h
  · exact h.issueAccess _ _ fun _ ht => ht

theorem storeBody (h : MemOk s) (data : List Byte) (n : Nat) (w : Word) : (storeBody data n w s).MemOk := by
  unfold Machine.storeBody
  split
  · trivial
  split
  · exact h
  · exact h.issueAccess _ _ fun _ ht => ht

theorem execKst (h : MemOk s) (p : BitVec 4) (x : BitVec 5) (k : BitVec 4) : OutOk (execKst p x k s) := by
  refine h.aWord _ ?_
  dsimp only
  split
  · trivial
  · exact h.storeBody ..

theorem atomWord (h : MemOk s) (op : RmwOp) (p : BitVec 4) (n : Nat) (x y d : BitVec 5) : OutOk (atomWord op p n x y d s) := by
  refine h.aWord _ ?_
  dsimp only
  split
  · trivial
  split
  · exact h
  · exact h.issueAccess _ _ fun _ ht => ht

theorem writeParts (h : MemOk s) (ht : Heat) (base : Word) (ps : List Part8) : MemOk (writeParts s ht base ps) := by
  induction ps generalizing s with
  | nil => exact h
  | cons p ps ih => exact ih (h.putVaultMany ..)

theorem writeSlot (h : MemOk s) (die : Nat) (x : Stowed) (ps : List Part8) : MemOk (writeSlot s die x ps) := by
  unfold Machine.writeSlot
  split
  · exact h.writeParts ..
  · exact h

theorem modStowed (h : MemOk s) (die : Nat) (pick : Stowed → Bool) (f : Stowed → Stowed) : MemOk (modStowed s die pick f) :=
  MemOk.foldl (by exact h) (fun _ _ hu => hu.writeSlot ..) _

theorem fillBody (h : MemOk s) (q size : Nat) (mk : Nat → List Part) (pieces : List Nat) {done : State → State}
    (hd : ∀ t, MemOk t → MemOk (done t)) : (fillBody q size mk pieces done s).MemOk := by
  unfold Machine.fillBody
  dsimp only
  split
  · trivial
  split
  · exact h
  · exact MemOk.issueAccess (by exact h) _ _ fun t ht => hd _ ht

theorem execLdq (h : MemOk s) (p : BitVec 4) (i : BitVec 7) (z : BitVec 3) (x : BitVec 5) (q : BitVec 4) : OutOk (execLdq p i z x q s) := by
  refine h.aWord _ ?_
  dsimp only
  split
  · trivial
  · exact h.fillBody _ _ _ _ fun _ ht => ht

theorem execStq (h : MemOk s) (p : BitVec 4) (i : BitVec 7) (z : BitVec 3) (x : BitVec 5) (q : BitVec 4) : OutOk (execStq p i z x q s) := by
  refine h.aWord _ ?_
  dsimp only
  split
  · trivial
  split
  · exact h
  split
  · trivial
  · exact h.issueAccess _ _ fun _ ht => ht

theorem streamWord (h : MemOk s) (p : BitVec 4) (n : BitVec 3) (aregs : List Nat) (f : Cell → Stream → Option Stream) :
    OutOk (streamWord p n aregs f s) := by
  refine h.aWord _ ?_
  split
  · exact h
  · trivial

theorem sgoLinear (h : MemOk s) (n q size : Nat) (x : Stream) : (sgoLinear n q size x s).MemOk := by
  unfold Machine.sgoLinear
  dsimp only
  split
  · trivial
  split
  · trivial
  split
  · exact h
  have hr (m size : Nat) (mk : Nat → List Part) (ps : List Nat) (y : Stream) (k : Nat) :
      (Machine.fillBody m size mk ps (sgoDone n y k) s).MemOk := h.fillBody _ _ _ _ fun _ ht => ht
  split
  next a w t hb =>
    have ht : (Res.hold a w t).MemOk := by rw [← hb]; exact hr _ _ _ _ _ _
    exact ht
  next => exact hr _ _ _ _ _ _

theorem sgoUnfold (h : MemOk s) (n q size : Nat) (x : Stream) : (sgoUnfold n q size x s).MemOk := by
  unfold Machine.sgoUnfold
  dsimp only
  split
  · trivial
  split
  · trivial
  · exact h.fillBody _ _ _ _ fun _ ht => ht

theorem execSgo (h : MemOk s) (p : BitVec 4) (z n : BitVec 3) (q : BitVec 4) : OutOk (execSgo p z n q s) := by
  refine h.aWord _ ?_
  dsimp only
  split
  · exact h
  split
  · exact h.sgoUnfold ..
  · exact h.sgoLinear ..

theorem execPageAheadFill (h : MemOk s) (c : CellId) (n : BitVec 3) : OutOk (execPageAheadFill c n s) := by
  unfold Machine.execPageAheadFill
  dsimp only
  repeat' split
  all_goals exact .next h

theorem gathWord (h : MemOk s) (p j : BitVec 4) (x : BitVec 5) (q : BitVec 4) (n size : Nat) : OutOk (gathWord p j x q n size s) := by
  refine h.aWord _ ?_
  dsimp only
  split
  · trivial
  split
  · exact h
  split
  · trivial
  split
  · trivial
  split
  · exact h
  · exact MemOk.fillBody (by exact h) _ _ _ _ fun _ ht => ht

theorem scatWord (h : MemOk s) (p j : BitVec 4) (x : BitVec 5) (q : BitVec 4) (n size : Nat) (need : Need) (kind : List Byte → Nat → OpKind) :
    OutOk (scatWord p j x q n size need kind s) := by
  refine h.aWord _ ?_
  dsimp only
  split
  · trivial
  split
  · exact h
  · exact h
  split
  · trivial
  split
  · trivial
  · exact h.issueAccess _ _ fun _ ht => ht

end MemOk
end Sys2Proof.Machine

namespace Sys2Proof.Machine
open Sys2Proof

/-! Memory keeps its canonical form: accesses at their homes, dispositions and fences (R197, R231, R256, R307, R311). -/

namespace MemOk
variable {s t : State}

theorem onStrand (h : MemOk s) (ix id : Nat) (f : Cell → Cell) : MemOk (onStrand s ix id f) := by
  unfold Machine.onStrand
  split
  · exact h
  · exact h.modStowed ..

theorem onOp (h : MemOk s) (ix id : Nat) (f : MemOp → MemOp) : MemOk (onOp s ix id f) := h.onStrand ..

theorem of_readHome {o : MemOp} {p : Site} {bs : List Byte} (h : MemOk s) (hr : readHome s o p = .ok (bs, t)) : MemOk t := by
  unfold readHome at hr
  split at hr
  · cases hr; exact h
  split at hr
  · cases hr
  · cases hr; exact h.noteEcc ..

theorem countFill (h : MemOk s) (ix : Nat) (c : Cell) (o : MemOp) : MemOk (countFill s ix c o) := by
  unfold Machine.countFill
  repeat' split
  all_goals exact h

theorem noteMiss (h : MemOk s) (ix : Nat) (o : MemOp) : MemOk (noteMiss s ix o) := by
  unfold Machine.noteMiss
  split
  · exact h.onStrand ..
  · exact h

theorem takeReply (h : MemOk s) (ix : Nat) (o : MemOp) (r : Reply) : MemOk (takeReply s ix o r) := by
  unfold Machine.takeReply
  dsimp only
  split
  · exact (h.onStrand ..).countFill ..
  · exact h.onStrand ..

theorem sendReply (h : MemOk s) (ix : Nat) (o : MemOp) (r : Reply) (b : Bool) : MemOk (sendReply s ix o r b) := by
  have h1 := h.onOp ix o.id
  unfold Machine.sendReply
  exact h1 _

theorem answerOp (h : MemOk s) (ix : Nat) (o : MemOp) (r : Reply) : MemOk (answerOp s ix o r) := by
  unfold Machine.answerOp
  split
  · exact h.takeReply ..
  · exact h.sendReply ..

theorem comeBack (h : MemOk s) (ix : Nat) (o : MemOp) (r : Reply) : MemOk (comeBack s ix o r) := by
  have h1 := h.onOp ix o.id
  unfold Machine.comeBack
  dsimp only
  split
  · split
    · exact h
    split
    · exact h.sendReply ..
    split
    · exact h
    · exact h1 _
  split
  · exact h
  · exact h.takeReply ..

theorem travel (h : MemOk s) (ix : Nat) (c : Cell) (o : MemOp) : MemOk (travel s ix c o) := by
  have h1 := h.onOp ix o.id
  unfold Machine.travel
  dsimp only
  split
  · exact h
  split
  · exact h.sendReply ..
  split
  · split
    · exact h.sendReply ..
    split
    · exact h1 _
    · exact h
  split
  · exact h1 _
  · exact h

theorem performRead (h : MemOk s) (ix id : Nat) : MemOk (performRead s ix id) := by
  unfold Machine.performRead
  dsimp only
  split
  · exact h
  split
  · exact h.comeBack ..
  split
  · exact h.travel ..
  split
  · exact h
  split
  · exact h.noteMiss ..
  · exact h.answerOp ..
  · split
    · exact h
    · exact h.answerOp ..
  · exact h
  split
  · split
    · exact h
    · exact h.answerOp ..
  next hr =>
    have ht := h.of_readHome hr
    exact MemOk.answerOp (by exact ht) ..

theorem execLoadDataReturn (h : MemOk s) (c : CellId) (id : Nat) : OutOk (execLoadDataReturn c id s) := by
  refine .next ?_
  split
  · exact h.performRead ..
  · exact h

theorem of_writeHome {ix v : Nat} {o : MemOp} {p : Site} (h : MemOk s) (hw : writeHome s ix o p = .ok (v, t)) : MemOk t := by
  unfold writeHome at hw
  split at hw
  · split at hw <;> cases hw
    · exact h.windowStore ..
    · exact h
  split at hw
  · cases hw
  next hp =>
    have ht := h.of_performStore hp
    cases hw
    exact ht

theorem of_performWrite {ix v : Nat} {c : Cell} {o : MemOp} (h : MemOk s) (hw : performWrite s ix c o = .ok (v, t)) : MemOk t := by
  unfold performWrite at hw
  split at hw
  · cases hw
  · split at hw
    · cases hw
    next hp => cases hw; exact h.of_writeHome hp
  · cases hw

theorem refusePart (h : MemOk s) (ix : Nat) (c : Cell) (o : MemOp) : MemOk (refusePart s ix c o) := by
  refine h.foldl (fun u x hu => ?_) _
  split <;> exact hu.answerOp ..

theorem acceptPart (h : MemOk s) (ix : Nat) (c : Cell) (o : MemOp) : MemOk (acceptPart s ix c o) := by
  unfold Machine.acceptPart
  split
  · exact h
  refine h.foldl (fun u x hu => ?_) _
  split
  · exact hu.onOp ..
  · exact hu.answerOp ..
  · exact hu.answerOp ..
  · exact hu

theorem storeStep (h : MemOk s) (ix : Nat) (c : Cell) (o : MemOp) : MemOk (storeStep s ix c o) := by
  have ha := h.acceptPart ix c o
  unfold Machine.storeStep
  split
  · exact h.comeBack ..
  split
  · exact h.travel ..
  split
  · exact h
  split
  · exact h.answerOp ..
  split
  · exact h.foldl (fun u x hu => hu.noteMiss ..) _
  · exact h.refusePart ..
  dsimp only
  split
  · exact ha
  split
  · exact ha
  split
  · exact ha
  split
  · exact ha
  · exact ha.answerOp ..
  next hw => exact (ha.of_performWrite hw).answerOp ..

theorem rmwStep (h : MemOk s) (ix : Nat) (c : Cell) (o : MemOp) : MemOk (rmwStep s ix c o) := by
  unfold Machine.rmwStep
  split
  · exact h.comeBack ..
  split
  · exact h.travel ..
  split
  · exact h
  split
  · exact h.noteMiss ..
  · exact h.answerOp ..
  next hw => exact (h.of_performWrite hw).answerOp ..

/-! Dispositions (R256). -/

theorem resumeOps (h : MemOk s) (ix : Nat) (n : Option Nat) (l : List MemOp) : MemOk (resumeOps s ix n l).1 := by
  induction l generalizing s with
  | nil => exact h
  | cons o os ih =>
    unfold Machine.resumeOps
    split
    · exact ih h
    split
    · exact ih (by exact h)
    split
    · exact h
    · exact h
    · exact h
    · exact ih (by exact h)

theorem convertHeld (h : MemOk s) (ix : Nat) (k : Held) (code : FaultCode) (v : Word) : MemOk (convertHeld s ix k code v) :=
  MemOk.takeFault (s := s.modCell ix fun c => c.abandonHeld k) h ix 0 code v

theorem resumeHeld (h : MemOk s) (ix : Nat) (k : Held) : MemOk (resumeHeld s ix k) := by
  have h1 := MemOk.resumeOps (s := s.modCell ix fun c => { c with fault := none }) h ix (k.stream.map (·.1)) ((s.cell ix).heldOps ix)
  unfold Machine.resumeHeld
  dsimp only
  split
  next ht => rw [ht] at h1; exact h1
  next ht => rw [ht] at h1; exact h1.holdFault ..
  next ht => rw [ht] at h1; exact h1.convertHeld ..

theorem retryHeld (h : MemOk s) (ix : Nat) : MemOk (retryHeld s ix) := by
  unfold Machine.retryHeld
  split
  · exact h.resumeHeld ..
  · exact h

theorem dispositionResume (h : MemOk s) (die : Nat) (r : FaultRecord) : MemOk (dispositionResume s die r) := by
  unfold Machine.dispositionResume
  split
  · exact h.retryHeld ..
  · exact h.modStowed ..
  · exact h

theorem dispositionConvert (h : MemOk s) (die : Nat) (r : FaultRecord) : MemOk (dispositionConvert s die r) := by
  unfold Machine.dispositionConvert
  split
  · split
    · exact h.convertHeld ..
    · exact h
  · exact modDie (h.modStowed ..) ..
  · exact h

theorem dispositionRestore (h : MemOk s) (die : Nat) (r : FaultRecord) : MemOk (dispositionRestore s die r) := by
  unfold Machine.dispositionRestore
  repeat' split
  all_goals exact h

theorem dispositionFail (h : MemOk s) (die : Nat) (r : FaultRecord) : MemOk (dispositionFail s die r) := by
  unfold Machine.dispositionFail
  dsimp only
  split
  · exact h.failTask ..
  · exact h

theorem disposition (h : MemOk s) (die i v : Nat) : MemOk (disposition s die i v) := by
  unfold Machine.disposition
  split
  · exact h
  split
  · exact h
  split
  · exact h.dispositionResume ..
  split
  · exact h.dispositionConvert ..
  split
  · exact h.dispositionRestore ..
  split
  · exact h.dispositionFail ..
  · exact h

theorem applyHits (h : MemOk s) (die base : Nat) (l : List Nat) : MemOk (applyHits s die base l) := by
  induction l generalizing s with
  | nil => exact h
  | cons i is ih => exact ih (h.disposition ..)

theorem afterFqStore (h : MemOk s) (ix : Nat) (o : MemOp) : MemOk (afterFqStore s ix o) := by
  unfold Machine.afterFqStore
  dsimp only
  split
  · exact h
  refine MemOk.applyHits ?_ _ _ _
  split
  · exact h.flushRecords ..
  · exact h

theorem execStorePerformed (h : MemOk s) (c : CellId) (id : Nat) : OutOk (execStorePerformed c id s) := by
  unfold Machine.execStorePerformed
  dsimp only
  split
  · exact .next h
  refine .next ?_
  split
  · exact (h.storeStep ..).afterFqStore ..
  · exact h.storeStep ..

theorem execReissueRefused (h : MemOk s) (c : CellId) (id : Nat) : OutOk (execReissueRefused c id s) := by
  unfold Machine.execReissueRefused
  dsimp only
  split
  · exact .next h
  split
  · exact .next h
  split
  · split
    · refine .next ?_
      split <;> exact h
    · exact .next h
  split
  · split
    · exact .next h
    · exact .next (h.holdFault ..)
  · exact .next h
  · exact .next h
  · exact .next h
  split <;> exact .next h

theorem execStoppingFault (h : MemOk s) (c : CellId) (e : BitVec 2) (code : FaultCode) (v : Word) : OutOk (execStoppingFault c e code v s) := by
  refine .next ?_
  split
  · exact h.takeFault ..
  · exact h

theorem takeReport (h : MemOk s) (ix : Nat) : MemOk (takeReport s ix) := by
  unfold Machine.takeReport
  split
  · exact h
  · exact MemOk.takeFault (by exact h) ..

theorem execDeferredFaultTaken (h : MemOk s) (c : CellId) : OutOk (execDeferredFaultTaken c s) := by
  refine .next ?_
  split
  · exact h.takeReport ..
  · exact h

theorem execFaultQueueHeadWrite (h : MemOk s) (d : DieId) (head : Word) : OutOk (execFaultQueueHeadWrite d head s) := by
  unfold Machine.execFaultQueueHeadWrite
  dsimp only
  split
  · exact .next ((h.putRegion ..).flushRecords ..)
  · exact .next h

theorem writeDisposition (h : MemOk s) (die i v : Nat) : MemOk (writeDisposition s die i v) := by
  unfold Machine.writeDisposition
  split
  · exact h
  · exact (h.putRegion ..).disposition ..

theorem execSlipdead (h : MemOk s) (c : CellId) : OutOk (execSlipdead c s) := by
  unfold Machine.execSlipdead
  dsimp only
  split
  · exact .next h
  · exact .next (MemOk.takeFault (by exact h) ..)

theorem execTextFetch (h : MemOk s) (c : CellId) (e : Engine) (g : Word) : OutOk (execTextFetch c e g s) := by
  unfold Machine.execTextFetch
  dsimp only
  split
  · exact .next h
  split
  · exact .next (h.takeFault ..)
  next hf => exact .next (h.of_mem (Counts.of_fetchGranule hf).mem)

/-! Fences (R310 to R312, R316). -/

theorem of_releaseUnder {b : Bool} {ix scope : Nat} {covers : MemOp → Bool} (h : MemOk s) {v : Word}
    (hr : releaseUnder b s ix scope covers = .done t ∨ releaseUnder b s ix scope covers = .severed t v) : MemOk t := by
  unfold releaseUnder at hr
  split at hr
  · rcases hr with hr | hr <;> cases hr
  · rcases hr with hr | hr <;> cases hr
    exact h
  · dsimp only at hr
    split at hr
    all_goals
      rcases hr with hr | hr <;> cases hr
      exact h

theorem release (h : MemOk s) (scope : Nat) {go : State → Res} (hg : ∀ t, MemOk t → (go t).MemOk) : (release s scope go).MemOk := by
  unfold Machine.release
  split
  · exact h
  next t p hr => exact h.of_releaseUnder (.inr hr)
  next t hr => exact hg t (h.of_releaseUnder (v := 0) (.inl hr))

theorem acquireReads (h : MemOk s) {go : State → Res} (hg : ∀ t, MemOk t → (go t).MemOk) : (acquireReads s go).MemOk := by
  unfold Machine.acquireReads
  split
  · exact h
  next t p hr => exact h.of_releaseUnder (.inr hr)
  next t hr => exact hg t (h.of_releaseUnder (v := 0) (.inl hr))

theorem acquireSeen (h : MemOk s) (scope : Nat) : MemOk (acquireSeen s scope) := by
  unfold Machine.acquireSeen
  split <;> exact h

theorem joinOrder (h : MemOk s) (scope : Nat) : MemOk (joinOrder s scope) := by
  unfold Machine.joinOrder
  split <;> exact h

theorem execFenceRel (h : MemOk s) (p : BitVec 4) (c : BitVec 3) : OutOk (execFenceRel p c s) := h.aWord _ (h.release _ fun _ ht => ht)

theorem execFenceAcq (h : MemOk s) (p : BitVec 4) (c : BitVec 3) : OutOk (execFenceAcq p c s) :=
  h.aWord _ (h.acquireReads fun _ ht => ht.acquireSeen _)

theorem execFenceSc (h : MemOk s) (p : BitVec 4) (c : BitVec 3) : OutOk (execFenceSc p c s) :=
  h.aWord _ (h.release _ fun _ ht => ht.acquireReads fun _ hu => (hu.acquireSeen _).joinOrder _)

end MemOk
end Sys2Proof.Machine

namespace Sys2Proof.Machine
open Sys2Proof

/-! Memory keeps its canonical form: the pool (R277 to R296), whose objects lie outside memory. -/

namespace MemOk
variable {s t : State}

theorem updateSectors (h : MemOk s) (pkg oid off : Nat) (gs : List (List Byte)) : MemOk (updateSectors pkg oid off s gs) := by
  induction gs generalizing s off with
  | nil => exact h
  | cons g gs ih =>
    refine ih ?_ _
    split <;> exact h

theorem fillSector (h : MemOk s) (pkg : Nat) (r : PoolReq) (sec : Nat) (x : List Byte × Nat × Nat) : MemOk (fillSector s pkg r sec x) := by
  unfold Machine.fillSector
  exact h.ite h

theorem settleSectors (h : MemOk s) (pkg : Nat) (r : PoolReq) (wts : Option Nat) (l : List Nat) : MemOk (settleSectors pkg r wts s l) := by
  induction l generalizing s with
  | nil => exact h
  | cons x l ih =>
    refine ih ?_
    split <;> exact h

theorem settleWrite (h : MemOk s) (r : PoolReq) (wts : Option Nat) : MemOk (settleWrite s r wts) := by
  unfold Machine.settleWrite
  split
  · exact h.settleSectors ..
  · exact h

theorem modReq (h : MemOk s) (id : Nat) (f : PoolReq → PoolReq) : MemOk (modReq s id f) := h

theorem dropReq (h : MemOk s) (id : Nat) : MemOk (dropReq s id) := h

theorem sendBack (h : MemOk s) (r : PoolReq) : MemOk (sendBack s r) := h

theorem liftPts (h : MemOk s) (pkg t : Nat) : MemOk (liftPts s pkg t) := h

theorem refuseReq (h : MemOk s) (id : Nat) (code : FaultCode) : MemOk (refuseReq s id code) := by
  unfold Machine.refuseReq
  split
  · exact h
  · exact ((h.modReq ..).settleWrite ..).sendBack ..

theorem nodeServe (h : MemOk s) (n : Nat) (r : PoolReq) : MemOk (nodeServe s n r).2 := by
  unfold Machine.nodeServe
  dsimp only
  repeat' split
  all_goals exact h

theorem execPoolRequest (h : MemOk s) (n : NodeId) (id : Nat) : OutOk (execPoolRequest n id s) := by
  unfold Machine.execPoolRequest
  dsimp only
  split
  · exact .next h
  split
  · exact .next h
  split
  · split
    · exact .next h
    split
    · exact .next (h.refuseReq ..)
    split <;> exact .next h
  split
  · exact .next h
  · exact .next ((h.nodeServe ..).modReq ..)

theorem addPoolOp (h : MemOk s) (word : Nat) (op : PoolOp) (cap : Cap) (o : Nat) (stage : ReqStage) : MemOk (addPoolOp s word op cap o stage).2 := by
  unfold Machine.addPoolOp
  dsimp only
  split <;> exact h

theorem capWord (h : MemOk s) (p : BitVec 4) (aregs : List Nat) (k : BitVec 4) (access : Bool) {body : Cap → State → Res}
    (hb : ∀ c, (body c s).MemOk) : OutOk (capWord p aregs k access body s) := by
  refine h.aWord _ ?_
  dsimp only
  split
  · trivial
  · exact hb _

theorem addReads (h : MemOk s) (word entry : Nat) (cap : Cap) (off : Nat) (ps : List (Nat × Nat)) : MemOk (addReads word entry cap off s ps) := by
  induction ps generalizing s with
  | nil => exact h
  | cons p ps ih => exact ih (h.addPoolOp ..)

theorem execPld (h : MemOk s) (p : BitVec 4) (z : BitVec 3) (q : BitVec 4) (x : BitVec 5) (k : BitVec 4) : OutOk (execPld p z q x k s) := by
  refine h.capWord _ _ _ _ fun c => ?_
  dsimp only
  split
  · trivial
  split
  · trivial
  split
  · exact h
  · exact MemOk.addReads (by exact h) ..

theorem addWrites (h : MemOk s) (word : Nat) (cap : Cap) (off : Nat) (bs : List Byte) (ps : List (Nat × Nat)) :
    MemOk (addWrites word cap off bs s ps) := by
  induction ps generalizing s with
  | nil => exact h
  | cons p ps ih => exact ih (h.addPoolOp ..)

theorem execPst (h : MemOk s) (p : BitVec 4) (z : BitVec 3) (q : BitVec 4) (x : BitVec 5) (k : BitVec 4) : OutOk (execPst p z q x k s) := by
  refine h.capWord _ _ _ _ fun c => ?_
  dsimp only
  split
  · trivial
  split
  · exact h
  split
  · trivial
  · exact .ite h (MemOk.addWrites (MemOk.updateSectors (by exact h) ..) ..)

theorem patWord (h : MemOk s) (op : RmwOp) (p : BitVec 4) (n : Nat) (d x : BitVec 5) (k : BitVec 4) : OutOk (patWord op p n d x k s) := by
  refine h.capWord _ _ _ _ fun c => ?_
  dsimp only
  split
  · trivial
  · exact MemOk.addPoolOp (s := { s with nextId := s.nextId + 1 }) h ..

theorem sendObject (h : MemOk s) (cap : Cap) (op : PoolOp) (hold : Bool) (mark : Cell → Cell) : MemOk (sendObject cap op hold mark s) :=
  MemOk.addPoolOp (s := { s with nextId := s.nextId + 1 }) h ..

theorem execPpush (h : MemOk s) (p : BitVec 4) (d : BitVec 5) (k : BitVec 4) : OutOk (execPpush p d k s) :=
  h.capWord _ _ _ _ fun _ => h.release _ fun _ ht => ht.sendObject ..

theorem execPgive (h : MemOk s) (p : BitVec 4) (d : BitVec 5) (k : BitVec 4) : OutOk (execPgive p d k s) :=
  h.capWord _ _ _ _ fun _ => h.release _ fun _ ht => ht.sendObject ..

theorem execPtake (h : MemOk s) (p : BitVec 4) (d : BitVec 5) (k : BitVec 4) : OutOk (execPtake p d k s) :=
  h.capWord _ _ _ _ fun _ => h.sendObject ..

theorem execPpop (h : MemOk s) (p : BitVec 4) (d : BitVec 5) (k : BitVec 4) : OutOk (execPpop p d k s) := by
  refine h.aWord _ ?_
  dsimp only
  split
  · trivial
  · exact h.sendObject ..

theorem execWlacq (h : MemOk s) (p : BitVec 4) (d : BitVec 5) (k : BitVec 4) : OutOk (execWlacq p d k s) :=
  h.capWord _ _ _ _ fun _ => h.sendObject ..

theorem execWlrenew (h : MemOk s) (p : BitVec 4) (d : BitVec 5) (k : BitVec 4) : OutOk (execWlrenew p d k s) :=
  h.capWord _ _ _ _ fun _ => h.sendObject ..

theorem execWlrel (h : MemOk s) (p : BitVec 4) (d : BitVec 5) (k : BitVec 4) : OutOk (execWlrel p d k s) :=
  h.capWord _ _ _ _ fun _ => h.release _ fun _ ht => ht.sendObject ..

theorem execWlchk (h : MemOk s) (p : BitVec 4) (d x : BitVec 5) (k : BitVec 4) : OutOk (execWlchk p d x k s) :=
  h.capWord _ _ _ _ fun _ => h.sendObject ..

theorem execKinf (h : MemOk s) (p : BitVec 4) (d x : BitVec 5) (k : BitVec 4) : OutOk (execKinf p d x k s) := by
  refine h.aWord _ ?_
  dsimp only
  split
  · exact h
  split
  · trivial
  split
  · exact MemOk.addPoolOp (s := { s with nextId := s.nextId + 1 }) h ..
  split
  · split <;> exact h
  · exact h

theorem arriveBack (h : MemOk s) (r : PoolReq) : MemOk (arriveBack s r) := (h.liftPts ..).sendBack ..

theorem receive (h : MemOk s) (ix : Nat) (r : PoolReq) : MemOk (receive s ix r) := ((h.onStrand ..).liftPts ..).dropReq ..

theorem execRmwResponse (h : MemOk s) (c : CellId) (id : Nat) : OutOk (execRmwResponse c id s) := by
  unfold Machine.execRmwResponse
  dsimp only
  split
  · exact .next h
  split
  · exact .next (h.rmwStep ..)
  · split
    · split
      · exact .next (h.arriveBack ..)
      split
      · exact .next (h.receive ..)
      · exact .next h
    · exact .next h
  · exact .next h

theorem execVetoRelease (h : MemOk s) (n : NodeId) (id : Nat) : OutOk (execVetoRelease n id s) := by
  unfold Machine.execVetoRelease
  split
  · split
    · exact .next h
    split
    · exact .next ((h.arriveBack ..).modReq ..)
    split <;> exact .next h
  · exact .next h

theorem countN (h : MemOk s) (die k n : Nat) : MemOk (countN s die k n) := by
  induction n generalizing s with
  | zero => exact h
  | succ n ih => exact ih (by exact h)

theorem leavePort (h : MemOk s) (r : PoolReq) (x : ReqStage) : MemOk (leavePort s r x) := h

theorem lookRead (h : MemOk s) (r : PoolReq) : MemOk (lookRead s r) := by
  unfold Machine.lookRead
  dsimp only
  split
  · exact h
  split
  · exact (((h.countN ..).modReq ..).modReq ..).sendBack ..
  split
  · exact ((h.countN ..).modReq ..).refuseReq ..
  split
  · exact ((((h.countN ..).modReq ..).leavePort ..).countN ..).modReq ..
  · exact h

theorem dropLost (h : MemOk s) (ix id : Nat) : MemOk (dropLost s ix id) := by
  unfold Machine.dropLost
  split <;> exact h

theorem readStep (h : MemOk s) (ix : Nat) (r : PoolReq) : MemOk (readStep s ix r) := by
  unfold Machine.readStep
  split
  · exact h.lookRead ..
  split
  · split
    · exact h
    · exact (h.dropLost ..).dropReq ..
  · exact h

theorem execBlockFill (h : MemOk s) (c : CellId) (id : Nat) : OutOk (execBlockFill c id s) := by
  unfold Machine.execBlockFill
  dsimp only
  split
  · split
    · exact .next (h.performRead ..)
    refine .next ?_
    split
    · exact h.readStep ..
    · exact h
  · refine .next ?_
    split
    · exact h.performRead ..
    · exact h
  · refine .next ?_
    split
    · exact h.readStep ..
    · exact h
  · refine .next ?_
    split
    · exact h
    · exact h.dropLost ..

theorem execRenewalResponse (h : MemOk s) (p : PkgId) (id : Nat) : OutOk (execRenewalResponse p id s) := by
  unfold Machine.execRenewalResponse
  dsimp only
  split
  · exact .next h
  next r _ =>
    have hf (xs : List (List Byte × Nat × Nat)) :
        MemOk (((askedSectors r).zip xs).foldl (fun t x => Machine.fillSector t p.val r x.1 x.2) s) :=
      h.foldl (fun u x hu => hu.fillSector ..) _
    split
    · exact .next h
    split
    · refine .next ?_
      split
      · exact hf _
      · exact (hf _).sendBack ..
    · exact .next h
    · exact .next h
    · exact .next h

theorem execPoolWriteAck (h : MemOk s) (p : PkgId) (id : Nat) : OutOk (execPoolWriteAck p id s) := by
  unfold Machine.execPoolWriteAck
  split
  · exact .next h
  · exact .ite (.next h) (.ite (.next ((h.settleWrite ..).arriveBack ..)) (.ite (.next (h.receive ..)) (.next h)))

theorem execLeaseExpiry (h : MemOk s) (n : NodeId) (oid : BitVec 32) : OutOk (execLeaseExpiry n oid s) := by
  unfold Machine.execLeaseExpiry
  repeat' split
  all_goals exact .next h

/-! Memory keeps its canonical form: the fabric (R324 to R341) and the nodes' management (R281). -/

theorem execRingSlotArrival (h : MemOk s) (d : DieId) (id : Nat) : OutOk (execRingSlotArrival d id s) := by
  unfold Machine.execRingSlotArrival
  dsimp only
  repeat' split
  all_goals exact .next h

theorem countAt (h : MemOk s) (p : HoldPoint) (k : Nat) : MemOk (countAt s p k) := by
  unfold Machine.countAt
  split <;> exact h

theorem advance (h : MemOk s) (p : HoldPoint) (r : PoolReq) : MemOk (advance s p r) := by
  cases p <;> exact h

theorem forward (h : MemOk s) (p : HoldPoint) (r : PoolReq) : MemOk (forward s p r) := by
  unfold Machine.forward
  split
  · split
    · exact h.refuseReq ..
    split
    · exact (h.advance ..).countAt ..
    · exact h
  · exact (h.advance ..).countAt ..

theorem answerHere (h : MemOk s) (p : HoldPoint) (r : PoolReq) (v : Word) (t : Nat) : MemOk (answerHere s p r v t) := by
  cases p <;> exact h

theorem splice (h : MemOk s) (p : HoldPoint) (a b : PoolReq) : MemOk (splice s p a b) := by
  have h1 := h.countAt p 11
  unfold Machine.splice
  dsimp only
  split
  · exact (h1.answerHere ..).answerHere ..
  next n m got r _ _ =>
    have h2 : MemOk (if n ≤ m then Machine.answerHere (Machine.countAt s p 11) p a 0 0
        else Machine.modReq (Machine.countAt s p 11) a.id fun x =>
          { x with op := .give (n - (if n ≤ m then n else m)), stage := atStage p }) := by
      split
      · exact h1.answerHere ..
      · exact h1.modReq ..
    split
    · exact h2.answerHere ..
    · exact h2.modReq ..
  · exact h

theorem passBy (h : MemOk s) (p : HoldPoint) (r : PoolReq) : MemOk (passBy s p r) := by
  cases p <;> exact h

theorem execHoldArrival (h : MemOk s) (p : HoldPoint) (id : Nat) : OutOk (execHoldArrival p id s) := by
  unfold Machine.execHoldArrival
  dsimp only
  split
  · exact .next h
  split
  · exact .next h
  split
  · exact .next (h.passBy ..)
  split
  · refine .next ?_
    split <;> exact h.splice ..
  split
  · exact .next h
  split
  · exact .next h
  · exact .next (h.forward ..)

theorem execHoldWindowExpiry (h : MemOk s) (p : HoldPoint) (id : Nat) : OutOk (execHoldWindowExpiry p id s) := by
  unfold Machine.execHoldWindowExpiry
  split
  · exact .next h
  split
  · exact .next (h.forward ..)
  · exact .next h

theorem endHold (h : MemOk s) (p : HoldPoint) (r : PoolReq) : MemOk (endHold s p r) := by
  unfold Machine.endHold
  dsimp only
  split
  · exact (h.modReq ..).forward ..
  · exact h

theorem releaseHeld (h : MemOk s) (p : HoldPoint) (rs : List PoolReq) : MemOk (releaseHeld p s rs) := by
  induction rs generalizing s with
  | nil => exact h
  | cons r rs ih =>
    refine ih ?_
    split
    · exact h.endHold ..
    · exact h

theorem execTopologyAnnounce (h : MemOk s) (f : Fabric) : OutOk (execTopologyAnnounce f s) := by
  unfold Machine.execTopologyAnnounce
  split
  · exact .next h
  split
  · split <;> exact .next h
  · refine .next ?_
    split <;> exact h

theorem applyListen (h : MemOk s) (p i : Nat) : MemOk (applyListen s p i) := by
  unfold Machine.applyListen
  dsimp only
  split <;> exact h

theorem settleChange (h : MemOk s) : MemOk (settleChange s) := by
  unfold Machine.settleChange
  repeat' split
  all_goals exact h

theorem rekeyPort (h : MemOk s) (p i : Nat) : MemOk (rekeyPort s p i) := by
  unfold Machine.rekeyPort
  split <;> exact h

theorem releasePlane (h : MemOk s) (p i : Nat) : MemOk (releasePlane s p i) :=
  (h.releaseHeld ..).foldl (fun _ _ hu => hu.releaseHeld ..) _

theorem execTopologyAdopt (h : MemOk s) (f : Fabric) : OutOk (execTopologyAdopt f s) := by
  unfold Machine.execTopologyAdopt
  split
  · split
    · exact .next h
    · exact .next (((MemOk.rekeyPort (by exact h) ..).applyListen ..).releasePlane ..).settleChange
  · split
    · exact .next h
    · exact .next (MemOk.releaseHeld (by exact h) ..).settleChange

theorem refuseStaleOp (h : MemOk s) (p i id : Nat) : MemOk (refuseStaleOp s p i id) := by
  unfold Machine.refuseStaleOp
  split
  · exact h
  split
  · exact h
  dsimp only
  split
  · exact MemOk.sendReply (by exact h) ..
  · exact MemOk.onOp (by exact h) ..

theorem execStaleRefusal (h : MemOk s) (f : Fabric) (id : Nat) : OutOk (execStaleRefusal f id s) := by
  unfold Machine.execStaleRefusal
  split
  · split <;> exact .next h
  · exact .next (h.refuseStaleOp ..)
  · exact .next h
  · split
    · exact .next h
    refine .next ?_
    split
    · exact MemOk.refuseReq (by exact h) ..
    · exact h

theorem execRetuneComplete (h : MemOk s) (f : Fabric) (x : Fin 8) : OutOk (execRetuneComplete f x s) := by
  cases f <;> exact .next h

theorem modLink (h : MemOk s) (l : LinkRef) (f : Port → Port) : MemOk (modLink s l f) := by
  unfold Machine.modLink
  split <;> exact h

theorem execLaneFailure (h : MemOk s) (o : Peer) (l : Fin 41) (lane : Nat) : OutOk (execLaneFailure o l lane s) := by
  unfold Machine.execLaneFailure
  dsimp only
  split
  · exact .next h
  split
  · exact .next (h.modLink ..)
  · have h1 := h.modLink ⟨o, l⟩
    exact .next (MemOk.startChange (h1 _))

theorem execRetrainDone (h : MemOk s) (o : Peer) (l : Fin 41) : OutOk (execRetrainDone o l s) := by
  unfold Machine.execRetrainDone
  dsimp only
  split
  · exact .next h
  · exact .next (h.modLink ..)

theorem execSealedFrameReceive (h : MemOk s) (o : Peer) (l : Fin 41) (f : SealedFrame) : OutOk (execSealedFrameReceive o l f s) := by
  unfold Machine.execSealedFrameReceive
  dsimp only
  split
  · exact .next (h.modLink ..)
  refine .next ?_
  have h1 := h.modLink ⟨o, l⟩
  split <;> exact h1 _

theorem severReq (h : MemOk s) (r : PoolReq) : MemOk (severReq r s) := by
  unfold Machine.severReq
  exact h.ite ((h.refuseReq ..).ite (((h.modReq ..).onStrand ..).settleWrite ..))

theorem severReqs (h : MemOk s) (rs : List PoolReq) : MemOk (severReqs s rs) := h.foldl (fun _ _ hu => hu.severReq _) _

theorem execPackageSevered (h : MemOk s) (p : Peer) : OutOk (execPackageSevered p s) := by
  unfold Machine.execPackageSevered
  split
  next p =>
    split
    · exact .next h
    · have h1 := MemOk.severReqs (s := severPkg s p.val) h ((severPkg s p.val).reqs.filter (fun r => pkgOfCell r.cell == p.val))
      exact .next (MemOk.startChange (by exact h1)).settleChange
  · split
    · exact .next h
    · exact .next (MemOk.severReqs (by exact h) _).startChange.settleChange

theorem contribute (h : MemOk s) (id p : Nat) (bs : List Byte) (q : Nat) : MemOk (contribute s id p bs q) := by
  unfold Machine.contribute
  split <;> exact h

theorem execDomainReduction (h : MemOk s) (p : PkgId) (id : Nat) : OutOk (execDomainReduction p id s) := by
  unfold Machine.execDomainReduction
  dsimp only
  split
  · exact .next h
  · exact .next (MemOk.foldl (by exact h) (fun _ _ hu => hu.contribute ..) _)

theorem releaseWindow (h : MemOk s) (n oid : Nat) (rs : List PoolReq) : MemOk (releaseWindow n oid s rs) := by
  induction rs generalizing s with
  | nil => exact h
  | cons r rs ih =>
    exact ih ((h.endHold ..).ite h)

theorem execNodeManagementRequest (h : MemOk s) (n : NodeId) (r : NodeRequest) : OutOk (execNodeManagementRequest n r s) := by
  unfold Machine.execNodeManagementRequest
  split
  · split <;> exact .next h
  · exact .next h
  · split
    · exact .next h
    · exact .ite (.next (MemOk.releaseWindow (by exact h) ..)) (.next h)
  · exact .next h

theorem execPoolNodeRestart (h : MemOk s) (n : NodeId) : OutOk (execPoolNodeRestart n s) := by
  unfold Machine.execPoolNodeRestart
  dsimp only
  generalize hu : s.modNode n.val _ = u
  have h1 : MemOk (Machine.releaseHeld (.frontEnd n) u u.reqs) := MemOk.releaseHeld (by rw [← hu]; exact h) ..
  split
  · exact .next h1
  · exact .next (MemOk.startChange (by exact h1))

end MemOk
end Sys2Proof.Machine

namespace Sys2Proof.Machine
open Sys2Proof

/-! Memory keeps its canonical form: reads of words, copies (R298 to R304) and vaults (R264 to R276). -/

/-- The states that the reads of a word come to. -/
def Now.MemOk : Now → Prop
  | .ok _ t | .wait t => Machine.MemOk t
  | .fault _ _ | .miss _ => True

namespace MemOk
variable {s t : State}

theorem readFrom (h : MemOk s) (w : Word) (p : Site) (tlb : List TlbEntry) : (readFrom s w p tlb).MemOk := by
  unfold Machine.readFrom
  split
  · trivial
  · exact h.noteEcc w p

theorem readOne (h : MemOk s) (w : Word) : (readOne s w).MemOk := by
  unfold Machine.readOne
  dsimp only
  split
  · exact h
  split
  · split
    · trivial
    · trivial
    · exact h.readFrom ..
    · trivial
  split
  · split <;> exact h
  split
  · trivial
  · exact h.readFrom ..

theorem readNow (h : MemOk s) (w : Word) (n : Nat) : (readNow s w n).MemOk := by
  induction n generalizing s w with
  | zero => exact h
  | succ n ih =>
    have h1 := h.readOne w
    unfold Machine.readNow
    split
    · trivial
    split
    next bs t hr =>
      rw [hr] at h1
      have h2 := ih h1 (w + 16)
      split
      next hr2 => rw [hr2] at h2; exact h2
      next => exact h2
    next => exact h1

theorem withRead (h : MemOk s) (w : Word) (n : Nat) {go : List Byte → State → Res} (hg : ∀ bs t, MemOk t → (go bs t).MemOk) :
    (withRead s w n go).MemOk := by
  have h1 := h.readNow w n
  unfold Machine.withRead
  split
  next hr => rw [hr] at h1; exact hg _ _ h1
  next => exact h
  next => exact h.holdFault ..
  next hr => rw [hr] at h1; exact h1

theorem modCopy (h : MemOk s) (die id : Nat) (f : Copy → Copy) : MemOk (modCopy s die id f) := h

theorem failCopy (h : MemOk s) (die id : Nat) (e : FaultCode) : MemOk (failCopy s die id e) := h

theorem execCopyStart (h : MemOk s) (d : DieId) (cl : Fin 6) : OutOk (execCopyStart d cl s) := by
  unfold Machine.execCopyStart
  dsimp only
  split
  · exact .next h
  split
  · exact .next h
  · refine .next ?_
    split <;> exact h

theorem of_ladleRead {die : Nat} {w : Word} {bs : List Byte} (h : MemOk s) (hr : ladleRead s die w = .ok (bs, t)) : MemOk t :=
  h.of_mem (Counts.of_ladleRead hr).mem

theorem of_ladleWrite {die : Nat} {w : Word} {bs : List Byte} (h : MemOk s) (hr : ladleWrite s die w bs = .ok t) : MemOk t := by
  unfold ladleWrite at hr
  split at hr
  · cases hr
  split at hr
  · cases hr
  next hw => cases hr; exact (h.of_writeSite hw).of_mem rfl

theorem copyReq (h : MemOk s) (die : Nat) (k : Copy) (op : PoolOp) (cap : Cap) (o : Nat) : MemOk (copyReq s die k op cap o) := h

theorem referCopy (h : MemOk s) (die : Nat) (k : Copy) (w : Word) (need : Need) : MemOk (referCopy s die k w need) := by
  unfold Machine.referCopy
  split <;> exact h

theorem ladleTake (h : MemOk s) (die : Nat) (k : Copy) : MemOk (ladleTake s die k) := by
  unfold Machine.ladleTake
  dsimp only
  split
  · exact h.referCopy ..
  split
  · exact h
  next hr =>
    have ht := h.of_ladleRead hr
    exact ht

theorem ladleGive (h : MemOk s) (die : Nat) (k : Copy) (bs : List Byte) : MemOk (ladleGive s die k bs) := by
  unfold Machine.ladleGive
  dsimp only
  split
  · exact h.referCopy ..
  split
  · exact h
  next hw =>
    have ht := h.of_ladleWrite hw
    exact ht

theorem copyRead (h : MemOk s) (die : Nat) (k : Copy) : MemOk (copyRead s die k) := by
  unfold Machine.copyRead
  split
  · exact h.ladleTake ..
  split
  · exact h
  split
  · exact h.lookRead ..
  split <;> exact h

theorem copyPool (h : MemOk s) (die : Nat) (k : Copy) (bs : List Byte) : MemOk (copyPool s die k bs) := by
  unfold Machine.copyPool
  split
  · exact h
  split
  · exact h.arriveBack ..
  split
  · exact h
  split <;> exact h

theorem copyHost (h : MemOk s) (die : Nat) (k : Copy) (bs : List Byte) : MemOk (copyHost s die k bs) := by
  unfold Machine.copyHost
  dsimp only
  split <;> exact h

theorem copyWrite (h : MemOk s) (die : Nat) (k : Copy) (bs : List Byte) : MemOk (copyWrite s die k bs) := by
  unfold Machine.copyWrite
  exact (h.copyHost ..).ite ((h.copyPool ..).ite (h.ladleGive ..))

theorem execCopyGranuleWrite (h : MemOk s) (d : DieId) (id : Nat) : OutOk (execCopyGranuleWrite d id s) := by
  unfold Machine.execCopyGranuleWrite
  dsimp only
  split
  · exact .next h
  split
  · exact .next h
  split
  · exact .next (h.copyWrite ..)
  · exact .ite (.next (h.copyRead ..)) (.next h)

theorem execCopyComplete (h : MemOk s) (d : DieId) (id : Nat) : OutOk (execCopyComplete d id s) := by
  unfold Machine.execCopyComplete
  dsimp only
  split
  · exact .next h
  split
  · exact .next h
  split
  · exact .next h
  split
  · exact .next (MemOk.modStowed (by exact h) ..)
  · exact .next h

theorem execHpourStart (h : MemOk s) (d : DieId) (id : Nat) : OutOk (execHpourStart d id s) := by
  unfold Machine.execHpourStart
  dsimp only
  split
  · exact .next h
  refine .ite (.next h) (.ite (.next h) (.ite (.next h) (.ite (.next h) (.ite (.next h) (.ite (.next h) ?_)))))
  exact .ite (.next h) (.ite (.next h) (.ite (.next h) (.next h)))

theorem putPackets (h : MemOk s) (pkg src dst n : Nat) : MemOk (putPackets pkg src dst n s).2 := by
  induction n generalizing s with
  | zero => exact h
  | succ n ih =>
    unfold Machine.putPackets
    exact ih (by exact h)

theorem sendData (h : MemOk s) (die id src dst : Nat) (bs : List Byte) : MemOk (sendData s die id src dst bs) := by
  unfold Machine.sendData
  exact h.putPackets ..

theorem execHpourStaged (h : MemOk s) (d : DieId) (id : Nat) : OutOk (execHpourStaged d id s) := by
  unfold Machine.execHpourStaged
  dsimp only
  split
  · exact .next h
  refine .ite (.next h) (.ite (.ite (.next (h.ladleTake ..)) (.next (h.sendData ..))) (.ite (.next (h.sendData ..)) (.next h)))

theorem queueCopy (h : MemOk s) (host : Bool) (tag : Nat) (bs : List Byte) (src dst : Cap) : MemOk (queueCopy s host tag bs src dst) := h

theorem execPour (h : MemOk s) (p : BitVec 4) (g : BitVec 6) (x : BitVec 5) : OutOk (execPour p g x s) := by
  refine h.aWord _ ?_
  dsimp only
  split
  · trivial
  refine h.withRead _ _ fun bs t ht => ?_
  split
  · trivial
  split
  · exact ht
  split
  · trivial
  split
  · exact ht
  · exact ht.release _ fun u hu => hu

theorem execHpour (h : MemOk s) (p : BitVec 4) (g : BitVec 6) (x : BitVec 5) : OutOk (execHpour p g x s) := by
  refine h.aWord _ ?_
  dsimp only
  split
  · trivial
  refine h.withRead _ _ fun bs t ht => ?_
  split
  · trivial
  split
  · exact ht
  · exact ht.release _ fun u hu => hu

theorem acquireTag (h : MemOk s) (n : Nat) : MemOk (acquireTag s n) := by
  unfold Machine.acquireTag
  split
  · split <;> exact h
  · exact h

theorem acquireTags (h : MemOk s) (l : List Nat) : MemOk (acquireTags s l) := by
  induction l generalizing s with
  | nil => exact h
  | cons n l ih => exact ih (h.acquireTag n)

theorem execCtwany (h : MemOk s) (p : BitVec 4) (x d : BitVec 5) : OutOk (execCtwany p x d s) := by
  refine h.aWord _ ?_
  dsimp only
  split
  · exact h.acquireTag _
  split <;> exact h

theorem execCtwall (h : MemOk s) (p : BitVec 4) (x : BitVec 5) : OutOk (execCtwall p x s) := by
  refine h.aWord _ ?_
  dsimp only
  split
  · exact h
  · exact h.acquireTags _

theorem execCtffr (h : MemOk s) (p : BitVec 4) (x d : BitVec 5) : OutOk (execCtffr p x d s) := by
  refine h.aWord _ ?_
  split
  · exact h.acquireTag _
  · exact h

theorem execCtstat (h : MemOk s) (p : BitVec 4) (x d : BitVec 5) : OutOk (execCtstat p x d s) := by
  refine h.aWord _ ?_
  dsimp only
  split
  · trivial
  · exact h.acquireTag _

theorem execCtclr (h : MemOk s) (p : BitVec 4) (x : BitVec 5) : OutOk (execCtclr p x s) := h.aWord _ h

theorem execValloc (h : MemOk s) (p : BitVec 4) (g x d : BitVec 5) : OutOk (execValloc p g x d s) := by
  refine h.aWord _ ?_
  dsimp only
  split
  · trivial
  · exact h

theorem execVfree (h : MemOk s) (p : BitVec 4) (x : BitVec 5) : OutOk (execVfree p x s) := by
  refine h.aWord _ ?_
  dsimp only
  split
  · trivial
  split
  · trivial
  split <;> exact h

theorem invalDie (h : MemOk s) (die : Nat) (all : Bool) (off : Nat) : MemOk (invalDie s die all off) :=
  MemOk.modStowed (by exact h) ..

theorem execTlbinv (h : MemOk s) (p : BitVec 4) (x : BitVec 5) : OutOk (execTlbinv p x s) := by
  refine h.aWord _ ?_
  dsimp only
  split
  · trivial
  split
  · trivial
  · exact h.ite (h.invalDie ..)

theorem execPgprobe (h : MemOk s) (p : BitVec 4) (x d : BitVec 5) : OutOk (execPgprobe p x d s) := h.aWord _ h

theorem execQuenchSweep (h : MemOk s) (d : DieId) : OutOk (execQuenchSweep d s) := by
  unfold Machine.execQuenchSweep
  dsimp only
  exact .ite (.next h) (.ite (.next h) (.next h))

theorem execQuenchPassEnd (h : MemOk s) (d : DieId) : OutOk (execQuenchPassEnd d s) := .ite (.next h) (.next h)

end MemOk

/-! Memory keeps its canonical form: barriers (R370 to R374) and ring words (R376 to R379). -/

/-- The states that the look for a ring's record comes to. -/
def RingLook.MemOk : RingLook → Prop
  | .ok _ t => Machine.MemOk t
  | .refused | .full => True

namespace MemOk
variable {s t : State}

theorem wakeBarrier (h : MemOk s) (w : Word) (die : Option Nat) : MemOk (wakeBarrier s w die) :=
  MemOk.foldl (by exact h) (fun _ _ hu => hu.modStowed ..) _

theorem settleBarrier (h : MemOk s) (ix : Nat) (c : Cell) (n : Nat) (old new : Barrier) : MemOk (settleBarrier s ix c n old new) := by
  unfold Machine.settleBarrier
  dsimp only
  split
  · exact h
  split
  · exact h
  · exact MemOk.wakeBarrier (by exact h) ..

theorem withdrawFrom (h : MemOk s) (ix : Nat) (c : Cell) (die key : Nat) : MemOk (withdrawFrom s ix c die key) := by
  unfold Machine.withdrawFrom
  split
  · exact h
  · exact .ite h (h.settleBarrier ..)

theorem withdrawAll (h : MemOk s) (ix : Nat) (c : Cell) (die : Nat) (l : List Nat) : MemOk (withdrawAll s ix c die l) := by
  induction l generalizing s with
  | nil => exact h
  | cons k l ih => exact ih (h.withdrawFrom ..)

theorem withdrawStrand (h : MemOk s) (ix : Nat) : MemOk (withdrawStrand s ix) := (h.withdrawAll ..).withdrawAll ..

theorem passArrival (h : MemOk s) (e : Engine) (n reg : Nat) (sync : Bool) : MemOk (passArrival s e n reg sync) := by
  unfold Machine.passArrival
  exact .ite h h

theorem execBarArrive (h : MemOk s) (a : BitVec 5) (n : BitVec 7) : OutOk (execBarArrive a n s) := by
  refine h.commonWord _ ?_
  split
  · trivial
  · exact h.passArrival ..

theorem passWait (h : MemOk s) (e : Engine) (a : BitVec 5) (d : Nat) : (passWait s e a d).MemOk := by
  unfold Machine.passWait
  dsimp only
  split
  · split
    · trivial
    · exact h
  · split
    · trivial
    · exact h

theorem startWait (h : MemOk s) (n x : Nat) (sync : Bool) : MemOk (startWait s n x sync) := h

theorem execBarWait (h : MemOk s) (a : BitVec 5) (n : BitVec 7) : OutOk (execBarWait a n s) := by
  refine h.commonWord _ ?_
  split
  · split
    · trivial
    split
    · exact h.passWait ..
    · trivial
  split
  · trivial
  · exact h

theorem execBarSync (h : MemOk s) (a : BitVec 5) (n : BitVec 7) : OutOk (execBarSync a n s) := by
  refine h.commonWord _ ?_
  dsimp only
  split
  · split
    · trivial
    · exact h.passArrival ..
  split
  · trivial
  split
  · split
    · exact h.passWait ..
    · trivial
  · split
    · exact h.passWait ..
    · trivial

theorem countArrival (h : MemOk s) (ix : Nat) (c : Cell) (n : Nat) : MemOk (countArrival s ix c n) := h.settleBarrier ..

theorem execBarrierArrival (h : MemOk s) (c : CellId) (bar : BitVec 7) : OutOk (execBarrierArrival c bar s) := by
  unfold Machine.execBarrierArrival
  dsimp only
  split
  · exact .next h
  split
  · exact .next h
  split
  · exact .next h
  next hr => exact .next (MemOk.takeFault (h.of_releaseUnder (.inr hr)) ..)
  next hr =>
    have ht := h.of_releaseUnder (v := 0) (.inl hr)
    exact .next (MemOk.countArrival (by exact ht) ..)

theorem stowedArrival (h : MemOk s) (die mark : Nat) : MemOk (stowedArrival s die mark) := by
  unfold Machine.stowedArrival
  split
  · exact h
  split
  · exact h
  dsimp only
  split
  · exact h
  split
  · exact h
  · exact (h.modStowed ..).countArrival ..
  next o os _ =>
    split
    · exact MemOk.modStowed (by exact h.modStowed ..) ..
    · exact MemOk.countArrival (MemOk.modStowed (by exact h.modStowed ..) ..) ..

theorem of_loadRing {w : Word} {r : Ring} (h : MemOk s) (hr : loadRing s w = some (r, t)) : MemOk t := by
  unfold loadRing at hr
  split at hr
  · dsimp only at hr
    split at hr
    · rw [Option.map_eq_some_iff] at hr
      obtain ⟨q, -, hq⟩ := hr
      cases hq
      exact (h.noteEcc ..).noteEcc ..
    · cases hr
  · cases hr

theorem evictRing (h : MemOk s) (die key : Nat) : MemOk (evictRing s die key) := by
  unfold Machine.evictRing
  split
  · exact h
  dsimp only
  split
  · exact h
  split
  next hw => exact MemOk.of_writeSite (by exact h) hw
  next => exact h

theorem ringAt (h : MemOk s) (w : Word) : (ringAt s w).MemOk := by
  unfold Machine.ringAt
  dsimp only
  split
  · trivial
  split
  · exact h
  split
  · trivial
  next hr =>
    have ht := h.of_loadRing hr
    split
    · exact ht
    split
    · exact ht.evictRing ..
    · trivial

theorem ringWord (h : MemOk s) (p : BitVec 4) (aregs : List Nat) (x : BitVec 5) {body : Word → Ring → State → Res}
    (hb : ∀ w r t, MemOk t → (body w r t).MemOk) : OutOk (ringWord p aregs x body s) := by
  refine h.aWord _ ?_
  dsimp only
  split
  · trivial
  have hr := h.ringAt (s.cur.readA x.toNat)
  split
  · exact h
  · exact h
  next he => rw [he] at hr; exact hb _ _ _ hr

theorem putRing (h : MemOk s) (w : Word) (r : Ring) : MemOk (putRing s w r) := h

theorem settleRing (h : MemOk s) (w : Word) (r : Ring) : MemOk (settleRing s w r) := h.of_mem (settleRing_mem ..)

theorem acquireRing (h : MemOk s) (w : Word) (r : Ring) : MemOk (acquireRing s w r) := by
  unfold Machine.acquireRing
  split <;> exact h

theorem execRclaim (h : MemOk s) (p : BitVec 4) (g x d : BitVec 5) : OutOk (execRclaim p g x d s) := by
  refine h.ringWord _ _ _ fun w r t ht => ?_
  dsimp only
  split
  · exact ht
  split <;> exact ht

theorem ringWait (h : MemOk s) (prod : Bool) (p : BitVec 4) (g x d : BitVec 5) : OutOk (ringWait prod p g x d s) := by
  refine h.ringWord _ _ _ fun w r t ht => ?_
  dsimp only
  split
  · exact MemOk.acquireRing (s := Machine.putRing t w r) ht ..
  split
  · exact ht
  split
  · exact ht
  have hu (q : Ring) := MemOk.settleRing (s := t.upd (fun c => { c with ringAt := some w.toNat })) ht w q
  split
  · exact MemOk.acquireRing (hu _) ..
  · exact hu _

theorem wakeClaims (h : MemOk s) (l : List RingClaim) : MemOk (wakeClaims s l) := by
  induction l generalizing s with
  | nil => exact h
  | cons c l ih =>
    refine ih ?_
    split
    · exact h
    · exact h.foldl (fun _ _ hu => hu.modStowed ..) _

theorem ringGive (h : MemOk s) (prod : Bool) (p : BitVec 4) (g x d : BitVec 5) : OutOk (ringGive prod p g x d s) := by
  refine h.ringWord _ _ _ fun w r t ht => ?_
  dsimp only
  split
  · exact ht
  · exact ht.release _ fun u hu => MemOk.settleRing (MemOk.wakeClaims (by exact hu) _) ..

theorem execRpeek (h : MemOk s) (p : BitVec 4) (x d : BitVec 5) : OutOk (execRpeek p x d s) := h.ringWord _ _ _ fun _ _ _ ht => ht

theorem execRingRecordEvict (h : MemOk s) (d : DieId) (ix : Nat) : OutOk (execRingRecordEvict d ix s) := by
  unfold Machine.execRingRecordEvict
  dsimp only
  split
  · exact .ite (.next (h.evictRing ..)) (.next h)
  · exact .next h

end MemOk

/-! Memory keeps its canonical form: launches (R236 to R245) and schedules (R361 to R364). -/

namespace MemOk
variable {s t : State}

theorem makeReady (h : MemOk s) (w : Word) (T : Task) : MemOk (makeReady s w T) := h.of_mem (makeReady_mem ..)

theorem refusePoint (h : MemOk s) (w : Word) (T : Task) : MemOk (refusePoint s w T) := (h.appendRecord ..).failTask _

theorem execShareTransfer (h : MemOk s) (d : DieId) (task : Word) (dpoint : Fin 8) : OutOk (execShareTransfer d task dpoint s) := by
  unfold Machine.execShareTransfer
  dsimp only
  split
  · exact .next h
  split
  · exact .next h
  split
  · exact .next h
  · exact .ite (.next (MemOk.refusePoint (by exact h) ..)) (.next h)

theorem launch (h : MemOk s) (desc kb qb : List Byte) : MemOk (launch s desc kb qb).2 := by
  unfold Machine.launch
  split
  · exact h
  dsimp only
  split
  · exact h
  split
  · exact h.makeReady ..
  · exact h

theorem launchReads (h : MemOk s) (desc : List Byte) {go : List Byte → List Byte → State → Res}
    (hg : ∀ kb qb t, MemOk t → (go kb qb t).MemOk) : (launchReads desc go s).MemOk := by
  unfold Machine.launchReads
  dsimp only
  split
  · trivial
  refine h.withRead _ _ fun kb t ht => ?_
  split
  · exact hg _ _ _ ht
  split
  · trivial
  · exact ht.withRead _ _ fun qb u hu => hg _ _ _ hu

theorem execTlaunch (h : MemOk s) (p : BitVec 4) (x d : BitVec 5) : OutOk (execTlaunch p x d s) := by
  refine h.aWord _ ?_
  dsimp only
  split
  · trivial
  refine h.release _ fun t ht => ht.withRead _ _ fun desc u hu => hu.launchReads _ fun kb qb v hv => ?_
  exact hv.launch ..

theorem satisfyEdge (h : MemOk s) (w : Word) : MemOk (satisfyEdge s w) := by
  unfold Machine.satisfyEdge
  split
  · exact h
  exact h.ite (.ite (h.makeReady ..) h)

theorem addEdge (h : MemOk s) (a b : Word) : MemOk (addEdge s a b) := by
  unfold Machine.addEdge
  split
  · dsimp only
    split
    · exact MemOk.satisfyEdge (by exact h) _
    · exact MemOk.failAll (by exact h) ..
    · exact MemOk.failAll (by exact h) ..
    · exact h
  · exact h

theorem execTdep (h : MemOk s) (p : BitVec 4) (g x : BitVec 5) : OutOk (execTdep p g x s) := by
  refine h.aWord _ ?_
  dsimp only
  split
  · trivial
  · exact h.addEdge ..

theorem execTqry (h : MemOk s) (p : BitVec 4) (x d : BitVec 5) : OutOk (execTqry p x d s) := h.aWord _ h

theorem execTkill (h : MemOk s) (p : BitVec 4) (x : BitVec 5) : OutOk (execTkill p x s) := by
  refine h.aWord _ ?_
  dsimp only
  split
  · exact h.killTask ..
  · exact h

theorem execSuccessorDecrement (h : MemOk s) (d : DieId) (task : Word) : OutOk (execSuccessorDecrement d task s) := by
  unfold Machine.execSuccessorDecrement
  split
  · exact .next h
  split
  · exact .next h
  · exact .next (MemOk.satisfyEdge (by exact h) _)

theorem execTaskRecordFree (h : MemOk s) (d : DieId) (rec : Fin 4096) : OutOk (execTaskRecordFree d rec s) := by
  unfold Machine.execTaskRecordFree
  dsimp only
  split
  · exact .next h
  · exact .ite (.next h) (.next h)

theorem execSchpub (h : MemOk s) (p : BitVec 4) (x : BitVec 5) : OutOk (execSchpub p x s) := by
  refine h.aWord _ ?_
  dsimp only
  split
  · exact h
  split
  · trivial
  refine h.withRead _ _ fun hb t ht => ?_
  split
  · exact ht
  · trivial

theorem execSchadv (h : MemOk s) (p : BitVec 4) (x : BitVec 5) : OutOk (execSchadv p x s) := by
  refine h.aWord _ ?_
  dsimp only
  split
  · trivial
  · exact h

theorem fillOne (h : MemOk s) (die bridge : Nat) (j : FillJob) : MemOk (fillOne s die bridge j) := by
  unfold Machine.fillOne
  dsimp only
  exact .ite h (.ite h h)

theorem of_fillStep {die bridge : Nat} {x : Schedule} (h : MemOk s) (hf : fillStep s die bridge x = some t) : MemOk t := by
  unfold fillStep at hf
  dsimp only at hf
  split at hf
  · cases hf
    split
    next hr => exact h.of_mem (Counts.of_readRun hr).mem
    next => exact h
  · split at hf
    · cases hf
    split at hf
    · cases hf; exact h
    split at hf
    · cases hf
    · cases hf; exact h.fillOne ..

theorem execScheduleFill (h : MemOk s) (d : DieId) : OutOk (execScheduleFill d s) := by
  unfold Machine.execScheduleFill
  split
  next hf =>
    obtain ⟨k, -, hk⟩ := List.exists_of_findSome?_eq_some hf
    dsimp only at hk
    split at hk
    · exact .next (h.of_fillStep hk)
    · cases hk
  next => exact .next h

end MemOk
end Sys2Proof.Machine

namespace Sys2Proof.Machine
open Sys2Proof

/-! Memory keeps its canonical form: the dispatcher (R245 to R254). -/

namespace MemOk
variable {s t : State}

theorem loadTables (h : MemOk s) (ix : Nat) : MemOk (loadTables s ix) := by
  obtain ⟨t, curves, ht, he⟩ := loadTables_eq s ix
  rw [he]
  exact MemOk.of_mem (t := t) h ht.mem

theorem execStrandStart (h : MemOk s) (c : CellId) : OutOk (execStrandStart c s) := by
  unfold Machine.execStrandStart
  dsimp only
  exact .ite (.next h) (.next (MemOk.loadTables (by exact h) _))

theorem startStrands (h : MemOk s) (die : Nat) (w : Word) (T : Task) (dpoint : Nat) (heat : Heat) (n : Nat) (l : List Nat) :
    MemOk (startStrands s die w T dpoint heat n l) := by
  induction l generalizing s n with
  | nil => exact h
  | cons i l ih => exact ih (by exact h) _

theorem dispatchShare (h : MemOk s) (die : Nat) (e : ReadyEntry) (T : Task) (heat : Heat) (d : Die) : MemOk (dispatchShare s die e T heat d) :=
  MemOk.startStrands (by exact h) ..

theorem dispatchHead (h : MemOk s) (die : Nat) (e : ReadyEntry) : MemOk (dispatchHead s die e) := by
  unfold Machine.dispatchHead
  split
  · split
    · exact h.dispatchShare ..
    · exact h
  · exact h

theorem haltStrand (h : MemOk s) (ix : Nat) (why : StowCause) : MemOk (haltStrand s ix why) := by
  unfold Machine.haltStrand
  split
  · split
    next hb => exact h.of_beginStow hb
    next => exact h
  · exact h

theorem haltStrands (h : MemOk s) (why : StowCause) (l : List Nat) : MemOk (haltStrands s why l) := by
  induction l generalizing s with
  | nil => exact h
  | cons ix l ih => exact ih (h.haltStrand ..)

theorem classPreempt (h : MemOk s) (die : Nat) (e : ReadyEntry) : MemOk (classPreempt s die e) := by
  unfold Machine.classPreempt
  split
  · exact h
  split
  · exact h
  dsimp only
  split
  · exact h
  · exact h.foldl (fun _ _ hu => hu.haltStrands ..) _

theorem serveRequest (h : MemOk s) (die : Nat) (r : Nat × Nat × Task) : MemOk (serveRequest s die r) := by
  unfold Machine.serveRequest
  exact .ite h (h.ite (h.ite (h.haltStrands ..)))

theorem execDispatchDecision (h : MemOk s) (d : DieId) : OutOk (execDispatchDecision d s) := by
  have ht : MemOk ((requests s (dieIx d)).foldl (fun s r => Machine.serveRequest s (dieIx d) r) s) :=
    h.foldl (fun _ _ hu => hu.serveRequest ..) _
  unfold Machine.execDispatchDecision
  dsimp only
  split
  · exact .next ht
  · exact .ite (.next (ht.dispatchHead ..)) (.next (ht.classPreempt ..))

theorem execAgeingPromotion (h : MemOk s) (d : DieId) (ix : Nat) : OutOk (execAgeingPromotion d ix s) := by
  unfold Machine.execAgeingPromotion
  dsimp only
  split
  · exact .ite (.next h) (.next h)
  · exact .next h

theorem countDone (h : MemOk s) (die : Nat) (w : Word) (dpoint : Nat) : MemOk (countDone s die w dpoint) := by
  unfold Machine.countDone
  split
  · exact h
  dsimp only
  split
  · exact h
  · split <;> split <;> exact h

theorem finishStrand (h : MemOk s) (ix : Nat) : MemOk (finishStrand s ix) := ((h.withdrawStrand _).countDone ..).freeCell _

theorem stopAtEnd (h : MemOk s) (ix : Nat) (v : Word) : MemOk (stopAtEnd s ix v) := by
  unfold Machine.stopAtEnd
  dsimp only
  split
  · exact MemOk.failTask (MemOk.stopWith (by exact h) ..) _
  · exact h

theorem execStrandComplete (h : MemOk s) (c : CellId) : OutOk (execStrandComplete c s) := by
  unfold Machine.execStrandComplete
  dsimp only
  split
  · exact .next h
  split
  · exact .next h
  next hr => exact .next (MemOk.stopAtEnd (h.of_releaseUnder (.inr hr)) ..)
  next hr => exact .next (MemOk.finishStrand (h.of_releaseUnder (v := 0) (.inl hr)) _)

theorem execWatchdogFire (h : MemOk s) (c : CellId) : OutOk (execWatchdogFire c s) := by
  unfold Machine.execWatchdogFire
  dsimp only
  exact .ite (.next h) (.next (MemOk.failTask (MemOk.appendRecord (by exact h) ..) _))

theorem execDieQuiescent (h : MemOk s) (d : DieId) : OutOk (execDieQuiescent d s) := by
  unfold Machine.execDieQuiescent
  dsimp only
  exact .ite (.next h) (.next (MemOk.appendRecord (by exact h) ..))

end MemOk

/-! Memory keeps its canonical form: worlds, the host port and bring-up (R383 to R399). -/

theorem risingFrom_filter {α : Type} {m : SMap α} {k : Nat} (p : Nat × α → Bool) (h : risingFrom k m = true) :
    risingFrom k (m.filter p) = true := by
  induction m generalizing k with
  | nil => rfl
  | cons e r ih =>
    obtain ⟨i, x⟩ := e
    simp only [risingFrom, Bool.and_eq_true, decide_eq_true_eq] at h
    rw [List.filter_cons]
    split
    · simp only [risingFrom, Bool.and_eq_true, decide_eq_true_eq]
      exact ⟨h.1, ih h.2⟩
    · exact risingFrom_le (ih h.2) (by omega)

/-- Bytes taken out of a memory leave the canonical form. -/
theorem Memory.filter_wf {m : Memory} (p : Nat × Byte → Bool) (h : Memory.wf m = true) : Memory.wf (m.filter p) = true := by
  unfold Memory.wf at *
  rw [Bool.and_eq_true] at *
  refine ⟨risingFrom_filter p h.1, ?_⟩
  rw [List.all_eq_true] at *
  exact fun c hc => h.2 c (List.mem_of_mem_filter hc)

/-- Single bytes stored from a list keep the canonical form. -/
theorem Memory.foldl_setByte_wf {m : Memory} (h : Memory.wf m = true) (a : Nat) (l : Memory) :
    Memory.wf (l.foldl (fun m c => Memory.setByte m (a + c.1) c.2) m) = true := by
  induction l generalizing m with
  | nil => exact h
  | cons c l ih => exact ih (Memory.setByte_wf h _ _)

namespace MemOk
variable {s t : State}

theorem withMem {m : Memory} (h : Memory.wf m = true) : MemOk { s with mem := m } := h

theorem prepareDie (h : MemOk s) (die : Nat) : MemOk (prepareDie s die) := by
  unfold Machine.prepareDie
  exact withMem (Memory.write_wf (Memory.foldl_setByte_wf (Memory.filter_wf _ h) _ _) _ _)

theorem startCommand (h : MemOk s) (die : Nat) : MemOk (startCommand s die) := h

theorem setTdisp (h : MemOk s) (die : Nat) (a : Answer) : MemOk (setTdisp s die a) := h

theorem transition (h : MemOk s) (die : Nat) (r : TdiReq) : MemOk (transition s die r) := by
  unfold Machine.transition
  dsimp only
  split
  · split
    · exact h
    split <;> exact h
  · split <;> exact h
  · exact h
  · split <;> exact h

theorem takeWaiting (h : MemOk s) (die : Nat) (l : List TdiReq) : MemOk (takeWaiting die s l) := by
  induction l generalizing s with
  | nil => exact h
  | cons r l ih =>
    have ht : MemOk (Machine.transition (s.modDie die (fun d => { d with waiting := l })) die r) := MemOk.transition (by exact h) ..
    exact ht.ite (ih ht)

theorem tdispRequest (h : MemOk s) (die : Nat) (r : TdiReq) : MemOk (tdispRequest s die r) := by
  unfold Machine.tdispRequest
  exact .ite h (.ite h (h.transition ..))

theorem killAll (h : MemOk s) (l : List Word) : MemOk (killAll s l).1 := by
  induction l generalizing s with
  | nil => exact h
  | cons w l ih =>
    unfold Machine.killAll
    split
    · exact ih (h.endTask ..)
    · exact ih h

theorem reassignHalt (h : MemOk s) (die : Nat) : MemOk (reassignHalt s die) := by
  have h1 := (h.killAll (openTasks (s.die die) die)).failAll cascadeFuel (Machine.killAll s (openTasks (s.die die) die)).2
  unfold Machine.reassignHalt
  exact h1.foldl (f := Machine.failTask) (fun _ _ hu => hu.failTask _) _

theorem reassignFinish (h : MemOk s) (die : Nat) (r : Reassign) : MemOk (reassignFinish s die r) := by
  unfold Machine.reassignFinish
  exact MemOk.startCommand (MemOk.prepareDie (by exact Memory.filter_wf _ h) _) _

theorem execReassignmentComplete (h : MemOk s) (d : DieId) : OutOk (execReassignmentComplete d s) := by
  unfold Machine.execReassignmentComplete
  dsimp only
  split
  · exact .next h
  next r _ =>
    have h1 := h.reassignHalt (dieIx d)
    have h2 := h.reassignFinish (dieIx d) r
    have h3 : MemOk (Machine.setTdisp (Machine.reassignFinish s (dieIx d) r) (dieIx d) .tdispOk) := h2.setTdisp ..
    exact .ite (.next h1) (.ite (.next h) (.next (MemOk.takeWaiting (h3.ite h2) _ _)))

theorem spdm (h : MemOk s) (p : PkgId) (f : Session → Session) : OutOk (.next (spdm p f s)) := by
  refine .next ?_
  unfold Machine.spdm
  exact .ite h h

theorem execGetDeviceInterfaceReport (h : MemOk s) (d : DieId) : OutOk (execGetDeviceInterfaceReport d s) := .ite (.next h) (.next h)

theorem execGetDeviceInterfaceState (h : MemOk s) (d : DieId) : OutOk (execGetDeviceInterfaceState d s) := .ite (.next h) (.next h)

theorem execGetMeasurements (h : MemOk s) (p : PkgId) (ix : Nat) : OutOk (execGetMeasurements p ix s) :=
  .ite (.next h) (.ite (.next h) (.next h))

theorem execIdeKmRequest (h : MemOk s) (p : PkgId) (v : Word) : OutOk (execIdeKmRequest p v s) := .ite (.next h) (.next h)

theorem hostStore (h : MemOk s) (pkg : Nat) (w : Word) (bs : List Byte) : MemOk (hostStore s pkg w bs) := by
  unfold Machine.hostStore
  exact MemOk.of_mem (withMem (s := s) (Memory.write_wf h _ _)) rfl

theorem execLaunchDoorbell (h : MemOk s) (d : DieId) (tail : HostWord) : OutOk (execLaunchDoorbell d tail s) := by
  unfold Machine.execLaunchDoorbell
  dsimp only
  refine .ite (.next h) (.ite (.next h) (.next ?_))
  exact MemOk.of_mem (MemOk.hostStore (s := s.modDie (dieIx d) fun d => { d with lastDoorbell := _ }) h d.pkg.val _ _) rfl

theorem execHostRingWrite (h : MemOk s) (d : DieId) (off : Word) (data : HostWord) : OutOk (execHostRingWrite d off data s) := by
  unfold Machine.execHostRingWrite
  dsimp only
  exact .ite (.next h) (.next (h.hostStore ..))

theorem execDebuggerRead (h : MemOk s) (d : DieId) (g : Word) (world : BitVec 16) (heat : Heat) : OutOk (execDebuggerRead d g world heat s) := by
  unfold Machine.execDebuggerRead
  dsimp only
  exact .ite (.next h) (.next h)

theorem execCounterRead (h : MemOk s) (d : DieId) (ix : Nat) : OutOk (execCounterRead d ix s) := .ite (.next h) (.next h)

theorem execHostLogHeadWrite (h : MemOk s) (p : PkgId) (head : Word) : OutOk (execHostLogHeadWrite p head s) := .ite (.next h) (.next h)

theorem execSerialConfirmation (h : MemOk s) (p : PkgId) (serial : BitVec 15) : OutOk (execSerialConfirmation p serial s) :=
  .ite (.next h) (.next h)

theorem releaseDie (h : MemOk s) (die : Nat) : MemOk (releaseDie s die) :=
  MemOk.startCommand (MemOk.prepareDie (s := resetDie s die) h die) die

theorem execPackageReset (h : MemOk s) (p : PkgId) : OutOk (execPackageReset p s) := by
  unfold Machine.execPackageReset
  dsimp only
  refine .ite (.next h) (.next (MemOk.keyGone ?_))
  exact .ite (MemOk.foldl (by exact h) (fun _ _ hu => hu.releaseDie _) _) (MemOk.foldl (by exact h) (fun _ _ hu => by exact hu) _)

theorem execFirmwareReady (h : MemOk s) (p : PkgId) : OutOk (execFirmwareReady p s) := by
  unfold Machine.execFirmwareReady
  dsimp only
  exact .ite (.next h) (.next (MemOk.startChange (by exact h)))

theorem execReloadStart (h : MemOk s) (p : PkgId) (v : Reload) : OutOk (execReloadStart p v s) :=
  .ite (.next h) (.ite (.next h) (.next h))

end MemOk

/-! Memory keeps its canonical form: V and M words (R133 to R173), whose results lie in their cell. -/

theorem VRes.MemOk.ite {c : Prop} [Decidable c] {a b : VRes} (ha : a.MemOk) (hb : b.MemOk) : (if c then a else b).MemOk := by
  split <;> assumption

namespace MemOk
variable {s t : State}

theorem writeResult (h : MemOk s) (m : VForm) (f : VFields) (lat : Nat) (o : VOut) : MemOk (writeResult s m f lat o) := by
  unfold Machine.writeResult
  split
  · exact h
  · dsimp only
    split <;> exact h
  · split
    · dsimp only
      split <;> exact h
    · exact h

theorem vBody (h : MemOk s) (m : VForm) (lat : Nat) (ok : VIn → Bool) (run : VIn → VOut) (f : VFields) : (vBody m lat ok run f s).MemOk := by
  unfold Machine.vBody
  dsimp only
  split
  · trivial
  split
  · trivial
  refine .ite trivial (.ite trivial (.ite trivial (.ite trivial ?_)))
  exact MemOk.ite (MemOk.writeResult (by exact h) ..) (MemOk.writeResult (by exact h) ..)

theorem vWord (h : MemOk s) (m : VForm) (lat dest : Nat) (ok : VIn → Bool) (run : VIn → VOut) (f : VFields) :
    OutOk (vWord m lat dest ok run f s) := .next (h.vStep _ _ _ _ _ _ (h.vBody ..))

theorem vPlain (h : MemOk s) (m : VForm) (lat : Nat) (run : VIn → VOut) (f : VFields) : OutOk (vPlain m lat run f s) := h.vWord m lat 0 _ run f

theorem mWord (h : MemOk s) (reads : List Nat) (f : MFields) {body : State → VRes} (hb : (body s).MemOk) : OutOk (mWord reads body f s) :=
  .next (h.vStep _ _ _ _ _ _ hb)

theorem landAges (h : MemOk s) (ix : Nat) (l : List Landing) : MemOk (landAges s ix l) := by
  induction l generalizing s with
  | nil => exact h
  | cons x l ih =>
    refine ih ?_
    split
    · refine .ite ?_ h
      unfold setAge
      exact .ite h h
    · exact h

theorem execResultLanding (h : MemOk s) (c : CellId) : OutOk (execResultLanding c s) := by
  have h1 := h.landAges (cellIx c) (s.cell (cellIx c)).landings
  exact .next h1

theorem execMldb (h : MemOk s) (f : MFields) : OutOk (execMldb f s) := by
  refine h.mWord _ _ ?_
  unfold mldbBody
  dsimp only
  split
  · trivial
  · trivial
  split
  · trivial
  split
  · trivial
  exact .ite trivial h

theorem execMstep (h : MemOk s) (f : MFields) : OutOk (execMstep f s) := by
  refine h.mWord _ _ ?_
  unfold mstepBody
  dsimp only
  split
  · trivial
  split
  · trivial
  · trivial
  refine .ite trivial (.ite trivial ?_)
  split
  · trivial
  refine .ite trivial ?_
  split
  · trivial
  refine .ite trivial ?_
  exact MemOk.foldl (by exact h) (fun _ _ hu => by exact hu) _

theorem foldRows (h : MemOk s) (f : MFields) (fe : BitVec 128) (sa sb : Dyadic) (cols : BitVec 128) (n r : Nat) (fl : Flags) :
    MemOk (foldRows f fe sa sb cols n r (s, fl)).1 := by
  induction n generalizing s r fl with
  | zero => exact h
  | succ n ih =>
    unfold Machine.foldRows
    exact ih (by exact h) ..

theorem execMfold (h : MemOk s) (f : MFields) : OutOk (execMfold f s) := by
  refine h.mWord _ _ ?_
  unfold mfoldBody
  dsimp only
  split
  · trivial
  split
  · trivial
  split
  · trivial
  refine .ite trivial (.ite trivial ?_)
  split
  · have hf (c : Cell) (fe : BitVec 128) (sa sb : Dyadic) := MemOk.foldRows (s := s.setCell s.me c) h f fe sa sb (colsOf f) (rowsOf f) 0 0
    refine MemOk.ite ?_ ?_ <;> exact MemOk.ite (hf ..) (hf ..)
  · trivial

theorem drainRows (h : MemOk s) (fromI : Bool) (f : MFields) : MemOk (drainRows fromI f s) := by
  unfold Machine.drainRows
  exact MemOk.foldl (by exact h) (fun _ _ hu => by exact hu) _

theorem drainBody (h : MemOk s) (fromI : Bool) (f : MFields) : (drainBody fromI f s).MemOk := by
  unfold Machine.drainBody
  dsimp only
  refine .ite trivial (.ite trivial (.ite trivial (.ite trivial (.ite trivial ?_))))
  have h1 (c : Cell) := MemOk.drainRows (s := s.setCell s.me c) h fromI f
  refine MemOk.ite ?_ ?_ <;> exact MemOk.ite (MemOk.foldl (h1 _) (fun _ _ hu => by exact hu) _) (h1 _)

theorem execMdrain (h : MemOk s) (f : MFields) : OutOk (execMdrain f s) := h.mWord _ _ (h.drainBody ..)

theorem execMdraini (h : MemOk s) (f : MFields) : OutOk (execMdraini f s) := h.mWord _ _ (h.drainBody ..)

theorem execMzero (h : MemOk s) (f : MFields) : OutOk (execMzero f s) := h.mWord _ _ (.ite h h)

end MemOk

/-! Memory keeps its canonical form: pre-emption and the return of strands (R201 to R207). -/

namespace MemOk
variable {s t : State}

theorem abandonLoads (h : MemOk s) (ix : Nat) : MemOk (abandonLoads s ix) := by
  unfold Machine.abandonLoads
  dsimp only
  split <;> exact h

theorem takeGrant (h : MemOk s) (ix : Nat) : MemOk (takeGrant s ix) := by
  unfold Machine.takeGrant
  dsimp only
  split <;> exact h

theorem returnShare (h : MemOk s) (die : Nat) (w : Word) : MemOk (returnShare s die w) := by
  unfold Machine.returnShare
  dsimp only
  split <;> exact h

theorem execPreemption (h : MemOk s) (c : CellId) (cause : StowCause) : OutOk (execPreemption c cause s) := by
  unfold Machine.execPreemption
  dsimp only
  refine .ite (.next h) (.ite (.next (MemOk.returnShare (by exact h) ..)) (.next (MemOk.abandonLoads ?_ _)))
  have h1 : MemOk (s.count (dieOfCell (cellIx c)) 18) := h
  exact MemOk.ite (h1.takeGrant _) (h1.leaveRing _)

theorem lateFault (h : MemOk s) (ix : Nat) : MemOk (lateFault s ix) := by
  have h1 (r : Report) := h.appendRecord (recordDie s ix)
    (recordOf s ix 0 (faultWord 0 (codeNum r.code) false) r.val (offsetOf (s.cell ix) 0))
  unfold Machine.lateFault
  dsimp only
  split
  · exact h
  · exact .ite h (h1 _)

theorem afterStow (h : MemOk s) (die : Nat) (x : Stowed) : MemOk (afterStow s die x) := by
  unfold Machine.afterStow
  exact .ite h (h.returnShare ..)

theorem markStowed (h : MemOk s) (die : Nat) (w : Word) : MemOk (markStowed s die w) := by
  unfold Machine.markStowed
  split <;> exact h

theorem stowStrand (h : MemOk s) (ix slot : Nat) (cause : StowCause) : MemOk (stowStrand s ix slot cause) := by
  unfold Machine.stowStrand
  refine MemOk.afterStow (MemOk.markStowed (MemOk.freeCell ?_ _) ..) ..
  have h1 (x : Stowed) := h.writeSlot (dieOfCell ix) x (stowImage s x)
  exact h1 _

theorem execStowComplete (h : MemOk s) (c : CellId) : OutOk (execStowComplete c s) := by
  unfold Machine.execStowComplete
  dsimp only
  refine .ite (.next h) (.ite (.next (h.lateFault _)) ?_)
  split
  · exact .next (h.stowStrand ..)
  · exact .next h

theorem reissueOne (h : MemOk s) (ix : Nat) (o : MemOp) : MemOk (reissueOne s ix o) := by
  unfold Machine.reissueOne
  dsimp only
  split
  · split
    · exact .ite h h
    · exact h
  · exact .ite h h

theorem reissueAll (h : MemOk s) (ix : Nat) (l : List MemOp) : MemOk (reissueAll s ix l) := by
  induction l generalizing s with
  | nil => exact h
  | cons o l ih => exact ih (h.reissueOne ..)

theorem markReturned (h : MemOk s) (w : Word) : MemOk (markReturned s w) := by
  unfold Machine.markReturned
  split <;> exact h

theorem restoreStrand (h : MemOk s) (ix : Nat) (x : Stowed) : MemOk (restoreStrand s ix x) := by
  have h0 : MemOk ((s.eccOne.filter (inImage s (dieOfCell ix) x)).foldl (fun t _ => t.count (dieOfCell ix) 17) s) :=
    h.foldl (fun _ _ hu => by exact hu) _
  have h5 (u : State) (l : List MemOp) (hu : MemOk u) :=
    (MemOk.markReturned (MemOk.reissueAll (hu.loadTables ix) ix l) x.handle).retryHeld ix
  unfold Machine.restoreStrand
  dsimp only
  split
  · refine MemOk.takeFault (h5 _ _ ?_) ..
    exact h0.of_mem rfl
  · refine h5 _ _ ?_
    exact h0.of_mem rfl

theorem restoreAll (h : MemOk s) (die : Nat) (l : List (Stowed × Nat)) : MemOk (restoreAll s die l) := by
  induction l generalizing s with
  | nil => exact h
  | cons x l ih => exact ih (h.restoreStrand ..)

theorem execRestore (h : MemOk s) (d : DieId) (ix : Nat) : OutOk (execRestore d ix s) := by
  unfold Machine.execRestore
  dsimp only
  split
  · exact .next h
  · exact .ite (.next h) (.next (MemOk.restoreAll (by exact h) ..))

theorem execResultDelivery (h : MemOk s) (d : DieId) (op : Nat) : OutOk (execResultDelivery d op s) := by
  unfold Machine.execResultDelivery
  dsimp only
  split
  · exact .next h
  split
  · exact .next (h.stowedArrival ..)
  split
  · exact .next (h.rmwStep ..)
  · exact .next (h.storeStep ..)
  · exact .next (h.storeStep ..)
  · split
    · exact .ite (.next (h.arriveBack ..)) (.ite (.next (h.receive ..)) (.next h))
    · exact .next h
  · exact .next h

end MemOk
end Sys2Proof.Machine

namespace Sys2Proof.Machine
open Sys2Proof

/-! Memory keeps its canonical form: every row, every due turn and every step. -/

namespace MemOk
variable {s t : State}

theorem divWord (h : MemOk s) (f : Word → Word → Word) (p : BitVec 4) (x y d : BitVec 5) : OutOk (divWord f p x y d s) := by
  refine h.aWord _ ?_
  dsimp only
  split
  · exact h
  · exact h

theorem execKbnd (h : MemOk s) (p : BitVec 4) (d x : BitVec 5) (k : BitVec 4) : OutOk (execKbnd p d x k s) := by
  refine h.aWord _ ?_
  dsimp only
  split
  · trivial
  split
  · trivial
  · exact h

theorem execKrgt (h : MemOk s) (p : BitVec 4) (x : BitVec 5) (k : BitVec 4) : OutOk (execKrgt p x k s) := by
  refine h.aWord _ ?_
  dsimp only
  split
  · trivial
  · exact h

/-- Every row of the table keeps the form. -/
theorem exec (h : MemOk s) (i : Instr) : OutOk (exec i s) := by
  cases i
  case linkReplayTimeout => exact .next (h.modLink ..)
  case mtsr => exact h.execMtsr ..
  case mtb => exact h.execMtb ..
  case ldq => exact h.execLdq ..
  case stq => exact h.execStq ..
  case sgo => exact h.execSgo ..
  case kst => exact h.execKst ..
  case kinf => exact h.execKinf ..
  case pld => exact h.execPld ..
  case pst => exact h.execPst ..
  case ppush => exact h.execPpush ..
  case ppop => exact h.execPpop ..
  case pgive => exact h.execPgive ..
  case ptake => exact h.execPtake ..
  case pour => exact h.execPour ..
  case hpour => exact h.execHpour ..
  case ctwany => exact h.execCtwany ..
  case ctwall => exact h.execCtwall ..
  case ctffr => exact h.execCtffr ..
  case ctstat => exact h.execCtstat ..
  case ctclr => exact h.execCtclr ..
  case rclaim => exact h.execRclaim ..
  case rpeek => exact h.execRpeek ..
  case fenceRel => exact h.execFenceRel ..
  case fenceAcq => exact h.execFenceAcq ..
  case fenceSc => exact h.execFenceSc ..
  case wlacq => exact h.execWlacq ..
  case wlrenew => exact h.execWlrenew ..
  case wlrel => exact h.execWlrel ..
  case wlchk => exact h.execWlchk ..
  case eret => exact h.execEret ..
  case tlaunch => exact h.execTlaunch ..
  case tdep => exact h.execTdep ..
  case tqry => exact h.execTqry ..
  case tkill => exact h.execTkill ..
  case valloc => exact h.execValloc ..
  case vfree => exact h.execVfree ..
  case tlbinv => exact h.execTlbinv ..
  case pgprobe => exact h.execPgprobe ..
  case schpub => exact h.execSchpub ..
  case schadv => exact h.execSchadv ..
  case qpop => exact h.execQpop ..
  case qpush => exact h.execQpush ..
  case ltrip => exact h.execLtrip ..
  case ptb => exact h.execPtb ..
  case br x n e b => exact h.execBr x n e b
  case call => exact h.execCall ..
  case ret => exact h.execRet ..
  case loop => exact h.execLoop ..
  case lbrk => exact h.execLbrk ..
  case barArrive => exact h.execBarArrive ..
  case barWait => exact h.execBarWait ..
  case barSync => exact h.execBarSync ..
  case yield => exact h.execYield ..
  case halt => exact h.execHalt ..
  case mldb => exact h.execMldb ..
  case mstep => exact h.execMstep ..
  case mfold => exact h.execMfold ..
  case mdrain => exact h.execMdrain ..
  case mdraini => exact h.execMdraini ..
  case mzero => exact h.execMzero ..
  case loopBackEdge => exact h.execLoopBackEdge ..
  case resultLanding => exact h.execResultLanding ..
  case slipdead => exact h.execSlipdead ..
  case textFetch => exact h.execTextFetch ..
  case loadDataReturn => exact h.execLoadDataReturn ..
  case blockFill => exact h.execBlockFill ..
  case storePerformed => exact h.execStorePerformed ..
  case rmwResponse => exact h.execRmwResponse ..
  case pageAheadFill => exact h.execPageAheadFill ..
  case stoppingFault => exact h.execStoppingFault ..
  case deferredFaultTaken => exact h.execDeferredFaultTaken ..
  case faultQueueHeadWrite => exact h.execFaultQueueHeadWrite ..
  case dispatchDecision => exact h.execDispatchDecision ..
  case strandStart => exact h.execStrandStart ..
  case ageingPromotion => exact h.execAgeingPromotion ..
  case shareTransfer => exact h.execShareTransfer ..
  case successorDecrement => exact h.execSuccessorDecrement ..
  case preemption => exact h.execPreemption ..
  case stowComplete => exact h.execStowComplete ..
  case restore => exact h.execRestore ..
  case reissueRefused => exact h.execReissueRefused ..
  case resultDelivery => exact h.execResultDelivery ..
  case strandComplete => exact h.execStrandComplete ..
  case watchdogFire => exact h.execWatchdogFire ..
  case dieQuiescent => exact h.execDieQuiescent ..
  case taskRecordFree => exact h.execTaskRecordFree ..
  case launchDoorbell => exact h.execLaunchDoorbell ..
  case hostRingWrite => exact h.execHostRingWrite ..
  case copyStart => exact h.execCopyStart ..
  case copyGranuleWrite => exact h.execCopyGranuleWrite ..
  case copyComplete => exact h.execCopyComplete ..
  case hpourStart => exact h.execHpourStart ..
  case hpourStaged => exact h.execHpourStaged ..
  case quenchSweep => exact h.execQuenchSweep ..
  case quenchPassEnd => exact h.execQuenchPassEnd ..
  case renewalResponse => exact h.execRenewalResponse ..
  case poolWriteAck => exact h.execPoolWriteAck ..
  case poolRequest => exact h.execPoolRequest ..
  case leaseExpiry => exact h.execLeaseExpiry ..
  case holdArrival => exact h.execHoldArrival ..
  case holdWindowExpiry => exact h.execHoldWindowExpiry ..
  case ringSlotArrival => exact h.execRingSlotArrival ..
  case topologyAnnounce => exact h.execTopologyAnnounce ..
  case topologyAdopt => exact h.execTopologyAdopt ..
  case staleRefusal => exact h.execStaleRefusal ..
  case vetoRelease => exact h.execVetoRelease ..
  case laneFailure o l lane => exact h.execLaneFailure o l lane
  case retrainDone => exact h.execRetrainDone ..
  case packageSevered => exact h.execPackageSevered ..
  case sealedFrameReceive => exact h.execSealedFrameReceive ..
  case domainReduction => exact h.execDomainReduction ..
  case scheduleFill => exact h.execScheduleFill ..
  case barrierArrival => exact h.execBarrierArrival ..
  case ringRecordEvict => exact h.execRingRecordEvict ..
  case getDeviceInterfaceReport => exact h.execGetDeviceInterfaceReport ..
  case getDeviceInterfaceState => exact h.execGetDeviceInterfaceState ..
  case reassignmentComplete => exact h.execReassignmentComplete ..
  case getMeasurements => exact h.execGetMeasurements ..
  case debuggerRead => exact h.execDebuggerRead ..
  case counterRead => exact h.execCounterRead ..
  case hostLogHeadWrite => exact h.execHostLogHeadWrite ..
  case reloadStart => exact h.execReloadStart ..
  case packageReset => exact h.execPackageReset ..
  case firmwareReady => exact h.execFirmwareReady ..
  case ideKmRequest => exact h.execIdeKmRequest ..
  case nodeManagementRequest => exact h.execNodeManagementRequest ..
  case serialConfirmation => exact h.execSerialConfirmation ..
  case poolNodeRestart => exact h.execPoolNodeRestart ..
  case retuneComplete => exact h.execRetuneComplete ..
  case add | sub | and | or | xor | sll | srl | sra | mul | mulh | mulhn | min | max | minn | maxn | addw | subw | andn | rol |
      ror | clz | ctz | popc | addi | andi | ori | xori | slli | srli | srai | lui | addpc | cmp | cmpAnd | cmpOr | cmpi | pand |
      por | pxor | pandn | pset | mfsr | kmov | heatq | sel => exact h.aWord _ h
  case trap | brk => exact h.aWord _ trivial
  case div | divn | rem | remn => exact h.divWord ..
  case ld => exact h.aWord _ (h.loadBody ..)
  case kld => exact h.aWord _ (h.loadBody ..)
  case st => exact h.aWord _ (h.storeBody ..)
  case kbnd => exact h.execKbnd ..
  case krgt => exact h.execKrgt ..
  case wfe => exact h.aWord _ (.ite h h)
  case sbase | sdim | sunf | spage =>
    dsimp only [Machine.exec, execSbase, execSdim, execSunf, execSpage]
    exact h.streamWord ..
  case gathW | gathD | gathG => exact h.gathWord ..
  case scatW | scatD | scatG | scatAddW | scatAddD | scatAddF => exact h.scatWord ..
  case atomAdd | atomAnd | atomOr | atomXor | atomMin | atomMax | atomMinn | atomMaxn | atomSwap | atomCas | atomFadd =>
    exact h.atomWord ..
  case patAdd | patAnd | patOr | patXor | patMin | patMax | patMinn | patMaxn | patSwap | patCas | patFadd => exact h.patWord ..
  case rpubl | rfree => exact h.ringGive ..
  case rwaitf | rwaite => exact h.ringWait ..
  case mpany | mpall | vcvt | vqnt | vdqt => exact h.vWord ..
  case vadd | vsub | vmul | vmulh | vfma | vfms | vfnm | vmin | vmax | vabs | vneg | vabsd | vrcpe | vrsqe | vexpe | vfrx | vand |
      vor | vxor | vandn | vshl | vshr | vsra | vpopc | vclz | vsel | vmov | vidx | vclass | vceq | vcne | vclt | vcle | vcgt |
      vcun | mand | mor | mxor | mnot | mcnt | mffs | vtpl | vpack | vunpk | vbfNarrow | vbfWiden | vrsum | vrmax | vrmin |
      vscan | vrsumi | vsegsum | vperm | vrot | vbcst | vzip | vuzp | vslide | vcomp | vexpd => exact h.vPlain ..
  case nop | beat => exact h.commonWord _ h
  case endWord | unitWake | ptsTick => exact .next h
  case writeSlip | writeAst | writeVctl | writeControlRegister => exact h.srEvent ..
  case writeQcap => exact .ite (h.srEvent ..) (.next h)
  case dispositionResume | dispositionConvert | dispositionRestore | dispositionFail => exact .next (h.writeDisposition ..)
  case writeLocal => exact .next (h.setLocal ..)
  case writePtroot => exact .next (h.setPtroot ..)
  case writeRwin => exact .next (h.setRwin ..)
  case writeBwin => exact .next (h.setBwin ..)
  case writePfdist => exact .next (h.setPfdist ..)
  case writeFqbase => exact .next (h.setFqbase ..)
  case writeLrbase => exact .next (h.setLrbase ..)
  case writeLrm => exact .next (h.setLrm ..)
  case writeStowSlotList => exact .next (h.setSlot ..)
  case writeListenPending => exact .next (h.setListen ..)
  case writeKey => exact .next (h.setKeyWord ..)
  case keyArm => exact .next (h.armKey ..)
  case keyDisarm => exact .next (h.disarmKey ..)
  case writePreemptRequest => exact .next (h.setRequest ..)
  case windowWrite => exact .next (h.windowStore ..)
  case lockInterface | startInterface | stopInterface | lockedConfigWrite => exact .next (h.tdispRequest ..)
  case getVersion | getCapabilities | negotiateAlgorithms | getDigests | getCertificate | challenge | keyExchange | finish |
      keyUpdate | endSession => exact h.spdm ..

theorem tick (h : MemOk s) : MemOk (tick s) := h

theorem rotate (h : MemOk s) : MemOk (rotate s) := by
  unfold Machine.rotate
  split
  · exact h
  · exact h
  · have hu : MemOk (if reportsDue s.cycle s.cur then Machine.takeReport s s.me else s) := (h.takeReport _).ite h
    dsimp only
    split
    · exact hu
    · split <;> exact hu.tick

theorem engineStep (h : MemOk s) : OutOk (engineStep s) := by
  unfold Machine.engineStep
  dsimp only
  split
  · exact .next h.rotate
  split
  · exact .next h.rotate
  split
  · exact .next (MemOk.rotate ((h.retryHeld _).ite h))
  split
  · exact (h.exec (.loopBackEdge s.focus s.eng)).mapNext fun _ ht => ht.rotate
  split
  · exact .next (h.faultHere ..).rotate
  next a _ => exact .ite (h.exec (.textFetch s.focus s.eng a)) (.next (MemOk.rotate (by exact h)))
  · exact .next h
  next i _ => exact (h.exec i).mapNext fun _ ht => ht.rotate

theorem responseStep (h : MemOk s) (r : PoolReq) : OutOk (responseStep s r) := by
  unfold Machine.responseStep
  dsimp only
  split
  · exact .ite (h.exec (.renewalResponse _ _)) (h.exec (.blockFill _ _))
  · exact h.exec (.renewalResponse _ _)
  · exact .ite (h.exec (.renewalResponse _ _)) (.next h)
  · exact .next h
  · exact h.exec (.poolWriteAck _ _)
  · exact .ite (h.exec (.vetoRelease _ _)) (.ite (h.exec (.rmwResponse _ _)) (h.exec (.resultDelivery _ _)))

theorem requestStep (h : MemOk s) (r : PoolReq) : OutOk (requestStep s r) := by
  unfold Machine.requestStep
  dsimp only
  split
  · exact h.exec (.holdArrival _ _)
  · exact h.exec (.holdWindowExpiry _ _)
  · exact h.exec (.holdWindowExpiry _ _)
  · exact h.exec (.holdWindowExpiry _ _)
  · split
    · exact h.exec (.blockFill _ _)
    · exact .ite (.next (h.lookRead _)) (.next h)
    · exact .ite (h.exec (.holdArrival _ _)) (h.exec (.poolRequest _ _))
  · exact .ite (h.exec (.staleRefusal _ _)) (h.exec (.holdArrival _ _))
  · exact .ite (h.exec (.staleRefusal _ _)) (h.exec (.poolRequest _ _))
  · exact h.exec (.staleRefusal _ _)
  · exact .next h
  · exact h.responseStep r
  · exact h.responseStep r

theorem opStep (h : MemOk s) (ix id : Nat) : OutOk (opStep s ix id) := by
  unfold Machine.opStep
  dsimp only
  split
  · exact h.exec (.blockFill _ _)
  refine .ite (h.exec (.reissueRefused _ _)) (.ite (h.exec (.staleRefusal _ _)) ?_)
  split
  · exact h.exec (.loadDataReturn _ _)
  · exact h.exec (.loadDataReturn _ _)
  · exact h.exec (.blockFill _ _)
  · exact h.exec (.storePerformed _ _)
  · exact h.exec (.storePerformed _ _)
  · exact h.exec (.rmwResponse _ _)
  · exact .next h
  · exact .next h

theorem deliverStep (h : MemOk s) (d : DieId) (id : Nat) : OutOk (deliverStep s d id) := by
  unfold Machine.deliverStep
  split
  · exact .ite (h.exec (.staleRefusal _ _)) (h.exec (.resultDelivery _ _))
  · exact h.exec (.resultDelivery _ _)

theorem adoptStep (h : MemOk s) (f : Fabric) (told : Bool) : OutOk (adoptStep s f told) :=
  .ite (h.exec (.topologyAdopt _)) (h.exec (.topologyAnnounce _))

theorem retryStop (h : MemOk s) (ix : Nat) : MemOk (retryStop s ix) := by
  unfold Machine.retryStop
  split
  · split
    · split
      · exact h.holdWith ..
      · exact ((h.stopWith ..).failTask _).ite (h.stopWith ..)
    · exact h
  · exact h

theorem ageStep (h : MemOk s) (d : Nat) : OutOk (ageStep s d) := by
  unfold Machine.ageStep
  split
  · exact h.exec (.ageingPromotion _ _)
  · exact .next h

theorem runDue (h : MemOk s) (u : Due) : OutOk (runDue u s) := by
  cases u with
  | landing c => exact h.exec (.resultLanding _)
  | slipdead c => exact h.exec (.slipdead _)
  | strandStart c => exact h.exec (.strandStart _)
  | strandComplete c => exact h.exec (.strandComplete _)
  | halt c =>
    dsimp only [Machine.runDue]
    split
    · exact h.exec (.preemption _ _)
    · exact .next h
  | stow c => exact h.exec (.stowComplete _)
  | watchdog c => exact h.exec (.watchdogFire _)
  | retry c => exact .next (h.retryStop _)
  | report c => exact h.exec (.deferredFaultTaken _)
  | op c id => exact h.opStep c id
  | pageAhead c n => exact h.exec (.pageAheadFill _ _)
  | arrival c bar => exact h.exec (.barrierArrival _ _)
  | dispatch d => exact h.exec (.dispatchDecision _)
  | ageing d _ => exact h.ageStep d
  | share d task p => exact h.exec (.shareTransfer _ _ _)
  | successor d task => exact h.exec (.successorDecrement _ _)
  | restore d ix => exact h.exec (.restore _ _)
  | deliver d id => exact h.deliverStep _ id
  | quench d => exact h.exec (.quenchSweep _)
  | passEnd d => exact h.exec (.quenchPassEnd _)
  | quiescent d => exact h.exec (.dieQuiescent _)
  | recordFree d r => exact h.exec (.taskRecordFree _ _)
  | copyStart d cl => exact h.exec (.copyStart _ _)
  | copyWrite d id => exact h.exec (.copyGranuleWrite _ _)
  | copyDone d id => exact h.exec (.copyComplete _ _)
  | hpourStart d id => exact h.exec (.hpourStart _ _)
  | hpourStaged d id => exact h.exec (.hpourStaged _ _)
  | fill d => exact h.exec (.scheduleFill _)
  | reassign d => exact h.exec (.reassignmentComplete _)
  | pts p => exact h.exec (.ptsTick _)
  | request id =>
    dsimp only [Machine.runDue]
    split
    · exact h.requestStep _
    · exact .next h
  | lease n oid => exact h.exec (.leaseExpiry _ _)
  | ringSlot d slot => exact h.exec (.ringSlotArrival _ _)
  | adoptPort p i => exact h.adoptStep _ _
  | adoptNode n => exact h.adoptStep _ _
  | retune p i f => exact h.exec (.retuneComplete _ _)
  | retrain l => exact h.exec (.retrainDone _ _)
  | pkgReset p => exact h.exec (.packageReset _)

theorem takeTurn (h : MemOk s) (u : Turn) : OutOk (takeTurn u s) := by
  cases u with
  | engine c e => exact MemOk.engineStep (by exact h)
  | event i => exact h.exec i
  | due u => exact h.runDue u

theorem step (h : MemOk s) : OutOk (step s) := by
  unfold Machine.step
  split
  · unfold idleStep
    exact .ite (h.exec (.packageReset _)) h.engineStep
  · exact MemOk.takeTurn (by exact h) _

end MemOk

/-- Lists of bytes with rising addresses and nothing unlisted in them are equal where they read alike. -/
theorem Memory.ext_of_rising {m n : Memory} {k : Nat} (hm : risingFrom k m = true) (hn : risingFrom k n = true)
    (am : m.all (fun c => c.2 != Config.unlistedByte) = true) (an : n.all (fun c => c.2 != Config.unlistedByte) = true)
    (h : ∀ a, Memory.byte m a = Memory.byte n a) : m = n := by
  have below {l : Memory} {i j : Nat} (hl : risingFrom j l = true) (hj : i < j) : Memory.byte l i = Config.unlistedByte := by
    rw [Memory.byte, lookup, find?_below hl hj]
  have listed {l : Memory} {i : Nat} {x : Byte} : Memory.byte ((i, x) :: l) i = x := by simp [Memory.byte, lookup, find?]
  have tail {l : Memory} {i j : Nat} {x : Byte} (hj : ¬ i = j) : Memory.byte ((i, x) :: l) j = Memory.byte l j := by
    simp [Memory.byte, lookup, find?, hj]
  induction m generalizing n k with
  | nil =>
    cases n with
    | nil => rfl
    | cons f r =>
      obtain ⟨j, y⟩ := f
      simp only [List.all_cons, Bool.and_eq_true, bne_iff_ne] at an
      exact absurd ((h j).symm.trans rfl) (by rw [listed]; exact an.1)
  | cons e l ih =>
    obtain ⟨i, x⟩ := e
    simp only [List.all_cons, Bool.and_eq_true, bne_iff_ne] at am
    simp only [risingFrom, Bool.and_eq_true, decide_eq_true_eq] at hm
    cases n with
    | nil => exact absurd (h i) (by rw [listed]; exact am.1)
    | cons f r =>
      obtain ⟨j, y⟩ := f
      simp only [List.all_cons, Bool.and_eq_true, bne_iff_ne] at an
      simp only [risingFrom, Bool.and_eq_true, decide_eq_true_eq] at hn
      have hij : i = j := by
        rcases Nat.lt_trichotomy i j with hlt | heq | hlt
        · have hi := h i
          rw [listed, tail (by omega), below hn.2 (by omega)] at hi
          exact absurd hi am.1
        · exact heq
        · have hj := h j
          rw [listed, tail (by omega), below hm.2 (by omega)] at hj
          exact absurd hj.symm an.1
      subst hij
      have hx : x = y := by simpa [listed] using h i
      subst hx
      refine congrArg _ (ih hm.2 hn.2 am.2 an.2 fun a => ?_)
      by_cases ha : i = a
      · subst ha; rw [below hm.2 (by omega), below hn.2 (by omega)]
      · have hb := h a
        rwa [tail ha, tail ha] at hb

/-- Settles O7: every function that a step calls leaves memory in the form, the stores of bytes by `Memory.write_wf`; two lists in the
form that read alike are compared from their lowest address on. -/
theorem stepsKeepMemoryForm : Obligations.StepsKeepMemoryForm := by
  unfold Obligations.StepsKeepMemoryForm
  refine ⟨fun s t h ht => h.step.keeps t ht, fun m n hm hn h => ?_⟩
  unfold Memory.wf at hm hn
  rw [Bool.and_eq_true] at hm hn
  exact Memory.ext_of_rising hm.1 hn.1 hm.2 hn.2 h

end Sys2Proof.Machine

namespace Sys2Proof.Machine
open Sys2Proof

/-! Memory and registers read back what was written (R80, R268). -/

/-- A byte stored from a list is read at its place. -/
theorem Memory.byte_write_in (m : Memory) (a : Nat) (bs : List Byte) (k : Nat) (hk : k < bs.length) :
    Memory.byte (Memory.write m a bs) (a + k) = bs.getD k 0 := by
  induction bs generalizing m a k with
  | nil => exact absurd hk (Nat.not_lt_zero k)
  | cons b bs ih =>
    cases k with
    | zero => rw [Memory.write, Memory.byte_write_out _ _ _ _ (by omega), Memory.byte_setByte, if_pos (Nat.add_zero a), List.getD_cons_zero]
    | succ k =>
      rw [Memory.write, show a + (k + 1) = a + 1 + k by omega, ih _ _ _ (by simpa using hk), List.getD_cons_succ]

/-- Bytes that memory holds one by one are what it reads. -/
theorem Memory.read_of_bytes {m : Memory} {a : Nat} {bs : List Byte} (h : ∀ k, k < bs.length → Memory.byte m (a + k) = bs.getD k 0) :
    Memory.read m a bs.length = bs := by
  induction bs generalizing a with
  | nil => rfl
  | cons b bs ih =>
    have h0 := h 0 (Nat.succ_pos _)
    have hs : Memory.read m (a + 1) bs.length = bs := ih fun k hk => by
      have hk1 := h (k + 1) (by simpa using hk)
      rwa [List.getD_cons_succ, show a + (k + 1) = a + 1 + k by omega] at hk1
    rw [List.length_cons, Memory.read, hs]
    exact congrArg (· :: bs) h0

/-- A byte after a run of zeros has been stored. -/
theorem Memory.byte_write_zeros (m : Memory) (a n x : Nat) :
    Memory.byte (Memory.write m a (List.replicate n 0)) x = if a ≤ x ∧ x < a + n then 0 else Memory.byte m x := by
  split
  next hx =>
    have hb := Memory.byte_write_in m a (List.replicate n 0) (x - a) (by simp; omega)
    rw [show a + (x - a) = x by omega] at hb
    rw [hb, List.getD_eq_getElem?_getD, List.getElem?_replicate, if_pos (by omega)]
    rfl
  next hx => exact Memory.byte_write_out _ _ _ _ (by rw [List.length_replicate]; omega)

/-! Granules (R268). -/

section
variable {s : State} {h : Heat} {a : Nat} {bs : List Byte}

/-- What a granule's write leaves: the bytes, the tag, no error, and all else as it was. -/
structure GranuleWritten (s : State) (h : Heat) (a : Nat) (bs : List Byte) (t : State) : Prop where
  tag : lookup 0 t.heats (a / 32) = h
  tags : ∀ j, j ≠ a / 32 → lookup 0 t.heats j = lookup 0 s.heats j
  good : t.eccBad.contains (a / 32) = false
  form : MemOk s → MemOk t
  bytes : ∀ k, k < bs.length → Memory.byte t.mem (a + k) = bs.getD k 0
  others : a % 32 + bs.length ≤ 32 → ∀ x, (x < a ∨ a + bs.length ≤ x) →
    Memory.byte t.mem x = if x / 32 = a / 32 ∧ lookup 0 s.heats (a / 32) ≠ h then 0 else Memory.byte s.mem x
  rest : { t with mem := s.mem, heats := s.heats, eccBad := s.eccBad, eccOne := s.eccOne } = s

theorem contains_filter_ne (l : List Nat) (g : Nat) : (l.filter (· != g)).contains g = false := by simp

/-- A granule under another heat is turned over to the writer's. -/
theorem writeVault_turns (ht : lookup 0 s.heats (a / 32) ≠ h) : ∃ t, writeVault s h a bs = .ok t ∧ GranuleWritten s h a bs t := by
  refine ⟨_, by rw [writeVault]; exact if_pos ht, ?_⟩
  refine ⟨lookup_insertAt_self .., fun j hj => lookup_insertAt_ne _ _ _ hj, contains_filter_ne .., fun hm => ?_, fun k hk => ?_, fun hn x hx => ?_, rfl⟩
  · exact Memory.write_wf (Memory.write_wf hm _ _) _ _
  · exact Memory.byte_write_in _ _ _ _ hk
  · dsimp only
    rw [Memory.byte_write_out _ _ _ _ hx, Memory.byte_write_zeros]
    by_cases hg : x / 32 = a / 32
    · rw [if_pos (by omega), if_pos ⟨hg, ht⟩]
    · rw [if_neg (by omega), if_neg fun hb => hg hb.1]

/-- A granule under the writer's heat takes the bytes alone. -/
theorem writeVault_keeps (ht : lookup 0 s.heats (a / 32) = h) (he : ¬ (bs.length < 32 ∧ s.eccBad.contains (a / 32) = true)) :
    ∃ t, writeVault s h a bs = .ok t ∧ GranuleWritten s h a bs t := by
  refine ⟨_, by rw [writeVault]; exact (if_neg (not_not_intro ht)).trans (if_neg he), ?_⟩
  refine ⟨ht, fun j _ => rfl, contains_filter_ne .., fun hm => Memory.write_wf hm _ _, fun k hk => Memory.byte_write_in _ _ _ _ hk,
    fun _ x hx => ?_, rfl⟩
  rw [if_neg fun hb => hb.2 ht]
  exact Memory.byte_write_out _ _ _ _ hx

end

/-! Registers (R79, R80). -/

section
variable {α : Type} (h g : Heat) (z x : α) (m : SMap (Tagged α)) (k j : Nat)

theorem readTag_writeTag_self : readTag h z (writeTag h m k x) k = x := by simp [readTag, writeTag]

theorem readTag_writeTag_stale (hg : g ≠ h) : readTag g z (writeTag h m k x) k = z := by simp [readTag, writeTag, Ne.symm hg]

theorem readTag_writeTag_ne (hj : j ≠ k) : readTag g z (writeTag h m k x) j = readTag g z m j := by
  simp only [readTag, writeTag, find?_insertAt_ne m _ hj]

end

/-- The sum of 3 at every two-bit place of the lanes of a list. -/
def lanePairs (l : List Nat) : Nat := l.foldl (fun a n => a + 3 * 4 ^ n) 0

/-- Both bits of a place are those of its lane. -/
theorem testBit_lanePairs (p : Nat → Bool) (n j b : Nat) (hb : b < 2) :
    lanePairs ((List.range n).filter p) < 2 ^ (2 * n)
    ∧ (lanePairs ((List.range n).filter p)).testBit (2 * j + b) = (decide (j < n) && p j) := by
  induction n with
  | zero => simp [lanePairs]
  | succ n ih =>
    obtain ⟨hlt, hbit⟩ := ih
    have hs : lanePairs ((List.range (n + 1)).filter p)
        = 2 ^ (2 * n) * (if p n then 3 else 0) + lanePairs ((List.range n).filter p) := by
      have h4 : 4 ^ n = 2 ^ (2 * n) := by rw [Nat.pow_mul]
      cases hp : p n <;> simp [List.range_succ, List.filter_append, lanePairs, hp, h4]
      omega
    have hp2 : 2 ^ (2 * (n + 1)) = 2 ^ (2 * n) * 4 := by rw [Nat.mul_add, Nat.pow_add]
    rw [hs, Nat.testBit_two_pow_mul_add _ hlt, hbit, hp2]
    refine ⟨by split <;> omega, ?_⟩
    by_cases hj : j < n
    · rw [if_pos (by omega)]
      simp [hj, Nat.lt_succ_of_lt hj]
    · rw [if_neg (by omega)]
      by_cases he : j = n
      · subst he
        rw [show 2 * j + b - 2 * j = b by omega]
        cases p j <;> simp
        have : b = 0 ∨ b = 1 := by omega
        rcases this with rfl | rfl <;> rfl
      · have hbig : 2 ≤ 2 * j + b - 2 * n := by omega
        obtain ⟨i, hi⟩ := Nat.exists_eq_add_of_le hbig
        have : ¬ j < n + 1 := by omega
        rw [hi]
        simp only [this, decide_false, Bool.false_and]
        apply Nat.testBit_lt_two_pow
        calc (if p n then 3 else 0) < 2 ^ 2 := by split <;> decide
          _ ≤ 2 ^ (2 + i) := Nat.pow_le_pow_right (by decide) (by omega)

/-- The code of a place after a write of the places that a set of lanes covers. -/
theorem rowCode_mix (cols : BitVec 128) (x y : BitVec 256) {j : Nat} (hj : j < 128) :
    rowCode ((x &&& BitVec.ofNat 256 (lanePairs (setLanes cols))) ||| (y &&& ~~~BitVec.ofNat 256 (lanePairs (setLanes cols)))) j
      = rowCode (if cols.getLsbD j then x else y) j := by
  refine BitVec.eq_of_getLsbD_eq fun b hb => ?_
  have hbit := (testBit_lanePairs cols.getLsbD 128 j b hb).2
  rw [← setLanes] at hbit
  have hi : 2 * j + b < 256 := by omega
  simp only [rowCode, BitVec.getLsbD_extractLsb', hb, BitVec.getLsbD_or, BitVec.getLsbD_and, BitVec.getLsbD_not, BitVec.getLsbD_ofNat,
    hi, hbit, hj, decide_true, Bool.true_and]
  cases cols.getLsbD j <;> simp

section
variable {c : Cell} {l : Landing} {cols : BitVec 128} {rows : List (BitVec 256)} {plane : Nat}

/-- A landing in the B buffer writes it under the cell's heat. -/
theorem applyLanding_bbuf (hl : l.what = .bbuf cols rows plane) :
    (applyLanding l c).heat = c.heat ∧ (applyLanding l c).bbuf.heat = c.heat ∧ (applyLanding l c).bbuf.val.plane = plane
    ∧ ∀ i j, i < 64 → j < 128 → rowCode (lookup 0 (applyLanding l c).bbuf.val.rows i) j
        = rowCode (if cols.getLsbD j then rows.getD i 0 else lookup 0 c.bBuffer.rows i) j := by
  unfold applyLanding
  rw [hl]
  refine ⟨rfl, rfl, rfl, fun i j hi hj => ?_⟩
  dsimp only
  rw [lookup, find?_map_pair _ (List.mem_range.2 hi)]
  exact rowCode_mix cols _ _ hj

end

/-- The write of a b-register leaves every other b-register of the cell. -/
theorem readB_writeB_other (c : Cell) (e g : Engine) {q r : Nat} (v : Word) (h : q ≠ r ∨ g ≠ e) : (c.writeB e r v).readB g q = c.readB g q := by
  by_cases hg : g = e
  · subst hg
    have hq : q ≠ r := h.resolve_right (not_not_intro rfl)
    cases g <;> exact readTag_writeTag_ne _ _ _ _ _ _ _ hq
  · have keep : (c.writeB e r v).engine g = c.engine g := by
      cases e with
      | A => cases g with
        | A => exact absurd rfl hg
        | V => rfl
        | M => rfl
      | V => cases g with
        | A => rfl
        | V => exact absurd rfl hg
        | M => rfl
      | M => cases g with
        | A => rfl
        | V => rfl
        | M => exact absurd rfl hg
    have heat : (c.writeB e r v).heat = c.heat := by cases e <;> rfl
    rw [Cell.readB, keep, heat]
    rfl

/-- Settles O8: bytes, granules and registers are each read back from the list that the write left. -/
theorem storageReadsBackUnderItsHeat : Obligations.StorageReadsBackUnderItsHeat := by
  unfold Obligations.StorageReadsBackUnderItsHeat
  refine ⟨fun m a bs => ?_, fun s h trap a n bs hm hn hl => ?_, fun c h r q v b k x t hh => ?_, fun c v b lanes bits => ?_⟩
  · exact ⟨fun hm => Memory.write_wf hm a bs, fun k hk => Memory.byte_write_in m a bs k hk, fun b hb => Memory.byte_write_out m a bs b hb,
      Memory.read_of_bytes fun k hk => Memory.byte_write_in m a bs k hk⟩
  · subst hl
    refine ⟨fun ht => by rw [readVault]; exact if_pos ht, fun ht => by rw [readVault]; exact if_neg (not_not_intro ht),
      fun ht hs he => by rw [writeVault]; exact (if_neg (not_not_intro ht)).trans (if_pos ⟨hs, he⟩), fun hno => ?_⟩
    have hw : ∃ t, writeVault s h a bs = .ok t ∧ GranuleWritten s h a bs t := by
      by_cases ht : lookup 0 s.heats (a / 32) = h
      · exact writeVault_keeps ht fun hb => hno ⟨ht, hb⟩
      · exact writeVault_turns ht
    obtain ⟨t, hw, g⟩ := hw
    exact ⟨t, hw, g.tag, g.tags, g.good, g.form hm, g.bytes, g.others hn, g.rest⟩
  · refine ⟨fun hr => ?_, readTag_writeTag_self .., readTag_writeTag_stale _ _ _ _ _ _ hh, readTag_writeTag_self ..,
      readTag_writeTag_stale _ _ _ _ _ _ hh, readTag_writeTag_self .., readTag_writeTag_stale _ _ _ _ _ _ hh, fun e g => ?_,
      fun lanes bits xs => ⟨fun i hi => ?_, fun hr => ?_, fun hq => ?_⟩, fun hq => ?_, fun l cols rows plane hl => ?_⟩
    · simp only [Cell.readA, Cell.writeA, Cell.readP, Cell.writeP, if_neg hr]
      exact ⟨readTag_writeTag_self .., readTag_writeTag_stale _ _ _ _ _ _ hh, readTag_writeTag_self .., readTag_writeTag_stale _ _ _ _ _ _ hh⟩
    · refine ⟨?_, ?_, fun hne => ?_⟩
      · cases e <;> exact readTag_writeTag_self ..
      · cases e <;> exact readTag_writeTag_stale _ _ _ _ _ _ hh
      · exact readB_writeB_other c e g v hne
    · simp only [Cell.readV, Cell.writeV, readTag_writeTag_self, readTag_writeTag_stale _ _ _ _ _ _ hh, laneOf_range _ hi, true_and]
      rfl
    · simp only [Cell.readM, Cell.writeM, if_neg hr]
      exact ⟨readTag_writeTag_self .., readTag_writeTag_stale _ _ _ _ _ _ hh⟩
    · refine ⟨readTag_writeTag_ne _ _ _ _ _ _ _ hq, ?_⟩
      unfold Cell.writeM
      split
      · rfl
      · simp only [Cell.readM, readTag_writeTag_ne _ _ _ _ _ _ _ hq]
    · refine ⟨?_, ?_, readTag_writeTag_ne _ _ _ _ _ _ _ hq, readTag_writeTag_ne _ _ _ _ _ _ _ hq, readTag_writeTag_ne _ _ _ _ _ _ _ hq⟩
      · unfold Cell.writeA
        split
        · rfl
        · simp only [Cell.readA, readTag_writeTag_ne _ _ _ _ _ _ _ hq]
      · unfold Cell.writeP
        split
        · rfl
        · simp only [Cell.readP, readTag_writeTag_ne _ _ _ _ _ _ _ hq]
    · obtain ⟨hheat, hb, hp, hrows⟩ := applyLanding_bbuf (c := c) hl
      have hself : (applyLanding l c).bBuffer = (applyLanding l c).bbuf.val := if_pos (hb.trans hheat.symm)
      dsimp only
      rw [hself]
      exact ⟨hp, if_neg (by rw [hb]; exact Ne.symm hh), hrows⟩
  · exact ⟨rfl, rfl, rfl, rfl, rfl, rfl⟩

end Sys2Proof.Machine

namespace Sys2Proof.Machine
open Sys2Proof

/-! Scalar accesses (R284 to R286, R108): with the address a multiple of the size and room for the operation, the word is its access. -/

section
variable {i : Instr} {info : AInfo} {s : State} {body : State → Res} (ready : WordReady i info body s) {kind : OpKind} {w : Word} {n : Nat}
  {need : Need} {win : Bool} {mark : Cell → Cell}
include ready

/-- A word whose effect is the access of one element leaves or stops at it. -/
theorem WordReady.leavesAlone (hb : body s = issueAccess s win [.plain kind w n need] (fun t => t.upd mark))
    (sites : List (Option Site)) (tlb : List TlbEntry) :
    (MayAccess s win [.plain kind w n need] sites tlb → ∃ u, Issues i s u ∧ Sent [.plain kind w n need] sites tlb mark s u)
    ∧ Stops i s s win [.plain kind w n need] mark id :=
  ready.leavesOrStops (f := id) (done := id) (.inr (by exact Nat.le_refl 1)) (.of_eq hb) sites tlb

/-- The same where the cell is marked no further. -/
theorem WordReady.leavesUnmarked (hb : body s = issueAccess s win [.plain kind w n need] id) (sites : List (Option Site)) (tlb : List TlbEntry) :
    (MayAccess s win [.plain kind w n need] sites tlb → ∃ u, Issues i s u ∧ Sent [.plain kind w n need] sites tlb id s u)
    ∧ Stops i s s win [.plain kind w n need] id id := by
  refine ⟨fun h => ?leaves, ?stops⟩
  case leaves =>
    obtain ⟨t, ht, hs⟩ := issueAccess_go (.inr (by exact Nat.le_refl 1)) h id
    exact ⟨t, ready.issues (hb.trans ht), hs⟩
  case stops =>
    rintro ha ho pre post q sites tlb hq h
    rw [hq] at ha ho hb ⊢
    have hpre : win = false ∨ pre = [] := .inr (by cases pre with | nil => rfl | cons x xs => cases xs <;> cases hq)
    refine ⟨fun code v hf => ready.traps (hb.trans (issueAccess_refused ha ho h hf)), fun hm => ?_⟩
    obtain ⟨t, ht, hs⟩ := issueAccess_held ha ho h hpre hm
    obtain ⟨v, issued, held⟩ := aWord_hold ready.go (hb.trans ht)
    rw [ready.info] at issued
    rw [← ready.exec] at held
    exact ⟨t, v, hs, issued, held⟩

end

/-- An access to an address that does not exist raises ALIGN there, whatever its own checks say. -/
theorem issueAccess_badAddr {s : State} {win : Bool} {q : Part} {done : State → State} (h : addrOk q.addr = false) :
    issueAccess s win [q] done = .trap .align q.addr := by
  simp [issueAccess, h]

section
variable {kind : OpKind} {n : Nat} {w : Word} {s : State} (mark : Cell → Cell) (data : List Byte) (h0 : w.toNat % n = 0)
include h0

theorem loadBody_access (hl : s.cur.loads < 16) :
    loadBody kind n w mark s = issueAccess s (n == 8) [.plain kind w n .rd] (fun t => t.upd mark) := by
  cases ha : addrOk w with
  | true => exact loadBody_go mark h0 ha hl
  | false => rw [loadBody_bad (.inr ha)]; exact (issueAccess_badAddr (q := .plain kind w n .rd) ha).symm

theorem storeBody_access (hl : s.cur.stores < 64) :
    storeBody data n w s = issueAccess s (n == 8) [.plain (.store data 64) w n .wr] id := by
  cases ha : addrOk w with
  | true => exact storeBody_go h0 ha hl
  | false => rw [storeBody_bad (.inr ha)]; exact (issueAccess_badAddr (q := .plain (.store data 64) w n .wr) ha).symm

end

/-- The effect of a local atomic (R286). -/
def atomBody (op : RmwOp) (n : Nat) (t s d : BitVec 5) (st : State) : Res :=
  if (st.cur.readA s.toNat).toNat % n ≠ 0 ∨ !addrOk (st.cur.readA s.toNat) then .trap .align (st.cur.readA s.toNat)
  else if 16 ≤ st.cur.loads then .stay .external st
  else issueAccess st false [.plain (.rmw op d (st.cur.readA t.toNat) (st.cur.readA d.toNat)) (st.cur.readA s.toNat) n .atom]
    (fun u => u.upd (fun c => c.pend d.toNat))

theorem atomWord_eq (op : RmwOp) (p : BitVec 4) (n : Nat) (t s d : BitVec 5) (st : State) :
    atomWord op p n t s d st = aWord { pg := p, aregs := [s.toNat, t.toNat, d.toNat], access := true } (atomBody op n t s d) st := rfl

section
variable {op : RmwOp} {n : Nat} {t s d : BitVec 5} {st : State}

theorem atomBody_access (h0 : (st.cur.readA s.toNat).toNat % n = 0) (hl : st.cur.loads < 16) :
    atomBody op n t s d st = issueAccess st false
      [.plain (.rmw op d (st.cur.readA t.toNat) (st.cur.readA d.toNat)) (st.cur.readA s.toNat) n .atom] (fun u => u.upd (fun c => c.pend d.toNat)) := by
  cases ha : addrOk (st.cur.readA s.toNat) with
  | true => simp [atomBody, h0, ha, Nat.not_le.2 hl]
  | false =>
    rw [issueAccess_badAddr (q := .plain _ (st.cur.readA s.toNat) n .atom) ha, atomBody, if_pos (.inr (by rw [ha]; rfl))]
    rfl

theorem atomBody_bad (h : (st.cur.readA s.toNat).toNat % n ≠ 0 ∨ addrOk (st.cur.readA s.toNat) = false) :
    atomBody op n t s d st = .trap .align (st.cur.readA s.toNat) := by
  rw [atomBody, if_pos]
  simpa using h

end

/-! The checks at issue (R260 to R262, R268, R275, R343). -/

section
variable {s : State} {tlb : List TlbEntry} {w : Word} {n : Nat} {need : Need} {win : Bool} (ha : addrOk w = true)
include ha

theorem checkAt_elsewhere (hl : isLocal s.me w = false) : checkAt s s.me tlb w n need win = .ok none tlb := by
  simp [checkAt, ha, hl]

variable (hl : isLocal s.me w = true)
include hl

theorem checkAt_window (hw : inWindow w = true) : checkAt s s.me tlb w n need win =
    if isCmd s.me = true ∧ win = true ∧ (windowLoad s s.myDie (wf64 w 47 0)).isSome = true then .ok (some ⟨w.toNat, none⟩) tlb else .fault .perm w := by
  have hd : homeDie w = s.myDie := beq_iff_eq.1 hl
  simp [checkAt, ha, hl, hw, hd, and_assoc]

theorem checkAt_paged (hv : aVault w = false) (hw : inWindow w = false) : checkAt s s.me tlb w n need win =
    match translate s s.myDie tlb (aOff w) need with
    | none => .miss
    | some (a, t) => .ok (some ⟨a, none⟩) t := by
  simp [checkAt, ha, hl, hw, hv, State.myDie] <;> rfl

theorem checkAt_vault (hv : aVault w = true) : checkAt s s.me tlb w n need win =
    match vaultCheck s w need with
    | .error e => .fault e w
    | .ok r =>
      match granuleFault s r w n need with
      | some e => .fault e (faultAddr e w)
      | none => .ok (some ⟨w.toNat, some r.heat⟩) tlb := by
  simp [checkAt, ha, hl, inWindow, hv] <;> rfl

end

/-- The rights that an access of a vault region needs (R262). -/
def VaultAllows (w : Word) (need : Need) (r : Region) : Prop :=
  vaultOf w < 144 ∧ r.stow = false ∧ (need ≠ .wr → r.rd = true) ∧ (need ≠ .rd → r.wr = true) ∧ (need = .atom → r.atom = true)

theorem grants_iff (r : Region) (need : Need) :
    r.grants need = true ↔ (need ≠ .wr → r.rd = true) ∧ (need ≠ .rd → r.wr = true) ∧ (need = .atom → r.atom = true) := by
  cases need <;> simp [Region.grants, and_assoc]

section
variable {s : State} {w : Word} {need : Need} {k : Nat} {r : Region}

theorem vaultCheck_nowhere (h : regionAt (s.die (homeDie w)) (vaultOf w) (vaultByte w) = none) : vaultCheck s w need = .error .perm := by
  simp [vaultCheck, h]

theorem vaultCheck_in (h : regionAt (s.die (homeDie w)) (vaultOf w) (vaultByte w) = some (k, r)) :
    (VaultAllows w need r → vaultCheck s w need = .ok r) ∧ (¬ VaultAllows w need r → vaultCheck s w need = .error .perm) := by
  have hiff : VaultAllows w need r ↔ ¬ (144 ≤ vaultOf w ∨ r.stow = true ∨ (!r.grants need) = true) := by
    rw [VaultAllows, ← grants_iff]
    cases r.stow <;> cases r.grants need <;> simp
  rw [hiff, not_not]
  simp only [vaultCheck, h]
  exact ⟨fun hn => if_neg hn, fun hp => if_pos hp⟩

theorem regionAt_none (D : Die) (v b : Nat)
    (h : ∀ e ∈ D.regions, e.1 / 64 = v → e.2.base * 1024 ≤ b → (e.2.base + e.2.size) * 1024 ≤ b) : regionAt D v b = none := by
  rw [regionAt, List.find?_eq_none]
  intro e he
  simp only [Bool.and_eq_true, beq_iff_eq, decide_eq_true_eq]
  exact fun hb => Nat.not_lt.2 (h e he hb.1.1 hb.1.2) hb.2

/-! What a granule of an allowed region says (R262, R268). -/

section
variable {n : Nat}

theorem granuleFault_traps (ht : lookup 0 s.heats (w.toNat / 32) ≠ r.heat) (hm : r.mode = true) (hn : need ≠ .wr) :
    granuleFault s r w n need = some .heattrap := by
  have hs := bne_iff_ne.2 ht
  have hw := bne_iff_ne.2 hn
  simp only [granuleFault, hs, hm, hw, if_true, Bool.and_self]

theorem granuleFault_stale (ht : lookup 0 s.heats (w.toNat / 32) ≠ r.heat) (hm : r.mode = false ∨ need = .wr) :
    granuleFault s r w n need = none := by
  have hs := bne_iff_ne.2 ht
  have hno : ¬ ((r.mode && need != .wr) = true) := by rcases hm with hm | hm <;> simp [hm]
  simp only [granuleFault, hs, if_true]
  exact if_neg hno

theorem granuleFault_ecc (ht : lookup 0 s.heats (w.toNat / 32) = r.heat)
    (hb : s.eccBad.contains (w.toNat / 32) = true ∧ (need ≠ .wr ∨ n < 32)) : granuleFault s r w n need = some .ecc := by
  simp only [granuleFault, ht, bne_self_eq_false, Bool.false_eq_true, if_false]
  exact if_pos (by simpa using hb)

theorem granuleFault_good (ht : lookup 0 s.heats (w.toNat / 32) = r.heat)
    (hb : ¬ (s.eccBad.contains (w.toNat / 32) = true ∧ (need ≠ .wr ∨ n < 32))) : granuleFault s r w n need = none := by
  simp only [granuleFault, ht, bne_self_eq_false, Bool.false_eq_true, if_false]
  exact if_neg (by simpa using hb)

end

end

/-- Settles O16: each word is the access of its one element, and an element's check is that of its place: another die, the window, a
vault region or a page. -/
theorem scalarAccessesLeaveTheCell : Obligations.ScalarAccessesLeaveTheCell := by
  unfold Obligations.ScalarAccessesLeaveTheCell
  refine ⟨fun p s d t st sites tlb => ?leaves, fun p s d t st => ?traps, fun s tlb w n need win ha => ?checks⟩
  case leaves =>
    intro a leaves
    refine ⟨fun i z g => ?_, fun k g => ?_, fun z g hl => ?_⟩
    · intro n w
      have load : WordReady (.ld p i z s d) _ _ st := ⟨g, rfl, rfl, rfl, rfl⟩
      have store : WordReady (.st p i z s d) _ _ st := ⟨g, rfl, rfl, rfl, rfl⟩
      exact ⟨fun hl h0 => load.leavesAlone (loadBody_access _ h0 hl) sites tlb,
        fun hl h0 => store.leavesUnmarked (storeBody_access _ h0 hl) sites tlb⟩
    · intro c
      have load : WordReady (.kld p s k) _ _ st := ⟨g, rfl, rfl, rfl, rfl⟩
      have store : WordReady (.kst p s k) _ _ st := ⟨g, rfl, rfl, rfl, rfl⟩
      refine ⟨fun hl h0 => load.leavesAlone (loadBody_access _ h0 hl) sites tlb, fun hl hc h0 => ?_, fun hc hr => store.traps ?_⟩
      · refine store.leavesUnmarked ((if_neg ?_).trans (storeBody_access _ h0 hl)) sites tlb
        rcases hc with hc | hc
        · exact fun hb => hb.1 hc
        · exact fun hb => absurd hb.2 (by rw [hc]; exact Bool.false_ne_true)
      · exact if_pos ⟨hc, by rw [hr]; rfl⟩
    · intro atom n
      have leaves {i : Instr} {op : RmwOp} {n : Nat} (ready : WordReady i { pg := p, aregs := [s.toNat, t.toNat, d.toNat], access := true } (atomBody op n t s d) st) : atom i op n :=
        fun h0 => ready.leavesAlone (atomBody_access h0 hl) sites tlb
      exact ⟨leaves ⟨g, rfl, rfl, rfl, rfl⟩, leaves ⟨g, rfl, rfl, rfl, rfl⟩, leaves ⟨g, rfl, rfl, rfl, rfl⟩, leaves ⟨g, rfl, rfl, rfl, rfl⟩,
        leaves ⟨g, rfl, rfl, rfl, rfl⟩, leaves ⟨g, rfl, rfl, rfl, rfl⟩, leaves ⟨g, rfl, rfl, rfl, rfl⟩, leaves ⟨g, rfl, rfl, rfl, rfl⟩,
        leaves ⟨g, rfl, rfl, rfl, rfl⟩, leaves ⟨g, rfl, rfl, rfl, rfl⟩, leaves ⟨g, rfl, rfl, rfl, rfl⟩⟩
  case traps =>
    intro a bad
    refine ⟨fun i z g => ?_, fun k g hb => ?_, fun z g => ?_⟩
    · intro w hb
      have load : WordReady (.ld p i z s d) _ _ st := ⟨g, rfl, rfl, rfl, rfl⟩
      have store : WordReady (.st p i z s d) _ _ st := ⟨g, rfl, rfl, rfl, rfl⟩
      exact ⟨load.traps (loadBody_bad hb), store.traps (storeBody_bad hb)⟩
    · have load : WordReady (.kld p s k) _ _ st := ⟨g, rfl, rfl, rfl, rfl⟩
      have store : WordReady (.kst p s k) _ _ st := ⟨g, rfl, rfl, rfl, rfl⟩
      refine ⟨load.traps (loadBody_bad hb), fun hc => store.traps ((if_neg ?_).trans (storeBody_bad hb))⟩
      rcases hc with hc | hc
      · exact fun hb => hb.1 hc
      · exact fun hb => absurd hb.2 (by rw [hc]; exact Bool.false_ne_true)
    · intro traps n
      have bad {i : Instr} {op : RmwOp} {n : Nat} (ready : WordReady i { pg := p, aregs := [s.toNat, t.toNat, d.toNat], access := true } (atomBody op n t s d) st) : traps i n :=
        fun hb => ready.traps (atomBody_bad hb)
      exact ⟨bad (op := .add) ⟨g, rfl, rfl, rfl, rfl⟩, bad (op := .and) ⟨g, rfl, rfl, rfl, rfl⟩, bad (op := .or) ⟨g, rfl, rfl, rfl, rfl⟩,
        bad (op := .xor) ⟨g, rfl, rfl, rfl, rfl⟩, bad (op := .min) ⟨g, rfl, rfl, rfl, rfl⟩, bad (op := .max) ⟨g, rfl, rfl, rfl, rfl⟩,
        bad (op := .minn) ⟨g, rfl, rfl, rfl, rfl⟩, bad (op := .maxn) ⟨g, rfl, rfl, rfl, rfl⟩, bad (op := .swap) ⟨g, rfl, rfl, rfl, rfl⟩,
        bad (op := .cas) ⟨g, rfl, rfl, rfl, rfl⟩, bad (op := .fadd) ⟨g, rfl, rfl, rfl, rfl⟩⟩
  case checks =>
    intro is D tag
    refine ⟨fun _ => rfl, fun hl => checkAt_elsewhere ha hl, fun hl => ⟨fun hw => ?_, fun hv => ?_, fun hv hw => ?_⟩⟩
    · intro word
      exact ⟨fun h => (checkAt_window ha hl hw).trans (if_pos h), fun h => (checkAt_window ha hl hw).trans (if_neg h)⟩
    · have hd : s.die (homeDie w) = D := congrArg s.die (beq_iff_eq.1 hl)
      have hcheck := checkAt_vault (s := s) (tlb := tlb) (n := n) (need := need) (win := win) ha hl hv
      refine ⟨fun hno => ?_, fun k r hr => ?_⟩
      · rw [vaultCheck_nowhere (by rw [hd]; exact regionAt_none _ _ _ hno)] at hcheck
        exact hcheck
      · intro allowed
        obtain ⟨hok, hnot⟩ := vaultCheck_in (need := need) (hd ▸ hr)
        have granule (h : allowed) {f : Option FaultCode} (hf : granuleFault s r w n need = f) :
            is (match (generalizing := false) f with | some e => .fault e (faultAddr e w) | none => .ok (some ⟨w.toNat, some r.heat⟩) tlb) := by
          rw [hok h] at hcheck
          simp only [hf] at hcheck
          exact hcheck
        exact ⟨fun h => by rw [hnot h] at hcheck; exact hcheck,
          fun h ht => ⟨fun hm hn => granule h (granuleFault_traps ht hm hn), fun hm => granule h (granuleFault_stale ht hm)⟩,
          fun h ht => ⟨fun hb => granule h (granuleFault_ecc ht hb), fun hb => granule h (granuleFault_good ht hb)⟩⟩
    · have hcheck := checkAt_paged (s := s) (tlb := tlb) (n := n) (need := need) (win := win) ha hl hv hw
      exact ⟨fun h => by rw [h] at hcheck; exact hcheck, fun a t h => by rw [h] at hcheck; exact hcheck⟩

end Sys2Proof.Machine

/-! The bytes at a home reach the register or the entry that waits for them (R284, R285, R108, R214). -/
namespace Sys2Proof.Machine
open Sys2Proof

/-! What a response does to one cell and to nothing else. -/

/-- State u is s with x as cell ix: memory and its heats, the other cells and the dies but for their counters are as they were. -/
structure OneCell (ix : Nat) (s : State) (x : Cell) (u : State) : Prop where
  mem   : u.mem = s.mem
  heats : u.heats = s.heats
  away  : ∀ j, j ≠ ix → u.cell j = s.cell j
  dies  : ∀ d, { u.die d with counters := (s.die d).counters } = s.die d
  cell  : u.cell ix = x

theorem OneCell.modCell (s : State) (ix : Nat) (f : Cell → Cell) : OneCell ix s (f (s.cell ix)) (s.modCell ix f) where
  mem := rfl
  heats := rfl
  away j hj := by rw [State.modCell_cell, if_neg hj]
  dies _ := rfl
  cell := State.modCell_cell_self s ix f

theorem OneCell.then_counts {ix : Nat} {s t u : State} {x : Cell} (h : OneCell ix s x t) (k : Counts t u) : OneCell ix s x u where
  mem := k.mem.trans h.mem
  heats := (congrArg State.heats k.rest :).trans h.heats
  away j hj := (k.cell j).trans (h.away j hj)
  dies d := by
    have a := h.dies d
    have b := k.dies d
    rw [← a, ← b]
  cell := (k.cell ix).trans h.cell

theorem OneCell.of_counts {ix : Nat} {s t u : State} {x : Cell} (k : Counts s t) (h : OneCell ix t x u) : OneCell ix s x u where
  mem := h.mem.trans k.mem
  heats := h.heats.trans (congrArg State.heats k.rest :)
  away j hj := (h.away j hj).trans (k.cell j)
  dies d := by
    have a := h.dies d
    have b := k.dies d
    rw [← b, ← a]
  cell := h.cell

/-- A second change of the same cell. -/
theorem OneCell.again {ix : Nat} {s t u : State} {x y : Cell} (h : OneCell ix s x t) (k : OneCell ix t y u) : OneCell ix s y u where
  mem := k.mem.trans h.mem
  heats := k.heats.trans h.heats
  away j hj := (k.away j hj).trans (h.away j hj)
  dies d := by
    have a := h.dies d
    have b := k.dies d
    rw [← a, ← b]
  cell := k.cell

/-- A packet given to a ring changes its package alone. -/
theorem OneCell.putSlot {ix : Nat} {s u : State} {x : Cell} (h : OneCell ix s x u) (pkg id src dst : Nat) :
    OneCell ix s x (putSlot u pkg id src dst) :=
  ⟨h.mem, h.heats, h.away, h.dies, h.cell⟩

/-- The strand of an operation that its own cell still holds is that cell. -/
theorem cellOfOp_here {s : State} {ix id : Nat} (h : ((s.cell ix).op? id).isSome = true) : cellOfOp s ix id = some ix := by
  simp [cellOfOp, h]

theorem onStrand_here {s : State} {ix id : Nat} (h : ((s.cell ix).op? id).isSome = true) (f : Cell → Cell) :
    onStrand s ix id f = s.modCell ix f := by
  rw [onStrand, cellOfOp_here h]

theorem countFill_counts (s : State) (ix : Nat) (c : Cell) (o : MemOp) : Counts s (countFill s ix c o) := by
  unfold countFill
  split
  · split
    · exact .refl s
    split
    · exact .count ..
    split
    · exact .refl s
    split <;> exact .count ..
  · exact .refl s

/-- A response that reaches a strand in its cell takes effect there. -/
theorem takeReply_here {s : State} {ix : Nat} {o : MemOp} (h : ((s.cell ix).op? o.id).isSome = true) (r : Reply) :
    OneCell ix s ((s.cell ix).take o s.cycle r) (takeReply s ix o r) := by
  have hc := OneCell.modCell s ix (fun c => c.take o s.cycle r)
  simp only [takeReply, onStrand_here h]
  split
  · exact hc.then_counts (countFill_counts ..)
  · exact hc

/-- The operation once its home has answered r and the answer is on its way back. -/
def sentBack (ix : Nat) (o : MemOp) (r : Reply) (y : MemOp) : MemOp :=
  { y with reply := some r, performed := true, leg := if o.homePkg = pkgOfCell ix then .returned else .back }

/-- What the answer of a home makes of the cell of a strand: the response is taken on the own die, else it starts back. -/
def Cell.answered (c : Cell) (ix : Nat) (o : MemOp) (cycle : Nat) (r : Reply) : Cell :=
  if isLocal ix o.addr then c.take o cycle r else c.modOp o.id (sentBack ix o r)

theorem sendReply_here {s : State} {ix : Nat} {o : MemOp} (h : ((s.cell ix).op? o.id).isSome = true) (r : Reply) :
    OneCell ix s ((s.cell ix).modOp o.id (sentBack ix o r)) (sendReply s ix o r false) := by
  simp only [sendReply, onOp, onStrand_here h, Bool.false_eq_true, if_false, Bool.false_or, beq_iff_eq]
  exact (OneCell.modCell s ix (fun c => c.modOp o.id (sentBack ix o r))).putSlot ..

theorem answerOp_here {s : State} {ix : Nat} {o : MemOp} (h : ((s.cell ix).op? o.id).isSome = true) (r : Reply) :
    OneCell ix s ((s.cell ix).answered ix o s.cycle r) (answerOp s ix o r) := by
  unfold answerOp Cell.answered
  split
  · exact takeReply_here h r
  · exact sendReply_here h r

/-! What may be performed is at its home and unanswered. -/

theorem mayPerform_atHome {s : State} {ix : Nat} {c : Cell} {o : MemOp} (h : mayPerform s ix c o = true) :
    atHome s ix o = true ∧ o.reply = none := by
  simp only [mayPerform, Bool.and_eq_true, Bool.not_eq_true', Option.isNone_iff_eq_none] at h
  obtain ⟨⟨⟨⟨⟨⟨⟨⟨-, hr⟩, -⟩, -⟩, ha⟩, -⟩, -⟩, -⟩, -⟩ := h
  exact ⟨ha, hr⟩

theorem op?_id {c : Cell} {id : Nat} {o : MemOp} (h : c.op? id = some o) : o.id = id := by
  simpa using List.find?_some h

section
variable {s : State} {ix id : Nat} {o : MemOp} (ho : (s.cell ix).op? id = some o)
include ho

theorem performRead_waits (hr : o.reply = none) (ha : atHome s ix o = true) (hm : mayPerform s ix (s.cell ix) o = false) :
    performRead s ix id = s := by
  simp [performRead, ho, hr, ha, hm]

theorem performRead_outside (hm : mayPerform s ix (s.cell ix) o = true) (hv : arrive s ix (s.cell ix) o = .outside) :
    performRead s ix id = answerOp s ix o .outside := by
  obtain ⟨ha, hr⟩ := mayPerform_atHome hm
  simp [performRead, ho, hr, ha, hm, hv]

theorem performRead_fault {e : FaultCode} {v : Word} (hm : mayPerform s ix (s.cell ix) o = true)
    (hv : arrive s ix (s.cell ix) o = .fault e v) (hn : (o.reissue && isLocal ix o.addr) = false) :
    performRead s ix id = answerOp s ix o (.refused e v) := by
  obtain ⟨ha, hr⟩ := mayPerform_atHome hm
  simp [performRead, ho, hr, ha, hm, hv, hn]

theorem performRead_data {p : Site} {tlb : List TlbEntry} {bs : List Byte} {t : State}
    (hm : mayPerform s ix (s.cell ix) o = true) (hv : arrive s ix (s.cell ix) o = .ok (some p) tlb)
    (hb : readHome s o p = .ok (bs, t)) :
    performRead s ix id =
      answerOp (t.modCell ix (fun c => { c with tlb := tlbAfter ix c o tlb })) ix o (.data bs (homeTime s o.addr)) := by
  obtain ⟨ha, hr⟩ := mayPerform_atHome hm
  simp [performRead, ho, hr, ha, hm, hv, hb]

theorem performRead_returns {r : Reply} (hr : o.reply = some r) (hl : o.leg = .returned)
    (hn : onRing s (pkgOfCell ix) id = false) : performRead s ix id = takeReply s ix o r := by
  simp [performRead, ho, hr, comeBack, hl, op?_id ho, hn]

end

theorem readHome_counts {s t : State} {o : MemOp} {p : Site} {bs : List Byte} (h : readHome s o p = .ok (bs, t)) :
    Counts s t := by
  unfold readHome at h
  split at h
  · cases h; exact .refl s
  · split at h
    · cases h
    · cases h; exact .noteEcc ..

/-- The two events that read for a cell. -/
theorem exec_read {cid : CellId} {id : Nat} {s : State} {o : MemOp} (ho : (s.cell (cellIx cid)).op? id = some o)
    (hk : isReg o.kind = true ∨ isFill o.kind = true) :
    exec (if isReg o.kind then .loadDataReturn cid id else .blockFill cid id) s = .next (performRead s (cellIx cid) id) := by
  by_cases hr : isReg o.kind = true
  · simp [hr, exec, execLoadDataReturn, opOfKind, ho]
  · have hf := hk.resolve_left hr
    cases hq : req? s id <;> simp [hr, exec, execBlockFill, ho, hf, hq]

/-! What a response leaves of its operation. -/

@[simp] theorem dropOp_op? (c : Cell) (id : Nat) : (c.dropOp id).op? id = none := by
  simp [Cell.dropOp, Cell.op?]

@[simp] theorem finishWord_ops (c : Cell) (w : Nat) : (c.finishWord w).ops = c.ops := by
  unfold Cell.finishWord
  split
  · rfl
  split <;> rfl

/-- A word that ends adds to the reports. -/
theorem mem_reports_finishWord {c : Cell} (w : Nat) {r : Report} (h : r ∈ c.reports) : r ∈ (c.finishWord w).reports := by
  unfold Cell.finishWord
  split
  · exact h
  split
  · exact List.mem_append_left _ h
  · exact h

theorem finishWord_queues (c : Cell) (w : Nat) : (c.finishWord w).queues = c.queues := by
  unfold Cell.finishWord
  split
  · rfl
  split <;> rfl

theorem finishWord_regs (c : Cell) (w : Nat) :
    (c.finishWord w).heat = c.heat ∧ (c.finishWord w).aregs = c.aregs ∧ (c.finishWord w).kregs = c.kregs := by
  unfold Cell.finishWord
  split
  · exact ⟨rfl, rfl, rfl⟩
  split <;> exact ⟨rfl, rfl, rfl⟩

@[simp] theorem leave_op? (c : Cell) (o : MemOp) (t : Nat) : (c.leave o t).op? o.id = none := by
  rw [Cell.op?, Cell.leave, finishWord_ops]; exact dropOp_op? c o.id

@[simp] theorem leave_queue (c : Cell) (o : MemOp) (t q : Nat) : (c.leave o t).queue q = c.queue q := by
  rw [Cell.queue, Cell.leave, finishWord_queues]; rfl

@[simp] theorem leave_readA (c : Cell) (o : MemOp) (t r : Nat) : (c.leave o t).readA r = c.readA r := by
  obtain ⟨h, a, -⟩ := finishWord_regs ((c.dropOp o.id).saw t) o.word
  rw [Cell.readA, Cell.leave, h, a]; rfl

@[simp] theorem leave_readK (c : Cell) (o : MemOp) (t k : Nat) : (c.leave o t).readK k = c.readK k := by
  obtain ⟨h, -, a⟩ := finishWord_regs ((c.dropOp o.id).saw t) o.word
  rw [Cell.readK, Cell.leave, h, a]; rfl

theorem Cell.readK_writeK_self (c : Cell) (k : Nat) (v : Cap) : (c.writeK k v).readK k = v := by
  simp [Cell.readK, Cell.writeK, readTag, writeTag]

/-! A block of an entry (R214). -/

theorem lookup_mapVals {α β : Type} (f : α → β) (d : α) (m : SMap α) (k : Nat) :
    lookup (f d) (mapVals f m) k = f (lookup d m k) := by
  induction m with
  | nil => rfl
  | cons e m ih =>
    obtain ⟨i, x⟩ := e
    by_cases h : i = k
    · simp [lookup, mapVals, find?, h]
    · simpa [lookup, mapVals, find?, h] using ih

theorem modEntry_queue (c : Cell) (e q : Nat) (f : QEntry → QEntry) :
    (c.modEntry e f).queue q = (c.queue q).map (fun x => if x.id = e then f x else x) :=
  lookup_mapVals (fun es : List QEntry => es.map (fun x : QEntry => if x.id = e then f x else x)) [] c.queues q

theorem getD_fitBytes (n : Nat) (bs : List Byte) {i : Nat} (hi : i < n) : (fitBytes n bs).getD i 0 = bs.getD i 0 := by
  simp only [fitBytes, List.getD_eq_getElem?_getD, List.getElem?_append, List.length_take, List.getElem?_take,
    List.getElem?_replicate]
  grind

theorem fitBytes_length (n : Nat) (bs : List Byte) : (fitBytes n bs).length = n := by
  simp only [fitBytes, List.length_append, List.length_take, List.length_replicate]
  omega

/-- Bytes written from an offset on, byte by byte. -/
theorem overlay_fitBytes (n off : Nat) (xs bs : List Byte) (h : off + bs.length ≤ n) :
    overlay (fitBytes n xs) off bs =
      (List.range n).map (fun i => if off ≤ i ∧ i < off + bs.length then bs.getD (i - off) 0 else xs.getD i 0) := by
  have hl := fitBytes_length n xs
  apply List.ext_getElem
  · simp only [overlay, List.length_append, List.length_take, List.length_drop, hl, List.length_map, List.length_range]
    omega
  intro i h1 h2
  have hi : i < n := by simpa using h2
  have hx := getD_fitBytes n xs hi
  simp only [List.getElem_map, List.getElem_range, overlay, List.getElem_append, List.length_append, List.length_take, hl]
  have hmin : min off n = off := by omega
  simp only [hmin]
  grind

theorem fill_bytes (x : QEntry) (blk off : Nat) (bs : List Byte) (h : off + bs.length ≤ max 32 x.size) :
    x.fill blk off bs = { x with
      missing := x.missing.erase blk
      bytes := (List.range (max 32 x.size)).map (fun i =>
        if off ≤ i ∧ i < off + bs.length then bs.getD (i - off) 0 else x.bytes.getD i 0) } := by
  rw [QEntry.fill, overlay_fitBytes _ _ _ _ h]

/-- What the bytes of a read leave in the register or entry that waits for them. -/
theorem take_data (c : Cell) (o : MemOp) (cycle : Nat) (bs : List Byte) (t : Nat) :
    (c.take o cycle (.data bs t)).op? o.id = none
    ∧ (∀ r z, o.kind = .load r z → r ≠ 0 → (c.take o cycle (.data bs t)).readA r.toNat = loadValue z bs)
    ∧ (∀ k, o.kind = .kload k → (c.take o cycle (.data bs t)).readK k.toNat = BitVec.ofNat 128 (ofLe bs))
    ∧ (∀ e blk off len, o.kind = .fill e blk off len → ∀ q, (∀ x ∈ c.queue q, x.id = e → off + bs.length ≤ max 32 x.size) →
        (c.take o cycle (.data bs t)).queue q = (c.queue q).map (fun x => if x.id = e then { x with
            missing := x.missing.erase blk
            bytes := (List.range (max 32 x.size)).map (fun i =>
              if off ≤ i ∧ i < off + bs.length then bs.getD (i - off) 0 else x.bytes.getD i 0) } else x)) := by
  refine ⟨leave_op? .., fun r z hk hr => ?_, fun k hk => ?_, fun e blk off len hk q hq => ?_⟩
  · have hr' : r.toNat ≠ 0 := fun h => hr (by simpa using BitVec.eq_of_toNat_eq h)
    have hw := Cell.readA_writeA_self c r.toNat (loadValue z bs)
    rw [if_neg hr'] at hw
    rw [Cell.take, leave_readA, Cell.deliver, hk]
    exact hw
  · rw [Cell.take, leave_readK, Cell.deliver, hk]
    exact Cell.readK_writeK_self ..
  · rw [Cell.take, leave_queue, Cell.deliver, hk]
    dsimp only
    rw [modEntry_queue]
    refine List.map_congr_left fun x hx => ?_
    split
    next hid => exact fill_bytes x blk off bs (hq x hx hid)
    next => rfl

/-- A refusal that is not an element's mask bit is reported with its value. -/
theorem refuse_reports (c : Cell) (o : MemOp) (e : FaultCode) (v : Word)
    (h : o.reissue = true ∨ e ≠ .rxlate ∨ maskBit o.kind = none) :
    (⟨e, v⟩ : Report) ∈ (c.refuse o e v).reports := by
  unfold Cell.refuse
  refine mem_reports_finishWord _ ?_
  split
  next hb =>
    rcases h with h | h | h
    · simp [h] at hb
    · exact absurd rfl h
    · simp [h] at hb
  next => exact List.mem_append_right _ (List.mem_singleton.2 rfl)

theorem refuse_op? (c : Cell) (o : MemOp) (e : FaultCode) (v : Word) : (c.refuse o e v).op? o.id = none := by
  have hops : (c.refuse o e v).ops = ((c.refusedEffect o).dropOp o.id).ops := by
    unfold Cell.refuse
    rw [finishWord_ops]
    split <;> rfl
  rw [Cell.op?, hops]
  exact dropOp_op? ..

theorem loadValue_eq (z : BitVec 3) (bs : List Byte) : loadValue z bs =
    if z = 0 then (BitVec.ofNat 8 (ofLe bs)).signExtend 64 else if z = 2 then (BitVec.ofNat 16 (ofLe bs)).signExtend 64
    else if z = 4 then (BitVec.ofNat 32 (ofLe bs)).signExtend 64 else BitVec.ofNat 64 (ofLe bs) := by
  rcases (by decide : ∀ z : BitVec 3, z = 0 ∨ z = 1 ∨ z = 2 ∨ z = 3 ∨ z = 4 ∨ z = 5 ∨ z = 6 ∨ z = 7) z with
    rfl | rfl | rfl | rfl | rfl | rfl | rfl | rfl <;> rfl

/-- Settles O28: a read that may be performed answers with what its home says, and a response that is back is taken; what it
leaves in the register or entry is `take_data`, and a refusal `refuse_reports`. -/
theorem readsDeliverTheirData : Obligations.ReadsDeliverTheirData := by
  unfold Obligations.ReadsDeliverTheirData
  intro cid id s o ix c ho event leads answers hk
  have hid : o.id = id := op?_id ho
  have hop : ((s.cell ix).op? o.id).isSome = true := by rw [hid]; exact Option.isSome_of_mem ho
  have hex : exec event s = .next (performRead s ix id) := exec_read ho hk
  have hleads {x : Cell} (h : OneCell ix s x (performRead s ix id)) : leads x :=
    ⟨_, hex, h.mem, h.heats, h.away, h.dies, h.cell⟩
  have hanswers {x : Cell} {r : Reply} (h : OneCell ix s (x.answered ix o s.cycle r) (performRead s ix id)) : answers x r := by
    rw [Cell.answered, hid] at h
    exact hleads h
  refine ⟨fun hr ha hm => ?_, fun hm => ⟨fun e v hv hn => ?_, fun hv => ?_, fun p tlb bs t hv hb => ?_⟩,
    fun r hr hl hn => ?_, fun bs t => ?_, fun e v hc => ⟨refuse_reports c o e v hc, hid ▸ refuse_op? c o e v⟩, loadValue_eq⟩
  · rw [hex, performRead_waits ho hr ha hm]
  · refine hanswers ?_
    rw [performRead_fault ho hm hv (by rcases hn with h | h <;> simp [h])]
    exact answerOp_here hop _
  · refine hanswers ?_
    rw [performRead_outside ho hm hv]
    exact answerOp_here hop _
  · have hcount := readHome_counts hb
    have htlb := OneCell.modCell t ix (fun c => { c with tlb := tlbAfter ix c o tlb })
    rw [hcount.cell] at htlb
    refine hanswers ?_
    rw [performRead_data ho hm hv hb]
    have hk := answerOp_here (s := t.modCell ix (fun c => { c with tlb := tlbAfter ix c o tlb })) (o := o)
      (by rw [htlb.cell]; exact hop) (.data bs (homeTime s o.addr))
    rw [htlb.cell, State.modCell_cycle, (Stores.of_counts hcount).cycle] at hk
    exact OneCell.of_counts hcount (htlb.again hk)
  · refine hleads ?_
    rw [performRead_returns ho hr hl hn]
    exact takeReply_here hop r
  · exact hid ▸ take_data c o s.cycle bs t

end Sys2Proof.Machine

/-! Stores and atomics at their home (R285, R286, R232, R307). -/
namespace Sys2Proof.Machine
open Sys2Proof

/-! Read-modify-write arithmetic (R286). -/

/-- A value of n bytes read as signed. -/
theorem toInt_ofNat_of_lt {w x : Nat} (hw : 0 < w) (hx : x < 2 ^ w) :
    (BitVec.ofNat w x).toInt = if x < 2 ^ (w - 1) then (x : Int) else (x : Int) - 2 ^ w := by
  have hp : 2 ^ w = 2 * 2 ^ (w - 1) := by rw [← Nat.pow_succ', Nat.succ_eq_add_one, Nat.sub_one_add_one hw.ne']
  rw [BitVec.toInt_eq_toNat_cond, BitVec.toNat_ofNat, Nat.mod_eq_of_lt hx]
  by_cases h : x < 2 ^ (w - 1)
  · rw [if_pos h, if_pos (by omega)]
  · rw [if_neg h, if_neg (by omega)]; norm_cast

/-- One of two values below a bound is below it. -/
theorem ite_mod_of_lt {a b m : Nat} (p : Prop) [Decidable p] (ha : a < m) (hb : b < m) :
    (if p then a else b) % m = if p then a else b := by
  split
  · exact Nat.mod_eq_of_lt ha
  · exact Nat.mod_eq_of_lt hb

/-- What each operation stores, of values that fit n bytes. -/
theorem rmwApply_eq {n a b e : Nat} (hn : 0 < 8 * n) (ha : a < 2 ^ (8 * n)) (hb : b < 2 ^ (8 * n)) :
    let signed (x : Nat) : Int := if x < 2 ^ (8 * n - 1) then x else (x : Int) - 2 ^ (8 * n)
    rmwApply .add n a b e = (a + b) % 2 ^ (8 * n) ∧ rmwApply .and n a b e = a &&& b ∧ rmwApply .or n a b e = a ||| b
    ∧ rmwApply .xor n a b e = a ^^^ b ∧ rmwApply .min n a b e = (if signed a < signed b then a else b)
    ∧ rmwApply .max n a b e = (if signed b < signed a then a else b) ∧ rmwApply .minn n a b e = (if a < b then a else b)
    ∧ rmwApply .maxn n a b e = (if b < a then a else b) ∧ rmwApply .swap n a b e = b
    ∧ rmwApply .cas n a b e = (if a = e then b else a) := by
  intro signed
  have hsa : (BitVec.ofNat (8 * n) a).toInt = signed a := toInt_ofNat_of_lt hn ha
  have hsb : (BitVec.ofNat (8 * n) b).toInt = signed b := toInt_ofNat_of_lt hn hb
  simp only [rmwApply, hsa, hsb]
  exact ⟨trivial, Nat.mod_eq_of_lt (Nat.and_lt_two_pow _ hb), Nat.mod_eq_of_lt (Nat.or_lt_two_pow ha hb),
    Nat.mod_eq_of_lt (Nat.xor_lt_two_pow ha hb), ite_mod_of_lt _ ha hb, ite_mod_of_lt _ ha hb, ite_mod_of_lt _ ha hb,
    ite_mod_of_lt _ ha hb, Nat.mod_eq_of_lt hb, ite_mod_of_lt _ hb ha⟩

/-! The bytes that a write at a home changes. -/

/-- A write at a site looks at memory, its heats and its error marks alone. -/
theorem writeSite_same {s s' t : State} {p : Site} {bs : List Byte} (hm : s'.mem = s.mem) (hh : s'.heats = s.heats)
    (he : s'.eccBad = s.eccBad) (hw : writeSite s p bs = .ok t) :
    ∃ t', writeSite s' p bs = .ok t' ∧ t'.mem = t.mem ∧ t'.heats = t.heats := by
  unfold writeSite at hw ⊢
  split at hw
  · unfold writeVault at hw ⊢
    dsimp only at hw ⊢
    rw [hm, hh, he]
    split at hw
    next hs => cases hw; rw [if_pos hs]; exact ⟨_, rfl, rfl, rfl⟩
    next hs =>
      rw [if_neg hs]
      split at hw
      · cases hw
      next hc => cases hw; rw [if_neg hc]; exact ⟨_, rfl, rfl, rfl⟩
  · cases hw; exact ⟨_, rfl, by simp [hm], hh⟩

theorem readSite_same {s s' : State} (w : Word) (p : Site) (n : Nat) (hm : s'.mem = s.mem) (hh : s'.heats = s.heats)
    (he : s'.eccBad = s.eccBad) (hd : s'.dies = s.dies) : readSite s' w p n = readSite s w p n := by
  unfold readSite readVault modeTrap State.die
  rw [hm, hh, he, hd]

/-- State u is what a home makes of state s when it writes the bytes that t holds. -/
structure HomeWrote (s t u : State) : Prop where
  stores : Stores s u
  mem    : u.mem = t.mem
  heats  : u.heats = t.heats

section
variable {s t : State} {o : MemOp} {p : Site} (hwin : inWindow o.addr = false)
include hwin

theorem writeHome_of_performStore {ix v : Nat} {u : State} (h : performStore s ix { o with site := some p } = .ok (v, u))
    (hm : u.mem = t.mem) (hh : u.heats = t.heats) : ∃ u', writeHome s ix o p = .ok (v, u') ∧ HomeWrote s t u' := by
  refine ⟨raiseTime u o.addr o.wtime, ?_, (Stores.of_performStore h).trans (.raiseTime ..), hm, hh⟩
  unfold writeHome
  rw [hwin, h]
  rfl

omit hwin in
theorem noteEcc_writes (w : Word) {bs : List Byte} (hw : writeSite s p bs = .ok t) :
    ∃ t', writeSite (noteEcc s w p) p bs = .ok t' ∧ t'.mem = t.mem ∧ t'.heats = t.heats :=
  have hc := (Counts.noteEcc s w p).rest
  writeSite_same (congrArg State.mem hc :) (congrArg State.heats hc :) (congrArg State.eccBad hc :) hw

theorem writeHome_store {data : List Byte} {e : Nat} (ix : Nat) (hk : o.kind = .store data e) (hw : writeSite s p data = .ok t) :
    ∃ u v, writeHome s ix o p = .ok (v, u) ∧ HomeWrote s t u := by
  obtain ⟨u, hu, hm, hh⟩ : ∃ u, writeSite (if data.length < 32 then noteEcc s o.addr p else s) p data = .ok u
      ∧ u.mem = t.mem ∧ u.heats = t.heats := by
    split
    · exact noteEcc_writes o.addr hw
    · exact ⟨t, hw, rfl, rfl⟩
  have hp : performStore s ix { o with site := some p } = .ok (0, u) := by
    simp only [performStore, hk, opSite, hu]
  obtain ⟨u', h, k⟩ := writeHome_of_performStore hwin hp hm hh
  exact ⟨u', 0, h, k⟩

omit hwin in
theorem rmwSite_writes {bs : List Byte} {op : RmwOp} {n b e : Nat} (hr : readSite s o.addr p n = .ok bs)
    (hw : writeSite s p (leBytes (rmwApply op n (ofLe bs) b e) n) = .ok t) :
    ∃ u, rmwSite s o.addr p op n b e = .ok (ofLe bs, u) ∧ u.mem = t.mem ∧ u.heats = t.heats := by
  obtain ⟨u, hu, hm, hh⟩ := noteEcc_writes o.addr hw
  exact ⟨u, by simp only [rmwSite, hr, hu], hm, hh⟩

theorem writeHome_scatAdd {op : RmwOp} {b : Word} {e : Nat} {bs : List Byte} (ix : Nat) (hk : o.kind = .scatAdd op b e)
    (hr : readSite s o.addr p o.len = .ok bs)
    (hw : writeSite s p (leBytes (rmwApply op o.len (ofLe bs) (b.toNat % 2 ^ (8 * o.len)) 0) o.len) = .ok t) :
    ∃ u v, writeHome s ix o p = .ok (v, u) ∧ HomeWrote s t u := by
  obtain ⟨u, hu, hm, hh⟩ := rmwSite_writes hr hw
  have hp : performStore s ix { o with site := some p } = .ok (ofLe bs, u) := by
    simp only [performStore, hk, opSite, hu]
  obtain ⟨u', h, k⟩ := writeHome_of_performStore hwin hp hm hh
  exact ⟨u', _, h, k⟩

theorem writeHome_rmw {op : RmwOp} {r : BitVec 5} {b e : Word} {bs : List Byte} (ix : Nat) (hk : o.kind = .rmw op r b e)
    (hr : readSite s o.addr p o.len = .ok bs)
    (hw : writeSite s p (leBytes (rmwApply op o.len (ofLe bs) (b.toNat % 2 ^ (8 * o.len)) (e.toNat % 2 ^ (8 * o.len))) o.len)
      = .ok t) :
    ∃ u, writeHome s ix o p = .ok (ofLe bs, u) ∧ HomeWrote s t u := by
  obtain ⟨u, hu, hm, hh⟩ := rmwSite_writes hr hw
  have hp : performStore s ix { o with site := some p } = .ok (ofLe bs, u) := by
    simp only [performStore, hk, opSite, hu]
  exact writeHome_of_performStore hwin hp hm hh

end

/-! What an operation meets at its home. -/

theorem arrive_sited {s : State} {ix : Nat} {c : Cell} {o : MemOp} {p : Site} (hb : o.bound ≠ .out) (hp : o.site = some p)
    (hr : o.reissue = false) : arrive s ix c o = .ok (some p) c.tlb := by
  unfold arrive
  rw [hp, hr]
  cases h : o.bound with
  | out => exact absurd h hb
  | none => rfl
  | region => rfl

theorem mayPerform_unheld {s : State} {ix : Nat} {c : Cell} {o : MemOp} (h : mayPerform s ix c o = true) :
    c.isHeld ix o.id = false := by
  simp only [mayPerform, Bool.and_eq_true, Bool.not_eq_true'] at h
  exact h.2

/-- A change of one operation that keeps its number is found under it. -/
theorem op?_modOp {c : Cell} {id : Nat} {o : MemOp} {f : MemOp → MemOp} (n : Nat) (hf : ∀ x, (f x).id = x.id)
    (h : c.op? id = some o) : (c.modOp n f).op? id = some (if o.id = n then f o else o) := by
  have hg : ((fun x : MemOp => x.id == id) ∘ fun x : MemOp => if x.id = n then f x else x) = fun x => x.id == id := by
    funext x
    simp only [Function.comp]
    split
    · rw [hf]
    · rfl
  simp only [Cell.op?, Cell.modOp, List.find?_map, hg]
  have h' : List.find? (fun x => x.id == id) c.ops = some o := h
  rw [h']; rfl

theorem op?_modOp_isSome {c : Cell} {id : Nat} {f : MemOp → MemOp} (n : Nat) (hf : ∀ x, (f x).id = x.id)
    (h : (c.op? id).isSome = true) : ((c.modOp n f).op? id).isSome = true := by
  obtain ⟨o, ho⟩ := Option.isSome_iff_exists.1 h
  rw [op?_modOp n hf ho]; rfl

/-! An answer to an operation of another die. -/

theorem sendReply_memory {s : State} {ix : Nat} {o : MemOp} (h : ((s.cell ix).op? o.id).isSome = true) (r : Reply) :
    (sendReply s ix o r false).mem = s.mem ∧ (sendReply s ix o r false).heats = s.heats
    ∧ ∀ id, ((s.cell ix).op? id).isSome = true → (((sendReply s ix o r false).cell ix).op? id).isSome = true := by
  have hs := sendReply_here h r
  refine ⟨hs.mem, hs.heats, fun id hid => ?_⟩
  rw [hs.cell]
  exact op?_modOp_isSome o.id (fun _ => rfl) hid

/-- A refused part, all of it of another die, changes no memory. -/
theorem refuse_memory {ix : Nat} (answer : MemOp → Reply) : ∀ (xs : List MemOp) (s : State),
    (∀ x ∈ xs, isLocal ix x.addr = false ∧ ((s.cell ix).op? x.id).isSome = true) →
    (xs.foldl (fun u x => answerOp u ix x (answer x)) s).mem = s.mem
    ∧ (xs.foldl (fun u x => answerOp u ix x (answer x)) s).heats = s.heats
  | [], _, _ => ⟨rfl, rfl⟩
  | x :: xs, s, h => by
    obtain ⟨hl, ho⟩ := h x List.mem_cons_self
    obtain ⟨hm, hh, hi⟩ := sendReply_memory ho (answer x)
    have hx : answerOp s ix x (answer x) = sendReply s ix x (answer x) false := by simp [answerOp, hl]
    have := refuse_memory answer xs (answerOp s ix x (answer x)) (fun y hy => by
      obtain ⟨hyl, hyo⟩ := h y (List.mem_cons_of_mem _ hy)
      rw [hx]
      exact ⟨hyl, hi y.id hyo⟩)
    rw [List.foldl_cons]
    exact ⟨this.1.trans (by rw [hx, hm]), this.2.trans (by rw [hx, hh])⟩

/-- What a home answers to an element of a refused part. -/
def partAnswer (s : State) (ix : Nat) (c : Cell) (x : MemOp) : Reply :=
  match judge s ix c x with
  | .fault e v => .refused e v
  | .outside => .outside
  | _ => .done 0

theorem refusePart_eq (s : State) (ix : Nat) (c : Cell) (o : MemOp) :
    refusePart s ix c o = (openPart c o).foldl (fun u x => answerOp u ix x (partAnswer s ix c x)) s := by
  unfold refusePart
  congr 1
  funext u x
  unfold partAnswer
  cases judge s ix c x <;> rfl

theorem mem_ops_op? {c : Cell} {x : MemOp} (h : x ∈ c.ops) : (c.op? x.id).isSome = true := by
  rw [Cell.op?, List.find?_isSome]
  exact ⟨x, h, by simp⟩

/-- The open elements of an operation's part share its home. -/
theorem openPart_elsewhere {ix : Nat} {c : Cell} {o x : MemOp} (hl : isLocal ix o.addr = false) (hx : x ∈ openPart c o) :
    isLocal ix x.addr = false ∧ (c.op? x.id).isSome = true := by
  rw [openPart, List.mem_filter] at hx
  obtain ⟨hm, hp⟩ := hx
  simp only [MemOp.samePart, Bool.and_eq_true, beq_iff_eq] at hp
  obtain ⟨⟨⟨⟨-, hd⟩, -⟩, -⟩, -⟩ := hp
  refine ⟨?_, mem_ops_op? hm⟩
  rw [isLocal] at hl ⊢
  rwa [hd]

/-! One step of a store. -/

section
variable {s : State} {ix id : Nat} {o : MemOp} (ho : (s.cell ix).op? id = some o)

theorem storeStep_waits (hr : o.reply = none) (ha : atHome s ix o = true) (hm : mayPerform s ix (s.cell ix) o = false) :
    storeStep s ix (s.cell ix) o = s := by
  simp [storeStep, hr, ha, hm]

include ho in
theorem storeStep_returns {r : Reply} (hr : o.reply = some r) (hl : o.leg = .returned)
    (hn : onRing s (pkgOfCell ix) id = false) : storeStep s ix (s.cell ix) o = takeReply s ix o r := by
  simp [storeStep, hr, comeBack, hl, op?_id ho, hn]

include ho in
/-- A store whose site is known. -/
theorem storeStep_sited {p : Site} {v : Nat} {u : State} (hm : mayPerform s ix (s.cell ix) o = true) (hb : o.bound ≠ .out)
    (hi : o.reissue = false) (hp : o.site = some p) (hw : writeHome s ix o p = .ok (v, u)) :
    storeStep s ix (s.cell ix) o = answerOp u ix o (.done (homeTime u o.addr)) := by
  obtain ⟨ha, hr⟩ := mayPerform_atHome hm
  have hfate : partFate s ix (s.cell ix) o = .accepted := by simp [partFate, hp]
  have hpart : acceptPart s ix (s.cell ix) o = s := by simp [acceptPart, hp]
  have hid := op?_id ho
  have hstrand : strandOf s ix id = some (s.cell ix) := by
    rw [strandOf, cellOfOp_here (by rw [ho]; rfl)]
  have hperf : performWrite s ix (s.cell ix) o = .ok (v, u) := by
    simp only [performWrite, arrive_sited hb hp hi, hw]
  simp [storeStep, ha, hr, hm, hb, hfate, hpart, hstrand, hid, ho, hperf]

/-- The fate of a part of one element is that of the element. -/
theorem partFate_single {r : Checked} (hm : mayPerform s ix (s.cell ix) o = true) (hl : isLocal ix o.addr = false)
    (hs : o.site = none) (hp : openPart (s.cell ix) o = [o]) (hj : judge s ix (s.cell ix) o = r) (hr : r ≠ .miss) :
    partFate s ix (s.cell ix) o = if bars s o r then .refused else .accepted := by
  obtain ⟨ha, -⟩ := mayPerform_atHome hm
  have hh := mayPerform_unheld hm
  simp only [partFate, hl, hs, hp, List.any_cons, List.any_nil, Bool.or_false, ha, hh, hj, Option.isSome_none]
  cases r <;> simp_all

/-- The home of a single remote element refuses it. -/
theorem storeStep_refused {e : FaultCode} {v : Word} (hm : mayPerform s ix (s.cell ix) o = true) (hb : o.bound = .none)
    (hl : isLocal ix o.addr = false) (hs : o.site = none) (hp : openPart (s.cell ix) o = [o])
    (hj : judge s ix (s.cell ix) o = .fault e v) :
    storeStep s ix (s.cell ix) o = answerOp s ix o (.refused e v) := by
  obtain ⟨ha, hr⟩ := mayPerform_atHome hm
  have hfate := partFate_single hm hl hs hp hj (by simp)
  have hbars : bars s o (.fault e v) = true := by simp [bars, MemOp.outside, hb]
  rw [hbars, if_pos rfl] at hfate
  simp [storeStep, ha, hr, hm, hb, hfate, refusePart, hp, hj]

/-- The state in which a home has given an operation its site. -/
def sited (s : State) (ix id : Nat) (p : Site) : State := s.modCell ix (fun c => c.modOp id (fun y => { y with site := some p }))

include ho in
theorem sited_op? (p : Site) : ((sited s ix id p).cell ix).op? id = some { o with site := some p } := by
  have h := op?_modOp (f := fun y => { y with site := some p }) id (fun _ => rfl) ho
  rw [if_pos (op?_id ho)] at h
  rw [sited, State.modCell_cell_self]
  exact h

include ho in
/-- The home of a single remote element gives it its site and performs it. -/
theorem storeStep_accepted {p : Site} {tlb : List TlbEntry} {v : Nat} {u : State} (hm : mayPerform s ix (s.cell ix) o = true)
    (hb : o.bound = .none) (hi : o.reissue = false) (hl : isLocal ix o.addr = false) (hs : o.site = none)
    (hp : openPart (s.cell ix) o = [o]) (hj : judge s ix (s.cell ix) o = .ok (some p) tlb)
    (hw : writeHome (sited s ix id p) ix { o with site := some p } p = .ok (v, u)) :
    storeStep s ix (s.cell ix) o = answerOp u ix { o with site := some p } (.done (homeTime u o.addr)) := by
  obtain ⟨ha, hr⟩ := mayPerform_atHome hm
  have hid := op?_id ho
  have hfate : partFate s ix (s.cell ix) o = .accepted := by
    simpa [bars] using partFate_single hm hl hs hp hj (by simp)
  have hpart : acceptPart s ix (s.cell ix) o = sited s ix id p := by
    simp only [acceptPart, hl, hs, hp, hj, List.foldl_cons, List.foldl_nil, hid, onOp, Bool.false_or, Option.isSome_none,
      Bool.false_eq_true, if_false]
    exact onStrand_here (by rw [ho]; rfl) _
  have hop := sited_op? ho p
  have hstrand : strandOf (sited s ix id p) ix id = some ((sited s ix id p).cell ix) := by
    rw [strandOf, cellOfOp_here (by rw [hop]; rfl)]
  have hperf : performWrite (sited s ix id p) ix ((sited s ix id p).cell ix) { o with site := some p } = .ok (v, u) := by
    have harr : arrive (sited s ix id p) ix ((sited s ix id p).cell ix) { o with site := some p } = .ok (some p) _ :=
      arrive_sited (by simp [hb]) rfl hi
    simp only [performWrite, harr, hw]
  have hb' : o.bound ≠ .out := by simp [hb]
  have hr1 : ({ o with site := some p } : MemOp).reply = none := hr
  have had : ({ o with site := some p } : MemOp).addr = o.addr := rfl
  generalize ({ o with site := some p } : MemOp) = o1 at hop hperf hr1 had ⊢
  simp [storeStep, ha, hr, hm, hb', hfate, hpart, hstrand, hid, hop, hperf, hr1, had]

end

/-- The event performs one step of a store of a strand cell. -/
theorem exec_storePerformed {cid : CellId} {id : Nat} {s : State} {o : MemOp} (ho : (s.cell (cellIx cid)).op? id = some o)
    (hc : isCmd (cellIx cid) = false) (hk : (∃ data e, o.kind = .store data e) ∨ (∃ op b e, o.kind = .scatAdd op b e)) :
    exec (.storePerformed cid id) s = .next (storeStep s (cellIx cid) (s.cell (cellIx cid)) o) := by
  have hfq (t : State) : afterFqStore t (cellIx cid) o = t := by simp [afterFqStore, hc]
  rcases hk with ⟨data, e, h⟩ | ⟨op, b, e, h⟩ <;> simp [exec, execStorePerformed, opOfKind, ho, h, OpKind.isStore, hfq]

theorem exec_rmwResponse {cid : CellId} {id : Nat} {s : State} {o : MemOp} {op : RmwOp} {r : BitVec 5} {b e : Word}
    (ho : (s.cell (cellIx cid)).op? id = some o) (hk : o.kind = .rmw op r b e) :
    exec (.rmwResponse cid id) s = .next (rmwStep s (cellIx cid) (s.cell (cellIx cid)) o) := by
  simp only [exec, execRmwResponse, ho]
  split
  next => rfl
  next h => rw [hk] at h; cases h
  next h _ => exact absurd hk (h _ _ _ _)

/-- What the old value of an atomic leaves. -/
theorem take_old {c : Cell} {o : MemOp} {op : RmwOp} {r : BitVec 5} {b e : Word} (hk : o.kind = .rmw op r b e) (cycle v t : Nat) :
    (c.take o cycle (.old v t)).op? o.id = none
    ∧ (r ≠ 0 → (c.take o cycle (.old v t)).readA r.toNat = rmwReturn op o.len v) := by
  have htake : c.take o cycle (.old v t) = ((c.writeA r.toNat (rmwReturn op o.len v)).unpend r.toNat).leave o t := by
    simp only [Cell.take, rmwDeliver, hk]
  rw [htake]
  refine ⟨leave_op? .., fun hr => ?_⟩
  have hr' : r.toNat ≠ 0 := fun h => hr (by simpa using BitVec.eq_of_toNat_eq h)
  have hw := Cell.readA_writeA_self c r.toNat (rmwReturn op o.len v)
  rw [if_neg hr'] at hw
  rw [leave_readA]
  exact hw

section
variable {s : State} {ix id : Nat} {o : MemOp} {op : RmwOp} {r : BitVec 5} {b e : Word}

theorem rmwStep_waits (hr : o.reply = none) (ha : atHome s ix o = true) (hm : mayPerform s ix (s.cell ix) o = false) :
    rmwStep s ix (s.cell ix) o = s := by
  simp [rmwStep, hr, ha, hm]

theorem rmwStep_returns {r : Reply} (ho : (s.cell ix).op? id = some o) (hr : o.reply = some r) (hl : o.leg = .returned)
    (hn : onRing s (pkgOfCell ix) id = false) : rmwStep s ix (s.cell ix) o = takeReply s ix o r := by
  simp [rmwStep, hr, comeBack, hl, op?_id ho, hn]

theorem rmwStep_refused {f : FaultCode} {v : Word} (hm : mayPerform s ix (s.cell ix) o = true)
    (hv : arrive s ix (s.cell ix) o = .fault f v) (hf : f ≠ .none) :
    rmwStep s ix (s.cell ix) o = answerOp s ix o (.refused f v) := by
  obtain ⟨ha, hr⟩ := mayPerform_atHome hm
  simp [rmwStep, ha, hr, hm, performWrite, hv]

theorem rmwStep_performs {p : Site} {tlb : List TlbEntry} {v : Nat} {u : State} (hm : mayPerform s ix (s.cell ix) o = true)
    (hv : arrive s ix (s.cell ix) o = .ok (some p) tlb) (hw : writeHome s ix o p = .ok (v, u)) :
    rmwStep s ix (s.cell ix) o = answerOp u ix o (.old v (homeTime u o.addr)) := by
  obtain ⟨ha, hr⟩ := mayPerform_atHome hm
  simp [rmwStep, ha, hr, hm, performWrite, hv, hw]

end

/-! What an answer makes of the state once the home has written. -/

/-- State u is what an event of a cell leaves that has written what m holds: the bytes of m and its heats, the cells of s but x. -/
structure Led (ix : Nat) (s m : State) (x : Cell) (u : State) : Prop where
  mem   : u.mem = m.mem
  heats : u.heats = m.heats
  away  : ∀ j, j ≠ ix → u.cell j = s.cell j
  cell  : u.cell ix = x

theorem OneCell.led {ix : Nat} {s u : State} {x : Cell} (h : OneCell ix s x u) : Led ix s s x u := ⟨h.mem, h.heats, h.away, h.cell⟩

/-- The answer to an operation after its home has written what m holds. -/
theorem HomeWrote.answered {ix : Nat} {s m u : State} {o : MemOp} (h : HomeWrote s m u)
    (ho : ((s.cell ix).op? o.id).isSome = true) (r : Reply) :
    Led ix s m ((s.cell ix).answered ix o s.cycle r) (answerOp u ix o r) := by
  have hk := answerOp_here (s := u) (ix := ix) (o := o) (by rw [h.stores.cell]; exact ho) r
  rw [h.stores.cell, h.stores.cycle] at hk
  exact ⟨hk.mem.trans h.mem, hk.heats.trans h.heats, fun j hj => (hk.away j hj).trans (h.stores.cell j), hk.cell⟩

theorem modOp_modOp (c : Cell) (id : Nat) (f g : MemOp → MemOp) (hf : ∀ x, (f x).id = x.id) :
    (c.modOp id f).modOp id g = c.modOp id (fun y => g (f y)) := by
  simp only [Cell.modOp, List.map_map]
  congr 1
  refine List.map_congr_left fun x _ => ?_
  simp only [Function.comp]
  by_cases h : x.id = id <;> simp [h, hf]

/-- The same where the home of another die has first given the operation its site. -/
theorem HomeWrote.answered_sited {ix id : Nat} {s m u : State} {o : MemOp} {p : Site} (h : HomeWrote (sited s ix id p) m u)
    (ho : (s.cell ix).op? id = some o) (hl : isLocal ix o.addr = false) (r : Reply) :
    Led ix s m ((s.cell ix).modOp id (fun y => sentBack ix o r { y with site := some p }))
      (answerOp u ix { o with site := some p } r) := by
  have hid := op?_id ho
  have hk := h.answered (o := { o with site := some p }) (by rw [hid, sited_op? ho]; rfl) r
  have hc : (sited s ix id p).cell ix = (s.cell ix).modOp id (fun y => { y with site := some p }) := State.modCell_cell_self ..
  refine ⟨hk.mem, hk.heats, fun j hj => (hk.away j hj).trans (by rw [sited, State.modCell_cell, if_neg hj]), ?_⟩
  rw [hk.cell, Cell.answered, if_neg (by simp [hl]), hc, hid]
  exact modOp_modOp _ id _ (sentBack ix _ r) (fun _ => rfl)

/-- Settles O29: a store or atomic goes one step through `storeStep_…` and `rmwStep_…`, its home writes through `writeHome_…`, and the
arithmetic is `rmwApply_eq`. -/
theorem writesAndAtomicsArePerformedAtTheirHome : Obligations.WritesAndAtomicsArePerformedAtTheirHome := by
  unfold Obligations.WritesAndAtomicsArePerformedAtTheirHome
  refine ⟨fun cid id s o => ?_, fun n a b e hn ha hb _ => ?_⟩
  · intro ix c ho hcmd hwin leads answers common stores
    have hid : o.id = id := op?_id ho
    have hop : ((s.cell ix).op? o.id).isSome = true := by rw [hid]; exact Option.isSome_of_mem ho
    have hleads {i : Instr} {m u : State} {x : Cell} (hex : exec i s = .next u) (h : Led ix s m x u) : leads i m x :=
      ⟨u, hex, h.mem, h.heats, h.away, h.cell⟩
    have hanswers {i : Instr} {m u : State} {r : Nat → Reply} (t : Nat) (hex : exec i s = .next u)
        (h : Led ix s m (c.answered ix o s.cycle (r t)) u) : answers i m (fun y => y) r := by
      refine ⟨t, hleads hex ?_⟩
      rw [Cell.answered, hid] at h
      exact h
    refine ⟨fun hk => ?_, fun op r b e hk => ?_⟩
    · have hex := exec_storePerformed ho hcmd hk
      refine ⟨⟨fun hr ha hm => ?_, fun r hr hl hn => ?_⟩, fun hm hb hi p t => ⟨fun hp => ?_, fun hl hs hpart => ⟨fun tlb hj => ?_,
        fun e v hj => ?_⟩⟩, fun hm hb hf => ?_⟩
      · rw [hex, storeStep_waits hr ha hm]
      · rw [storeStep_returns ho hr hl hn] at hex
        exact hleads hex (takeReply_here hop r).led
      · have hstep {u : State} {v : Nat} (hw : writeHome s ix o p = .ok (v, u)) (h : HomeWrote s t u) :
            answers (.storePerformed cid id) t (fun y => y) .done := by
          rw [storeStep_sited ho hm (by simp [hb]) hi hp hw] at hex
          exact hanswers _ hex (h.answered hop _)
        refine ⟨fun data e hk hw => ?_, fun op b e bs hk hrd hw => ?_⟩
        · obtain ⟨u, v, hu, h⟩ := writeHome_store hwin ix hk hw
          exact hstep hu h
        · obtain ⟨u, v, hu, h⟩ := writeHome_scatAdd hwin ix hk hrd hw
          exact hstep hu h
      · have hstep {u t' : State} {v : Nat} (hw : writeHome (sited s ix id p) ix { o with site := some p } p = .ok (v, u))
            (h : HomeWrote (sited s ix id p) t' u) (hmem : t'.mem = t.mem) (hheats : t'.heats = t.heats) :
            answers (.storePerformed cid id) t (fun _ => some p) .done := by
          rw [storeStep_accepted ho hm hb hi hl hs hpart hj hw] at hex
          have h' : HomeWrote (sited s ix id p) t u := ⟨h.stores, h.mem.trans hmem, h.heats.trans hheats⟩
          refine ⟨homeTime u o.addr, hleads hex ?_⟩
          rw [if_neg (by simp [hl])]
          exact h'.answered_sited ho hl _
        refine ⟨fun data e hk hw => ?_, fun op b e bs hk hrd hw => ?_⟩
        · obtain ⟨t', hw', hmem, hheats⟩ := writeSite_same (s := s) (s' := sited s ix id p) rfl rfl rfl hw
          obtain ⟨u, v, hu, h⟩ := writeHome_store (o := { o with site := some p }) hwin ix hk hw'
          exact hstep hu h hmem hheats
        · obtain ⟨t', hw', hmem, hheats⟩ := writeSite_same (s := s) (s' := sited s ix id p) rfl rfl rfl hw
          have hrd' : readSite (sited s ix id p) o.addr p o.len = .ok bs :=
            (readSite_same o.addr p o.len rfl rfl rfl rfl).trans hrd
          obtain ⟨u, v, hu, h⟩ := writeHome_scatAdd (o := { o with site := some p }) hwin ix hk hrd' hw'
          exact hstep hu h hmem hheats
      · rw [storeStep_refused hm hb hl hs hpart hj] at hex
        exact hanswers 0 hex (answerOp_here hop _).led
      · obtain ⟨ha, hr⟩ := mayPerform_atHome hm
        have hl : isLocal ix o.addr = false := by
          rw [← Bool.not_eq_true]
          intro hl
          simp [partFate, hl] at hf
        have hstep : storeStep s ix c o = refusePart s ix c o := by simp [storeStep, ha, hr, hm, hb, hf, c]
        obtain ⟨hmem, hheats⟩ := refuse_memory (partAnswer s ix c) (openPart c o) s (fun x hx => openPart_elsewhere hl hx)
        rw [← refusePart_eq] at hmem hheats
        exact ⟨_, hex, (congrArg State.mem hstep).trans hmem, (congrArg State.heats hstep).trans hheats⟩
    · have hex := exec_rmwResponse ho hk
      refine ⟨⟨fun hr ha hm => ?_, fun r hr hl hn => ?_⟩, fun hm => ⟨fun f v hv hf => ?_, fun p tlb bs t hv hrd hw => ?_⟩,
        fun v t => hid ▸ take_old hk s.cycle v t⟩
      · rw [hex, rmwStep_waits hr ha hm]
      · rw [rmwStep_returns ho hr hl hn] at hex
        exact hleads hex (takeReply_here hop r).led
      · rw [rmwStep_refused hm hv hf] at hex
        exact hanswers 0 hex (answerOp_here hop _).led
      · obtain ⟨u, hu, h⟩ := writeHome_rmw hwin ix hk hrd hw
        rw [rmwStep_performs hm hv hu] at hex
        exact hanswers _ hex (h.answered hop _)
  · intro signed
    have hret (op : RmwOp) : rmwReturn op n a =
        if n = 4 ∧ op ≠ .minn ∧ op ≠ .maxn then (BitVec.ofNat 32 a).signExtend 64 else BitVec.ofNat 64 a := rfl
    obtain ⟨h1, h2, h3, h4, h5, h6, h7, h8, h9, h10⟩ := rmwApply_eq (e := e) (by omega) ha hb
    exact ⟨h1, h2, h3, h4, h5, h6, h7, h8, h9, h10, hret⟩

end Sys2Proof.Machine

/-! Pool words: the request that each sends (R287 to R291, R296, R315). -/
namespace Sys2Proof.Machine
open Sys2Proof

/-! What sending a request leaves alone. -/

/-- State t is s but for the cell in focus, the requests, the rings and sectors of packages and the model's own numbers. -/
structure PoolKept (s t : State) : Prop where
  focus : t.focus = s.focus
  dies  : t.dies = s.dies
  nodes : t.nodes = s.nodes
  mem   : t.mem = s.mem
  pts   : ∀ p, (t.pkg p).pts = (s.pkg p).pts
  away  : ∀ j, j ≠ s.me → t.cell j = s.cell j

namespace PoolKept
variable {s t u : State}

theorem refl (s : State) : PoolKept s s := ⟨rfl, rfl, rfl, rfl, fun _ => rfl, fun _ _ => rfl⟩

theorem me (h : PoolKept s t) : t.me = s.me := congrArg cellIx h.focus

theorem trans (h : PoolKept s t) (k : PoolKept t u) : PoolKept s u where
  focus := k.focus.trans h.focus
  dies := k.dies.trans h.dies
  nodes := k.nodes.trans h.nodes
  mem := k.mem.trans h.mem
  pts p := (k.pts p).trans (h.pts p)
  away j hj := (k.away j (h.me ▸ hj)).trans (h.away j hj)

theorem fresh (s : State) : PoolKept s s.fresh.2 := ⟨rfl, rfl, rfl, rfl, fun _ => rfl, fun _ _ => rfl⟩

theorem upd (s : State) (f : Cell → Cell) : PoolKept s (s.upd f) :=
  ⟨rfl, rfl, rfl, rfl, fun _ => rfl, fun j hj => by rw [State.upd_cell, if_neg hj]⟩

/-- A change of a package that keeps its time. -/
theorem modPkg (s : State) (p : Nat) {f : Package → Package} (hf : ∀ x, (f x).pts = x.pts) : PoolKept s (s.modPkg p f) :=
  ⟨rfl, rfl, rfl, rfl, fun q => by
    rw [State.modPkg, State.setPkg_pkg]
    split
    next h => subst h; exact hf _
    next => rfl, fun _ _ => rfl⟩

theorem reqs (s : State) (rs : List PoolReq) : PoolKept s { s with reqs := rs } := ⟨rfl, rfl, rfl, rfl, fun _ => rfl, fun _ _ => rfl⟩

theorem putSlot (s : State) (pkg id src dst : Nat) : PoolKept s (putSlot s pkg id src dst) := modPkg s pkg fun _ => rfl

theorem updateSectors (pkg oid : Nat) : ∀ (gs : List (List Byte)) (off : Nat) (s : State),
    PoolKept s (updateSectors pkg oid off s gs)
  | [], _, s => refl s
  | g :: gs, off, s => by
    unfold Machine.updateSectors
    refine trans ?_ (updateSectors pkg oid gs ..)
    split
    · exact modPkg s pkg fun _ => rfl
    · exact refl s

/-- The release of a cell in focus changes that cell and the requests alone. -/
theorem of_release {sev : Bool} {scope : Nat} {covers : MemOp → Bool} (h : releaseUnder sev s s.me scope covers = .done t) :
    PoolKept s t := by
  unfold releaseUnder at h
  split at h
  · cases h
  · cases h; exact refl s
  · dsimp only at h
    split at h
    · cases h
    · cases h; exact (upd s _).trans (.reqs ..)

end PoolKept

/-- Sectors are no part of a cell. -/
theorem updateSectors_cur (pkg oid : Nat) : ∀ (gs : List (List Byte)) (off : Nat) (s : State),
    (updateSectors pkg oid off s gs).cur = s.cur ∧ (updateSectors pkg oid off s gs).reqs = s.reqs
  | [], _, _ => ⟨rfl, rfl⟩
  | g :: gs, off, s => by
    unfold updateSectors
    obtain ⟨hc, hr⟩ := updateSectors_cur pkg oid gs (off + 32)
      (match sector? s pkg oid off with
       | some x => putSector s pkg oid off { x with data := g, pending := true }
       | none => s)
    refine ⟨hc.trans ?_, hr.trans ?_⟩ <;> split <;> rfl

/-! One request. -/

/-- Request r asks the home of the object that cap names for op at an offset of the capability, for the cell in focus of st, at the
package's time in x (R281, R290). -/
def AsksHome (st : State) (cap : Cap) (x : State) (op : PoolOp) (off : Nat) (r : PoolReq) : Prop :=
  r.cell = st.me ∧ r.op = op ∧ r.cap = cap ∧ r.inOff = off ∧ r.off = (if capWlen cap = 0 then off else capWstart cap * 4096 + off)
  ∧ r.world = (st.die st.myDie).world ∧ r.node = nodeOf st (capOid cap).toNat ∧ r.pts = (x.pkg st.myPkg).pts ∧ r.answer = .none

/-- The operation in flight of word w that a request r stands for. -/
def opOfReq (w : Nat) (r : PoolReq) : MemOp :=
  ⟨r.id, w, .pool, BitVec.allOnes 64, 0, r.pts, none, false, false, .none, 0, 0, none, .out, none, false⟩

/-- State u is s once word w of the cell in focus has sent request r. -/
structure Sends (st s u : State) (w : Nat) (cap : Cap) (op : PoolOp) (off : Nat) (r : PoolReq) : Prop where
  id   : r.id = s.nextId
  asks : AsksHome st cap st op off r
  reqs : u.reqs = s.reqs ++ [r]
  cur  : u.cur = { s.cur with ops := s.cur.ops ++ [opOfReq w r] }
  kept : PoolKept s u

theorem addPoolOp_sends {st s : State} (k : PoolKept st s) (w : Nat) (op : PoolOp) (cap : Cap) (off : Nat) (stage : ReqStage) :
    (addPoolOp s w op cap off stage).1 = s.nextId ∧ ∃ r, Sends st s (addPoolOp s w op cap off stage).2 w cap op off r := by
  let r : PoolReq :=
    { id := s.nextId, cell := s.me, op := op, cap := cap, off := if capWlen cap = 0 then off else capWstart cap * 4096 + off
      inOff := off, world := (s.die s.myDie).world, node := nodeOf s (capOid cap).toNat, version := 0, pts := (s.pkg s.myPkg).pts
      stage := stage, since := s.cycle, order := s.nextId, expiry := 0, tries := 0, answer := .none, veto := false, discarded := false }
  have hme := k.me
  have hdie : s.myDie = st.myDie := congrArg dieOfCell hme
  have hpkg : s.myPkg = st.myPkg := congrArg pkgOfCell hme
  have hworld : (s.die s.myDie).world = (st.die st.myDie).world := by rw [hdie, State.die, k.dies]; rfl
  have hnode : nodeOf s (capOid cap).toNat = nodeOf st (capOid cap).toNat := by rw [nodeOf, k.nodes]; rfl
  have hpts : (s.pkg s.myPkg).pts = (st.pkg st.myPkg).pts := by rw [hpkg, k.pts]
  let t : State := s.fresh.2.upd (fun c => { c with ops := c.ops ++ [opOfReq w r] })
  let v : State :=
    if stage = .atRing then t else putSlot t t.myPkg s.nextId (dieStation (t.myDie % 8)) (bridgeStation (r.node % 8))
  have ht : PoolKept s t := (PoolKept.fresh s).trans (.upd ..)
  have hc : t.cur = { s.cur with ops := s.cur.ops ++ [opOfReq w r] } := State.upd_cur ..
  have hv : PoolKept s v ∧ v.cur = t.cur ∧ v.reqs = s.reqs := by
    simp only [v]
    split
    · exact ⟨ht, rfl, rfl⟩
    · exact ⟨ht.trans (.putSlot ..), rfl, rfl⟩
  have hu : (addPoolOp s w op cap off stage).2 = { v with reqs := v.reqs ++ [r] } := rfl
  obtain ⟨kv, cv, rv⟩ := hv
  refine ⟨rfl, r, rfl, ⟨hme, rfl, rfl, rfl, rfl, hworld, hnode, hpts, rfl⟩, ?_, ?_, ?_⟩
  · rw [hu, rv]
  · rw [hu]; exact cv.trans hc
  · rw [hu]; exact kv.trans (.reqs ..)

/-- State u is x once one word of the cell in focus has sent the request r, with the change `mark` of the cell; the word is numbered just
before the request. -/
structure SentOne (st x u : State) (cap : Cap) (op : PoolOp) (off : Nat) (hold : Bool) (mark : Cell → Cell) (r : PoolReq) : Prop where
  reqs : u.reqs = x.reqs ++ [r]
  asks : AsksHome st cap st op off r
  mem  : u.mem = x.mem
  away : ∀ j, j ≠ st.me → u.cell j = x.cell j
  cur  : u.cur = mark { x.cur with
    ops := x.cur.ops ++ [opOfReq (r.id - 1) r], acquire := if hold then r.id :: x.cur.acquire else x.cur.acquire }

/-- A word's request, and a change of the cell that knows its number. -/
theorem addPoolOp_sentOne {st x : State} (k : PoolKept st x) (op : PoolOp) (cap : Cap) (off : Nat) (stage : ReqStage) (hold : Bool)
    (mark : Cell → Cell) :
    ∃ r, SentOne st x ((addPoolOp x.fresh.2 x.nextId op cap off stage).2.upd (fun c =>
      mark { c with acquire := if hold then (addPoolOp x.fresh.2 x.nextId op cap off stage).1 :: c.acquire else c.acquire }))
      cap op off hold mark r := by
  obtain ⟨hid, r, h⟩ := addPoolOp_sends (k.trans (.fresh x)) x.nextId op cap off stage
  have hrid : r.id = x.nextId + 1 := h.id
  refine ⟨r, h.reqs, h.asks, h.kept.mem, fun j hj => ?_, ?_⟩
  · have hj' : j ≠ x.me := by rw [k.me]; exact hj
    exact ((h.kept.trans (.upd _ _)).away j hj').trans rfl
  · rw [State.upd_cur, h.cur, hid, hrid]
    rfl

theorem sendObject_sentOne {st x : State} (k : PoolKept st x) (cap : Cap) (op : PoolOp) (hold : Bool) (mark : Cell → Cell) :
    ∃ r, SentOne st x (sendObject cap op hold mark x) cap op 0 hold mark r :=
  addPoolOp_sentOne k op cap 0 (firstStage x.fresh.2 cap op) hold mark

/-! Words that send one request for each page (R288). -/

/-- State u is s once word w has sent the requests rs, one for each page part. -/
structure SentParts (st s u : State) (cap : Cap) (op : Nat × Nat → PoolOp) (off : Nat) (parts : List (Nat × Nat))
    (rs : List PoolReq) : Prop where
  reqs : u.reqs = s.reqs ++ rs
  asks : List.Forall₂ (fun (r : PoolReq) (a : Nat × Nat) => AsksHome st cap st (op a) (off + a.1) r) rs parts
  kept : PoolKept s u
  queues : u.cur.queues = s.cur.queues

theorem SentParts.cons {st s t u : State} {w off : Nat} {cap : Cap} {op : Nat × Nat → PoolOp} {a : Nat × Nat}
    {parts : List (Nat × Nat)} {r : PoolReq} {rs : List PoolReq} (h : Sends st s t w cap (op a) (off + a.1) r)
    (k : SentParts st t u cap op off parts rs) : SentParts st s u cap op off (a :: parts) (r :: rs) where
  reqs := by rw [k.reqs, h.reqs, List.append_assoc]; rfl
  asks := .cons h.asks k.asks
  kept := h.kept.trans k.kept
  queues := k.queues.trans (by rw [h.cur])

theorem addReads_sentParts (st : State) (w e : Nat) (cap : Cap) (off : Nat) : ∀ (parts : List (Nat × Nat)) (s : State), PoolKept st s →
    ∃ rs, SentParts st s (addReads w e cap off s parts) cap (fun a => .read e (a.1 / 32) (a.2 / 32) []) off parts rs
  | [], s, _ => ⟨[], (List.append_nil _).symm, .nil, .refl s, rfl⟩
  | (a, n) :: parts, s, k => by
    obtain ⟨-, r, h⟩ := addPoolOp_sends k w (.read e (a / 32) (n / 32) []) cap (off + a) .atBridge
    obtain ⟨rs, hrs⟩ := addReads_sentParts st w e cap off parts _ (k.trans h.kept)
    exact ⟨r :: rs, .cons h hrs⟩

theorem addWrites_sentParts (st : State) (w : Nat) (cap : Cap) (off : Nat) (bs : List Byte) : ∀ (parts : List (Nat × Nat)) (s : State),
    PoolKept st s → ∃ rs, SentParts st s (addWrites w cap off bs s parts) cap (fun a => .write ((bs.drop a.1).take a.2)) off parts rs
  | [], s, _ => ⟨[], (List.append_nil _).symm, .nil, .refl s, rfl⟩
  | (a, n) :: parts, s, k => by
    obtain ⟨-, r, h⟩ := addPoolOp_sends k w (.write ((bs.drop a).take n)) cap (off + a) .atBridge
    obtain ⟨rs, hrs⟩ := addWrites_sentParts st w cap off bs parts _ (k.trans h.kept)
    exact ⟨r :: rs, .cons h hrs⟩

theorem SentParts.get {st s u : State} {cap : Cap} {op : Nat × Nat → PoolOp} {off : Nat} {parts : List (Nat × Nat)} {rs : List PoolReq}
    (h : SentParts st s u cap op off parts rs) :
    rs.length = parts.length ∧ ∀ (j : Nat) (_ : j < rs.length) (_ : j < parts.length), AsksHome st cap st (op parts[j]) (off + parts[j].1) rs[j] :=
  ⟨h.asks.length_eq, fun _ hj g => h.asks.get hj g⟩

/-! The words. -/

/-- The effect of a word on the capability in a k-register: all zeros raise CAPFAIL at issue (R81, R287). -/
def capBody (k : BitVec 4) (body : Cap → State → Res) (s : State) : Res :=
  if s.cur.readK k.toNat = 0 then .trap .capfail 0 else body (s.cur.readK k.toNat) s

section
variable {i : Instr} {info : AInfo} {k : BitVec 4} {body : Cap → State → Res} {st : State} (w : WordReady i info (capBody k body) st)
include w

theorem capfail_traps (h : st.cur.readK k.toNat = 0) : Traps i st .capfail 0 :=
  w.traps (by rw [capBody, if_pos h])

variable (h : st.cur.readK k.toNat ≠ 0)
include h

theorem capWord_issues {u : State} (hb : body (st.cur.readK k.toNat) st = .done u) : Issues i st u :=
  w.issues (by rw [capBody, if_neg h]; exact hb)

theorem capWord_traps {code : FaultCode} {v : Word} (hb : body (st.cur.readK k.toNat) st = .trap code v) : Traps i st code v :=
  w.traps (by rw [capBody, if_neg h]; exact hb)

/-- A word whose effect is one request. -/
theorem capWord_sends {x : State} {op : PoolOp} {off : Nat} {hold : Bool} {mark : Cell → Cell} {u : State} {cap : Cap}
    (hb : body (st.cur.readK k.toNat) st = .done u) (hu : ∃ r, SentOne st x u cap op off hold mark r) :
    ∃ u r, Issues i st u ∧ SentOne st x u cap op off hold mark r :=
  hu.elim fun r hr => ⟨u, r, capWord_issues w h hb, hr⟩

end

theorem AsksHome.from {st x : State} (kx : PoolKept st x) {cap : Cap} {op : PoolOp} {off : Nat} {r : PoolReq} (h : AsksHome st cap st op off r) :
    AsksHome st cap x op off r := by
  obtain ⟨h1, h2, h3, h4, h5, h6, h7, h8, h9⟩ := h
  exact ⟨h1, h2, h3, h4, h5, h6, h7, h8.trans (kx.pts _).symm, h9⟩

/-- The effect of a `pat` (R290). -/
def patBody (op : RmwOp) (n : Nat) (d s : BitVec 5) (cap : Cap) (st : State) : Res :=
  let c := st.cur
  let o := c.readA s.toNat
  if o.toNat % n ≠ 0 then .trap .align o
  else
    let v := c.readA d.toNat
    let (data, expd) := if op = .cas then (c.readA (d.toNat + 1), v) else (v, 0)
    let (word, s1) := st.fresh
    let (_, s2) := addPoolOp s1 word (.rmw op n data expd d) cap o.toNat .atBridge
    .done (s2.upd (fun c => c.pend d.toNat))

/-- What a `pat` compares with and stores (R290). -/
def patData (op : RmwOp) (d : BitVec 5) (c : Cell) : Word × Word :=
  if op = .cas then (c.readA (d.toNat + 1), c.readA d.toNat) else (c.readA d.toNat, 0)

theorem patBody_sends (op : RmwOp) (n : Nat) (d s : BitVec 5) (cap : Cap) (st : State) (h : (st.cur.readA s.toNat).toNat % n = 0) :
    ∃ u r, patBody op n d s cap st = .done u ∧ SentOne st st u cap
      (.rmw op n (patData op d st.cur).1 (patData op d st.cur).2 d) (st.cur.readA s.toNat).toNat false (fun c => c.pend d.toNat) r := by
  obtain ⟨r, hr⟩ := addPoolOp_sentOne (.refl st) (.rmw op n (patData op d st.cur).1 (patData op d st.cur).2 d) cap
    (st.cur.readA s.toNat).toNat .atBridge false (fun c => c.pend d.toNat)
  exact ⟨_, r, by simp only [patBody, h, ne_eq, not_true_eq_false, if_false]; rfl, hr⟩

theorem patBody_misaligned (op : RmwOp) (n : Nat) (d s : BitVec 5) (cap : Cap) (st : State) (h : (st.cur.readA s.toNat).toNat % n ≠ 0) :
    patBody op n d s cap st = .trap .align (st.cur.readA s.toNat) := by
  simp only [patBody, h, ne_eq, not_false_eq_true, if_true]

/-- A word on an object with a release before it (R291, R315). -/
def releasedBody (op : State → PoolOp) (cap : Cap) (st : State) : Res :=
  release st 4 (fun t => .done (sendObject cap (op t) false id t))

theorem releasedBody_sends {st x : State} (op : State → PoolOp) (cap : Cap)
    (h : releaseOf st st.me 4 (fun _ => true) = .done x) :
    PoolKept st x ∧ ∃ u r, releasedBody op cap st = .done u ∧ SentOne st x u cap (op x) 0 false id r := by
  have k := PoolKept.of_release h
  obtain ⟨r, hr⟩ := sendObject_sentOne k cap (op x) false id
  exact ⟨k, _, r, release_done h, hr⟩

/-- The effect of a `pld` (R288). -/
def pldBody (n : Nat) (q : BitVec 4) (s : BitVec 5) (cap : Cap) (st : State) : Res :=
  let c := st.cur
  let o := c.readA s.toNat
  if o.toNat % 32 ≠ 0 then .trap .align o
  else if c.qcapOf q.toNat < blocksOf n then .trap .qsize c.A.pc
  else if !c.canDraw q.toNat (blocksOf n) then .stay .draw st
  else
    let (e, s1) := st.fresh
    let (word, s2) := s1.fresh
    let s3 := s2.upd (fun c => c.reserve q.toNat (loadEntry c e n (List.range (n / 32))))
    .done (addReads word e cap o.toNat s3 (pageParts o.toNat n))

theorem pldBody_sends {n : Nat} {q : BitVec 4} {s : BitVec 5} {st : State} (cap : Cap) (h : (st.cur.readA s.toNat).toNat % 32 = 0)
    (hq : blocksOf n ≤ st.cur.qcapOf q.toNat) (hd : st.cur.canDraw q.toNat (blocksOf n) = true) :
    let o := (st.cur.readA s.toNat).toNat
    ∃ u rs, pldBody n q s cap st = .done u
      ∧ SentParts st (st.fresh.2.fresh.2.upd (fun c => c.reserve q.toNat (loadEntry c st.nextId n (List.range (n / 32))))) u cap
        (fun a => .read st.nextId (a.1 / 32) (a.2 / 32) []) o (pageParts o n) rs := by
  intro o
  obtain ⟨rs, hrs⟩ := addReads_sentParts st st.fresh.2.nextId st.nextId cap o (pageParts o n)
    (st.fresh.2.fresh.2.upd (fun c => c.reserve q.toNat (loadEntry c st.nextId n (List.range (n / 32)))))
    (((PoolKept.fresh st).trans (.fresh _)).trans (.upd ..))
  refine ⟨_, rs, ?_, hrs⟩
  simp only [pldBody, h, hd, Nat.not_lt.2 hq, ne_eq, not_true_eq_false, if_false, Bool.not_true, Bool.false_eq_true]
  rfl

/-- The effect of a `pst` (R288, R289). -/
def pstBody (n : Nat) (q : BitVec 4) (s : BitVec 5) (cap : Cap) (st : State) : Res :=
  let c := st.cur
  let o := c.readA s.toNat
  if o.toNat % 32 ≠ 0 then .trap .align o
  else
    match c.headAt q.toNat 0 with
    | .error w => .stay w st
    | .ok e =>
      let off := if capWlen cap = 0 then o.toNat else capWstart cap * 4096 + o.toNat
      if e.size ≠ n then .trap .qsize c.A.pc
      else if readsPending st (capOid cap).toNat off n then .stay .external st
      else
        let bs := fitBytes n (c.entryBytes e)
        let (word, s1) := st.fresh
        let s2 := s1.upd (fun c => c.popHead q.toNat)
        let s3 := updateSectors s2.myPkg (capOid cap).toNat off s2 (granules (n / 32) bs)
        .done (addWrites word cap o.toNat bs s3 (pageParts off n))

section
variable {n : Nat} {q : BitVec 4} {s : BitVec 5} {st : State} {cap : Cap} {e : QEntry}
  (h : (st.cur.readA s.toNat).toNat % 32 = 0) (he : st.cur.headAt q.toNat 0 = .ok e)
include h he

theorem pstBody_size (hs : e.size ≠ n) : pstBody n q s cap st = .trap .qsize st.cur.A.pc := by
  simp only [pstBody, h, he, hs, ne_eq, not_true_eq_false, not_false_eq_true, if_false, if_true]

/-- The offset within the object of an access at an offset of a capability (R288). -/
def objectOff (cap : Cap) (o : Nat) : Nat := if capWlen cap = 0 then o else capWstart cap * 4096 + o

theorem pstBody_waits (hs : e.size = n) (hp : readsPending st (capOid cap).toNat (objectOff cap (st.cur.readA s.toNat).toNat) n = true) :
    pstBody n q s cap st = .stay .external st := by
  rw [objectOff] at hp
  simp only [pstBody, h, he, hs, hp, ne_eq, not_true_eq_false, if_false, if_true]

theorem pstBody_sends (hs : e.size = n) (hp : readsPending st (capOid cap).toNat (objectOff cap (st.cur.readA s.toNat).toNat) n = false) :
    ∃ s3 u rs, pstBody n q s cap st = .done u ∧ PoolKept st s3 ∧ s3.cur.queues = (st.cur.popHead q.toNat).queues ∧ s3.reqs = st.reqs
      ∧ SentParts st s3 u cap (fun a => .write (((fitBytes n (st.cur.entryBytes e)).drop a.1).take a.2)) (st.cur.readA s.toNat).toNat
        (pageParts (objectOff cap (st.cur.readA s.toNat).toNat) n) rs := by
  have k2 : PoolKept st (st.fresh.2.upd (fun c => c.popHead q.toNat)) := (PoolKept.fresh st).trans (.upd ..)
  have k3 := k2.trans (.updateSectors st.myPkg (capOid cap).toNat (granules (n / 32) (fitBytes n (st.cur.entryBytes e)))
    (objectOff cap (st.cur.readA s.toNat).toNat) _)
  obtain ⟨hc, hr⟩ := updateSectors_cur st.myPkg (capOid cap).toNat (granules (n / 32) (fitBytes n (st.cur.entryBytes e)))
    (objectOff cap (st.cur.readA s.toNat).toNat) (st.fresh.2.upd (fun c => c.popHead q.toNat))
  have hq : (st.fresh.2.upd (fun c => c.popHead q.toNat)).cur = st.cur.popHead q.toNat := State.upd_cur ..
  obtain ⟨rs, hrs⟩ := addWrites_sentParts st st.nextId cap (st.cur.readA s.toNat).toNat (fitBytes n (st.cur.entryBytes e))
    (pageParts (objectOff cap (st.cur.readA s.toNat).toNat) n) _ k3
  refine ⟨_, _, rs, ?_, k3, by rw [hc, hq], hr, hrs⟩
  rw [objectOff] at hp
  simp only [pstBody, h, he, hs, hp, ne_eq, not_true_eq_false, if_false, Bool.false_eq_true]
  rfl

end

/-- The effect of a `kinf` (R111). -/
def kinfBody (d s : BitVec 5) (k : BitVec 4) (st : State) : Res :=
  let cap := st.cur.readK k.toNat
  let sel := (st.cur.readA s.toNat).toNat
  if sel < 16 ∨ 24 ≤ sel then .done (putA st d.toNat (kinfLocal st cap sel))
  else if cap = 0 then .trap .capfail 0
  else
    match st.cur.joined with
    | none =>
      let (word, s1) := st.fresh
      let (id, s2) := addPoolOp s1 word (.field sel d) cap 0 .atBridge
      .stay .external (s2.upd (fun c => { c with joined := some id }))
    | some id =>
      let gone (t : State) := dropReq (t.upd (fun c => { c.dropOp id with joined := none })) id
      match req? st id with
      | some r =>
        match (if hasReturned st r then r.answer else .none) with
        | .ok v _ t _ => .done (putA (gone (st.upd (fun c => c.saw t))) d.toNat v)
        | .refused code => .trapWith (gone st) code (zx (capOid cap))
        | _ => .stay .external st
      | none => .stay .external (gone st)

/-- A word whose effect keeps it at the word, in a state that the effect has moved on. -/
theorem WordReady.keeps {i : Instr} {info : AInfo} {s u : State} {body : State → Res} (w : WordReady i info body s) {k : WaitKind}
    (hb : body s = .stay k u) : Machine.exec i s = .next (setWait u .A k) := by
  rw [w.exec, aWord_go w.go, hb]; rfl

section
variable {d s : BitVec 5} {k : BitVec 4} {st : State} (h16 : 16 ≤ (st.cur.readA s.toNat).toNat) (h24 : (st.cur.readA s.toNat).toNat < 24)
include h16 h24

theorem kinfBody_capfail (h : st.cur.readK k.toNat = 0) : kinfBody d s k st = .trap .capfail 0 := by
  simp only [kinfBody, h, if_true, Nat.not_lt.2 h16, Nat.not_le.2 h24, or_self, if_false]

theorem kinfBody_asks (h : st.cur.readK k.toNat ≠ 0) (hj : st.cur.joined = none) :
    ∃ u r, kinfBody d s k st = .stay .external u ∧ u.reqs = st.reqs ++ [r] ∧ u.cur.joined = some r.id ∧ u.cur.A = st.cur.A
      ∧ AsksHome st (st.cur.readK k.toNat) st (.field (st.cur.readA s.toNat).toNat d) 0 r := by
  obtain ⟨hid, r, hr⟩ := addPoolOp_sends (PoolKept.fresh st) st.nextId (.field (st.cur.readA s.toNat).toNat d) (st.cur.readK k.toNat) 0 .atBridge
  refine ⟨(addPoolOp st.fresh.2 st.nextId (.field (st.cur.readA s.toNat).toNat d) (st.cur.readK k.toNat) 0 .atBridge).2.upd
    (fun c => { c with joined := some st.fresh.2.nextId }), r, ?_, hr.reqs, ?_, ?_, hr.asks⟩
  · simp only [kinfBody, h, hj, Nat.not_lt.2 h16, Nat.not_le.2 h24, or_self, if_false]
    rfl
  · rw [State.upd_cur, hr.id]
  · rw [State.upd_cur, hr.cur]; rfl

theorem kinfBody_answered (h : st.cur.readK k.toNat ≠ 0) {id t w : Nat} {r : PoolReq} {v : Word} {e : Bool}
    (hj : st.cur.joined = some id) (hr : req? st id = some r) (hb : hasReturned st r = true) (ha : r.answer = .ok v e t w) :
    ∃ u, kinfBody d s k st = .done u ∧ (d ≠ 0 → u.cur.readA d.toNat = v) ∧ u.cur.joined = none ∧ req? u id = none := by
  refine ⟨putA (dropReq ((st.upd (fun c => c.saw t)).upd (fun c => { c.dropOp id with joined := none })) id) d.toNat v, ?_,
    fun hd => ?_, ?_, ?_⟩
  · simp only [kinfBody, h, hj, hr, hb, ha, Nat.not_lt.2 h16, Nat.not_le.2 h24, or_self, if_false, if_true]
  · have hd' : d.toNat ≠ 0 := fun h => hd (by simpa using BitVec.eq_of_toNat_eq h)
    rw [putA, State.upd_cur, Cell.readA_writeA_self, if_neg hd']
  · rw [putA, State.upd_cur]
    have hc : (dropReq ((st.upd (fun c => c.saw t)).upd (fun c => { c.dropOp id with joined := none })) id).cur.joined = none :=
      congrArg Cell.joined (State.upd_cur (st.upd (fun c => c.saw t)) (fun c => { c.dropOp id with joined := none }))
    unfold Cell.writeA
    split <;> exact hc
  · simp [req?, putA, dropReq]

end

/-- What waits for the response of a ppop: its register and p15 (R291). -/
def pendPop (d : BitVec 5) (c : Cell) : Cell := { c.pend d.toNat with pendP15 := true }

/-- A waiting A engine. -/
theorem setWait_A_cur (u : State) (k : WaitKind) : (setWait u .A k).cur = { u.cur with A := { u.cur.A with wait := k } } :=
  State.upd_cur ..

/-- What a word that sends one request does, in the terms of the statement. -/
theorem SentOne.spelled {st x u : State} {cap : Cap} {op : PoolOp} {off : Nat} {hold : Bool} {mark : Cell → Cell} {r : PoolReq}
    (k : PoolKept st x) (h : SentOne st x u cap op off hold mark r) :
    u.reqs = x.reqs ++ [r] ∧ AsksHome st cap x op off r ∧ u.mem = x.mem ∧ (∀ j, j ≠ st.me → u.cell j = x.cell j)
    ∧ u.cur = mark { x.cur with
        ops := x.cur.ops ++ [opOfReq (r.id - 1) r], acquire := if hold then r.id :: x.cur.acquire else x.cur.acquire } :=
  ⟨h.reqs, h.asks.from k, h.mem, h.away, h.cur⟩

/-- Settles O41: each word's effect is one of `patBody_…`, `sendObject_sentOne`, `releasedBody_sends`, `pldBody_sends`, `pstBody_…` and
`kinfBody_…`. -/
theorem poolWordsSendTheirRequests : Obligations.PoolWordsSendTheirRequests := by
  unfold Obligations.PoolWordsSendTheirRequests
  intro p k q z1 c1 z s d st cap a o asked sends pends released capfail
  have hsends {i : Instr} {x : State} {op : PoolOp} {off : Nat} {hold : Bool} {mark : Cell → Cell} (kx : PoolKept st x)
      (h : ∃ u r, Issues i st u ∧ SentOne st x u cap op off hold mark r) : sends i x op off hold mark := by
    obtain ⟨u, r, hi, hr⟩ := h
    exact ⟨u, r, hi, hr.spelled kx⟩
  have hreleased {op : State → PoolOp} {f : State → Prop} {i : Instr} {info : AInfo}
      (w : WordReady i info (capBody k (releasedBody op)) st) (hc : cap ≠ 0)
      (hf : ∀ x, sends i x (op x) 0 false id → f x) : released f := by
    intro x hx
    obtain ⟨kx, u, r, hb, hr⟩ := releasedBody_sends op cap hx
    exact hf x (hsends kx ⟨u, r, capWord_issues w hc hb, hr⟩)
  have hobject {op : State → PoolOp} {hold : Bool} {mark : Cell → Cell} {i : Instr} {info : AInfo}
      (w : WordReady i info (capBody k (fun cap st => .done (sendObject cap (op st) hold mark st))) st) (hc : cap ≠ 0) :
      sends i st (op st) 0 hold mark :=
    hsends (.refl st) (capWord_sends w hc rfl (sendObject_sentOne (.refl st) cap (op st) hold mark))
  have hpat {op : RmwOp} {n : Nat} {i : Instr} {info : AInfo} (w : WordReady i info (capBody k (patBody op n d s)) st) :
      capfail i ∧ (cap ≠ 0 → o.toNat % n ≠ 0 → Traps i st .align o) ∧ (cap ≠ 0 → o.toNat % n = 0 →
        sends i st (.rmw op n (patData op d st.cur).1 (patData op d st.cur).2 d) o.toNat false pends) := by
    refine ⟨capfail_traps w, fun hc hn => capWord_traps w hc (patBody_misaligned op n d s cap st hn), fun hc hn => ?_⟩
    obtain ⟨u, r, hb, hr⟩ := patBody_sends op n d s cap st hn
    exact hsends (.refl st) ⟨u, r, capWord_issues w hc hb, hr⟩
  refine ⟨fun g => ?pats, fun g => ?patCas, fun g => ?objects, fun g => ?ppop, fun g => ?spans, fun g => ?answers⟩
  case pats =>
    have hword {i : Instr} {op : RmwOp} {n : Nat} (he : Machine.exec i st
        = aWord { pg := p, aregs := [s.toNat, d.toNat], kregs := [k.toNat], access := true } (capBody k (patBody op n d s)) st)
        (hd : destOf i = 0) (hl : landsLater i = false) :
        WordReady i { pg := p, aregs := [s.toNat, d.toNat], kregs := [k.toNat], access := true } (capBody k (patBody op n d s)) st :=
      ⟨g, he, rfl, hd, hl⟩
    exact ⟨hpat (hword rfl rfl rfl), hpat (hword rfl rfl rfl), hpat (hword rfl rfl rfl), hpat (hword rfl rfl rfl),
      hpat (hword rfl rfl rfl), hpat (hword rfl rfl rfl), hpat (hword rfl rfl rfl), hpat (hword rfl rfl rfl),
      hpat (hword rfl rfl rfl), hpat (hword rfl rfl rfl)⟩
  case patCas => exact hpat (op := .cas) ⟨g, rfl, rfl, rfl, rfl⟩
  case objects =>
    have wpush : WordReady (.ppush p d k) _ (capBody k (releasedBody fun x => .push (x.cur.readA d.toNat))) st := ⟨g, rfl, rfl, rfl, rfl⟩
    have wgive : WordReady (.pgive p d k) _ (capBody k (releasedBody fun x => .give (x.cur.readA d.toNat))) st := ⟨g, rfl, rfl, rfl, rfl⟩
    have wtake : WordReady (.ptake p d k) _ (capBody k (fun cap st => .done (sendObject cap
      ((fun st => .take (st.cur.readA d.toNat) 0 d : State → PoolOp) st) true (fun c => c.pend d.toNat) st))) st := ⟨g, rfl, rfl, rfl, rfl⟩
    have wacq : WordReady (.wlacq p d k) _ (capBody k (fun cap st => .done (sendObject cap
      ((fun _ => .acquire d : State → PoolOp) st) true (fun c => c.pend d.toNat) st))) st := ⟨g, rfl, rfl, rfl, rfl⟩
    refine ⟨capfail_traps wpush, capfail_traps wgive, capfail_traps wtake, capfail_traps wacq, fun hc => ⟨hobject wtake hc, hobject wacq hc, ?_⟩⟩
    have hpush : released (fun x => sends (.ppush p d k) x (.push (x.cur.readA d.toNat)) 0 false id) := hreleased wpush hc fun _ h => h
    have hgive : released (fun x => sends (.pgive p d k) x (.give (x.cur.readA d.toNat)) 0 false id) := hreleased wgive hc fun _ h => h
    exact fun x hx => ⟨hpush x hx, hgive x hx⟩
  case ppop =>
    let body := capBody k (fun cap st => .later (sendObject cap (.pop d) true (pendPop d) st))
    have he : Machine.exec (.ppop p d k) st =
        aWord { pg := p, dest := 15, aregs := [d.toNat], kregs := [k.toNat], access := true } body st := rfl
    refine ⟨fun hc => ?_, fun hc => hsends (mark := pendPop d) (.refl st) ?_⟩
    · exact he.trans (aWord_trap g (body := body) (if_pos hc))
    · obtain ⟨r, hr⟩ := sendObject_sentOne (.refl st) cap (.pop d) true (pendPop d)
      obtain ⟨t, ht, issued⟩ := aWord_later g (body := body) (if_neg hc)
      exact ⟨_, r, ⟨t, he.trans ht, issued⟩, hr⟩
  case spans =>
    have wrenew : WordReady (.wlrenew p s k) _ (capBody k (fun cap st => .done (sendObject cap
      ((fun st => .renew (st.cur.readA s.toNat) : State → PoolOp) st) false id st))) st := ⟨g, rfl, rfl, rfl, rfl⟩
    have wrel : WordReady (.wlrel p s k) _ (capBody k (releasedBody fun x => .release (x.cur.readA s.toNat))) st := ⟨g, rfl, rfl, rfl, rfl⟩
    have wpld : WordReady (.pld p z q s k) _ (capBody k (pldBody (32 * 2 ^ z.toNat) q s)) st := ⟨g, rfl, rfl, rfl, rfl⟩
    have wpst : WordReady (.pst p z q s k) _ (capBody k (pstBody (32 * 2 ^ z.toNat) q s)) st := ⟨g, rfl, rfl, rfl, rfl⟩
    refine ⟨capfail_traps wrenew, capfail_traps wrel, capfail_traps wpld, capfail_traps wpst, fun hc =>
      ⟨hobject wrenew hc, hreleased wrel hc fun _ h => h, fun ho => ⟨capWord_traps wpld hc (if_pos ho), capWord_traps wpst hc (if_pos ho)⟩,
        fun ho hq hd => ?_, fun e ho he => ⟨fun hs => capWord_traps wpst hc (pstBody_size ho he hs), fun hs => ⟨fun hp => ?_, fun hp => ?_⟩⟩⟩⟩
    · obtain ⟨u, rs, hb, h⟩ := pldBody_sends cap ho hq hd
      obtain ⟨hlen, hasks⟩ := h.get
      exact ⟨u, rs, capWord_issues wpld hc hb, h.reqs, hlen, h.kept.mem, hasks, h.queues.trans (congrArg Cell.queues (State.upd_cur ..))⟩
    · exact wpst.waits (by rw [capBody, if_neg hc]; exact pstBody_waits ho he hs hp)
    · obtain ⟨s3, u, rs, hb, k3, hqueue, hreqs, h⟩ := pstBody_sends ho he hs hp
      obtain ⟨hlen, hasks⟩ := h.get
      exact ⟨u, rs, capWord_issues wpst hc hb, h.reqs.trans (by rw [hreqs]), hlen, h.kept.mem.trans k3.mem, hasks, h.queues.trans hqueue⟩
  case answers =>
    have wchk : WordReady (.wlchk p d s k) _ (capBody k (fun cap st => .done (sendObject cap
      ((fun st => .check (st.cur.readA s.toNat) d : State → PoolOp) st) false (fun c => c.pend d.toNat) st))) st := ⟨g, rfl, rfl, rfl, rfl⟩
    have wkinf : WordReady (.kinf p d s k) _ (kinfBody d s k) st := ⟨g, rfl, rfl, rfl, rfl⟩
    refine ⟨capfail_traps wchk, fun hc => hobject wchk hc, fun hs => wkinf.issues (if_pos hs), fun h16 h24 =>
      ⟨fun hc => wkinf.traps (kinfBody_capfail h16 h24 hc), fun hc hj => ?_, fun hc id r v e t w hj hr hb ha => ?_⟩⟩
    · obtain ⟨u, r, hb, hreqs, hjoined, hA, hasks⟩ := kinfBody_asks h16 h24 hc hj
      refine ⟨setWait u .A .external, r, wkinf.keeps hb, hreqs, hasks, ?_, ?_⟩
      · rw [setWait_A_cur]; exact hjoined
      · rw [setWait_A_cur]; exact (congrArg EngineState.pc hA : u.cur.A.pc = st.cur.A.pc)
    · obtain ⟨u, hu, hreg, hjoined, hgone⟩ := kinfBody_answered h16 h24 hc hj hr hb ha
      exact ⟨u, wkinf.issues hu, hreg, hjoined, hgone⟩

end Sys2Proof.Machine

/-! Copies queued on a tag, and the words of tags (R298, R304, R367 to R369). -/
namespace Sys2Proof.Machine
open Sys2Proof

/-! Loads that a word makes keep the focus. -/

theorem readFrom_focus {s t : State} {w : Word} {p : Site} {tlb : List TlbEntry} {bs : List Byte}
    (h : readFrom s w p tlb = .ok bs t) : t.focus = s.focus := by
  unfold readFrom at h
  split at h
  · cases h
  · cases h
    exact (congrArg State.focus (Counts.noteEcc s w p).rest :)

theorem readOne_focus {s t : State} {w : Word} {bs : List Byte} (h : readOne s w = .ok bs t) : t.focus = s.focus := by
  unfold readOne at h
  dsimp only at h
  split at h
  · cases h
  split at h
  · split at h
    · cases h
    · cases h
    · exact readFrom_focus h
    · cases h
  split at h
  · cases h
  split at h
  · cases h
  · exact readFrom_focus h

theorem readNow_focus {n : Nat} : ∀ {s t : State} {w : Word} {bs : List Byte}, readNow s w n = .ok bs t → t.focus = s.focus := by
  induction n with
  | zero => intro s t w bs h; cases h; rfl
  | succ n ih =>
    intro s t w bs h
    unfold readNow at h
    split at h
    · cases h
    split at h
    next hr =>
      split at h
      next hn => cases h; exact (ih hn).trans (readOne_focus hr)
      next r hn =>  exact absurd h (hn _ _)
    next r hn => exact absurd h (hn _ _)

theorem withRead_wait {s t : State} {w : Word} {n : Nat} {go : List Byte → State → Res} (h : readNow s w n = .wait t) :
    withRead s w n go = .stay .external t := by
  rw [withRead, h]

/-! The copy that a word queues. -/

/-- The copy that a word of the cell in focus of u queues on a tag, from a descriptor of 64 bytes (R298). -/
def queuedCopy (u : State) (host : Bool) (tag : Nat) (bs : List Byte) (src dst : Cap) : Copy :=
  { id := u.nextId, cell := u.me, home := u.me, tag := tag, host := host, running := false
    words := (List.range 8).map (fun i => wordAt bs (8 * i)), src := src, dst := dst, bytesIn := [], output := [], readAt := 0
    doneBytes := 0, code := none, wtime := 0, orphan := false, crc := 0xFFFFFFFF, begun := false, staged := false, missed := none
    packets := [] }

theorem queueCopy_copies (u : State) (host : Bool) (tag : Nat) (bs : List Byte) (src dst : Cap) :
    ((queueCopy u host tag bs src dst).die (queueCopy u host tag bs src dst).myDie).copies =
      (u.die u.myDie).copies ++ [queuedCopy u host tag bs src dst] :=
  congrArg Die.copies (State.modDie_die_self u.fresh.2 u.myDie (fun d => { d with copies := d.copies ++ [queuedCopy u host tag bs src dst] }))

theorem queueCopy_cur (u : State) (host : Bool) (tag : Nat) (bs : List Byte) (src dst : Cap) :
    (queueCopy u host tag bs src dst).cur = { u.cur with tags := dropKey u.cur.tags tag } :=
  State.upd_cur ..

/-! What a pour does once its descriptor is read. -/

/-- The k-registers that a descriptor names (R298 Table 8). -/
def pourSrc (bs : List Byte) : Nat := wf64 (wordAt bs 0x18) 11 8
def pourDst (bs : List Byte) : Nat := wf64 (wordAt bs 0x18) 15 12

/-- A `pour` with its descriptor bs read (R298). -/
def pourWith (t : BitVec 6) (bs : List Byte) (st : State) : Res :=
  let ctl := wordAt bs 0x18
  let sk := pourSrc bs
  let dk := pourDst bs
  let sp := ctl.getLsbD 3
  let dp := ctl.getLsbD 4
  let c := st.cur
  if tagPending st st.me t.toNat then .trap .illegal c.A.pc
  else if (sp && c.pendK.contains sk) || (dp && c.pendK.contains dk) then .stay .external st
  else if (sp && c.readK sk == 0) || (dp && c.readK dk == 0) then .trap .capfail 0
  else if 64 ≤ copiesOf st st.me then .stay .external st
  else release st (min 5 (wf64 ctl 2 0)) (fun u =>
    .done (queueCopy u false t.toNat bs (if sp then u.cur.readK sk else 0) (if dp then u.cur.readK dk else 0)))

section
variable {t : BitVec 6} {bs : List Byte} {x : State}

theorem pourWith_pending (h : tagPending x x.me t.toNat = true) : pourWith t bs x = .trap .illegal x.cur.A.pc := if_pos h

variable (ht : tagPending x x.me t.toNat = false) (hk : x.cur.pendK = [])
include ht hk

theorem pourWith_zeroCap (h : ((wordAt bs 0x18).getLsbD 3 = true ∧ x.cur.readK (pourSrc bs) = 0)
    ∨ ((wordAt bs 0x18).getLsbD 4 = true ∧ x.cur.readK (pourDst bs) = 0)) : pourWith t bs x = .trap .capfail 0 := by
  rcases h with ⟨hb, hc⟩ | ⟨hb, hc⟩ <;> simp [pourWith, ht, hk, hb, hc]

variable (hs : (wordAt bs 0x18).getLsbD 3 = true → x.cur.readK (pourSrc bs) ≠ 0)
  (hd : (wordAt bs 0x18).getLsbD 4 = true → x.cur.readK (pourDst bs) ≠ 0)
include hs hd

/-- With its capabilities there, a pour waits for a place among the cell's copies and then makes its release. -/
theorem pourWith_go : pourWith t bs x = if 64 ≤ copiesOf x x.me then .stay .external x
    else release x (min 5 (wf64 (wordAt bs 0x18) 2 0)) (fun u =>
      .done (queueCopy u false t.toNat bs (if (wordAt bs 0x18).getLsbD 3 then u.cur.readK (pourSrc bs) else 0)
        (if (wordAt bs 0x18).getLsbD 4 then u.cur.readK (pourDst bs) else 0))) := by
  have hcap : ((wordAt bs 0x18).getLsbD 3 && x.cur.readK (pourSrc bs) == 0
      || (wordAt bs 0x18).getLsbD 4 && x.cur.readK (pourDst bs) == 0) = false := by
    simpa using ⟨hs, hd⟩
  simp only [pourWith, ht, hk, hcap, List.contains_nil, Bool.and_false, Bool.or_self, Bool.false_eq_true, if_false]

theorem pourWith_full (h : 64 ≤ copiesOf x x.me) : pourWith t bs x = .stay .external x :=
  (pourWith_go ht hk hs hd).trans (if_pos h)

theorem pourWith_queues (h : copiesOf x x.me < 64) {u : State}
    (hu : releaseOf x x.me (min 5 (wf64 (wordAt bs 0x18) 2 0)) (fun _ => true) = .done u) :
    pourWith t bs x = .done (queueCopy u false t.toNat bs (if (wordAt bs 0x18).getLsbD 3 then u.cur.readK (pourSrc bs) else 0)
      (if (wordAt bs 0x18).getLsbD 4 then u.cur.readK (pourDst bs) else 0)) :=
  (pourWith_go ht hk hs hd).trans ((if_neg (Nat.not_le.2 h)).trans (release_done hu))

end

/-- The effect of a `pour` (R298). -/
def pourBody (t : BitVec 6) (s : BitVec 5) (st : State) : Res :=
  if (st.cur.readA s.toNat).toNat % 64 ≠ 0 then .trap .align (st.cur.readA s.toNat)
  else withRead st (st.cur.readA s.toNat) 4 (pourWith t)

/-- An `hpour` with its descriptor read, and its effect (R304, R393). -/
def hpourWith (t : BitVec 6) (bs : List Byte) (st : State) : Res :=
  if tagPending st st.me t.toNat then .trap .illegal st.cur.A.pc
  else if 64 ≤ copiesOf st st.me then .stay .external st
  else release st 5 (fun u => .done (queueCopy u true t.toNat bs 0 0))

def hpourBody (t : BitVec 6) (s : BitVec 5) (st : State) : Res :=
  if (st.cur.readA s.toNat).toNat % 64 ≠ 0 then .trap .align (st.cur.readA s.toNat)
  else withRead st (st.cur.readA s.toNat) 4 (hpourWith t)

/-! Ready tags. -/

/-- The lowest ready tag of a mask is ready, and no lower tag of the mask is (R369). -/
theorem lowestReady_spec {c : Cell} {m : Word} {n : Nat} (h : lowestReady c m = some n) :
    n < 64 ∧ m.getLsbD n = true ∧ ∃ g, find? c.tags n = some g ∧ g.ready = true
    ∧ ∀ k h, k < n → m.getLsbD k = true → find? c.tags k = some h → h.ready = false := by
  obtain ⟨hn, hmem, hlow⟩ := List.find?_range_eq_some.1 h
  rw [Bool.and_eq_true] at hn
  obtain ⟨hbit, hready⟩ := hn
  refine ⟨List.mem_range.1 hmem, hbit, ?_⟩
  split at hready
  next g hg =>
    refine ⟨g, hg, hready, fun k t hk hb ht => ?_⟩
    simpa [hb, ht] using hlow k hk
  next => cases hready

theorem acquireTag_ready {s : State} {n : Nat} {g : CopyTag} (hg : find? s.cur.tags n = some g) (hr : g.ready = true) :
    acquireTag s n = if 4 ≤ g.scope then s.modPkg s.myPkg (fun k => { k with pts := min (2 ^ 48 - 1) (max k.pts g.time) }) else s := by
  simp only [acquireTag, hg, hr, Bool.true_and, decide_eq_true_eq]
  rfl

/-- The parts of a descriptor's control word that a pour uses (R298 Table 8). -/
theorem pour_fields (bs : List Byte) : pourSrc bs = (wordAt bs 0x18).toNat / 256 % 16 ∧ pourDst bs = (wordAt bs 0x18).toNat / 4096 % 16
    ∧ wf64 (wordAt bs 0x18) 2 0 = (wordAt bs 0x18).toNat % 8 := by
  refine ⟨rfl, rfl, ?_⟩
  simp [wf64, fieldOf]

/-- Settles O44: a pour or hpour reads its descriptor and goes on as `pourWith_…` says, and the tag words do what `acquireTag` does for the
lowest ready tag. -/
theorem copyAndTagWords : Obligations.CopyAndTagWords := by
  unfold Obligations.CopyAndTagWords
  intro p t s d st w queued
  have hqueued {i : Instr} {u : State} {host : Bool} {bs : List Byte} {src dst : Cap} (hi : Issues i st (queueCopy u host t.toNat bs src dst))
      (hf : u.focus = st.focus) : queued i u host bs src dst :=
    ⟨_, queuedCopy u host t.toNat bs src dst, hi, queueCopy_copies .., rfl, rfl, congrArg cellIx hf, rfl, rfl, rfl, rfl, rfl, rfl,
      queueCopy_cur .., rfl⟩
  refine ⟨fun g => ?pour, fun g => ?hpour, fun g => ?tags, fun n h => ?lowest⟩
  case pour =>
    have wpour : WordReady (.pour p t s) _ (pourBody t s) st := ⟨g, rfl, rfl, rfl, rfl⟩
    have wall : WordReady (.ctwall p s) _ (fun st => if anyPending st (st.cur.readA s.toNat) then .stay .idle st
      else .done (acquireTags st ((List.range 64).filter (fun n => (st.cur.readA s.toNat).getLsbD n)))) st := ⟨g, rfl, rfl, rfl, rfl⟩
    have wclr : WordReady (.ctclr p s) _ (fun st => .done (st.upd (fun c => { c with
      tags := c.tags.filter (fun e => !((st.cur.readA s.toNat).getLsbD e.1 && e.2.ready && decide (e.2.since < st.cycle))) }))) st :=
      ⟨g, rfl, rfl, rfl, rfl⟩
    have hread (hw : w.toNat % 64 = 0) : pourBody t s st = withRead st w 4 (pourWith t) := if_neg (not_not_intro hw)
    refine ⟨fun hw => wpour.traps (if_pos hw), fun hw => ⟨fun e v hr => ?_, fun x hr => ?_, fun bs x hr => ?_⟩,
      fun h => wall.waits (if_pos h), fun h => wall.issues (if_neg (Bool.eq_false_iff.1 h)), wclr.issues rfl⟩
    · exact wpour.trapsAfter ((hread hw).trans (withRead_fault hr))
    · exact wpour.keeps ((hread hw).trans (withRead_wait hr))
    · intro ctl src dst sp dp
      have hbody : pourBody t s st = pourWith t bs x := (hread hw).trans (withRead_ok hr)
      obtain ⟨hsrc, hdst, hscope⟩ := pour_fields bs
      have hsrc' : x.cur.readK (pourSrc bs) = src := by rw [hsrc]
      have hdst' : x.cur.readK (pourDst bs) = dst := by rw [hdst]
      refine ⟨fun ht => wpour.traps (hbody.trans (pourWith_pending ht)), fun ht hk => ⟨fun hz => ?_, fun hs hd => ⟨fun hc => ?_, fun hc u hu => ?_⟩⟩⟩
      · exact wpour.traps (hbody.trans (pourWith_zeroCap ht hk (by rw [hsrc', hdst']; exact hz)))
      · exact wpour.keeps (hbody.trans (pourWith_full ht hk (by rw [hsrc']; exact hs) (by rw [hdst']; exact hd) hc))
      · have hrel : releaseOf x x.me (min 5 (wf64 (wordAt bs 0x18) 2 0)) (fun _ => true) = .done u := by rw [hscope]; exact hu
        have hq := pourWith_queues (t := t) ht hk (by rw [hsrc']; exact hs) (by rw [hdst']; exact hd) hc hrel
        rw [hsrc, hdst] at hq
        exact hqueued (wpour.issues (hbody.trans hq)) ((PoolKept.of_release hu).focus.trans (readNow_focus hr))
  case hpour =>
    have whpour : WordReady (.hpour p t s) _ (hpourBody t s) st := ⟨g, rfl, rfl, rfl, rfl⟩
    refine ⟨fun hw => whpour.traps (if_pos hw), fun hw bs x hr => ?_⟩
    have hbody : hpourBody t s st = hpourWith t bs x := (if_neg (not_not_intro hw)).trans (withRead_ok hr)
    refine ⟨fun ht => whpour.traps (hbody.trans (if_pos ht)), fun ht hc u hu => ?_⟩
    have hq : hpourWith t bs x = .done (queueCopy u true t.toNat bs 0 0) :=
      (if_neg (Bool.eq_false_iff.1 ht)).trans ((if_neg (Nat.not_le.2 hc)).trans (release_done hu))
    exact hqueued (whpour.issues (hbody.trans hq)) ((PoolKept.of_release hu).focus.trans (readNow_focus hr))
  case tags =>
    have wany : WordReady (.ctwany p s d) _ _ st := ⟨g, rfl, rfl, rfl, rfl⟩
    have wffr : WordReady (.ctffr p s d) _ _ st := ⟨g, rfl, rfl, rfl, rfl⟩
    have wstat : WordReady (.ctstat p s d) _ _ st := ⟨g, rfl, rfl, rfl, rfl⟩
    refine ⟨fun n h => ⟨wany.issues ?_, wffr.issues ?_⟩, fun h => ⟨wffr.issues ?_, fun ha => wany.waits ?_, fun ha => wany.issues ?_⟩,
      fun hw => wstat.issues (if_neg (Nat.not_le.2 hw)), fun hw => wstat.traps (if_pos hw)⟩
    · dsimp only; rw [h]
    · rw [h]
    · rw [h]
    · dsimp only; rw [h]; exact if_pos ha
    · dsimp only; rw [h]; exact if_neg (Bool.eq_false_iff.1 ha)
  case lowest =>
    obtain ⟨hn, hbit, g, hg, hr, hlow⟩ := lowestReady_spec h
    exact ⟨hn, hbit, g, hg, hr, hlow, acquireTag_ready hg hr⟩

end Sys2Proof.Machine

/-! Fences: what they wait for, discard and lift (R310 to R312, R316, R319). -/
namespace Sys2Proof.Machine
open Sys2Proof

/-! What a release finds (R311, R312). -/

section
variable {s : State} {scope : Nat} {covers : MemOp → Bool}

/-- A release waits for an operation that it covers, is not dead and is not performed at its scope. -/
theorem releaseOf_waits {o : MemOp} (ho : o ∈ s.cur.ops) (hc : covers o = true) (hd : isDead s o = false)
    (hp : performedAt s.me scope o = false) : releaseOf s s.me scope covers = .wait := by
  have hany : (s.cell s.me).ops.any (fun o => covers o && !isDead s o && !performedAt s.me scope o) = true :=
    List.any_eq_true.2 ⟨o, ho, by simp [hc, hd, hp]⟩
  simp only [releaseOf, releaseUnder, releaseLook, hany, if_true]

/-- Nothing holds a release back. -/
def Unheld (s : State) (scope : Nat) (covers : MemOp → Bool) : Prop :=
  ∀ o ∈ s.cur.ops, covers o = true → isDead s o = true ∨ performedAt s.me scope o = true

theorem releaseLook_unheld (h : Unheld s scope covers) :
    releaseLook s s.me scope (s.cell s.me) covers = some (s.cur.ops.filter (fun o => covers o && isDead s o)) := by
  refine if_neg ?_
  rw [Bool.not_eq_true, List.any_eq_false]
  intro o ho
  cases hc : covers o
  · simp
  · rcases h o ho hc with h | h <;> simp [h]

/-- A release with no dead write to discard is done at once. -/
theorem releaseOf_done (h : Unheld s scope covers) (hd : s.cur.ops.filter (fun o => covers o && isDead s o) = []) :
    releaseOf s s.me scope covers = .done s := by
  simp only [releaseOf, releaseUnder, releaseLook_unheld h, hd]

/-- The state once a release of the cell in focus has discarded dead writes (R312). -/
def discarded (s : State) (dead : List MemOp) : State := dropDead (s.modCell s.me (fun k => k.discardAll s.cycle dead)) dead

theorem releaseOf_dead (h : Unheld s scope covers) {o : MemOp} {ds : List MemOp}
    (hd : s.cur.ops.filter (fun o => covers o && isDead s o) = o :: ds) :
    releaseOf s s.me scope covers = if s.cur.engctl.getLsbD 1 then .severed (discarded s (o :: ds)) (deadPackage s o)
      else .done (discarded s (o :: ds)) := by
  simp only [releaseOf, releaseUnder, releaseLook_unheld h, hd]
  rfl

end

/-! What a discarded write leaves. -/

theorem finishWord_ast (c : Cell) (w : Nat) : (c.finishWord w).ast = c.ast := by
  unfold Cell.finishWord
  split
  · rfl
  split <;> rfl

theorem discard_ast (c : Cell) (o : MemOp) : (c.discard o).ast = c.ast := finishWord_ast ..

theorem discard_op? (c : Cell) (o : MemOp) (id : Nat) (h : o.id = id ∨ c.op? id = none) : (c.discard o).op? id = none := by
  rw [Cell.op?, Cell.discard, finishWord_ops]
  rcases h with rfl | h
  · exact dropOp_op? c o.id
  · rw [Cell.op?, List.find?_eq_none] at h
    rw [Cell.dropOp, List.find?_eq_none]
    exact fun x hx => h x (List.mem_of_mem_filter hx)

theorem discards_ast (dead : List MemOp) : ∀ c : Cell, (dead.foldl (fun c o => c.discard o) c).ast = c.ast := by
  induction dead with
  | nil => exact fun _ => rfl
  | cons o ds ih => exact fun c => (ih _).trans (discard_ast c o)

theorem discards_op? (dead : List MemOp) : ∀ (c : Cell) (id : Nat), (∃ o ∈ dead, o.id = id) ∨ c.op? id = none →
    (dead.foldl (fun c o => c.discard o) c).op? id = none := by
  induction dead with
  | nil =>
    rintro c id (⟨o, ho, -⟩ | h)
    · cases ho
    · exact h
  | cons o ds ih =>
    rintro c id (⟨x, hx, hid⟩ | h)
    · rcases List.mem_cons.1 hx with rfl | hx
      · exact ih _ id (.inr (discard_op? c x id (.inl hid)))
      · exact ih _ id (.inl ⟨x, hx, hid⟩)
    · exact ih _ id (.inr (discard_op? c o id (.inr h)))

theorem discarded_cur {s : State} {dead : List MemOp} (h : dead ≠ []) :
    (discarded s dead).cur = dead.foldl (fun c o => c.discard o) (s.cur.raiseAst s.cycle astSev) := by
  have hc : (discarded s dead).cur = s.cur.discardAll s.cycle dead :=
    State.modCell_cell_self s s.me (fun k => k.discardAll s.cycle dead)
  rw [hc, Cell.discardAll, if_neg (by simpa using h)]

/-! The words. -/

section
variable {s : State} {scope : Nat} {go : State → Res}

theorem release_severed {t : State} {v : Word} (h : releaseOf s s.me scope (fun _ => true) = .severed t v) :
    release s scope go = .trapWith t .severed v := by
  rw [release, h]

theorem acquireReads_wait (h : releaseOf s s.me 0 (fun o => !isWrite s o) = .wait) : acquireReads s go = .stay .external s := by
  rw [acquireReads, h]

theorem acquireReads_done {t : State} (h : releaseOf s s.me 0 (fun o => !isWrite s o) = .done t) : acquireReads s go = go t := by
  rw [acquireReads, h]

end

/-- A word whose effect raises a fault in the state it has brought the machine to. -/
theorem WordReady.trapsIn {i : Instr} {info : AInfo} {s u : State} {body : State → Res} (w : WordReady i info body s) {code : FaultCode}
    {v : Word} (hb : body s = .trapWith u code v) : Machine.exec i s = .next (takeFault u u.me 0 code v) := by
  rw [w.exec, aWord_go w.go, hb]; rfl

/-- Settles O40: each fence is a release, an acquire or both, whose outcome `releaseOf_…` says. -/
theorem fencesWaitForAccesses : Obligations.FencesWaitForAccesses := by
  unfold Obligations.FencesWaitForAccesses
  intro p c s g holds lifted waits dead gone ordered
  have wrel : WordReady (.fenceRel p c) _ (fun s => release s c.toNat .done) s := ⟨g, rfl, rfl, rfl, rfl⟩
  have wacq : WordReady (.fenceAcq p c) _ (fun s => acquireReads s (fun t => .done (acquireSeen t c.toNat))) s := ⟨g, rfl, rfl, rfl, rfl⟩
  have wsc : WordReady (.fenceSc p c) _ (fun s => release s c.toNat (fun t =>
    acquireReads t (fun t => .done (joinOrder (acquireSeen t c.toNat) c.toNat)))) s := ⟨g, rfl, rfl, rfl, rfl⟩
  have hjoin : joinOrder (acquireSeen s c.toNat) c.toNat = ordered := by
    by_cases h4 : 4 ≤ c.toNat
    · simp only [ordered, lifted, joinOrder, acquireSeen, h4, Nat.not_lt.2 h4, if_true, if_false]
      rfl
    · simp only [ordered, lifted, joinOrder, acquireSeen, h4, Nat.lt_of_not_le h4, if_true, if_false]
  refine ⟨fun ⟨o, ho, hd, hp⟩ => ?_, fun ⟨o, ho, hw, hd, hp⟩ => ?_, fun h => ?_, fun h => ?_, fun h => ?_, fun o ds hdead h => ?_⟩
  · have hr := releaseOf_waits (covers := fun _ => true) ho rfl hd hp
    exact ⟨wrel.waits (release_wait hr), wsc.waits (release_wait hr)⟩
  · exact wacq.waits (acquireReads_wait (releaseOf_waits ho (by simp [hw]) hd hp))
  · refine wrel.issues (release_done (releaseOf_done (fun o ho _ => .inr (h o ho).2) ?_))
    rw [List.filter_eq_nil_iff]
    exact fun o ho => by simp [(h o ho).1]
  · refine wacq.issues (acquireReads_done (releaseOf_done (fun o ho hc => ?_) ?_))
    · simp [h o ho] at hc
    · rw [List.filter_eq_nil_iff]
      exact fun o ho => by simp [h o ho]
  · have hrel (scope : Nat) (covers : MemOp → Bool) : releaseOf s s.me scope covers = .done s :=
      releaseOf_done (fun o ho => by rw [h] at ho; cases ho) (by rw [h]; rfl)
    refine wsc.issues ((release_done (hrel ..)).trans ((acquireReads_done (hrel ..)).trans ?_))
    rw [hjoin]
  · have hunheld : Unheld s c.toNat (fun _ => true) := fun x hx _ => by
      have := h x hx
      simp only [holds, not_and, Bool.not_eq_false] at this
      cases hx : isDead s x
      · exact .inr (this hx)
      · exact .inl rfl
    have hlist : s.cur.ops.filter (fun o => true && isDead s o) = o :: ds := by simpa using hdead
    have hrel := releaseOf_dead hunheld hlist
    have hgone : gone = discarded s (o :: ds) := by simp only [gone, discarded, hdead]
    have hcur : gone.cur = (o :: ds).foldl (fun c o => c.discard o) (s.cur.raiseAst s.cycle astSev) := by
      rw [hgone]; exact discarded_cur (List.cons_ne_nil o ds)
    refine ⟨?_, fun x hx => ?_, fun hs => ?_, fun hs => ?_⟩
    · rw [hcur, discards_ast]; rfl
    · rw [hcur]
      rw [hdead] at hx
      exact discards_op? _ _ _ (.inl ⟨x, hx, rfl⟩)
    · rw [hs] at hrel
      rw [hgone]
      exact wrel.issues (release_done hrel)
    · rw [hs] at hrel
      rw [hgone]
      exact wrel.trapsIn (release_severed hrel)

end Sys2Proof.Machine

/-! Ring slots, and requests that splice, are held or go on at a hold point (R325, R326, R331 to R334). -/
namespace Sys2Proof.Machine
open Sys2Proof

/-! RING_SLOT_ARRIVAL. -/

section
variable {d : DieId} {id : Nat} {s : State}

theorem ringSlotArrival_none (h : (s.pkg d.pkg.val).ringSlots.find? (·.id == id) = none) :
    exec (.ringSlotArrival d id) s = .next s := by
  show execRingSlotArrival d id s = _
  simp only [execRingSlotArrival, h]

variable {x : RingSlot} (hx : (s.pkg d.pkg.val).ringSlots.find? (·.id == id) = some x)
include hx

theorem ringSlotArrival_waits (h : stationOf d.die.val x.dst = false ∨ slotBehind x (s.pkg d.pkg.val).ringSlots = true
    ∨ ringClear s d.pkg.val x.src x.dst = false) : exec (.ringSlotArrival d id) s = .next s := by
  show execRingSlotArrival d id s = _
  simp only [execRingSlotArrival, hx]
  rcases h with h | h | h <;> simp [h]

variable (hs : stationOf d.die.val x.dst = true) (hc : ringClear s d.pkg.val x.src x.dst = true)
  (hb : slotBehind x (s.pkg d.pkg.val).ringSlots = false)
include hs hc hb

theorem ringSlotArrival_enters (he : x.entered = false) : exec (.ringSlotArrival d id) s = .next (s.setPkg d.pkg.val { s.pkg d.pkg.val with
    ringSlots := (s.pkg d.pkg.val).ringSlots.map (fun y => if y.id = id then { y with entered := true } else y) }) := by
  show execRingSlotArrival d id s = _
  simp only [execRingSlotArrival, hx, hs, hc, hb, he, Bool.not_true, Bool.not_false, Bool.false_eq_true, if_false, if_true]

/-- At its station a slot is taken off the ring, or refused once, on its first lap, with a buffer reserved. -/
theorem ringSlotArrival_arrives (he : x.entered = true) : ∃ P, exec (.ringSlotArrival d id) s = .next ({ s with free := s.free + 1 }.setPkg d.pkg.val P)
    ∧ (P.ringSlots = (s.pkg d.pkg.val).ringSlots.filter (·.id != id)
      ∨ (x.lap = 0 ∧ (s.pkg d.pkg.val).resv.contains (resvKey x) = false ∧ P.resv = resvKey x :: (s.pkg d.pkg.val).resv
        ∧ P.ringSlots = (s.pkg d.pkg.val).ringSlots.map (fun y => if y.id = id then { y with lap := 1, reserved := true } else y))) := by
  show ∃ P, execRingSlotArrival d id s = _ ∧ _
  simp only [execRingSlotArrival, hx, hs, hc, hb, he, Bool.not_true, Bool.false_eq_true, if_false]
  split
  next h =>
    simp only [Bool.and_eq_true, decide_eq_true_eq, Bool.not_eq_true'] at h
    obtain ⟨⟨hl, hr⟩, -⟩ := h
    exact ⟨_, rfl, .inr ⟨hl, hr, rfl, rfl⟩⟩
  next => exact ⟨_, rfl, .inl rfl⟩

end

/-! Requests by number. -/

theorem req?_id {s : State} {id : Nat} {r : PoolReq} (h : req? s id = some r) : r.id = id := by
  simpa using List.find?_some h

/-- A changed request that keeps its number is found under it. -/
theorem req?_modReq {s : State} {id : Nat} {r : PoolReq} {f : PoolReq → PoolReq} (n : Nat) (hf : ∀ x, (f x).id = x.id)
    (h : req? s id = some r) : req? (modReq s n f) id = some (if id = n then f r else r) := by
  have hg : ((fun x : PoolReq => x.id == id) ∘ fun x : PoolReq => if x.id = n then f x else x) = fun x => x.id == id := by
    funext x
    simp only [Function.comp]
    split
    · rw [hf]
    · rfl
  have h' : List.find? (fun x => x.id == id) s.reqs = some r := h
  simp only [req?, modReq, List.find?_map, hg, h', Option.map_some, req?_id h]

/-! Splices. -/

/-- The stage at which a request stands that a hold point has answered: on its way back, or at the node's front end (R294, R336). -/
def answeredStage : HoldPoint → ReqStage
  | .frontEnd _ => .answered
  | _ => .returning

theorem answeredStage_eq (h : HoldPoint) :
    answeredStage h = (match h with | .frontEnd _ => ReqStage.answered | _ => ReqStage.returning) := by
  cases h <;> rfl

/-- What a hold point leaves alone when it answers requests. -/
structure Answered (s t : State) : Prop where
  mem   : t.mem = s.mem
  cells : t.cells = s.cells

/-- A request answered at a hold point carries the value and a veto; another keeps what it was. -/
theorem answerHere_spec {s : State} (h : HoldPoint) {r : PoolReq} (v : Word) (t : Nat) (hr : req? s r.id = some r) :
    Answered s (answerHere s h r v t)
    ∧ req? (answerHere s h r v t) r.id = some { r with stage := answeredStage h, answer := .ok v false t 0, veto := true }
    ∧ ∀ id q, id ≠ r.id → req? s id = some q → req? (answerHere s h r v t) id = some q := by
  have h1 := req?_modReq (f := fun x => { x with stage := .answered, answer := .ok v false t 0, veto := true }) r.id (fun _ => rfl) hr
  rw [if_pos rfl] at h1
  have h2 := req?_modReq (f := fun x => { x with stage := .returning }) r.id (fun _ => rfl) h1
  rw [if_pos rfl] at h2
  have k1 (id : Nat) (q : PoolReq) (hq : id ≠ r.id) (h : req? s id = some q) := by
    have := req?_modReq (f := fun x => { x with stage := .answered, answer := .ok v false t 0, veto := true }) r.id (fun _ => rfl) h
    rwa [if_neg hq] at this
  have k2 (id : Nat) (q : PoolReq) (hq : id ≠ r.id) (h : req? s id = some q) := by
    have := req?_modReq (f := fun x => { x with stage := .returning }) r.id (fun _ => rfl) (k1 id q hq h)
    rwa [if_neg hq] at this
  cases h with
  | ringStation d => exact ⟨⟨rfl, rfl⟩, h2, k2⟩
  | bridgeStation d => exact ⟨⟨rfl, rfl⟩, h2, k2⟩
  | frontEnd n => exact ⟨⟨rfl, rfl⟩, h1, k1⟩

theorem countAt_answered (s : State) (h : HoldPoint) (k : Nat) : Answered s (countAt s h k) ∧ ∀ id, req? (countAt s h k) id = req? s id := by
  unfold countAt
  split
  · exact ⟨⟨rfl, rfl⟩, fun _ => rfl⟩
  · exact ⟨⟨rfl, rfl⟩, fun _ => rfl⟩

/-- A push and a pop that splice: the pop receives the pushed element, both are answered and owe a veto (R294). -/
theorem splice_push {s : State} (h : HoldPoint) {a b : PoolReq} {v : Word} {g : BitVec 5} (ha : a.op = .push v) (hb : b.op = .pop g)
    (hne : b.id ≠ a.id) (hra : req? s a.id = some a) (hrb : req? s b.id = some b) :
    Answered s (splice s h a b)
    ∧ req? (splice s h a b) a.id = some { a with stage := answeredStage h, answer := .ok 0 false 0 0, veto := true }
    ∧ req? (splice s h a b) b.id
      = some { b with stage := answeredStage h, answer := .ok (lowBytes v (elemSize s a)) false a.pts 0, veto := true } := by
  obtain ⟨kc, hc⟩ := countAt_answered s h 11
  obtain ⟨k1, h1, o1⟩ := answerHere_spec h 0 0 ((hc a.id).trans hra)
  obtain ⟨k2, h2, o2⟩ := answerHere_spec h (lowBytes v (elemSize s a)) a.pts (o1 b.id b hne ((hc b.id).trans hrb))
  have hs : splice s h a b = answerHere (answerHere (countAt s h 11) h a 0 0) h b (lowBytes v (elemSize s a)) a.pts := by
    simp only [splice, ha, hb]
  rw [hs]
  exact ⟨⟨(k2.mem.trans k1.mem).trans kc.mem, (k2.cells.trans k1.cells).trans kc.cells⟩, o2 _ _ (Ne.symm hne) h1, h2⟩

/-! HOLD_ARRIVAL and HOLD_WINDOW_EXPIRY. -/

/-- A request has arrived at a hold point: it stands there, of the version in force, off the ring, with none of its strand's earlier ones
for the object behind it (R331, R333). -/
def Arrived (s : State) (h : HoldPoint) (r : PoolReq) : Prop :=
  r.stage = atStage h ∧ pointOf r h = true ∧ r.op.isObject = true ∧ r.discarded = false ∧ versionOk s h r = true
  ∧ onRing s (pkgOfCell r.cell) r.id = false
  ∧ ∀ q ∈ s.reqs, q.id < r.id → orderedWith s q r = true → q.discarded = false → (heldStage h).rank ≤ q.stage.rank

theorem overtakes_eq_false {s : State} {h : HoldPoint} {r : PoolReq} : overtakes s h r = false ↔
    ∀ q ∈ s.reqs, q.id < r.id → orderedWith s q r = true → q.discarded = false → (heldStage h).rank ≤ q.stage.rank := by
  simp [overtakes, List.any_eq_false]

section
variable {s : State} {h : HoldPoint} {id : Nat} {r : PoolReq} (hr : req? s id = some r)
include hr

/-- What HOLD_ARRIVAL does with its request. -/
theorem holdArrival_eq : exec (.holdArrival h id) s =
    if r.stage ≠ atStage h ∨ !pointOf r h ∨ !r.op.isObject ∨ r.discarded ∨ !versionOk s h r ∨ onRing s (pkgOfCell r.cell) id
        ∨ overtakes s h r then .next s
    else if firstStage s r.cap r.op ≠ .atRing then .next (passBy s h r)
    else
      match partnerOf s h r with
      | some q => .next (if givesFirst r.op then splice s h r q else splice s h q r)
      | none =>
        if (windowAt s h r ≠ 0 ∨ !(ownHeld s h r).isEmpty) ∧ heldCount s h < 32 then .next (hold s h r)
        else if !(ownHeld s h r).isEmpty then .next s
        else .next (forward s h r) := by
  show execHoldArrival h id s = _
  unfold execHoldArrival
  rw [hr] <;> rfl

theorem holdArrival_not (ha : ¬ Arrived s h r) : exec (.holdArrival h id) s = .next s := by
  rw [holdArrival_eq hr, if_pos]
  by_contra hn
  simp only [not_or, ne_eq, not_not, Bool.not_eq_true', Bool.not_eq_false, Bool.not_eq_true] at hn
  obtain ⟨h1, h2, h3, h4, h5, h6, h7⟩ := hn
  exact ha ⟨h1, h2, h3, h4, h5, req?_id hr ▸ h6, overtakes_eq_false.1 h7⟩

variable (ha : Arrived s h r)
include ha

theorem holdArrival_arrived : exec (.holdArrival h id) s =
    if firstStage s r.cap r.op ≠ .atRing then .next (passBy s h r)
    else
      match partnerOf s h r with
      | some q => .next (if givesFirst r.op then splice s h r q else splice s h q r)
      | none =>
        if (windowAt s h r ≠ 0 ∨ !(ownHeld s h r).isEmpty) ∧ heldCount s h < 32 then .next (hold s h r)
        else if !(ownHeld s h r).isEmpty then .next s
        else .next (forward s h r) := by
  obtain ⟨h1, h2, h3, h4, h5, h6, h7⟩ := ha
  rw [req?_id hr] at h6
  rw [holdArrival_eq hr, if_neg]
  simp [h1, h2, h3, h4, h5, h6, overtakes_eq_false.2 h7]

theorem holdArrival_passes (hf : firstStage s r.cap r.op ≠ .atRing) : exec (.holdArrival h id) s = .next (passBy s h r) := by
  rw [holdArrival_arrived hr ha, if_pos hf]

variable (hf : firstStage s r.cap r.op = .atRing)
include hf

theorem holdArrival_splices {q : PoolReq} (hq : partnerOf s h r = some q) :
    exec (.holdArrival h id) s = .next (if givesFirst r.op then splice s h r q else splice s h q r) := by
  rw [holdArrival_arrived hr ha, if_neg (not_not_intro hf), hq]

variable (hq : partnerOf s h r = none)
include hq

theorem holdArrival_holds (hw : windowAt s h r ≠ 0 ∨ ownHeld s h r ≠ []) (hn : heldCount s h < 32) :
    exec (.holdArrival h id) s = .next (hold s h r) := by
  rw [holdArrival_arrived hr ha, if_neg (not_not_intro hf), hq]
  exact if_pos ⟨hw.imp_right (by simp), hn⟩

theorem holdArrival_full (hw : ownHeld s h r ≠ []) (hn : 32 ≤ heldCount s h) : exec (.holdArrival h id) s = .next s := by
  rw [holdArrival_arrived hr ha, if_neg (not_not_intro hf), hq]
  exact (if_neg (fun k => Nat.not_lt.2 hn k.2)).trans (if_pos (by simpa using hw))

theorem holdArrival_forward (hw : ownHeld s h r = []) (hn : windowAt s h r = 0 ∨ 32 ≤ heldCount s h) :
    exec (.holdArrival h id) s = .next (forward s h r) := by
  rw [holdArrival_arrived hr ha, if_neg (not_not_intro hf), hq]
  have hno : ¬((windowAt s h r ≠ 0 ∨ !(ownHeld s h r).isEmpty) ∧ heldCount s h < 32) := by
    rintro ⟨hk, hlt⟩
    rcases hn with h0 | h32
    · simp [h0, hw] at hk
    · omega
  exact (if_neg hno).trans (if_neg (by simp [hw]))

end

/-- The request that is held. -/
theorem req?_hold {s : State} {h : HoldPoint} {r : PoolReq} (hr : req? s r.id = some r) : req? (hold s h r) r.id =
    some { r with stage := heldStage h, since := s.cycle, expiry := s.cycle + windowAt s h r, order := s.nextId } := by
  have := req?_modReq (s := s.fresh.2)
    (f := fun x => { x with stage := heldStage h, since := s.cycle, expiry := s.cycle + windowAt s h r, order := s.nextId })
    r.id (fun _ => rfl) hr
  rwa [if_pos rfl] at this

/-- How a request leaves a hold point without a partner (R329, R332). -/
theorem forward_spec (s : State) (h : HoldPoint) (r : PoolReq) :
    (((∃ x, h = .bridgeStation x) → nodePresent s (pkgOfCell r.cell) r.node = true) →
      (mayAdvance s h r = true → forward s h r = countAt (advance s h r) h 12) ∧ (mayAdvance s h r = false → forward s h r = s))
    ∧ (¬ ((∃ x, h = .bridgeStation x) → nodePresent s (pkgOfCell r.cell) r.node = true) → forward s h r = refuseReq s r.id .staleTopo) := by
  cases h with
  | bridgeStation d =>
    refine ⟨fun hp => ?_, fun hp => ?_⟩
    · have hp := hp ⟨d, rfl⟩
      refine ⟨fun hm => ?_, fun hm => ?_⟩ <;> simp [forward, hp, hm]
    · have hp : nodePresent s (pkgOfCell r.cell) r.node = false := by
        rw [← Bool.not_eq_true]
        exact fun k => hp fun _ => k
      simp [forward, hp]
  | ringStation d => exact ⟨fun _ => ⟨fun _ => rfl, fun hm => by cases hm⟩, fun hp => absurd (by rintro ⟨x, hx⟩; cases hx) hp⟩
  | frontEnd n => exact ⟨fun _ => ⟨fun _ => rfl, fun hm => by cases hm⟩, fun hp => absurd (by rintro ⟨x, hx⟩; cases hx) hp⟩

theorem heldStage_ne_atStage (h : HoldPoint) : heldStage h ≠ atStage h := by cases h <;> simp [heldStage, atStage]

theorem ringClear_eq_true {s : State} {p a b : Nat} : ringClear s p a b = true ↔ ∀ k ∈ ringLinks a b, linkClear s p k = true := by
  simp [ringClear]

/-- Settles O46: the slot's ways are `ringSlotArrival_…`, a request's `holdArrival_…`, `splice_push` and `forward_spec`. -/
theorem ringSlotsAndSplices : Obligations.RingSlotsAndSplices := by
  unfold Obligations.RingSlotsAndSplices
  intro d h id s P
  refine ⟨fun x hx => ?_, fun x hx hs hl hb => ⟨fun he => ?_, fun he => ?_⟩, fun r hr hid => ?_⟩
  · rcases hx with hx | ⟨hx, hs | hb | ⟨k, hk, hkc⟩⟩
    · exact ringSlotArrival_none hx
    · exact ringSlotArrival_waits hx (.inl hs)
    · exact ringSlotArrival_waits hx (.inr (.inl hb))
    · refine ringSlotArrival_waits hx (.inr (.inr ?_))
      rw [← Bool.not_eq_true]
      intro hc
      exact Bool.false_ne_true (hkc.symm.trans (ringClear_eq_true.1 hc k hk))
  · exact ringSlotArrival_enters hx hs (ringClear_eq_true.2 hl) hb he
  · obtain ⟨Q, hQ, hor⟩ := ringSlotArrival_arrives hx hs (ringClear_eq_true.2 hl) hb he
    refine ⟨_, hQ, rfl, fun q hq => ?_, ?_⟩
    · rw [State.setPkg_pkg, if_neg hq]; rfl
    · rw [State.setPkg_pkg, if_pos rfl]; exact hor
  · intro arrived eligible there onward
    subst hid
    have harr : arrived ↔ Arrived s h r := Iff.rfl
    have honward {i : Instr} (hi : exec i s = .next (forward s h r)) : onward i := by
      obtain ⟨hthere, hnot⟩ := forward_spec s h r
      exact ⟨fun ht hm => hi.trans (congrArg _ ((hthere ht).1 hm)), fun ht hm => hi.trans (congrArg _ ((hthere ht).2 hm)),
        fun ht => hi.trans (congrArg _ (hnot ht))⟩
    refine ⟨holdArrival_not hr, fun ha hf => ⟨?_, fun hne => ?_⟩, fun ⟨ha, hf⟩ => ⟨fun q v g hq hrq hst hops => ?_,
      fun q hq => holdArrival_splices hr ha hf hq, fun hq hw hn => ?_, fun hq hw hn => holdArrival_full hr ha hf hq hw hn,
      fun hq hw hn => honward (holdArrival_forward hr ha hf hq hw hn)⟩, fun hdue => ?_, fun hdue => ?_⟩
    · rintro ⟨x, rfl⟩
      exact holdArrival_passes hr ha hf
    · rw [holdArrival_passes hr ha hf]
      cases h with
      | bridgeStation x => exact absurd rfl (hne x)
      | ringStation x => rfl
      | frontEnd n => rfl
    · have hne : q.id ≠ r.id := by
        intro he
        rw [he, hr] at hrq
        obtain rfl := Option.some.inj hrq
        exact heldStage_ne_atStage h (hst.symm.trans ha.1)
      have hex := holdArrival_splices hr ha hf hq
      rcases hops with ⟨hro, hqo⟩ | ⟨hqo, hro⟩
      · obtain ⟨k, h1, h2⟩ := splice_push h hro hqo hne hr hrq
        have hg : givesFirst r.op = true := by rw [hro]; rfl
        rw [if_pos hg] at hex
        rw [if_pos hro, if_pos hro]
        exact ⟨_, _, _, hex, k.mem, k.cells, h1, h2, answeredStage_eq h, rfl, rfl, rfl, rfl, rfl⟩
      · obtain ⟨k, h1, h2⟩ := splice_push h hqo hro hne.symm hrq hr
        have hg : ¬ givesFirst r.op = true := by rw [hro]; exact Bool.false_ne_true
        have hpush : ¬ r.op = .push v := by rw [hro]; exact PoolOp.noConfusion
        rw [if_neg hg] at hex
        rw [if_neg hpush, if_neg hpush]
        exact ⟨_, _, _, hex, k.mem, k.cells, h1, h2, answeredStage_eq h, rfl, rfl, rfl, rfl, rfl⟩
    · exact ⟨_, _, holdArrival_holds hr ha hf hq hw hn, req?_hold hr, rfl⟩
    · obtain ⟨h1, h2, h3⟩ := hdue
      refine honward ?_
      show execHoldWindowExpiry h r.id s = _
      simp [execHoldWindowExpiry, hr, h1, h2, h3]
    · show execHoldWindowExpiry h r.id s = _
      simp only [execHoldWindowExpiry, hr]
      refine if_neg fun hk => hdue ?_
      simpa [and_assoc] using hk

end Sys2Proof.Machine

/-! Topology versions, links and severing (R335 to R340, R381). -/
namespace Sys2Proof.Machine
open Sys2Proof

/-! What requests that go on, are refused or are severed leave of the fabric. -/

/-- State t is s in what the fabric's versions and links rest on, and in the operations in flight of every cell. -/
structure FabricKept (s t : State) : Prop where
  nodes    : t.nodes = s.nodes
  topo     : t.topo = s.topo
  changing : t.changing = s.changing
  version  : t.version = s.version
  again    : t.again = s.again
  pkgs     : ∀ p, { t.pkg p with ringSlots := (s.pkg p).ringSlots, sectors := (s.pkg p).sectors } = s.pkg p
  ops      : ∀ ix, (t.cell ix).ops = (s.cell ix).ops

namespace FabricKept
variable {s t u : State}

theorem refl (s : State) : FabricKept s s := ⟨rfl, rfl, rfl, rfl, rfl, fun _ => rfl, fun _ => rfl⟩

theorem trans (h : FabricKept s t) (k : FabricKept t u) : FabricKept s u where
  nodes := k.nodes.trans h.nodes
  topo := k.topo.trans h.topo
  changing := k.changing.trans h.changing
  version := k.version.trans h.version
  again := k.again.trans h.again
  pkgs p := by
    have a := h.pkgs p
    have b := k.pkgs p
    rw [← a, ← b]
  ops ix := (k.ops ix).trans (h.ops ix)

theorem ports (h : FabricKept s t) (p : Nat) : (t.pkg p).ports = (s.pkg p).ports := (congrArg Package.ports (h.pkgs p) :)
theorem linkOf (h : FabricKept s t) (p i : Nat) : linkOf t p i = linkOf s p i := by rw [Machine.linkOf, h.ports]; rfl

theorem modPkg (s : State) (p : Nat) {f : Package → Package}
    (hf : ∀ k, { f k with ringSlots := k.ringSlots, sectors := k.sectors } = k) : FabricKept s (s.modPkg p f) where
  nodes := rfl
  topo := rfl
  changing := rfl
  version := rfl
  again := rfl
  pkgs q := by
    rw [State.modPkg, State.setPkg_pkg]
    split
    next h => subst h; exact hf _
    next => rfl
  ops _ := rfl

theorem modCell (s : State) (ix : Nat) {f : Cell → Cell} (hf : ∀ c, (f c).ops = c.ops) : FabricKept s (s.modCell ix f) :=
  ⟨rfl, rfl, rfl, rfl, rfl, fun _ => rfl, fun j => by
    rw [State.modCell_cell]
    split
    next h => subst h; exact hf _
    next => rfl⟩

theorem of_stores (h : Stores s t) : FabricKept s t where
  nodes := (congrArg State.nodes h.rest :)
  topo := (congrArg State.topo h.rest :)
  changing := (congrArg State.changing h.rest :)
  version := (congrArg State.version h.rest :)
  again := (congrArg State.again h.rest :)
  pkgs p := by rw [State.pkg, h.pkgs]; rfl
  ops ix := by rw [h.cell]

end FabricKept

theorem Stores.writeParts {h : Heat} {w : Word} (ps : List Part8) : ∀ s : State, Stores s (writeParts s h w ps) := by
  have many (gs : List (List Byte)) : ∀ (s : State) (w : Word), Stores s (putVaultMany s h w gs) := by
    induction gs with
    | nil => exact fun s _ => .refl s
    | cons g gs ih => exact fun s w => (Stores.putVault ..).trans (ih _ _)
  induction ps with
  | nil => exact fun s => .refl s
  | cons p ps ih => exact fun s => (many _ s _).trans (ih _)

theorem Stores.writeSlot (s : State) (die : Nat) (x : Stowed) (ps : List Part8) : Stores s (writeSlot s die x ps) := by
  unfold Machine.writeSlot
  split
  · exact writeParts ..
  · exact .refl s

/-- A change of stowed strands stores their images and leaves the fabric and the cells alone. -/
theorem FabricKept.modStowed (s : State) (die : Nat) (pick : Stowed → Bool) (f : Stowed → Stowed) : FabricKept s (modStowed s die pick f) := by
  have fold (g : State → Stowed → State) (hg : ∀ u x, Stores u (g u x)) (l : List Stowed) : ∀ u, Stores u (l.foldl g u) := by
    induction l with
    | nil => exact fun u => .refl u
    | cons x l ih => exact fun u => (hg u x).trans (ih _)
  exact FabricKept.trans (t := s.modDie die _) ⟨rfl, rfl, rfl, rfl, rfl, fun _ => rfl, fun _ => rfl⟩
    (.of_stores (fold _ (fun u x => Stores.writeSlot ..) _ _))

theorem FabricKept.onStrand (s : State) (ix id : Nat) {f : Cell → Cell} (hf : ∀ c, (f c).ops = c.ops) : FabricKept s (onStrand s ix id f) := by
  unfold Machine.onStrand
  split
  · exact modCell s _ hf
  · exact modStowed ..

/-- State t is s but for requests, the rings and sectors of packages, and event counters. -/
structure ReqsMoved (s t : State) : Prop where
  kept  : FabricKept s t
  mem   : t.mem = s.mem
  cells : t.cells = s.cells

namespace ReqsMoved
variable {s t u : State}

theorem refl (s : State) : ReqsMoved s s := ⟨.refl s, rfl, rfl⟩
theorem trans (h : ReqsMoved s t) (k : ReqsMoved t u) : ReqsMoved s u :=
  ⟨h.kept.trans k.kept, k.mem.trans h.mem, k.cells.trans h.cells⟩

theorem count (s : State) (d k : Nat) : ReqsMoved s (s.count d k) := ⟨⟨rfl, rfl, rfl, rfl, rfl, fun _ => rfl, fun _ => rfl⟩, rfl, rfl⟩
theorem modReq (s : State) (id : Nat) (f : PoolReq → PoolReq) : ReqsMoved s (modReq s id f) :=
  ⟨⟨rfl, rfl, rfl, rfl, rfl, fun _ => rfl, fun _ => rfl⟩, rfl, rfl⟩
theorem putSlot (s : State) (pkg id src dst : Nat) : ReqsMoved s (putSlot s pkg id src dst) := ⟨.modPkg _ _ fun _ => rfl, rfl, rfl⟩
theorem putSector (s : State) (pkg oid off : Nat) (x : Sector) : ReqsMoved s (putSector s pkg oid off x) :=
  ⟨.modPkg _ _ fun _ => rfl, rfl, rfl⟩

theorem settleSectors (pkg : Nat) (r : PoolReq) (wts : Option Nat) (l : List Nat) : ∀ s, ReqsMoved s (settleSectors pkg r wts s l) := by
  induction l with
  | nil => exact fun s => refl s
  | cons x l ih =>
    intro s
    unfold Machine.settleSectors
    refine trans ?_ (ih _)
    split
    · exact putSector ..
    · exact refl s

theorem settleWrite (s : State) (r : PoolReq) (wts : Option Nat) : ReqsMoved s (settleWrite s r wts) := by
  unfold Machine.settleWrite
  split
  · exact settleSectors ..
  · exact refl s

theorem sendBack (s : State) (r : PoolReq) : ReqsMoved s (sendBack s r) := (modReq ..).trans (putSlot ..)

theorem refuseReq (s : State) (id : Nat) (code : FaultCode) : ReqsMoved s (refuseReq s id code) := by
  unfold Machine.refuseReq
  split
  · exact refl s
  · exact ((modReq ..).trans (settleWrite ..)).trans (sendBack ..)

theorem countAt (s : State) (h : HoldPoint) (k : Nat) : ReqsMoved s (countAt s h k) := by
  unfold Machine.countAt
  split
  · exact count ..
  · exact refl s

theorem advance (s : State) (h : HoldPoint) (r : PoolReq) : ReqsMoved s (advance s h r) := by
  cases h with
  | ringStation d => exact (modReq ..).trans (putSlot ..)
  | bridgeStation d => exact modReq ..
  | frontEnd n => exact modReq ..

theorem forward (s : State) (h : HoldPoint) (r : PoolReq) : ReqsMoved s (forward s h r) := by
  unfold Machine.forward
  split
  · split
    · exact refuseReq ..
    split
    · exact (advance ..).trans (countAt ..)
    · exact refl s
  · exact (advance ..).trans (countAt ..)

theorem releaseHeld (h : HoldPoint) (rs : List PoolReq) : ∀ s, ReqsMoved s (releaseHeld h s rs) := by
  induction rs with
  | nil => exact fun s => refl s
  | cons r rs ih =>
    intro s
    unfold Machine.releaseHeld
    refine trans ?_ (ih _)
    split
    · unfold endHold
      dsimp only
      split
      · exact (modReq ..).trans (forward ..)
      · exact modReq ..
    · exact refl s

theorem releasePlane (s : State) (p i : Nat) : ReqsMoved s (releasePlane s p i) := by
  have fold (rs : List PoolReq) (l : List Nat) : ∀ u, ReqsMoved u (l.foldl (fun t d => Machine.releaseHeld (.ringStation (dieIdOf (p * 8 + d))) t rs) u) := by
    induction l with
    | nil => exact fun u => refl u
    | cons d l ih => exact fun u => (releaseHeld ..).trans (ih _)
  exact (releaseHeld ..).trans (fold _ _ _)

end ReqsMoved

/-! Severed requests. -/

theorem landShared_ops (c : Cell) (n x : Nat) : (c.landShared n x).ops = c.ops := by
  unfold Cell.landShared
  dsimp only
  split
  · rfl
  split
  · split <;> rfl
  · rfl

theorem severSeen_ops (r : PoolReq) (c : Cell) : (severSeen r c).ops = c.ops := by
  unfold severSeen
  dsimp only
  split
  · exact landShared_ops ..
  · rfl

/-- A request that a severing leaves alone or has dealt with (R339). -/
def Settled (r : PoolReq) : Prop := r.stage = .returning ∨ r.stage = .parked ∨ r.discarded = true

/-- What a severing makes of a request under way to a severed home: a write is discarded (R312, R339). -/
def discardReq (x : PoolReq) : PoolReq := { x with discarded := true, veto := false, stage := .answered, answer := .none }

/-- Severing leaves a settled request alone, refuses a read, and discards any other. -/
theorem severReq_cases (r : PoolReq) (s : State) :
    (Settled r ∧ severReq r s = s) ∨ severReq r s = refuseReq s r.id .staleTopo
      ∨ severReq r s = settleWrite (onStrand (modReq s r.id discardReq) r.cell r.id (severSeen r)) r none := by
  by_cases h : Settled r
  · exact .inl ⟨h, if_pos h⟩
  · refine .inr ?_
    rw [severReq.eq_def, if_neg (show ¬(r.stage = .returning ∨ r.stage = .parked ∨ r.discarded = true) from h)]
    generalize (r.op.isFill || _) = b
    cases b with
    | true => exact .inl rfl
    | false => exact .inr rfl

theorem FabricKept.severReq (s : State) (r : PoolReq) : FabricKept s (severReq r s) := by
  obtain ⟨-, h⟩ | h | h := severReq_cases r s <;> rw [h]
  · exact refl s
  · exact (ReqsMoved.refuseReq ..).kept
  · exact ((ReqsMoved.modReq ..).kept.trans (onStrand _ _ _ (severSeen_ops r))).trans (ReqsMoved.settleWrite ..).kept

theorem FabricKept.severReqs (rs : List PoolReq) : ∀ s, FabricKept s (severReqs s rs) := by
  induction rs with
  | nil => exact fun s => refl s
  | cons r rs ih => exact fun s => (severReq s r).trans (ih _)

/-- Request b stands for request a in a later state. -/
structure StandsFor (a b : PoolReq) : Prop where
  id      : b.id = a.id
  node    : b.node = a.node
  settled : Settled a → Settled b

theorem StandsFor.refl (a : PoolReq) : StandsFor a a := ⟨rfl, rfl, fun h => h⟩
theorem StandsFor.trans {a b c : PoolReq} (h : StandsFor a b) (k : StandsFor b c) : StandsFor a c :=
  ⟨k.id.trans h.id, k.node.trans h.node, fun x => k.settled (h.settled x)⟩

/-- Each request of state t stands for one of s, and P holds of the pair. -/
def Stand (P : PoolReq → PoolReq → Prop) (s t : State) : Prop := ∀ y ∈ t.reqs, ∃ x ∈ s.reqs, StandsFor x y ∧ P x y

theorem Stand.trans {P Q R : PoolReq → PoolReq → Prop} {s t u : State} (h : Stand P s t) (k : Stand Q t u)
    (hr : ∀ {x y z}, StandsFor x y → P x y → StandsFor y z → Q y z → R x z) : Stand R s u := by
  intro z hz
  obtain ⟨y, hy, sy, qy⟩ := k z hz
  obtain ⟨x, hx, sx, px⟩ := h y hy
  exact ⟨x, hx, sx.trans sy, hr sx px sy qy⟩

theorem Stand.of_eq {s t : State} (h : t.reqs = s.reqs) : Stand (fun x y => y = x) s t :=
  fun y hy => ⟨y, h ▸ hy, .refl y, rfl⟩

/-- A change of the requests with a number, that keeps number and node. -/
theorem Stand.modReq (s : State) (id : Nat) {f : PoolReq → PoolReq} (hf : ∀ a, StandsFor a (f a)) :
    Stand (fun x y => x.id = id → y = f x) s (modReq s id f) := by
  intro y hy
  obtain ⟨x, hx, rfl⟩ := List.mem_map.1 hy
  refine ⟨x, hx, ?_⟩
  split
  next h => exact ⟨hf x, fun _ => rfl⟩
  next h => exact ⟨.refl x, fun k => absurd k h⟩

theorem settleSectors_reqs (pkg : Nat) (r : PoolReq) (wts : Option Nat) (l : List Nat) : ∀ s, (settleSectors pkg r wts s l).reqs = s.reqs := by
  induction l with
  | nil => exact fun s => rfl
  | cons x l ih =>
    intro s
    unfold settleSectors
    refine (ih _).trans ?_
    split <;> rfl

theorem settleWrite_reqs (s : State) (r : PoolReq) (wts : Option Nat) : (settleWrite s r wts).reqs = s.reqs := by
  unfold settleWrite
  split
  · exact settleSectors_reqs ..
  · rfl

theorem modStowed_reqs (s : State) (die : Nat) (pick : Stowed → Bool) (f : Stowed → Stowed) : (modStowed s die pick f).reqs = s.reqs := by
  have fold (g : State → Stowed → State) (hg : ∀ u x, Stores u (g u x)) (l : List Stowed) : ∀ u, (l.foldl g u).reqs = u.reqs := by
    induction l with
    | nil => exact fun u => rfl
    | cons x l ih => exact fun u => (ih _).trans (hg u x).reqs
  exact (fold _ (fun u x => Stores.writeSlot ..) _ _).trans rfl

theorem onStrand_reqs (s : State) (ix id : Nat) (f : Cell → Cell) : (onStrand s ix id f).reqs = s.reqs := by
  unfold onStrand
  split
  · rfl
  · exact modStowed_reqs ..

/-- A refused request is found returning with its refusal. -/
theorem refuseReq_spec {s : State} {id : Nat} {r : PoolReq} (code : FaultCode) (hr : req? s id = some r) :
    req? (refuseReq s id code) id = some { r with answer := .refused code, stage := .returning } := by
  obtain rfl := req?_id hr
  have h1 := req?_modReq (f := fun x => { x with answer := .refused code }) r.id (fun _ => rfl) hr
  rw [if_pos rfl] at h1
  have h2 : req? (settleWrite (modReq s r.id fun x => { x with answer := .refused code }) r none) r.id = some { r with answer := .refused code } := by
    rw [req?, settleWrite_reqs]; exact h1
  have h3 := req?_modReq (f := fun x => { x with stage := .returning }) r.id (fun _ => rfl) h2
  rw [if_pos rfl] at h3
  unfold refuseReq
  rw [hr]
  exact h3

theorem refuseReq_stand (s : State) (id : Nat) (code : FaultCode) :
    Stand (fun x y => x.id = id → Settled y) s (refuseReq s id code) := by
  unfold refuseReq
  split
  next h =>
    refine fun y hy => ⟨y, hy, .refl y, fun e => ?_⟩
    exact absurd (List.find?_eq_none.1 h y hy) (by simp [e])
  next r h =>
    obtain rfl := req?_id h
    have h1 := Stand.modReq s r.id (f := fun x => { x with answer := .refused code }) (fun a => ⟨rfl, rfl, id⟩)
    have h2 := h1.trans (R := fun _ _ => True) (.of_eq (settleWrite_reqs _ r none)) (fun _ _ _ _ => trivial)
    refine h2.trans (Stand.modReq _ r.id (f := fun x => { x with stage := .returning }) fun a => ⟨rfl, rfl, fun _ => .inl rfl⟩) ?_
    intro x y z sx _ _ h e
    rw [h (sx.id.trans e)]
    exact .inl rfl

/-- A severed request has been dealt with, and every other stands as it stood (R339). -/
theorem severReq_stand (s : State) (r : PoolReq) : Stand (fun x y => x.id = r.id → ¬ Settled r → Settled y) s (severReq r s) := by
  obtain ⟨hs, h⟩ | h | h := severReq_cases r s <;> rw [h]
  · exact fun y hy => ⟨y, hy, .refl y, fun _ k => absurd hs k⟩
  · exact fun y hy => (refuseReq_stand s r.id .staleTopo y hy).imp fun x => .imp_right (.imp_right fun k e _ => k e)
  · refine (Stand.modReq s r.id (f := discardReq) fun a => ⟨rfl, rfl, fun _ => .inr (.inr rfl)⟩).trans
      (.of_eq ((settleWrite_reqs ..).trans (onStrand_reqs ..))) ?_
    rintro x y z - h1 - rfl e -
    rw [h1 e]
    exact .inr (.inr rfl)

/-- Once the requests of a list are severed, whatever they stand for has been dealt with. -/
theorem severReqs_settles {P : PoolReq → Prop} (hP : ∀ {x y}, StandsFor x y → P y → P x) (rs : List PoolReq) : ∀ s,
    (∀ x ∈ s.reqs, P x → Settled x ∨ ∃ r ∈ rs, r.id = x.id ∧ ¬ Settled r) → ∀ y ∈ (severReqs s rs).reqs, P y → Settled y := by
  induction rs with
  | nil =>
    intro s h y hy py
    obtain h | ⟨_, ⟨⟩, _⟩ := h y hy py
    exact h
  | cons r rs ih =>
    intro s h
    refine ih (severReq r s) fun y hy py => ?_
    obtain ⟨x, hx, sx, k⟩ := severReq_stand s r y hy
    obtain hs | ⟨q, hq, e, nq⟩ := h x hx (hP sx py)
    · exact .inl (sx.settled hs)
    · obtain rfl | hq := List.mem_cons.1 hq
      · exact .inl (k e.symm nq)
      · exact .inr ⟨q, hq, e.trans sx.id.symm, nq⟩

/-! Topology changes (R335). -/

/-- Some port or node of the domain has not adopted the version in force. -/
def Unadopted (t : State) : Prop :=
  (∃ q j, q < 32 ∧ j < 8 ∧ inDomain t q = true ∧ portVersion t q j ≠ t.version)
    ∨ ∃ m, m < 16 ∧ nodeInDomain t m = true ∧ (t.node m).version ≠ t.version

/-- A change that is settled is over, or followed by the next; an unsettled one goes on. -/
theorem settleChange_cases (s : State) :
    settleChange s = s
      ∨ (¬ Unadopted s ∧ ((s.again = true ∧ settleChange s = announce s) ∨ (s.again = false ∧ settleChange s = { s with changing := false }))) := by
  unfold settleChange
  split
  next h =>
    refine .inr ⟨?_, ?_⟩
    · simp only [Bool.and_eq_true, List.all_eq_true, List.mem_range, Bool.or_eq_true, Bool.not_eq_true', beq_iff_eq] at h
      rintro (⟨q, j, hq, hj, hd, hv⟩ | ⟨m, hm, hd, hv⟩)
      · obtain h | h := h.1 q hq
        · simp [hd] at h
        · exact hv (h j hj)
      · obtain h | h := h.2 m hm
        · simp [hd] at h
        · exact hv h
    · split
      next h => exact .inl ⟨h, rfl⟩
      next h => exact .inr ⟨by simpa using h, rfl⟩
  next => exact .inl rfl

/-- A settled change touches versions alone. -/
theorem settleChange_frame (s : State) :
    { settleChange s with version := s.version, changing := s.changing, again := s.again, told := s.told } = s := by
  unfold settleChange
  split
  · split <;> rfl
  · rfl

theorem startChange_frame (s : State) :
    { startChange s with version := s.version, changing := s.changing, again := s.again, told := s.told } = s := by
  unfold startChange
  split <;> rfl

theorem changed_frame (s : State) :
    { settleChange (startChange s) with version := s.version, changing := s.changing, again := s.again, told := s.told } = s := by
  have h := settleChange_frame (startChange s)
  have k := startChange_frame s
  rw [← h] at k
  exact k

theorem startChange_changing (s : State) : (startChange s).changing = true := by
  unfold startChange
  split
  next h => exact h
  next => rfl

theorem next_version_ne (v : BitVec 4) : v + 1 ≠ v := by bv_omega

/-- What a change that begins does to the version, whether it is settled at once or not. -/
theorem changes_settleChange (u : State) :
    let t := settleChange (startChange u)
    (Unadopted t → t.changing = true) ∧ (u.changing = false → u.again = false → t.version = u.version + 1)
      ∧ (u.changing = true → t.version ≠ u.version ∨ t.again = true) := by
  have hs : (u.changing = true ∧ startChange u = { u with again := true }) ∨ (u.changing = false ∧ startChange u = announce u) := by
    unfold startChange
    split
    next h => exact .inl ⟨h, rfl⟩
    next h => exact .inr ⟨by simpa using h, rfl⟩
  obtain ⟨hc, e⟩ | ⟨hc, e⟩ := hs <;> rw [e] <;> dsimp only
  · obtain k | ⟨-, ⟨-, k⟩ | ⟨k, -⟩⟩ := settleChange_cases { u with again := true }
    · rw [k]; exact ⟨fun _ => hc, by simp [hc], fun _ => .inr rfl⟩
    · rw [k]; exact ⟨fun _ => rfl, by simp [hc], fun _ => .inl (next_version_ne _)⟩
    · cases k
  · obtain k | ⟨hn, ⟨k, -⟩ | ⟨-, k⟩⟩ := settleChange_cases (announce u)
    · rw [k]; exact ⟨fun _ => rfl, fun _ _ => rfl, by simp [hc]⟩
    · cases k
    · rw [k]; exact ⟨fun h => absurd h hn, fun _ _ => rfl, by simp [hc]⟩

/-! A link after a change of it. -/

/-- Ports of a package after one of them has changed. -/
theorem linkOf_modPort (s : State) (p i : Nat) (f : Port → Port) : linkOf (modPort s p i f) p i = f (linkOf s p i) := by
  simp [linkOf, modPort]

theorem linkAt_modLink (s : State) (l : LinkRef) (f : Port → Port) : linkAt (modLink s l f) l = f (linkAt s l) := by
  unfold linkAt modLink
  split
  · exact linkOf_modPort ..
  · simp

theorem foldl_ops {f : Cell → MemOp → Cell} (hf : ∀ c o, (f c o).ops = c.ops) (l : List MemOp) : ∀ c, (l.foldl f c).ops = c.ops := by
  induction l with
  | nil => exact fun c => rfl
  | cons o l ih => exact fun c => (ih _).trans (hf c o)

/-- The writes of a strand to severed packages are dead once they are killed; its other operations stay (R339). -/
theorem killWrites_ops (s : State) (ix : Nat) (c : Cell) :
    (killWrites s ix c).ops = c.ops.map (fun o => if severedWrite s ix o then { o with dead := true } else o) := by
  unfold killWrites
  refine congrArg (List.map _) (foldl_ops (fun c o => ?_) _ c)
  cases o.kind <;> rfl

theorem killAllWrites_ops (s : State) (ix : Nat) :
    ((killAllWrites s).cell ix).ops = (s.cell ix).ops.map (fun o => if severedWrite s ix o then { o with dead := true } else o) := by
  have hk := find?_map_keys s.cells (fun e => (e.1, killWrites s e.1 e.2)) (fun _ => rfl) ix
  cases hc : find? s.cells ix with
  | none => simp [State.cell, lookup, killAllWrites, hk, hc, Cell.reset]
  | some c =>
    simp only [State.cell, lookup, killAllWrites, hk, hc, Option.map_some]
    exact killWrites_ops s ix c

/-- A write under way to a package that is severed from its own is dead once the writes are killed. -/
theorem killAllWrites_dead {s : State} {ix : Nat} {o : MemOp} (ho : o ∈ (s.cell ix).ops) (hw : o.kind.writes = true) (hl : o.leg ≠ .returned)
    (hs : severedFor s (pkgOfCell ix) o.homePkg = true) : ∃ x ∈ ((killAllWrites s).cell ix).ops, x.id = o.id ∧ x.dead = true := by
  rw [killAllWrites_ops]
  refine ⟨_, List.mem_map.2 ⟨o, ho, rfl⟩, ?_⟩
  cases hd : o.dead <;> simp [severedWrite, hw, hl, hs, hd]

/-! The fabric's rows. -/

section
variable {s : State} {p : PkgId} {n : NodeId} {i f : Fin 8} {l : LinkRef} {id : Nat}

theorem announce_port (hc : s.changing = true) (hv : portVersion s p.val i.val ≠ s.version) :
    ∃ t, exec (.topologyAnnounce (.port p i)) s = .next t ∧ { t with pkgs := s.pkgs } = s
      ∧ issuing t p.val i.val = false ∧ (t.pkg p.val).announced = s.version := by
  have he : exec (.topologyAnnounce (.port p i)) s = .next
      ((modPort s p.val i.val (fun t => { t with announced := true })).modPkg p.val (fun k => { k with announced := s.version })) := by
    show execTopologyAnnounce (.port p i) s = _
    unfold execTopologyAnnounce
    rw [if_neg (by simp [hc])]
    exact if_neg hv
  refine ⟨_, he, rfl, ?_, ?_⟩
  · simp [issuing, linkOf, modPort]
  · simp

theorem announce_node (hc : s.changing = true) : exec (.topologyAnnounce (.node n)) s =
    .next (if (s.node n.val).version = s.version then s else s.modNode n.val (fun d => { d with announced := true })) := by
  show execTopologyAnnounce (.node n) s = _
  unfold execTopologyAnnounce
  rw [if_neg (by simp [hc])]

theorem adopt_fields (k : Package) (v : BitVec 4) (told : Topology) :
    (k.adopt v told).version = v ∧ (k.adopt v told).ports = k.ports ∧ (k.adopt v told).rekey = k.rekey := by
  unfold Package.adopt
  split
  next h => exact ⟨h, rfl, rfl⟩
  next => exact ⟨rfl, rfl, rfl⟩

/-- Retuning apart, a listen word that comes into force leaves its port and package alone. -/
theorem applyListen_port (s : State) (p i : Nat) :
    { linkOf (applyListen s p i) p i with retune := (linkOf s p i).retune } = linkOf s p i
      ∧ ((applyListen s p i).pkg p).version = (s.pkg p).version ∧ (applyListen s p i).mem = s.mem
      ∧ (applyListen s p i).version = s.version := by
  unfold applyListen
  dsimp only
  split
  · exact ⟨rfl, rfl, rfl, rfl⟩
  · refine ⟨?_, ?_, rfl, rfl⟩
    · rw [linkOf_modPort]; rfl
    · simp [modPort]

theorem rekeyPort_port (s : State) (p i : Nat) :
    linkOf (rekeyPort s p i) p i = { linkOf s p i with expects := if (s.pkg p).rekey.contains i then [] else (linkOf s p i).expects }
      ∧ ((rekeyPort s p i).pkg p).version = (s.pkg p).version ∧ (rekeyPort s p i).mem = s.mem ∧ (rekeyPort s p i).version = s.version := by
  unfold rekeyPort
  split
  next h => 
    refine ⟨?_, ?_, rfl, rfl⟩
    · simp [linkOf, modPort]
    · simp [modPort]
  next => exact ⟨rfl, rfl, rfl, rfl⟩

theorem adopt_port (hi : issuing s p.val i.val = false) (hu : unanswered s p.val i.val = false) (hv : portVeto s p.val i.val = false) :
    ∃ t, exec (.topologyAdopt (.port p i)) s = .next t ∧ portVersion t p.val i.val = s.version ∧ issuing t p.val i.val = true
      ∧ (t.pkg p.val).version = s.version ∧ t.mem = s.mem
      ∧ (linkOf t p.val i.val).expects = (if (s.pkg p.val).rekey.contains i.val then [] else (linkOf s p.val i.val).expects) := by
  have he : exec (.topologyAdopt (.port p i)) s = .next (settleChange (releasePlane (applyListen (rekeyPort
      ((modPort s p.val i.val (fun t => { t with version := s.version, announced := false })).modPkg p.val (fun k => k.adopt s.version s.told))
      p.val i.val) p.val i.val) p.val i.val)) := by
    show execTopologyAdopt (.port p i) s = _
    unfold execTopologyAdopt
    exact if_neg (by simp [hi, hu, hv])
  refine ⟨_, he, ?_⟩
  set s1 := (modPort s p.val i.val (fun t => { t with version := s.version, announced := false })).modPkg p.val
    (fun k => k.adopt s.version s.told) with h1
  have ha := adopt_fields ((modPort s p.val i.val (fun t => { t with version := s.version, announced := false })).pkg p.val) s.version s.told
  obtain ⟨hver, hports, hrekey⟩ := ha
  have hl : linkOf s1 p.val i.val = { linkOf s p.val i.val with version := s.version, announced := false } := by
    rw [← linkOf_modPort s p.val i.val fun t => { t with version := s.version, announced := false }]
    simp only [linkOf, h1, State.modPkg, State.setPkg_pkg, if_true, hports]
  have hk : (s1.pkg p.val).version = s.version ∧ (s1.pkg p.val).rekey = (s.pkg p.val).rekey := by
    simp only [h1, State.modPkg, State.setPkg_pkg, if_true]
    exact ⟨hver, hrekey.trans (by simp [modPort])⟩
  obtain ⟨hl2, hv2, hm2, -⟩ := rekeyPort_port s1 p.val i.val
  obtain ⟨hl3, hv3, hm3, -⟩ := applyListen_port (rekeyPort s1 p.val i.val) p.val i.val
  have hr := ReqsMoved.releasePlane (applyListen (rekeyPort s1 p.val i.val) p.val i.val) p.val i.val
  have hf := settleChange_frame (releasePlane (applyListen (rekeyPort s1 p.val i.val) p.val i.val) p.val i.val)
  generalize hu : settleChange (releasePlane (applyListen (rekeyPort s1 p.val i.val) p.val i.val) p.val i.val) = u at hf ⊢
  have hpk (q : Nat) : u.pkg q = (releasePlane (applyListen (rekeyPort s1 p.val i.val) p.val i.val) p.val i.val).pkg q := by rw [← hf]; rfl
  have hlu : linkOf u p.val i.val = linkOf (applyListen (rekeyPort s1 p.val i.val) p.val i.val) p.val i.val := by
    rw [← hr.kept.linkOf, linkOf, hpk]; rfl
  have hvu : (u.pkg p.val).version = s.version := by
    rw [hpk, ← hk.1, ← hv2, ← hv3]
    exact (congrArg Package.version (hr.kept.pkgs p.val) :)
  have hfin : { linkOf u p.val i.val with retune := (linkOf s p.val i.val).retune } = { linkOf s p.val i.val with
      version := s.version, announced := false
      expects := if (s.pkg p.val).rekey.contains i.val then [] else (linkOf s p.val i.val).expects } := by
    have h3 := congrArg (fun q : Port => { q with retune := (linkOf s p.val i.val).retune }) hl3
    rw [hl2, hl, hk.2] at h3
    rw [hlu]
    exact h3
  refine ⟨(congrArg Port.version hfin :), ?_, hvu, ?_, (congrArg Port.expects hfin :)⟩
  · rw [issuing, (congrArg Port.announced hfin :)]; rfl
  · have : u.mem = _ := (congrArg State.mem hf :)
    rw [this, hr.mem, hm3, hm2]
    rfl

theorem adopt_node (ha : (s.node n.val).announced = true) (hv : nodeVeto s n.val = false) :
    ∃ t, exec (.topologyAdopt (.node n)) s = .next t ∧ (t.node n.val).version = s.version ∧ (t.node n.val).announced = false ∧ t.mem = s.mem := by
  have he : exec (.topologyAdopt (.node n)) s = .next (settleChange (releaseHeld (.frontEnd n)
      (s.modNode n.val (fun d => { d with version := s.version, announced := false })) s.reqs)) := by
    show execTopologyAdopt (.node n) s = _
    unfold execTopologyAdopt
    exact if_neg (by simp [ha, hv])
  refine ⟨_, he, ?_⟩
  have hr := ReqsMoved.releaseHeld (.frontEnd n) s.reqs (s.modNode n.val (fun d => { d with version := s.version, announced := false }))
  have hf := settleChange_frame (releaseHeld (.frontEnd n) (s.modNode n.val (fun d => { d with version := s.version, announced := false })) s.reqs)
  generalize settleChange _ = u at hf ⊢
  have hn : u.nodes = _ := (congrArg State.nodes hf :)
  have hm : u.mem = _ := (congrArg State.mem hf :)
  rw [hr.kept.nodes] at hn
  rw [hr.mem] at hm
  refine ⟨?_, ?_, hm⟩ <;> simp [State.node, hn, State.modNode, State.setNode]

theorem stale_port {r : PoolReq} (hr : req? s id = some r) : exec (.staleRefusal (.port p i) id) s =
    if pkgOfCell r.cell = p.val ∧ r.node % 8 = i.val ∧ r.stage = .refusedStale ∧ mayIssue s r = true then
      .next (leavePort s r (if firstStage s r.cap r.op = .atRing then .atFront else .atNode))
    else .next s := by
  show execStaleRefusal (.port p i) id s = _
  unfold execStaleRefusal
  rw [hr]

theorem stale_node {r : PoolReq} (hr : req? s id = some r) (hn : r.node = n.val) (hs : r.stage = .atNode ∨ r.stage = .atFront)
    (ha : r.answer = .none) (hd : r.discarded = false) (ho : nodeOpen s (pkgOfCell r.cell) n.val = true) :
    exec (.staleRefusal (.node n) id) s = .next (if olderVersion r.version (s.node n.val).version = true then
      if 3 ≤ r.tries then refuseReq (s.count (dieOfCell r.cell) 13) id .staleTopo
      else modReq (s.count (dieOfCell r.cell) 13) id (fun r => { r with stage := .refusedStale, tries := r.tries + 1 })
      else s) := by
  have hst : ¬(r.stage ≠ .atNode ∧ r.stage ≠ .atFront) := by tauto
  show execStaleRefusal (.node n) id s = _
  unfold execStaleRefusal
  rw [hr]
  dsimp only
  cases hv : olderVersion r.version (s.node n.val).version
  · exact if_pos (by simp)
  · exact if_neg (by simp [hn, hst, ha, hd, ho])

/-- A request of an older version is sent back by its node, three times at most (R337). -/
theorem stale_node_older {r : PoolReq} (hr : req? s id = some r) (ha : r.answer = .none) :
    let t := if 3 ≤ r.tries then refuseReq (s.count (dieOfCell r.cell) 13) id .staleTopo
      else modReq (s.count (dieOfCell r.cell) 13) id (fun r => { r with stage := .refusedStale, tries := r.tries + 1 })
    ∃ q, req? t id = some q ∧ t.mem = s.mem ∧ (3 ≤ r.tries → q.stage = .returning ∧ q.answer = .refused .staleTopo)
      ∧ (r.tries < 3 → q.stage = .refusedStale ∧ q.tries = r.tries + 1 ∧ q.answer = .none) := by
  have hr' : req? (s.count (dieOfCell r.cell) 13) id = some r := hr
  dsimp only
  split
  next h => exact ⟨_, refuseReq_spec .staleTopo hr', (ReqsMoved.refuseReq ..).mem, fun _ => ⟨rfl, rfl⟩, fun k => by omega⟩
  next h =>
    have hq := req?_modReq (f := fun r => { r with stage := .refusedStale, tries := r.tries + 1 }) id (fun _ => rfl) hr'
    rw [if_pos rfl] at hq
    exact ⟨_, hq, rfl, fun k => absurd k h, fun _ => ⟨rfl, rfl, ha⟩⟩

/-- A link that has lost another lane: narrower, and paused while it retrains (R338). -/
def loseLane (cycle : Nat) (t : Port) : Port :=
  { t with width := t.width + 1, lanesLost := t.lanesLost + 1, pausedTill := cycle + 3600, replay := true }

/-- An optical port that loses its last width is down (R339). -/
def loseOptical (cycle : Nat) (t : Port) : Port :=
  { loseLane cycle t with downSince := if t.width = 2 then some cycle else t.downSince }

theorem laneFailure_eq (k : Nat) : exec (.laneFailure l.owner l.link k) s =
    if 3 ≤ (linkAt s l).width ∨ ((!opticalLink l) = true ∧ 2 ≤ (linkAt s l).width) then .next s
    else if (!opticalLink l) = true then .next (modLink s l (loseLane s.cycle))
    else .next (startChange (tellWidth (modLink s l (loseOptical s.cycle)) l)) := by
  cases l
  rfl

theorem laneFailure_spent (k : Nat) (h : 3 ≤ (linkAt s l).width ∨ (opticalLink l = false ∧ 2 ≤ (linkAt s l).width)) :
    exec (.laneFailure l.owner l.link k) s = .next s := by
  rw [laneFailure_eq]
  exact if_pos (by simpa using h)

theorem laneFailure_package (k : Nat) (ho : opticalLink l = false) (hw : (linkAt s l).width < 2) :
    exec (.laneFailure l.owner l.link k) s = .next (modLink s l (loseLane s.cycle)) := by
  rw [laneFailure_eq]
  refine (if_neg ?_).trans (if_pos (by simp [ho]))
  omega

theorem modLink_kept (s : State) (l : LinkRef) (f : Port → Port) :
    (modLink s l f).mem = s.mem ∧ (modLink s l f).cells = s.cells := by
  unfold modLink
  split <;> exact ⟨rfl, rfl⟩

theorem linkAt_eq {t u : State} (hp : t.pkgs = u.pkgs) (hn : t.nodes = u.nodes) (l : LinkRef) : linkAt t l = linkAt u l := by
  simp only [linkAt, linkOf, State.pkg, State.node, hp, hn]

theorem laneFailure_optical (k : Nat) (ho : opticalLink l = true) (hw : (linkAt s l).width < 3) :
    ∃ t, exec (.laneFailure l.owner l.link k) s = .next t ∧ t.mem = s.mem ∧ t.cells = s.cells ∧ t.changing = true
      ∧ (linkAt t l).width = (linkAt s l).width + 1 ∧ (linkAt t l).pausedTill = s.cycle + 3600
      ∧ (linkAt t l).lanesLost = (linkAt s l).lanesLost + 1 ∧ ((linkAt s l).width = 2 → (linkAt t l).downSince = some s.cycle) := by
  have he : exec (.laneFailure l.owner l.link k) s = .next (startChange (tellWidth (modLink s l (loseOptical s.cycle)) l)) := by
    rw [laneFailure_eq]
    exact (if_neg (by simp [ho]; omega)).trans (if_neg (by simp [ho]))
  refine ⟨_, he, ?_⟩
  obtain ⟨hm, hcl⟩ := modLink_kept s l (loseOptical s.cycle)
  have hf := startChange_frame (tellWidth (modLink s l (loseOptical s.cycle)) l)
  have hp : (startChange _).pkgs = _ := (congrArg State.pkgs hf :)
  have hn : (startChange _).nodes = _ := (congrArg State.nodes hf :)
  have hl := (linkAt_eq hp hn l).trans (linkAt_modLink s l (loseOptical s.cycle))
  have hm' := (congrArg State.mem hf).trans hm
  have hc' := (congrArg State.cells hf).trans hcl
  rw [hl]
  exact ⟨hm', hc', startChange_changing _, rfl, rfl, rfl, fun h => if_pos h⟩

theorem retrainDone_eq : exec (.retrainDone l.owner l.link) s =
    if s.cycle < (linkAt s l).pausedTill then .next s else .next (modLink s l (fun t => { t with pausedTill := 0, replay := false })) := rfl

theorem severed_pkg (hd : downLong s p.val = true) (hs : (s.pkg p.val).severSelf = false) :
    exec (.packageSevered (.pkg p)) s = .next (settleChange (startChange (killAllWrites (severReqs (severPkg s p.val)
      ((severPkg s p.val).reqs.filter (fun r => pkgOfCell r.cell == p.val)))))) := by
  show execPackageSevered (.pkg p) s = _
  unfold execPackageSevered
  exact if_neg (by simp [hd, hs])

/-- The topology without a node. -/
def severNode (s : State) (n : Nat) : State := { s with topo := { s.topo with nodesSevered := addOnce s.topo.nodesSevered n } }

theorem severed_node (hi : nodeInDomain s n.val = true) (hl : nodeLost s n.val = true) :
    exec (.packageSevered (.node n)) s = .next (settleChange (startChange (severReqs (severNode s n.val) (s.reqs.filter (fun r => r.node == n.val))))) := by
  show execPackageSevered (.node n) s = _
  unfold execPackageSevered
  exact if_neg (by simp [hi, hl])

theorem addOnce_contains (xs : List Nat) (x : Nat) : (addOnce xs x).contains x = true := by
  unfold addOnce
  split
  next h => exact h
  next => simp

end

/-- A change that begins as a package or node leaves does to versions what every change does (R335). -/
theorem changes_of_kept {s s1 u : State} (h1 : s1.version = s.version ∧ s1.changing = s.changing ∧ s1.again = s.again)
    (hv : u.version = s1.version) (hc : u.changing = s1.changing) (ha : u.again = s1.again) :
    let t := settleChange (startChange u)
    (Unadopted t → t.changing = true) ∧ (s.changing = false → s.again = false → t.version = s.version + 1)
      ∧ (s.changing = true → t.version ≠ s.version ∨ t.again = true) := by
  obtain ⟨hv1, hc1, ha1⟩ := h1
  rw [← hv1, ← hc1, ← ha1, ← hv, ← hc, ← ha]
  exact changes_settleChange u

theorem severed_pkg_spec {s : State} {p : PkgId} (hd : downLong s p.val = true) (hs : (s.pkg p.val).severSelf = false) :
    ∃ t, exec (.packageSevered (.pkg p)) s = .next t
      ∧ ((Unadopted t → t.changing = true) ∧ (s.changing = false → s.again = false → t.version = s.version + 1)
        ∧ (s.changing = true → t.version ≠ s.version ∨ t.again = true))
      ∧ (t.pkg p.val).severSelf = true ∧ t.topo.severed.contains p.val = true
      ∧ ∀ ix o, o ∈ (s.cell ix).ops → o.kind.writes = true → o.leg ≠ .returned → pkgOfCell ix ≠ o.homePkg → o.homePkg = p.val →
          ∃ x ∈ (t.cell ix).ops, x.id = o.id ∧ x.dead = true := by
  refine ⟨_, severed_pkg hd hs, ?_⟩
  set rs := (severPkg s p.val).reqs.filter (fun r => pkgOfCell r.cell == p.val)
  have hk := FabricKept.severReqs rs (severPkg s p.val)
  generalize severReqs (severPkg s p.val) rs = v at hk ⊢
  have hf := changed_frame (killAllWrites v)
  have hch := changes_of_kept (s := s) (s1 := severPkg s p.val) (u := killAllWrites v) ⟨rfl, rfl, rfl⟩ hk.version hk.changing hk.again
  generalize settleChange (startChange (killAllWrites v)) = t at hf hch ⊢
  have hsev : v.topo.severed.contains p.val = true := by
    rw [hk.topo]
    exact addOnce_contains ..
  refine ⟨hch, ?_, ?_, ?_⟩
  · have e : t.pkgs = v.pkgs := (congrArg State.pkgs hf :)
    have k : (v.pkg p.val).severSelf = _ := (congrArg Package.severSelf (hk.pkgs p.val) :)
    rw [State.pkg, e]
    refine k.trans ?_
    simp [severPkg]
  · have e : t.topo = v.topo := (congrArg State.topo hf :)
    rw [e]
    exact hsev
  · intro ix o ho hw hl hne hp
    have e : t.cells = (killAllWrites v).cells := (congrArg State.cells hf :)
    rw [State.cell, e]
    refine killAllWrites_dead (s := v) ?_ hw hl ?_
    · rw [hk.ops]; exact ho
    · rw [severedFor, hp, hsev, Bool.true_or, Bool.and_true]
      exact bne_iff_ne.2 (hp ▸ hne)

theorem severed_node_spec {s : State} {n : NodeId} (hi : nodeInDomain s n.val = true) (hl : nodeLost s n.val = true) :
    ∃ t, exec (.packageSevered (.node n)) s = .next t
      ∧ ((Unadopted t → t.changing = true) ∧ (s.changing = false → s.again = false → t.version = s.version + 1)
        ∧ (s.changing = true → t.version ≠ s.version ∨ t.again = true))
      ∧ nodeInDomain t n.val = false ∧ ∀ r ∈ t.reqs, r.node = n.val → Settled r := by
  refine ⟨_, severed_node hi hl, ?_⟩
  have hk := FabricKept.severReqs (s.reqs.filter (fun r => r.node == n.val)) (severNode s n.val)
  have hr := severReqs_settles (P := fun r => r.node = n.val) (fun h k => h.node.symm.trans k) (s.reqs.filter (fun r => r.node == n.val)) (severNode s n.val) (by
    intro x hx hn
    by_cases h : Settled x
    · exact .inl h
    · exact .inr ⟨x, List.mem_filter.2 ⟨hx, by simpa using hn⟩, rfl, h⟩)
  generalize severReqs (severNode s n.val) _ = v at hk hr ⊢
  have hf := changed_frame v
  have hch := changes_of_kept (s := s) (s1 := severNode s n.val) (u := v) ⟨rfl, rfl, rfl⟩ hk.version hk.changing hk.again
  generalize settleChange (startChange v) = t at hf hch ⊢
  refine ⟨hch, ?_, ?_⟩
  · have e : t.topo = v.topo := (congrArg State.topo hf :)
    have hc : (severNode s n.val).topo.nodesSevered.contains n.val = true := addOnce_contains ..
    rw [nodeInDomain, e, hk.topo, hc, Bool.not_true, Bool.and_false]
  · have e : t.reqs = v.reqs := (congrArg State.reqs hf :)
    rw [e]
    exact hr

theorem retune_spec (s : State) (p : PkgId) (i f : Fin 8) :
    ∃ t, exec (.retuneComplete (.port p i) f) s = .next t ∧ { t with pkgs := s.pkgs } = s ∧
      ∀ x, x ∈ (linkOf t p.val i.val).retune ↔ x ∈ (linkOf s p.val i.val).retune ∧ (x.1 ≠ f.val ∨ s.cycle < x.2) := by
  refine ⟨_, rfl, rfl, fun x => ?_⟩
  rw [linkOf_modPort]
  simp

/-- Settles O47: each row of the fabric by its branches; a severed request is followed through the severings by what stands for it. -/
theorem topologyLinksAndSevering : Obligations.TopologyLinksAndSevering := by
  unfold Obligations.TopologyLinksAndSevering
  intro p n i f l k id fr s
  dsimp only
  refine ⟨fun hc => ?_, fun hc => ⟨fun hv => ?_, announce_port hc, fun hv => ?_, fun hv => ?_⟩, fun hw => ?_, fun hw => ?_, fun hw => ?_,
    adopt_node, fun r hr hid => ⟨⟨fun h => ?_, fun h => ?_⟩, fun hn hs ha hd ho => ⟨fun hv => ?_, fun hv => ?_⟩⟩,
    laneFailure_spent k, laneFailure_package k, laneFailure_optical k, fun h => ?_, fun h => ?_, rfl, ⟨fun ht he => ?_, fun h => ?_⟩,
    fun h => ?_, severed_pkg_spec, fun h => ?_, severed_node_spec, retune_spec s p i f, rfl⟩
  · exact ⟨if_pos (by simp [hc]), if_pos (by simp [hc])⟩
  · exact (if_neg (by simp [hc])).trans (if_pos hv)
  · rw [announce_node hc, if_pos hv]
  · rw [announce_node hc, if_neg hv]
  · exact if_pos (by simpa [or_assoc] using hw)
  · simp only [not_or, Bool.not_eq_true] at hw
    obtain ⟨hi, hu, hv⟩ := hw
    exact adopt_port hi hu hv
  · exact if_pos (by simpa using hw)
  · rw [stale_port hr, if_pos h]
  · rw [stale_port hr, if_neg h]
  · rw [stale_node hr hn hs ha hd ho, if_neg (by simp [hv])]
  · obtain ⟨q, hq, hm, h3, h2⟩ := stale_node_older hr ha
    rw [stale_node hr hn hs ha hd ho, if_pos hv]
    exact ⟨_, q, rfl, hq, hm, h3, h2⟩
  · rw [retrainDone_eq, if_pos h]
  · rw [retrainDone_eq, if_neg (by omega)]
  · exact if_pos (by simp only [ht, he, Bool.true_and]; exact beq_self_eq_true _)
  · refine if_neg fun k => ?_
    obtain ⟨ht, he⟩ := Bool.and_eq_true_iff.1 k
    exact h.elim (fun h => by simp [h] at ht) (fun h => h (beq_iff_eq.1 he))
  · exact if_pos (by simpa using h)
  · exact if_pos (by simpa using h)

end Sys2Proof.Machine

/-! Schedules: publishing, advancing and filling (R361 to R364). -/
namespace Sys2Proof.Machine
open Sys2Proof

/-- A field of a word is the bits that it names. -/
theorem wf64_extract (w : Word) {hi lo n : Nat} (h : hi + 1 = lo + n) : wf64 w hi lo = (w.extractLsb' lo n).toNat := by
  obtain rfl : hi + 1 - lo = n := by omega
  simp [wf64, fieldOf, Nat.shiftRight_eq_div_pow]

theorem extract_eq_zero (w : Word) {hi lo n : Nat} (h : hi + 1 = lo + n) : w.extractLsb' lo n = 0 ↔ wf64 w hi lo = 0 := by
  rw [wf64_extract w h, ← BitVec.toNat_inj]
  rfl

/-- The header of a schedule is well formed for a die (R362, R363). -/
structure HeaderGood (die : Nat) (hb : List Byte) : Prop where
  high  : (wordAt hb 8).extractLsb' 15 49 = 0
  gap   : (wordAt hb 8).extractLsb' 9 3 = 0
  low   : 1 ≤ ((wordAt hb 8).extractLsb' 0 9).toNat
  top   : ((wordAt hb 8).extractLsb' 0 9).toNat ≤ 256
  rest  : ∀ y ∈ hb.drop 24, y = 0
  align : (wordAt hb 0).toNat % 256 = 0
  addr  : addrOk (wordAt hb 0) = true
  home  : homeDie (wordAt hb 0) = die

theorem headerOk_iff (die : Nat) (hb : List Byte) : headerOk die hb = true ↔ HeaderGood die hb := by
  have h1 := extract_eq_zero (wordAt hb 8) (show 63 + 1 = 15 + 49 from rfl)
  have h2 := extract_eq_zero (wordAt hb 8) (show 11 + 1 = 9 + 3 from rfl)
  have h3 := wf64_extract (wordAt hb 8) (show 8 + 1 = 0 + 9 from rfl)
  simp only [headerOk, Bool.and_eq_true, beq_iff_eq, decide_eq_true_eq, allZero, List.all_eq_true, h3]
  rw [← h1, ← h2]
  exact ⟨fun ⟨⟨⟨⟨⟨⟨⟨a, b⟩, c⟩, d⟩, e⟩, f⟩, g⟩, h⟩ => ⟨a, b, c, d, e, f, g, h⟩, fun ⟨a, b, c, d, e, f, g, h⟩ => ⟨⟨⟨⟨⟨⟨⟨a, b⟩, c⟩, d⟩, e⟩, f⟩, g⟩, h⟩⟩

/-- What a `schpub` does with the header it has read. -/
def publishWith (w : Word) (hb : List Byte) (st : State) : Res :=
  if headerOk st.myDie hb then .done (putSchedule st (some (scheduleOf (st.die st.myDie) hb))) else .trap .perm w

/-- The effect of a `schpub` (R361, R362). -/
def publishBody (s : BitVec 5) (st : State) : Res :=
  if st.cur.readA s.toNat = 0 then .done (putSchedule st none)
  else if (st.cur.readA s.toNat).toNat % 64 ≠ 0 then .trap .align (st.cur.readA s.toNat)
  else withRead st (st.cur.readA s.toNat) 4 (publishWith (st.cur.readA s.toNat))

section
variable {p : BitVec 4} {s : BitVec 5} {st : State}

theorem schpub_ready (g : AGo { pg := p, cm := true, aregs := [s.toNat], access := true } st) :
    WordReady (.schpub p s) { pg := p, cm := true, aregs := [s.toNat], access := true } (publishBody s) st := ⟨g, rfl, rfl, rfl, rfl⟩

theorem publishBody_read (h0 : st.cur.readA s.toNat ≠ 0) (ha : (st.cur.readA s.toNat).toNat % 64 = 0) :
    publishBody s st = withRead st (st.cur.readA s.toNat) 4 (publishWith (st.cur.readA s.toNat)) :=
  (if_neg h0).trans (if_neg (not_not.2 ha))

end

/-- What a moved current step keeps of a schedule (R363). -/
def advanced (x : Schedule) (w : Word) : Schedule :=
  let y := { x with s := w.toNat }
  { y with entered := x.entered.filter (fun k => y.walk.contains k.2), queued := x.queued.filter (fun q => y.walk.contains q.step) }

theorem mem_advanced_entered {x : Schedule} {w : Word} {e : Nat × Nat} :
    e ∈ (advanced x w).entered ↔ e ∈ x.entered ∧ e.2 ∈ (advanced x w).walk := by
  rw [advanced, List.mem_filter, List.contains_iff_mem]
  rfl

theorem mem_advanced_queued {x : Schedule} {w : Word} {j : FillJob} :
    j ∈ (advanced x w).queued ↔ j ∈ x.queued ∧ j.step ∈ (advanced x w).walk := by
  rw [advanced, List.mem_filter, List.contains_iff_mem]
  rfl

/-! A step of a bridge station. -/

section
variable {d : DieId} {s : State}

theorem scheduleFill_none (h : ∀ k, k < 8 → (s.die (d.pkg.val * 8 + k)).schedule = none) : exec (.scheduleFill d) s = .next s := by
  show execScheduleFill d s = _
  unfold execScheduleFill
  split
  next t ht =>
    obtain ⟨k, hk, hf⟩ := List.exists_of_findSome?_eq_some ht
    simp [h k (List.mem_range.1 hk)] at hf
  next => rfl

theorem scheduleFill_first {x : Schedule} {t : State} (hx : (s.die (d.pkg.val * 8)).schedule = some x)
    (ht : fillStep s (d.pkg.val * 8) d.die.val x = some t) : exec (.scheduleFill d) s = .next t := by
  show execScheduleFill d s = _
  simp only [execScheduleFill, List.range, List.range.loop, List.findSome?_cons, Nat.add_zero, hx, ht]

end

/-- A schedule of a die, put in its place. -/
def withSchedule (s : State) (die : Nat) (y : Schedule) : State := s.modDie die (fun d => { d with schedule := some y })

section
variable {s : State} {die bridge : Nat} {x : Schedule}

theorem mem_entryJobs {bridge step : Nat} {eb : List Byte} {j : FillJob} (h : j ∈ entryJobs bridge step eb) :
    j.bridge = bridge ∧ j.step = step ∧ j.next < j.stop ∧ j.next % 4096 = 0 := by
  unfold entryJobs at h
  dsimp only at h
  split at h
  · cases h
  · obtain ⟨i, -, hi⟩ := List.mem_filterMap.1 h
    split at hi
    · cases hi
    next hn =>
      obtain rfl := Option.some.inj hi
      exact ⟨rfl, rfl, by dsimp only; omega, by dsimp only; omega⟩

/-- The next step of the walk is entered: its entry is read and its fills are queued (R364). -/
theorem fillStep_enters {k : Nat} (hk : x.walk.find? (fun k => !x.entered.contains (bridge, k)) = some k) :
    ∃ jobs u, fillStep s die bridge x = some (withSchedule u die { x with entered := x.entered ++ [(bridge, k)], queued := x.queued ++ jobs })
      ∧ (readRun die (x.list + BitVec.ofNat 64 (256 * (k % x.n))) 8 s = none → jobs = [] ∧ u = s)
      ∧ (∀ y, readRun die (x.list + BitVec.ofNat 64 (256 * (k % x.n))) 8 s = some y → u = y.2)
      ∧ (∀ j ∈ jobs, j.bridge = bridge ∧ j.step = k ∧ j.next < j.stop ∧ j.next % 4096 = 0) := by
  unfold fillStep
  dsimp only
  rw [hk]
  dsimp only
  cases readRun die (x.list + BitVec.ofNat 64 (256 * (k % x.n))) 8 s with
  | none => exact ⟨[], s, rfl, fun _ => ⟨rfl, rfl⟩, by simp, by simp⟩
  | some y => exact ⟨_, y.2, rfl, by simp, by simp, fun j hj => mem_entryJobs hj⟩

variable (hk : x.walk.find? (fun k => !x.entered.contains (bridge, k)) = none) {j : FillJob}
  (hj : x.queued.find? (fun j => j.bridge == bridge) = some j)
include hk hj

/-- A finished fill, and one of another bridge, is dropped (R364). -/
theorem fillStep_drops (h : nodeOf s (capOid j.cap).toNat % 8 ≠ bridge ∨ j.stop ≤ j.next) :
    fillStep s die bridge x = some (withSchedule s die { x with queued := x.queued.erase j }) := by
  unfold fillStep
  dsimp only
  rw [hk]
  dsimp only
  rw [hj]
  exact if_pos h

/-- A schedule whose fill j has moved one sector on. -/
def Schedule.past (x : Schedule) (j : FillJob) : Schedule :=
  { x with queued := x.queued.map (fun q => if q = j then { j with next := j.next + 32 } else q) }

theorem fillStep_fills (hn : nodeOf s (capOid j.cap).toNat % 8 = bridge) (hs : j.next < j.stop)
    (hi : issuing s (pkgOfDie die) bridge = true) (ho : nodeOpen s (pkgOfDie die) (nodeOf s (capOid j.cap).toNat) = true) :
    fillStep s die bridge x = some (withSchedule (fillOne s die bridge j) die (x.past j)) := by
  unfold fillStep
  dsimp only
  rw [hk]
  dsimp only
  rw [hj]
  exact (if_neg (by omega)).trans (if_neg (by simp [hi, ho]))

end

/-- The offset in its object of a fill's next sector. -/
def FillJob.off (j : FillJob) : Nat := if capWlen j.cap = 0 then j.next else capWstart j.cap * 4096 + j.next

section
variable {s : State} {die bridge : Nat} {j : FillJob}

theorem fillOne_held {c : Sector} (h : sector? s (pkgOfDie die) (capOid j.cap).toNat j.off = some c)
    (hc : c.pending = true ∨ (s.pkg (pkgOfDie die)).pts ≤ c.rts) : fillOne s die bridge j = s := by
  unfold FillJob.off at h
  unfold fillOne
  dsimp only
  rw [h]
  exact if_pos (by simpa using .inl hc)

theorem fillOne_sends (h : ∀ c, sector? s (pkgOfDie die) (capOid j.cap).toNat j.off = some c →
      c.pending = false ∧ c.rts < (s.pkg (pkgOfDie die)).pts)
    (hf : ∀ r ∈ s.reqs, ¬ (r.op.isFill = true ∧ pkgOfCell r.cell = pkgOfDie die ∧ r.oid = (capOid j.cap).toNat
      ∧ j.off / 32 ∈ askedSectors r ∧ r.discarded = false ∧ r.stage ≠ .returning))
    (hp : nodePresent s (pkgOfDie die) (nodeOf s (capOid j.cap).toNat) = true) : fillOne s die bridge j = sendFill s die j := by
  unfold FillJob.off at h hf
  have hany : s.reqs.any (fun q => q.op.isFill && pkgOfCell q.cell == pkgOfDie die && q.oid == (capOid j.cap).toNat
      && (askedSectors q).contains ((if capWlen j.cap = 0 then j.next else capWstart j.cap * 4096 + j.next) / 32)
      && !q.discarded && q.stage != .returning) = false := by
    rw [← Bool.not_eq_true, List.any_eq_true]
    rintro ⟨r, hr, k⟩
    simp only [Bool.and_eq_true, beq_iff_eq, List.contains_iff_mem, Bool.not_eq_true', bne_iff_ne] at k
    obtain ⟨⟨⟨⟨⟨k1, k2⟩, k3⟩, k4⟩, k5⟩, k6⟩ := k
    exact hf r hr ⟨k1, k2, k3, k4, k5, k6⟩
  unfold fillOne
  dsimp only
  rw [hany, hp]
  refine (if_neg ?_).trans (if_neg (by simp))
  split
  next c hc =>
    obtain ⟨h1, h2⟩ := h c hc
    simp [h1, h2]
  next => simp

/-- The renewal that a fill sends for its next sector, as it stands at its node's plane (R364). -/
def fillRequest (s : State) (die : Nat) (j : FillJob) : PoolReq where
  id := s.nextId
  cell := die * 144
  op := .fill
  cap := j.cap
  off := j.off
  inOff := j.next
  world := (s.die die).world
  node := nodeOf s (capOid j.cap).toNat
  version := portVersion s (pkgOfCell (die * 144)) (nodeOf s (capOid j.cap).toNat % 8)
  pts := (s.pkg (pkgOfDie die)).pts
  stage := .atNode
  since := s.cycle
  expiry := 0
  order := s.nextId
  tries := 0
  answer := .none
  veto := false
  discarded := false

/-- A new request leaves its port. -/
theorem leavePort_append {t : State} {r : PoolReq} (to_ : ReqStage) (hid : ∀ q ∈ t.reqs, q.id ≠ r.id) :
    leavePort { t with reqs := t.reqs ++ [r] } r to_ =
      { t with reqs := t.reqs ++ [{ r with stage := to_, version := portVersion t (pkgOfCell r.cell) (r.node % 8) }] } := by
  have keep (f : PoolReq → PoolReq) : t.reqs.map (fun q => if q.id = r.id then f q else q) = t.reqs :=
    (List.map_congr_left fun q hq => if_neg (hid q hq)).trans (List.map_id _)
  rw [leavePort, modReq, List.map_append, keep, List.map_singleton, if_pos rfl]
  rfl

/-- The renewal of a fill's sector joins the requests, and nothing else changes but the next number. -/
theorem sendFill_eq (hid : ∀ r ∈ s.reqs, r.id ≠ s.nextId) :
    sendFill s die j = { s.fresh.2 with reqs := s.reqs ++ [fillRequest s die j] } :=
  leavePort_append (t := s.fresh.2) .atNode hid

end

section
variable {p : BitVec 4} {s : BitVec 5} {st : State}

theorem schpub_spec (g : AGo { pg := p, cm := true, aregs := [s.toNat], access := true } st) :
    let w := st.cur.readA s.toNat
    (w = 0 → Issues (.schpub p s) st (st.modDie st.myDie (fun d => { d with schedule := none })))
    ∧ (w.toNat % 64 ≠ 0 → Traps (.schpub p s) st .align w)
    ∧ (w ≠ 0 → w.toNat % 64 = 0 → (∀ e v, readNow st w 4 = .fault e v → TrapsAfter (.schpub p s) st st e v)
      ∧ ∀ hb x, readNow st w 4 = .ok hb x →
        (HeaderGood x.myDie hb → Issues (.schpub p s) st (putSchedule x (some (scheduleOf (x.die x.myDie) hb))))
        ∧ (¬ HeaderGood x.myDie hb → Traps (.schpub p s) st .perm w)) := by
  have ready := schpub_ready g
  refine ⟨fun h0 => ready.issues (if_pos h0), fun ha => ready.traps ?_, fun h0 ha => ?_⟩
  · refine (if_neg fun h0 => ?_).trans (if_pos ha)
    rw [h0] at ha
    exact ha rfl
  · have hread := publishBody_read h0 ha
    refine ⟨fun e v hf => ready.trapsAfter ((hread).trans (withRead_fault hf)), fun hb x hr => ⟨fun hg => ready.issues ?_, fun hg => ready.traps ?_⟩⟩
    · rw [hread, withRead_ok hr]
      exact if_pos ((headerOk_iff ..).2 hg)
    · rw [hread, withRead_ok hr]
      exact if_neg (mt (headerOk_iff ..).1 hg)

theorem schadv_traps (g : AGo { pg := p, cm := true, aregs := [s.toNat] } st) (h : (st.die st.myDie).schedule = none) :
    Traps (.schadv p s) st .perm (st.cur.readA s.toNat) := by
  have ready : WordReady (.schadv p s) _ _ st := ⟨g, rfl, rfl, rfl, rfl⟩
  exact ready.traps (by dsimp only; rw [h])

theorem schadv_issues (g : AGo { pg := p, cm := true, aregs := [s.toNat] } st) {x : Schedule} (h : (st.die st.myDie).schedule = some x) :
    Issues (.schadv p s) st (putSchedule st (some (advanced x (st.cur.readA s.toNat)))) := by
  have ready : WordReady (.schadv p s) _ _ st := ⟨g, rfl, rfl, rfl, rfl⟩
  exact ready.issues (by dsimp only; rw [h]; rfl)

end

/-- Settles O50: the words by what they find published; a fill by the next step of the walk and the first queued fill. -/
theorem scheduleWordsAndFills : Obligations.ScheduleWordsAndFills := by
  unfold Obligations.ScheduleWordsAndFills
  refine ⟨fun p s st => ⟨fun g => ?publish, fun g => ⟨schadv_traps g, fun x hx => ?advance⟩⟩, fun d s => ⟨scheduleFill_none, fun x hx => ?fill⟩⟩
  case publish =>
    obtain ⟨h0, ha, hr⟩ := schpub_spec g
    refine ⟨h0, ha, fun k0 ka => ?_⟩
    obtain ⟨hf, hok⟩ := hr k0 ka
    refine ⟨hf, fun hb x hx => ?_⟩
    obtain ⟨hgood, hbad⟩ := hok hb x hx
    refine ⟨fun ⟨a, b, c, d, e, f, g, h⟩ => ?_, fun hn => hbad fun ⟨a, b, c, d, e, f, g, h⟩ => hn ⟨a, b, c, d, e, f, g, h⟩⟩
    have hp := hgood ⟨a, b, c, d, e, f, g, h⟩
    rw [putSchedule, scheduleOf, wf64_extract _ (show 8 + 1 = 0 + 9 from rfl), wf64_extract _ (show 14 + 1 = 12 + 3 from rfl)] at hp
    exact hp
  case advance =>
    exact ⟨_, _, schadv_issues g hx, rfl, rfl, rfl, rfl, rfl, fun e => mem_advanced_entered, fun j => mem_advanced_queued⟩
  case fill =>
    have hpkg : pkgOfDie (d.pkg.val * 8) = d.pkg.val := by unfold pkgOfDie; omega
    dsimp only
    refine ⟨fun k hk => ?_, fun hk j hj => ⟨fun h => scheduleFill_first hx (fillStep_drops hk hj h), fun hn hs hi ho => ?_⟩⟩
    · obtain ⟨jobs, u, he, h⟩ := fillStep_enters (s := s) (die := d.pkg.val * 8) hk
      exact ⟨jobs, u, scheduleFill_first hx he, h⟩
    · have he := scheduleFill_first hx (fillStep_fills hk hj hn hs (by rw [hpkg]; exact hi) (by rw [hpkg]; exact ho))
      refine ⟨fun c hc hheld => ?_, fun hc hf hp => ?_⟩
      · rw [he, fillOne_held (c := c) (by rw [hpkg]; exact hc) (by rw [hpkg]; exact hheld)]
        rfl
      · rw [fillOne_sends (by rw [hpkg]; exact hc) (by rw [hpkg]; exact fun r hr => (hf r hr).2) (by rw [hpkg]; exact hp),
          sendFill_eq fun r hr => (hf r hr).1] at he
        refine ⟨_, _, he, rfl, rfl, rfl, rfl, rfl, rfl, rfl, rfl, ?_⟩
        rw [withSchedule, State.modDie_die_self]
        rfl

end Sys2Proof.Machine

/-! Stores to the die window (R343, R352 to R355, R360). -/
namespace Sys2Proof.Machine
open Sys2Proof

/-! Numbers as bytes, and one word of a number replaced. -/

theorem length_leBytes (n : Nat) : ∀ v, (leBytes v n).length = n := by
  induction n with
  | zero => exact fun _ => rfl
  | succ n ih => exact fun v => congrArg (· + 1) (ih _)

theorem ofLe_append (xs ys : List Byte) : ofLe (xs ++ ys) = ofLe xs + 256 ^ xs.length * ofLe ys := by
  induction xs with
  | nil => simp [ofLe]
  | cons x xs ih => simp only [List.cons_append, ofLe, ih, List.length_cons, Nat.pow_succ]; ring

theorem ofLe_lt (bs : List Byte) : ofLe bs < 256 ^ bs.length := by
  induction bs with
  | nil => simp [ofLe]
  | cons b bs ih =>
    have := b.isLt
    rw [ofLe, List.length_cons, Nat.pow_succ]
    omega

theorem ofLe_leBytes (n : Nat) : ∀ v, ofLe (leBytes v n) = v % 256 ^ n := by
  induction n with
  | zero => intro v; simp [ofLe, leBytes, Nat.mod_one]
  | succ n ih =>
    intro v
    rw [leBytes, ofLe, ih, BitVec.toNat_ofNat, show 2 ^ 8 = 256 from rfl, Nat.pow_succ', Nat.mod_mul]

theorem take_leBytes {i n : Nat} (h : i ≤ n) : ∀ v, (leBytes v n).take i = leBytes v i := by
  induction n generalizing i with
  | zero =>
    obtain rfl : i = 0 := by omega
    exact fun v => rfl
  | succ n ih =>
    intro v
    cases i with
    | zero => rfl
    | succ i => rw [leBytes, List.take_succ_cons, ih (by omega), leBytes]

theorem drop_leBytes {i n : Nat} (h : i ≤ n) : ∀ v, (leBytes v n).drop i = leBytes (v / 256 ^ i) (n - i) := by
  induction n generalizing i with
  | zero =>
    obtain rfl : i = 0 := by omega
    simp
  | succ n ih =>
    intro v
    cases i with
    | zero => simp
    | succ i => rw [leBytes, List.drop_succ_cons, ih (by omega), Nat.div_div_eq_div_mul, Nat.pow_succ, Nat.mul_comm 256, Nat.add_sub_add_right]

/-- Bytes from i on of a number replaced by those of another. -/
theorem ofLe_overlay {i n m : Nat} (h : i + n ≤ m) (k v : Nat) (hk : k < 256 ^ m) (hv : v < 256 ^ n) :
    ofLe (overlay (leBytes k m) i (leBytes v n)) = k % 256 ^ i + 256 ^ i * (v + 256 ^ n * (k / (256 ^ i * 256 ^ n))) := by
  have hlen (x j : Nat) : (leBytes x j).length = j := length_leBytes j x
  have hd : k / 256 ^ (i + n) < 256 ^ (m - (i + n)) := by
    rw [Nat.div_lt_iff_lt_mul (by positivity), ← Nat.pow_add, Nat.sub_add_cancel h]
    exact hk
  rw [overlay, hlen, take_leBytes (by omega), drop_leBytes h, ofLe_append, ofLe_append, List.length_append, hlen, hlen, ofLe_leBytes, ofLe_leBytes,
    ofLe_leBytes, Nat.mod_eq_of_lt hv, Nat.mod_eq_of_lt hd, Nat.pow_add]
  ring

/-- A number whose word above P is replaced by v: the word there is v. -/
theorem replaced_word {P Q : Nat} (hP : 0 < P) (k : Nat) {v : Nat} (hv : v < Q) :
    (k % P + P * (v + Q * (k / (P * Q)))) / P % Q = v := by
  rw [Nat.add_mul_div_left _ _ hP, Nat.div_eq_of_lt (Nat.mod_lt _ hP), Nat.zero_add, Nat.add_mul_mod_self_left, Nat.mod_eq_of_lt hv]

/-- The words above it are as they were. -/
theorem replaced_above {P Q : Nat} (hP : 0 < P) (R k : Nat) {v : Nat} (hv : v < Q) :
    (k % P + P * (v + Q * (k / (P * Q)))) / (P * Q * R) = k / (P * Q * R) := by
  have hQ : 0 < Q := by omega
  rw [← Nat.div_div_eq_div_mul, ← Nat.div_div_eq_div_mul, Nat.add_mul_div_left _ _ hP, Nat.div_eq_of_lt (Nat.mod_lt _ hP), Nat.zero_add,
    Nat.add_mul_div_left _ _ hQ, Nat.div_eq_of_lt hv, Nat.zero_add, Nat.div_div_eq_div_mul]

/-- The words below it are as they were. -/
theorem replaced_below {P Q R : Nat} (hd : R * Q ∣ P) (k v : Nat) :
    (k % P + P * v) / R % Q = k / R % Q := by
  rw [← Nat.mod_mul_right_div_self, ← Nat.mod_mul_right_div_self, ← Nat.mod_mod_of_dvd _ hd, Nat.add_mul_mod_self_left, Nat.mod_mod, Nat.mod_mod_of_dvd _ hd]

/-- A key with its word w replaced (R355). -/
def withWord (key : BitVec 256) (w : Nat) (v : Word) : BitVec 256 :=
  BitVec.ofNat 256 (ofLe (overlay (leBytes key.toNat 32) (8 * w) (leBytes v.toNat 8)))

theorem withWord_toNat (key : BitVec 256) {w : Nat} (hw : w < 4) (v : Word) :
    (withWord key w v).toNat = key.toNat % 2 ^ (64 * w) + 2 ^ (64 * w) * (v.toNat + 2 ^ 64 * (key.toNat / (2 ^ (64 * w) * 2 ^ 64))) := by
  have hp : 256 ^ (8 * w) = 2 ^ (64 * w) := by rw [show 256 = 2 ^ 8 from rfl, ← Nat.pow_mul]; congr 1; omega
  have h := ofLe_overlay (i := 8 * w) (n := 8) (m := 32) (by omega) key.toNat v.toNat key.isLt v.isLt
  rw [hp] at h
  have hlen : (overlay (leBytes key.toNat 32) (8 * w) (leBytes v.toNat 8)).length = 32 := by
    simp only [overlay, List.length_append, List.length_take, List.length_drop, length_leBytes]
    omega
  have hlt := ofLe_lt (overlay (leBytes key.toNat 32) (8 * w) (leBytes v.toNat 8))
  rw [hlen] at hlt
  exact (Nat.mod_eq_of_lt hlt).trans h

theorem extract_toNat (x : BitVec 256) (u : Nat) : (x.extractLsb' (64 * u) 64).toNat = x.toNat / 2 ^ (64 * u) % 2 ^ 64 := by
  rw [BitVec.extractLsb'_toNat, Nat.shiftRight_eq_div_pow]

theorem withWord_same (key : BitVec 256) {w : Nat} (hw : w < 4) (v : Word) : (withWord key w v).extractLsb' (64 * w) 64 = v := by
  apply BitVec.eq_of_toNat_eq
  rw [extract_toNat, withWord_toNat key hw, replaced_word (by positivity) _ v.isLt]

theorem withWord_other (key : BitVec 256) {w u : Nat} (hw : w < 4) (hu : u ≠ w) (v : Word) :
    (withWord key w v).extractLsb' (64 * u) 64 = key.extractLsb' (64 * u) 64 := by
  apply BitVec.eq_of_toNat_eq
  rw [extract_toNat, extract_toNat, withWord_toNat key hw]
  obtain h | h := Nat.lt_or_gt_of_ne hu
  · refine replaced_below ?_ _ _
    rw [← Nat.pow_add]
    exact Nat.pow_dvd_pow 2 (by omega)
  · have e : 2 ^ (64 * u) = 2 ^ (64 * w) * 2 ^ 64 * 2 ^ (64 * (u - w - 1)) := by
      rw [← Nat.pow_add, ← Nat.pow_add]
      congr 1
      omega
    rw [e, replaced_above (by positivity) _ _ v.isLt]

/-! Where a store to the window goes (R343). -/

section
variable {s : State} {die : Nat} {v : Word}

theorem windowStore_slot {ix : Nat} (h : ix < 512) : windowStore s die (0x1000 + 8 * ix) v = setSlot s die ix v := by
  unfold windowStore
  rw [if_neg (by omega), if_neg (by omega), if_pos (by omega), show (0x1000 + 8 * ix - 0x1000) / 8 = ix by omega]

/-- What a store to word n of an entry of the key-handle table does (R355). -/
def keyStore (s : State) (die ix n : Nat) (v : Word) : State :=
  match n with
  | 0 => setKeyControl s die ix v
  | 2 => setKeyWord s die ix 0 v
  | 3 => setKeyWord s die ix 1 v
  | 4 => setKeyWord s die ix 2 v
  | 5 => setKeyWord s die ix 3 v
  | _ => s

theorem windowStore_key {ix n : Nat} (h : ix < 64) (hn : n < 8) : windowStore s die (0x3000 + 64 * ix + 8 * n) v = keyStore s die ix n v := by
  unfold windowStore
  rw [if_neg (by omega), if_neg (by omega), if_neg (by omega), if_neg (by omega), if_pos (by omega)]
  dsimp only
  rw [show (0x3000 + 64 * ix + 8 * n - 0x3000) / 64 = ix by omega, show (0x3000 + 64 * ix + 8 * n) % 64 / 8 = n by omega] <;> rfl

theorem keyStore_word {ix w : Nat} (hw : w < 4) : keyStore s die ix (2 + w) v = setKeyWord s die ix w v := by
  interval_cases w <;> rfl

theorem windowStore_request {r : Nat} (h : r < 4096) : windowStore s die (0x200020 + 512 * r) v = setRequest s die r v := by
  unfold windowStore
  rw [if_neg (by omega), if_neg (by omega), if_neg (by omega), if_neg (by omega), if_neg (by omega), if_pos (by omega),
    show (0x200020 + 512 * r - 0x200000) / 512 = r by omega]

theorem windowStore_fixed {off : Nat} (h : off % 8 ≠ 0 ∨ off = 0x2000 ∨ (0x4000 ≤ off ∧ off < 0x200000)) : windowStore s die off v = s := by
  unfold windowStore
  obtain h | h : off % 8 ≠ 0 ∨ (off = 0x2000 ∨ (0x4000 ≤ off ∧ off < 0x200000)) := h
  · exact if_pos h
  · by_cases h8 : off % 8 ≠ 0
    · exact if_pos h8
    · rw [if_neg h8, if_neg (by omega), if_neg (by omega), if_neg (by omega), if_neg (by omega), if_neg (by omega)]

end

section
variable {d : DieId} {v : Word} {s : State}

theorem windowWrite_at {n : Nat} (h : n < 2 ^ 48) : exec (.windowWrite d (BitVec.ofNat 48 n) v) s = .next (windowStore s (dieIx d) n v) := by
  show execWindowWrite d (BitVec.ofNat 48 n) v s = _
  rw [execWindowWrite, BitVec.toNat_ofNat, Nat.mod_eq_of_lt h]

/-! The fields (R352 to R354). -/

theorem lrBusy_iff (s : State) (die : Nat) :
    (!lrBusy s die) = true ↔ ((s.die die).lrbase = 0 ∨ lrIndex s die 0 = lrIndex s die 8) := by
  simp [lrBusy, or_iff_not_imp_left]

theorem fqbaseOk_iff (s : State) (die : Nat) (v : Word) : fqbaseOk s die v = true ↔
    (v = 0 ∨ (addrOk v = true ∧ aVault v = true ∧ homeDie v = die ∧ vaultOf v = 0
      ∧ ∃ k r, regionAt (s.die die) 0 (vaultByte v) = some (k, r) ∧ r.rd = true ∧ r.wr = true ∧ vaultByte v + 16416 ≤ (r.base + r.size) * 1024)) := by
  unfold fqbaseOk
  cases regionAt (s.die die) 0 (vaultByte v) with
  | none => simp
  | some e => 
    obtain ⟨k, r⟩ := e
    simp [and_assoc]

theorem fqBusy_iff (s : State) (die : Nat) :
    (!fqBusy s die) = true ↔ ((s.die die).fqbase = 0 ∨ fqByte s die 0 = fqByte s die 8) := by
  simp [fqBusy, or_iff_not_imp_left]

theorem setFqbase_eq (h : (s.die (dieIx d)).faultWait = []) : setFqbase s (dieIx d) v =
    if fqbaseOk s (dieIx d) v && !fqBusy s (dieIx d) then s.modDie (dieIx d) (fun k => { k with fqbase := v }) else s := by
  unfold setFqbase
  split
  · unfold flushRecords
    rw [State.modDie_die_self, h]
  · rfl

/-- Entry 0 of a stow slot list names no slot. -/
theorem slotHeld_zero (D : Die) (die : Nat) : slotHeld D die 0 = false := by
  unfold slotHeld slotRegion
  rw [if_pos (.inl rfl)]

theorem setListen_keeps (hv : listenOk s (dieIx d) v = true) :
    ∃ t, exec (.writeListenPending d v) s = .next t ∧ t.die (dieIx d) = { s.die (dieIx d) with listenPending := some v } ∧ t.changing = true
      ∧ (s.changing = false → t.version = s.version + 1 ∧ t.again = false ∧ t.told = s.topo)
      ∧ (s.changing = true → t.version = s.version ∧ t.told = s.told
          ∧ t.again = (s.again || (portVersion s (dieIx d / 8) (dieIx d % 8) == s.version))) ∧ t.mem = s.mem ∧ t.cells = s.cells
      ∧ ∀ j, j ≠ dieIx d → t.die j = s.die j := by
  have he : exec (.writeListenPending d v) s = .next (if (s.changing && portVersion s (dieIx d / 8) (dieIx d % 8) != s.version) = true
      then s.modDie (dieIx d) (fun k => { k with listenPending := some v })
      else startChange (s.modDie (dieIx d) (fun k => { k with listenPending := some v }))) := congrArg Host.Outcome.next (if_pos hv)
  have hself := State.modDie_die_self s (dieIx d) (fun k => { k with listenPending := some v })
  have hother (j : Nat) (h : j ≠ dieIx d) := (State.modDie_die s (dieIx d) (fun k => { k with listenPending := some v }) j).trans (if_neg h)
  refine ⟨_, he, ?_⟩
  cases hc : s.changing with
  | false =>
    have hs : startChange (s.modDie (dieIx d) (fun k => { k with listenPending := some v }))
        = announce (s.modDie (dieIx d) (fun k => { k with listenPending := some v })) := if_neg (by simp [hc])
    rw [if_neg (by simp), hs]
    exact ⟨hself, rfl, fun _ => ⟨rfl, rfl, rfl⟩, by simp, rfl, rfl, hother⟩
  | true =>
    have hs : startChange (s.modDie (dieIx d) (fun k => { k with listenPending := some v }))
        = { s.modDie (dieIx d) (fun k => { k with listenPending := some v }) with again := true } := if_pos hc
    by_cases hp : portVersion s (dieIx d / 8) (dieIx d % 8) = s.version
    · rw [if_neg (by simp [hp]), hs]
      exact ⟨hself, hc, by simp, fun _ => ⟨rfl, rfl, by simp [hp]⟩, rfl, rfl, hother⟩
    · rw [if_pos (by simp [hp])]
      exact ⟨hself, hc, by simp, fun _ => ⟨rfl, rfl, by simp [hp]⟩, rfl, rfl, hother⟩

/-! The key-handle table (R355). -/

variable {ix : Fin 64}

/-- An entry's control store as its fields say. -/
def armedBy (s : State) (die ix : Nat) (v : Word) : KeyEntry :=
  ⟨v.extractLsb' 32 32, v.extractLsb' 16 16, true, v.extractLsb' 0 2, 0, (keyOf s die ix).key⟩

theorem ofNat_field (v : Word) {hi lo n : Nat} (h : hi + 1 = lo + n) : BitVec.ofNat n (wf64 v hi lo) = v.extractLsb' lo n := by
  rw [wf64_extract v h, BitVec.ofNat_toNat, BitVec.setWidth_eq]

/-- A kind that an entry may be armed with. -/
def ArmLegal (s : State) (die ix : Nat) (v : Word) : Prop :=
  v.extractLsb' 0 2 ≠ 0 ∧ (v.extractLsb' 0 2 = 2 → ix = 0) ∧ (v.extractLsb' 0 2 = 1 → ix ≠ 0 ∧ v.extractLsb' 16 16 = (s.die die).world)

theorem kind_eq (v : Word) {n : Nat} (h : n < 4) : wf64 v 1 0 = n ↔ v.extractLsb' 0 2 = BitVec.ofNat 2 n := by
  rw [wf64_extract v (show 1 + 1 = 0 + 2 from rfl), ← BitVec.toNat_inj, BitVec.toNat_ofNat, Nat.mod_eq_of_lt h]

theorem arm_refused_iff (s : State) (die ix : Nat) (v : Word) :
    (wf64 v 1 0 = 0 ∨ (wf64 v 1 0 = 2 ∧ ix ≠ 0) ∨ (wf64 v 1 0 = 1 ∧ ix = 0)
      ∨ (wf64 v 1 0 = 1 ∧ BitVec.ofNat 16 (wf64 v 31 16) ≠ (s.die die).world)) ↔ ¬ ArmLegal s die ix v := by
  rw [kind_eq v (by decide : 0 < 4), kind_eq v (by decide : 1 < 4), kind_eq v (by decide : 2 < 4), ofNat_field v (show 31 + 1 = 16 + 16 from rfl),
    ArmLegal]
  have e0 : BitVec.ofNat 2 0 = (0 : BitVec 2) := rfl
  have e1 : BitVec.ofNat 2 1 = (1 : BitVec 2) := rfl
  have e2 : BitVec.ofNat 2 2 = (2 : BitVec 2) := rfl
  rw [e0, e1, e2]
  tauto

theorem armKey_refused {die ix : Nat} (h : ¬ ArmLegal s die ix v) : armKey s die ix v = s :=
  if_pos ((arm_refused_iff s die ix v).2 h)

theorem armKey_legal {die ix : Nat} (h : ArmLegal s die ix v) : armKey s die ix v =
    if ix = 0 ∧ v.extractLsb' 0 2 = 2 then
      { setKey s die ix (armedBy s die ix v) with domKey := some (keyOf s die ix).key }.modPkg (pkgOfDie die) (fun p => { p with
        lit := true, rekey := if p.lit then List.range 8 else p.rekey })
    else keyGone (setKey s die ix (armedBy s die ix v)) := by
  have hk := kind_eq v (by decide : 2 < 4)
  refine (if_neg (fun k => (arm_refused_iff s die ix v).1 k h)).trans ?_
  dsimp only
  rw [ofNat_field v (show 63 + 1 = 32 + 32 from rfl), ofNat_field v (show 31 + 1 = 16 + 16 from rfl), ofNat_field v (show 1 + 1 = 0 + 2 from rfl)]
  simp only [hk]
  rfl

theorem disarmKey_eq (die ix : Nat) : disarmKey s die ix v = keyGone (setKey s die ix { keyOf s die ix with
    fixed := v.extractLsb' 32 32, world := v.extractLsb' 16 16, armed := false, kind := 0, key := 0 }) := by
  rw [disarmKey, ofNat_field v (show 63 + 1 = 32 + 32 from rfl), ofNat_field v (show 31 + 1 = 16 + 16 from rfl)]

theorem setKeyControl_eq (die ix : Nat) : setKeyControl s die ix v =
    if v.extractLsb' 0 2 = 0 then disarmKey s die ix v else armKey s die ix v := by
  have hk := kind_eq v (by decide : 0 < 4)
  unfold setKeyControl
  simp only [hk]
  rfl

theorem keyGone_keeps (h : ∃ e ∈ s.dies, ∃ k, dieKey s e.1 = some k) : keyGone s = s := by
  obtain ⟨e, he, k, hk⟩ := h
  exact if_pos (List.any_eq_true.2 ⟨e, he, by rw [hk]; rfl⟩)

theorem keyGone_drops (h : ∀ e ∈ s.dies, dieKey s e.1 = none) : keyGone s = { s with domKey := none } := by
  refine if_neg fun k => ?_
  obtain ⟨e, he, hs⟩ := List.any_eq_true.1 k
  rw [h e he] at hs
  cases hs

/-! Pre-emption requests (R252, R360). -/

/-- The bit of one share in a request word. -/
theorem requestBit {b : Nat} (hb : b < 8) (runs : Nat → Bool) :
    (List.range 8).foldl (fun n d => if ((BitVec.ofNat 64 (2 ^ b)).getLsbD d && runs d) = true then n + 2 ^ d else n) 0
      = if runs b = true then 2 ^ b else 0 := by
  interval_cases b <;> simp [List.range, List.range.loop]

theorem setRequest_running {die r b : Nat} (hb : b < 8) {T : Task} (hT : find? (s.die die).tasks r = some T) (hf : T.state.isFinal = false) :
    setRequest s die r (BitVec.ofNat 64 (2 ^ b)) = s.modDie die (fun k => { k with tasks := insertAt k.tasks r { T with
      request := if shareRuns s (mkHandle die r T.gen) (die / 8 * 8 + b) = true then T.request ||| BitVec.ofNat 8 (2 ^ b) else T.request } }) := by
  unfold setRequest
  rw [hT]
  dsimp only
  rw [requestBit hb (fun d => shareRuns s (mkHandle die r T.gen) (die / 8 * 8 + d)), if_neg (by simp [hf])]
  split
  · rfl
  · simp
end

/-- Settles O54: each store by the condition that guards it; a replaced key word by its place in the number. -/
theorem windowStoresObeyTheirFields : Obligations.WindowStoresObeyTheirFields := by
  unfold Obligations.WindowStoresObeyTheirFields
  intro d v s
  dsimp only
  refine ⟨fun h => congrArg _ (if_pos h), fun h => congrArg _ (if_neg h), ⟨fun h => congrArg _ (if_pos h), fun h => congrArg _ (if_neg h)⟩,
    ⟨fun h => congrArg _ (if_pos h), fun h => congrArg _ (if_neg h)⟩, ⟨fun h => congrArg _ (if_pos h), fun h => congrArg _ (if_neg h)⟩,
    ⟨fun h => congrArg _ (if_pos h), fun h => congrArg _ (if_neg h)⟩, ?lrbase, ?lrm, fun hw => ?fqbase, fun ix => ⟨?slot, ?slotAt⟩,
    fun h => congrArg _ (if_neg (by simp [h])), setListen_keeps, fun ix => ⟨fun w => ⟨?keyArmed, ?keyWord, ?keyAt⟩, ?arm⟩,
    fun r b => ⟨fun h => ?noTask, fun T hT => ⟨?ended, ?running⟩, ?requestAt⟩,
    keyGone_keeps, keyGone_drops, rfl, rfl, rfl, rfl, rfl, rfl, rfl, rfl, rfl, fun off h => ?fixed⟩
  case lrbase =>
    have hb := lrBusy_iff s (dieIx d)
    exact ⟨fun h => congrArg _ (if_pos ⟨h.1, hb.2 h.2⟩), fun h => congrArg _ (if_neg fun k => h ⟨k.1, hb.1 k.2⟩)⟩
  case lrm =>
    have hb := lrBusy_iff s (dieIx d)
    exact ⟨fun h => congrArg _ (if_pos ⟨h.1, h.2.1, hb.2 h.2.2⟩), fun h => congrArg _ (if_neg fun k => h ⟨k.1, k.2.1, hb.1 k.2.2⟩)⟩
  case fqbase =>
    have hok := fqbaseOk_iff s (dieIx d) v
    have hb := fqBusy_iff s (dieIx d)
    refine ⟨fun h => congrArg _ ((setFqbase_eq hw).trans (if_pos ?_)), fun h => congrArg _ ((setFqbase_eq hw).trans (if_neg fun k => h ?_))⟩
    · exact Bool.and_eq_true_iff.2 ⟨hok.2 h.1, hb.2 h.2⟩
    · obtain ⟨k1, k2⟩ := Bool.and_eq_true_iff.1 k
      exact ⟨hok.1 k1, hb.1 k2⟩
  case slot =>
    refine ⟨fun h => congrArg _ (if_neg fun k => ?_), fun h => congrArg _ (if_pos ?_)⟩
    · obtain ⟨k1, k2⟩ := Bool.and_eq_true_iff.1 k
      obtain h | h | h := h
      · rw [h, slotHeld_zero] at k2; cases k2
      · exact bne_iff_ne.1 k1 h
      · rw [h] at k2; cases k2
    · simp only [not_or, Bool.not_eq_false] at h
      exact Bool.and_eq_true_iff.2 ⟨bne_iff_ne.2 h.2.1, h.2.2⟩
  case slotAt =>
    rw [windowWrite_at (by omega), windowStore_slot ix.isLt]
    rfl
  case keyArmed => exact fun h => congrArg _ (if_pos h)
  case keyWord =>
    exact fun h => ⟨withWord (keyOf s (dieIx d) ix.val).key w.val v, congrArg _ (if_neg (by rw [keyOf, h]; decide)),
      withWord_same _ w.isLt v, fun u _ hu => withWord_other _ w.isLt hu v⟩
  case keyAt =>
    rw [show 12288 + 64 * ix.val + (16 + 8 * w.val) = 0x3000 + 64 * ix.val + 8 * (2 + w.val) by omega, windowWrite_at (by omega),
      windowStore_key ix.isLt (by omega), keyStore_word w.isLt]
    rfl
  case arm =>
    have control : exec (.windowWrite d (BitVec.ofNat 48 (12288 + 64 * ix.val + 0)) v) s = .next (setKeyControl s (dieIx d) ix.val v) := by
      rw [show 12288 + 64 * ix.val + 0 = 0x3000 + 64 * ix.val + 8 * 0 by omega, windowWrite_at (by omega), windowStore_key ix.isLt (by decide)]
      rfl
    refine ⟨fun h => ?_, fun h => congrArg _ (armKey_refused h), congrArg _ (disarmKey_eq ..), fun h => ?_, fun h => ?_, ?_⟩
    · refine congrArg _ ((armKey_legal h).trans ?_)
      rw [pkgOfDie_dieIx]
      rfl
    · rw [control, setKeyControl_eq, if_neg h]
      rfl
    · rw [control, setKeyControl_eq, if_pos h]
      rfl
    · rw [show 12288 + 64 * ix.val + 8 = 0x3000 + 64 * ix.val + 8 * 1 by omega, windowWrite_at (by omega), windowStore_key ix.isLt (by decide)]
      rfl
  case noTask =>
    show Host.Outcome.next (setRequest ..) = _
    unfold setRequest
    rw [h]
  case ended =>
    intro hf
    show Host.Outcome.next (setRequest ..) = _
    unfold setRequest
    rw [hT]
    exact congrArg _ (if_pos hf)
  case running =>
    exact fun hf => ⟨_, congrArg _ (setRequest_running b.isLt hT hf), fun h => if_pos h, fun h => if_neg (by simp [h])⟩
  case requestAt =>
    rw [windowWrite_at (by omega), windowStore_request r.isLt]
    rfl
  case fixed =>
    refine congrArg _ (windowStore_fixed ?_)
    rwa [show (off = 0x2000) = (off.toNat = 0x2000) from propext ⟨fun h => h ▸ rfl, fun h => BitVec.eq_of_toNat_eq h⟩] at h

end Sys2Proof.Machine

/-! Ring words (R376 to R379). -/
namespace Sys2Proof.Machine
open Sys2Proof

/-- The effect of a ring word whose descriptor's address is in register s: the checks of R379, then what it does on the record. -/
def ringBody (s : BitVec 5) (act : Word → Ring → State → Res) (st : State) : Res :=
  let w := st.cur.readA s.toNat
  if w.toNat % 64 ≠ 0 ∨ !addrOk w then .trap .align w
  else
    match ringAt st w with
    | .refused => refuseRing st w
    | .full => .stay .external st
    | .ok r t => act w r t

/-- What the ring words do on the record (R378). -/
def claimAct (t d : BitVec 5) (w : Word) (r : Ring) (st : State) : Res :=
  let n := st.cur.readA t.toNat
  if !countOk r n then refuseRing st w
  else if r.producers.isEmpty && decide (n.toNat ≤ r.free) then
    .done (putA (putRing st w (r.claimSlots st.me n.toNat)) d.toNat (zx r.pclaim))
  else .done (putA (putRing st w r) d.toNat noClaim)

/-- The end of a wait with its grant: the acquire at the ring's scope, and the position granted. -/
def endWait (w : Word) (r : Ring) (d : BitVec 5) (g : Grant) (u : State) : State :=
  putA ((acquireRing u w r).upd (fun c => { c with granted := none, ringAt := none })) d.toNat g.val

/-- A strand joins a ring's producers, or its consumers. -/
def joined (prod : Bool) (r : Ring) (x : RingWaiter) : Ring :=
  if prod then { r with producers := r.producers ++ [x] } else { r with consumers := r.consumers ++ [x] }

/-- A strand that has joined, and the ring it then stands in served. -/
def joinRing (q : Ring) (w : Word) (st : State) : State := settleRing (st.upd (fun c => { c with ringAt := some w.toNat })) w q

/-- A strand that has joined a ring completes where it has been served, and waits otherwise. -/
def endOrStay (w : Word) (r : Ring) (d : BitVec 5) (u : State) : Res :=
  match u.cur.granted with
  | some g => .done (endWait w r d g u)
  | none => .stay .idle u

def waitAct (prod : Bool) (t d : BitVec 5) (w : Word) (r : Ring) (st : State) : Res :=
  match st.cur.granted with
  | some g => .done (endWait w r d g (putRing st w r))
  | none =>
    if st.cur.ringAt.isSome then .stay .idle st
    else if !countOk r (st.cur.readA t.toNat) then refuseRing st w
    else
      endOrStay w r d (joinRing (joined prod r ⟨st.me, d.toNat, (st.cur.readA t.toNat).toNat⟩) w st)

/-- The ring with n slots from one on published, or freed. -/
def given (prod : Bool) (r : Ring) (first : Word) (n : Nat) : Ring :=
  if prod then r.publish (first.extractLsb' 0 32) n else r.release (first.extractLsb' 0 32) n

def giveAct (prod : Bool) (t d : BitVec 5) (w : Word) (r : Ring) (st : State) : Res :=
  let n := (st.cur.readA t.toNat).toNat
  let first := st.cur.readA d.toNat
  if r.refuses prod first n then refuseRing st w
  else release st r.scope (fun u => .done (settleRing (wakeClaims (raiseRing u w) r.claims) w (given prod r first n)))

def peekAct (d : BitVec 5) (w : Word) (r : Ring) (st : State) : Res :=
  .done (putA (putRing st w r) d.toNat (BitVec.ofNat 64 (r.free * 2 ^ 32 + r.ready)))

/-- The machine with a PERM of the descriptor's address reported. -/
def ringDenied (st : State) (w : Word) : State := st.upd (fun c => { c with reports := c.reports ++ [(⟨.perm, w⟩ : Report)] })

/-! A ring word by what the Cleat finds. -/

section
variable {i : Instr} {info : AInfo} {s : BitVec 5} {act : Word → Ring → State → Res} {st : State}

section
variable (ready : WordReady i info (ringBody s act) st)
include ready

theorem ringWord_misaligned (h : (st.cur.readA s.toNat).toNat % 64 ≠ 0 ∨ addrOk (st.cur.readA s.toNat) = false) :
    Traps i st .align (st.cur.readA s.toNat) :=
  ready.traps (if_pos (by simpa using h))

variable (hm : (st.cur.readA s.toNat).toNat % 64 = 0) (ha : addrOk (st.cur.readA s.toNat) = true)
include hm ha

theorem ringWord_refused (h : ringAt st (st.cur.readA s.toNat) = .refused) : Issues i st (ringDenied st (st.cur.readA s.toNat)) := by
  refine ready.issues ((if_neg (by simp [hm, ha])).trans ?_)
  rw [h] <;> rfl

theorem ringWord_full (h : ringAt st (st.cur.readA s.toNat) = .full) : exec i st = .next (setWait st .A .external) := by
  refine ready.waits ((if_neg (by simp [hm, ha])).trans ?_)
  rw [h]

end

variable (hm : (st.cur.readA s.toNat).toNat % 64 = 0) (ha : addrOk (st.cur.readA s.toNat) = true) {r : Ring} {x : State}
  (hr : ringAt st (st.cur.readA s.toNat) = .ok r x)
include hm ha hr

/-- With its record found, a ring word acts on it. -/
theorem ringBody_found : ringBody s act st = act (st.cur.readA s.toNat) r x := by
  refine (if_neg (by simp [hm, ha])).trans ?_
  rw [hr]

end

/-! What the words do on a record. -/

section
variable {t d : BitVec 5} {w : Word} {r : Ring} {x : State} {prod : Bool}

theorem claimAct_refused (h : countOk r (x.cur.readA t.toNat) = false) : claimAct t d w r x = .done (ringDenied x w) :=
  if_pos (by rw [h]; rfl)

theorem claimAct_claims (h : countOk r (x.cur.readA t.toNat) = true) (hp : r.producers = []) (hn : (x.cur.readA t.toNat).toNat ≤ r.free) :
    claimAct t d w r x = .done (putA (putRing x w (r.claimSlots x.me (x.cur.readA t.toNat).toNat)) d.toNat (zx r.pclaim)) :=
  (if_neg (by simp [h])).trans (if_pos (by simp [hp, hn]))

theorem claimAct_none (h : countOk r (x.cur.readA t.toNat) = true) (hn : r.producers ≠ [] ∨ r.free < (x.cur.readA t.toNat).toNat) :
    claimAct t d w r x = .done (putA (putRing x w r) d.toNat noClaim) := by
  refine (if_neg (by simp [h])).trans (if_neg fun k => ?_)
  obtain ⟨k1, k2⟩ := Bool.and_eq_true_iff.1 k
  exact hn.elim (fun h => h (List.isEmpty_iff.1 k1)) (fun h => Nat.not_le.2 h (of_decide_eq_true k2))

theorem waitAct_granted {g : Grant} (h : x.cur.granted = some g) : waitAct prod t d w r x = .done (endWait w r d g (putRing x w r)) := by
  rw [waitAct, h]

theorem waitAct_waiting (h : x.cur.granted = none) (ha : x.cur.ringAt.isSome = true) : waitAct prod t d w r x = .stay .idle x := by
  rw [waitAct, h]
  exact if_pos ha

/-- A strand that waits nowhere yet joins, and waits where it is not served at once. -/
theorem waitAct_joins (h : x.cur.granted = none) (ha : x.cur.ringAt = none) (hc : countOk r (x.cur.readA t.toNat) = true) :
    let u := joinRing (joined prod r ⟨x.me, d.toNat, (x.cur.readA t.toNat).toNat⟩) w x
    (u.cur.granted = none → waitAct prod t d w r x = .stay .idle u)
      ∧ ∀ g, u.cur.granted = some g → waitAct prod t d w r x = .done (endWait w r d g u) := by
  have e : waitAct prod t d w r x = endOrStay w r d (joinRing (joined prod r ⟨x.me, d.toNat, (x.cur.readA t.toNat).toNat⟩) w x) := by
    rw [waitAct, h]
    exact (if_neg (by simp [ha])).trans (if_neg (by simp [hc]))
  exact ⟨fun k => by rw [e, endOrStay, k], fun g k => by rw [e, endOrStay, k]⟩

theorem giveAct_refused (h : r.refuses prod (x.cur.readA d.toNat) (x.cur.readA t.toNat).toNat = true) :
    giveAct prod t d w r x = .done (ringDenied x w) := if_pos h

variable (h : r.refuses prod (x.cur.readA d.toNat) (x.cur.readA t.toNat).toNat = false)
include h

theorem giveAct_waits (hw : releaseOf x x.me r.scope (fun _ => true) = .wait) : giveAct prod t d w r x = .stay .external x :=
  (if_neg (by simp [h])).trans (release_wait hw)

theorem giveAct_gives {u : State} (hu : releaseOf x x.me r.scope (fun _ => true) = .done u) : giveAct prod t d w r x =
    .done (settleRing (wakeClaims (raiseRing u w) r.claims) w (given prod r (x.cur.readA d.toNat) (x.cur.readA t.toNat).toNat)) :=
  (if_neg (by simp [h])).trans (release_done hu)

end

section
variable {p : BitVec 4} {t s d : BitVec 5} {st : State}

section
variable (g : AGo { pg := p, aregs := [s.toNat, t.toNat, d.toNat], access := true } st)
include g

theorem rclaim_ready : WordReady (.rclaim p t s d) { pg := p, aregs := [s.toNat, t.toNat, d.toNat], access := true } (ringBody s (claimAct t d)) st :=
  ⟨g, rfl, rfl, rfl, rfl⟩
theorem rwaite_ready : WordReady (.rwaite p t s d) { pg := p, aregs := [s.toNat, t.toNat, d.toNat], access := true } (ringBody s (waitAct true t d)) st :=
  ⟨g, rfl, rfl, rfl, rfl⟩
theorem rwaitf_ready : WordReady (.rwaitf p t s d) { pg := p, aregs := [s.toNat, t.toNat, d.toNat], access := true } (ringBody s (waitAct false t d)) st :=
  ⟨g, rfl, rfl, rfl, rfl⟩
theorem rpubl_ready : WordReady (.rpubl p t s d) { pg := p, aregs := [s.toNat, t.toNat, d.toNat], access := true } (ringBody s (giveAct true t d)) st :=
  ⟨g, rfl, rfl, rfl, rfl⟩
theorem rfree_ready : WordReady (.rfree p t s d) { pg := p, aregs := [s.toNat, t.toNat, d.toNat], access := true } (ringBody s (giveAct false t d)) st :=
  ⟨g, rfl, rfl, rfl, rfl⟩
end

end

section
variable {i : Instr} {info : AInfo} {s t d : BitVec 5} {st x : State} {r : Ring} {prod : Bool}
  (hm : (st.cur.readA s.toNat).toNat % 64 = 0) (ha : addrOk (st.cur.readA s.toNat) = true)
  (hr : ringAt st (st.cur.readA s.toNat) = .ok r x)
include hm ha hr

/-- A wait that joins its ring. -/
theorem waitWord_joins {q : Ring} (hq : joined prod r ⟨x.me, d.toNat, (x.cur.readA t.toNat).toNat⟩ = q) (ready : WordReady i info (ringBody s (waitAct prod t d)) st) (h : x.cur.granted = none) (hat : x.cur.ringAt = none)
    (hc : countOk r (x.cur.readA t.toNat) = true) :
    let u := joinRing q (st.cur.readA s.toNat) x
    (u.cur.granted = none → exec i st = .next (setWait u .A .idle))
      ∧ ∀ g, u.cur.granted = some g → Issues i st (endWait (st.cur.readA s.toNat) r d g u) := by
  subst hq
  obtain ⟨hwait, hdone⟩ := waitAct_joins (t := t) (d := d) (w := st.cur.readA s.toNat) (prod := prod) h hat hc
  exact ⟨fun k => ready.keeps ((ringBody_found hm ha hr).trans (hwait k)), fun g k => ready.issues ((ringBody_found hm ha hr).trans (hdone g k))⟩

/-- A publish or free that is not refused makes its release first. -/
theorem giveWord_spec (ready : WordReady i info (ringBody s (giveAct prod t d)) st) :
    let first := x.cur.readA d.toNat
    let n := (x.cur.readA t.toNat).toNat
    (r.refuses prod first n = true → Issues i st (ringDenied x (st.cur.readA s.toNat)))
    ∧ (r.refuses prod first n = false →
      (releaseOf x x.me r.scope (fun _ => true) = .wait → exec i st = .next (setWait x .A .external))
      ∧ ∀ u, releaseOf x x.me r.scope (fun _ => true) = .done u →
        Issues i st (settleRing (wakeClaims (raiseRing u (st.cur.readA s.toNat)) r.claims) (st.cur.readA s.toNat) (given prod r first n))) :=
  ⟨fun h => ready.issues ((ringBody_found hm ha hr).trans (giveAct_refused h)), fun h =>
    ⟨fun hw => ready.keeps ((ringBody_found hm ha hr).trans (giveAct_waits h hw)),
      fun _ hu => ready.issues ((ringBody_found hm ha hr).trans (giveAct_gives h hu))⟩⟩

end

theorem ringRecordEvict_spec {die : DieId} {ix k : Nat} {r : Ring} {rest : List (Nat × Ring)} {st : State}
    (h : (st.die (dieIx die)).rings.drop ix = (k, r) :: rest) : exec (.ringRecordEvict die ix) st =
      if ringCapacity ≤ (st.die (dieIx die)).rings.length ∧ lruRing (st.die (dieIx die)).rings = some k then .next (evictRing st (dieIx die) k)
      else .next st := by
  show execRingRecordEvict die ix st = _
  unfold execRingRecordEvict
  dsimp only
  rw [h]

/-- Settles O39: a ring word by what the Cleat finds for its descriptor, then by what the word does on the record. -/
theorem ringWordsActOnTheRecord : Obligations.RingWordsActOnTheRecord := by
  unfold Obligations.RingWordsActOnTheRecord
  intro p t s d st
  dsimp only
  refine ⟨fun g => ?acts, fun g hm ha r x hr => ?peek, fun die ix k r rest h => ⟨fun hf hl => ?leaves, fun hn => ?stays⟩⟩
  case acts =>
    have claim := rclaim_ready g
    have waitE := rwaite_ready g
    have waitF := rwaitf_ready g
    have publ := rpubl_ready g
    have free := rfree_ready g
    refine ⟨fun h => ⟨ringWord_misaligned claim h, ringWord_misaligned waitE h, ringWord_misaligned waitF h, ringWord_misaligned publ h,
      ringWord_misaligned free h⟩, fun hm ha => ⟨fun h => ⟨ringWord_refused claim hm ha h, ringWord_refused waitE hm ha h,
      ringWord_refused waitF hm ha h, ringWord_refused publ hm ha h, ringWord_refused free hm ha h⟩, ringWord_full claim hm ha,
      fun r x hr => ?_⟩⟩
    have found {act : Word → Ring → State → Res} : ringBody s act st = act (st.cur.readA s.toNat) r x := ringBody_found hm ha hr
    exact ⟨fun h => claim.issues (found.trans (claimAct_refused h)), fun h hp hn => claim.issues (found.trans (claimAct_claims h hp hn)),
      fun h hn => claim.issues (found.trans (claimAct_none h hn)),
      fun g h => ⟨waitE.issues (found.trans (waitAct_granted h)), waitF.issues (found.trans (waitAct_granted h))⟩,
      fun h hat => ⟨waitE.keeps (found.trans (waitAct_waiting h hat)), waitF.keeps (found.trans (waitAct_waiting h hat))⟩,
      fun h hat hc => ⟨waitWord_joins hm ha hr rfl waitE h hat hc, waitWord_joins hm ha hr rfl waitF h hat hc⟩,
      giveWord_spec hm ha hr publ, giveWord_spec hm ha hr free⟩
  case peek =>
    have ready : WordReady (.rpeek p s d) { pg := p, aregs := [s.toNat, d.toNat], access := true } (ringBody s (peekAct d)) st :=
      ⟨g, rfl, rfl, rfl, rfl⟩
    exact ready.issues (ringBody_found hm ha hr)
  case leaves => rw [ringRecordEvict_spec h, if_pos ⟨hf, hl⟩]
  case stays => rw [ringRecordEvict_spec h, if_neg fun k => hn.elim (fun h => h k.1) (fun h => h k.2)]

end Sys2Proof.Machine

/-! Worlds, reassignment and bring-up (R383 to R387, R396 to R399). -/
namespace Sys2Proof.Machine
open Sys2Proof

/-! Requests of the TEE device interface (R384, R387, R390). -/

section
variable {s : State} {d : DieId} {r : TdiReq}

theorem setTdisp_dieIx (u : State) (d : DieId) (a : Answer) :
    setTdisp u (dieIx d) a = u.modPkg d.pkg.val (fun q => { q with tdisp := insertAt q.tdisp (dieIx d % 8) a }) := by
  rw [setTdisp, pkgOfDie_dieIx]

theorem tdispRequest_down (h : hostUp s d.pkg.val = false) : tdispRequest s (dieIx d) r = setTdisp s (dieIx d) .unsupported := by
  refine if_pos ?_
  rw [pkgOfDie_dieIx, h]
  rfl

variable (h : hostUp s d.pkg.val = true)
include h

theorem tdispRequest_waits (hr : (s.die (dieIx d)).reassign.isSome = true) :
    tdispRequest s (dieIx d) r = s.modDie (dieIx d) (fun k => { k with waiting := k.waiting ++ [r] }) :=
  (if_neg (by rw [pkgOfDie_dieIx, h]; simp)).trans (if_pos hr)

theorem tdispRequest_taken (hr : (s.die (dieIx d)).reassign = none) : tdispRequest s (dieIx d) r = transition s (dieIx d) r :=
  (if_neg (by rw [pkgOfDie_dieIx, h]; simp)).trans (if_neg (by rw [hr]; simp))

end

theorem nextSerial_spec {p : Package} {n : Nat} (h : nextSerial p = some n) : 1 ≤ n ∧ n ≤ 2047 ∧ n ∉ p.serials := by
  unfold nextSerial at h
  have hm := List.mem_of_find?_eq_some h
  have hn := List.find?_some h
  rw [List.mem_map] at hm
  obtain ⟨i, -, hi⟩ := hm
  refine ⟨by omega, by omega, ?_⟩
  simpa using hn

section
variable {s : State} {die : Nat} {z : Nat}

theorem transition_lock_refused (h : (s.die die).tdi ≠ .configUnlocked) : transition s die (.lock z) = setTdisp s die .invalidInterfaceState := by
  unfold transition
  dsimp only
  rw [if_pos h]

theorem transition_lock {n : Nat} (h : (s.die die).tdi = .configUnlocked) (hn : nextSerial (s.pkg (pkgOfDie die)) = some n) :
    transition s die (.lock z) = beginReassign (s.modPkg (pkgOfDie die) (fun k => { k with serials := n :: k.serials, lastSerial := n })) die
      (worldOf (pkgOfDie die) n) .configLocked (some z) true := by
  unfold transition
  dsimp only
  rw [if_neg (not_not.2 h), hn]

/-- With no serial free the request fails, and the log says so (R385). -/
theorem transition_lock_spent (h : (s.die die).tdi = .configUnlocked) (hn : nextSerial (s.pkg (pkgOfDie die)) = none) :
    transition s die (.lock z) = appendLog (setTdisp s die .unspecified) (pkgOfDie die) (worldRecord s die 7 (die % 8 + 1) 0) := by
  unfold transition
  dsimp only
  rw [if_neg (not_not.2 h), hn]

theorem transition_start_refused (h : (s.die die).tdi ≠ .configLocked) : transition s die .start = setTdisp s die .invalidInterfaceState :=
  if_pos h

theorem transition_start (h : (s.die die).tdi = .configLocked) :
    transition s die .start = setTdisp (s.modDie die (fun k => { k with tdi := .run })) die .tdispOk := if_neg (not_not.2 h)

theorem transition_error (h : (s.die die).tdi = .configLocked ∨ (s.die die).tdi = .run) :
    transition s die .toError = beginReassign s die 0 .error none false := if_pos h

theorem transition_error_none (h : (s.die die).tdi = .configUnlocked ∨ (s.die die).tdi = .error) : transition s die .toError = s := by
  refine if_neg ?_
  rcases h with h | h <;> rw [h] <;> simp

end

/-! A reassignment (R386). -/

theorem find?_filter_key {α : Type} (m : SMap α) (keep : Nat → Bool) (j : Nat) :
    find? (m.filter (fun e => keep e.1)) j = if keep j = true then find? m j else none := by
  induction m with
  | nil => simp [find?]
  | cons e m ih =>
    obtain ⟨i, x⟩ := e
    rw [List.filter_cons]
    by_cases hi : i = j
    · subst hi
      by_cases hk : keep i = true <;> simp [hk, find?, ih]
    · by_cases hk : keep i = true <;> simp [hk, find?, hi, ih]

theorem lookup_filter_key {α : Type} (d : α) (m : SMap α) (keep : Nat → Bool) (j : Nat) :
    lookup d (m.filter (fun e => keep e.1)) j = if keep j = true then lookup d m j else d := by
  rw [lookup, find?_filter_key]
  by_cases h : keep j = true
  · rw [if_pos h, if_pos h] <;> rfl
  · rw [if_neg h, if_neg h]

/-- Single bytes stored from a list leave what lies outside their places. -/
theorem Memory.byte_foldl_out (a x : Nat) (l : Memory) : ∀ m : Memory, (∀ c ∈ l, x ≠ a + c.1) →
    Memory.byte (l.foldl (fun m c => Memory.setByte m (a + c.1) c.2) m) x = Memory.byte m x := by
  induction l with
  | nil => exact fun m _ => rfl
  | cons c l ih =>
    intro m h
    refine (ih _ fun c hc => h c (List.mem_cons_of_mem _ hc)).trans ?_
    rw [Memory.byte_setByte, if_neg (h c List.mem_cons_self)]

theorem key_of_rising {α : Type} {k : Nat} {l : SMap α} (h : risingFrom k l = true) : ∀ c ∈ l, k ≤ c.1 := by
  induction l generalizing k with
  | nil => simp
  | cons e l ih =>
    obtain ⟨i, x⟩ := e
    simp only [risingFrom, Bool.and_eq_true, decide_eq_true_eq] at h
    intro c hc
    obtain rfl | hc := List.mem_cons.1 hc
    · exact h.1
    · have := ih h.2 c hc; omega

/-- Bytes of a rising list stored from address a are read there. -/
theorem Memory.byte_foldl_in (a j : Nat) (l : Memory) : ∀ (k : Nat) (m : Memory), risingFrom k l = true →
    Memory.byte (l.foldl (fun m c => Memory.setByte m (a + c.1) c.2) m) (a + j)
      = (find? l j).getD (Memory.byte m (a + j)) := by
  induction l with
  | nil => exact fun _ _ _ => rfl
  | cons e l ih =>
    obtain ⟨i, b⟩ := e
    intro k m h
    simp only [risingFrom, Bool.and_eq_true, decide_eq_true_eq] at h
    rw [List.foldl_cons]
    by_cases hi : i = j
    · subst hi
      rw [Memory.byte_foldl_out a (a + i) l _ fun c hc => by have := key_of_rising h.2 c hc; omega, Memory.byte_setByte, if_pos rfl]
      simp [find?]
    · rw [ih (i + 1) _ h.2, Memory.byte_setByte, if_neg (by omega)]
      simp [find?, hi]

/-! The parts of a reassignment's end. -/

/-- Preparing a die writes memory alone (R397 step 4). -/
theorem prepareDie_eq (s : State) (die : Nat) : ∃ m, prepareDie s die = { s with mem := m } := ⟨_, rfl⟩

section
variable {s : State} {die : Nat}

/-- Where a die's preparation writes, and what it leaves alone. -/
theorem prepareDie_outside (h : imageField (s.pkg (pkgOfDie die)).image 8 8 ≤ 2 ^ 24) {a : Nat} (ht : a < dieBase die ∨ dieBase die + 512 ≤ a)
    (hi : a < dieBase die + 2 ^ 24 ∨ dieBase die + 2 ^ 25 ≤ a) : Memory.byte (prepareDie s die).mem a = Memory.byte s.mem a := by
  have hlen : (leBytes 0x9F 8 ++ List.replicate 504 0).length = 512 := by
    rw [List.length_append, length_leBytes, List.length_replicate]
  unfold prepareDie
  dsimp only
  rw [Memory.byte_write_out _ _ _ _ (by rw [hlen]; exact ht), Memory.byte_foldl_out]
  · have hkey := lookup_filter_key Config.unlistedByte s.mem (fun j => !(decide (imageAddr die ≤ j)
      && decide (j < imageAddr die + imageField (s.pkg (pkgOfDie die)).image 8 8))) a
    refine hkey.trans (if_pos ?_)
    rw [Bool.not_eq_true', ← Bool.not_eq_true, Bool.and_eq_true, decide_eq_true_eq, decide_eq_true_eq]
    unfold imageAddr
    omega
  · intro c hc
    have := of_decide_eq_true (List.mem_filter.1 hc).2
    unfold imageAddr
    omega

theorem prepareDie_image (hw : Memory.wf (s.pkg (pkgOfDie die)).image = true) {j : Nat} (hj : j < imageField (s.pkg (pkgOfDie die)).image 8 8) :
    Memory.byte (prepareDie s die).mem (imageAddr die + j) = Memory.byte (s.pkg (pkgOfDie die)).image j := by
  have hlen : (leBytes 0x9F 8 ++ List.replicate 504 0).length = 512 := by
    rw [List.length_append, length_leBytes, List.length_replicate]
  unfold Memory.wf at hw
  rw [Bool.and_eq_true] at hw
  unfold prepareDie
  dsimp only
  rw [Memory.byte_write_out _ _ _ _ (by rw [hlen]; unfold imageAddr; omega), Memory.byte_foldl_in _ _ _ 0 _ (risingFrom_filter _ hw.1)]
  have hf := find?_filter_key (s.pkg (pkgOfDie die)).image (fun i => decide (i < imageField (s.pkg (pkgOfDie die)).image 8 8)) j
  rw [hf, if_pos (decide_eq_true hj)]
  have hkey := lookup_filter_key Config.unlistedByte s.mem (fun j => !(decide (imageAddr die ≤ j)
    && decide (j < imageAddr die + imageField (s.pkg (pkgOfDie die)).image 8 8))) (imageAddr die + j)
  rw [if_neg (by simp [hj])] at hkey
  unfold Memory.byte
  rw [hkey, lookup]
  cases find? (s.pkg (pkgOfDie die)).image j <;> rfl

end

/-- A die whose world is changing once its memory, cells and requests are gone, before its firmware is put in place (R386 steps 4 to 6). -/
def cleared (s : State) (die : Nat) (r : Reassign) : State :=
  let d := s.die die
  let s1 : State := { s with
    mem := s.mem.filter (fun c => !(decide (dieBase die ≤ c.1) && decide (c.1 < dieBase die + 2 ^ 53)))
    cells := s.cells.filter (fun e => e.1 / 144 != die)
    reqs := s.reqs.filter (fun q => q.cell / 144 != die) }
  let s2 := s1.setDie die { Die.reset die with
    world := r.world, tdi := r.tdi, stream := r.stream, waiting := d.waiting, heatCtr := d.heatCtr, retired := (d.live.foldl retireHeat d).retired
    sweepPass := d.sweepPass, sweepPos := d.sweepPos, local_ := d.local_
    keys := d.keys.map (fun e => if e.1 = 0 then e else (e.1, { e.2 with armed := false, kind := 0, key := 0 }))
    tasks := d.tasks, listen := d.listen, listenPending := d.listenPending, hmax := d.hmax, faultWait := [], firmware := d.firmware
    lastDoorbell := d.lastDoorbell }
  s2.modPkg (pkgOfDie die) (fun p => { p with
    ports := p.ports.map (fun e => (e.1, if [16 + die % 8, 24 + 2 * (die % 8), 25 + 2 * (die % 8)].contains e.1 then { e.2 with expects := [] } else e.2))
    sectors := p.sectors.filter (fun e => e.2.plane != die % 8) })

section
variable {s : State} {die : Nat} {r : Reassign}

theorem reassignFinish_eq (s : State) (die : Nat) (r : Reassign) :
    reassignFinish s die r = startCommand (prepareDie (cleared s die r) die) die := rfl

theorem cleared_image (s : State) (die : Nat) (r : Reassign) : ((cleared s die r).pkg (pkgOfDie die)).image = (s.pkg (pkgOfDie die)).image :=
  (congrArg Package.image ((State.setPkg_pkg ..).trans (if_pos rfl)) :)

theorem cleared_cell (s : State) (die : Nat) (r : Reassign) (j : Nat) :
    (cleared s die r).cell j = if j / 144 = die then Cell.reset else s.cell j := by
  refine (lookup_filter_key Cell.reset s.cells (fun i => i / 144 != die) j).trans ?_
  by_cases h : j / 144 = die <;> simp [h, State.cell]

theorem cleared_byte (s : State) (die : Nat) (r : Reassign) (a : Nat) :
    Memory.byte (cleared s die r).mem a = if dieBase die ≤ a ∧ a < dieBase die + 2 ^ 53 then 0 else Memory.byte s.mem a := by
  refine (lookup_filter_key Config.unlistedByte s.mem (fun i => !(decide (dieBase die ≤ i) && decide (i < dieBase die + 2 ^ 53))) a).trans ?_
  by_cases h : dieBase die ≤ a ∧ a < dieBase die + 2 ^ 53
  · rw [if_pos h, if_neg]
    · rfl
    · rw [Bool.not_eq_true', ← Bool.not_eq_true, Bool.and_eq_true, decide_eq_true_eq, decide_eq_true_eq]
      exact not_not.2 h
  · rw [if_neg h, if_pos]
    · rfl
    · rw [Bool.not_eq_true', ← Bool.not_eq_true, Bool.and_eq_true, decide_eq_true_eq, decide_eq_true_eq]
      exact h

/-- A command cell that starts, and its die and cells besides (R397 step 4). -/
theorem startCommand_cell (s : State) (die j : Nat) (h : j ≠ die * 144) : (startCommand s die).cell j = s.cell j := by
  exact (State.setCell_cell ..).trans (if_neg h)

theorem startCommand_status (s : State) (die : Nat) : ((startCommand s die).cell (die * 144)).status = .running
    ∧ ((startCommand s die).cell (die * 144)).A.pc =
      BitVec.ofNat 64 (imageAddr die) + BitVec.ofNat 64 (imageField (s.pkg (pkgOfDie die)).image 0x10 8) := by
  simp [startCommand]

theorem startCommand_mem (s : State) (die : Nat) : (startCommand s die).mem = s.mem := rfl
theorem startCommand_reqs (s : State) (die : Nat) : (startCommand s die).reqs = s.reqs := rfl
theorem startCommand_pkg (s : State) (die q : Nat) : (startCommand s die).pkg q = s.pkg q := rfl

theorem startCommand_die (s : State) (die : Nat) :
    ∃ h f, (startCommand s die).die die = { s.die die with handler := h, firmware := f } := by
  exact ⟨_, _, State.modDie_die_self ..⟩

/-- A die of a new world as its reassignment leaves it (R386). -/
structure Reassigned (s : State) (die : Nat) (r : Reassign) (t : State) : Prop where
  fields : ∃ h f, t.die die = { (cleared s die r).die die with handler := h, firmware := f }
  status : (t.cell (die * 144)).status = .running
  own : ∀ j, j / 144 = die → j ≠ die * 144 → t.cell j = Cell.reset
  others : ∀ j, j / 144 ≠ die → t.cell j = s.cell j
  mem : t.mem = (prepareDie (cleared s die r) die).mem
  reqs : t.reqs = (cleared s die r).reqs

theorem reassignFinish_spec (s : State) (die : Nat) (r : Reassign) : Reassigned s die r (reassignFinish s die r) := by
  rw [reassignFinish_eq]
  obtain ⟨m, hm⟩ := prepareDie_eq (cleared s die r) die
  refine ⟨?_, (startCommand_status ..).1, fun j hj hne => ?_, fun j hj => ?_, startCommand_mem .., ?_⟩
  · rw [hm]; exact startCommand_die ..
  · rw [startCommand_cell _ _ _ hne, hm]
    exact (cleared_cell s die r j).trans (if_pos hj)
  · rw [startCommand_cell _ _ _ (by omega), hm]
    exact (cleared_cell s die r j).trans (if_neg hj)
  · rw [hm]; rfl

theorem Reassigned.setTdisp {t : State} (h : Reassigned s die r t) (a : Answer) : Reassigned s die r (setTdisp t die a) :=
  ⟨h.fields, h.status, h.own, h.others, h.mem, h.reqs⟩

/-- The fields of a die that a reassignment has given its new world. -/
theorem Reassigned.dieFields {t : State} (h : Reassigned s die r t) : (t.die die).stream = r.stream ∧ (t.die die).world = r.world
    ∧ (t.die die).tdi = r.tdi ∧ (t.die die).reassign = none ∧ (t.die die).regions = [] ∧ (t.die die).waiting = (s.die die).waiting := by
  have e : (cleared s die r).die die = { (cleared s die r).die die with
      stream := r.stream, world := r.world, tdi := r.tdi, reassign := none, regions := [], waiting := (s.die die).waiting } := by
    simp [cleared, Die.reset]
  obtain ⟨_, _, hd⟩ := h.fields
  rw [hd, e]
  exact ⟨rfl, rfl, rfl, rfl, rfl, rfl⟩

section
variable {t : State} (h : Reassigned s die r t) (hn : imageField (s.pkg (pkgOfDie die)).image 8 8 ≤ 2 ^ 24)
include h

theorem Reassigned.image (hw : Memory.wf (s.pkg (pkgOfDie die)).image = true) {a : Nat} (ha : a < imageField (s.pkg (pkgOfDie die)).image 8 8) :
    Memory.byte t.mem (imageAddr die + a) = Memory.byte (s.pkg (pkgOfDie die)).image a := by
  have e := cleared_image s die r
  rw [h.mem, ← e]
  exact prepareDie_image (by rw [e]; exact hw) (by rw [e]; exact ha)

theorem Reassigned.left {q : PoolReq} (hq : q ∈ t.reqs) : q.cell / 144 ≠ die := by
  rw [h.reqs] at hq
  simpa using (List.mem_filter.1 hq).2

include hn

/-- Outside its page table and image a byte of the machine is zero in the die, and as it was elsewhere. -/
theorem Reassigned.byte {a : Nat} (ht : a < dieBase die ∨ dieBase die + 512 ≤ a) (hi : a < dieBase die + 2 ^ 24 ∨ dieBase die + 2 ^ 25 ≤ a) :
    Memory.byte t.mem a = if dieBase die ≤ a ∧ a < dieBase die + 2 ^ 53 then 0 else Memory.byte s.mem a := by
  rw [h.mem, prepareDie_outside (by rw [cleared_image]; exact hn) ht hi, cleared_byte]

end
end

section
variable {s : State} {d : DieId} {r : Reassign}

theorem reassignmentComplete_none (h : (s.die (dieIx d)).reassign = none) : exec (.reassignmentComplete d) s = .next s := by
  show execReassignmentComplete d s = _
  unfold execReassignmentComplete
  dsimp only
  rw [h]

variable (hr : (s.die (dieIx d)).reassign = some r)
include hr

theorem reassignmentComplete_halts (h : r.step = 1) : exec (.reassignmentComplete d) s = .next ((reassignHalt s (dieIx d)).modDie (dieIx d)
    (fun k => { k with reassign := some { r with step := 3 }, copies := [] })) := by
  show execReassignmentComplete d s = _
  unfold execReassignmentComplete
  dsimp only
  rw [hr]
  exact if_pos h

theorem reassignmentComplete_waits (h : r.step ≠ 1) (ho : dieSettled s (dieIx d) = false) : exec (.reassignmentComplete d) s = .next s := by
  show execReassignmentComplete d s = _
  unfold execReassignmentComplete
  dsimp only
  rw [hr]
  exact (if_neg h).trans (if_pos (by simp [ho]))

theorem reassignmentComplete_ends (h : r.step ≠ 1) (ho : dieSettled s (dieIx d) = true) : ∃ t, Reassigned s (dieIx d) r t
    ∧ exec (.reassignmentComplete d) s = .next (takeWaiting (dieIx d) t (s.die (dieIx d)).waiting) := by
  have hf := reassignFinish_spec s (dieIx d) r
  have ht : Reassigned s (dieIx d) r (if r.answer then setTdisp (reassignFinish s (dieIx d) r) (dieIx d) .tdispOk else reassignFinish s (dieIx d) r) := by
    split
    · exact hf.setTdisp _
    · exact hf
  obtain ⟨-, -, -, -, -, hw⟩ := ht.dieFields
  refine ⟨_, ht, ?_⟩
  rw [← hw]
  show execReassignmentComplete d s = _
  unfold execReassignmentComplete
  dsimp only
  rw [hr]
  exact (if_neg h).trans (if_neg (by simp [ho]))

end

theorem appendLog_cell (s : State) (p : Nat) (r : FaultRecord) (j : Nat) : (appendLog s p r).cell j = s.cell j := rfl

/-- A halted die's command cell has stopped. -/
theorem reassignHalt_status (s : State) (die : Nat) : ((reassignHalt s die).cell (die * 144)).status = .stopped := by
  unfold reassignHalt
  rw [appendLog_cell]
  simp

theorem dieSettled_iff (s : State) (die : Nat) : dieSettled s die = true ↔ ¬ ((∃ q ∈ s.reqs, q.cell / 144 = die ∧ q.answer = .none ∧ q.discarded = false)
    ∨ ∃ o ∈ (s.cell (die * 144)).ops, o.kind ≠ .pool ∧ o.dead = false) := by
  have hq : (!s.reqs.any (fun r => r.cell / 144 == die && r.answer == .none && !r.discarded)) = true
      ↔ ¬ ∃ q ∈ s.reqs, q.cell / 144 = die ∧ q.answer = .none ∧ q.discarded = false := by
    simp [and_assoc]
  have ho : (s.cell (die * 144)).ops.all (fun o => o.kind == .pool || o.dead) = true
      ↔ ¬ ∃ o ∈ (s.cell (die * 144)).ops, o.kind ≠ .pool ∧ o.dead = false := by
    simp [or_iff_not_imp_left]
  rw [dieSettled, Bool.and_eq_true, hq, ho, not_or]

/-! Bring-up (R397, R398). -/

theorem resetDie_cell (s : State) (die j : Nat) : (resetDie s die).cell j = if j / 144 = die then Cell.reset else s.cell j := by
  refine (lookup_filter_key Cell.reset s.cells (fun i => i / 144 != die) j).trans ?_
  by_cases h : j / 144 = die <;> simp [h, State.cell]

theorem releaseDie_pkgs (s : State) (die : Nat) : (releaseDie s die).pkgs = s.pkgs := by
  obtain ⟨m, hm⟩ := prepareDie_eq (resetDie s die) die
  rw [releaseDie, hm]
  rfl

theorem releaseDie_cell (s : State) (die j : Nat) (h : j / 144 ≠ die) : (releaseDie s die).cell j = s.cell j := by
  obtain ⟨m, hm⟩ := prepareDie_eq (resetDie s die) die
  rw [releaseDie, hm, startCommand_cell _ _ _ (by omega)]
  exact (resetDie_cell s die j).trans (if_neg h)

/-- The command cell of a die runs from its package's image. -/
def Starts (s t : State) (die : Nat) : Prop := (t.cell (die * 144)).status = .running ∧ (t.cell (die * 144)).A.pc =
  BitVec.ofNat 64 (imageAddr die) + BitVec.ofNat 64 (imageField (s.pkg (pkgOfDie die)).image 0x10 8)

theorem releaseDie_starts (s : State) (die : Nat) : Starts s (releaseDie s die) die := by
  obtain ⟨m, hm⟩ := prepareDie_eq (resetDie s die) die
  rw [releaseDie, hm]
  exact startCommand_status ..

section
variable (l : List Nat)

theorem releaseDies_pkgs : ∀ s : State, (l.foldl releaseDie s).pkgs = s.pkgs := by
  induction l with
  | nil => exact fun s => rfl
  | cons d l ih => exact fun s => (ih _).trans (releaseDie_pkgs s d)

theorem releaseDies_cell {j : Nat} (h : j / 144 ∉ l) : ∀ s : State, (l.foldl releaseDie s).cell j = s.cell j := by
  induction l with
  | nil => exact fun s => rfl
  | cons d l ih =>
    rw [List.mem_cons, not_or] at h
    obtain ⟨hd, hl⟩ := h
    exact fun s => (ih hl _).trans (releaseDie_cell s d j hd)

theorem releaseDies_starts {die : Nat} (h : die ∈ l) : ∀ s : State, Starts s (l.foldl releaseDie s) die := by
  induction l with
  | nil => cases h
  | cons d l ih =>
    intro s
    by_cases hl : die ∈ l
    · have k := ih hl (releaseDie s d)
      rwa [Starts, State.pkg, releaseDie_pkgs] at k
    · obtain rfl := (List.mem_cons.1 h).resolve_right hl
      have e := releaseDies_cell l (j := die * 144) (by rwa [Nat.mul_div_cancel _ (by decide)]) (releaseDie s die)
      rw [Starts, List.foldl_cons, e]
      exact releaseDie_starts s die

theorem resetDies_keep : ∀ s : State, (l.foldl resetDie s).pkgs = s.pkgs ∧ (l.foldl resetDie s).mem = s.mem := by
  induction l with
  | nil => exact fun s => ⟨rfl, rfl⟩
  | cons d l ih => exact fun s => ih _

theorem resetDies_cell (j : Nat) : ∀ s : State, (l.foldl resetDie s).cell j = if j / 144 ∈ l then Cell.reset else s.cell j := by
  induction l with
  | nil => exact fun s => rfl
  | cons d l ih =>
    intro s
    rw [List.foldl_cons, ih, resetDie_cell]
    by_cases hl : j / 144 ∈ l
    · rw [if_pos hl, if_pos (List.mem_cons_of_mem _ hl)]
    · by_cases hd : j / 144 = d <;> simp [hl, hd]

end

theorem keyGone_frame (s : State) : { keyGone s with domKey := s.domKey } = s := by
  unfold keyGone
  split <;> rfl

/-- The image that a package in reset verifies, and whether it is released with it (R396, R397). -/
def resetSource (k : Package) : Memory := if k.useLoad then k.loadWin else k.image

/-- A package after its self-test and verification. -/
def comesUp (s : State) (p : Nat) : Package :=
  let k := s.pkg p
  let src := resetSource k
  let log := testResult k s.free
  let img := if imageHeaderOk src then Memory.read src 0 (imageField src 8 8) else []
  let meas := [extendMeas 0 (Config.bootRomDigest p), extendMeas 0 (digestOf img), extendMeas 0 (Config.fuseDigest p),
    extendMeas 0 (digestOf (logBytes log)), 0, 0, 0, 0]
  let good := k.faulty.isNone && imageOk p src
  { Package.reset with
    topo := { Topology.reset with present := [p] }, ports := freshPorts s, hostMem := k.hostMem
    hostErr := k.hostErr, serials := k.serials, lastSerial := k.lastSerial, selfTest := log, faulty := k.faulty
    meas := if k.faulty.isNone then meas else List.replicate 8 0
    image := if good then src else k.image, loadWin := k.loadWin, version := s.version, announced := s.version
    phase := if good then .released else .safeTalkative }

def selfTested (s : State) (p : Nat) : State :=
  { s with free := s.free + 4096, reqs := s.reqs.filter (fun r => pkgOfCell r.cell != p) }.setPkg p (comesUp s p)

theorem packageReset_eq {s : State} {p : PkgId} (h : (s.pkg p.val).phase = .inReset ∨ (s.pkg p.val).phase = .safeTalkative ∨ (s.pkg p.val).severSelf = true) :
    exec (.packageReset p) s = .next (keyGone (if ((s.pkg p.val).faulty.isNone && imageOk p.val (resetSource (s.pkg p.val))) = true
      then ((List.range 8).map (fun i => p.val * 8 + i)).foldl releaseDie (selfTested s p.val)
      else ((List.range 8).map (fun i => p.val * 8 + i)).foldl resetDie (selfTested s p.val))) := by
  show execPackageReset p s = _
  unfold execPackageReset
  refine if_neg ?_
  rintro ⟨h1, h2, h3⟩
  rcases h with h | h | h
  · exact h1 h
  · exact h2 h
  · rw [h] at h3; cases h3

/-- The dies of a package. -/
def diesOf (p : Nat) : List Nat := (List.range 8).map (fun i => p * 8 + i)

theorem mem_diesOf {p d : Nat} : d ∈ diesOf p ↔ d / 8 = p := by
  simp only [diesOf, List.mem_map, List.mem_range]
  exact ⟨fun ⟨i, hi, h⟩ => by omega, fun h => ⟨d % 8, by omega, by omega⟩⟩

/-- The state in which a package comes up, but for the domain's key. -/
def cameUp (s : State) (p : Nat) : State :=
  if ((s.pkg p).faulty.isNone && imageOk p (resetSource (s.pkg p))) = true then (diesOf p).foldl releaseDie (selfTested s p)
  else (diesOf p).foldl resetDie (selfTested s p)

section
variable (s : State) (p : Nat)

theorem cameUp_pkgs : (cameUp s p).pkgs = (selfTested s p).pkgs := by
  unfold cameUp
  split
  · exact releaseDies_pkgs ..
  · exact (resetDies_keep ..).1

theorem cameUp_pkg : (cameUp s p).pkg p = comesUp s p := by
  rw [State.pkg, cameUp_pkgs]
  exact (State.setPkg_pkg ..).trans (if_pos rfl)

theorem cameUp_others {q : Nat} (h : q ≠ p) : (cameUp s p).pkg q = s.pkg q := by
  rw [State.pkg, cameUp_pkgs]
  exact (State.setPkg_pkg ..).trans (if_neg h)

theorem cameUp_cells {j : Nat} (h : j / 1152 ≠ p) : (cameUp s p).cell j = s.cell j := by
  have hj : j / 144 ∉ diesOf p := by rw [mem_diesOf]; omega
  unfold cameUp
  split
  · exact releaseDies_cell _ hj _
  · exact (resetDies_cell _ j _).trans (if_neg hj)

variable {s p}

theorem cameUp_released (h : (s.pkg p).faulty = none ∧ imageOk p (resetSource (s.pkg p)) = true) : ((cameUp s p).pkg p).phase = .released
    ∧ ∀ i, i < 8 → ((cameUp s p).cell ((p * 8 + i) * 144)).status = .running ∧ ((cameUp s p).cell ((p * 8 + i) * 144)).A.pc =
      BitVec.ofNat 64 (imageAddr (p * 8 + i)) + BitVec.ofNat 64 (imageField (resetSource (s.pkg p)) 0x10 8) := by
  have hg : ((s.pkg p).faulty.isNone && imageOk p (resetSource (s.pkg p))) = true := by rw [h.1, h.2]; rfl
  refine ⟨?_, fun i hi => ?_⟩
  · rw [cameUp_pkg]
    exact if_pos hg
  · have hs := releaseDies_starts (diesOf p) (die := p * 8 + i) (mem_diesOf.2 (by omega)) (selfTested s p)
    have himg : ((selfTested s p).pkg (pkgOfDie (p * 8 + i))).image = resetSource (s.pkg p) := by
      have hp : pkgOfDie (p * 8 + i) = p := by unfold pkgOfDie; omega
      rw [hp, selfTested, State.setPkg_pkg, if_pos rfl]
      exact if_pos hg
    rw [Starts, himg] at hs
    rwa [cameUp, if_pos hg]

theorem cameUp_safe (h : ¬ ((s.pkg p).faulty = none ∧ imageOk p (resetSource (s.pkg p)) = true)) : ((cameUp s p).pkg p).phase = .safeTalkative
    ∧ (cameUp s p).mem = s.mem ∧ ∀ i, i < 1152 → (cameUp s p).cell (p * 1152 + i) = Cell.reset := by
  have hg : ¬ ((s.pkg p).faulty.isNone && imageOk p (resetSource (s.pkg p))) = true := by
    rwa [Bool.and_eq_true, Option.isNone_iff_eq_none]
  refine ⟨?_, ?_, fun i hi => ?_⟩
  · rw [cameUp_pkg]
    exact if_neg hg
  · rw [cameUp, if_neg hg]
    exact (resetDies_keep ..).2
  · rw [cameUp, if_neg hg]
    exact (resetDies_cell ..).trans (if_pos (mem_diesOf.2 (by omega)))

end

theorem testResult_length (k : Package) (free : Nat) : (testResult k free).length = 512 := by
  rw [testResult, List.length_cons, List.length_map, List.length_range]

/-- A package that comes up has everything at its reset value, under the version in force (R335, R397). -/
theorem packageReset_spec {s : State} {p : PkgId}
    (h : (s.pkg p.val).phase = .inReset ∨ (s.pkg p.val).phase = .safeTalkative ∨ (s.pkg p.val).severSelf = true) :
    exec (.packageReset p) s = .next (keyGone (cameUp s p.val)) := packageReset_eq h

theorem meas_of_faulty {k : Package} {f : Nat} {meas : List (BitVec 512)} (h : k.faulty = some f) (i : Nat) :
    (if k.faulty.isNone then meas else List.replicate 8 0).getD i 0 = 0 := by
  rw [h]
  show (List.replicate 8 (0 : BitVec 512)).getD i 0 = 0
  rw [List.getD_eq_getElem?_getD, List.getElem?_replicate]
  split <;> rfl

/-- A package that is ready, with the measurements that its firmware has extended. -/
def madeReady (s : State) (p : Nat) : State :=
  let k := s.pkg p
  let d (i : Nat) := BitVec.ofNat 512 (ofLe ((List.range 64).map (fun j => Config.freeByte (s.free + 64 * i + j))))
  let meas := k.meas.take 4 ++ (List.range 4).map (fun i => extendMeas (k.meas.getD (4 + i) 0) (d i))
  let topo := { s.topo with present := addOnce s.topo.present p, severed := s.topo.severed.filter (· != p), widths := dropKey s.topo.widths p }
  { s with free := s.free + 256, topo := topo }.setPkg p { k with phase := .ready, meas := meas, measLocked := true }

theorem startChange_version (u : State) : (u.changing = false → (startChange u).version = u.version + 1 ∧ (startChange u).told = u.topo)
    ∧ (u.changing = true → (startChange u).version = u.version ∧ (startChange u).again = true) := by
  unfold startChange
  refine ⟨fun h => ?_, fun h => ?_⟩
  · rw [if_neg (by simp [h])]; exact ⟨rfl, rfl⟩
  · rw [if_pos h]; exact ⟨rfl, rfl⟩

theorem firmwareReady_spec {s : State} {p : PkgId} (h : (s.pkg p.val).phase = .released) : ∃ t, exec (.firmwareReady p) s = .next t
    ∧ (t.pkg p.val).phase = .ready ∧ (t.pkg p.val).measLocked = true ∧ p.val ∈ t.topo.present
    ∧ (4 ≤ (s.pkg p.val).meas.length → (t.pkg p.val).meas.take 4 = (s.pkg p.val).meas.take 4) ∧ (t.pkg p.val).topo = (s.pkg p.val).topo
    ∧ t.changing = true ∧ (s.changing = false → t.version = s.version + 1 ∧ t.told = t.topo)
    ∧ (s.changing = true → t.version = s.version ∧ t.again = true) ∧ t.mem = s.mem ∧ t.cells = s.cells ∧ t.dies = s.dies := by
  refine ⟨startChange (madeReady s p.val), if_neg (not_not.2 h), ?_⟩
  have hf := startChange_frame (madeReady s p.val)
  have hc := startChange_changing (madeReady s p.val)
  obtain ⟨hnew, hold⟩ := startChange_version (madeReady s p.val)
  generalize startChange (madeReady s p.val) = t at hf hc hnew hold ⊢
  have hp : t.pkgs = (madeReady s p.val).pkgs := (congrArg State.pkgs hf :)
  have ht : t.topo = (madeReady s p.val).topo := (congrArg State.topo hf :)
  obtain ⟨ms, hms⟩ : ∃ ms, (madeReady s p.val).pkg p.val =
      { s.pkg p.val with phase := .ready, measLocked := true, meas := (s.pkg p.val).meas.take 4 ++ ms } :=
    ⟨_, (State.setPkg_pkg ..).trans (if_pos rfl)⟩
  have hpkg : t.pkg p.val = { s.pkg p.val with phase := .ready, measLocked := true, meas := (s.pkg p.val).meas.take 4 ++ ms } := by
    rw [State.pkg, hp]
    exact hms
  rw [hpkg, ht]
  refine ⟨rfl, rfl, List.contains_iff_mem.1 (addOnce_contains ..), fun h4 => ?_, rfl, hc, hnew, hold, (congrArg State.mem hf :),
    (congrArg State.cells hf :), (congrArg State.dies hf :)⟩
  have hlen : ((s.pkg p.val).meas.take 4).length = 4 := by rw [List.length_take]; omega
  exact (List.take_append_of_le_length (by omega)).trans (by rw [List.take_take, Nat.min_self])

theorem reloadStart_eq (s : State) (p : PkgId) (v : Reload) : exec (.reloadStart p v) s =
    if (!v.control.getLsbD 0) = true then .next (s.setPkg p.val { s.pkg p.val with loadWin := loadWindow (s.pkg p.val) v })
    else if (s.pkg p.val).phase = .safeTalkative then .next (s.setPkg p.val { s.pkg p.val with
      loadWin := loadWindow (s.pkg p.val) v, phase := .inReset, useLoad := true, reloadRefused := false })
    else .next (s.setPkg p.val { s.pkg p.val with loadWin := loadWindow (s.pkg p.val) v, reloadRefused := true }) := rfl

section
variable {s : State} {d : DieId} {z : Fin 9}

/-- The requests of the device interface of a die that is up and under no reassignment (R384, R385, R390). -/
theorem tdi_taken (hu : hostUp s d.pkg.val = true) (hr : (s.die (dieIx d)).reassign = none) :
    exec (.lockInterface ⟨d, z⟩) s = .next (transition s (dieIx d) (.lock z.val))
    ∧ exec (.startInterface d) s = .next (transition s (dieIx d) .start) ∧ exec (.stopInterface d) s = .next (transition s (dieIx d) .stop)
    ∧ ∀ o v, exec (.lockedConfigWrite d o v) s = .next (transition s (dieIx d) .toError) :=
  ⟨congrArg Host.Outcome.next (tdispRequest_taken hu hr), congrArg Host.Outcome.next (tdispRequest_taken hu hr),
    congrArg Host.Outcome.next (tdispRequest_taken hu hr), fun _ _ => congrArg Host.Outcome.next (tdispRequest_taken hu hr)⟩

end

/-- Settles O56: a request by the state of its interface; a reassigned die by the steps of its end; a package by the fold over its dies. -/
theorem worldsChangeAndPackagesComeUp : Obligations.WorldsChangeAndPackagesComeUp := by
  unfold Obligations.WorldsChangeAndPackagesComeUp
  refine ⟨fun d z s => ?worlds, fun p s v => ?packages⟩
  case worlds =>
    dsimp only
    rw [← hostUp_iff]
    refine ⟨fun hu => ?down, fun hu hr => ?waits, fun hu hr => ?taken, fun hu => ?reports, reassignmentComplete_none, fun r hr h1 => ?halts,
      fun r hr h1 => ⟨fun ho => ?open_, fun ho _ _ hn => ?ends⟩⟩
    case down =>
      have hd : hostUp s d.pkg.val = false := by simpa using hu
      have down (r : TdiReq) : Host.Outcome.next (tdispRequest s (dieIx d) r) = _ :=
        congrArg (Host.Outcome.next (φ := Fault) (ρ := Refusal)) ((tdispRequest_down hd).trans (setTdisp_dieIx s d .unsupported))
      have report : exec (.getDeviceInterfaceReport d) s = .next (setTdisp s (dieIx d) .unsupported) := if_pos (by rw [hd]; rfl)
      have state : exec (.getDeviceInterfaceState d) s = .next (setTdisp s (dieIx d) .unsupported) := if_pos (by rw [hd]; rfl)
      rw [setTdisp_dieIx] at report state
      exact ⟨down _, down _, down _, report, state⟩
    case waits =>
      have waits (r : TdiReq) : Host.Outcome.next (tdispRequest s (dieIx d) r) = _ :=
        congrArg (Host.Outcome.next (φ := Fault) (ρ := Refusal)) (tdispRequest_waits hu hr)
      exact ⟨waits _, waits _, waits _, fun _ _ => waits _⟩
    case taken =>
      obtain ⟨lock, start, stop, error⟩ := tdi_taken (z := z) hu hr
      have hp := pkgOfDie_dieIx d
      refine ⟨fun h => ?_, fun h n hn => ?_, fun h hn => ?_, fun h => ?_, fun h => ?_, stop, fun o v => ⟨fun h => ?_, fun h => ?_⟩⟩
      · rw [lock, transition_lock_refused h, setTdisp_dieIx]
      · obtain ⟨h1, h2, h3⟩ := nextSerial_spec hn
        rw [lock, transition_lock h (by rw [hp]; exact hn), hp]
        exact ⟨h1, h2, h3, rfl⟩
      · rw [lock, transition_lock_spent h (by rw [hp]; exact hn), setTdisp_dieIx, hp]
      · rw [start, transition_start_refused h, setTdisp_dieIx]
      · rw [start, transition_start h, setTdisp_dieIx]
      · rw [error, transition_error h]
        rfl
      · rw [error, transition_error_none h]
    case reports =>
      have report : exec (.getDeviceInterfaceReport d) s = .next (setTdisp { s with free := s.free + 1 } (dieIx d) (.bytes (Config.reply s.free))) :=
        if_neg (by rw [hu]; decide)
      have state : exec (.getDeviceInterfaceState d) s = .next (setTdisp s (dieIx d) (.value (tdiCode (s.die (dieIx d)).tdi))) :=
        if_neg (by rw [hu]; decide)
      rw [setTdisp_dieIx] at report state
      refine ⟨⟨_, report⟩, state.trans ?_⟩
      cases (s.die (dieIx d)).tdi <;> rfl
    case halts =>
      refine ⟨_, reassignmentComplete_halts hr h1, ?_, ?_, reassignHalt_status ..⟩ <;> rw [State.modDie_die_self]
    case open_ =>
      refine reassignmentComplete_waits hr h1 ?_
      rw [← Bool.not_eq_true, dieSettled_iff]
      exact not_not.2 ho
    case ends =>
      obtain ⟨t, ht, he⟩ := reassignmentComplete_ends hr h1 ((dieSettled_iff ..).2 ho)
      have hp := pkgOfDie_dieIx d
      rw [← hp] at hn
      obtain ⟨hstream, hworld, htdi, hre, hreg, -⟩ := ht.dieFields
      refine ⟨t, he, hstream, hworld, htdi, hre, hreg, ht.status, ht.own, ht.others, fun a ha => ?_, fun a h1 h2 h3 => ?_, fun hw a ha => ?_,
        fun q hq => ht.left hq⟩
      · rw [ht.byte hn (by omega) (by omega), if_neg (by omega)]
      · rw [ht.byte hn (by omega) h3, if_pos (by omega)]
      · rw [← hp] at hw ha ⊢
        exact ht.image hw ha
  case packages =>
    dsimp only
    refine ⟨fun h1 h2 h3 => ?_, fun h => ⟨_, packageReset_spec h, ?_⟩, fun h => if_pos h, firmwareReady_spec, fun h => ?_, fun h hs => ?_, fun h hs => ?_⟩
    · exact if_pos ⟨h1, h2, by rw [h3]; rfl⟩
    · have hf := keyGone_frame (cameUp s p.val)
      have hpkg (q : Nat) : (keyGone (cameUp s p.val)).pkg q = (cameUp s p.val).pkg q := (congrArg (fun x : State => x.pkg q) hf :)
      have hcell (j : Nat) : (keyGone (cameUp s p.val)).cell j = (cameUp s p.val).cell j := (congrArg (fun x : State => x.cell j) hf :)
      have hmem : (keyGone (cameUp s p.val)).mem = (cameUp s p.val).mem := (congrArg State.mem hf :)
      have hdies : (keyGone (cameUp s p.val)).dies = (cameUp s p.val).dies := (congrArg State.dies hf :)
      simp only [hpkg, hcell, hmem, hdies]
      refine ⟨cameUp_released, cameUp_safe, fun j => cameUp_cells s p.val, fun q => cameUp_others s p.val, ?_⟩
      rw [cameUp_pkg]
      refine ⟨rfl, rfl, rfl, rfl, fun f h i => meas_of_faulty h i, testResult_length .., ?_, fun hk => ?_⟩
      · show testVerdict (s.pkg p.val).faulty = _
        cases (s.pkg p.val).faulty <;> rfl
      · rw [keyGone_drops fun e he => (congrArg (fun x : State => dieKey x e.1) hf).symm.trans (hk e he)]
    · rw [reloadStart_eq, if_pos (by rw [h]; rfl)]
      rfl
    · rw [reloadStart_eq, if_neg (by rw [h]; decide), if_pos hs]
      rfl
    · rw [reloadStart_eq, if_neg (by rw [h]; decide), if_neg hs]
      rfl

end Sys2Proof.Machine
